-- ==== Sys2Proof/Word.lean ====
section
/-! DEFINITION. The two word types the manual treats as bits: bytes of frames and of the settings store, and the 16-bit CRC. -/

namespace Sys2Proof

/-- One byte of a frame or of the settings store (00_scope.md, Layouts). -/
abbrev Byte := BitVec 8

/-- The 16-bit register of the host link's CRC-16 (10 section 10.7). -/
abbrev Crc := BitVec 16

/-- Two bytes, most significant first, as a number (00_scope.md, Layouts). -/
def be16 (hi lo : Byte) : Nat := hi.toNat * 256 + lo.toNat

end Sys2Proof
end

