-- ==== Sys2Proof/Syntax.lean ====
section
/-! DEFINITION. Names, records and messages of the 6248, and `Instr`: one constructor per row of spec/opcode_table.json. -/

namespace Sys2Proof

/-! ## Names of states, kinds and codes -/

/-- 00_scope.md, Roles. -/
inductive Role where
  | headEnd | wayside
  deriving DecidableEq, Repr

/-- The two fibre ports. -/
inductive PortId where
  | east | west
  deriving DecidableEq, Repr

/-- The two loops, told apart by schedule (02 section 2.3). -/
inductive Loop where
  | outer | inner
  deriving DecidableEq, Repr

/-- R5: the states of a line port, PROBE with its two sub-states. -/
inductive PortState where
  | disabled | dark | probeSend | probeEcho | align | run | recover | loopback
  deriving DecidableEq, Repr

/-- R11: causes of a change of port state. -/
inductive PortCause where
  | lightLost | lightSeen | probeSeen | markersGood | markersMissing | errors | recoverExpired | command
  deriving DecidableEq, Repr, Inhabited

/-- R14: a wayside's attachment state. -/
inductive Attach where
  | through | foldEast | foldWest | orphan
  deriving DecidableEq, Repr

/-- R19: the head-end's ring state (CLOSED, WRAPPED, OPEN). -/
inductive RingState where
  | closed | wrapped | opened
  deriving DecidableEq, Repr

/-- 01 section 1.7: presence of a station in the map. -/
inductive Presence where
  | present | unreachable | duplicate
  deriving DecidableEq, Repr

/-- 01 section 1.7. -/
inductive ReachedVia where
  | outer | inner | fold
  deriving DecidableEq, Repr

/-- R22. -/
inductive SurveyKind where
  | closed | presence
  deriving DecidableEq, Repr

/-- 03 section 3.2: state of a phone call record. -/
inductive PhoneState where
  | idle | requesting | queued | alerting | connected | ringing | clearing | hung
  deriving DecidableEq, Repr

/-- R62: state of a call table entry. -/
inductive CallState where
  | queued | alerting | connected | ringing | clearing
  deriving DecidableEq, Repr

/-- R69, R70: cause carried by CALL-ENDED. -/
inductive EndCause where
  | phone | console | ringTimeout
  deriving DecidableEq, Repr

/-- R74: causes of a zone. -/
inductive Cause where
  | phone | weather | command
  deriving DecidableEq, Repr

/-- 04 section 4.3. -/
inductive SignState where
  | normal | zoned | fault
  deriving DecidableEq, Repr

/-- R82: outcome of a PAGE-LOAD exchange. -/
inductive LoadOutcome where
  | confirmed | refused | unanswered | abandoned
  deriving DecidableEq, Repr

/-- 04 section 4.4: release actions. -/
inductive ReleaseAction where
  | applyStaged | beaconPulse | rosterSweep | timeMark
  deriving DecidableEq, Repr

/-- 05 section 5.1: configured kind of a device. -/
inductive DeviceKind where
  | unused | sign | weather | toll
  deriving DecidableEq, Repr

/-- 05 section 5.2: state of a device. -/
inductive DevState where
  | unused | absent | joining | present | silent | failed | restarting | wrongKind
  deriving DecidableEq, Repr

/-- R100: causes of DEVICE-STATE. -/
inductive DevCause where
  | joined | wrongKind | misses | answered | restart | settled | remap | kind | lineReset
  deriving DecidableEq, Repr

/-- 05 section 5.3: the five kinds of exchange. -/
inductive ExchKind where
  | identify | status | pageLoad | sample | tollOffer
  deriving DecidableEq, Repr

/-- R111, R121: the request kinds a roster entry or a command poll may name. -/
inductive PollKind where
  | status | sample | tollOffer
  deriving DecidableEq, Repr

/-- R115: state of a restart output. -/
inductive OutState where
  | armed | holding | pulsing | spent
  deriving DecidableEq, Repr

/-- R116: cause of RESTART-FIRED. -/
inductive FireCause where
  | conditions | command
  deriving DecidableEq, Repr

/-- 05 section 5.8: device states a restart condition may name. -/
inductive CondState where
  | silent | failed | absent
  deriving DecidableEq, Repr

/-- 06 section 6.1. -/
inductive PoolClass where
  | toll | weather | sign | transit
  deriving DecidableEq, Repr

/-- R123: the condition a refused request failed. -/
inductive PoolReason where
  | ceiling | free | guarantee
  deriving DecidableEq, Repr

/-- R134: why a toll device is UNATTACHED. -/
inductive UnattachedReason where
  | full | clash | renumbered
  deriving DecidableEq, Repr

/-- 08 section 8.2: state of a segment. -/
inductive SegState where
  | opened | closed | loaned
  deriving DecidableEq, Repr

/-- R150: closing causes. -/
inductive CloseCause where
  | full | size | early | device | length
  deriving DecidableEq, Repr

/-- R151: reasons of WEATHER-LOSS. -/
inductive LossReason where
  | table | malformed | pool (r : PoolReason)
  deriving DecidableEq, Repr

/-- 08 section 8.3: direction of a threshold rule. -/
inductive Direction where
  | above | below
  deriving DecidableEq, Repr

/-- 08 section 8.3: state of a threshold rule. -/
inductive RuleState where
  | clear | arming (n : Nat) | tripped | easing (n : Nat)
  deriving DecidableEq, Repr

/-- R157, R159: causes of RULE-CLEAR. -/
inductive RuleClearCause where
  | value | changed | device
  deriving DecidableEq, Repr

/-- 09: the two kinds of collection. -/
inductive CollKind where
  | toll | weather
  deriving DecidableEq, Repr

/-- R162: state of a batch entry. -/
inductive BatchState where
  | asked | receiving | held
  deriving DecidableEq, Repr

/-- R171: how a batch ended. -/
inductive BatchCause where
  | complete | gap | timeout
  deriving DecidableEq, Repr

/-- R166: mark of an item of a wayside's batch. -/
inductive ItemMark where
  | unsent | sent | removed
  deriving DecidableEq, Repr

/-- 10 section 10.2: every notice code. -/
inductive NoticeCode where
  | portState | attachState | roleConflict
  | ringState | stationFound | stationLost | stationDuplicate | stationExcess | surveyDone
  | tokenReissued | clearWayUntaken
  | phoneState | callStranded | callLost
  | callArrived | callWaiting | queueFull | callConnected | callEnded
  | zoneStart | zoneEnd | signFailed | releaseDone | signState | signShown
  | deviceState | deviceNew | restartFired | inputChange
  | tollHeld | tollGap | tollBadRecord | tollSequenceJump | tollUnattached | tollHigh
  | segmentReady | weatherLoss | ruleTrip | ruleClear
  | holdState | holdLapsed | holdAsked | start
  deriving DecidableEq, Repr

/-- 10 section 10.6.1: the reply statuses. -/
inductive Status where
  | done | busy | held | badArgument | wrongState | wrongRole | noRoom | notFound | duplicate
  | timeout | storeFull | unknownCommand
  deriving DecidableEq, Repr

/-- R188: classes for the maintenance hold; `none` is the catalogue's "—". -/
inductive HoldClass where
  | read | device | zone | setting | collection | always | none
  deriving DecidableEq, Repr

/-- R190: operation of SETTING-WRITE and of a stored record. -/
inductive SettingOp where
  | set | add | remove
  deriving DecidableEq, Repr

/-! ## Time, pages, settings -/

/-- 01 section 1.6: node time. -/
structure NodeTime where
  seconds : Nat
  cycle : Nat
  sync : Bool
  deriving DecidableEq, Repr, Inhabited

/-- 04 section 4.3: a page, its text as lines of character codes. -/
structure Page where
  id : Nat
  lines : List (List Nat)
  deriving DecidableEq, Repr

/-- 04 section 4.2: a zone binding. -/
inductive Binding where
  | sign (zone device : Nat) (page : Page)
  | beacon (zone beacon onTime offTime : Nat)
  deriving DecidableEq, Repr

/-- 05 section 5.8: one restart condition. -/
inductive RestartCond where
  | device (d : Nat) (st : CondState)
  | input (i : Nat)
  | portNotRun (p : PortId)
  | orphan
  deriving DecidableEq, Repr

/-- 05 section 5.8: the setting of one restart output; hold, width and settle in seconds. -/
structure OutputSpec where
  conds : List RestartCond
  hold : Nat
  width : Nat
  target : Option Nat
  settle : Nat
  deriving DecidableEq, Repr

/-- 05 section 5.9: the setting of one cabinet input; debounce in milliseconds. -/
structure InputSpec where
  activeHigh : Bool
  debounce : Nat
  notice : Bool
  deriving DecidableEq, Repr

/-- 05 section 5.6: the setting of one roster entry; period in tenths of a second. -/
structure RosterSpec where
  device : Nat
  kind : PollKind
  period : Nat
  deriving DecidableEq, Repr

/-- 08 section 8.3: the seven fields of a threshold rule. -/
structure RuleSpec where
  device : Nat
  quantity : Nat
  level : Int
  direction : Direction
  hysteresis : Nat
  hold : Nat
  zone : Nat
  deriving DecidableEq, Repr

/-- 10 section 10.2: the routing of one notice code. -/
structure Route where
  code : NoticeCode
  host : Bool
  centre : Bool
  deriving DecidableEq, Repr

/-- 06 section 6.1: floor and ceiling of one class. -/
structure ClassBounds where
  cls : PoolClass
  floor : Nat
  ceiling : Nat
  deriving DecidableEq, Repr

/-- Key of a record of a list-valued item (11 section 11.1). -/
inductive SettingKey where
  | num (n : Nat)
  | zoneDevice (z d : Nat)
  | zoneBeacon (z b : Nat)
  | cls (c : PoolClass)
  | code (c : NoticeCode)
  deriving DecidableEq, Repr

/-- A value given to SETTING-WRITE, by the form of its item (11 section 11.1).
`keys` is what REMOVE names for a list; `garbled` is a value that is not of its item's form. -/
inductive SettingValue where
  | number (n : Nat)
  | actions (l : List ReleaseAction)
  | beacons (l : List Nat)
  | pattern (l : List (Nat × Nat))
  | portZones (l : List (Nat × Nat))
  | bindings (l : List Binding)
  | remap (l : List (Nat × Option Nat))
  | kinds (l : List (Nat × Option DeviceKind))
  | roster (l : List (Nat × Option RosterSpec))
  | outputs (l : List (Nat × OutputSpec))
  | inputs (l : List (Nat × InputSpec))
  | classes (l : List ClassBounds)
  | rules (l : List (Nat × Option RuleSpec))
  | routes (l : List Route)
  | keys (l : List SettingKey)
  | garbled
  deriving DecidableEq, Repr, Inhabited

/-! ## Values of replies and notice details -/

/-- A value carried by a notice's details or by a reply's result, named as the manual names it.
Lists are built of `nil` and `cons`; the manual gives these values no bit form (log entry 8). -/
inductive Value where
  | num (n : Int)
  | flag (b : Bool)
  | time (t : NodeTime)
  | absent
  | empty
  | role (r : Role)
  | port (p : PortId)
  | loop (l : Loop)
  | portState (s : PortState)
  | portCause (c : PortCause)
  | attach (a : Attach)
  | ring (r : RingState)
  | presence (p : Presence)
  | via (v : ReachedVia)
  | surveyKind (k : SurveyKind)
  | phone (p : PhoneState)
  | call (c : CallState)
  | endCause (c : EndCause)
  | causes (l : List Cause)
  | sign (s : SignState)
  | outcome (o : LoadOutcome)
  | devKind (k : DeviceKind)
  | dev (s : DevState)
  | devCause (c : DevCause)
  | exch (k : ExchKind)
  | poll (k : PollKind)
  | out (s : OutState)
  | fire (c : FireCause)
  | poolReason (r : PoolReason)
  | unattached (r : UnattachedReason)
  | seg (s : SegState)
  | close (c : CloseCause)
  | loss (r : LossReason)
  | rule (s : RuleState)
  | ruleClear (c : RuleClearCause)
  | kind (k : CollKind)
  | batch (s : BatchState)
  | batchCause (c : BatchCause)
  | code (c : NoticeCode)
  | hold (held : Bool)
  | byCommand
  | setting (v : SettingValue)
  | bytes (l : List Byte)
  | nil
  | cons (head tail : Value)
  deriving DecidableEq, Repr

/-- A list of values as one value. -/
def Value.list : List Value → Value
  | [] => .nil
  | v :: vs => .cons v (Value.list vs)

/-- A number. -/
def Value.nat (n : Nat) : Value := .num (Int.ofNat n)

/-- A field that may be absent (00_scope.md, Records and fields). -/
def Value.opt {α : Type} (f : α → Value) : Option α → Value
  | none => .absent
  | some a => f a

/-- Subject of a notice (10 section 10.1). -/
inductive Subject where
  | none
  | device (n : Nat) | voicePort (n : Nat) | zone (n : Nat) | rule (n : Nat)
  | output (n : Nat) | input (n : Nat) | linePort (p : PortId)
  deriving DecidableEq, Repr

/-- An entry of the notice queue (10 section 10.1); the destination set is two marks, and `received` tells an entry
taken from a NOTICE-FWD (R181) from one posted at this node. -/
structure Notice where
  code : NoticeCode
  source : Nat
  received : Bool
  subject : Subject
  time : NodeTime
  details : List Value
  toHost : Bool
  toCentre : Bool
  deriving DecidableEq, Repr

/-! ## Commands of the catalogue -/

/-- Argument of ROSTER-SET (R111); an unknown request kind is `none`. -/
inductive RosterArg where
  | empty
  | entry (device : Nat) (kind : Option PollKind) (period : Nat)
  deriving DecidableEq, Repr

/-- Argument of RULE-SET (R159); an unknown direction is `none`. -/
inductive RuleArg where
  | empty
  | rule (device quantity : Nat) (level : Int) (direction : Option Direction)
      (hysteresis hold zone : Nat)
  deriving DecidableEq, Repr

/-- A command of the catalogue (10 section 10.8) with its arguments as sent: numbers may lie outside their
ranges, and a word that names no member of a list is `none`. FORWARD is a frame, not a code (02 section 2.7). -/
inductive Command where
  | portEnable (port : Nat) | portDisable (port : Nat) | portReset (port : Nat)
  | portLoopback (port : Nat) | portStatus (port : Nat)
  | timeSet (seconds : Nat) | timeRead | surveyStart | stationMapRead (start : Nat) | ringStatus
  | windowStatus
  | phoneStatus | callAnswer (call console : Nat) | callEnd (call : Nat)
  | callRing (station port console : Nat) | voiceCapSet (cap : Nat) | callList (start : Nat)
  | zoneStart (zone : Nat) | zoneClear (zone : Nat) (causes : List (Option Cause))
  | signShow (device : Nat) (page : Page) | signStage (device : Nat) (page : Page) (tag : Nat)
  | signUnstage (device : Nat) | signStatus (device : Nat) | release (tag : Nat)
  | beaconSetSingle (beacon onTime offTime : Nat) | beaconSetCancel (beacon : Nat) | zoneStatus
  | rosterSet (entry : Nat) (arg : RosterArg) | rosterRead | lineReset (line : Nat)
  | restartPulse (output : Nat) | inputStatus | deviceList | deviceStatus (device : Nat)
  | deviceStatusPoll (device : Nat) (poll : Option PollKind)
  | poolStatus | tollStatus (start : Nat)
  | ruleSet (rule : Nat) (arg : RuleArg) | ruleStatus | wxStatus (start : Nat)
  | collect (station : Nat) (kind : Option CollKind) (max : Nat)
  | collectConfirm (batch : Nat) | collectDrop (batch : Nat) | collectStatus
  | noticeRead (count : Nat) | noticeClear
  | noticeRouteSet (code : Option NoticeCode) (host centre : Bool)
  | maintHold | maintEnd | holdReleaseAsk | identify
  | settingWrite (op : SettingOp) (item : Nat) (value : SettingValue)
  | settingRead (item : Nat) (key : Option SettingKey)
  | storeAppend (record : List Byte) | storeRead (offset : Nat) | restart
  deriving DecidableEq, Repr

/-- What a command code and body spell: no code of the catalogue, a code whose body does not spell its
arguments, or a command. -/
inductive Parsed where
  | unknown
  | garbled (c : Command)
  | command (c : Command)
  deriving DecidableEq, Repr, Inhabited

/-- Where a command came from: channel L with the host's tag, or channel C with its forward number (R186). -/
inductive Origin where
  | link (tag : Nat)
  | centre (fwd : Nat)
  deriving DecidableEq, Repr

/-! ## Toll records, samples, segments -/

/-- R141: a toll record as a gantry offers it; `presence` is the layout's byte 15. -/
structure TollRecord where
  gantry : Nat
  seq : Nat
  lane : Nat
  cls : Nat
  seconds : Nat
  millis : Nat
  confidence : Nat
  presence : Byte
  tag : List Byte
  plateLength : Nat
  plate : List Byte
  deriving DecidableEq, Repr

/-- 08 section 8.1: one quantity of a sample. -/
structure Quantity where
  code : Nat
  value : Int
  deriving DecidableEq, Repr

/-- R147: a sample record. -/
structure Sample where
  device : Nat
  time : NodeTime
  quantities : List Quantity
  deriving DecidableEq, Repr

/-- 08 section 8.2: a segment; the batch number stands in `batch` while LOANED. -/
structure Segment where
  number : Nat
  device : Nat
  state : SegState
  batch : Option Nat
  first : NodeTime
  gap : Nat
  cause : Option CloseCause
  samples : List Sample
  deriving DecidableEq, Repr

/-- R166: identity of a batch item. -/
inductive ItemId where
  | toll (gantry seq : Nat)
  | segment (number : Nat)
  deriving DecidableEq, Repr

/-- R168: what a BATCH-ITEM carries after its five fields. -/
inductive Item where
  | toll (r : TollRecord) (receipt : NodeTime)
  | segment (s : Segment)
  | void (id : ItemId)
  deriving DecidableEq, Repr

/-- R165: acknowledgement list of a COLLECT-ACK. -/
inductive AckList where
  | toll (l : List (Nat × Nat))
  | weather (l : List Nat)
  deriving DecidableEq, Repr

/-! ## Ring messages and cycles -/

/-- R28: body of a ring message other than SURVEY. -/
inductive Payload where
  | callRequest (port : Nat) (time : NodeTime)
  | callQueued (port call place : Nat)
  | callAssign (port call slot : Nat)
  | callBusy (port : Nat)
  | callRing (port call slot : Nat)
  | callAnswered (port call : Nat)
  | callClear (port : Nat) (call : Option Nat)
  | callCleared (port call : Nat)
  | commandFwd (fwd : Nat) (cmd : Parsed)
  | replyFwd (fwd : Nat) (status : Status) (result : Value)
  | noticeFwd (entries : List Notice)
  | collectAsk (batch : Nat) (kind : CollKind) (max : Nat)
  | batchHead (batch : Nat) (kind : CollKind) (n : Nat)
  | batchItem (batch : Nat) (kind : CollKind) (n index : Nat) (item : Item)
  | batchEnd (batch : Nat) (kind : CollKind) (n : Nat)
  | collectAck (batch : Nat) (list : AckList)
  deriving DecidableEq, Repr, Inhabited

/-- A ring message: source, destination, length in slots (R29) and body. -/
structure Message where
  source : Nat
  dest : Nat
  length : Nat
  payload : Payload
  deriving DecidableEq, Repr

/-- R23: a station's entry in a SURVEY message. -/
structure SurveyEntry where
  station : Nat
  attach : Attach
  foldSeen : Nat
  deriving DecidableEq, Repr

/-- Body of an occupied slot: its share of a message (log entry 9), or a slot of a SURVEY message with its
places for entries. -/
inductive SlotBody where
  | message (p : Payload)
  | survey (number places : Nat) (entries : List SurveyEntry) (overflow : Bool)
  deriving DecidableEq, Repr

/-- R29: an occupied data-window slot; destination 0 is broadcast. An empty slot (kind 0) is `none`. -/
structure Slot where
  source : Nat
  dest : Nat
  length : Nat
  seq : Nat
  body : SlotBody
  deriving DecidableEq, Repr

/-- 02 section 2.3: the token field. -/
inductive TokenField where
  | empty | free | directed (station : Nat)
  deriving DecidableEq, Repr

/-- The management slot: token field, clear-way field, lap count. -/
structure Mgmt where
  token : TokenField
  clearWay : Option Nat
  lap : Nat
  deriving DecidableEq, Repr

/-- Audio by its source; the manual gives it no coding (log entry 36). `filler` is a part nobody wrote. -/
inductive Audio where
  | filler | silence | reassurance | waitingTone | clearedTone
  | console (p : Nat) | phone (station port : Nat)
  deriving DecidableEq, Repr

/-- R50: a voice slot. -/
structure VoiceSlot where
  label : Nat
  connected : Bool
  down : Audio
  up : Audio
  deriving DecidableEq, Repr

/-- R1: the marker. -/
structure Marker where
  number : Nat
  time : NodeTime
  voiceCap : Nat
  foldCount : Nat
  releaseTag : Option Nat
  deriving DecidableEq, Repr

/-- Slots 1–63 of a full cycle. -/
structure Content where
  mgmt : Mgmt
  voice : List VoiceSlot
  data : List (Option Slot)
  deriving DecidableEq, Repr

/-- R2: a cycle; a bare cycle has no content. -/
structure Cycle where
  marker : Marker
  content : Option Content
  deriving DecidableEq, Repr

/-- R1: a cycle is of the inner schedule exactly when its marker's voice cap is 0. -/
def Cycle.loop (c : Cycle) : Loop := if c.marker.voiceCap = 0 then .inner else .outer

/-- R6: the probe pattern. -/
structure Probe where
  station : Nat
  role : Role
  echo : Bool
  deriving DecidableEq, Repr

/-! ## Replies on tributary lines -/

/-- 05 section 5.2: an identity record; a gantry declares its number and oldest unconfirmed sequence. -/
structure Identity where
  kind : DeviceKind
  maker : Nat
  serial : Nat
  level : Nat
  gantry : Nat
  oldest : Nat
  deriving DecidableEq, Repr

/-- 05 section 5.2: the kind's fields of a status record. -/
inductive DeviceStatus where
  | sign (page : Option Nat) (failed : Nat) (door : Bool)
  | weather (faults : List Nat) (heater door : Bool)
  | toll (lanes : List Nat) (offset : Int) (unconfirmed : Nat) (door : Bool)
  deriving DecidableEq, Repr

/-- 05 section 5.3: what a reply carries. -/
inductive ReplyContent where
  | identity (i : Identity)
  | status (s : DeviceStatus)
  | pageAccepted (shown : Nat)
  | pageRefused
  | sample (l : List Quantity)
  | noSample
  | records (l : List TollRecord)
  deriving DecidableEq, Repr

/-- The exchange kind a reply's content is of. -/
def ReplyContent.kind : ReplyContent → ExchKind
  | .identity _ => .identify
  | .status _ => .status
  | .pageAccepted _ => .pageLoad
  | .pageRefused => .pageLoad
  | .sample _ => .sample
  | .noSample => .sample
  | .records _ => .tollOffer

/-- R101: what arrives on a line: a reply that fails its check or is cut short, or a whole one. -/
inductive LineReply where
  | corrupt
  | whole (number : Nat) (content : ReplyContent)
  deriving DecidableEq, Repr

/-! ## The commands and events of spec/opcode_table.json -/

/-- One constructor per row of spec/opcode_table.json, in its order. -/
inductive Instr where
  | resetAsserted
  | start
  | originateCycle
  | cycleTimerTick
  | cycleArrivesWayside (port : PortId) (cycle : Cycle) (good : Bool) (errors : Nat)
  | cycleReturns (port : PortId) (cycle : Cycle) (good : Bool) (errors : Nat)
  | markerMissing (port : PortId) (errors : Nat)
  | recoverExpired (port : PortId)
  | lightLost (port : PortId)
  | lightSeen (port : PortId)
  | probeReceived (port : PortId) (probe : Probe)
  | partnerMovedOn (port : PortId)
  | noGoodMarkerTimeout
  | waitToRestoreExpiry
  | headEndRestoreExpiry
  | returnTimeout
  | surveyTimeout
  | portEnable (o : Origin) (port : Nat)
  | portDisable (o : Origin) (port : Nat)
  | portReset (o : Origin) (port : Nat)
  | portLoopback (o : Origin) (port : Nat)
  | portStatus (o : Origin) (port : Nat)
  | timeSet (o : Origin) (seconds : Nat)
  | timeRead (o : Origin)
  | surveyStart (o : Origin)
  | stationMapRead (o : Origin) (first : Nat)
  | ringStatus (o : Origin)
  | tokenLossExpiry (loop : Loop)
  | loopCeases (loop : Loop)
  | windowStatus (o : Origin)
  | forward (tag station : Nat) (cmd : Parsed)
  | commandFwd (source fwd : Nat) (cmd : Parsed)
  | replyFwd (source fwd : Nat) (status : Status) (result : Value)
  | forwardTimeout (fwd : Nat)
  | hookContactChange (port : Nat) (offHook : Bool)
  | hookDebounceExpiry (port : Nat)
  | repeatTimerExpiry (port : Nat)
  | callQueued (port call place : Nat)
  | callAssign (port call slot : Nat)
  | callBusy (port : Nat)
  | callRingAtWayside (port call slot : Nat)
  | callAnsweredAtWayside (port call : Nat)
  | callClearAtWayside (port call : Nat)
  | callClearedAtWayside (port call : Nat)
  | labelRunLimit (port : Nat)
  | phoneStatus (o : Origin)
  | callRequest (station port : Nat) (time : NodeTime)
  | callAnswer (o : Origin) (call console : Nat)
  | callEnd (o : Origin) (call : Nat)
  | callRing (o : Origin) (station port console : Nat)
  | ringTimerExpiry (call : Nat)
  | callAnsweredAtHeadEnd (station port call : Nat)
  | callClearAtHeadEnd (station port : Nat) (call : Option Nat)
  | callClearedAtHeadEnd (station port call : Nat)
  | drainTimerExpiry (call : Nat)
  | voiceCapSet (o : Origin) (cap : Nat)
  | callList (o : Origin) (first : Nat)
  | zoneStart (o : Origin) (zone : Nat)
  | zoneClear (o : Origin) (zone : Nat) (causes : List (Option Cause))
  | signShow (o : Origin) (device : Nat) (page : Page)
  | signStage (o : Origin) (device : Nat) (page : Page) (tag : Nat)
  | signUnstage (o : Origin) (device : Nat)
  | signStatus (o : Origin) (device : Nat)
  | release (o : Origin) (tag : Nat)
  | releaseDelayExpiry
  | beaconPhaseExpiry (beacon : Nat)
  | beaconSetSingle (o : Origin) (beacon onTime offTime : Nat)
  | beaconSetCancel (o : Origin) (beacon : Nat)
  | zoneStatus (o : Origin)
  | exchangeReply (line : Nat) (reply : LineReply)
  | replyTimeout (line : Nat)
  | joinDue (device : Nat)
  | rosterDue (entry : Nat)
  | rosterSet (o : Origin) (entry : Nat) (arg : RosterArg)
  | rosterRead (o : Origin)
  | lineReset (o : Origin) (line : Nat)
  | holdTimerExpiry (output : Nat)
  | pulseTimerExpiry (output : Nat)
  | restartEnd (device : Nat)
  | restartPulse (o : Origin) (output : Nat)
  | inputContactChange (input : Nat) (high : Bool)
  | inputDebounceExpiry (input : Nat)
  | inputStatus (o : Origin)
  | deviceList (o : Origin)
  | deviceStatus (o : Origin) (device : Nat)
  | deviceStatusPoll (o : Origin) (device : Nat) (poll : Option PollKind)
  | poolStatus (o : Origin)
  | tollStatus (o : Origin) (first : Nat)
  | ruleSet (o : Origin) (rule : Nat) (arg : RuleArg)
  | ruleStatus (o : Origin)
  | wxStatus (o : Origin) (first : Nat)
  | collect (o : Origin) (station : Nat) (kind : Option CollKind) (max : Nat)
  | collectAsk (batch : Nat) (kind : CollKind) (max : Nat)
  | batchHead (source batch : Nat) (kind : CollKind) (n : Nat)
  | batchItem (source batch : Nat) (kind : CollKind) (n index : Nat) (item : Item)
  | batchEnd (source batch : Nat) (kind : CollKind) (n : Nat)
  | batchTimerExpiry (batch : Nat)
  | collectConfirm (o : Origin) (batch : Nat)
  | collectDrop (o : Origin) (batch : Nat)
  | collectAck (batch : Nat) (list : AckList)
  | collectStatus (o : Origin)
  | noticeFwd (source : Nat) (entries : List Notice)
  | noticeRead (o : Origin) (count : Nat)
  | noticeClear (o : Origin)
  | noticeRouteSet (o : Origin) (code : Option NoticeCode) (host centre : Bool)
  | attentionPauseExpiry
  | hostFrameReceived (bytes : List Byte)
  | frameGapTimeout
  | frameSent
  | maintHold (o : Origin)
  | maintEnd (o : Origin)
  | holdLapseExpiry
  | holdReleaseAsk (o : Origin)
  | identify (o : Origin)
  | settingWriteSet (o : Origin) (item : Nat) (value : SettingValue)
  | settingWriteAdd (o : Origin) (item : Nat) (value : SettingValue)
  | settingWriteRemove (o : Origin) (item : Nat) (value : SettingValue)
  | settingRead (o : Origin) (item : Nat) (key : Option SettingKey)
  | storeAppend (o : Origin) (record : List Byte)
  | storeWriteDone
  | storeRead (o : Origin) (offset : Nat)
  | restart (o : Origin)
  | badLength
  | linkReplyGapEnds
  deriving DecidableEq, Repr

end Sys2Proof
end

