-- ==== Sys2Proof/Decode.lean ====
section
/-! DEFINITION. The commands that words of spec/opcode_table.json spell: none, since no row of the table gives bits. -/

namespace Sys2Proof

/-- The command that a word of `nbits` bits spells by the table's bits: no row gives any, so none (log entry 46). -/
def decodeTableWord (_nbits _w : Nat) : Option Instr := none

end Sys2Proof
end

