-- ==== Sys2Proof/Config.lean ====
section
/-! DEFINITION. What the manual fixes for every 6248 (quantities) and the free values it leaves open (opaque constants, no body). -/

namespace Sys2Proof.Config

/-! ## Quantities -/

/-- One second is 4000 cycle periods (00_scope.md, Time). -/
def cyclesPerSecond : Nat := 4000
/-- One millisecond is 4 cycle periods of 250 µs (00_scope.md, Time). -/
def cyclesPerMs : Nat := 4
/-- A tenth of a second in cycle periods (05 section 5.6). -/
def cyclesPerTenth : Nat := 400
/-- R96: a beacon unit of 10 ms is 40 cycle periods. -/
def beaconUnit : Nat := 40
/-- R20: the seconds count wraps after 4 294 967 295. -/
def secondsWrap : Nat := 4294967296
/-- R1: the cycle number runs from 0 to 65535. -/
def cycleNumberWrap : Nat := 65536
/-- R4, R13, R33: counts of one byte stop or wrap at 255. -/
def byteMax : Nat := 255
/-- Counts that stop at 65535 (R46, R101, R129, R175, R184). -/
def wordMax : Nat := 65535
/-- Counts that stop at 4294967295 (R146, R161). -/
def longMax : Nat := 4294967295
/-- R8, R9, R19, R56: the run of 8. -/
def alignRun : Nat := 8
/-- R8, R14, R19, R43: the limit of 3 cycle periods or markers. -/
def missLimit : Nat := 3
/-- R9: 200 cycle periods in RECOVER. -/
def recoverLimit : Nat := 200
/-- R25: 4000 cycle periods for a survey. -/
def surveyLimit : Nat := 4000
/-- R3: a cycle number this far behind the last one handed on, or farther, is no cycle that comes back. The spec gives no
such bound: the model takes the time that R25 gives a survey message to come back (log entry 69). -/
def lapMost : Nat := 4000
/-- 01 section 1.7: entries of the station map. -/
def mapSize : Nat := 48
/-- R31: places of the emergency queue. -/
def emergencyPlaces : Nat := 16
/-- R31: places of the normal queue. -/
def normalPlaces : Nat := 64
/-- R35: data slots placed in one cycle. -/
def slotsPerCycle : Nat := 4
/-- R54: the repeat timer. -/
def repeatTime : Nat := 4000
/-- R62: the ring timer. -/
def ringTime : Nat := 240000
/-- R62: the drain timer. -/
def drainTime : Nat := 8000
/-- R59: CALL's held list. -/
def callHeld : Nat := 16
/-- R63: places of the wait queue. -/
def waitPlaces : Nat := 16
/-- R62: voice slots. -/
def voiceSlots : Nat := 24
/-- 04 section 4.2: bindings. -/
def bindingPlaces : Nat := 32
/-- 05 section 5.4: the join interval. -/
def joinInterval : Nat := 40000
/-- R107: the silent and failed limits. -/
def silentLimit : Nat := 3
/-- R107. -/
def failedLimit : Nat := 10
/-- 06: buffers of the pool. -/
def poolSize : Nat := 1536
/-- R131: gantry entries. -/
def gantryPlaces : Nat := 16
/-- R148: segments. -/
def segmentPlaces : Nat := 48
/-- R149: bytes of a segment record. -/
def segmentBytes : Nat := 360
/-- R165: COLL's held list at the head-end. -/
def collHeld : Nat := 8
/-- R171: frames of the delivery queue. -/
def deliveryPlaces : Nat := 516
/-- R164: frames one batch may append. -/
def batchFrames : Nat := 129
/-- R171: bytes of a DATA frame's body left for the item: 240 less batch number, kind, n, index, void mark,
part number and part count of one byte each (DEDUCED, log entry 26). -/
def dataRoom : Nat := 233
/-- R176: entries of the notice queue. -/
def noticePlaces : Nat := 256
/-- R183: the attention pause. -/
def attentionPause : Nat := 200
/-- 10 section 10.7: the start marker byte. -/
def startMarker : Byte := 165#8
/-- R184: cycle periods without a byte that cut a frame short. -/
def frameGap : Nat := 40
/-- R184: longest frame body. -/
def bodyMax : Nat := 240
/-- 11 section 11.2: bytes of the settings store. -/
def storeSize : Nat := 4096
/-- R193: bytes of a STORE-READ reply. -/
def storeReadMax : Nat := 224

/-- R23: places for entries in the slot of a SURVEY message with this sequence: 5 in the first and 6 in each
other, 47 in all (DESIGN CHOICE, log entry 13). -/
def surveyPlaces (seq : Nat) : Nat := if seq = 1 then 5 else 6

/-! ## Free values -/

/-- What a command code and body spell; the manual gives no codes (log entry 7). -/
opaque parseCommand : Byte → List Byte → Parsed
/-- The value spelt by the value bytes of a stored record; the manual gives no form (log entry 7). -/
opaque parseSetting : (item : Nat) → SettingOp → List Byte → SettingValue
/-- The result bytes of a SETTING-READ reply that gives these records of a list and tells how many follow; the manual
gives no form (R191; log entry 7). -/
opaque listResult : (item : Nat) → (records : List SettingValue) → (follow : Nat) → List Byte
/-- R189: the part revision number (log entry 35). -/
opaque partRevision : Nat
/-- What a message is whose slots carry shares of different messages (R30, log entry 9). -/
opaque mixedMessage : List Payload → Payload
/-- The body of a message to which the manual gives no bytes (R29, log entry 43). -/
opaque messageBody : Payload → List Byte
/-- The body bytes of a slot of a SURVEY message (R29, log entry 43). -/
opaque surveyBody : (number room : Nat) → List SurveyEntry → (overflow : Bool) → List Byte
/-- Which of the numbers still free each kind of R28 takes in a slot header, kind by kind (R29, log entry 43). -/
opaque kindChoice : Nat → Nat
/-- The filler of a slot (R29, log entry 43). -/
opaque filler : Byte
/-- Which of the numbers still free each notice code takes, code by code (10 section 10.7, log entry 43). -/
opaque noticeChoice : Nat → Nat
/-- The number that stands for a detail value that is no number (10 section 10.7, log entry 43). -/
opaque detailNumber : Value → Nat
/-- R31: which of several producers told of a freeing is first, a fresh value each time (log entry 12). -/
opaque producerChoice : Nat → Nat
/-- R192: whether a byte of a record was written before a reset came (log entry 21). -/
opaque byteWritten : (fresh offset : Nat) → Bool
/-- R6, R11: the cause posted when light carrying markers or idle fill moves PROBE.ECHO to ALIGN (log entry 23). -/
opaque movedOnCause : PortCause
/-- R185: whether a NOTICE goes before a DATA frame when neither kind was sent last (log entry 28). -/
opaque noticeFirst : Bool

/-- R66: whether the CALL-ENDED of a QUEUED call is marked confirmed; the manual does not say (log entry 42). -/
opaque queuedEndConfirmed : Bool

/-- The station number by which a wayside addresses the head-end; the manual does not say how it knows it
(log entry 37). -/
opaque headEndNumber : Nat

end Sys2Proof.Config
end

