-- ==== Sys2Proof/Machine/State.lean ====
section
/-! DEFINITION. The state of the 6248 as plain data: every record the chapters give it, the queue of waiting commands, and the state after reset. -/

namespace Sys2Proof.Machine

/-- Reasons a step could stop with a fault. The manual names no event that stops the part (INVENTORY.md, Faults), so
there is none: the type is empty. Safe: nothing can be claimed of a fault. -/
inductive Fault where
  deriving DecidableEq, Repr

/-- Reasons a command could have no meaning. -/
inductive Refusal where
  /-- Raised by `exec` for a row of the table that has no meaning yet. Safe: nothing follows of such a command. -/
  | notModelled (mnemonic : String)
  deriving DecidableEq, Repr

/-- The settings store as cells (offset, byte), offsets strictly rising; an offset not listed is unwritten. -/
abbrev Memory := List Host.Cell

/-! ## Settings (11 section 11.1) -/

/-- The working value of every item but POOL-CLASSES, which stands in `Pool`. -/
structure Settings where
  role : Role
  station : Nat
  linkRate : Nat
  replyGap : Nat
  errorThreshold : Nat
  waitToRestore : Nat
  tokenLossLimit : Nat
  voiceCap : Nat
  burstQuota : Nat
  forwardTimeout : Nat
  hookDebounce : Nat
  portZones : List Nat
  releaseDelay : Nat
  releaseActions : List ReleaseAction
  pulseBeacons : List Nat
  pulsePattern : Nat × Nat
  bindings : List Binding
  remap : List (Option Nat)
  kinds : List DeviceKind
  exchangeTimeout : Nat
  exchangeRetries : Nat
  roster : List (Option RosterSpec)
  outputs : List OutputSpec
  inputs : List InputSpec
  tollHigh : Nat
  segmentLength : Nat
  rules : List (Option RuleSpec)
  batchLimit : Nat
  collectTimeout : Nat
  routes : List Route
  noticePush : Bool
  attentionPulse : Bool
  holdLapse : Nat
  deriving DecidableEq, Repr

/-- 05 section 5.8: default of a restart output. -/
def OutputSpec.default : OutputSpec :=
  { conds := [], hold := 60, width := 2, target := none, settle := 30 }

/-- 05 section 5.9: default of a cabinet input. -/
def InputSpec.default : InputSpec := { activeHigh := false, debounce := 100, notice := true }

/-- 10 section 10.2: the codes whose default centre enable is off. -/
def centreOff : List NoticeCode :=
  [.phoneState, .signState, .signShown, .inputChange, .segmentReady, .holdAsked]

/-- 10 section 10.2: every code, in the order of its table. -/
def noticeCodes : List NoticeCode :=
  [.portState, .attachState, .roleConflict, .ringState, .stationFound, .stationLost, .stationDuplicate,
   .stationExcess, .surveyDone, .tokenReissued, .clearWayUntaken, .phoneState, .callStranded, .callLost,
   .callArrived, .callWaiting, .queueFull, .callConnected, .callEnded, .zoneStart, .zoneEnd, .signFailed,
   .releaseDone, .signState, .signShown, .deviceState, .deviceNew, .restartFired, .inputChange, .tollHeld,
   .tollGap, .tollBadRecord, .tollSequenceJump, .tollUnattached, .tollHigh, .segmentReady, .weatherLoss,
   .ruleTrip, .ruleClear, .holdState, .holdLapsed, .holdAsked, .start]

/-- 10 section 10.2: the default routing. -/
def defaultRoute (c : NoticeCode) : Route :=
  { code := c, host := true, centre := !(centreOff.contains c) }

/-- R194 step 2: every item at its default. -/
def Settings.default : Settings where
  role := .wayside
  station := 999
  linkRate := 0
  replyGap := 0
  errorThreshold := 40
  waitToRestore := 30
  tokenLossLimit := 2000
  voiceCap := 16
  burstQuota := 8
  forwardTimeout := 2000
  hookDebounce := 50
  portZones := List.replicate 8 0
  releaseDelay := 0
  releaseActions := [.applyStaged]
  pulseBeacons := []
  pulsePattern := (50, 50)
  bindings := []
  remap := [some 1, some 2, some 3, some 4, some 5, some 6, some 7, some 8]
  kinds := List.replicate 8 .unused
  exchangeTimeout := 200
  exchangeRetries := 2
  roster := List.replicate 16 none
  outputs := List.replicate 4 OutputSpec.default
  inputs := List.replicate 4 InputSpec.default
  tollHigh := 768
  segmentLength := 16
  rules := List.replicate 8 none
  batchLimit := 4
  collectTimeout := 2000
  routes := noticeCodes.map defaultRoute
  noticePush := true
  attentionPulse := false
  holdLapse := 600

/-! ## POOL (06) -/

/-- One class of the pool: its holding, its floor and ceiling, and the counts of R128 and R129. -/
structure ClassRec where
  holding : Nat
  floor : Nat
  ceiling : Nat
  high : Nat
  granted : Nat
  refusedCeiling : Nat
  refusedFree : Nat
  refusedGuarantee : Nat
  evictedSegments : Nat
  evictedBuffers : Nat
  deriving DecidableEq, Repr

/-- R122: what POOL keeps. -/
structure Pool where
  free : Nat
  toll : ClassRec
  weather : ClassRec
  sign : ClassRec
  transit : ClassRec
  waiting : Bool
  leastFree : Nat
  deriving DecidableEq, Repr

/-- A class that holds nothing, with this floor and ceiling. -/
def ClassRec.reset (floor ceiling : Nat) : ClassRec :=
  { holding := 0, floor := floor, ceiling := ceiling, high := 0, granted := 0, refusedCeiling := 0,
    refusedFree := 0, refusedGuarantee := 0, evictedSegments := 0, evictedBuffers := 0 }

/-- R122: the pool after a full reset. -/
def Pool.reset : Pool :=
  { free := Config.poolSize, toll := .reset 512 1024, weather := .reset 128 640, sign := .reset 96 256,
    transit := .reset 128 256, waiting := false, leastFree := Config.poolSize }

/-! ## WX (08) -/

/-- The counts of R161. -/
structure WxCounts where
  stored : Nat
  lost : Nat
  malformed : Nat
  segmentsForPool : Nat
  segmentsForWx : Nat
  samplesForPool : Nat
  samplesForWx : Nat
  acknowledged : Nat
  unmatched : Nat
  deriving DecidableEq, Repr

/-- R148: the weather store. -/
structure Wx where
  segments : List Segment
  lastNumber : Nat
  gaps : List Nat
  lossMark : Bool
  counts : WxCounts
  deriving DecidableEq, Repr

/-- R148: after a full reset. -/
def Wx.reset : Wx :=
  { segments := [], lastNumber := 0, gaps := List.replicate 8 0, lossMark := false,
    counts := { stored := 0, lost := 0, malformed := 0, segmentsForPool := 0, segmentsForWx := 0,
                samplesForPool := 0, samplesForWx := 0, acknowledged := 0, unmatched := 0 } }

/-- A threshold rule's state (08 section 8.3). -/
structure RuleRec where
  state : RuleState
  last : Option Int
  since : NodeTime
  deriving DecidableEq, Repr

/-! ## NOTE (10) -/

/-- 10 section 10.1: what NOTE keeps; `keep` is R194's "NOTE stores no notice before step 5". -/
structure Note where
  queue : List Notice
  overflow : Bool
  lost : Nat
  attention : Bool
  pauseUntil : Option Nat
  keep : Bool
  deriving DecidableEq, Repr

/-- 10 section 10.1: after a full reset. -/
def Note.reset : Note :=
  { queue := [], overflow := false, lost := 0, attention := false, pauseUntil := none, keep := false }

/-! ## WIN (02) -/

/-- A queued message, with the loop on which its first slot has been placed. -/
structure QMsg where
  id : Nat
  msg : Message
  begun : Option Loop
  deriving DecidableEq, Repr

/-- An entry of the normal queue: a message, or a batch placeholder (R32) under an identity of its own, leaving once
withdrawn while an item of it is begun. -/
inductive NEntry where
  | msg (m : QMsg)
  | batch (id : Nat) (kind : CollKind) (number : Nat) (leaving : Bool)
  deriving DecidableEq, Repr

/-- R31: the two send queues. -/
structure Queues where
  emergency : List QMsg
  normal : List NEntry
  nextId : Nat
  deriving DecidableEq, Repr

/-- What a begun message came from. -/
inductive BegunSrc where
  | emergency (id : Nat)
  | normal (id : Nat)
  | item (id : Nat) (kind : CollKind)
  | survey
  deriving DecidableEq, Repr

/-- R35: a begun message, with its slots still to place. -/
structure Begun where
  src : BegunSrc
  slots : List Slot
  deriving DecidableEq, Repr

/-- R35: a holding; `started` once a message has been begun in it, `handOver` the station R40 first saw. -/
structure Holding where
  directed : Bool
  quota : Nat
  burst : Nat
  started : Bool
  begun : Option Begun
  handOver : Option Nat
  deriving DecidableEq, Repr

/-- WIN's state for one loop; the fields from `lap` on are the head-end's (R33), `opening` until the first cycle of an
origination that begins. -/
structure LoopSt where
  present : Bool
  lastSeen : Nat
  lastLap : Option Nat
  holding : Option Holding
  lapLock : Option Nat
  cwLock : Bool
  lap : Nat
  clearWay : Option Nat
  cwFirst : Option Nat
  timer : Option Nat
  record : Option Nat
  carried : Option TokenField
  opening : Bool
  reissued : Nat
  deriving DecidableEq, Repr

/-- R33, R34: after a full reset. -/
def LoopSt.reset : LoopSt :=
  { present := false, lastSeen := 0, lastLap := none, holding := none, lapLock := none, cwLock := false,
    lap := 0, clearWay := none, cwFirst := none, timer := none, record := none, carried := none, opening := false,
    reissued := 0 }

/-- R30: a partial message. -/
structure Partial where
  source : Nat
  loop : Loop
  dest : Nat
  length : Nat
  next : Nat
  shares : List Payload
  deriving DecidableEq, Repr

/-- WIN but for the send queues, which stand in `Svc`. -/
structure Win where
  outer : LoopSt
  inner : LoopSt
  partials : List Partial
  arrived : List Message
  survey : Option Nat
  duplicate : Nat
  incomplete : Nat
  undelivered : Nat
  deriving DecidableEq, Repr

/-- R30, R33, R46: after a full reset. -/
def Win.reset : Win :=
  { outer := .reset, inner := .reset, partials := [], arrived := [], survey := none, duplicate := 0,
    incomplete := 0, undelivered := 0 }

/-! ## The shared services -/

/-- What every block may call on: time, settings, POOL with the segment table it may have evicted, NOTE and the
send queues. `now` counts cycle periods, `free` the free values taken, `freed` is a freeing not yet told. -/
structure Svc where
  now : Nat
  time : NodeTime
  free : Nat
  settings : Settings
  pool : Pool
  wx : Wx
  note : Note
  queues : Queues
  freed : Bool
  deriving DecidableEq, Repr

/-! ## LINK and RING (01) -/

/-- 01 section 1.2: one line port; `sent` is the cycle RING has directed out of it in this cycle period. -/
structure Port where
  state : PortState
  good : Nat
  missing : Nat
  errNow : Nat
  errLast : Nat
  neighbour : Option (Nat × Role)
  conflict : Bool
  transmit : Bool
  markerSeen : Bool
  entered : Nat
  sent : Option Cycle
  deriving DecidableEq, Repr

/-- R5: after a full reset. -/
def Port.reset : Port :=
  { state := .dark, good := 0, missing := 0, errNow := 0, errLast := 0, neighbour := none, conflict := false,
    transmit := false, markerSeen := false, entered := 0, sent := none }

/-- 01 section 1.3: RING at a wayside. -/
structure Ring where
  attach : Attach
  restoring : Bool
  timer : Option Nat
  lastOuter : Option Nat
  lastInner : Option Nat
  lastCap : Option Nat
  lastSurvey : Option Nat
  lastGood : Nat
  deriving DecidableEq, Repr

/-- 01 section 1.3: after a full reset. -/
def Ring.reset : Ring :=
  { attach := .orphan, restoring := false, timer := none, lastOuter := none, lastInner := none, lastCap := none,
    lastSurvey := none, lastGood := 0 }

/-- 01 section 1.7: an entry of the station map. -/
structure MapEntry where
  station : Nat
  position : Option Nat
  presence : Presence
  via : ReachedVia
  attach : Attach
  heard : NodeTime
  deriving DecidableEq, Repr

/-- R22, R24: the survey in progress, with the entries of its slots stripped so far. -/
structure Survey where
  number : Nat
  kind : SurveyKind
  start : Nat
  entries : List SurveyEntry
  overflow : Bool
  deriving DecidableEq, Repr

/-- 01 section 1.4: RING at the head-end, with the release tag of R90. -/
structure Head where
  state : RingState
  origin : PortId
  restoring : Bool
  timer : Option Nat
  closing : Nat
  lastReturn : Nat
  number : Nat
  started : Bool
  map : List MapEntry
  lastSurvey : Nat
  survey : Option Survey
  tag : Option Nat
  deriving DecidableEq, Repr

/-- 01 section 1.4: after a full reset. -/
def Head.reset : Head :=
  { state := .opened, origin := .east, restoring := false, timer := none, closing := 0, lastReturn := 0,
    number := 0, started := false, map := [], lastSurvey := 0, survey := none, tag := none }

/-! ## CALL (03) -/

/-- 03 section 3.2: a phone call record with its hook debouncer. -/
structure Phone where
  state : PhoneState
  call : Option Nat
  slot : Option Nat
  timer : Option Nat
  count : Nat
  requested : Option NodeTime
  labelRun : Nat
  heldOff : Bool
  offHook : Bool
  timing : Option Nat
  hears : Audio
  deriving DecidableEq, Repr

/-- 03 section 3.2: after a full reset. -/
def Phone.reset : Phone :=
  { state := .idle, call := none, slot := none, timer := none, count := 0, requested := none, labelRun := 0,
    heldOff := false, offHook := false, timing := none, hears := .silence }

/-- R62: an entry of the call table. -/
structure CallEntry where
  number : Nat
  station : Nat
  port : Nat
  state : CallState
  slot : Option Nat
  console : Option Nat
  arrival : NodeTime
  ring : Option Nat
  drain : Option Nat
  cause : Option EndCause
  deriving DecidableEq, Repr

/-- CALL in both roles; `consoles` is the audio last read for each console and `lastRead` the moment it was read. -/
structure Call where
  phones : List Phone
  table : List CallEntry
  waiting : List Nat
  last : Nat
  full : Bool
  consoles : List Audio
  lastRead : Nat
  held : List Message
  dropped : Nat
  deriving DecidableEq, Repr

/-- 03: after a full reset. -/
def Call.reset : Call :=
  { phones := List.replicate 8 .reset, table := [], waiting := [], last := 0, full := false,
    consoles := List.replicate 8 .silence, lastRead := 0, held := [], dropped := 0 }

/-! ## ZONE (04) -/

/-- 04 section 4.1: a zone is ACTIVE exactly while its cause set is not empty. -/
structure ZoneRec where
  causes : List Cause
  since : Option NodeTime
  deriving DecidableEq, Repr

/-- Where the page of a load in flight stands: R85 keeps its buffer until the exchange ends. -/
inductive PageSrc where
  | normal | binding (zone : Nat) | gone
  deriving DecidableEq, Repr

/-- 04 section 4.3: a load in flight. -/
structure Load where
  id : Nat
  src : PageSrc
  deriving DecidableEq, Repr

/-- 04 section 4.3: a sign record; `wanted` is the identifier and the zone that gives it (0 the normal page). -/
structure Sign where
  normal : Option Page
  staged : Option (Page × Nat)
  wanted : Option (Nat × Nat)
  shown : Option Nat
  attempts : Nat
  load : Option Load
  deferred : Nat
  fault : Bool
  state : SignState
  last : Option (DeviceStatus × NodeTime)
  deriving DecidableEq, Repr

/-- R79: a record as it is made. -/
def Sign.made : Sign :=
  { normal := none, staged := none, wanted := none, shown := none, attempts := 0, load := none, deferred := 0,
    fault := false, state := .normal, last := none }

/-- 04 section 4.5: how a beacon runs. -/
inductive BeaconMode where
  | off | continuous (zone : Nat) | single
  deriving DecidableEq, Repr

/-- 04 section 4.5: a beacon; lit exactly in the ON phase. -/
structure Beacon where
  mode : BeaconMode
  onTime : Nat
  offTime : Nat
  lit : Bool
  phaseEnd : Option Nat
  deriving DecidableEq, Repr

/-- 04 section 4.5: after a full reset. -/
def Beacon.reset : Beacon := { mode := .off, onTime := 0, offTime := 0, lit := false, phaseEnd := none }

/-- R91: a pending release with the moment its delay runs out. -/
structure Pending where
  tag : Nat
  due : Nat
  deriving DecidableEq, Repr

/-- ZONE at a wayside. -/
structure Zone where
  zones : List ZoneRec
  signs : List (Option Sign)
  pending : Option Pending
  performed : Nat
  forced : Nat
  beacons : List Beacon
  deriving DecidableEq, Repr

/-- 04: after a full reset. -/
def Zone.reset : Zone :=
  { zones := List.replicate 8 { causes := [], since := none }, signs := List.replicate 8 none, pending := none,
    performed := 0, forced := 0, beacons := List.replicate 4 .reset }

/-! ## TRIB (05) -/

/-- R102: the party that asked for an exchange. -/
inductive Asker where
  | zone | command (o : Origin) | roster (entry : Nat) | join | attach
  deriving DecidableEq, Repr

/-- R101: the contents of a request. -/
inductive Request where
  | plain | page (p : Page) | toll (a c : Nat)
  deriving DecidableEq, Repr

/-- R101: an exchange in flight, with the timeout and retries it was begun with. -/
structure Exchange where
  kind : ExchKind
  number : Nat
  attempt : Nat
  asker : Asker
  request : Request
  timeout : Nat
  retries : Nat
  deadline : Nat
  deriving DecidableEq, Repr

/-- R104: a waiting command exchange. -/
structure Waiting where
  origin : Origin
  poll : PollKind
  deriving DecidableEq, Repr

/-- 05 section 5.2: an entry of the device table; line and kind are the working REMAP and DEVICE-KIND. -/
structure Device where
  state : DevState
  joinOrigin : Option DevState
  identity : Option Identity
  miss : Nat
  status : Option (DeviceStatus × NodeTime)
  joinDue : Option Nat
  restartEnd : Option Nat
  restartOrigin : Option DevState
  exchange : Option Exchange
  attachWaiting : Bool
  commands : List Waiting
  deriving DecidableEq, Repr

/-- R100: after a full reset, kind UNUSED. -/
def Device.reset : Device :=
  { state := .unused, joinOrigin := none, identity := none, miss := 0, status := none, joinDue := none,
    restartEnd := none, restartOrigin := none, exchange := none, attachWaiting := false, commands := [] }

/-- R101: what a line keeps. -/
structure Line where
  number : Nat
  corrupt : Nat
  stray : Nat
  repeats : Nat
  unanswered : Nat
  deriving DecidableEq, Repr

/-- R108: times of a roster entry. -/
structure RosterRec where
  nextDue : Option Nat
  since : Option Nat
  deriving DecidableEq, Repr

/-- 05 section 5.8: a restart output; its contact is open exactly in PULSING. -/
structure Output where
  state : OutState
  hold : Option Nat
  pulse : Option Nat
  deriving DecidableEq, Repr

/-- 05 section 5.9: a cabinet input. -/
structure Input where
  active : Bool
  timing : Option Nat
  deriving DecidableEq, Repr

/-- TRIB at a wayside; `started` at R194 step 7. -/
structure Trib where
  started : Bool
  devices : List Device
  lines : List Line
  roster : List RosterRec
  outputs : List Output
  inputs : List Input
  deriving DecidableEq, Repr

/-- 05: after a full reset. -/
def Trib.reset : Trib :=
  { started := false, devices := List.replicate 8 .reset,
    lines := List.replicate 8 { number := 0, corrupt := 0, stray := 0, repeats := 0, unanswered := 0 },
    roster := List.replicate 16 { nextDue := none, since := none },
    outputs := List.replicate 4 { state := .armed, hold := none, pulse := none },
    inputs := List.replicate 4 { active := false, timing := none } }

/-! ## TOLL (07) -/

/-- R141, R142: a record of the toll log; `loan` is the batch number while LOANED. -/
structure LogRecord where
  record : TollRecord
  receipt : NodeTime
  loan : Option Nat
  deriving DecidableEq, Repr

/-- R131: an entry of the gantry table. -/
structure Gantry where
  number : Nat
  a : Nat
  c : Nat
  reported : Option Nat
  device : Option Nat
  lastBad : Option Nat
  lastGap : Option Nat
  deriving DecidableEq, Repr

/-- R131: a toll attachment; an UNATTACHED one remembers whether its join was new, which R134 asks again. -/
inductive Attachment where
  | attached (gantry : Nat) | unattached (reason : UnattachedReason) (replaced : Bool)
  deriving DecidableEq, Repr

/-- The counts of R146. -/
structure TollCounts where
  accepted : Nat
  duplicate : Nat
  gap : Nat
  malformed : Nat
  deferred : Nat
  heldCeiling : Nat
  heldFree : Nat
  heldGuarantee : Nat
  unattached : Nat
  skipped : Nat
  acknowledged : Nat
  unmatched : Nat
  deriving DecidableEq, Repr

/-- R131: what TOLL keeps. -/
structure Toll where
  log : List LogRecord
  gantries : List Gantry
  attachments : List (Option Attachment)
  heldMark : Bool
  high : Bool
  counts : TollCounts
  deriving DecidableEq, Repr

/-- R131: after a full reset. -/
def Toll.reset : Toll :=
  { log := [], gantries := [], attachments := List.replicate 8 none, heldMark := false, high := false,
    counts := { accepted := 0, duplicate := 0, gap := 0, malformed := 0, deferred := 0, heldCeiling := 0,
                heldFree := 0, heldGuarantee := 0, unattached := 0, skipped := 0, acknowledged := 0,
                unmatched := 0 } }

/-! ## COLL (09) -/

/-- 09 section 9.3: the batch a wayside is sending for one kind. -/
structure WBatch where
  number : Nat
  items : List (ItemId × ItemMark)
  next : Nat
  bound : Option Loop
  deriving DecidableEq, Repr

/-- A batch message or placeholder that WIN refused (R166). -/
inductive HeldEntry where
  | msg (kind : CollKind) (m : Message)
  | batch (kind : CollKind) (number : Nat)
  deriving DecidableEq, Repr

/-- R162: a batch entry of the head-end. -/
structure BatchEntry where
  station : Nat
  kind : CollKind
  state : BatchState
  number : Nat
  max : Nat
  n : Option Nat
  received : Nat
  endSeen : Bool
  cause : Option BatchCause
  placed : Bool
  timer : Option Nat
  acks : AckList
  deriving DecidableEq, Repr

/-- R171: a DATA frame of the delivery queue. -/
inductive DataFrame where
  | item (station batch : Nat) (kind : CollKind) (n index part parts : Nat) (item : Item)
  | result (station batch : Nat) (kind : CollKind) (n : Option Nat) (received : Nat) (remaining : Option Nat)
      (cause : BatchCause)
  deriving DecidableEq, Repr

/-- R175: a wayside's counts of one kind. -/
structure KindCounts where
  asks : Nat
  sent : Nat
  voids : Nat
  deriving DecidableEq, Repr

/-- R175: the counts of both roles. -/
structure CollCounts where
  begun : Nat
  complete : Nat
  gap : Nat
  timeout : Nat
  accepted : Nat
  ignored : Nat
  late : Nat
  confirmed : Nat
  dropped : Nat
  toll : KindCounts
  weather : KindCounts
  deriving DecidableEq, Repr

/-- COLL in both roles. -/
structure Coll where
  toll : Option WBatch
  weather : Option WBatch
  heldW : List HeldEntry
  batches : List BatchEntry
  last : Nat
  heldH : List Message
  delivery : List DataFrame
  counts : CollCounts
  deriving DecidableEq, Repr

/-- 09: after a full reset. -/
def Coll.reset : Coll :=
  { toll := none, weather := none, heldW := [], batches := [], last := 0, heldH := [], delivery := [],
    counts := { begun := 0, complete := 0, gap := 0, timeout := 0, accepted := 0, ignored := 0, late := 0,
                confirmed := 0, dropped := 0, toll := { asks := 0, sent := 0, voids := 0 },
                weather := { asks := 0, sent := 0, voids := 0 } } }

/-! ## CMD and the host link (02 section 2.7, 10) -/

/-- R47: an entry of the forward table. -/
structure Forward where
  number : Nat
  station : Nat
  tag : Nat
  startCycle : Nat
  start : Nat
  cmd : Parsed
  deriving DecidableEq, Repr

/-- R186: a channel's command in progress. -/
structure InProgress where
  origin : Origin
  cmd : Command
  deriving DecidableEq, Repr

/-- CMD: forwards, channels, maintenance hold (`held`), and messages refused by WIN. -/
structure Cmd where
  forwards : List Forward
  lastForward : Nat
  refused : List Message
  chanL : Option InProgress
  chanC : Option InProgress
  held : Bool
  lapse : Option Nat
  deriving DecidableEq, Repr

/-- R47, R186, R187: after a full reset. -/
def Cmd.reset : Cmd :=
  { forwards := [], lastForward := 0, refused := [], chanL := none, chanC := none, held := false, lapse := none }

/-- A REPLY frame waiting to go; `restart` marks the reply of RESTART (R195). -/
structure Reply where
  tag : Nat
  station : Nat
  cmd : Parsed
  status : Status
  result : Value
  restart : Bool
  deriving DecidableEq, Repr

/-- A frame the 6248 sends (10 section 10.6). -/
inductive Frame where
  | reply (r : Reply)
  | notice (number station : Nat) (n : Notice) (overflow : Bool)
  | data (number : Nat) (f : DataFrame)
  deriving DecidableEq, Repr

/-- The host link (R184, R185); `gather` are the bytes of a frame still being gathered, from its start
marker on, and `gatherAt` the moment the last of them came; `gaps` are the tags of commands whose LINK-REPLY-GAP has not
ended, and `lastNotice` tells whether a NOTICE or a DATA frame was sent last. -/
structure Link where
  running : Bool
  rate : Nat
  valid : Nat
  badLength : Nat
  badCrc : Nat
  wrongKind : Nat
  gather : List Byte
  gatherAt : Nat
  replies : List Reply
  gaps : List Nat
  sending : Option Frame
  lastNotice : Option Bool
  noticeNo : Nat
  dataNo : Nat
  deriving DecidableEq, Repr

/-- R184, R185: after a full reset. -/
def Link.reset : Link :=
  { running := false, rate := 1, valid := 0, badLength := 0, badCrc := 0, wrongKind := 0, gather := [], gatherAt := 0, replies := [],
    gaps := [], sending := none, lastNotice := none, noticeNo := 0, dataNo := 0 }

/-! ## The node -/

/-- What stands at the inputs, whatever the part does (log entry 4). -/
structure Pins where
  lightEast : Bool
  lightWest : Bool
  offHook : List Bool
  inputHigh : List Bool
  strapA : Bool
  strapB : Bool
  deriving DecidableEq, Repr

/-- R194: the reset input is held, or a start has run. -/
inductive Phase where
  | held | started
  deriving DecidableEq, Repr

/-- Everything but the settings store and the queue of waiting commands. `writing` is the record STORE-APPEND is
writing; `applied` and `skipped` count the records of the last start (R193). -/
structure Node where
  svc : Svc
  phase : Phase
  restartDue : Bool
  pins : Pins
  east : Port
  west : Port
  ring : Ring
  head : Head
  win : Win
  call : Call
  zone : Zone
  trib : Trib
  toll : Toll
  rules : List RuleRec
  coll : Coll
  cmd : Cmd
  link : Link
  writing : Option (List Byte)
  applied : Nat
  skipped : Nat
  deriving DecidableEq, Repr

/-- The machine: the commands that wait, first in first out; the settings store; the node. -/
structure State where
  pending : List Instr
  store : Memory
  node : Node
  deriving DecidableEq, Repr

/-- Node time after a full reset (R20, R21). -/
def zeroTime : NodeTime := { seconds := 0, cycle := 0, sync := false }

/-- The services after a full reset; `free` counts on. -/
def Svc.reset (free : Nat) : Svc :=
  { now := 0, time := zeroTime, free := free, settings := .default, pool := .reset, wx := .reset, note := .reset,
    queues := { emergency := [], normal := [], nextId := 0 }, freed := false }

/-- R194 steps 1 and 2: every block in its reset state and every item at its default, the reset input held. -/
def Node.fullReset (pins : Pins) (free : Nat) : Node where
  svc := .reset free
  phase := .held
  restartDue := false
  pins := pins
  east := .reset
  west := .reset
  ring := .reset
  head := .reset
  win := .reset
  call := .reset
  zone := .reset
  trib := .reset
  toll := .reset
  rules := List.replicate 8 { state := .clear, last := none, since := zeroTime }
  coll := .reset
  cmd := .reset
  link := .reset
  writing := none
  applied := 0
  skipped := 0

/-- No light, handsets on hook, inputs HIGH, straps open (DESIGN CHOICE, log entry 4). -/
def Pins.rest : Pins :=
  { lightEast := false, lightWest := false, offHook := List.replicate 8 false,
    inputHigh := List.replicate 4 true, strapA := false, strapB := false }

/-- The machine right after reset: the reset input held, the settings store blank (log entry 6), no command
waiting. -/
def State.reset : State := { pending := [], store := [], node := Node.fullReset Pins.rest 0 }

end Sys2Proof.Machine
end

