-- ==== Sys2Proof/Machine/Ops.lean ====
section
/-! DEFINITION. Named operations over the settings store, numbered tables, counts, time and timers. -/

namespace Sys2Proof.Machine

/-! ## The settings store (11 section 11.2) -/

/-- The byte written at an offset, or `none` where the offset is unwritten. -/
def readByte : Memory → Nat → Option Byte
  | [], _ => none
  | (k, b) :: m, a => if k = a then some b else readByte m a

/-- 11 section 11.2: a byte can be written once and never changed again. -/
def writeByte : Memory → Nat → Byte → Memory
  | [], a, b => [(a, b)]
  | (k, c) :: m, a, b =>
    if a < k then (a, b) :: (k, c) :: m
    else if a = k then (k, c) :: m
    else (k, c) :: writeByte m a b

/-- 11 section 11.2: an unwritten byte reads as 255. -/
def storeByte (m : Memory) (a : Nat) : Byte := (readByte m a).getD 255#8

/-- Offsets strictly rising from `low`. -/
def risingFrom : Nat → Memory → Bool
  | _, [] => true
  | low, (k, _) :: m => decide (low ≤ k) && risingFrom (k + 1) m

/-- The canonical form of the store: offsets strictly rising, none past the last byte. -/
def Memory.wf (m : Memory) : Bool :=
  risingFrom 0 m && m.all fun c => decide (c.1 < Config.storeSize)

/-- The bytes of a record written one after another; an offset past the store is not written. -/
def writeBytes : Memory → Nat → List Byte → Memory
  | m, _, [] => m
  | m, a, b :: bs =>
    writeBytes (if a < Config.storeSize then writeByte m a b else m) (a + 1) bs

/-- R192: a reset that comes while the bytes are being written leaves some of them unwritten; which ones is a free
value (log entry 21). -/
def writePartly (fresh : Nat) : Memory → Nat → List Byte → Memory
  | m, _, [] => m
  | m, a, b :: bs =>
    writePartly fresh
      (if a < Config.storeSize ∧ Config.byteWritten fresh a = true then writeByte m a b else m) (a + 1) bs

/-- The length field of the record at an offset. -/
def recordLength (m : Memory) (off : Nat) : Nat := be16 (storeByte m off) (storeByte m (off + 1))

/-- 11 section 11.2: offsets of the records from `off` on, with their lengths, and the end of the records. The walk
stops at a length field that reads 65535; a record that would carry past the store, or one of length 0
(log entry 22), ends the reading with the end at 4096. -/
def walkRecords (m : Memory) : (fuel : Nat) → (off : Nat) → List (Nat × Nat) × Nat
  | 0, off => ([], off)
  | fuel + 1, off =>
    if Config.storeSize ≤ off then ([], Config.storeSize)
    else
      let len := recordLength m off
      if len = 65535 then ([], off)
      else if len = 0 ∨ Config.storeSize < off + len then ([(off, len)], Config.storeSize)
      else
        let rest := walkRecords m fuel (off + len)
        ((off, len) :: rest.1, rest.2)

/-- The records of the store and their end. -/
def storeRecords (m : Memory) : List (Nat × Nat) × Nat := walkRecords m Config.storeSize 0

/-- 11 section 11.2: the end of the records. -/
def storeEnd (m : Memory) : Nat := (storeRecords m).2

/-- The bytes from an offset, `none` for an unwritten one. -/
def rawBytes (m : Memory) : (off count : Nat) → List (Option Byte)
  | _, 0 => []
  | off, n + 1 => readByte m off :: rawBytes m (off + 1) n

/-- The bytes from an offset as STORE-READ returns them. -/
def readBytes (m : Memory) : (off count : Nat) → List Byte
  | _, 0 => []
  | off, n + 1 => storeByte m off :: readBytes m (off + 1) n

/-! ## Numbered tables: places 1, 2, … of a list -/

/-- The record at place `n`, the first place being 1. -/
def nth {α : Type} (l : List α) (n : Nat) : Option α :=
  match n with
  | 0 => none
  | k + 1 => l[k]?

/-- Change the record at place `n`. -/
def change {α : Type} (f : α → α) : List α → Nat → List α
  | l, 0 => l
  | [], _ => []
  | a :: l, 1 => f a :: l
  | a :: l, n + 2 => a :: change f l (n + 1)

/-- Put a record at place `n`. -/
def put {α : Type} (l : List α) (n : Nat) (a : α) : List α := change (fun _ => a) l n

/-- The records with their places, the first being `k`. -/
def numbered {α : Type} : (k : Nat) → List α → List (Nat × α)
  | _, [] => []
  | k, a :: l => (k, a) :: numbered (k + 1) l

/-- Places 1 to `n`. -/
def places (n : Nat) : List Nat := (List.range n).map (· + 1)

/-- The list without its first record that meets `p`. -/
def dropFirst {α : Type} (p : α → Bool) : List α → List α
  | [] => []
  | a :: l => if p a then l else a :: dropFirst p l

/-- R47, R62, R148, R162: the next number after `last`, 1 to `max` cyclically, skipping numbers in use. -/
def nextNumber (max : Nat) (used : List Nat) : (fuel : Nat) → (last : Nat) → Nat
  | 0, last => if last < max then last + 1 else 1
  | fuel + 1, last =>
    let n := if last < max then last + 1 else 1
    if used.contains n then nextNumber max used fuel n else n

/-! ## Counts -/

/-- A count raised by 1 that stops at `limit`. -/
def bump (limit c : Nat) : Nat := if c < limit then c + 1 else c

/-- A count raised by `k` that stops at `limit`. -/
def bumpBy (limit k c : Nat) : Nat := if c + k ≤ limit then c + k else if c ≤ limit then limit else c

/-! ## Time -/

/-- R20: node time one cycle later. -/
def advanceTime (t : NodeTime) : NodeTime :=
  if t.cycle < Config.cyclesPerSecond - 1 then { t with cycle := t.cycle + 1 }
  else { t with cycle := 0, seconds := (t.seconds + 1) % Config.secondsWrap }

/-- Milliseconds in cycle periods. -/
def ms (n : Nat) : Nat := n * Config.cyclesPerMs

/-- Seconds in cycle periods. -/
def secs (n : Nat) : Nat := n * Config.cyclesPerSecond

/-- A running timer whose deadline has been reached at `now`. -/
def due (now : Nat) (timer : Option Nat) : Bool :=
  match timer with
  | none => false
  | some d => decide (d ≤ now)

/-- The time left on a timer, absent if it is stopped. -/
def timeLeft (now : Nat) (timer : Option Nat) : Value := Value.opt (fun d => .nat (d - now)) timer

/-- A fresh free-value index (log entry 2). -/
def Svc.fresh (s : Svc) : Svc := { s with free := s.free + 1 }

end Sys2Proof.Machine
end

