-- ==== Sys2Proof/Machine/Operands.lean ====
section
/-! DEFINITION. The byte layouts the manual gives: the host link frame with its CRC-16, the slot header, toll records, samples and segment records, and the slots and bodies of ring messages. -/

namespace Sys2Proof.Machine

/-- A number in `k` bytes, most significant first (00_scope.md, Layouts). -/
def bigEndian : (k : Nat) → Nat → List Byte
  | 0, _ => []
  | k + 1, v => BitVec.ofNat 8 (v / 256 ^ k) :: bigEndian k v

/-! ## CRC-16 (10 section 10.7) -/

/-- One bit of the division by x¹⁶ + x¹² + x⁵ + 1. -/
def crcBit (c : Crc) : Crc := if c.msb then (c <<< 1) ^^^ 0x1021#16 else c <<< 1

/-- One byte, its most significant bit first. -/
def crcByte (c : Crc) (b : Byte) : Crc :=
  crcBit (crcBit (crcBit (crcBit (crcBit (crcBit (crcBit (crcBit (c ^^^ (b.setWidth 16 <<< 8)))))))))

/-- The CRC-16 of some bytes, from the initial value 65535. -/
def crc16 (l : List Byte) : Crc := l.foldl crcByte 0xFFFF#16

/-! ## The host link frame (10 section 10.7) -/

/-- What a frame of right length holds; `good` tells whether its CRC-16 agrees. -/
structure RawFrame where
  kind : Nat
  tag : Nat
  station : Nat
  code : Byte
  body : List Byte
  good : Bool
  deriving DecidableEq, Repr

/-- R184: what the receiver makes of the bytes it has. -/
inductive Received where
  /-- There are no bytes. -/
  | nothing
  /-- The first byte is no start marker: the hunt goes on with the bytes behind it. -/
  | hunting (rest : List Byte)
  /-- A frame has begun and is not whole. -/
  | gathering
  /-- A body length above 240: the hunt goes on with the bytes behind the start marker. -/
  | wrongLength (rest : List Byte)
  /-- A whole frame, and the bytes behind it. -/
  | frame (f : RawFrame) (rest : List Byte)
  deriving DecidableEq, Repr

/-- R184: the receiver looks at the bytes it has. -/
def receive : List Byte → Received
  | [] => .nothing
  | m :: rest =>
    if m ≠ Config.startMarker then .hunting rest
    else match rest with
      | [] => .gathering
      | len :: inner =>
        if Config.bodyMax < len.toNat then .wrongLength rest
        else match inner with
          | kind :: tag :: hi :: lo :: code :: tail =>
            if tail.length < len.toNat + 2 then .gathering
            else
              let body := tail.take len.toNat
              let sum := crc16 (len :: kind :: tag :: hi :: lo :: code :: body)
              .frame
                { kind := kind.toNat, tag := tag.toNat, station := be16 hi lo, code := code, body := body,
                  good := decide ((tail.drop len.toNat).take 2 = bigEndian 2 sum.toNat) }
                (tail.drop (len.toNat + 2))
          | _ => .gathering

/-- A whole frame in its layout. -/
def frameBytes (kind tag station : Nat) (code : Byte) (body : List Byte) : List Byte :=
  let inner := bigEndian 1 body.length ++ bigEndian 1 kind ++ bigEndian 1 tag ++ bigEndian 2 station ++ code :: body
  Config.startMarker :: inner ++ bigEndian 2 (crc16 inner).toNat

/-! ## Toll records (07 section 7.5) -/

/-- R141, R142: a toll record in its layout. The tag's bytes, the plate length and the plate's ten bytes stand as the gantry
sent them, filler included, whatever the presence bits say: section 7.4.1 gives 0 when absent and says that a clear bit
makes a field absent whatever bytes stand there, and R142 hands the record on as it stands; that no byte is changed is the
model's choice (log entry 73). -/
def tollBytes (r : TollRecord) : List Byte :=
  bigEndian 2 r.gantry ++ bigEndian 4 r.seq ++ bigEndian 1 r.lane ++ bigEndian 1 r.cls ++ bigEndian 4 r.seconds
    ++ bigEndian 2 r.millis ++ bigEndian 1 r.confidence ++ r.presence :: r.tag ++ bigEndian 1 r.plateLength
    ++ r.plate

/-! ## Weather samples and segments (08 sections 8.1.1 and 8.2) -/

/-- 08 section 8.1.1: a quantity: its code and its value, signed. -/
def quantityBytes (q : Quantity) : List Byte :=
  bigEndian 1 q.code ++ bigEndian 2 (BitVec.ofInt 16 q.value).toNat

/-- 08 section 8.1.1: bytes 5–7 of a sample hold the cycle within the second, the sync flag and the count. -/
def sampleRecord (r : Sample) : List Byte :=
  bigEndian 1 r.device ++ bigEndian 4 r.time.seconds ++ bigEndian 2 r.time.cycle
    ++ bigEndian 1 ((if r.time.sync then 128 else 0) + r.quantities.length)
    ++ r.quantities.flatMap quantityBytes

/-- 08 section 8.2: the number of a closing cause; a segment that is not closed has none and shows 0. -/
def closeNumber : Option CloseCause → Nat
  | none => 0
  | some .full => 1
  | some .size => 2
  | some .early => 3
  | some .device => 4
  | some .length => 5

/-- 08 section 8.2: a segment record. -/
def segmentRecord (g : Segment) : List Byte :=
  bigEndian 2 g.number ++ bigEndian 1 g.device ++ bigEndian 1 g.samples.length ++ bigEndian 2 g.gap
    ++ bigEndian 1 (closeNumber g.cause) ++ g.samples.flatMap sampleRecord

/-! ## Bodies of ring messages (R168, R180) -/

/-- The number of a collection kind (R168). -/
def kindNumber : CollKind → Nat
  | .toll => 1
  | .weather => 2

/-- R168, 10 section 10.7: a time in 6 bytes: the seconds, then the sync flag in bit 15 and the cycle in bits 0–11. -/
def timeBytes (t : NodeTime) : List Byte :=
  bigEndian 4 t.seconds ++ bigEndian 2 ((if t.sync then 32768 else 0) + t.cycle)

/-- R168: an item's identity, as a void item carries it. -/
def itemIdBytes : ItemId → List Byte
  | .toll gantry seq => bigEndian 2 gantry ++ bigEndian 4 seq
  | .segment number => bigEndian 2 number

/-- R168: the void mark, and the item or its identity. -/
def itemContent : Item → List Byte
  | .toll r receipt => bigEndian 1 0 ++ timeBytes receipt ++ tollBytes r
  | .segment g => bigEndian 1 0 ++ segmentRecord g
  | .void id => bigEndian 1 1 ++ itemIdBytes id

/-- 10 section 10.7: the subject kind and the subject. -/
def subjectBytes : Subject → List Byte
  | .none => bigEndian 1 0 ++ bigEndian 1 0
  | .device n => bigEndian 1 1 ++ bigEndian 1 n
  | .voicePort n => bigEndian 1 2 ++ bigEndian 1 n
  | .zone n => bigEndian 1 3 ++ bigEndian 1 n
  | .rule n => bigEndian 1 4 ++ bigEndian 1 n
  | .output n => bigEndian 1 5 ++ bigEndian 1 n
  | .input n => bigEndian 1 6 ++ bigEndian 1 n
  | .linePort .east => bigEndian 1 7 ++ bigEndian 1 1
  | .linePort .west => bigEndian 1 7 ++ bigEndian 1 2

/-- 10 section 10.7: a detail value, 4 bytes, signed. -/
def detailBytes : Value → List Byte
  | .num v => bigEndian 4 (BitVec.ofInt 32 v).toNat
  | v => bigEndian 4 (Config.detailNumber v)

/-- The number that the `k`-th of several things takes when each in turn takes one of those that are `left`, as
`choice` says: a free choice of numbers that are all different. -/
def pickNumber (choice : Nat → Nat) : (k : Nat) → (left : List Nat) → Nat
  | 0, left => left.getD (choice 0 % left.length) 0
  | k + 1, left => pickNumber (fun j => choice (j + 1)) k (left.eraseIdx (choice 0 % left.length))

/-- 10 section 10.7: the number of a notice code, one byte, different for each code; the manual does not say which
(log entry 43). -/
def noticeNumber (c : NoticeCode) : Byte :=
  BitVec.ofNat 8 (pickNumber Config.noticeChoice c.ctorIdx (List.range 256))

/-- 10 section 10.7: a notice entry. -/
def noticeBytes (e : Notice) : List Byte :=
  noticeNumber e.code :: bigEndian 2 e.source ++ subjectBytes e.subject ++ timeBytes e.time
    ++ bigEndian 1 e.details.length ++ e.details.flatMap detailBytes

/-- R172: what a COLLECT-ACK names: a highest sequence of each gantry, or segment numbers, each in the bytes R168
gives it in an identity (log entry 20). -/
def ackBytes : AckList → List Byte
  | .toll l => bigEndian 1 (kindNumber .toll) ++ l.flatMap fun (p : Nat × Nat) => itemIdBytes (.toll p.1 p.2)
  | .weather l => bigEndian 1 (kindNumber .weather) ++ l.flatMap fun (k : Nat) => itemIdBytes (.segment k)

/-- R168, R172, R180: the body of a ring message; its length fixes the message's (R28). The manual lays out BATCH-ITEM
and NOTICE-FWD. It names the fields of BATCH-HEAD, BATCH-END and COLLECT-ACK and not their bytes: they stand in one
byte each for batch, kind and item count, as in BATCH-ITEM, which is the model's choice (log entries 20 and 66). The
bodies of call signalling and COLLECT-ASK, which fit one slot, and of COMMAND-FWD and REPLY-FWD, which fit 8, are free
values (log entries 19 and 43). -/
def messageBody : Payload → List Byte
  | .batchHead batch k n => bigEndian 1 batch ++ bigEndian 1 (kindNumber k) ++ bigEndian 1 n
  | .batchEnd batch k n => bigEndian 1 batch ++ bigEndian 1 (kindNumber k) ++ bigEndian 1 n
  | .batchItem batch k n index item =>
    bigEndian 1 batch ++ bigEndian 1 (kindNumber k) ++ bigEndian 1 n ++ bigEndian 1 index ++ itemContent item
  | .noticeFwd l => bigEndian 1 l.length ++ l.flatMap noticeBytes
  | .collectAck batch l => bigEndian 1 batch ++ ackBytes l
  | .commandFwd k p => (Config.messageBody (.commandFwd k p)).take 384
  | .replyFwd k st v => (Config.messageBody (.replyFwd k st v)).take 384
  | p => (Config.messageBody p).take 48

/-- R28: slots of a body of this many bytes, one for each 48 or part of 48, 1 to 8. -/
def slotsFor (bytes : Nat) : Nat := max 1 (min 8 ((bytes + 47) / 48))

/-- R28: the length in slots of a message with this body. -/
def messageSlots (p : Payload) : Nat := slotsFor (messageBody p).length

/-! ## Ring message slots (R29) -/

/-- R28, R29: the share of a body that the slot with this sequence carries, 48 bytes but for the last. -/
def shareOf (body : List Byte) (seq : Nat) : List Byte := (body.drop (48 * (seq - 1))).take 48

/-- R29: the body bytes of an occupied slot. -/
def slotBody (s : Slot) : List Byte :=
  match s.body with
  | .message p => shareOf (messageBody p) s.seq
  | .survey number room entries overflow => (Config.surveyBody number room entries overflow).take 48

/-- The place of a slot's kind among the kinds of R28: SURVEY first, then those of `Payload` in its order. -/
def SlotBody.kindIndex : SlotBody → Nat
  | .message p => p.ctorIdx + 1
  | .survey _ _ _ _ => 0

/-- R29: the kind of an occupied slot: one number for each kind of R28, 1 to 255 and all different; the manual does not
say which (log entry 43). -/
def slotKind (s : Slot) : Byte :=
  BitVec.ofNat 8 (pickNumber Config.kindChoice (SlotBody.kindIndex s.body) ((List.range 255).map (· + 1)))

/-- R29: the 8-byte slot header. -/
def slotHeader (kind : Byte) (s : Slot) (bodyBytes : Nat) : List Byte :=
  kind :: bigEndian 2 s.source ++ bigEndian 2 s.dest ++ bigEndian 1 s.length ++ bigEndian 1 s.seq
    ++ bigEndian 1 bodyBytes

/-- R29: the 56 bytes of a data-window slot; kind 0 is an empty slot, and what no body fills is filler. -/
def slotBytes : Option Slot → List Byte
  | none => 0#8 :: List.replicate 55 Config.filler
  | some s =>
    let body := slotBody s
    slotHeader (slotKind s) s body.length ++ body ++ List.replicate (48 - body.length) Config.filler

end Sys2Proof.Machine
end

