-- ==== Sys2Proof/Machine/Pool.lean ====
section
/-! DEFINITION. POOL (06) and the eviction of weather segments (R152) that it may call for. -/

namespace Sys2Proof.Machine

/-- The record of a class. -/
def Pool.cls (p : Pool) : PoolClass → ClassRec
  | .toll => p.toll
  | .weather => p.weather
  | .sign => p.sign
  | .transit => p.transit

/-- Change the record of a class. -/
def Pool.change (p : Pool) (c : PoolClass) (f : ClassRec → ClassRec) : Pool :=
  match c with
  | .toll => { p with toll := f p.toll }
  | .weather => { p with weather := f p.weather }
  | .sign => { p with sign := f p.sign }
  | .transit => { p with transit := f p.transit }

/-- 06 section 6.1: the unheld floor of a class. -/
def ClassRec.unheld (c : ClassRec) : Nat := c.floor - c.holding

/-- 06 section 6.1: the guarantee. -/
def Pool.guarantee (p : Pool) : Nat :=
  p.toll.unheld + p.weather.unheld + p.sign.unheld + p.transit.unheld

/-- R123: the unheld floors of the other three classes. -/
def Pool.othersUnheld (p : Pool) (c : PoolClass) : Nat :=
  match c with
  | .toll => p.weather.unheld + p.sign.unheld + p.transit.unheld
  | .weather => p.toll.unheld + p.sign.unheld + p.transit.unheld
  | .sign => p.toll.unheld + p.weather.unheld + p.transit.unheld
  | .transit => p.toll.unheld + p.weather.unheld + p.sign.unheld

/-- R122: the buffers held by the four classes. -/
def Pool.held (p : Pool) : Nat := p.toll.holding + p.weather.holding + p.sign.holding + p.transit.holding

/-- R123: the first condition that fails, or `none` when the request is granted. -/
def Pool.decide (p : Pool) (c : PoolClass) (n : Nat) : Option PoolReason :=
  if (p.cls c).ceiling < (p.cls c).holding + n then some .ceiling
  else if p.free < n then some .free
  else if p.free - n < p.othersUnheld c then some .guarantee
  else none

/-- R123, R128, R129: a grant moves the buffers and raises the marks. -/
def Pool.grant (p : Pool) (c : PoolClass) (n : Nat) : Pool :=
  let q := p.change c fun r =>
    { r with holding := r.holding + n, high := max r.high (r.holding + n),
             granted := bump Config.wordMax r.granted }
  { q with free := p.free - n, leastFree := min p.leastFree (p.free - n) }

/-- R129: a refusal counted under its reason. -/
def Pool.refuse (p : Pool) (c : PoolClass) (r : PoolReason) : Pool :=
  p.change c fun k =>
    match r with
    | .ceiling => { k with refusedCeiling := bump Config.wordMax k.refusedCeiling }
    | .free => { k with refusedFree := bump Config.wordMax k.refusedFree }
    | .guarantee => { k with refusedGuarantee := bump Config.wordMax k.refusedGuarantee }

/-- R122: a free moves what the class gives back to the free count. -/
def Pool.release (p : Pool) (c : PoolClass) (n : Nat) : Pool :=
  let k := min n (p.cls c).holding
  let q := p.change c fun r => { r with holding := r.holding - k }
  { q with free := p.free + k }

/-- R129: an eviction of `k` buffers on behalf of a class. -/
def Pool.countEviction (p : Pool) (c : PoolClass) (k : Nat) : Pool :=
  p.change c fun r =>
    { r with evictedSegments := bump Config.wordMax r.evictedSegments,
             evictedBuffers := bumpBy Config.wordMax k r.evictedBuffers }

/-- R126: a report to WIN clears the waiting mark. -/
def Svc.reportFreeing (s : Svc) : Svc := { s with pool := { s.pool with waiting := false }, freed := true }

/-- R126, R31: buffers given back; WIN is told when TRANSIT buffers are freed or the waiting mark is set. -/
def Svc.freeBuffers (s : Svc) (c : PoolClass) (n : Nat) : Svc :=
  if n = 0 then s
  else
    let t := { s with pool := s.pool.release c n }
    if s.pool.waiting || c = .transit then t.reportFreeing else t

/-- The oldest CLOSED segment, with the segments before and after it (R152). -/
def splitClosed : List Segment → Option (List Segment × Segment × List Segment)
  | [] => none
  | g :: rest =>
    if g.state = .closed then some ([], g, rest)
    else match splitClosed rest with
      | none => none
      | some (before, e, after) => some (g :: before, e, after)

/-- R152: the oldest later segment of the device takes the lost samples; `none` when there is none. -/
def carryGap (device lost : Nat) : List Segment → Option (List Segment)
  | [] => none
  | g :: rest =>
    if g.device = device then some ({ g with gap := bumpBy Config.wordMax lost g.gap } :: rest)
    else match carryGap device lost rest with
      | none => none
      | some rest' => some (g :: rest')

/-- R152: evict the oldest CLOSED segment on POOL's demand or WX's own; the number of buffers freed. -/
def Svc.evictOldest (s : Svc) (forPool : Bool) : Option (Svc × Nat) :=
  match splitClosed s.wx.segments with
  | none => none
  | some (before, e, after) =>
    let k := e.samples.length
    let lost := k + e.gap
    let w := s.wx
    let w := match carryGap e.device lost after with
      | some after' => { w with segments := before ++ after' }
      | none =>
        { w with segments := before ++ after,
                 gaps := change (bumpBy Config.wordMax lost) w.gaps e.device }
    let n := w.counts
    let n :=
      if forPool then
        { n with segmentsForPool := bump Config.longMax n.segmentsForPool,
                 samplesForPool := bumpBy Config.longMax k n.samplesForPool }
      else
        { n with segmentsForWx := bump Config.longMax n.segmentsForWx,
                 samplesForWx := bumpBy Config.longMax k n.samplesForWx }
    some ({ s with wx := { w with counts := n } }.freeBuffers .weather k, k)

/-- R123, R125: the final refusal; a TRANSIT refusal sets the waiting mark. -/
def Svc.refuseBuffers (s : Svc) (c : PoolClass) (r : PoolReason) : Svc :=
  let p := s.pool.refuse c r
  { s with pool := if c = .transit then { p with waiting := true } else p }

/-- R123, R124: decide a request; a TOLL, SIGN or TRANSIT request refused for FREE or GUARANTEE makes WX evict and is
decided again, once for each CLOSED segment at most. -/
def Svc.requestLoop (c : PoolClass) (n : Nat) : (fuel : Nat) → Svc → Svc × Option PoolReason
  | 0, s =>
    match s.pool.decide c n with
    | none => ({ s with pool := s.pool.grant c n }, none)
    | some r => (s.refuseBuffers c r, some r)
  | fuel + 1, s =>
    match s.pool.decide c n with
    | none => ({ s with pool := s.pool.grant c n }, none)
    | some r =>
      if r = .ceiling ∨ c = .weather ∨ s.pool.weather.holding ≤ s.pool.weather.floor then
        (s.refuseBuffers c r, some r)
      else match s.evictOldest true with
        | none => (s.refuseBuffers c r, some r)
        | some (t, k) => Svc.requestLoop c n fuel { t with pool := t.pool.countEviction c k }

/-- R123: a request of a class for `n` buffers; the reason of its refusal, or `none` when granted. -/
def Svc.requestBuffers (s : Svc) (c : PoolClass) (n : Nat) : Svc × Option PoolReason :=
  Svc.requestLoop c n s.wx.segments.length s

/-- R127: the bounds named for a class. -/
def boundsFor (l : List ClassBounds) (c : PoolClass) : Option ClassBounds := l.find? (·.cls = c)

/-- R127: floor and ceiling within the ranges of section 6.1. -/
def ClassBounds.inRange (b : ClassBounds) : Bool :=
  let limit := if b.cls = .toll then 1024 else Config.poolSize
  decide (b.floor ≤ limit ∧ 1 ≤ b.ceiling ∧ b.ceiling ≤ limit ∧ b.floor ≤ b.ceiling)

/-- R127: the pool with new bounds for one class. -/
def Pool.withBounds (p : Pool) (b : ClassBounds) : Pool :=
  p.change b.cls fun r => { r with floor := b.floor, ceiling := b.ceiling }

/-- R127: the working value of POOL-CLASSES. -/
def Pool.bounds (p : Pool) : List ClassBounds :=
  [⟨.toll, p.toll.floor, p.toll.ceiling⟩, ⟨.weather, p.weather.floor, p.weather.ceiling⟩,
   ⟨.sign, p.sign.floor, p.sign.ceiling⟩, ⟨.transit, p.transit.floor, p.transit.ceiling⟩]

/-- 06 section 6.1: the default bounds. -/
def defaultBounds : List ClassBounds := Pool.reset.bounds

/-- R127: the checks of a new value of POOL-CLASSES, in the table's order. -/
def checkBounds (p : Pool) (l : List ClassBounds) : Status :=
  match boundsFor l .toll, boundsFor l .weather, boundsFor l .sign, boundsFor l .transit with
  | some t, some w, some g, some r =>
    if l.length ≠ 4 ∨ l.all ClassBounds.inRange = false ∨
        Config.poolSize < t.floor + w.floor + g.floor + r.floor then .badArgument
    else if t.ceiling < p.toll.holding ∨ w.ceiling < p.weather.holding ∨ g.ceiling < p.sign.holding ∨
        r.ceiling < p.transit.holding then .wrongState
    else if p.free < (t.floor - p.toll.holding) + (w.floor - p.weather.holding) +
        (g.floor - p.sign.holding) + (r.floor - p.transit.holding) then .wrongState
    else .done
  | _, _, _, _ => .badArgument

/-- R127: take a checked value; a set waiting mark is reported to WIN. -/
def Svc.takeBounds (s : Svc) (l : List ClassBounds) : Svc :=
  let t := { s with pool := l.foldl Pool.withBounds s.pool }
  if s.pool.waiting then t.reportFreeing else t

/-- R130: what POOL-STATUS tells of one class. -/
def ClassRec.report (c : ClassRec) : Value :=
  .list [.nat c.holding, .nat c.floor, .nat c.ceiling, .nat c.unheld, .nat c.high, .nat c.granted,
    .nat c.refusedCeiling, .nat c.refusedFree, .nat c.refusedGuarantee, .nat c.evictedSegments,
    .nat c.evictedBuffers]

/-- R130: POOL-STATUS. -/
def Pool.report (p : Pool) : Value :=
  .list [.nat p.free, .nat p.guarantee, .num ((p.free : Int) - p.guarantee), p.toll.report, p.weather.report,
    p.sign.report, p.transit.report, .nat p.leastFree, .flag p.waiting]

end Sys2Proof.Machine
end

