-- ==== Sys2Proof/Machine/Queue.lean ====
section
/-! DEFINITION. WIN's two send queues (R31, R32): offering, leaving and withdrawing messages. -/

namespace Sys2Proof.Machine

/-- R31: TRANSIT buffers of a message, one for each 2 slots of its length or part of 2. -/
def transitBuffers (length : Nat) : Nat := (length + 1) / 2

/-- The message at the head or elsewhere of the normal queue, if the entry is a message. -/
def NEntry.message : NEntry → Option QMsg
  | .msg m => some m
  | .batch _ _ _ _ => none

/-- R31: the emergency queue takes an offer when it has a free place and POOL grants the buffers. -/
def Svc.offerEmergency (s : Svc) (m : Message) : Svc × Bool :=
  if s.queues.emergency.length < Config.emergencyPlaces then
    match s.requestBuffers .transit (transitBuffers m.length) with
    | (t, none) =>
      ({ t with queues :=
          { t.queues with emergency := t.queues.emergency ++ [{ id := t.queues.nextId, msg := m, begun := none }],
                          nextId := t.queues.nextId + 1 } }, true)
    | (t, some _) => (t, false)
  else (s, false)

/-- R31: the normal queue takes an offer when it has a free place and POOL grants the buffers. -/
def Svc.offerNormal (s : Svc) (m : Message) : Svc × Bool :=
  if s.queues.normal.length < Config.normalPlaces then
    match s.requestBuffers .transit (transitBuffers m.length) with
    | (t, none) =>
      ({ t with queues :=
          { t.queues with normal := t.queues.normal ++ [.msg { id := t.queues.nextId, msg := m, begun := none }],
                          nextId := t.queues.nextId + 1 } }, true)
    | (t, some _) => (t, false)
  else (s, false)

/-- R32: a placeholder takes a place and no buffer; it gets an identity of its own. -/
def Svc.offerPlaceholder (s : Svc) (kind : CollKind) (number : Nat) : Svc × Bool :=
  if s.queues.normal.length < Config.normalPlaces then
    ({ s with queues :=
        { s.queues with normal := s.queues.normal ++ [.batch s.queues.nextId kind number false],
                        nextId := s.queues.nextId + 1 } }, true)
  else (s, false)

/-- R31: a message leaves the emergency queue, its buffers are freed and the freeing is told. -/
def Svc.leaveEmergency (s : Svc) (m : QMsg) : Svc :=
  { s with queues := { s.queues with emergency := dropFirst (fun q => q.id = m.id) s.queues.emergency },
           freed := true }.freeBuffers .transit (transitBuffers m.msg.length)

/-- R31: a message leaves the normal queue, its buffers are freed and the freeing is told. -/
def Svc.leaveNormal (s : Svc) (m : QMsg) : Svc :=
  let isIt (e : NEntry) : Bool :=
    match e with
    | .msg q => q.id = m.id
    | .batch _ _ _ _ => false
  { s with queues := { s.queues with normal := dropFirst isIt s.queues.normal },
           freed := true }.freeBuffers .transit (transitBuffers m.msg.length)

/-- R31: a message leaves whichever queue holds it. -/
def Svc.leave (s : Svc) (src : BegunSrc) : Svc :=
  match src with
  | .emergency id =>
    match s.queues.emergency.find? (·.id = id) with
    | some m => s.leaveEmergency m
    | none => s
  | .normal id =>
    match (s.queues.normal.filterMap NEntry.message).find? (·.id = id) with
    | some m => s.leaveNormal m
    | none => s
  | .item _ _ => s
  | .survey => s

/-- R32, R59: withdraw the emergency messages that meet `p` and have no slot placed; their buffers are freed. -/
def Svc.withdrawEmergency (s : Svc) (p : Message → Bool) : Svc :=
  let gone (q : QMsg) : Bool := q.begun.isNone && p q.msg
  let l := s.queues.emergency.filter gone
  if l = [] then s
  else
    { s with queues := { s.queues with emergency := s.queues.emergency.filter fun q => !gone q },
             freed := true }.freeBuffers .transit (l.map fun (q : QMsg) => transitBuffers q.msg.length).sum

/-- R32: whether an entry is a message that meets `p` and has no slot placed. -/
def NEntry.unplaced (p : Message → Bool) : NEntry → Bool
  | .msg q => q.begun.isNone && p q.msg
  | .batch _ _ _ _ => false

/-- TRANSIT buffers that an entry of the normal queue holds (R31, R32). -/
def NEntry.buffers : NEntry → Nat
  | .msg q => transitBuffers q.msg.length
  | .batch _ _ _ _ => 0

/-- R32: withdraw the normal messages that meet `p` and have no slot placed; their buffers are freed. -/
def Svc.withdrawNormal (s : Svc) (p : Message → Bool) : Svc :=
  let l := s.queues.normal.filter (NEntry.unplaced p)
  if l = [] then s
  else
    { s with queues := { s.queues with normal := s.queues.normal.filter fun e => !e.unplaced p },
             freed := true }.freeBuffers .transit (l.map NEntry.buffers).sum

/-- The placeholder with this identity. -/
def NEntry.isPlace (id : Nat) : NEntry → Bool
  | .msg _ => false
  | .batch j _ _ _ => j = id

/-- The placeholder with this identity, leaving after its begun item (R32). -/
def NEntry.isLeaving (id : Nat) : NEntry → Bool
  | .msg _ => false
  | .batch j _ _ leaving => j = id && leaving

/-- The identity of a placeholder of a kind still in use. -/
def NEntry.placeId (k : CollKind) : NEntry → Option Nat
  | .msg _ => none
  | .batch id j _ leaving => if j = k ∧ leaving = false then some id else none

/-- Take the first entry that meets `p` out of the normal queue; a freed place is told (R31). -/
def Svc.dropEntry (s : Svc) (p : NEntry → Bool) : Svc :=
  if s.queues.normal.any p then
    { s with queues := { s.queues with normal := dropFirst p s.queues.normal }, freed := true }
  else s

/-- R32: a placeholder withdrawn while an item of it is begun leaves after that item. -/
def Svc.markLeaving (s : Svc) (id : Nat) : Svc :=
  let mark (e : NEntry) : NEntry :=
    match e with
    | .msg m => .msg m
    | .batch j k n l => if j = id then .batch j k n true else .batch j k n l
  { s with queues := { s.queues with normal := s.queues.normal.map mark } }

end Sys2Proof.Machine
end

