-- ==== Sys2Proof/Machine/Note.lean ====
section
/-! DEFINITION. NOTE (10): posting, the notice queue, its delivery and the attention line. -/

namespace Sys2Proof.Machine

/-- R176: the routing of a code. -/
def Settings.route (s : Settings) (c : NoticeCode) : Route :=
  (s.routes.find? (·.code = c)).getD (defaultRoute c)

/-- R183: the attention line follows the queue, but for a pause. -/
def Note.setAttention (n : Note) : Note :=
  match n.pauseUntil with
  | some _ => { n with attention := false }
  | none => { n with attention := n.queue.any (·.toHost) }

/-- R176: an entry leaves the queue when its destination set becomes empty. -/
def noticeWaits (e : Notice) : Bool := e.toHost || e.toCentre

/-- Take HOST from the first `k` entries that hold it, R178 and R179. -/
def serveHost : (k : Nat) → List Notice → List Notice
  | 0, l => l
  | _, [] => []
  | k + 1, e :: l =>
    if e.toHost then
      if e.toCentre then { e with toHost := false } :: serveHost k l else serveHost k l
    else e :: serveHost (k + 1) l

/-- Take CENTRE from the first `k` entries that hold it, R180. -/
def serveCentre : (k : Nat) → List Notice → List Notice
  | 0, l => l
  | _, [] => []
  | k + 1, e :: l =>
    if e.toCentre then
      if e.toHost then { e with toCentre := false } :: serveCentre k l else serveCentre k l
    else e :: serveCentre (k + 1) l

/-- R180: NOTICE-FWD messages in the normal queue. -/
def NEntry.isNoticeFwd : NEntry → Bool
  | .msg m => match m.msg.payload with
    | .noticeFwd _ => true
    | _ => false
  | .batch _ _ _ _ => false

/-- R180: a wayside looks for centre delivery; an offer taken makes it look again. -/
def Svc.lookCentre : (fuel : Nat) → Svc → Svc
  | 0, s => s
  | fuel + 1, s =>
    let es := (s.note.queue.filter (·.toCentre)).take 4
    if s.settings.role = .headEnd ∨ es = [] ∨ 2 ≤ (s.queues.normal.filter NEntry.isNoticeFwd).length then s
    else
      let m : Message :=
        { source := s.settings.station, dest := Config.headEndNumber, length := messageSlots (.noticeFwd es),
          payload := .noticeFwd es }
      match s.offerNormal m with
      | (t, true) =>
        Svc.lookCentre fuel
          { t with note := { t.note with queue := serveCentre es.length t.note.queue }.setAttention }
      | (t, false) => t

/-- R176: append an entry, or count it lost. -/
def Note.append (n : Note) (e : Notice) : Note :=
  if n.queue.length < Config.noticePlaces then { n with queue := n.queue ++ [e] }.setAttention
  else { n with overflow := true, lost := bump Config.wordMax n.lost }

/-- R176, R180: a block posts a notice; an entry created with CENTRE makes NOTE look for centre delivery. -/
def Svc.post (s : Svc) (c : NoticeCode) (sub : Subject) (details : List Value) : Svc :=
  let r := s.settings.route c
  let head := decide (s.settings.role = .headEnd)
  let e : Notice :=
    { code := c, source := s.settings.station, received := false, subject := sub, time := s.time, details := details,
      toHost := r.host || (head && r.centre), toCentre := r.centre && !head }
  if s.note.keep = false ∨ noticeWaits e = false then s
  else
    let t := { s with note := s.note.append e }
    if e.toCentre && decide (s.note.queue.length < Config.noticePlaces) then Svc.lookCentre 2 t else t

/-- R181: one entry of a NOTICE-FWD at the head-end. -/
def Note.receive (n : Note) (source : Nat) (e : Notice) : Note :=
  n.append { e with source := source, received := true, toHost := true, toCentre := false }

/-- R179: NOTICE-READ from channel L or C: the entries, the number left, the flag and the lost count. -/
def Note.readReply (n : Note) (count : Nat) : List Notice × Value :=
  let host := n.queue.filter (·.toHost)
  (host.take count,
    .list [.nat (host.length - min count host.length), .flag n.overflow, .nat n.lost])

/-- R179, R183: entries read from channel L lose HOST; with ATTENTION-PULSE on, entries left behind start the pause. -/
def Svc.readFromL (s : Svc) (count : Nat) : Svc :=
  let host := s.note.queue.filter (·.toHost)
  let q := serveHost count s.note.queue
  let n := { s.note with queue := q }
  let n := if s.settings.attentionPulse && decide (count < host.length) then
      { n with pauseUntil := some (s.now + Config.attentionPause) } else n
  { s with note := n.setAttention }

/-- The subject as values: its kind and number (10 section 10.7). -/
def subjectReport : Subject → Value
  | .none => .list [.nat 0, .nat 0]
  | .device n => .list [.nat 1, .nat n]
  | .voicePort n => .list [.nat 2, .nat n]
  | .zone n => .list [.nat 3, .nat n]
  | .rule n => .list [.nat 4, .nat n]
  | .output n => .list [.nat 5, .nat n]
  | .input n => .list [.nat 6, .nat n]
  | .linePort .east => .list [.nat 7, .nat 1]
  | .linePort .west => .list [.nat 7, .nat 2]

/-- A notice entry as it stands in a NOTICE-READ reply (10 section 10.7). -/
def noticeReport (e : Notice) : Value :=
  .list [.code e.code, .nat e.source, subjectReport e.subject, .time e.time, .list e.details]

end Sys2Proof.Machine
end

