-- ==== Sys2Proof/Machine/Zone.lean ====
section
/-! DEFINITION. ZONE (04): zones and their causes, bindings, sign records, the release unit's pages and the beacons. Its operations act on the services and ZONE alone. -/

namespace Sys2Proof.Machine

/-- What ZONE's operations act on. -/
abbrev ZoneSt := Svc × Zone

/-- Change one sign record. -/
def Zone.changeSign (z : Zone) (d : Nat) (f : Sign → Sign) : Zone :=
  { z with signs := change (Option.map f) z.signs d }

/-- The sign record of a device (R79). -/
def Zone.sign (z : Zone) (d : Nat) : Option Sign := (nth z.signs d).getD none

/-- Change one beacon. -/
def Zone.changeBeacon (z : Zone) (b : Nat) (f : Beacon → Beacon) : Zone :=
  { z with beacons := change f z.beacons b }

/-- R74: a zone is ACTIVE exactly while its cause set is not empty. -/
def Zone.active (z : Zone) (k : Nat) : Bool :=
  match nth z.zones k with
  | none => false
  | some r => !r.causes.isEmpty

/-- The page a binding of this zone gives this device. -/
def Settings.boundPage (s : Settings) (k d : Nat) : Option Page :=
  s.bindings.findSome? fun b =>
    match b with
    | .sign z e p => if z = k ∧ e = d then some p else none
    | .beacon _ _ _ _ => none

/-- The pattern a binding of this zone gives this beacon. -/
def Settings.boundPattern (s : Settings) (k b : Nat) : Option (Nat × Nat) :=
  s.bindings.findSome? fun x =>
    match x with
    | .sign _ _ _ => none
    | .beacon z e on off => if z = k ∧ e = b then some (on, off) else none

/-- R80: the lowest-numbered ACTIVE zone that binds the sign. -/
def signZone (s : Settings) (z : Zone) (d : Nat) : Option Nat :=
  (places 8).find? fun k => z.active k && (s.boundPage k d).isSome

/-- R95: the lowest-numbered ACTIVE zone that binds the beacon. -/
def beaconZone (s : Settings) (z : Zone) (b : Nat) : Option Nat :=
  (places 8).find? fun k => z.active k && (s.boundPattern k b).isSome

/-- R80: the wanted page as its identifier and the zone that gives it, 0 for the normal page. -/
def wantedOf (s : Settings) (z : Zone) (d : Nat) (g : Sign) : Option (Nat × Nat) :=
  match signZone s z d with
  | some k => (s.boundPage k d).map fun p => (p.id, k)
  | none => g.normal.map fun p => (p.id, 0)

/-- R81: the wanted page, identifier and text, with where it stands. -/
def wantedPage (s : Settings) (g : Sign) (d : Nat) : Option (Page × PageSrc) :=
  match g.wanted with
  | none => none
  | some (_, 0) => g.normal.map fun p => (p, .normal)
  | some (_, k) => (s.boundPage k d).map fun p => (p, .binding k)

/-- R80, R83: the record worked out again; a change of wanted page ends FAULT and counts failures afresh. -/
def workedOut (s : Settings) (z : Zone) (d : Nat) (g : Sign) : Sign :=
  let w := wantedOf s z d g
  let changed := decide (w.map Prod.fst ≠ g.wanted.map Prod.fst)
  let fault := g.fault && !changed
  { g with
    wanted := w
    fault := fault
    attempts := if changed then 0 else g.attempts
    state := if fault then .fault else if (signZone s z d).isSome then .zoned else .normal }

/-- R80: a sign works out its wanted page and state; a change of state is posted. -/
def workOutSign (d : Nat) (x : ZoneSt) : ZoneSt :=
  match x.2.sign d with
  | none => x
  | some g =>
    let g' := workedOut x.1.settings x.2 d g
    let z := x.2.changeSign d fun _ => g'
    if g'.state = g.state then (x.1, z)
    else (x.1.post .signState (.device d) [.sign g.state, .sign g'.state], z)

/-- R83: an end of FAULT by a rejoin or by SIGN-SHOW. -/
def endFault (d : Nat) (x : ZoneSt) : ZoneSt :=
  workOutSign d (x.1, x.2.changeSign d fun g => if g.fault then { g with fault := false, attempts := 0 } else g)

/-! ## Beacons (04 section 4.5) -/

/-- R95: a beacon begins a continuous pattern at the start of the ON phase. -/
def Beacon.run (now zone on off : Nat) : Beacon :=
  { mode := .continuous zone, onTime := on, offTime := off, lit := true,
    phaseEnd := some (now + on * Config.beaconUnit) }

/-- R96: a single period begins at once. -/
def Beacon.pulse (now on off : Nat) : Beacon :=
  { mode := .single, onTime := on, offTime := off, lit := true,
    phaseEnd := some (now + on * Config.beaconUnit) }

/-- R95: the output of a beacon that runs no single period. -/
def Beacon.workedOut (s : Settings) (z : Zone) (now b : Nat) (r : Beacon) : Beacon :=
  match beaconZone s z b with
  | none => .reset
  | some k =>
    match s.boundPattern k b with
    | none => .reset
    | some (on, off) =>
      if r.mode = .continuous k ∧ r.onTime = on ∧ r.offTime = off then r else .run now k on off

/-- R95: a beacon works out its output; one in a single period takes the change up when the period ends. -/
def workOutBeacon (b : Nat) (x : ZoneSt) : ZoneSt :=
  (x.1, x.2.changeBeacon b fun r =>
    if r.mode = .single then r else r.workedOut x.1.settings x.2 x.1.now b)

/-- R96: the single period is over; the beacon works out its output. -/
def endSingle (b : Nat) (x : ZoneSt) : ZoneSt := workOutBeacon b (x.1, x.2.changeBeacon b fun _ => .reset)

/-- R96: a phase's time runs out. -/
def beaconPhaseEnds (b : Nat) (x : ZoneSt) : ZoneSt :=
  match nth x.2.beacons b with
  | none => x
  | some r =>
    if due x.1.now r.phaseEnd = false then x
    else match r.mode with
      | .off => x
      | .continuous _ =>
        (x.1, x.2.changeBeacon b fun r =>
          { r with lit := !r.lit,
                   phaseEnd := some (x.1.now + (if r.lit then r.offTime else r.onTime) * Config.beaconUnit) })
      | .single =>
        if r.lit then
          (x.1, x.2.changeBeacon b fun r =>
            { r with lit := false, phaseEnd := some (x.1.now + r.offTime * Config.beaconUnit) })
        else endSingle b x

/-! ## Zones (04 section 4.1) -/

/-- R75: the sign devices bound by a zone. -/
def Settings.boundSigns (s : Settings) (k : Nat) : List Nat :=
  (places 8).filter fun d => (s.boundPage k d).isSome

/-- R75: the beacons bound by a zone. -/
def Settings.boundBeacons (s : Settings) (k : Nat) : List Nat :=
  (places 4).filter fun b => (s.boundPattern k b).isSome

/-- R75: a zone's change of state is handed to the signs and beacons its bindings name, by device and then by beacon number,
which is the model's choice (log entry 80). -/
def handZone (k : Nat) (x : ZoneSt) : ZoneSt :=
  let x := (x.1.settings.boundSigns k).foldl (fun y d => workOutSign d y) x
  (x.1.settings.boundBeacons k).foldl (fun y b => workOutBeacon b y) x

/-- R74: the order in which a cause set is told. -/
def causeOrder : List Cause := [.phone, .weather, .command]

/-- R74: a cause added to a zone. -/
def addCause (k : Nat) (c : Cause) (x : ZoneSt) : ZoneSt :=
  match nth x.2.zones k with
  | none => x
  | some r =>
    if r.causes.contains c then x
    else
      let causes := causeOrder.filter fun e => e = c || r.causes.contains e
      if r.causes.isEmpty then
        let z := { x.2 with zones := put x.2.zones k { causes := causes, since := some x.1.time } }
        handZone k (x.1.post .zoneStart (.zone k) [.causes causes], z)
      else (x.1, { x.2 with zones := put x.2.zones k { r with causes := causes } })

/-- R74: a cause removed from a zone. -/
def removeCause (k : Nat) (c : Cause) (x : ZoneSt) : ZoneSt :=
  match nth x.2.zones k with
  | none => x
  | some r =>
    if r.causes.contains c then
      let causes := r.causes.filter (· ≠ c)
      if causes.isEmpty then
        let z := { x.2 with zones := put x.2.zones k { causes := [], since := none } }
        handZone k (x.1.post .zoneEnd (.zone k) [.causes [c]], z)
      else (x.1, { x.2 with zones := put x.2.zones k { r with causes := causes } })
    else x

/-! ## Pages and their buffers (R85) -/

/-- R85: a page gives up its buffer, at once or, while a load in flight sends it, when that exchange ends. -/
def giveUpPage (d : Nat) (src : PageSrc) (x : ZoneSt) : ZoneSt :=
  match x.2.sign d with
  | some { load := some l, .. } =>
    if l.src = src then
      (x.1, x.2.changeSign d fun g =>
        { g with load := some { l with src := .gone }, deferred := g.deferred + 1 })
    else (x.1.freeBuffers .sign 1, x.2)
  | _ => (x.1.freeBuffers .sign 1, x.2)

/-- 04 section 4.3.1: a page argument within its ranges. -/
def pageOk (p : Page) : Bool :=
  decide (1 ≤ p.id ∧ p.id ≤ 65535 ∧ p.lines.length ≤ 4) && p.lines.all fun l => decide (l.length ≤ 24)

/-- R86: the new page becomes the normal page, the old one gives up its buffer, and FAULT ends. -/
def showPage (d : Nat) (p : Page) (x : ZoneSt) : ZoneSt :=
  let hadNormal := match x.2.sign d with
    | some g => g.normal.isSome
    | none => false
  let x := if hadNormal then giveUpPage d .normal x else x
  endFault d (x.1, x.2.changeSign d fun g => { g with normal := some p })

/-- R87, R88: the staged page is replaced or removed; the old one gives up its buffer. -/
def setStaged (d : Nat) (staged : Option (Page × Nat)) (x : ZoneSt) : ZoneSt :=
  let hadStaged := match x.2.sign d with
    | some g => g.staged.isSome
    | none => false
  let s := if hadStaged then x.1.freeBuffers .sign 1 else x.1
  (s, x.2.changeSign d fun g => { g with staged := staged })

/-- R93: the tag of a release matches a staged page. -/
def stagedMatches (tag : Nat) : Option (Page × Nat) → Bool
  | none => false
  | some (_, t) => t = tag || t = 0

/-- R93: one sign's staged page put into service. -/
def applyStagedAt (tag : Nat) (x : ZoneSt × Nat) (d : Nat) : ZoneSt × Nat :=
  match x.1.2.sign d with
  | none => x
  | some g =>
    if stagedMatches tag g.staged then
      let y := if g.normal.isSome then giveUpPage d .normal x.1 else x.1
      (workOutSign d (y.1, y.2.changeSign d fun g =>
        { g with normal := g.staged.map Prod.fst, staged := none }), x.2 + 1)
    else x

/-- R93: APPLY-STAGED; the number of pages put into service. The signs are taken by device number, which is the model's
choice (log entry 80). -/
def applyStaged (tag : Nat) (x : ZoneSt) : ZoneSt × Nat := (places 8).foldl (applyStagedAt tag) (x, 0)

/-! ## Bindings (R78) -/

/-- R78: one binding within its ranges. -/
def bindingOk : Binding → Bool
  | .sign z d p => decide (1 ≤ z ∧ z ≤ 8 ∧ 1 ≤ d ∧ d ≤ 8) && pageOk p
  | .beacon z b on off =>
    decide (1 ≤ z ∧ z ≤ 8 ∧ 1 ≤ b ∧ b ≤ 4 ∧ 1 ≤ on ∧ on ≤ 255 ∧ 1 ≤ off ∧ off ≤ 255)

/-- 11 section 11.1: the key of a binding, zone with device or beacon. -/
def bindingKey : Binding → SettingKey
  | .sign z d _ => .zoneDevice z d
  | .beacon z b _ _ => .zoneBeacon z b

/-- No record twice. -/
def distinct {α : Type} [DecidableEq α] : List α → Bool
  | [] => true
  | a :: l => !l.contains a && distinct l

/-- Whether a binding is of a sign, and of which. -/
def bindingSign : Binding → Option (Nat × Nat)
  | .sign z d _ => some (z, d)
  | .beacon _ _ _ _ => none

/-- R78: ask POOL for `n` SIGN buffers one at a time; how many were granted. -/
def askSigns : (n : Nat) → Svc → Svc × Nat
  | 0, s => (s, 0)
  | n + 1, s =>
    match s.requestBuffers .sign 1 with
    | (t, some _) => (t, 0)
    | (t, none) =>
      let r := askSigns n t
      (r.1, r.2 + 1)

/-- R78: a new value of ZONE-BINDINGS, checked whole and taken. That the signs work out by device number, and after them
the beacons, is the model's choice (log entry 80). -/
def takeBindings (new : List Binding) (x : ZoneSt) : ZoneSt × Status :=
  let old := x.1.settings.bindings
  if Config.bindingPlaces < new.length ∨ new.all bindingOk = false ∨ distinct (new.map bindingKey) = false then
    (x, .badArgument)
  else
    let asked := new.filter fun b => (bindingSign b).isSome && !old.contains b
    let r := askSigns asked.length x.1
    if r.2 < asked.length then ((r.1.freeBuffers .sign r.2, x.2), .noRoom)
    else
      let gone := old.filter fun b => (bindingSign b).isSome && !new.contains b
      let x := gone.foldl (fun y b =>
        match bindingSign b with
        | some (z, d) => giveUpPage d (.binding z) y
        | none => y) (r.1, x.2)
      let x : ZoneSt := ({ x.1 with settings := { x.1.settings with bindings := new } }, x.2)
      let all := old ++ new
      let signs := (places 8).filter fun d => all.any fun b => match b with
        | .sign _ e _ => e = d
        | .beacon _ _ _ _ => false
      let beacons := (places 4).filter fun k => all.any fun b => match b with
        | .sign _ _ _ => false
        | .beacon _ e _ _ => e = k
      let x := signs.foldl (fun y d => workOutSign d y) x
      (beacons.foldl (fun y b => workOutBeacon b y) x, .done)

/-! ## Sign records and their exchanges -/

/-- R79: a record is made, its wanted page and state worked out. The making posts no SIGN-STATE, also where the first state
is ZONED: the model's choice (log entry 79). -/
def makeSign (d : Nat) (x : ZoneSt) : ZoneSt :=
  (x.1, { x.2 with signs := put x.2.signs d (some (workedOut x.1.settings x.2 d .made)) })

/-- R79, R85: a record is removed and its pages give up their buffers. -/
def removeSign (d : Nat) (x : ZoneSt) : ZoneSt :=
  match x.2.sign d with
  | none => x
  | some g =>
    let n := (if g.normal.isSome then 1 else 0) + (if g.staged.isSome then 1 else 0) + g.deferred
    (x.1.freeBuffers .sign n, { x.2 with signs := put x.2.signs d none })

/-- R82, R83: a PAGE-LOAD exchange ends. -/
def loadEnds (d : Nat) (o : LoadOutcome) (x : ZoneSt) : ZoneSt :=
  match x.2.sign d with
  | some g =>
    match g.load with
    | none => x
    | some l =>
      let isWanted := decide (g.wanted.map Prod.fst = some l.id)
      let shown := match o with
        | .confirmed => some l.id
        | .abandoned => none
        | .refused => g.shown
        | .unanswered => g.shown
      let attempts := match o with
        | .confirmed => if isWanted then 0 else g.attempts
        | .abandoned => g.attempts
        | .refused => if isWanted then min 3 (g.attempts + 1) else g.attempts
        | .unanswered => if isWanted then min 3 (g.attempts + 1) else g.attempts
      let fault := g.fault || decide (attempts = 3)
      let s := if o = .confirmed then x.1.post .signShown (.device d) [.nat l.id] else x.1
      let s := if fault && !g.fault then
          s.post .signFailed (.device d) [Value.opt (fun w => .nat w.1) g.wanted, .outcome o] else s
      (s.freeBuffers .sign g.deferred,
        x.2.changeSign d fun g =>
          { g with load := none, deferred := 0, shown := shown, attempts := attempts, fault := fault,
                   state := if fault then .fault else g.state })
  | none => x

/-- R84: a STATUS reply of a sign. -/
def signStatusTaken (d : Nat) (st : DeviceStatus) (x : ZoneSt) : ZoneSt :=
  (x.1, x.2.changeSign d fun g =>
    let shown := match st, g.shown with
      | .sign (some p) _ _, some q => if p = q then some q else none
      | _, q => q
    { g with last := some (st, x.1.time), shown := shown })

/-- R84: the shown page becomes unknown. -/
def forgetShown (d : Nat) (x : ZoneSt) : ZoneSt := (x.1, x.2.changeSign d fun g => { g with shown := none })

/-- R84: a rejoin. -/
def signRejoins (d : Nat) (x : ZoneSt) : ZoneSt :=
  endFault d (x.1, x.2.changeSign d fun g => { g with shown := none, attempts := 0 })

/-- R81: the five conditions of a page load, but for the device's state. -/
def wantsLoad (z : Zone) (d : Nat) : Bool :=
  match z.sign d with
  | none => false
  | some g =>
    g.state ≠ .fault && g.wanted.isSome && g.wanted.map Prod.fst ≠ g.shown && g.load.isNone

end Sys2Proof.Machine
end

