-- ==== Sys2Proof/Machine/Toll.lean ====
section
/-! DEFINITION. TOLL (07): gantries, the toll offer, the log, loans and confirmation. Its operations act on the services and TOLL alone. -/

namespace Sys2Proof.Machine

/-- What TOLL's operations act on. -/
abbrev TollSt := Svc × Toll

/-- The gantry entry with this number (R131). -/
def Toll.entry (t : Toll) (g : Nat) : Option Gantry := t.gantries.find? (·.number = g)

/-- Change the gantry entry with this number. -/
def Toll.changeEntry (t : Toll) (g : Nat) (f : Gantry → Gantry) : Toll :=
  { t with gantries := t.gantries.map fun e => if e.number = g then f e else e }

/-- Change the counts of R146. -/
def Toll.count (t : Toll) (f : TollCounts → TollCounts) : Toll := { t with counts := f t.counts }

/-- Records of a gantry in the log. -/
def Toll.recordsOf (t : Toll) (g : Nat) : List LogRecord := t.log.filter fun r => r.record.gantry = g

/-- R134, R135: a device that is PRESENT or SILENT. -/
def Device.answers (d : Device) : Bool := d.state = .present || d.state = .silent

/-- R133: U − 1, the highest sequence that the gantry has discarded. -/
def discarded (i : Identity) : Nat := i.oldest - 1

/-- R133, R134: attach a device that has joined, `replaced` when its serial number differs from that of its last identity;
CLASH is looked at before RENUMBERED (log entry 65). A device that RENUMBERED refuses stays bound where it was bound, which
is the model's choice (log entry 81). -/
def attachGantry (devices : List Device) (d : Nat) (i : Identity) (replaced : Bool) (x : TollSt) : TollSt :=
  let g := i.gantry
  let u := discarded i
  let refuse (r : UnattachedReason) : TollSt :=
    (x.1.post .tollUnattached (.device d) [.nat g, .unattached r],
      { x.2 with attachments := put x.2.attachments d (some (.unattached r replaced)) })
  match x.2.entry g with
  | none =>
    if Config.gantryPlaces ≤ x.2.gantries.length then refuse .full
    else
      (x.1, { x.2 with
        gantries := x.2.gantries ++ [{ number := g, a := u, c := u, reported := none, device := some d,
                                       lastBad := none, lastGap := none }]
        attachments := put x.2.attachments d (some (.attached g)) })
  | some e =>
    let clash := match e.device with
      | none => false
      | some o => o ≠ d && (match nth devices o with
        | none => false
        | some v => v.answers)
    if clash then refuse .clash
    else if replaced ∧ u < e.c then refuse .renumbered
    else
      let t := { x.2 with attachments := put x.2.attachments d (some (.attached g)) }
      if e.a < u then
        (x.1.post .tollSequenceJump (.device d) [.nat g, .nat e.a, .nat u],
          (t.changeEntry g fun e => { e with device := some d, a := u }).count fun n =>
            { n with skipped := bumpBy Config.longMax (u - e.a) n.skipped })
      else (x.1, t.changeEntry g fun e => { e with device := some d })

/-- R134: after an entry is removed, each UNATTACHED device that is PRESENT or SILENT is tried again. -/
def retryUnattached (devices : List Device) (x : TollSt) : TollSt :=
  (places 8).foldl (fun y d =>
    match (nth y.2.attachments d).getD none, nth devices d with
    | some (.unattached _ replaced), some v =>
      if v.answers then
        match v.identity with
        | some i => attachGantry devices d i replaced y
        | none => y
      else y
    | _, _ => y) x

/-- R135: an entry with no bound device and no records is removed at once. -/
def dropIdleEntry (devices : List Device) (g : Nat) (x : TollSt) : TollSt :=
  match x.2.entry g with
  | none => x
  | some e =>
    if e.device.isNone ∧ (x.2.recordsOf g).isEmpty then
      retryUnattached devices (x.1, { x.2 with gantries := dropFirst (fun e => e.number = g) x.2.gantries })
    else x

/-- R135: a device's attachment becomes absent and the device is unbound. -/
def unbindDevice (devices : List Device) (d : Nat) (x : TollSt) : TollSt :=
  let bound := (x.2.gantries.filter fun e => e.device = some d).map (·.number)
  let unbind (e : Gantry) : Gantry := if e.device = some d then { e with device := none } else e
  let t : Toll :=
    { x.2 with attachments := put x.2.attachments d none, gantries := x.2.gantries.map unbind }
  bound.foldl (fun y g => dropIdleEntry devices g y) (x.1, t)

/-- R133, R135: a join of a TOLL device; one bound to an entry of another gantry number is unbound first, ATTACHED or
not. -/
def joinGantry (devices : List Device) (d : Nat) (i : Identity) (replaced : Bool) (x : TollSt) : TollSt :=
  let elsewhere := x.2.gantries.any fun e => e.device = some d && e.number ≠ i.gantry
  attachGantry devices d i replaced (if elsewhere then unbindDevice devices d x else x)

/-- R136: the two sequences of a TOLL-OFFER request. -/
def offerSequences (t : Toll) (d : Nat) (i : Option Identity) : Nat × Nat :=
  match (nth t.attachments d).getD none with
  | some (.attached g) =>
    match t.entry g with
    | some e => (e.a, e.c)
    | none => (0, 0)
  | _ =>
    match i with
    | some i => (discarded i, discarded i)
    | none => (0, 0)

/-- R137: whether a record is malformed for the gantry to which the device is ATTACHED. A plate read that the presence
byte marks absent is absent whatever stands in its bytes (07 section 7.5). -/
def malformedRecord (g : Nat) (r : TollRecord) : Bool :=
  decide (r.gantry ≠ g ∨ r.seq = 0 ∨ r.lane < 1 ∨ 8 < r.lane ∨ r.cls < 1 ∨ 7 < r.cls ∨ 100 < r.confidence ∨
    (r.presence.getLsbD 1 = true ∧ (r.plateLength = 0 ∨ 10 < r.plateLength)) ∨ r.presence.toNat ≥ 4)

/-- R145: number of gantries with records. -/
def Toll.gantriesWithRecords (t : Toll) : Nat :=
  (t.gantries.filter fun e => !(t.recordsOf e.number).isEmpty).length

/-- R145: the log has climbed above the mark. -/
def raiseHigh (x : TollSt) : TollSt :=
  if x.2.high = false ∧ x.1.settings.tollHigh < x.2.log.length then
    (x.1.post .tollHigh .none [.nat x.2.log.length, .nat x.2.gantriesWithRecords], { x.2 with high := true })
  else x

/-- R145: the log has fallen to the mark less 32, or is empty. -/
def lowerHigh (x : TollSt) : TollSt :=
  if x.2.log.length ≤ x.1.settings.tollHigh - 32 then (x.1, { x.2 with high := false }) else x

/-- R138, R141, R142: a granted record is appended to the log. -/
def acceptRecord (g : Nat) (r : TollRecord) (x : TollSt) : TollSt :=
  let kept : LogRecord := { record := r, receipt := x.1.time, loan := none }
  let t := { x.2 with log := x.2.log ++ [kept], heldMark := false }
  raiseHigh (x.1, (t.changeEntry g fun e => { e with a := e.a + 1 }).count fun n =>
    { n with accepted := bump Config.longMax n.accepted })

/-- R139: POOL has refused a buffer. -/
def holdRecord (d g seq : Nat) (r : PoolReason) (x : TollSt) : TollSt :=
  let t := x.2.count fun n =>
    match r with
    | .ceiling => { n with heldCeiling := bump Config.longMax n.heldCeiling }
    | .free => { n with heldFree := bump Config.longMax n.heldFree }
    | .guarantee => { n with heldGuarantee := bump Config.longMax n.heldGuarantee }
  if t.heldMark then (x.1, t)
  else (x.1.post .tollHeld (.device d) [.nat g, .nat seq, .poolReason r], { t with heldMark := true })

/-- R137: a malformed record stops acceptance. -/
def stopMalformed (d g seq : Nat) (x : TollSt) : TollSt :=
  let t := x.2.count fun n => { n with malformed := bump Config.longMax n.malformed }
  match t.entry g with
  | none => (x.1, t)
  | some e =>
    if e.lastBad = some seq then (x.1, t)
    else (x.1.post .tollBadRecord (.device d) [.nat g, .nat seq],
      t.changeEntry g fun e => { e with lastBad := some seq })

/-- R140: a record above A + 1 stops acceptance. -/
def stopGap (d g a seq : Nat) (x : TollSt) : TollSt :=
  let t := x.2.count fun n => { n with gap := bump Config.longMax n.gap }
  match t.entry g with
  | none => (x.1, t)
  | some e =>
    if e.lastGap = some a then (x.1, t)
    else (x.1.post .tollGap (.device d) [.nat g, .nat a, .nat seq],
      t.changeEntry g fun e => { e with lastGap := some a })

/-- R137, R138: one record of an ATTACHED device's reply; `x.2` tells whether acceptance has stopped. R136 takes the record
against the gantry's entry; that it is dropped without a count where the entry has been removed is the model's choice (log
entry 99). -/
def takeRecord (d g : Nat) (x : TollSt × Bool) (r : TollRecord) : TollSt × Bool :=
  if x.2 then ((x.1.1, x.1.2.count fun n => { n with deferred := bump Config.longMax n.deferred }), true)
  else match x.1.2.entry g with
    | none => x
    | some e =>
      if r.seq ≤ e.a then
        ((x.1.1, x.1.2.count fun n => { n with duplicate := bump Config.longMax n.duplicate }), false)
      else if malformedRecord g r then (stopMalformed d g r.seq x.1, true)
      else if r.seq = e.a + 1 then
        match x.1.1.requestBuffers .toll 1 with
        | (s, none) => (acceptRecord g r (s, x.1.2), false)
        | (s, some reason) => (holdRecord d g r.seq reason (s, x.1.2), true)
      else (stopGap d g e.a r.seq x.1, true)

/-- R136: the C that the request carried becomes the reported-through. -/
def reportThrough (g c : Nat) (t : Toll) : Toll :=
  t.changeEntry g fun e =>
    match e.reported with
    | none => { e with reported := some c }
    | some r => { e with reported := some (max r c) }

/-- R136: an ANSWERED TOLL-OFFER whose request carried `c`. -/
def takeOffer (d c : Nat) (l : List TollRecord) (x : TollSt) : TollSt :=
  match (nth x.2.attachments d).getD none with
  | some (.attached g) =>
    let y := (l.foldl (takeRecord d g) (x, false)).1
    (y.1, reportThrough g c y.2)
  | _ => (x.1, x.2.count fun n => { n with unattached := bumpBy Config.longMax l.length n.unattached })

/-! ## Loans and confirmation (R142, R143) -/

/-- R142, Cancel. -/
def Toll.cancel (t : Toll) : Toll := { t with log := t.log.map fun r => { r with loan := none } }

/-- R142, Select: up to `n` UNLOANED records LOANED to the batch, oldest first. -/
def selectRecords (batch : Nat) : (n : Nat) → List LogRecord → List LogRecord
  | 0, l => l
  | _, [] => []
  | n + 1, r :: l =>
    if r.loan.isNone then { r with loan := some batch } :: selectRecords batch n l
    else r :: selectRecords batch (n + 1) l

/-- R142: gantry and sequence of the records LOANED to a batch, in log order. -/
def recordsLoanedTo (batch : Nat) (l : List LogRecord) : List (Nat × Nat) :=
  (l.filter fun r => r.loan = some batch).map fun r => (r.record.gantry, r.record.seq)

/-- R143: one pair of a COLLECT-ACK; the LOANED records removed are handed to COLL. -/
def ackPair (devices : List Device) (x : TollSt) (p : Nat × Nat) : TollSt × List (Nat × Nat) :=
  match x.2.entry p.1 with
  | none => ((x.1, x.2.count fun n => { n with unmatched := bump Config.longMax n.unmatched }), [])
  | some e =>
    let gone := x.2.log.filter fun r => r.record.gantry = p.1 && decide (r.record.seq ≤ p.2)
    let t := { x.2 with log := x.2.log.filter fun r => !(r.record.gantry = p.1 && decide (r.record.seq ≤ p.2)) }
    let t := t.changeEntry p.1 fun e => { e with c := max e.c (min p.2 e.a) }
    let t := t.count fun n => { n with acknowledged := bumpBy Config.longMax gone.length n.acknowledged }
    let y := (x.1.freeBuffers .toll gone.length, t)
    let y := if gone.isEmpty then y else lowerHigh y
    let y := if gone.isEmpty && e.device.isSome then y else dropIdleEntry devices p.1 y
    (y, (gone.filter fun r => r.loan.isSome).map fun r => (r.record.gantry, r.record.seq))

/-- R143: the pairs of a COLLECT-ACK in order. -/
def ackPairs (devices : List Device) (l : List (Nat × Nat)) (x : TollSt) : TollSt × List (Nat × Nat) :=
  l.foldl (fun y p => let r := ackPair devices y.1 p; (r.1, y.2 ++ r.2)) (x, [])

/-- R145: a new value of TOLL-HIGH-MARK is compared with the log at once. -/
def takeTollHigh (n : Nat) (x : TollSt) : TollSt :=
  lowerHigh (raiseHigh ({ x.1 with settings := { x.1.settings with tollHigh := n } }, x.2))

end Sys2Proof.Machine
end

