-- ==== Sys2Proof/Machine/Wx.lean ====
section
/-! DEFINITION. WX (08): samples, segments, eviction for its own need, loans, acknowledgement and threshold rules. -/

namespace Sys2Proof.Machine

/-- 08 section 8.1: the range of a quantity, `none` for an unknown code. -/
def quantityRange : Nat → Option (Int × Int)
  | 1 => some (0, 1000)
  | 2 => some (0, 1000)
  | 3 => some (0, 359)
  | 4 => some (-600, 600)
  | 5 => some (-600, 800)
  | 6 => some (-600, 600)
  | 7 => some (0, 100)
  | 8 => some (0, 2000)
  | 9 => some (0, 5000)
  | 10 => some (1, 7)
  | 11 => some (1, 7)
  | 12 => some (5000, 11000)
  | _ => none

/-- A value within its quantity's range. -/
def inQuantityRange (code : Nat) (v : Int) : Bool :=
  match quantityRange code with
  | none => false
  | some (lo, hi) => decide (lo ≤ v ∧ v ≤ hi)

/-- R147: whether the quantities of a reply make a well-formed sample. -/
def sampleOk (l : List Quantity) : Bool :=
  decide (1 ≤ l.length ∧ l.length ≤ 12) && l.all (fun q => inQuantityRange q.code q.value)
    && distinct (l.map (·.code))

/-- 08 section 8.1.1: bytes of a sample record. -/
def sampleBytes (r : Sample) : Nat := 8 + 3 * r.quantities.length

/-- 08 section 8.2.5: bytes of a segment record with these samples. -/
def segmentBytes (l : List Sample) : Nat := 7 + (l.map sampleBytes).sum

/-- R148: the OPEN segment of a device. -/
def Wx.openOf (w : Wx) (d : Nat) : Option Segment :=
  w.segments.find? fun g => g.device = d && g.state = .opened

/-- Change the segment with this number. -/
def Wx.changeSegment (w : Wx) (n : Nat) (f : Segment → Segment) : Wx :=
  { w with segments := w.segments.map fun g => if g.number = n then f g else g }

/-- R150: close a segment and post SEGMENT-READY. -/
def Svc.closeSegment (s : Svc) (g : Segment) (c : CloseCause) : Svc :=
  { s with wx := s.wx.changeSegment g.number fun g => { g with state := .closed, cause := some c } }.post
    .segmentReady (.device g.device)
    [.nat g.number, .nat g.samples.length, .nat g.gap, .close c]

/-- R150: close the segment with this number as it now stands. -/
def Svc.closeNumbered (s : Svc) (k : Nat) (c : CloseCause) : Svc :=
  match s.wx.segments.find? fun g => g.number = k with
  | none => s
  | some g => s.closeSegment g c

/-- R150: close the OPEN segment of a device, if it has one. -/
def Svc.closeOpen (s : Svc) (d : Nat) (c : CloseCause) : Svc :=
  match s.wx.openOf d with
  | none => s
  | some g => s.closeSegment g c

/-- Change the counts of R161. -/
def Svc.countWx (s : Svc) (f : WxCounts → WxCounts) : Svc := { s with wx := { s.wx with counts := f s.wx.counts } }

/-- R151: a lost sample. -/
def Svc.loseSample (s : Svc) (d : Nat) (r : LossReason) : Svc :=
  let s := s.closeOpen d .early
  let s := { s with wx := { s.wx with gaps := change (bump Config.wordMax) s.wx.gaps d } }
  let s := s.countWx fun n => { n with lost := bump Config.longMax n.lost }
  if s.wx.lossMark then s
  else { s with wx := { s.wx with lossMark := true } }.post .weatherLoss (.device d) [.loss r]

/-- R149 step 3: ask for a WEATHER buffer, evicting CLOSED segments until it is granted or none is left. -/
def Svc.weatherBuffer : (fuel : Nat) → Svc → Svc × Option PoolReason
  | 0, s => s.requestBuffers .weather 1
  | fuel + 1, s =>
    match s.requestBuffers .weather 1 with
    | (t, none) => (t, none)
    | (t, some r) =>
      match t.evictOldest false with
      | none => (t, some r)
      | some (u, _) => Svc.weatherBuffer fuel u

/-- R149 step 4: the next segment, its gap count the pending gap. -/
def Svc.openSegment (s : Svc) (d : Nat) (first : NodeTime) : Svc :=
  let n := nextNumber 65535 (s.wx.segments.map (·.number)) Config.segmentPlaces s.wx.lastNumber
  let g : Segment :=
    { number := n, device := d, state := .opened, batch := none, first := first,
      gap := (nth s.wx.gaps d).getD 0, cause := none, samples := [] }
  { s with wx := { s.wx with segments := s.wx.segments ++ [g], lastNumber := n, gaps := put s.wx.gaps d 0 } }

/-- R149 step 4: append the record, clear the loss mark and close a full segment. -/
def Svc.fileSample (s : Svc) (r : Sample) : Svc :=
  let s := if (s.wx.openOf r.device).isSome then s else s.openSegment r.device r.time
  match s.wx.openOf r.device with
  | none => s
  | some g =>
    let g' := { g with samples := g.samples ++ [r] }
    let s := { s with wx := { s.wx.changeSegment g.number (fun _ => g') with lossMark := false } }
    let s := s.countWx fun n => { n with stored := bump Config.longMax n.stored }
    if s.settings.segmentLength ≤ g'.samples.length then s.closeSegment g' .full else s

/-- R149: store a well-formed sample record, or lose it. -/
def Svc.storeSample (s : Svc) (r : Sample) : Svc :=
  let s := match s.wx.openOf r.device with
    | some g =>
      if Config.segmentBytes < segmentBytes (g.samples ++ [r]) then s.closeSegment g .size else s
    | none => s
  let room : Svc × Bool :=
    if (s.wx.openOf r.device).isNone ∧ Config.segmentPlaces ≤ s.wx.segments.length then
      match s.evictOldest false with
      | none => (s, false)
      | some (t, _) => (t, true)
    else (s, true)
  if room.2 then
    match Svc.weatherBuffer room.1.wx.segments.length room.1 with
    | (t, none) => t.fileSample r
    | (t, some reason) => t.loseSample r.device (.pool reason)
  else room.1.loseSample r.device .table

/-- R150: a new SEGMENT-LENGTH closes OPEN segments at or above it, in segment order. -/
def Svc.takeSegmentLength (s : Svc) (n : Nat) : Svc :=
  let s := { s with settings := { s.settings with segmentLength := n } }
  let full := s.wx.segments.filter fun g => g.state = .opened && decide (n ≤ g.samples.length)
  (full.map (·.number)).foldl (fun t k => t.closeNumbered k .length) s

/-! ## Loans and acknowledgement -/

/-- R154, Cancel. -/
def Wx.cancel (w : Wx) : Wx :=
  { w with segments := w.segments.map fun g =>
      if g.state = .loaned then { g with state := .closed, batch := none } else g }

/-- R154, Select: up to `n` CLOSED segments LOANED to the batch, oldest first. -/
def selectSegments (batch : Nat) : (n : Nat) → List Segment → List Segment
  | 0, l => l
  | _, [] => []
  | n + 1, g :: l =>
    if g.state = .closed then { g with state := .loaned, batch := some batch } :: selectSegments batch n l
    else g :: selectSegments batch (n + 1) l

/-- R154: the numbers handed to COLL, in segment order. -/
def loanedTo (batch : Nat) (l : List Segment) : List Nat :=
  (l.filter fun g => g.state = .loaned && g.batch = some batch).map (·.number)

/-- R155: one number of a COLLECT-ACK; the number is handed to COLL if the segment was LOANED. -/
def Svc.ackSegment (s : Svc) (n : Nat) : Svc × List Nat :=
  match s.wx.segments.find? fun g => g.number = n && g.state ≠ .opened with
  | none => (s.countWx fun k => { k with unmatched := bump Config.longMax k.unmatched }, [])
  | some g =>
    let t := { s with wx := { s.wx with segments := dropFirst (fun h => h.number = n) s.wx.segments } }
    let t := t.countWx fun k => { k with acknowledged := bump Config.longMax k.acknowledged }
    (t.freeBuffers .weather g.samples.length, if g.state = .loaned then [n] else [])

/-- R155: the numbers of a COLLECT-ACK in order. -/
def Svc.ackSegments (s : Svc) (l : List Nat) : Svc × List Nat :=
  l.foldl (fun x n => let r := x.1.ackSegment n; (r.1, x.2 ++ r.2)) (s, [])

/-! ## Threshold rules (08 section 8.3) -/

/-- R156: how a value stands. -/
inductive Standing where
  | past | back | between
  deriving DecidableEq, Repr

/-- R156: classify a value against level, direction and hysteresis. -/
def classify (r : RuleSpec) (v : Int) : Standing :=
  match r.direction with
  | .above => if r.level < v then .past else if v ≤ r.level - r.hysteresis then .back else .between
  | .below => if v < r.level then .past else if r.level + r.hysteresis ≤ v then .back else .between

/-- R157: the table of states, `h` the hold count. -/
def nextRuleState (h : Nat) : RuleState → Standing → RuleState
  | .clear, .past => if h = 1 then .tripped else .arming 1
  | .clear, _ => .clear
  | .arming n, .past => if n + 1 = h then .tripped else .arming (n + 1)
  | .arming _, _ => .clear
  | .tripped, .back => if h = 1 then .clear else .easing 1
  | .tripped, _ => .tripped
  | .easing n, .back => if n + 1 = h then .clear else .easing (n + 1)
  | .easing _, _ => .tripped

/-- 08 section 8.3: a rule is tripped while TRIPPED or EASING. -/
def isTripped : RuleState → Bool
  | .tripped => true
  | .easing _ => true
  | .clear => false
  | .arming _ => false

/-- What the rules' operations act on. -/
abbrev RuleSt := Svc × List RuleRec

/-- R157: one rule is evaluated on a sample. -/
def evaluateRule (r : Sample) (x : RuleSt) (k : Nat) : RuleSt :=
  match (nth x.1.settings.rules k).getD none, nth x.2 k with
  | some spec, some rec =>
    if spec.device ≠ r.device then x
    else match r.quantities.find? (·.code = spec.quantity) with
      | none => x
      | some q =>
        let st := nextRuleState spec.hold rec.state (classify spec q.value)
        let rec' : RuleRec :=
          { state := st, last := some q.value, since := if st = rec.state then rec.since else x.1.time }
        let s :=
          if st = .tripped ∧ isTripped rec.state = false then
            x.1.post .ruleTrip (.rule k) [.nat spec.device, .nat spec.quantity, .nat spec.zone, .num q.value]
          else if st = .clear ∧ isTripped rec.state = true then
            x.1.post .ruleClear (.rule k) [.nat spec.zone, .num q.value, .ruleClear .value]
          else x.1
        (s, put x.2 k rec')
  | _, _ => x

/-- R157: every rule on a sample, in order of rule number. -/
def evaluateRules (r : Sample) (x : RuleSt) : RuleSt := (places 8).foldl (evaluateRule r) x

/-- R158: whether any rule bound to a zone is tripped. -/
def zoneTripped (specs : List (Option RuleSpec)) (recs : List RuleRec) (z : Nat) : Bool :=
  (specs.zip recs).any fun p =>
    match p.1 with
    | none => false
    | some s => s.zone = z && isTripped p.2.state

/-- R158: hand ZONE what changed for each zone. -/
def handWeather (specs : List (Option RuleSpec)) (before : List RuleRec) (specs' : List (Option RuleSpec))
    (after : List RuleRec) (x : ZoneSt) : ZoneSt :=
  (places 8).foldl (fun y z =>
    match zoneTripped specs before z, zoneTripped specs' after z with
    | false, true => addCause z .weather y
    | true, false => removeCause z .weather y
    | _, _ => y) x

/-- R159: one entry of THRESHOLD-RULES within its ranges. -/
def ruleOk (r : RuleSpec) : Bool :=
  decide (1 ≤ r.device ∧ r.device ≤ 8 ∧ r.hysteresis ≤ 1000 ∧ 1 ≤ r.hold ∧ r.hold ≤ 8 ∧ r.zone ≤ 8)
    && inQuantityRange r.quantity r.level

/-- R159: replace one entry; an old tripped rule is told, the new one starts CLEAR. -/
def replaceRule (x : RuleSt) (k : Nat) (new : Option RuleSpec) : RuleSt :=
  let s := match (nth x.1.settings.rules k).getD none, nth x.2 k with
    | some old, some rec =>
      if isTripped rec.state then
        x.1.post .ruleClear (.rule k) [.nat old.zone, .absent, .ruleClear .changed]
      else x.1
    | _, _ => x.1
  ({ s with settings := { s.settings with rules := put s.settings.rules k new } },
    put x.2 k { state := .clear, last := none, since := s.time })

/-- R159: a device's kind ceases to be WEATHER: its rules that are not CLEAR become CLEAR. -/
def clearRulesOf (d : Nat) (x : RuleSt) : RuleSt :=
  (places 8).foldl (fun y k =>
    match (nth y.1.settings.rules k).getD none, nth y.2 k with
    | some spec, some rec =>
      if spec.device ≠ d ∨ rec.state = .clear then y
      else
        let s := if isTripped rec.state then
            y.1.post .ruleClear (.rule k) [.nat spec.zone, .absent, .ruleClear .device] else y.1
        (s, put y.2 k { state := .clear, last := none, since := s.time })
    | _, _ => y) x

end Sys2Proof.Machine
end

