-- ==== Sys2Proof/Machine/Node.lean ====
section
/-! DEFINITION. How the blocks' own operations act on a node, and how a command or an event reads its parts. -/

namespace Sys2Proof.Machine

/-- Act on the services. -/
def Node.onSvc (n : Node) (f : Svc → Svc) : Node := { n with svc := f n.svc }

/-- Act on the services and ZONE. -/
def Node.onZone (n : Node) (f : ZoneSt → ZoneSt) : Node :=
  let x := f (n.svc, n.zone)
  { n with svc := x.1, zone := x.2 }

/-- Act on the services and TOLL. -/
def Node.onToll (n : Node) (f : TollSt → TollSt) : Node :=
  let x := f (n.svc, n.toll)
  { n with svc := x.1, toll := x.2 }

/-- Post a notice. -/
def Node.post (n : Node) (c : NoticeCode) (sub : Subject) (details : List Value) : Node :=
  n.onSvc fun s => s.post c sub details

/-- Act on the working settings. -/
def Node.onSettings (n : Node) (f : Settings → Settings) : Node :=
  n.onSvc fun s => { s with settings := f s.settings }

/-- The working settings. -/
def Node.set (n : Node) : Settings := n.svc.settings

/-- The node's role. -/
def Node.isHead (n : Node) : Bool := n.svc.settings.role = .headEnd

/-- The node's own station number. -/
def Node.me (n : Node) : Nat := n.svc.settings.station

/-- The port with this name. -/
def Node.port (n : Node) : PortId → Port
  | .east => n.east
  | .west => n.west

/-- Act on a port. -/
def Node.onPort (n : Node) (p : PortId) (f : Port → Port) : Node :=
  match p with
  | .east => { n with east := f n.east }
  | .west => { n with west := f n.west }

/-- The other port. -/
def otherPort : PortId → PortId
  | .east => .west
  | .west => .east

/-- Whether light stands at a port's receiver. -/
def Pins.light (p : Pins) : PortId → Bool
  | .east => p.lightEast
  | .west => p.lightWest

/-- WIN's state for a loop. -/
def Win.loop (w : Win) : Loop → LoopSt
  | .outer => w.outer
  | .inner => w.inner

/-- Act on WIN's state for a loop. -/
def Win.onLoop (w : Win) (l : Loop) (f : LoopSt → LoopSt) : Win :=
  match l with
  | .outer => { w with outer := f w.outer }
  | .inner => { w with inner := f w.inner }

/-- Act on WIN's state for a loop. -/
def Node.onLoop (n : Node) (l : Loop) (f : LoopSt → LoopSt) : Node := { n with win := n.win.onLoop l f }

/-- The map entry of a station (01 section 1.7). -/
def Head.entry (h : Head) (st : Nat) : Option MapEntry := h.map.find? (·.station = st)

/-- Take the free value that a choice among `k` waiting parties uses. -/
def Node.fresh (n : Node) : Node := n.onSvc Svc.fresh

end Sys2Proof.Machine
end

