-- ==== Sys2Proof/Machine/Call.lean ====
section
/-! DEFINITION. CALL (03): phone call records and hook debouncers at a wayside; call table, wait queue and voice slot plan at the head-end. -/

namespace Sys2Proof.Machine

/-- Act on CALL. -/
def Node.onCall (n : Node) (f : Call → Call) : Node := { n with call := f n.call }

/-- R59: offer a call signalling message; a refused one is held, or dropped when 16 are held. -/
def Node.offerCall (n : Node) (m : Message) : Node :=
  let r := n.svc.offerEmergency m
  let n := { n with svc := r.1 }
  if r.2 then n
  else n.onCall fun c =>
    if c.held.length < Config.callHeld then { c with held := c.held ++ [m] }
    else { c with dropped := c.dropped + 1 }

/-- R59: at a freeing the held messages are offered again, oldest first, up to the first refusal. -/
def Node.retryCalls : List Message → Node → Node
  | [], n => n
  | m :: l, n =>
    let r := n.svc.offerEmergency m
    let n := { n with svc := r.1 }
    if r.2 then Node.retryCalls l (n.onCall fun c => { c with held := c.held.drop 1 }) else n

/-! ## The wayside (3.2) -/

/-- A one-slot message of a wayside to the head-end. -/
def Node.toHead (n : Node) (p : Payload) : Message :=
  { source := n.me, dest := Config.headEndNumber, length := 1, payload := p }

/-- The record of a phone port. -/
def Node.phone (n : Node) (p : Nat) : Option Phone := nth n.call.phones p

/-- Change the record of a phone port. -/
def Node.onPhone (n : Node) (p : Nat) (f : Phone → Phone) : Node :=
  n.onCall fun c => { c with phones := change f c.phones p }

/-- Whether a state carries the slot's audio (R57). -/
def PhoneState.talks : PhoneState → Bool
  | .alerting => true
  | .connected => true
  | _ => false

/-- R52: change a record and its state; a change of state is posted. The handset of a port that enters ALERTING or CONNECTED
hears silence until a slot passes, which is the model's choice (log entry 57). -/
def Node.movePhone (n : Node) (p : Nat) (new : PhoneState) (f : Phone → Phone) : Node :=
  match n.phone p with
  | none => n
  | some r =>
    let keep := PhoneState.talks r.state && PhoneState.talks new
    let n := n.onPhone p fun r =>
      let r := f r
      { r with state := new, hears := if keep then r.hears else .silence }
    if r.state = new then n else n.post .phoneState (.voicePort p) [.phone r.state, .phone new]

/-- R53, R54: offer the record's CALL-REQUEST. -/
def Node.offerRequest (n : Node) (p : Nat) (r : Phone) : Node :=
  n.offerCall (n.toHead (.callRequest p (r.requested.getD n.svc.time)))

/-- R54: start a record's repeat timer. -/
def Node.startRepeat (n : Node) (p : Nat) : Node :=
  n.onPhone p fun r => { r with timer := some (n.svc.now + Config.repeatTime) }

/-- 03 section 3.2: the zone of a phone port. -/
def Node.portZone (n : Node) (p : Nat) : Nat := (nth n.set.portZones p).getD 0

/-- R53: a record enters REQUESTING. -/
def Node.enterRequesting (n : Node) (p : Nat) : Node :=
  let n := n.movePhone p .requesting fun r =>
    { r with requested := some n.svc.time, call := none, slot := none, heldOff := false }
  let z := n.portZone p
  let n := if z = 0 then n else n.onZone (addCause z .phone)
  match n.phone p with
  | none => n
  | some r =>
    if n.ring.attach = .orphan then
      (n.onPhone p fun r => { r with timer := none }).post .callStranded (.voicePort p) []
    else (n.offerRequest p r).startRepeat p

/-- R52: a record enters IDLE, and goes on into REQUESTING when its handset is off the hook. -/
def Node.enterIdle (n : Node) (p : Nat) : Node :=
  let n := n.movePhone p .idle fun r => { r with call := none, slot := none, timer := none, labelRun := 0 }
  match n.phone p with
  | none => n
  | some r => if r.heldOff || r.offHook then n.enterRequesting p else n

/-- R52: a record enters CLEARING. -/
def Node.enterClearing (n : Node) (p : Nat) : Node :=
  match n.phone p with
  | none => n
  | some r =>
    let n := n.offerCall (n.toHead (.callClear p r.call))
    (n.movePhone p .clearing fun r => { r with count := 0, slot := none }).startRepeat p

/-- R52, R55: offer CALL-ANSWERED and enter CONNECTED with this call and slot. -/
def Node.answerRing (n : Node) (p call slot : Nat) : Node :=
  (n.offerCall (n.toHead (.callAnswered p call))).movePhone p .connected fun r =>
    { r with call := some call, slot := some slot, timer := none }

/-- R52: a debounced off-hook. -/
def Node.lifted (n : Node) (p : Nat) (r : Phone) : Node :=
  match r.state with
  | .idle => n.enterRequesting p
  | .ringing =>
    match r.call, r.slot with
    | some c, some k => n.answerRing p c k
    | _, _ => n
  | .clearing => n.onPhone p fun r => { r with heldOff := true }
  | _ => n

/-- R52: a debounced on-hook. -/
def Node.hungUp (n : Node) (p : Nat) (r : Phone) : Node :=
  match r.state with
  | .requesting => (n.offerCall (n.toHead (.callClear p none))).enterIdle p
  | .queued => n.enterClearing p
  | .alerting => n.enterClearing p
  | .connected => n.enterClearing p
  | .clearing => n.onPhone p fun r => { r with heldOff := false }
  | .hung => n.enterIdle p
  | .idle => n
  | .ringing => n

/-- R51: the contact's level against the debounced state: timing starts, goes on or stops. -/
def Node.timeHook (n : Node) (p : Nat) (level : Bool) : Node :=
  n.onPhone p fun r =>
    if level = r.offHook then { r with timing := none }
    else if r.timing.isSome then r
    else { r with timing := some (n.svc.now + ms n.set.hookDebounce) }

/-- R51, R52: the debounce time has passed. -/
def Node.hookSettled (n : Node) (p : Nat) : Node :=
  match n.phone p with
  | none => n
  | some r =>
    if due n.svc.now r.timing then
      let n := n.onPhone p fun r => { r with offHook := !r.offHook, timing := none }
      if r.offHook then n.hungUp p r else n.lifted p r
    else n

/-- R59: the record's previous CALL-REQUEST. R59 names one; where several of the port wait with no slot placed, each is
withdrawn, which is the model's choice (log entry 70). -/
def isRequestOf (p : Nat) (m : Message) : Bool :=
  match m.payload with
  | .callRequest q _ => q = p
  | _ => false

/-- R59: the record's previous CALL-CLEAR; of several, as for CALL-REQUEST (log entry 70). -/
def isClearOf (p : Nat) (call : Option Nat) (m : Message) : Bool :=
  match m.payload with
  | .callClear q c => q = p && c = call
  | _ => false

/-- R59: withdraw a repeat's predecessor from the held list and from the emergency queue. -/
def Node.withdrawCall (n : Node) (is : Message → Bool) : Node :=
  (n.onCall fun c => { c with held := c.held.filter fun m => !is m }).onSvc fun s => s.withdrawEmergency is

/-- R54, R59: the repeat timer of a record expires. That a repeat is offered before the freeing of its withdrawn predecessor
is told to anyone, so that it may take that place before an older held message, is the model's choice (log entry 116). -/
def Node.repeatExpires (n : Node) (p : Nat) : Node :=
  match n.phone p with
  | none => n
  | some r =>
    if due n.svc.now r.timer then
      match r.state with
      | .requesting => ((n.withdrawCall (isRequestOf p)).offerRequest p r).startRepeat p
      | .queued => ((n.withdrawCall (isRequestOf p)).offerRequest p r).startRepeat p
      | .clearing =>
        if r.count < 3 then
          let n := n.onPhone p fun r => { r with count := r.count + 1 }
          let n := n.withdrawCall (isClearOf p r.call)
          (n.offerCall (n.toHead (.callClear p r.call))).startRepeat p
        else n.enterIdle p
      | _ => n
    else n

/-- R55: a stray that carries a call number is answered with CALL-CLEAR. -/
def Node.stray (n : Node) (p call : Nat) : Node := n.offerCall (n.toHead (.callClear p (some call)))

/-- R55: its call is ignored, any other is a stray. -/
def Node.ignoreOwn (n : Node) (p call : Nat) (r : Phone) : Node :=
  if r.call = some call then n else n.stray p call

/-- R55: CALL-QUEUED. -/
def Node.takeQueued (n : Node) (p call : Nat) : Node :=
  match n.phone p with
  | none => n
  | some r =>
    match r.state with
    | .requesting => n.movePhone p .queued fun r => { r with call := some call }
    | .queued => n.onPhone p fun r => { r with call := some call }
    | .idle => n.stray p call
    | .hung => n.stray p call
    | _ => n.ignoreOwn p call r

/-- R55: CALL-ASSIGN. -/
def Node.takeAssign (n : Node) (p call slot : Nat) : Node :=
  match n.phone p with
  | none => n
  | some r =>
    let adopt (n : Node) : Node :=
      n.movePhone p .alerting fun r => { r with call := some call, slot := some slot, timer := none }
    match r.state with
    | .requesting => adopt n
    | .queued => adopt n
    | .idle => n.stray p call
    | .hung => n.stray p call
    | _ => n.ignoreOwn p call r

/-- R55: CALL-RING. -/
def Node.takeRing (n : Node) (p call slot : Nat) : Node :=
  match n.phone p with
  | none => n
  | some r =>
    match r.state with
    | .requesting => n.answerRing p call slot
    | .queued => n.stray p call
    | .idle => n.movePhone p .ringing fun r => { r with call := some call, slot := some slot }
    | .hung => n.stray p call
    | _ => n.ignoreOwn p call r

/-- R55: CALL-ANSWERED at a wayside. -/
def Node.takeAnswered (n : Node) (p call : Nat) : Node :=
  match n.phone p with
  | none => n
  | some r =>
    match r.state with
    | .alerting =>
      if r.call = some call then n.movePhone p .connected fun r => { r with timer := none } else n.stray p call
    | .connected => n.ignoreOwn p call r
    | .ringing => n.ignoreOwn p call r
    | .clearing => n.ignoreOwn p call r
    | _ => n.stray p call

/-- R58: offer CALL-CLEARED. -/
def Node.offerCleared (n : Node) (p call : Nat) : Node := n.offerCall (n.toHead (.callCleared p call))

/-- R58: CALL-CLEAR at a wayside. -/
def Node.takeClear (n : Node) (p call : Nat) : Node :=
  match n.phone p with
  | none => n
  | some r =>
    let n := n.offerCleared p call
    if r.state = .requesting then n.movePhone p .hung fun r => { r with timer := none }
    else if r.call = some call then
      match r.state with
      | .ringing => n.enterIdle p
      | .clearing => n.enterIdle p
      | .idle => n
      | .hung => n
      | _ =>
        if r.offHook && r.timing.isSome then n.enterIdle p
        else n.movePhone p .hung fun r => { r with timer := none }
    else n

/-- R58: CALL-CLEARED at a wayside. -/
def Node.takeCleared (n : Node) (p call : Nat) : Node :=
  match n.phone p with
  | none => n
  | some r => if r.state = .clearing ∧ r.call = some call then n.enterIdle p else n

/-- R56: whether a state reads its slot's label. -/
def PhoneState.readsLabel : PhoneState → Bool
  | .alerting => true
  | .connected => true
  | .ringing => true
  | _ => false

/-- R56: a label run of 8. -/
def Node.labelLimit (n : Node) (p : Nat) : Node :=
  match n.phone p with
  | none => n
  | some r =>
    match r.call with
    | none => n
    | some c =>
      if r.labelRun = Config.alignRun ∧ PhoneState.readsLabel r.state = true then
        (n.takeClear p c).post .callLost (.voicePort p) [.nat c]
      else n

/-- R50, R56: one record at the first passage of a full outer-schedule cycle; the voice slots as they go on. A slot above
the cycle's cap carries nothing, and the handset is silent (log entry 57). -/
def Node.labelCheck (cap : Nat) (x : Node × List VoiceSlot) (p : Nat) : Node × List VoiceSlot :=
  match x.1.phone p with
  | none => x
  | some r =>
    match PhoneState.readsLabel r.state, r.slot with
    | true, some k =>
      if r.labelRun = Config.alignRun then x
      else match (if k ≤ cap then nth x.2 k else none) with
        | none => (x.1.onPhone p fun r => { r with labelRun := r.labelRun + 1, hears := .silence }, x.2)
        | some v =>
          let agrees := decide (r.call = some v.label)
          let n := x.1.onPhone p fun r =>
            { r with labelRun := if agrees then 0 else r.labelRun + 1,
                     hears := if PhoneState.talks r.state then v.down else r.hears }
          let n := if agrees && v.connected && decide (r.state = .alerting) then
              n.movePhone p .connected fun r => { r with timer := none }
            else n
          let writes := PhoneState.talks r.state && decide ((if agrees then 0 else r.labelRun + 1) < Config.alignRun)
          (n, if writes then put x.2 k { v with up := .phone n.me p } else x.2)
    | _, _ => x

/-- R50, R56: CALL's part in the first passage of a full outer-schedule cycle. R56 gives the records no order; that they
check their labels, and so post PHONE-STATE, from P1 to P8 is the model's choice (log entry 97). -/
def Node.voicePassage (n : Node) (cap : Nat) (v : List VoiceSlot) : Node × List VoiceSlot :=
  (places 8).foldl (Node.labelCheck cap) (n, v)

/-- Whether a record waits for an answer of the head-end. -/
def PhoneState.waits : PhoneState → Bool
  | .requesting => true
  | .queued => true
  | _ => false

/-- R60: the wayside has become ORPHAN. R60 gives the records no order; that they post CALL-STRANDED from P1 to P8 is the
model's choice (log entry 97). -/
def Node.callOrphan (n : Node) : Node :=
  (places 8).foldl (fun n p =>
    match n.phone p with
    | some r =>
      if PhoneState.waits r.state then
        (n.onPhone p fun r => { r with timer := none }).post .callStranded (.voicePort p) []
      else n
    | none => n) n

/-- R60: the wayside rejoins the call service. R60 gives the records no order; that they offer CALL-REQUEST from P1 to P8
is the model's choice (log entry 97). -/
def Node.callRejoin (n : Node) : Node :=
  (places 8).foldl (fun n p =>
    match n.phone p with
    | some r => if PhoneState.waits r.state then (n.offerRequest p r).startRepeat p else n
    | none => n) n

/-- R61: PHONE-STATUS. -/
def Node.phoneStatus (n : Node) : Value :=
  .list
    [.list ((numbered 1 n.call.phones).map fun x =>
        .list [.phone x.2.state, Value.opt .nat x.2.call, Value.opt .nat x.2.slot,
          if n.portZone x.1 = 0 then .absent else .nat (n.portZone x.1), Value.opt .time x.2.requested,
          .flag x.2.offHook, .nat x.2.count, timeLeft n.svc.now x.2.timer]),
     .nat n.call.held.length, .nat n.call.dropped]

/-! ## The head-end (3.3) -/

/-- A one-slot message of the head-end to a wayside. -/
def Node.toWayside (n : Node) (station : Nat) (p : Payload) : Message :=
  { source := n.me, dest := station, length := 1, payload := p }

/-- The call table entry with this number. -/
def Call.entry (c : Call) (k : Nat) : Option CallEntry := c.table.find? (·.number = k)

/-- The call table entry of a (station, port) pair. -/
def Call.pair (c : Call) (station port : Nat) : Option CallEntry :=
  c.table.find? fun e => e.station = station && e.port = port

/-- Change the call table entry with this number. -/
def Call.changeEntry (c : Call) (k : Nat) (f : CallEntry → CallEntry) : Call :=
  { c with table := c.table.map fun e => if e.number = k then f e else e }

/-- R62: the entry that holds a slot, HELD or DRAINING. -/
def Call.holder (c : Call) (slot : Nat) : Option CallEntry := c.table.find? fun e => e.slot = some slot

/-- R62: the lowest FREE slot within the cap. -/
def Call.freeSlot (c : Call) (cap : Nat) : Option Nat := (places cap).find? fun k => (c.holder k).isNone

/-- R62: the call of a console, if it is ENGAGED. -/
def Call.consoleCall (c : Call) (p : Nat) : Option CallEntry := c.table.find? fun e => e.console = some p

/-- R64: the queue-full mark is cleared when the wait queue holds fewer than 16. -/
def Call.clearFull (c : Call) : Call :=
  { c with full := c.full && decide (Config.waitPlaces ≤ c.waiting.length) }

/-- R62: the next call number. -/
def Call.nextCall (c : Call) : Nat := nextNumber 255 (c.table.map (·.number)) 40 c.last

/-- R62: a new entry. -/
def newCall (number station port : Nat) (state : CallState) (slot console : Option Nat) (arrival : NodeTime)
    (ring : Option Nat) : CallEntry :=
  { number := number, station := station, port := port, state := state, slot := slot, console := console,
    arrival := arrival, ring := ring, drain := none, cause := none }

/-- R62: append an entry to the call table. -/
def Call.add (c : Call) (e : CallEntry) : Call := { c with table := c.table ++ [e], last := e.number }

/-- R63: FREE slots within the cap are given, lowest first, to successive heads of the wait queue. -/
def Node.promote : (fuel : Nat) → Node → Node
  | 0, n => n
  | fuel + 1, n =>
    match n.call.freeSlot n.set.voiceCap, n.call.waiting with
    | some k, w :: rest =>
      match n.call.entry w with
      | none => n
      | some e =>
        let n := n.onCall fun c =>
          { (c.changeEntry w fun e => { e with state := .alerting, slot := some k }) with
            waiting := rest }.clearFull
        let n := n.offerCall (n.toWayside e.station (.callAssign e.port w k))
        Node.promote fuel (n.post .callArrived (.voicePort e.port) [.nat w, .nat e.station, .nat k])
    | _, _ => n

/-- R64: an answer to a request of a pair that has an entry. -/
def Node.answerRequest (n : Node) (e : CallEntry) : Node :=
  match e.state with
  | .queued =>
    n.offerCall (n.toWayside e.station
      (.callQueued e.port e.number (n.call.waiting.idxOf e.number + 1)))
  | .alerting => n.offerCall (n.toWayside e.station (.callAssign e.port e.number (e.slot.getD 0)))
  | .connected => n.offerCall (n.toWayside e.station (.callAssign e.port e.number (e.slot.getD 0)))
  | .ringing => n.offerCall (n.toWayside e.station (.callRing e.port e.number (e.slot.getD 0)))
  | .clearing => n

/-- R64: a CALL-REQUEST at the head-end. -/
def Node.takeRequest (n : Node) (station port : Nat) : Node :=
  match n.call.pair station port with
  | some e => n.answerRequest e
  | none =>
    let c := n.call.nextCall
    match n.call.freeSlot n.set.voiceCap with
    | some k =>
      let n := n.onCall fun t => t.add (newCall c station port .alerting (some k) none n.svc.time none)
      (n.offerCall (n.toWayside station (.callAssign port c k))).post .callArrived (.voicePort port)
        [.nat c, .nat station, .nat k]
    | none =>
      if n.call.waiting.length < Config.waitPlaces then
        let n := n.onCall fun t =>
          let t := t.add (newCall c station port .queued none none n.svc.time none)
          { t with waiting := t.waiting ++ [c] }
        let place := n.call.waiting.length
        (n.offerCall (n.toWayside station (.callQueued port c place))).post .callWaiting (.voicePort port)
          [.nat c, .nat station, .nat place]
      else
        let n' := n.offerCall (n.toWayside station (.callBusy port))
        if n.call.full then n'
        else (n'.post .queueFull (.voicePort port) [.nat station]).onCall fun t => { t with full := true }

/-- R69, R70: remove an entry; its console becomes IDLE. -/
def Node.removeCall (n : Node) (e : CallEntry) : Node :=
  n.onCall fun c =>
    { c with table := c.table.filter fun x => x.number ≠ e.number,
             waiting := c.waiting.filter (· ≠ e.number),
             consoles := match e.console with
               | some p => put c.consoles p .silence
               | none => c.consoles }.clearFull

/-- R69, R70: post CALL-ENDED. -/
def Node.postEnded (n : Node) (e : CallEntry) (cause : EndCause) (confirmed : Bool) : Node :=
  n.post .callEnded (.voicePort e.port) [.nat e.number, .nat e.station, .endCause cause, .flag confirmed]

/-- R65: CALL-ANSWER. CALL-CONNECTED tells the call number and the console as details and has no subject: the table of R73
does not say which of the two is which, and this is the model's choice (log entry 8). -/
def Node.callAnswer (n : Node) (call console : Nat) : Node × Status × Value :=
  if call < 1 ∨ 255 < call ∨ console < 1 ∨ 8 < console then (n, .badArgument, .nil)
  else match n.call.entry call with
    | none => (n, .notFound, .nil)
    | some e =>
      if e.state ≠ .alerting ∨ (n.call.consoleCall console).isSome then (n, .wrongState, .nil)
      else
        let n := n.onCall fun c =>
          c.changeEntry call fun e => { e with state := .connected, console := some console }
        let n := n.offerCall (n.toWayside e.station (.callAnswered e.port call))
        (n.post .callConnected .none [.nat call, .nat console], .done, .nil)

/-- R66: an ALERTING, CONNECTED or RINGING entry is ended. -/
def Node.startDrain (n : Node) (e : CallEntry) (cause : EndCause) : Node :=
  let n := n.offerCall (n.toWayside e.station (.callClear e.port (some e.number)))
  n.onCall fun c =>
    { (c.changeEntry e.number fun e =>
        { e with state := .clearing, ring := none, drain := some (n.svc.now + Config.drainTime),
                 console := none, cause := some cause }) with
      consoles := match e.console with
        | some p => put c.consoles p .silence
        | none => c.consoles }

/-- R66: CALL-END. -/
def Node.callEnd (n : Node) (call : Nat) : Node × Status × Value :=
  if call < 1 ∨ 255 < call then (n, .badArgument, .nil)
  else match n.call.entry call with
    | none => (n, .notFound, .nil)
    | some e =>
      match e.state with
      | .clearing => (n, .wrongState, .nil)
      | .queued =>
        let n := n.offerCall (n.toWayside e.station (.callClear e.port (some call)))
        ((n.removeCall e).postEnded e .console Config.queuedEndConfirmed, .done, .nil)
      | _ => (n.startDrain e .console, .done, .nil)

/-- R67: CALL-RING. -/
def Node.callRing (n : Node) (station port console : Nat) : Node × Status × Value :=
  if station < 1 ∨ 999 < station ∨ port < 1 ∨ 8 < port ∨ console < 1 ∨ 8 < console then
    (n, .badArgument, .nil)
  else match (n.head.entry station).map MapEntry.presence with
    | none => (n, .notFound, .nil)
    | some .unreachable => (n, .notFound, .nil)
    | some .duplicate => (n, .duplicate, .nil)
    | some .present =>
      if (n.call.pair station port).isSome ∨ (n.call.consoleCall console).isSome then (n, .wrongState, .nil)
      else match n.call.freeSlot n.set.voiceCap with
        | none => (n, .noRoom, .nil)
        | some k =>
          let c := n.call.nextCall
          let n := n.onCall fun t =>
            t.add (newCall c station port .ringing (some k) (some console) n.svc.time
              (some (n.svc.now + Config.ringTime)))
          (n.offerCall (n.toWayside station (.callRing port c k)), .done, .nat c)

/-- R67: the ring timer of an entry expires. -/
def Node.ringExpires (n : Node) (call : Nat) : Node :=
  match n.call.entry call with
  | none => n
  | some e => if e.state = .ringing ∧ due n.svc.now e.ring = true then n.startDrain e .ringTimeout else n

/-- R68: CALL-ANSWERED at the head-end. -/
def Node.takeAnsweredHead (n : Node) (station port call : Nat) : Node :=
  match n.call.pair station port with
  | none => n
  | some e =>
    if e.state = .ringing ∧ e.number = call then
      (n.onCall fun c => c.changeEntry call fun e => { e with state := .connected, ring := none }).post
        .callConnected .none [.nat call, Value.opt .nat e.console]
    else n

/-- R69: CALL-CLEAR at the head-end. -/
def Node.takeClearHead (n : Node) (station port : Nat) (call : Option Nat) : Node :=
  let found := (n.call.pair station port).filter fun e => call.isNone || call = some e.number
  let n := match found with
    | none => n
    | some e => ((n.removeCall e).postEnded e (e.cause.getD .phone) true).promote 24
  match call with
  | none => n
  | some c => n.offerCall (n.toWayside station (.callCleared port c))

/-- R70: CALL-CLEARED at the head-end. -/
def Node.takeClearedHead (n : Node) (station port call : Nat) : Node :=
  match n.call.pair station port with
  | none => n
  | some e =>
    if e.state = .clearing ∧ e.number = call then
      ((n.removeCall e).postEnded e (e.cause.getD .console) true).promote 24
    else n

/-- R70: the drain timer of an entry expires. -/
def Node.drainExpires (n : Node) (call : Nat) : Node :=
  match n.call.entry call with
  | none => n
  | some e =>
    if e.state = .clearing ∧ due n.svc.now e.drain = true then
      ((n.removeCall e).postEnded e (e.cause.getD .console) false).promote 24
    else n

/-- R71: VOICE-CAP-SET, and a SETTING-WRITE of the voice cap. -/
def Node.voiceCapSet (n : Node) (cap : Nat) : Node × Status × Value :=
  if cap < 4 ∨ 24 < cap then (n, .badArgument, .nil)
  else if (places 24).any (fun k => decide (cap < k) && (n.call.holder k).isSome) then (n, .wrongState, .nil)
  else ((n.onSettings fun s => { s with voiceCap := cap }).promote 24, .done, .nil)

/-- R62: what the head-end writes into a slot within the cap. R62 gives a FREE or DRAINING slot label 0 and no connected
mark; that the mark is written clear is the model's choice (log entry 98). -/
def Call.writeSlot (c : Call) (k : Nat) : VoiceSlot :=
  match c.holder k with
  | none => { label := 0, connected := false, down := .silence, up := .filler }
  | some e =>
    match e.state with
    | .alerting => { label := e.number, connected := false, down := .reassurance, up := .filler }
    | .ringing => { label := e.number, connected := false, down := .silence, up := .filler }
    | .connected =>
      { label := e.number, connected := true, down := .console (e.console.getD 0), up := .filler }
    | .queued => { label := 0, connected := false, down := .silence, up := .filler }
    | .clearing => { label := 0, connected := false, down := .silence, up := .filler }

/-- R50, R62: the voice slots of an originated cycle. -/
def Call.writeSlots (c : Call) (cap : Nat) : List VoiceSlot := (places cap).map c.writeSlot

/-- R50: the upstream audio of a CONNECTED call's slot is played to its console when the cycle is stripped. -/
def Call.readSlots (c : Call) (now : Nat) (v : List VoiceSlot) : Call :=
  c.table.foldl (fun c e =>
    match e.state, e.console, e.slot with
    | .connected, some p, some k =>
      match nth v k with
      | some s => { c with consoles := put c.consoles p s.up }
      | none => c
    | _, _, _ => c) { c with lastRead := now }

/-- R73: one entry of the call table. That its timers are told as the time left in cycle periods, absent when stopped, is the
model's choice (log entry 113). -/
def CallEntry.report (now : Nat) (e : CallEntry) : Value :=
  .list [.nat e.number, .nat e.station, .nat e.port, .call e.state, Value.opt .nat e.slot,
    Value.opt .nat e.console, .time e.arrival, timeLeft now e.ring, timeLeft now e.drain]

/-- R73: the entries in order of call number from `first` on. -/
def Call.sorted (c : Call) (first : Nat) : List CallEntry :=
  (places 255).filterMap fun k => if first ≤ k then c.entry k else none

/-- R73: a slot of the plan: FREE 0, HELD 1 with its call number, DRAINING 2 (log entry 8). -/
def Call.slotReport (c : Call) (k : Nat) : Value :=
  match c.holder k with
  | none => .list [.nat 0]
  | some e => if e.state = .clearing then .list [.nat 2] else .list [.nat 1, .nat e.number]

/-- R73: CALL-LIST. Each console is told by the number of its call, absent where it is IDLE (log entry 8). -/
def Node.callList (n : Node) (first : Nat) : Node × Status × Value :=
  if first < 1 ∨ 255 < first then (n, .badArgument, .nil)
  else
    let c := n.call
    (n, .done, .list
      [.nat n.set.voiceCap, .list ((places 24).map c.slotReport), .list (c.waiting.map .nat),
       .list ((places 8).map fun p => Value.opt (fun e : CallEntry => .nat e.number) (c.consoleCall p)),
       .nat c.table.length, .list (((c.sorted first).take 12).map (CallEntry.report n.svc.now)),
       .nat c.held.length, .nat c.dropped, .flag c.full])

end Sys2Proof.Machine
end

