-- ==== Sys2Proof/Machine/Reply.lean ====
section
/-! DEFINITION. How a command ends (R48, R186): its channel becomes free and its reply goes to the host link or into a REPLY-FWD. -/

namespace Sys2Proof.Machine

/-- Act on CMD. -/
def Node.onCmd (n : Node) (f : Cmd → Cmd) : Node := { n with cmd := f n.cmd }

/-- Act on the host link. -/
def Node.onLink (n : Node) (f : Link → Link) : Node := { n with link := f n.link }

/-- R47, R48: CMD offers a message to the normal queue and keeps it while it is refused; a new message is offered whether
or not others are kept (log entry 60). -/
def Node.offerCmd (n : Node) (m : Message) : Node :=
  let r := n.svc.offerNormal m
  let n := { n with svc := r.1 }
  if r.2 then n else n.onCmd fun c => { c with refused := c.refused ++ [m] }

/-- R31: CMD offers its refused messages again, oldest first, up to the first refusal (log entry 60). -/
def Node.retryCmd : List Message → Node → Node
  | [], n => n
  | m :: l, n =>
    let r := n.svc.offerNormal m
    let n := { n with svc := r.1 }
    if r.2 then Node.retryCmd l (n.onCmd fun c => { c with refused := c.refused.drop 1 }) else n

/-- A REPLY frame joins those that wait (R185). -/
def Node.pushReply (n : Node) (r : Reply) : Node := n.onLink fun k => { k with replies := k.replies ++ [r] }

/-- Whether a command is RESTART (R195). -/
def isRestart : Parsed → Bool
  | .command .restart => true
  | _ => false

/-- R48, R186: the reply to a command, by the way it came. -/
def Node.replyTo (n : Node) (o : Origin) (cmd : Parsed) (st : Status) (v : Value) : Node :=
  match o with
  | .link tag =>
    n.pushReply { tag := tag, station := 0, cmd := cmd, status := st, result := v,
                  restart := isRestart cmd && decide (st = .done) }
  | .centre fwd =>
    n.offerCmd { source := n.me, dest := Config.headEndNumber,
                 length := messageSlots (.replyFwd fwd st v), payload := .replyFwd fwd st v }

/-- R186: the command in progress on the channel that an origin names. -/
def Cmd.channel (c : Cmd) : Origin → Option InProgress
  | .link _ => c.chanL
  | .centre _ => c.chanC

/-- R186: set the command in progress on a channel. -/
def Cmd.setChannel (c : Cmd) (o : Origin) (p : Option InProgress) : Cmd :=
  match o with
  | .link _ => { c with chanL := p }
  | .centre _ => { c with chanC := p }

/-- R186: the command in progress that came from `o` ends, its channel is free, and it is replied to. -/
def Node.endCommand (n : Node) (o : Origin) (st : Status) (v : Value) : Node :=
  match n.cmd.channel o with
  | none => n
  | some p => (n.onCmd fun c => c.setChannel o none).replyTo o (.command p.cmd) st v

end Sys2Proof.Machine
end

