-- ==== Sys2Proof/Machine/Trib.lean ====
section
/-! DEFINITION. TRIB (05): devices, exchanges and their outcomes, joining, misses, the roster, detaching, restart outputs and cabinet inputs; what a device's comings and goings do at ZONE, WX and TOLL. -/

namespace Sys2Proof.Machine

/-- Act on TRIB. -/
def Node.onTrib (n : Node) (f : Trib → Trib) : Node := { n with trib := f n.trib }

/-- The entry of a device. -/
def Node.device (n : Node) (d : Nat) : Option Device := nth n.trib.devices d

/-- Change the entry of a device. -/
def Node.onDevice (n : Node) (d : Nat) (f : Device → Device) : Node :=
  n.onTrib fun t => { t with devices := change f t.devices d }

/-- Change what a line keeps. -/
def Node.onLine (n : Node) (l : Nat) (f : Line → Line) : Node :=
  n.onTrib fun t => { t with lines := change f t.lines l }

/-- 05 section 5.2: the kind of a device, the working DEVICE-KIND. -/
def Settings.kindOf (s : Settings) (d : Nat) : DeviceKind := (nth s.kinds d).getD .unused

/-- 05 section 5.2: the line of a device, the working REMAP. -/
def Settings.lineOf (s : Settings) (d : Nat) : Option Nat := (nth s.remap d).getD none

/-- The device on a line, if its kind is not UNUSED (R99). -/
def Settings.deviceOn (s : Settings) (l : Nat) : Option Nat :=
  (places 8).find? fun d => s.lineOf d = some l && s.kindOf d ≠ .unused

/-- The setting of a roster entry. -/
def Settings.rosterEntry (s : Settings) (e : Nat) : Option RosterSpec := (nth s.roster e).getD none

/-- R107: states in which polls are begun. -/
def DevState.polled : DevState → Bool
  | .present => true
  | .silent => true
  | _ => false

/-- R153: states whose entry closes a weather station's OPEN segment. -/
def DevState.closesSegment : DevState → Bool
  | .failed => true
  | .absent => true
  | .unused => true
  | .wrongKind => true
  | _ => false

/-- R104: the command list of a device is emptied, each command answered WRONG-STATE. -/
def Node.emptyCommands (n : Node) (d : Nat) : Node :=
  match n.device d with
  | none => n
  | some v =>
    v.commands.foldl (fun n w => n.endCommand w.origin .wrongState .nil)
      (n.onDevice d fun v => { v with commands := [] })

/-- R100: a change of state, told as a change from `old`. -/
def Node.moveDevice (n : Node) (d : Nat) (old new : DevState) (cause : DevCause) (f : Device → Device) : Node :=
  let n := n.onDevice d fun v =>
    let v := f v
    { v with state := new, attachWaiting := v.attachWaiting && DevState.polled new }
  let n := n.post .deviceState (.device d) [.dev old, .dev new, .devCause cause]
  let n := if DevState.closesSegment new then n.onSvc fun s => s.closeOpen d .device else n
  if DevState.polled new then n else n.emptyCommands d

/-- R105: the join due of a device that enters ABSENT; only a device with a line has one. -/
def Node.dueNow (n : Node) (d : Nat) : Option Nat := (n.set.lineOf d).map fun _ => n.svc.now

/-- R105: the join due one join interval on. -/
def Node.dueLater (n : Node) (d : Nat) : Option Nat :=
  (n.set.lineOf d).map fun _ => n.svc.now + Config.joinInterval

/-! ## Reports (R111, R120, R121) -/

/-- 05 section 5.2: an identity record as it is told. A gantry alone has a gantry number and an oldest unconfirmed sequence:
that the two are told as absent for equipment of another kind is the model's choice (log entry 110). -/
def Identity.report (i : Identity) : Value :=
  let gantry (x : Nat) : Value := if i.kind = .toll then .nat x else .absent
  .list [.devKind i.kind, .nat i.maker, .nat i.serial, .nat i.level, gantry i.gantry, gantry i.oldest]

/-- A status record as it is told. -/
def statusReport (x : DeviceStatus × NodeTime) : Value :=
  match x.1 with
  | .sign page failed door => .list [.time x.2, Value.opt .nat page, .nat failed, .flag door]
  | .weather faults heater door => .list [.time x.2, .list (faults.map .nat), .flag heater, .flag door]
  | .toll lanes offset unconfirmed door =>
    .list [.time x.2, .list (lanes.map .nat), .num offset, .nat unconfirmed, .flag door]

/-- R121: the party that asked for an exchange as it is told: a number for its sort, and its own number (log entry 8). -/
def askerReport : Asker → Value
  | .zone => .list [.nat 0]
  | .command (.link t) => .list [.nat 1, .nat t]
  | .command (.centre f) => .list [.nat 2, .nat f]
  | .roster e => .list [.nat 3, .nat e]
  | .join => .list [.nat 4]
  | .attach => .list [.nat 5]

/-- The exchange in flight as it is told. -/
def Exchange.report (e : Exchange) : Value :=
  .list [.exch e.kind, .nat e.number, .nat e.attempt, askerReport e.asker]

/-- R121: the roster entries that name a device: number, request kind and period, and the due state: the time left
until the next due, whether it is due, and due since, a moment told as the count of cycle periods since the last full reset,
which is the model's choice (log entry 91). -/
def Node.rosterOf (n : Node) (d : Nat) : Value :=
  .list ((places 16).filterMap fun e =>
    match n.set.rosterEntry e, nth n.trib.roster e with
    | some s, some r =>
      if s.device = d then
        some (.list [.nat e, .poll s.kind, .nat s.period, timeLeft n.svc.now r.nextDue, .flag r.since.isSome,
          Value.opt .nat r.since])
      else none
    | _, _ => none)

/-- R121: a device's entry whole. That join due and restart end are told as counts of cycle periods since the last full
reset, not as the time left, is the model's choice (log entry 91). -/
def Node.deviceReport (n : Node) (d : Nat) : Value :=
  match n.device d with
  | none => .absent
  | some v =>
    let line := match n.set.lineOf d with
      | none => Value.absent
      | some l =>
        match nth n.trib.lines l with
        | none => .absent
        | some k => .list [.nat k.number, .nat k.corrupt, .nat k.stray, .nat k.repeats, .nat k.unanswered]
    .list
      [Value.opt .nat (n.set.lineOf d), .devKind (n.set.kindOf d), .dev v.state, Value.opt .dev v.joinOrigin,
       Value.opt Identity.report v.identity, .nat v.miss, Value.opt statusReport v.status,
       Value.opt .nat v.joinDue, Value.opt .nat v.restartEnd, Value.opt .dev v.restartOrigin,
       Value.opt Exchange.report v.exchange, line, n.rosterOf d]

/-! ## Threshold rules and zones at the node (R158) -/

/-- Act on the threshold rules, and hand ZONE what changed. -/
def Node.onRules (n : Node) (f : RuleSt → RuleSt) : Node :=
  let x := f (n.svc, n.rules)
  { n with svc := x.1, rules := x.2 }.onZone
    (handWeather n.set.rules n.rules x.1.settings.rules x.2)

/-- R147: a sample reaches WX. -/
def Node.takeSample (n : Node) (d : Nat) (l : List Quantity) : Node :=
  if sampleOk l then
    let r : Sample := { device := d, time := n.svc.time, quantities := l }
    (n.onSvc fun s => s.storeSample r).onRules (evaluateRules r)
  else
    n.onSvc fun s =>
      (s.countWx fun k => { k with malformed := bump Config.longMax k.malformed }).loseSample d .malformed

/-! ## Outcomes of exchanges (R102, R105–R107) -/

/-- R106: an identity reply taken for a device. R135 does not name WRONG-KIND: that a gantry's device which enters it keeps
its toll attachment and its binding is the model's choice (log entry 114). -/
def Node.takeIdentity (n : Node) (d : Nat) (v : Device) (i : Identity) : Node :=
  let old := v.joinOrigin.getD v.state
  let kind := n.set.kindOf d
  if i.kind ≠ kind then
    n.moveDevice d old .wrongKind .wrongKind fun v =>
      { v with identity := some i, joinOrigin := none, joinDue := none }
  else
    let isNew := match v.identity with
      | none => true
      | some j => decide (j.serial ≠ i.serial)
    let n := n.moveDevice d old .present .joined fun v =>
      { v with identity := some i, joinOrigin := none, joinDue := none, miss := 0,
               status := if isNew then none else v.status }
    let n := if isNew then
        n.post .deviceNew (.device d) [.nat i.maker, .nat i.serial, .nat i.level] else n
    match kind with
    | .sign => (n.onZone (signRejoins d)).onDevice d fun v => { v with attachWaiting := true }
    | .toll => n.onToll (joinGantry n.trib.devices d i (v.identity.any fun j => j.serial ≠ i.serial))
    | .weather => n
    | .unused => n

/-- R107: states in which an outcome leaves the miss count and state alone. -/
def DevState.missExempt : DevState → Bool
  | .restarting => true
  | .joining => true
  | .absent => true
  | _ => false

/-- R107: an ANSWERED exchange other than IDENTIFY. -/
def Node.missAnswered (n : Node) (d : Nat) : Node :=
  match n.device d with
  | none => n
  | some v =>
    if DevState.missExempt v.state then n
    else
      let n := n.onDevice d fun v => { v with miss := 0 }
      if v.state = .silent then n.moveDevice d .silent .present .answered id else n

/-- R107: an UNANSWERED exchange other than IDENTIFY. -/
def Node.missUnanswered (n : Node) (d : Nat) : Node :=
  match n.device d with
  | none => n
  | some v =>
    if DevState.missExempt v.state then n
    else
      let m := min Config.failedLimit (v.miss + 1)
      let n := n.onDevice d fun v => { v with miss := m }
      if m = Config.failedLimit then
        n.moveDevice d v.state .failed .misses fun v => { v with joinDue := n.dueLater d }
      else if v.state = .present ∧ Config.silentLimit ≤ m then n.moveDevice d .present .silent .misses id
      else n

/-- The exchange in flight becomes absent and the line is free (R101). -/
def Node.freeLine (n : Node) (d : Nat) : Node := n.onDevice d fun v => { v with exchange := none }

/-- R102: what a reply brings to its taker; `e` is the exchange it answers. A status record of another kind than the
device's is taken and stored like any other (log entry 64). -/
def Node.handReply (n : Node) (d : Nat) (v : Device) (e : Exchange) : ReplyContent → Node
  | .identity i => if v.state = .restarting then n else n.takeIdentity d v i
  | .status s =>
    let n := n.onDevice d fun v => { v with status := some (s, n.svc.time) }
    if n.set.kindOf d = .sign then n.onZone (signStatusTaken d s) else n
  | .pageAccepted shown =>
    match e.request with
    | .page p => n.onZone (loadEnds d (if shown = p.id then .confirmed else .refused))
    | _ => n
  | .pageRefused => n.onZone (loadEnds d .refused)
  | .sample l => n.takeSample d l
  | .noSample => n
  | .records l =>
    match e.request with
    | .toll _ c => n.onToll (takeOffer d c l)
    | _ => n

/-- R104: the command that asked for an exchange ends. -/
def Node.endPoll (n : Node) (d : Nat) (e : Exchange) (st : Status) : Node :=
  match e.asker with
  | .command o => n.endCommand o st (if st = .wrongState then .nil else n.deviceReport d)
  | _ => n

/-- R101, R102: an exchange ends ANSWERED. -/
def Node.answered (n : Node) (d : Nat) (v : Device) (e : Exchange) (c : ReplyContent) : Node :=
  let n := (n.freeLine d).handReply d v e c
  let n := if e.kind = .identify then n else n.missAnswered d
  n.endPoll d e .done

/-- R105, R153: an IDENTIFY ends UNANSWERED; the device returns to its join origin, ABSENT or FAILED, whose entry closes
a weather station's OPEN segment. An IDENTIFY that outlasts a restart finds its device ABSENT and without a join origin: it
stays ABSENT, with its join due one interval on, which is the model's choice (log entry 71). -/
def Node.identifyUnanswered (n : Node) (d : Nat) : Node :=
  match n.device d with
  | none => n
  | some v =>
    if v.state = .restarting then n
    else
      let st := v.joinOrigin.getD v.state
      let m := n.onDevice d fun v => { v with state := st, joinOrigin := none, joinDue := n.dueLater d }
      if DevState.closesSegment st then m.onSvc fun s => s.closeOpen d .device else m

/-- R101, R102: an exchange ends UNANSWERED. -/
def Node.unanswered (n : Node) (d : Nat) (e : Exchange) : Node :=
  let n := n.freeLine d
  let n := match e.kind with
    | .identify => n.identifyUnanswered d
    | .pageLoad => (n.onZone (loadEnds d .unanswered)).missUnanswered d
    | _ => n.missUnanswered d
  n.endPoll d e .timeout

/-- R101, R102: an exchange ends ABANDONED. -/
def Node.abandon (n : Node) (d : Nat) (e : Exchange) : Node :=
  let n := n.freeLine d
  let n := if e.kind = .pageLoad then n.onZone (loadEnds d .abandoned) else n
  n.endPoll d e .wrongState

/-- R101: a TOLL-OFFER reply carries at most 4 records; one with more fails its check. -/
def ReplyContent.overlong : ReplyContent → Bool
  | .records l => decide (4 < l.length)
  | _ => false

/-- R101: a reply arrives on a line; one that answers no exchange in flight is a stray, whether or not a device in use
is on the line. -/
def Node.lineReply (n : Node) (l : Nat) (r : LineReply) : Node :=
  let corrupt := n.onLine l fun k => { k with corrupt := bump Config.wordMax k.corrupt }
  let stray := n.onLine l fun k => { k with stray := bump Config.wordMax k.stray }
  match r with
  | .corrupt => corrupt
  | .whole number c =>
    if ReplyContent.overlong c then corrupt
    else match (n.set.deviceOn l).bind fun d => (n.device d).map fun v => (d, v) with
      | none => stray
      | some (d, v) =>
        match v.exchange with
        | some e => if e.number = number ∧ e.kind = c.kind then n.answered d v e c else stray
        | none => stray

/-- R101: the reply timer of a line expires. -/
def Node.replyTimeout (n : Node) (l : Nat) : Node :=
  match n.set.deviceOn l with
  | none => n
  | some d =>
    match n.device d with
    | none => n
    | some v =>
      match v.exchange with
      | none => n
      | some e =>
        if n.svc.now < e.deadline then n
        else if e.attempt ≤ e.retries then
          let again := { e with attempt := e.attempt + 1, deadline := n.svc.now + ms e.timeout }
          (n.onDevice d fun v => { v with exchange := some again }).onLine l
            fun k => { k with repeats := bump Config.wordMax k.repeats }
        else
          (n.onLine l fun k => { k with unanswered := bump Config.wordMax k.unanswered }).unanswered d e

/-! ## Choosing the next exchange (R103) -/

/-- R101: TRIB begins an exchange on a line. -/
def Node.beginExchange (n : Node) (l d : Nat) (kind : ExchKind) (asker : Asker) (req : Request) : Node :=
  let n := n.onLine l fun k => { k with number := (k.number + 1) % 256 }
  let number := ((nth n.trib.lines l).map (·.number)).getD 0
  let e : Exchange :=
    { kind := kind, number := number, attempt := 1, asker := asker, request := req,
      timeout := n.set.exchangeTimeout, retries := n.set.exchangeRetries,
      deadline := n.svc.now + ms n.set.exchangeTimeout }
  n.onDevice d fun v => { v with exchange := some e }

/-- The exchange kind of a poll. -/
def PollKind.exchange : PollKind → ExchKind
  | .status => .status
  | .sample => .sample
  | .tollOffer => .tollOffer

/-- R101: the request of a poll. -/
def Node.pollRequest (n : Node) (d : Nat) (v : Device) : PollKind → Request
  | .tollOffer => let x := offerSequences n.toll d v.identity; .toll x.1 x.2
  | .status => .plain
  | .sample => .plain

/-- R110: whether a request kind suits a device kind. -/
def PollKind.suits : PollKind → DeviceKind → Bool
  | .status, k => k ≠ .unused
  | .sample, k => k = .weather
  | .tollOffer, k => k = .toll

/-- Change the times of a roster entry. -/
def Node.onRoster (n : Node) (e : Nat) (f : RosterRec → RosterRec) : Node :=
  n.onTrib fun t => { t with roster := change f t.roster e }

/-- R110: skip the due entries of a device that may not be polled for them. -/
def Node.skipRoster (n : Node) (d : Nat) (v : Device) : Node :=
  (places 16).foldl (fun n e =>
    match n.set.rosterEntry e, nth n.trib.roster e with
    | some s, some { since := some t, .. } =>
      if s.device = d ∧
          (DevState.polled v.state = false ∨ (n.set.lineOf d).isNone ∨ PollKind.suits s.kind (n.set.kindOf d) = false)
      then n.onRoster e fun _ => { nextDue := some (t + s.period * Config.cyclesPerTenth), since := none }
      else n
    | _, _ => n) n

/-- R109: the due entry of a device with the earliest due since, the lower number where two are alike. -/
def Node.duePoll (n : Node) (d : Nat) : Option (Nat × RosterSpec) :=
  ((places 16).foldl (fun (best : Option (Nat × RosterSpec × Nat)) e =>
    match n.set.rosterEntry e, nth n.trib.roster e with
    | some s, some { since := some t, .. } =>
      if s.device = d then
        match best with
        | some (_, _, u) => if t < u then some (e, s, t) else best
        | none => some (e, s, t)
      else best
    | _, _ => best) none).map fun x => (x.1, x.2.1)

/-- R103: look for work on a free line and begin the first exchange found. R107: an attach STATUS is begun in PRESENT
only; in SILENT it goes on waiting. -/
def Node.lookForWork (n : Node) (d : Nat) : Node :=
  match n.device d with
  | none => n
  | some v =>
    if n.trib.started = false ∨ v.exchange.isSome then n
    else
      let n := n.skipRoster d v
      match n.set.lineOf d with
      | none => n
      | some l =>
        let load := if v.state = .present ∧ wantsLoad n.zone d = true then
            (n.zone.sign d).bind fun g => wantedPage n.set g d else none
        match load with
        | some (p, src) =>
          { n.beginExchange l d .pageLoad .zone (.page p) with
            zone := n.zone.changeSign d fun g => { g with load := some { id := p.id, src := src } } }
        | none =>
          match v.commands with
          | w :: rest =>
            (n.beginExchange l d (PollKind.exchange w.poll) (.command w.origin) (n.pollRequest d v w.poll)).onDevice d
              fun v => { v with commands := rest }
          | [] =>
            match (if DevState.polled v.state then n.duePoll d else none) with
            | some (e, s) =>
              (n.beginExchange l d (PollKind.exchange s.kind) (.roster e) (n.pollRequest d v s.kind)).onRoster e
                fun _ => { nextDue := some (n.svc.now + s.period * Config.cyclesPerTenth), since := none }
            | none =>
              if (v.state = .absent ∨ v.state = .failed) ∧ due n.svc.now v.joinDue = true then
                (n.beginExchange l d .identify .join .plain).onDevice d fun v =>
                  { v with state := .joining, joinOrigin := some v.state, joinDue := none }
              else if v.attachWaiting ∧ v.state = .present then
                (n.beginExchange l d .status .attach .plain).onDevice d fun v => { v with attachWaiting := false }
              else n

/-- R103: every free line looks for work; a device of kind UNUSED has none. -/
def Node.lookAll (n : Node) : Node := (places 8).foldl Node.lookForWork n

/-! ## The roster (R108, R111) -/

/-- R108: an entry becomes due. -/
def Node.rosterDue (n : Node) (e : Nat) : Node :=
  match n.set.rosterEntry e, nth n.trib.roster e with
  | some _, some r =>
    if due n.svc.now r.nextDue = true ∧ r.since = none then
      n.onRoster e fun r => { r with since := some n.svc.now }
    else n
  | _, _ => n

/-- R108: the times of an entry written now. -/
def freshRoster (now : Nat) : Option RosterSpec → RosterRec
  | none => { nextDue := none, since := none }
  | some s => { nextDue := some (now + s.period * Config.cyclesPerTenth), since := none }

/-- R110: ROSTER-SWEEP. -/
def Node.rosterSweep (n : Node) : Node :=
  (places 16).foldl (fun n e =>
    match n.set.rosterEntry e with
    | some _ => n.onRoster e fun r => { r with since := some (r.since.getD n.svc.now) }
    | none => n) n

/-- R111: an entry within its ranges. -/
def rosterInRange (s : RosterSpec) : Bool :=
  decide (1 ≤ s.device ∧ s.device ≤ 8 ∧ 1 ≤ s.period ∧ s.period ≤ 36000)

/-- R111: an entry that may be written: in range, its kind suited to the device's configured kind. -/
def Settings.rosterOk (s : Settings) (r : RosterSpec) : Bool :=
  rosterInRange r && PollKind.suits r.kind (s.kindOf r.device)

/-- R111: replace one entry of POLL-ROSTER. -/
def Node.writeRoster (n : Node) (e : Nat) (r : Option RosterSpec) : Node :=
  (n.onSettings fun s => { s with roster := put s.roster e r }).onRoster e fun _ => freshRoster n.svc.now r

/-- R111: ROSTER-SET. -/
def Node.rosterSet (n : Node) (e : Nat) (arg : RosterArg) : Node × Status × Value :=
  if e < 1 ∨ 16 < e then (n, .badArgument, .nil)
  else match arg with
    | .empty => (n.writeRoster e none, .done, .nil)
    | .entry _ none _ => (n, .badArgument, .nil)
    | .entry d (some k) p =>
      let r : RosterSpec := { device := d, kind := k, period := p }
      if n.set.rosterOk r then (n.writeRoster e (some r), .done, .nil) else (n, .badArgument, .nil)

/-- R111: ROSTER-READ. An EMPTY entry is told by its number alone (log entry 8). -/
def Node.rosterRead (n : Node) : Value :=
  .list ((places 16).map fun e =>
    match n.set.rosterEntry e, nth n.trib.roster e with
    | some s, some r =>
      .list [.nat e, .nat s.device, .poll s.kind, .nat s.period, timeLeft n.svc.now r.nextDue,
        .flag r.since.isSome, Value.opt .nat r.since]
    | _, _ => .list [.nat e])

/-! ## Detaching (R112, R113) -/

/-- R79, R112: what a detach does at ZONE, TOLL and WX. -/
def Node.detachElsewhere (n : Node) (d : Nat) (oldKind newKind : DeviceKind) : Node :=
  let n := if oldKind = .sign then
      if newKind = .sign then n.onZone (forgetShown d) else n.onZone (removeSign d)
    else if newKind = .sign then n.onZone (makeSign d) else n
  let n := n.onToll (unbindDevice n.trib.devices d)
  if oldKind = .weather ∧ newKind ≠ .weather then
    (n.onSvc fun s => { s with wx := { s.wx with gaps := put s.wx.gaps d 0 } }).onRules (clearRulesOf d)
  else n

/-- R112: detach a device; the working settings are the new ones. -/
def Node.detach (n : Node) (d : Nat) (oldKind : DeviceKind) (cause : DevCause) : Node :=
  match n.device d with
  | none => n
  | some v =>
    let kind := n.set.kindOf d
    let n := match v.exchange with
      | some e => n.abandon d e
      | none => n
    let n := n.emptyCommands d
    let new : DevState := if kind = .unused then .unused else .absent
    let n := n.moveDevice d v.state new cause fun v =>
      { v with joinDue := if kind = .unused then none else n.dueNow d, miss := 0, restartEnd := none,
               restartOrigin := none, joinOrigin := none, status := none,
               identity := if kind = oldKind then v.identity else none }
    n.detachElsewhere d oldKind kind

/-- R112: detach each device whose line or kind a write has changed. That they are detached by device number is the model's
choice (log entry 89). -/
def Node.detachChanged (n : Node) (old : Settings) : Node :=
  (places 8).foldl (fun n d =>
    if old.lineOf d ≠ n.set.lineOf d then n.detach d (old.kindOf d) .remap
    else if old.kindOf d ≠ n.set.kindOf d then n.detach d (old.kindOf d) .kind
    else n) n

/-- R99: lines in range and none given twice. -/
def remapOk (l : List (Option Nat)) : Bool :=
  let given := l.filterMap id
  given.all (fun k => decide (1 ≤ k ∧ k ≤ 8)) && distinct given

/-- R99: a new value of REMAP. -/
def Node.takeRemap (n : Node) (l : List (Option Nat)) : Node × Status :=
  if remapOk l then ((n.onSettings fun s => { s with remap := l }).detachChanged n.set, .done)
  else (n, .badArgument)

/-- R99: a new value of DEVICE-KIND. -/
def Node.takeKinds (n : Node) (l : List DeviceKind) : Node × Status :=
  ((n.onSettings fun s => { s with kinds := l }).detachChanged n.set, .done)

/-- R113: LINE-RESET. That an UNUSED device does not use its line is deduced from R99 (log entry 108). -/
def Node.lineReset (n : Node) (l : Nat) : Node × Status × Value :=
  if l < 1 ∨ 8 < l then (n, .badArgument, .nil)
  else match n.set.deviceOn l with
    | none => (n, .done, .absent)
    | some d =>
      let n := n.detach d (n.set.kindOf d) .lineReset
      (n, .done, .list [.nat d, Value.opt (fun v : Device => .dev v.state) (n.device d)])

/-! ## Restart outputs (5.8) -/

/-- R114: the state a condition sees: the restart origin while RESTARTING, the join origin while JOINING. -/
def Device.seen (v : Device) : DevState :=
  match v.state with
  | .restarting => v.restartOrigin.getD .restarting
  | .joining => v.joinOrigin.getD .joining
  | s => s

/-- R114: whether a condition is true. -/
def Node.holds (n : Node) : RestartCond → Bool
  | .device d st =>
    match (n.device d).map Device.seen, st with
    | some .silent, .silent => true
    | some .failed, .failed => true
    | some .absent, .absent => true
    | _, _ => false
  | .input i => ((nth n.trib.inputs i).map (·.active)).getD false
  | .portNotRun p => (n.port p).state ≠ .run
  | .orphan => n.ring.attach = .orphan

/-- R114: an output's conditions are all true; never so for an output with none. -/
def Node.allTrue (n : Node) (s : OutputSpec) : Bool := !s.conds.isEmpty && s.conds.all n.holds

/-- Change the record of an output. -/
def Node.onOutput (n : Node) (x : Nat) (f : Output → Output) : Node :=
  n.onTrib fun t => { t with outputs := change f t.outputs x }

/-- R116: the target of a pulse becomes RESTARTING. R116 tells what a target RESTARTING under another output does; one
RESTARTING under the same output, pulsed again, does the same, which is the model's choice (log entry 72). -/
def Node.restartTarget (n : Node) (d : Nat) (until_ : Nat) : Node :=
  match n.device d with
  | none => n
  | some v =>
    match v.state with
    | .unused => n
    | .wrongKind => n
    | .restarting => n.onDevice d fun v => { v with restartEnd := some (max until_ (v.restartEnd.getD 0)) }
    | st =>
      n.moveDevice d st .restarting .restart fun v =>
        { v with restartOrigin := some (v.joinOrigin.getD st), joinOrigin := none, joinDue := none,
                 restartEnd := some until_ }

/-- R116: an output enters PULSING. -/
def Node.firePulse (n : Node) (x : Nat) (cause : FireCause) : Node :=
  match nth n.set.outputs x with
  | none => n
  | some s =>
    let n := n.onOutput x fun _ =>
      { state := .pulsing, hold := none, pulse := some (n.svc.now + secs s.width) }
    let n := n.post .restartFired (.output x) [Value.opt .nat s.target, .fire cause]
    match s.target with
    | none => n
    | some d => n.restartTarget d (n.svc.now + secs s.width + secs s.settle)

/-- R115, R117: one output is evaluated. -/
def Node.evaluateOutput (n : Node) (x : Nat) : Node :=
  match nth n.set.outputs x, nth n.trib.outputs x with
  | some s, some o =>
    match o.state, n.allTrue s with
    | .armed, true =>
      if s.hold = 0 then n.firePulse x .conditions
      else n.onOutput x fun o => { o with state := .holding, hold := some (n.svc.now + secs s.hold) }
    | .holding, false => n.onOutput x fun o => { o with state := .armed, hold := none }
    | .spent, false => n.onOutput x fun o => { o with state := .armed }
    | _, _ => n
  | _, _ => n

/-- R114, R115: every output is evaluated, again after each pulse that an evaluation begins (four at most). That they are
evaluated from X1 to X4 is the model's choice (log entry 90). -/
def Node.evaluateOutputs (n : Node) : Node :=
  if n.trib.started then
    (places 5).foldl (fun n _ => (places 4).foldl Node.evaluateOutput n) n
  else n

/-- R115: an output's hold timer expires. -/
def Node.holdExpires (n : Node) (x : Nat) : Node :=
  match nth n.trib.outputs x with
  | none => n
  | some o =>
    if o.state = .holding ∧ due n.svc.now o.hold = true then n.firePulse x .conditions else n

/-- R116, R117: an output's pulse timer expires. -/
def Node.pulseExpires (n : Node) (x : Nat) : Node :=
  n.onOutput x fun o =>
    if o.state = .pulsing ∧ due n.svc.now o.pulse = true then { o with state := .spent, pulse := none } else o

/-- R116: a device's restart end has come. -/
def Node.restartEnds (n : Node) (d : Nat) : Node :=
  match n.device d with
  | none => n
  | some v =>
    if v.state = .restarting ∧ due n.svc.now v.restartEnd = true then
      n.moveDevice d .restarting .absent .settled fun v =>
        { v with miss := 0, joinDue := n.dueNow d, restartEnd := none, restartOrigin := none }
    else n

/-- R118: RESTART-PULSE. -/
def Node.restartPulse (n : Node) (x : Nat) : Node × Status × Value :=
  if x < 1 ∨ 4 < x then (n, .badArgument, .nil)
  else match nth n.trib.outputs x with
    | none => (n, .badArgument, .nil)
    | some o =>
      if o.state = .pulsing then (n, .wrongState, .nil) else (n.firePulse x .command, .done, .nil)

/-- 05 section 5.8: a record of RESTART-OUTPUTS within its ranges. -/
def outputOk (s : OutputSpec) : Bool :=
  let condOk : RestartCond → Bool
    | .device d _ => decide (1 ≤ d ∧ d ≤ 8)
    | .input i => decide (1 ≤ i ∧ i ≤ 4)
    | .portNotRun _ => true
    | .orphan => true
  decide (s.conds.length ≤ 3 ∧ s.hold ≤ 600 ∧ s.settle ≤ 120) && s.conds.all condOk
    && [1, 2, 5, 10].contains s.width
    && (match s.target with
      | none => true
      | some d => decide (1 ≤ d ∧ d ≤ 8))

/-- R117: a new value of RESTART-OUTPUTS. -/
def Node.takeOutputs (n : Node) (l : List OutputSpec) : Node × Status :=
  if l.all outputOk then
    let old := n.set.outputs
    let n := n.onSettings fun s => { s with outputs := l }
    ((places 4).foldl (fun n x =>
      if nth old x ≠ nth l x then
        n.onOutput x fun o => if o.state = .pulsing then o else { o with state := .armed, hold := none }
      else n) n, .done)
  else (n, .badArgument)

/-! ## Cabinet inputs (5.9) -/

/-- Change the record of an input. -/
def Node.onInput (n : Node) (i : Nat) (f : Input → Input) : Node :=
  n.onTrib fun t => { t with inputs := change f t.inputs i }

/-- R119: the contact against the debounced state: timing starts, goes on or stops. -/
def Node.timeInput (n : Node) (i : Nat) : Node :=
  match nth n.set.inputs i, nth n.pins.inputHigh i with
  | some s, some high =>
    let active := decide (high = s.activeHigh)
    n.onInput i fun r =>
      if active = r.active then { r with timing := none }
      else if r.timing.isSome then r
      else { r with timing := some (n.svc.now + ms s.debounce) }
  | _, _ => n

/-- R119: the debounce time of an input has passed. The new state is told as a flag that is on for ACTIVE (log entry 8). -/
def Node.inputSettled (n : Node) (i : Nat) : Node :=
  match nth n.set.inputs i, nth n.trib.inputs i with
  | some s, some r =>
    if due n.svc.now r.timing then
      let n := n.onInput i fun r => { active := !r.active, timing := none }
      if s.notice then n.post .inputChange (.input i) [.flag (!r.active)] else n
    else n
  | _, _ => n

/-- 05 section 5.9: a record of CABINET-INPUTS within its ranges. -/
def inputOk (s : InputSpec) : Bool := decide (10 ≤ s.debounce ∧ s.debounce ≤ 2000)

/-- R119: a new value of CABINET-INPUTS. -/
def Node.takeInputs (n : Node) (l : List InputSpec) : Node × Status :=
  if l.all inputOk then
    let old := n.set.inputs
    let n := n.onSettings fun s => { s with inputs := l }
    ((places 4).foldl (fun n i =>
      if (nth old i).map (·.activeHigh) ≠ (nth l i).map (·.activeHigh) ∧ n.trib.started = true then
        n.timeInput i
      else n) n, .done)
  else (n, .badArgument)

/-- R120: INPUT-STATUS. ACTIVE and HIGH are told as flags that are on (log entry 8). -/
def Node.inputStatus (n : Node) : Value :=
  .list
    [.list ((places 4).map fun i =>
        match nth n.set.inputs i, nth n.trib.inputs i, nth n.pins.inputHigh i with
        | some s, some r, some high =>
          .list [.flag r.active, .flag high, .flag r.timing.isSome, .flag s.activeHigh, .nat s.debounce,
            .flag s.notice]
        | _, _, _ => .absent),
     .list ((places 4).map fun x =>
        match nth n.set.outputs x, nth n.trib.outputs x with
        | some s, some o =>
          .list [.out o.state, timeLeft n.svc.now (o.hold.orElse fun _ => o.pulse),
            .list (s.conds.map fun c => .flag (n.holds c))]
        | _, _ => .absent)]

/-! ## Device commands (5.10) -/

/-- R121: DEVICE-LIST. -/
def Node.deviceList (n : Node) : Value :=
  .list ((numbered 1 n.trib.devices).map fun x =>
    .list [Value.opt .nat (n.set.lineOf x.1), .devKind (n.set.kindOf x.1), .dev x.2.state, .nat x.2.miss,
      Value.opt (fun i : Identity => .nat i.serial) x.2.identity, .flag x.2.exchange.isSome])

/-- R121: DEVICE-STATUS with a poll of NONE. -/
def Node.deviceStatus (n : Node) (d : Nat) : Node × Status × Value :=
  if d < 1 ∨ 8 < d then (n, .badArgument, .nil) else (n, .done, n.deviceReport d)

/-- R121: DEVICE-STATUS with a poll; without a status the command stays in progress until its exchange ends. -/
def Node.devicePoll (n : Node) (o : Origin) (d : Nat) (poll : Option PollKind) : Node × Option (Status × Value) :=
  match poll with
  | none => (n, some (.badArgument, .nil))
  | some k =>
    if d < 1 ∨ 8 < d ∨ PollKind.suits k (n.set.kindOf d) = false then (n, some (.badArgument, .nil))
    else match n.device d with
      | none => (n, some (.badArgument, .nil))
      | some v =>
        if DevState.polled v.state then
          (n.onDevice d fun v => { v with commands := v.commands ++ [{ origin := o, poll := k }] }, none)
        else (n, some (.wrongState, .nil))

end Sys2Proof.Machine
end

