-- ==== Sys2Proof/Machine/Release.lean ====
section
/-! DEFINITION. ZONE's commands (R76, R77, R86–R89, R97, R98) and the release unit (R90–R94) at the node. -/

namespace Sys2Proof.Machine

/-! ## The release unit -/

/-- R94: BEACON-PULSE. -/
def Node.pulseBeacons (n : Node) : Node :=
  n.set.pulseBeacons.foldl (fun n b =>
    { n with zone := n.zone.changeBeacon b fun _ =>
        Beacon.pulse n.svc.now n.set.pulsePattern.1 n.set.pulsePattern.2 }) n

/-- R92: perform a release with this tag. -/
def Node.performRelease (n : Node) (tag : Nat) (forced : Bool) : Node :=
  let acts := n.set.releaseActions
  let applied : Node × Nat :=
    if acts.contains .applyStaged then
      let x := applyStaged tag (n.svc, n.zone)
      ({ n with svc := x.1.1, zone := x.1.2 }, x.2)
    else (n, 0)
  let n := applied.1
  let n := if acts.contains .beaconPulse then n.pulseBeacons else n
  let n := if acts.contains .rosterSweep then n.rosterSweep else n
  let n := if acts.contains .timeMark then
      n.post .releaseDone .none [.nat tag, .nat applied.2, .flag forced] else n
  { n with zone := { n.zone with
      performed := bump Config.wordMax n.zone.performed
      forced := if forced then bump Config.wordMax n.zone.forced else n.zone.forced } }

/-- R91: a release tag reaches a wayside. -/
def Node.receiveTag (n : Node) (tag : Nat) : Node :=
  let n := match n.zone.pending with
    | some p => { n with zone := { n.zone with pending := none } }.performRelease p.tag true
    | none => n
  if n.set.releaseDelay = 0 then n.performRelease tag false
  else
    let p : Pending := { tag := tag, due := n.svc.now + n.set.releaseDelay }
    { n with zone := { n.zone with pending := some p } }

/-- R92: the remaining delay of the pending release reaches 0. -/
def Node.releaseDue (n : Node) : Node :=
  match n.zone.pending with
  | none => n
  | some p =>
    if p.due ≤ n.svc.now then { n with zone := { n.zone with pending := none } }.performRelease p.tag false else n

/-! ## Zone commands -/

/-- R76, R77: a zone's state and cause set as they are told. -/
def ZoneRec.report (z : ZoneRec) : Value := .list [.flag (!z.causes.isEmpty), .causes z.causes]

/-- R76: ZONE-START. -/
def Node.zoneStart (n : Node) (z : Nat) : Node × Status × Value :=
  if z < 1 ∨ 8 < z then (n, .badArgument, .nil)
  else
    let n := n.onZone (addCause z .command)
    (n, .done, Value.opt ZoneRec.report (nth n.zone.zones z))

/-- R77: ZONE-CLEAR; a cause that is no member of the list is `none`. The causes go in the order in which they are given
(log entry 61). -/
def Node.zoneClear (n : Node) (z : Nat) (causes : List (Option Cause)) : Node × Status × Value :=
  if z < 1 ∨ 8 < z ∨ causes = [] ∨ causes.contains none ∨ causes.contains (some .weather) then
    (n, .badArgument, .nil)
  else
    let n := (causes.filterMap id).foldl (fun n c => n.onZone (removeCause z c)) n
    (n, .done, Value.opt ZoneRec.report (nth n.zone.zones z))

/-! ## Sign commands (4.3.1) -/

/-- 04 section 4.3.1: a sign command that passes the shared checks on its device. -/
def Node.signCommand (n : Node) (d : Nat) (act : Sign → Node × Status × Value) : Node × Status × Value :=
  if d < 1 ∨ 8 < d then (n, .badArgument, .nil)
  else match n.zone.sign d with
    | none => (n, .notFound, .nil)
    | some g => act g

/-- R86: SIGN-SHOW; a device without a sign record is NOT-FOUND before its page is looked at (log entry 62). -/
def Node.signShow (n : Node) (d : Nat) (p : Page) : Node × Status × Value :=
  n.signCommand d fun _ =>
    if pageOk p = false then (n, .badArgument, .nil)
    else match n.svc.requestBuffers .sign 1 with
      | (s, some _) => ({ n with svc := s }, .noRoom, .nil)
      | (s, none) =>
        let n := { n with svc := s }.onZone (showPage d p)
        (n, .done, Value.opt (fun g : Sign =>
          .list [Value.opt (fun w : Nat × Nat => .nat w.1) g.wanted, .sign g.state]) (n.zone.sign d))

/-- R87: SIGN-STAGE; a device without a sign record is NOT-FOUND before its page and tag are looked at (log entry 63). -/
def Node.signStage (n : Node) (d : Nat) (p : Page) (tag : Nat) : Node × Status × Value :=
  n.signCommand d fun _ =>
    if pageOk p = false ∨ 255 < tag then (n, .badArgument, .nil)
    else match n.svc.requestBuffers .sign 1 with
      | (s, some _) => ({ n with svc := s }, .noRoom, .nil)
      | (s, none) => ({ n with svc := s }.onZone (setStaged d (some (p, tag))), .done, .nil)

/-- R88: SIGN-UNSTAGE. -/
def Node.signUnstage (n : Node) (d : Nat) : Node × Status × Value :=
  n.signCommand d fun _ => (n.onZone (setStaged d none), .done, .nil)

/-- R89: SIGN-STATUS. An unknown shown page is told as `absent` (log entry 8). -/
def Node.signStatus (n : Node) (d : Nat) : Node × Status × Value :=
  n.signCommand d fun g =>
    (n, .done, .list
      [.sign g.state, Value.opt (fun p : Page => .nat p.id) g.normal,
       Value.opt (fun x : Page × Nat => .list [.nat x.1.id, .nat x.2]) g.staged,
       Value.opt (fun w : Nat × Nat => .list [.nat w.1, .nat w.2]) g.wanted, Value.opt .nat g.shown,
       .nat g.attempts, Value.opt (fun l : Load => .nat l.id) g.load, Value.opt statusReport g.last,
       Value.opt (fun v : Device => .dev v.state) (n.device d)])

/-! ## Beacon commands -/

/-- A beacon's mode as it is told: OFF, CONTINUOUS with its zone, or SINGLE (log entry 8). -/
def BeaconMode.report : BeaconMode → Value
  | .off => .list [.nat 0]
  | .continuous z => .list [.nat 1, .nat z]
  | .single => .list [.nat 2]

/-- R97: the reply carries the beacon's resulting mode. -/
def Node.beaconReply (n : Node) (b : Nat) : Value :=
  Value.opt (fun r : Beacon => BeaconMode.report r.mode) (nth n.zone.beacons b)

/-- R96, R97: BEACON-SET with mode SINGLE. -/
def Node.beaconSingle (n : Node) (b on off : Nat) : Node × Status × Value :=
  if b < 1 ∨ 4 < b ∨ on < 1 ∨ 255 < on ∨ off < 1 ∨ 255 < off then (n, .badArgument, .nil)
  else
    let n := { n with zone := n.zone.changeBeacon b fun _ => Beacon.pulse n.svc.now on off }
    (n, .done, n.beaconReply b)

/-- R96, R97: BEACON-SET with mode CANCEL. -/
def Node.beaconCancel (n : Node) (b : Nat) : Node × Status × Value :=
  if b < 1 ∨ 4 < b then (n, .badArgument, .nil)
  else
    let single := ((nth n.zone.beacons b).map fun r => decide (r.mode = .single)).getD false
    let n := if single then n.onZone (endSingle b) else n
    (n, .done, n.beaconReply b)

/-- R85: the SIGN buffers ZONE holds are those of the class. -/
def Node.zoneStatus (n : Node) : Value :=
  .list
    [.list (n.zone.zones.map fun z =>
        .list [.flag (!z.causes.isEmpty), .causes z.causes, Value.opt .time z.since]),
     .nat n.set.bindings.length,
     .nat (n.set.bindings.filter fun b =>
        match bindingSign b with
        | some (_, d) => (n.zone.sign d).isNone
        | none => false).length,
     .list (n.zone.beacons.map fun b => .list [BeaconMode.report b.mode, .flag b.lit]),
     Value.opt (fun p : Pending => .list [.nat p.tag, .nat (p.due - n.svc.now)]) n.zone.pending,
     .nat n.zone.performed, .nat n.zone.forced, .nat n.svc.pool.sign.holding,
     .list ((places 8).filterMap fun d =>
        (n.zone.sign d).map fun g => .list [.nat d, .sign g.state])]

end Sys2Proof.Machine
end

