-- ==== Sys2Proof/Machine/Coll.lean ====
section
/-! DEFINITION. COLL (09) in both roles: batch records, held lists, asks, items, batch entries, acknowledgement and the delivery queue. -/

namespace Sys2Proof.Machine

/-! ## At a wayside (9.3) -/

/-- The batch record of a kind. -/
def Coll.record (c : Coll) : CollKind → Option WBatch
  | .toll => c.toll
  | .weather => c.weather

/-- Set the batch record of a kind. -/
def Coll.setRecord (c : Coll) (k : CollKind) (b : Option WBatch) : Coll :=
  match k with
  | .toll => { c with toll := b }
  | .weather => { c with weather := b }

/-- Change the wayside's counts of a kind (R175). -/
def Coll.countKind (c : Coll) (k : CollKind) (f : KindCounts → KindCounts) : Coll :=
  match k with
  | .toll => { c with counts := { c.counts with toll := f c.counts.toll } }
  | .weather => { c with counts := { c.counts with weather := f c.counts.weather } }

/-- Act on COLL. -/
def Node.onColl (n : Node) (f : Coll → Coll) : Node := { n with coll := f n.coll }

/-- 9.3: the remaining-to-send count. -/
def WBatch.remaining (b : WBatch) : Nat := b.items.length - (b.next - 1)

/-- The kind of a held entry. -/
def HeldEntry.kind : HeldEntry → CollKind
  | .msg k _ => k
  | .batch k _ => k

/-- R166: one entry offered to the normal queue. -/
def Node.tryEntry (n : Node) (e : HeldEntry) : Node × Bool :=
  match e with
  | .msg _ m => let r := n.svc.offerNormal m; ({ n with svc := r.1 }, r.2)
  | .batch k b => let r := n.svc.offerPlaceholder k b; ({ n with svc := r.1 }, r.2)

/-- R166 step 5: offer an entry, or put it behind the held ones. -/
def Node.offerEntry (n : Node) (e : HeldEntry) : Node :=
  if n.coll.heldW.isEmpty then
    let r := n.tryEntry e
    if r.2 then r.1 else r.1.onColl fun c => { c with heldW := c.heldW ++ [e] }
  else n.onColl fun c => { c with heldW := c.heldW ++ [e] }

/-- R166: the held entries are offered again, oldest first, up to the first refusal. -/
def Node.retryHeldW : List HeldEntry → Node → Node
  | [], n => n
  | e :: l, n =>
    let r := n.tryEntry e
    if r.2 then Node.retryHeldW l (r.1.onColl fun c => { c with heldW := c.heldW.drop 1 }) else r.1

/-- Whether a message is the BATCH-HEAD or BATCH-END of a kind. -/
def isBatchEdge (k : CollKind) (m : Message) : Bool :=
  match m.payload with
  | .batchHead _ j _ => j = k
  | .batchEnd _ j _ => j = k
  | _ => false

/-- Whether an item of the placeholder with this identity is begun in the holding of either loop. -/
def Win.itemBegun (w : Win) (id : Nat) : Bool :=
  let isIt (l : LoopSt) : Bool :=
    match l.holding with
    | some { begun := some { src := .item j _, .. }, .. } => j = id
    | _ => false
  isIt w.outer || isIt w.inner

/-- R32: withdraw the placeholder of a kind; while an item of it is begun it only leaves. -/
def Node.withdrawPlaceholder (n : Node) (k : CollKind) : Node :=
  match n.svc.queues.normal.findSome? (NEntry.placeId k) with
  | none => n
  | some id =>
    if n.win.itemBegun id then n.onSvc fun s => s.markLeaving id else n.onSvc fun s => s.dropEntry (NEntry.isPlace id)

/-- R166 step 1: the previous batch of a kind is forgotten and its messages still unsent are removed. -/
def Node.forgetBatch (n : Node) (k : CollKind) : Node :=
  match n.coll.record k with
  | none => n
  | some _ =>
    let n := n.onColl fun c => { c with heldW := c.heldW.filter fun e => e.kind ≠ k }
    let n := n.onSvc fun s => s.withdrawNormal (isBatchEdge k)
    let n := n.withdrawPlaceholder k
    n.onColl fun c => c.setRecord k none

/-- R166 step 2: cancel the loans of a kind. -/
def Node.cancelLoans (n : Node) : CollKind → Node
  | .toll => { n with toll := n.toll.cancel }
  | .weather => n.onSvc fun s => { s with wx := s.wx.cancel }

/-- R166 step 3: select up to `max` items of a kind for a batch. -/
def Node.selectItems (n : Node) (k : CollKind) (batch max : Nat) : Node × List ItemId :=
  match k with
  | .toll =>
    let l := selectRecords batch max n.toll.log
    ({ n with toll := { n.toll with log := l } }, (recordsLoanedTo batch l).map fun p => .toll p.1 p.2)
  | .weather =>
    let l := selectSegments batch max n.svc.wx.segments
    (n.onSvc fun s => { s with wx := { s.wx with segments := l } }, (loanedTo batch l).map .segment)

/-- R166: a COLLECT-ASK taken at a wayside. -/
def Node.takeAsk (n : Node) (batch : Nat) (k : CollKind) (max : Nat) : Node :=
  let n := (n.forgetBatch k).cancelLoans k
  let r := n.selectItems k batch max
  let items := r.2
  let n := r.1.onColl fun c =>
    (c.setRecord k (some { number := batch, items := items.map fun i => (i, .unsent), next := 1,
                           bound := none })).countKind k
      fun a => { a with asks := bump Config.wordMax a.asks }
  let msg (p : Payload) : Message :=
    { source := n.me, dest := Config.headEndNumber, length := 1, payload := p }
  let n := n.offerEntry (.msg k (msg (.batchHead batch k items.length)))
  let n := n.offerEntry (.batch k batch)
  n.offerEntry (.msg k (msg (.batchEnd batch k items.length)))

/-- R142, R154: the contents of an item, if it is still there. -/
def Node.itemContents (n : Node) : ItemId → Option Item
  | .toll g s =>
    (n.toll.log.find? fun r => r.record.gantry = g && r.record.seq = s).map fun r => .toll r.record r.receipt
  | .segment k => (n.svc.wx.segments.find? fun g => g.number = k).map .segment

/-- R167: the next BATCH-ITEM of a kind's batch, `none` when none is left to send. -/
def Node.nextItem (n : Node) (k : CollKind) : Option Message :=
  match n.coll.record k with
  | none => none
  | some b =>
    match nth b.items b.next with
    | none => none
    | some (id, mark) =>
      let item : Item := if mark = .removed then .void id else (n.itemContents id).getD (.void id)
      let p : Payload := .batchItem b.number k b.items.length b.next item
      some { source := n.me, dest := Config.headEndNumber, length := messageSlots p, payload := p }

/-- R167: the loop binds a batch whose bound loop is absent. -/
def Node.bindLoop (n : Node) (k : CollKind) (l : Loop) : Node :=
  n.onColl fun c =>
    match c.record k with
    | some b => if b.bound.isNone then c.setRecord k (some { b with bound := some l }) else c
    | none => c

/-- R167: whether a batch may send on a loop. -/
def Coll.boundTo (c : Coll) (k : CollKind) (l : Loop) : Bool :=
  match c.record k with
  | some b => b.bound = some l
  | none => false

/-- R167: the first slot of an item of the placeholder `id` has been placed: the item is SENT, whatever its mark was. With
no item left the placeholder leaves the queue (R32). -/
def Node.itemSent (n : Node) (id : Nat) (k : CollKind) (void : Bool) : Node :=
  let n := n.onColl fun c =>
    match c.record k with
    | none => c
    | some b =>
      (c.setRecord k (some { b with items := change (fun x => (x.1, .sent)) b.items b.next,
                                    next := b.next + 1 })).countKind k
        fun a => { a with sent := bump Config.wordMax a.sent,
                          voids := if void then bump Config.wordMax a.voids else a.voids }
  if (n.nextItem k).isNone then n.onSvc fun s => s.dropEntry (NEntry.isPlace id) else n

/-- R32: an item is over; its placeholder leaves the queue if it was withdrawn meanwhile. -/
def Node.itemOver (n : Node) (id : Nat) : Node := n.onSvc fun s => s.dropEntry (NEntry.isLeaving id)

/-- R167: when a loop ceases to be present, batches bound to it are bound no more. -/
def Coll.unbind (c : Coll) (l : Loop) : Coll :=
  let free (b : Option WBatch) : Option WBatch :=
    b.map fun b => if b.bound = some l then { b with bound := none } else b
  { c with toll := free c.toll, weather := free c.weather }

/-- R174: mark removed items of a kind's batch. -/
def Coll.markRemoved (c : Coll) (k : CollKind) (ids : List ItemId) : Coll :=
  match c.record k with
  | none => c
  | some b =>
    let mark (x : ItemId × ItemMark) : ItemId × ItemMark := if ids.contains x.1 then (x.1, .removed) else x
    c.setRecord k (some { b with items := b.items.map mark })

/-- R174: a COLLECT-ACK taken at a wayside. -/
def Node.takeAck (n : Node) (l : AckList) : Node :=
  match l with
  | .toll ps =>
    let r := ackPairs n.trib.devices ps (n.svc, n.toll)
    { n with svc := r.1.1, toll := r.1.2 }.onColl fun c => c.markRemoved .toll (r.2.map fun (p : Nat × Nat) => ItemId.toll p.1 p.2)
  | .weather ks =>
    let r := n.svc.ackSegments ks
    { n with svc := r.1 }.onColl fun c => c.markRemoved .weather (r.2.map ItemId.segment)

/-! ## At the head-end (9.1, 9.2, 9.4, 9.5) -/

/-- R165: offer a message, or put it behind the held ones. -/
def Node.offerColl (n : Node) (m : Message) : Node :=
  if n.coll.heldH.isEmpty then
    let r := n.svc.offerNormal m
    let n := { n with svc := r.1 }
    if r.2 then n else n.onColl fun c => { c with heldH := c.heldH ++ [m] }
  else n.onColl fun c => { c with heldH := c.heldH ++ [m] }

/-- R165: at a freeing the held messages are offered again, oldest first, up to the first refusal. -/
def Node.retryHeldH : List Message → Node → Node
  | [], n => n
  | m :: l, n =>
    let r := n.svc.offerNormal m
    let n := { n with svc := r.1 }
    if r.2 then Node.retryHeldH l (n.onColl fun c => { c with heldH := c.heldH.drop 1 }) else n

/-- Whether a message is the COLLECT-ASK of a batch. -/
def isAskOf (batch : Nat) (m : Message) : Bool :=
  match m.payload with
  | .collectAsk b _ _ => b = batch
  | _ => false

/-- Change the batch entry with this number. -/
def Coll.changeBatch (c : Coll) (number : Nat) (f : BatchEntry → BatchEntry) : Coll :=
  { c with batches := c.batches.map fun e => if e.number = number then f e else e }

/-- Change the counts of R175. -/
def Coll.count (c : Coll) (f : CollCounts → CollCounts) : Coll := { c with counts := f c.counts }

/-- R163: the deadline of a batch's timer started now. -/
def Node.batchDeadline (n : Node) : Nat := n.svc.now + ms n.set.collectTimeout

/-- R165: a batch's COLLECT-ASK has been placed. -/
def Node.askPlaced (n : Node) (batch : Nat) : Node :=
  n.onColl fun c => c.changeBatch batch fun e => { e with placed := true, timer := some n.batchDeadline }

/-- R165: an ask still UNSENT is removed, from the held list or from the normal queue. -/
def Node.removeAsk (n : Node) (batch : Nat) : Node :=
  let n := n.onColl fun c => { c with heldH := c.heldH.filter fun m => !isAskOf batch m }
  n.onSvc fun s => s.withdrawNormal (isAskOf batch)

/-- R171: a batch ends. That the ask field of its entry stays UNSENT where the ask is removed (R165) is the model's choice
(log entry 92). -/
def Node.endBatch (n : Node) (e : BatchEntry) (cause : BatchCause) : Node :=
  let n := if e.placed then n else n.removeAsk e.number
  n.onColl fun c =>
    let c := c.changeBatch e.number fun b => { b with state := .held, cause := some cause, timer := none }
    let frame : DataFrame :=
      .result e.station e.number e.kind e.n e.received (e.n.map fun k => k - e.received) cause
    let c := { c with delivery := c.delivery ++ [frame] }
    c.count fun k =>
      match cause with
      | .complete => { k with complete := bump Config.wordMax k.complete }
      | .gap => { k with gap := bump Config.wordMax k.gap }
      | .timeout => { k with timeout := bump Config.wordMax k.timeout }

/-- R169: the batch entry a message belongs to. -/
def Coll.entryOf (c : Coll) (source batch : Nat) (k : CollKind) : Option BatchEntry :=
  c.batches.find? fun e => e.station = source && e.number = batch && e.kind = k && e.state ≠ .held

/-- R169: an item enters the acknowledgement list. -/
def addAck (l : AckList) (i : Item) : AckList :=
  let raise (g s : Nat) (ps : List (Nat × Nat)) : List (Nat × Nat) :=
    if ps.any fun p => p.1 = g then ps.map fun p => if p.1 = g then (g, max p.2 s) else p else ps ++ [(g, s)]
  match l, i with
  | .toll ps, .toll r _ => .toll (raise r.gantry r.seq ps)
  | .toll ps, .void (.toll g s) => .toll (raise g s ps)
  | .weather ks, .segment g => .weather (ks ++ [g.number])
  | .weather ks, .void (.segment k) => .weather (ks ++ [k])
  | l, _ => l

/-- R171: DATA frames of an accepted item: two for a segment record that does not fit one frame body. -/
def itemFrames (station batch : Nat) (k : CollKind) (n index : Nat) (i : Item) : List DataFrame :=
  let two : Bool := match i with
    | .segment g => decide (Config.dataRoom < segmentBytes g.samples)
    | .toll _ _ => false
    | .void _ => false
  if two then [.item station batch k n index 1 2 i, .item station batch k n index 2 2 i]
  else [.item station batch k n index 1 1 i]

/-- R169: the entry with this number, checked after a message: complete if end seen and received equals n. -/
def Node.checkComplete (n : Node) (batch : Nat) : Node :=
  match n.coll.batches.find? fun e => e.number = batch && e.state ≠ .held with
  | none => n
  | some e => if e.endSeen ∧ e.n = some e.received then n.endBatch e .complete else n

/-- R169: a message of a batch is taken: the timer is restarted and n learned, the message acts, and the entry is
checked. -/
def Node.takeBatchMessage (n : Node) (source batch : Nat) (k : CollKind) (count : Nat)
    (act : BatchEntry → Node → Node) : Node :=
  match n.coll.entryOf source batch k with
  | none => n.onColl fun c => c.count fun a => { a with late := bump Config.wordMax a.late }
  | some e =>
    let e' : BatchEntry := { e with timer := some n.batchDeadline, n := some (e.n.getD count) }
    (act e' (n.onColl fun c => c.changeBatch batch fun _ => e')).checkComplete batch

/-- R169: a BATCH-ITEM belonging to an entry. -/
def Node.takeItem (index count : Nat) (i : Item) (e : BatchEntry) (n : Node) : Node :=
  if index = e.received + 1 then
    n.onColl fun c =>
      let c := c.changeBatch e.number fun b =>
        { b with received := b.received + 1, state := .receiving, acks := addAck b.acks i }
      let c := { c with
        delivery := c.delivery ++ itemFrames e.station e.number e.kind (e.n.getD count) index i }
      c.count fun a => { a with accepted := bump Config.wordMax a.accepted }
  else if index ≤ e.received then
    n.onColl fun c => c.count fun a => { a with ignored := bump Config.wordMax a.ignored }
  else n.endBatch e .gap

/-- R169: a BATCH-END belonging to an entry. -/
def Node.takeEnd (e : BatchEntry) (n : Node) : Node :=
  n.onColl fun c => c.changeBatch e.number fun b => { b with endSeen := true }

/-- R162: the next batch number. -/
def Coll.nextBatch (c : Coll) : Nat := nextNumber 255 (c.batches.map (·.number)) 4 c.last

/-- R164 step 3: the four cases of BUSY. -/
def Node.collectBusy (n : Node) (station : Nat) (k : CollKind) : Bool :=
  let c := n.coll
  let active := (c.batches.filter fun e => e.state ≠ .held).length
  c.batches.any (fun e => e.station = station && e.kind = k) ||
    decide (n.set.batchLimit ≤ c.batches.length ∨ Config.collHeld ≤ c.heldH.length ∨
      Config.deliveryPlaces < c.delivery.length + Config.batchFrames * active + Config.batchFrames)

/-- R164: COLLECT. -/
def Node.collect (n : Node) (station : Nat) (kind : Option CollKind) (max : Nat) : Node × Status × Value :=
  match kind with
  | none => (n, .badArgument, .nil)
  | some k =>
    if station < 1 ∨ 999 < station ∨ max < 1 ∨ 64 < max then (n, .badArgument, .nil)
    else if n.head.state = .opened then (n, .wrongState, .nil)
    else if n.collectBusy station k then (n, .busy, .nil)
    else
      let known : Bool := match n.head.entry station with
        | some e => e.presence = .present
        | none => false
      if known then
        let b := n.coll.nextBatch
        let e : BatchEntry :=
          { station := station, kind := k, state := .asked, number := b, max := max, n := none, received := 0,
            endSeen := false, cause := none, placed := false, timer := some n.batchDeadline,
            acks := match k with
              | .toll => .toll []
              | .weather => .weather [] }
        let n := n.onColl fun c =>
          { c with batches := c.batches ++ [e], last := b,
                   counts := { c.counts with begun := bump Config.wordMax c.counts.begun } }
        (n.offerColl { source := n.me, dest := station, length := 1, payload := .collectAsk b k max },
          .done, .nat b)
      else (n, .notFound, .nil)

/-- R172, R173: the checks that COLLECT-CONFIRM and COLLECT-DROP share. -/
def Node.heldBatch (n : Node) (batch : Nat) : Except Status BatchEntry :=
  if batch < 1 ∨ 255 < batch then .error .badArgument
  else match n.coll.batches.find? fun e => e.number = batch with
    | none => .error .notFound
    | some e => if e.state = .held then .ok e else .error .wrongState

/-- The entry with this number is freed. -/
def Coll.freeBatch (c : Coll) (batch : Nat) : Coll :=
  { c with batches := c.batches.filter fun e => e.number ≠ batch }

/-- R172: COLLECT-CONFIRM. -/
def Node.collectConfirm (n : Node) (batch : Nat) : Node × Status × Value :=
  match n.heldBatch batch with
  | .error st => (n, st, .nil)
  | .ok e =>
    if 0 < e.received ∧ Config.collHeld ≤ n.coll.heldH.length then (n, .busy, .nil)
    else
      let n := if 0 < e.received then
          n.offerColl { source := n.me, dest := e.station, length := messageSlots (.collectAck batch e.acks),
                        payload := .collectAck batch e.acks }
        else n
      (n.onColl fun c => (c.freeBatch batch).count fun k => { k with confirmed := bump Config.wordMax k.confirmed },
        .done, .nil)

/-- R173: COLLECT-DROP. -/
def Node.collectDrop (n : Node) (batch : Nat) : Node × Status × Value :=
  match n.heldBatch batch with
  | .error st => (n, st, .nil)
  | .ok _ =>
    (n.onColl fun c => (c.freeBatch batch).count fun k => { k with dropped := bump Config.wordMax k.dropped },
      .done, .nil)

/-- R175: one batch entry as COLLECT-STATUS gives it. -/
def BatchEntry.report (now : Nat) (e : BatchEntry) : Value :=
  .list [.nat e.station, .kind e.kind, .batch e.state, .nat e.number, .nat e.max, Value.opt .nat e.n,
    .nat e.received, .flag e.endSeen, Value.opt .batchCause e.cause, .flag e.placed, timeLeft now e.timer]

/-- R175: one kind's batch record as COLLECT-STATUS gives it. Of the one held list it tells the entries of the kind (log
entry 82), and the number of items marked REMOVED stands within the record, so that it is absent with it (log entry 100):
both the model's choice. -/
def Coll.kindReport (c : Coll) (k : CollKind) (a : KindCounts) : Value :=
  .list
    [Value.opt (fun b => .list
        [.nat b.number, .nat b.items.length, .nat b.next, .nat b.remaining, Value.opt .loop b.bound,
         .nat (b.items.filter fun x => x.2 = .removed).length]) (c.record k),
     .nat (c.heldW.filter fun e => e.kind = k).length, .nat a.asks, .nat a.sent, .nat a.voids]

/-- R175: COLLECT-STATUS. -/
def Node.collectStatus (n : Node) : Value :=
  let c := n.coll
  if n.isHead then
    .list
      [.nat n.set.batchLimit, .nat n.set.collectTimeout, .nat c.nextBatch,
       .list (c.batches.map (BatchEntry.report n.svc.now)), .nat c.heldH.length, .nat c.delivery.length,
       .nat c.counts.begun, .nat c.counts.complete, .nat c.counts.gap, .nat c.counts.timeout,
       .nat c.counts.accepted, .nat c.counts.ignored, .nat c.counts.late, .nat c.counts.confirmed,
       .nat c.counts.dropped]
  else .list [c.kindReport .toll c.counts.toll, c.kindReport .weather c.counts.weather]

end Sys2Proof.Machine
end

