-- ==== Sys2Proof/Machine/Win.lean ====
section
/-! DEFINITION. WIN (02): reassembly, taking and releasing tokens, clear-way, placing messages, and the head-end's part at origination and at a strip. -/

namespace Sys2Proof.Machine

/-- Act on WIN. -/
def Node.onWin (n : Node) (f : Win → Win) : Node := { n with win := f n.win }

/-! ## Slots and reassembly (R29, R30) -/

/-- R29: the slots of a message. -/
def slotsOf (m : Message) : List Slot :=
  (places m.length).map fun k =>
    { source := m.source, dest := m.dest, length := m.length, seq := k, body := .message m.payload }

/-- R22, R23: the slots of a SURVEY message. -/
def surveySlots (source number : Nat) : List Slot :=
  (places 8).map fun k =>
    { source := source, dest := 0, length := 8, seq := k,
      body := .survey number (Config.surveyPlaces k) [] false }

/-- R28: whether a node takes a kind of message in its role. -/
def takesKind : Role → Payload → Bool
  | .wayside, .callQueued _ _ _ => true
  | .wayside, .callAssign _ _ _ => true
  | .wayside, .callBusy _ => true
  | .wayside, .callRing _ _ _ => true
  | .wayside, .callAnswered _ _ => true
  | .wayside, .callClear _ _ => true
  | .wayside, .callCleared _ _ => true
  | .wayside, .commandFwd _ _ => true
  | .wayside, .collectAsk _ _ _ => true
  | .wayside, .collectAck _ _ => true
  | .wayside, _ => false
  | .headEnd, .callRequest _ _ => true
  | .headEnd, .callAnswered _ _ => true
  | .headEnd, .callClear _ _ => true
  | .headEnd, .callCleared _ _ => true
  | .headEnd, .replyFwd _ _ _ => true
  | .headEnd, .noticeFwd _ => true
  | .headEnd, .batchHead _ _ _ => true
  | .headEnd, .batchItem _ _ _ _ _ => true
  | .headEnd, .batchEnd _ _ _ => true
  | .headEnd, _ => false

/-- Count an incomplete message (R30, R46). -/
def Win.countIncomplete (w : Win) (k : Nat) : Win := { w with incomplete := bumpBy Config.wordMax k w.incomplete }

/-- R30: discard the partial messages that meet `p`. -/
def Win.discardPartials (w : Win) (p : Partial → Bool) : Win :=
  { w with partials := w.partials.filter fun q => !p q }.countIncomplete (w.partials.filter p).length

/-- R30: what a complete message is, from the shares of its slots. -/
def joinShares : List Payload → Payload
  | [] => Config.mixedMessage []
  | p :: l => if l.all (· = p) then p else Config.mixedMessage (p :: l)

/-- R30: a complete message is handed to its taker, or discarded when the role takes no such kind. -/
def Win.complete (w : Win) (r : Role) (m : Message) : Win :=
  if takesKind r m.payload then { w with arrived := w.arrived ++ [m] } else w.countIncomplete 1

/-- R30: a slot addressed to this node enters its reassembly. -/
def Win.takeSlot (w : Win) (r : Role) (l : Loop) (s : Slot) (share : Payload) : Win :=
  let mine (q : Partial) : Bool := q.source = s.source && q.loop = l
  let begun : Option (List Payload) :=
    if s.seq = 1 then some [share]
    else match w.partials.find? mine with
      | some q => if q.next = s.seq then some (q.shares ++ [share]) else none
      | none => none
  match begun with
  | none => w.discardPartials mine
  | some shares =>
    let w := if s.seq = 1 then w.discardPartials mine
      else { w with partials := w.partials.filter fun q => !mine q }
    if s.length ≤ s.seq then
      w.complete r { source := s.source, dest := s.dest, length := s.length, payload := joinShares shares }
    else
      let q : Partial :=
        { source := s.source, loop := l, dest := s.dest, length := s.length, next := s.seq + 1, shares := shares }
      { w with partials := w.partials ++ [q] }

/-- R30: take each slot addressed to this node; the data window as it goes on. -/
def takeSlots (r : Role) (me : Nat) (l : Loop) : Win → List (Option Slot) → Win × List (Option Slot)
  | w, [] => (w, [])
  | w, none :: rest =>
    let x := takeSlots r me l w rest
    (x.1, none :: x.2)
  | w, some s :: rest =>
    if s.dest = me then
      let w := match s.body with
        | .message p => w.takeSlot r l s p
        | .survey _ _ _ _ => w
      let x := takeSlots r me l w rest
      (x.1, none :: x.2)
    else
      let x := takeSlots r me l w rest
      (x.1, some s :: x.2)

/-- R30, act on the node: take each slot addressed to it. -/
def Node.takeData (n : Node) (l : Loop) (data : List (Option Slot)) : Node × List (Option Slot) :=
  let x := takeSlots n.set.role n.me l n.win data
  ({ n with win := x.1 }, x.2)

/-! ## The survey at a wayside (R23) -/

/-- The survey number a slot carries. -/
def surveyNumber : Option Slot → Option Nat
  | some { body := .survey k _ _ _, .. } => some k
  | _ => none

/-- Write an entry in the first empty place of a survey; whether one was found. -/
def writeEntry (k : Nat) (e : SurveyEntry) : List (Option Slot) → List (Option Slot) × Bool
  | [] => ([], false)
  | s :: rest =>
    match s with
    | some { source, dest, length, seq, body := .survey j room entries marked } =>
      if j = k ∧ entries.length < room then
        (some { source := source, dest := dest, length := length, seq := seq,
                body := .survey j room (entries ++ [e]) marked } :: rest, true)
      else
        let x := writeEntry k e rest
        (s :: x.1, x.2)
    | _ =>
      let x := writeEntry k e rest
      (s :: x.1, x.2)

/-- Whether a slot is the last of a survey's message. -/
def isLastOf (k : Nat) : Option Slot → Bool
  | some { length := len, seq := q, body := .survey j _ _ _, .. } => j = k && q = len
  | _ => false

/-- Set the overflow mark in the last slot of a survey's message. -/
def markOverflow (k : Nat) (s : Option Slot) : Option Slot :=
  match s with
  | some { source, dest, length, seq, body := .survey j room entries marked } =>
    some { source := source, dest := dest, length := length, seq := seq,
           body := .survey j room entries (marked || (j = k && seq = length)) }
  | s => s

/-- R23: answer a survey from the slots of one cycle. -/
def Node.answerSurvey (fold : Nat) (x : Node × List (Option Slot)) (k : Nat) : Node × List (Option Slot) :=
  if x.1.ring.lastSurvey = some k then x
  else
    let n := x.1
    let told := { n with ring := { n.ring with lastSurvey := some k } }
    let w := writeEntry k { station := n.me, attach := n.ring.attach, foldSeen := fold } x.2
    if w.2 then (told, w.1)
    else if x.2.any (isLastOf k) then (told, x.2.map (markOverflow k))
    else x

/-- R23: every survey carried by a cycle. -/
def Node.answerSurveys (n : Node) (fold : Nat) (data : List (Option Slot)) : Node × List (Option Slot) :=
  ((data.filterMap surveyNumber).dedup).foldl (Node.answerSurvey fold) (n, data)

/-! ## Choosing and placing messages (R35) -/

/-- R35: whether a message of this length may be begun in a normal holding. -/
def Holding.fits (h : Holding) (length : Nat) : Bool := !h.started || decide (h.quota + length ≤ h.burst)

/-- R35: choose from the normal queue; a placeholder with no item left leaves it (R32). -/
def Node.chooseNormal (l : Loop) (h : Holding) : List NEntry → Node → Node × Option Begun
  | [], n => (n, none)
  | .msg m :: rest, n =>
    if m.begun.isSome then Node.chooseNormal l h rest n
    else if h.fits m.msg.length then (n, some { src := .normal m.id, slots := slotsOf m.msg })
    else (n, none)
  | .batch id k _ leaving :: rest, n =>
    if leaving then Node.chooseNormal l h rest n
    else
      let n := n.bindLoop k l
      if n.coll.boundTo k l then
        match n.nextItem k with
        | none => Node.chooseNormal l h rest (n.onSvc fun s => s.dropEntry (NEntry.isPlace id))
        | some m => if h.fits m.length then (n, some { src := .item id k, slots := slotsOf m }) else (n, none)
      else (n, none)

/-- R35: the next message to begin in a holding of a loop. That a SURVEY which the burst quota keeps from beginning ends
the choice is deduced from the order (log entry 107). -/
def Node.choose (n : Node) (l : Loop) (h : Holding) : Node × Option Begun :=
  if h.handOver.isSome then (n, none)
  else match n.svc.queues.emergency.find? (·.begun.isNone) with
    | some m => (n, some { src := .emergency m.id, slots := slotsOf m.msg })
    | none =>
      if h.directed then (n, none)
      else match n.win.survey, l with
        | some k, .outer =>
          if h.fits 8 then (n, some { src := .survey, slots := surveySlots n.me k }) else (n, none)
        | _, _ => Node.chooseNormal l h n.svc.queues.normal n

/-- Mark a queued message begun on a loop. -/
def Queues.begin (q : Queues) (src : BegunSrc) (l : Loop) : Queues :=
  let mark (m : QMsg) (id : Nat) : QMsg := if m.id = id then { m with begun := some l } else m
  match src with
  | .emergency id => { q with emergency := q.emergency.map fun m => mark m id }
  | .normal id =>
    let markN (e : NEntry) : NEntry :=
      match e with
      | .msg m => .msg (mark m id)
      | .batch j k b v => .batch j k b v
    { q with normal := q.normal.map markN }
  | .item _ _ => q
  | .survey => q

/-- What follows when the first slot of a message is placed. -/
def Node.firstPlaced (n : Node) (l : Loop) (b : Begun) : Node :=
  let n := n.onSvc fun s => { s with queues := s.queues.begin b.src l }
  match b.src, b.slots with
  | .survey, _ => n.onWin fun w => { w with survey := none }
  | .item id k, { body := .message (.batchItem _ _ _ _ (.void _)), .. } :: _ => n.itemSent id k true
  | .item id k, _ => n.itemSent id k false
  | _, { body := .message (.collectAsk batch _ _), .. } :: _ => n.askPlaced batch
  | _, _ => n

/-- R31, R32: a message is over; it leaves its queue. -/
def Node.messageOver (n : Node) (src : BegunSrc) : Node :=
  match src with
  | .item id _ => n.itemOver id
  | src => n.onSvc fun s => s.leave src

/-- Set the holding of a loop. -/
def Node.setHolding (n : Node) (l : Loop) (h : Option Holding) : Node :=
  n.onLoop l fun s => { s with holding := h }

/-- R35: place the next slot of a begun message; the slot, and the node after it. -/
def Node.placeNext (n : Node) (l : Loop) (h : Holding) (b : Begun) : Node × Option Slot :=
  match b.slots with
  | [] => ((n.setHolding l (some { h with begun := none })).messageOver b.src, none)
  | [s] => ((n.setHolding l (some { h with begun := none, quota := h.quota + 1 })).messageOver b.src, some s)
  | s :: rest =>
    (n.setHolding l (some { h with begun := some { b with slots := rest }, quota := h.quota + 1 }), some s)

/-- R35: a holder places into empty data slots in slot order, `room` of them at most. -/
def Node.place (l : Loop) : (room : Nat) → List (Option Slot) → Node → Node × List (Option Slot)
  | _, [], n => (n, [])
  | 0, data, n => (n, data)
  | room + 1, some s :: rest, n =>
    let x := Node.place l (room + 1) rest n
    (x.1, some s :: x.2)
  | room + 1, none :: rest, n =>
    match (n.win.loop l).holding with
    | none => (n, none :: rest)
    | some h =>
      match h.begun with
      | some b =>
        let y := n.placeNext l h b
        let x := Node.place l room rest y.1
        (x.1, y.2 :: x.2)
      | none =>
        match n.choose l h with
        | (n, none) => (n, none :: rest)
        | (n, some b) =>
          let h := { h with started := true }
          let y := (n.firstPlaced l b).placeNext l h b
          let x := Node.place l room rest y.1
          (x.1, y.2 :: x.2)

/-- The data window of a passage with what the holder places. -/
def Node.placeData (n : Node) (l : Loop) (data : List (Option Slot)) : Node × List (Option Slot) :=
  Node.place l Config.slotsPerCycle data n

/-- R36, R43: a holding ends; a begun message leaves its queue as though sent. -/
def Node.endHolding (n : Node) (l : Loop) : Node :=
  match (n.win.loop l).holding with
  | none => n
  | some h =>
    let n := n.setHolding l none
    match h.begun with
    | none => n
    | some b => n.messageOver b.src

/-- R36: a holder discards its own token. -/
def Node.discardToken (n : Node) (l : Loop) : Node :=
  (n.endHolding l).onWin fun w => { w with duplicate := bump Config.wordMax w.duplicate }

/-! ## The management slot at a wayside (R34, R36, R38, R40, R41) -/

/-- R34: something to send on a loop; a SURVEY waits for the outer loop (R22). -/
def Node.hasWork (n : Node) (l : Loop) : Bool :=
  !n.svc.queues.emergency.isEmpty || !n.svc.queues.normal.isEmpty || (l = .outer && n.win.survey.isSome)

/-- R38: requesting clear-way on a loop. -/
def Node.requesting (n : Node) (l : Loop) : Bool :=
  let s := n.win.loop l
  !n.svc.queues.emergency.isEmpty && s.holding.isNone && !s.cwLock && s.present

/-- R35: a holding as it is taken. -/
def Node.newHolding (n : Node) (directed : Bool) : Holding :=
  { directed := directed, quota := 0, burst := n.set.burstQuota, started := false, begun := none,
    handOver := none }

/-- R34, R41: take a directed holding. -/
def Node.takeDirected (n : Node) (l : Loop) : Node :=
  n.onLoop l fun s => { s with holding := some (n.newHolding true), cwLock := true }

/-- R34: take a normal holding and record the lap count. -/
def Node.takeNormal (n : Node) (l : Loop) (lap : Nat) : Node :=
  n.onLoop l fun s => { s with holding := some (n.newHolding false), lapLock := some lap }

/-- R38: a wayside that holds no token writes or removes its own number in the clear-way field. -/
def Node.writeClearWay (n : Node) (l : Loop) (m : Mgmt) : Mgmt :=
  if n.requesting l then
    match m.clearWay with
    | none => { m with clearWay := some n.me }
    | some _ => m
  else if m.clearWay = some n.me then { m with clearWay := none } else m

/-- R34: the token field seen by a wayside that does not hold the loop's token. -/
def Node.passToken (n : Node) (l : Loop) (m : Mgmt) : Node × Mgmt :=
  let taken : Mgmt := { m with token := .empty, clearWay := none }
  let pass : Node × Mgmt := (n, n.writeClearWay l m)
  match m.token with
  | .empty => pass
  | .directed x => if x = n.me then (n.takeDirected l, taken) else pass
  | .free =>
    match m.clearWay with
    | some y =>
      if y = n.me then (n.takeDirected l, taken) else (n, { m with token := .directed y })
    | none =>
      if (n.win.loop l).lapLock.isNone then
        if n.hasWork l then (n.takeNormal l m.lap, { m with token := .empty }) else pass
      else if n.requesting l then (n.takeDirected l, taken)
      else pass

/-- R41: after the holding has ended, a slot carrying FREE or DIRECTED ends the clear-way lock. The token of that slot is
judged with the lock still set (log entry 59). A slot in which a holding ends does not end the lock (log entry 105). -/
def Node.passLock (n : Node) (l : Loop) (m : Mgmt) : Node × Mgmt :=
  let unlock := decide (m.token ≠ .empty)
  let x := n.passToken l m
  match (x.1.win.loop l).holding with
  | some h =>
    (x.1.onLoop l fun s => { s with cwLock := if unlock && !h.directed then false else s.cwLock }, x.2)
  | none => (x.1.onLoop l fun s => { s with cwLock := if unlock then false else s.cwLock }, x.2)

/-- R36, R40: the management slot seen by a holder. That the slot in which its holding ends does not end its clear-way
lock (R41) is the model's choice (log entry 105). -/
def Node.holderPassage (n : Node) (l : Loop) (h : Holding) (m : Mgmt) : Node × Mgmt :=
  if m.token ≠ .empty then (n.discardToken l, m)
  else
    let other := m.clearWay.filter (· ≠ n.me)
    let h := { h with handOver := h.handOver.orElse fun _ => other }
    let m := if m.clearWay = some n.me then { m with clearWay := none } else m
    let n := n.setHolding l (some h)
    match h.begun, h.handOver with
    | some _, _ => (n, m)
    | none, some y => (n.setHolding l none, { m with token := .directed y })
    | none, none =>
      match n.choose l h with
      | (n, some _) => (n, m)
      | (n, none) => (n.setHolding l none, { m with token := .free })

/-- R34: at the first passage of a management slot. -/
def Node.mgmtPassage (n : Node) (l : Loop) (m : Mgmt) : Node × Mgmt :=
  let n := n.onLoop l fun s =>
    { s with present := true, lastSeen := n.svc.now, lastLap := some m.lap,
             lapLock := s.lapLock.filter (· = m.lap) }
  match (n.win.loop l).holding with
  | some h => n.holderPassage l h m
  | none => n.passLock l m

/-- R43: a loop ceases to be present at a wayside. -/
def Node.loopEnds (n : Node) (l : Loop) : Node :=
  let n := n.endHolding l
  let n := n.onLoop l fun s => { s with present := false, lapLock := none, cwLock := false }
  let n := n.onWin fun w => w.discardPartials fun q => q.loop = l
  n.onColl fun c => c.unbind l

/-! ## The head-end (R33, R37–R42, R44) -/

/-- Whether the head-end originates a loop. -/
def Node.originates (n : Node) : Loop → Bool
  | .outer => n.head.started
  | .inner => n.head.started && decide (n.head.state = .closed) && decide (n.head.origin = .east)

/-- R37: the loop's token-loss timer restarted, or stopped where R37 says so. -/
def Node.restartLoss (n : Node) (l : Loop) : Node :=
  let on := n.originates l && decide (n.head.state ≠ .opened) && (n.win.loop l).holding.isNone
  n.onLoop l fun s => { s with timer := if on then some n.svc.now else none }

/-- R33: origination of a loop begins. R43 gives presence at a wayside alone: that a loop is present at the head-end from
the beginning of its origination, where R46 tells of each loop present, is the model's choice (log entry 86). -/
def Node.beginLoop (n : Node) (l : Loop) : Node :=
  (n.onLoop l fun s =>
    { s with lap := (s.lap + 1) % 256, carried := none, opening := true, present := true }).restartLoss l

/-- R44: the head-end's inner loop ends. Its lap lock and its clear-way lock stay (log entry 58). That it is present until
then, also while a cycle of its own is not originated, is the model's choice (log entry 86). -/
def Node.endInner (n : Node) : Node :=
  (n.endHolding .inner).onLoop .inner fun s =>
    { s with carried := none, clearWay := none, cwFirst := none, timer := none, record := none, opening := false,
             present := false }

/-- R33, R42: a token in a stripped slot. -/
def Node.acceptToken (n : Node) (l : Loop) (m : Mgmt) : Node :=
  if m.token = .empty then n
  else
    let s := n.win.loop l
    if m.lap = s.lap ∧ s.holding = none then
      let untaken : Option Nat :=
        match m.token, s.record with
        | .directed x, some y => if x = y then some x else none
        | _, _ => none
      let n := match untaken with
        | none => n.onLoop l fun s => { s with lap := (s.lap + 1) % 256, carried := some m.token }
        | some x =>
          (n.onLoop l fun s =>
            { s with lap := (s.lap + 1) % 256, carried := some .free,
                     clearWay := s.clearWay.filter (· ≠ x),
                     cwFirst := if s.clearWay = some x then none else s.cwFirst }).post
            .clearWayUntaken .none [.loop l, .nat x]
      n.restartLoss l
    else n.onWin fun w => { w with duplicate := bump Config.wordMax w.duplicate }

/-- R39: whether cycle `k` was originated no earlier than cycle `first`; numbers are compared modulo 65536 within
half their range (log entry 15). -/
def notBefore (k first : Nat) : Bool :=
  decide ((k + Config.cycleNumberWrap - first) % Config.cycleNumberWrap < 32768)

/-- R39: the clear-way field of a stripped slot of cycle `k`. -/
def Node.learnClearWay (n : Node) (l : Loop) (k : Nat) (m : Mgmt) : Node :=
  n.onLoop l fun s =>
    match s.clearWay, m.clearWay with
    | none, some x => if x = n.me then s else { s with clearWay := some x, cwFirst := none }
    | some x, none =>
      match s.cwFirst with
      | some f => if x ≠ n.me ∧ notBefore k f = true then { s with clearWay := none, cwFirst := none } else s
      | none => s
    | _, _ => s

/-- R41: at the head-end a stripped slot carrying FREE or DIRECTED ends its clear-way lock once its holding has
ended (log entry 14). -/
def Node.stripLock (n : Node) (l : Loop) (m : Mgmt) : Node :=
  n.onLoop l fun s =>
    { s with cwLock := if m.token ≠ .empty ∧ s.holding = none then false else s.cwLock }

/-- R33, R39, R42: the management slot of a stripped cycle. That its clear-way field is taken before its token is judged
is the model's choice (log entry 106). -/
def Node.stripMgmt (n : Node) (l : Loop) (k : Nat) (m : Mgmt) : Node :=
  ((n.learnClearWay l k m).stripLock l m).acceptToken l m

/-- R30: messages discarded at a strip, each counted at its first slot (log entry 17). -/
def discardedAt (data : List (Option Slot)) : Nat :=
  (data.filter fun s =>
    match s with
    | some { seq := 1, body := .message _, .. } => true
    | _ => false).length

/-- R30: the data window of a stripped cycle; the survey slots in it go to RING. -/
def Node.stripData (n : Node) (l : Loop) (data : List (Option Slot)) : Node × List Slot :=
  let x := n.takeData l data
  (x.1.onWin fun w => { w with undelivered := bumpBy Config.wordMax (discardedAt x.2) w.undelivered },
    x.2.filterMap fun s => if (surveyNumber s).isSome then s else none)

/-- R38: the head-end requests clear-way by setting the loop's value. -/
def Node.headRequests (n : Node) (l : Loop) : Node :=
  if n.requesting l then
    n.onLoop l fun s => { s with clearWay := s.clearWay.orElse fun _ => some n.me }
  else n

/-- R33, R38: the head-end takes the loop's token; its own request ends. -/
def Node.headTakes (n : Node) (l : Loop) (directed : Bool) : Node :=
  let n := if directed then n.takeDirected l else n.takeNormal l (n.win.loop l).lap
  n.onLoop l fun s => { s with timer := none, clearWay := s.clearWay.filter (· ≠ n.me) }

/-- R33: the accepted token carried forward; the token field of the originated slot. A FREE token that the head-end takes
while the loop's clear-way value names the head-end itself begins a normal holding: the manual does not say which kind,
and this is the model's choice (log entry 68). -/
def Node.carryToken (n : Node) (l : Loop) (t : TokenField) : Node × TokenField :=
  match t with
  | .empty => (n, .empty)
  | .directed x => if x = n.me then (n.headTakes l true, .empty) else (n, .directed x)
  | .free =>
    match ((n.win.loop l).clearWay).filter (· ≠ n.me) with
    | some x => (n, .directed x)
    | none => if n.hasWork l then (n.headTakes l false, .empty) else (n, .free)

/-- R36, R40: the head-end's own holding at an originated slot. -/
def Node.headHolding (n : Node) (l : Loop) (h : Holding) : Node × TokenField :=
  let other := ((n.win.loop l).clearWay).filter (· ≠ n.me)
  let h := { h with handOver := h.handOver.orElse fun _ => other }
  let n := n.setHolding l (some h)
  match h.begun, h.handOver with
  | some _, _ => (n, .empty)
  | none, some y => ((n.setHolding l none).restartLoss l, .directed y)
  | none, none =>
    match n.choose l h with
    | (n, some _) => (n, .empty)
    | (n, none) => ((n.setHolding l none).restartLoss l, .free)

/-- R33: the token field of an originated slot. -/
def Node.tokenField (n : Node) (l : Loop) : Node × TokenField :=
  let s := n.win.loop l
  if s.opening then (n.onLoop l fun s => { s with opening := false, carried := none }, .free)
  else match s.holding with
    | some h => n.headHolding l h
    | none =>
      let n := n.onLoop l fun s => { s with carried := none }
      match s.carried with
      | none => (n, .empty)
      | some t => n.carryToken l t

/-- R42: the station to which the token was last sent directed: the one that an originated DIRECTED field names; any
other token field clears the record. That the EMPTY field of a slot originated without a token is one of them is the model's
choice (log entry 112). -/
def newRecord : TokenField → Option Nat
  | .directed x => some x
  | .free => none
  | .empty => none

/-- R33, R39: the management slot of a cycle that the head-end originates with number `k`. R34 ends a lap lock at the first
slot with another lap count to pass: that at the head-end this is the slot it originates, not the one it strips, is the
model's choice (log entry 87). -/
def Node.originateMgmt (n : Node) (l : Loop) (k : Nat) : Node × Mgmt :=
  let x := (n.headRequests l).tokenField l
  let n := x.1.onLoop l fun s =>
    { s with record := newRecord x.2, lastLap := some s.lap, lapLock := s.lapLock.filter (· = s.lap),
             cwFirst := if s.clearWay.isSome then s.cwFirst.orElse fun _ => some k else none }
  (n, { token := x.2, clearWay := (n.win.loop l).clearWay, lap := (n.win.loop l).lap })

/-- R37: the token-loss count of a loop reaches the limit. -/
def Node.tokenLost (n : Node) (l : Loop) : Node :=
  match (n.win.loop l).timer with
  | none => n
  | some t =>
    if n.set.tokenLossLimit ≤ n.svc.now - t then
      let n := n.onLoop l fun s =>
        { s with lap := (s.lap + 1) % 256, carried := some .free, timer := some n.svc.now,
                 reissued := bump Config.wordMax s.reissued }
      n.post .tokenReissued .none [.loop l, .nat (n.win.loop l).lap]
    else n

/-! ## Window status (R46) -/

/-- R46: what is told of a loop that is present. -/
def Node.loopReport (n : Node) (l : Loop) : Value :=
  let s := n.win.loop l
  if s.present then
    .list [Value.opt (fun h : Holding => .list [.flag h.directed, .nat h.quota]) s.holding,
      Value.opt .nat s.lastLap, .flag s.lapLock.isSome, .flag s.cwLock, .flag (n.requesting l)]
  else .absent

/-- R46: what the head-end tells besides of each loop. -/
def Node.headLoopReport (n : Node) (l : Loop) : Value :=
  let s := n.win.loop l
  .list [Value.opt .nat s.clearWay, Value.opt (fun t => .nat (n.svc.now - t)) s.timer, .nat s.reissued]

/-- R46: producers that hold a refused message. NOTE, which discards a refused NOTICE-FWD and builds it again, counts while
CENTRE entries wait for a NOTICE-FWD that the queue has no place or buffers for: the model's choice (log entry 77). -/
def Node.holdingProducers (n : Node) : Nat :=
  (if n.call.held.isEmpty then 0 else 1) + (if n.cmd.refused.isEmpty then 0 else 1) +
    (if n.coll.heldH.isEmpty && n.coll.heldW.isEmpty then 0 else 1) +
    (if !n.isHead && n.svc.note.queue.any (·.toCentre) &&
        decide ((n.svc.queues.normal.filter NEntry.isNoticeFwd).length < 2) then 1 else 0)

/-- R46: WINDOW-STATUS. Each batch placeholder counts as one message of the normal queue, which is the model's choice (log
entry 78). -/
def Node.windowStatus (n : Node) : Value :=
  .list
    ([.list [n.loopReport .outer, n.loopReport .inner], .nat n.svc.queues.emergency.length,
      .nat n.svc.queues.normal.length, .nat n.holdingProducers, .nat n.win.duplicate, .nat n.win.incomplete] ++
      if n.isHead then [.nat n.win.undelivered, n.headLoopReport .outer, n.headLoopReport .inner] else [])

end Sys2Proof.Machine
end

