-- ==== Sys2Proof/Machine/Link.lean ====
section
/-! DEFINITION. LINK and the wayside's RING (01 sections 1.2, 1.3, 1.6): port states, markers, attachment, folding, node time and the passage of a cycle. -/

namespace Sys2Proof.Machine

/-! ## Node time (1.6) -/

/-- R4: the error windows of both ports turn over when the seconds count of node time changes. -/
def turnWindow (r : Port) : Port := { r with errLast := r.errNow, errNow := 0 }

/-- R4, R20, R21: node time takes a value. -/
def Node.setTime (n : Node) (t : NodeTime) : Node :=
  let turned := decide (t.seconds ≠ n.svc.time.seconds)
  let n := n.onSvc fun s => { s with time := t }
  if turned then { n with east := turnWindow n.east, west := turnWindow n.west } else n

/-- R2: at the start of a cycle period RING has directed no cycle out of a port. -/
def Port.idle (r : Port) : Port := { r with sent := none }

/-- R20, R21: one cycle period passes. -/
def Node.passPeriod (n : Node) : Node :=
  let n := n.onSvc fun s => { s with now := s.now + 1 }
  let n := { n with east := n.east.idle, west := n.west.idle }
  n.setTime (advanceTime n.svc.time)

/-! ## The origin port at the head-end (R17) -/

/-- R17: the origin port becomes WEST; the inner loop is no longer originated. -/
def Node.originWest (n : Node) : Node :=
  { n with head := { n.head with origin := .west } }.onLoop .inner fun s => { s with timer := none }

/-- R17: the origin port becomes EAST and the flag is cleared. An inner loop originated again has its token-loss timer
restarted from 0, and no new FREE token (log entry 56). -/
def Node.originEast (n : Node) : Node :=
  let n := { n with head := { n.head with origin := .east, restoring := false, timer := none } }
  if n.head.state = .closed then n.restartLoss .inner else n

/-- R17: the head-end's EAST port leaves or reaches RUN. -/
def Node.headPort (n : Node) (p : PortId) (run : Bool) : Node :=
  match p, run, n.head.origin with
  | .east, false, .east => n.originWest
  | .east, false, .west => { n with head := { n.head with restoring := false, timer := none } }
  | .east, true, .west =>
    { n with head := { n.head with restoring := true, timer := some (n.svc.now + secs n.set.waitToRestore) } }
  | _, _, _ => n

/-! ## Attachment (R14–R16) -/

/-- R16: the attachment state changes; WIN and CALL are told, and what stands in the relay path is lost. -/
def Node.setAttach (n : Node) (new : Attach) : Node :=
  let old := n.ring.attach
  let n := { n with ring := { n.ring with attach := new } }
  let n := n.post .attachState .none [.attach old, .attach new]
  let n := { n with east := { n.east with sent := none }, west := { n.west with sent := none } }
  let n := n.onWin fun w => w.discardPartials fun _ => true
  if new = .orphan then
    let n := { n with ring := { n.ring with restoring := false, timer := none, lastSurvey := none } }
    let n := n.onSvc fun s => { s with time := { s.time with sync := false } }
    ((n.loopEnds .outer).loopEnds .inner).callOrphan
  else if old = .orphan then n.callRejoin
  else n

/-- R15: the restoring flag is cleared and the timer stopped. -/
def Node.stopRestoring (n : Node) : Node :=
  { n with ring := { n.ring with restoring := false, timer := none } }

/-- R15: the failed port has returned. -/
def Node.startRestoring (n : Node) : Node :=
  { n with ring := { n.ring with restoring := true, timer := some (n.svc.now + secs n.set.waitToRestore) } }

/-- R15: the node opens out. -/
def Node.openOut (n : Node) : Node := n.stopRestoring.setAttach .through

/-- The fold toward a port. -/
def foldTo : PortId → Attach
  | .east => .foldEast
  | .west => .foldWest

/-- R14, R15: a port that is the failed one of a fold leaves or reaches RUN. -/
def Node.failedPort (n : Node) (run : Bool) : Node := if run then n.startRestoring else n.stopRestoring

/-- R14: the port that a folded node relies on leaves RUN. -/
def Node.goodPortLost (n : Node) (p : PortId) : Node :=
  if (n.port (otherPort p)).state = .run then n.stopRestoring.setAttach (foldTo p) else n.setAttach .orphan

/-- R14, R15: a wayside's port `p` leaves or reaches RUN. -/
def Node.waysidePort (n : Node) (p : PortId) (run : Bool) : Node :=
  match n.ring.attach with
  | .through => if run then n else n.setAttach (foldTo p)
  | .foldEast =>
    match p with
    | .east => n.failedPort run
    | .west => if run then n else n.goodPortLost .west
  | .foldWest =>
    match p with
    | .west => n.failedPort run
    | .east => if run then n else n.goodPortLost .east
  | .orphan =>
    if run && decide ((n.port (otherPort p)).state ≠ .run) then n.setAttach (foldTo (otherPort p)) else n

/-! ## Port states (R5–R11) -/

/-- States of PROBE. -/
def PortState.isProbe : PortState → Bool
  | .probeSend => true
  | .probeEcho => true
  | _ => false

/-- R2: states in which a port sends what RING directs. -/
def PortState.carries : PortState → Bool
  | .align => true
  | .run => true
  | .recover => true
  | _ => false

/-- R4: states in which LINK classifies markers. -/
def PortState.classifies : PortState → Bool
  | .align => true
  | .run => true
  | .recover => true
  | .loopback => true
  | _ => false

/-- R4, R5: a port enters a state. That a change between the sub-states of PROBE, and a PORT-RESET in PROBE.SEND, enter a
state as any other change does is the model's choice (log entry 111). -/
def Port.enter (r : Port) (now : Nat) (new : PortState) : Port :=
  let dark := decide (new = .dark ∨ new = .disabled)
  { r with state := new, good := 0, missing := 0, errNow := 0, markerSeen := false, entered := now, sent := none,
           neighbour := if dark then none else r.neighbour,
           conflict := r.conflict && !dark }

/-- R11: a change of port state is posted, but between the sub-states of PROBE, and RING is told. -/
def Node.changePort (n : Node) (p : PortId) (new : PortState) (cause : PortCause) : Node :=
  let old := (n.port p).state
  let n := n.onPort p fun r => r.enter n.svc.now new
  let n := if old = new ∨ (PortState.isProbe old = true ∧ PortState.isProbe new = true) then n
    else n.post .portState (.linePort p) [.portState old, .portState new, .portCause cause]
  let wasRun := decide (old = .run)
  let isRun := decide (new = .run)
  if wasRun = isRun then n
  else if n.isHead then n.headPort p isRun else n.waysidePort p isRun

/-- R5: a port in DARK whose transmitter has been started receives light. -/
def Node.seeLight (n : Node) (p : PortId) : Node :=
  let r := n.port p
  if r.state = .dark ∧ r.transmit = true ∧ n.pins.light p = true then n.changePort p .probeSend .lightSeen else n

/-- R5: a port loses light. -/
def Node.loseLight (n : Node) (p : PortId) : Node :=
  let st := (n.port p).state
  if PortState.isProbe st || PortState.carries st then n.changePort p .dark .lightLost else n

/-- R6, R7: a port has entered PROBE.ECHO and learned its partner. -/
def Node.learnPartner (n : Node) (p : PortId) (b : Probe) : Node :=
  let n := n.onPort p fun r => { r with neighbour := some (b.station, b.role) }
  if n.isHead && decide (b.role = .headEnd) then
    (n.onPort p fun r => { r with conflict := true }).post .roleConflict (.linePort p) [.nat b.station]
  else n

/-- R6, R7: a partner's probe arrives. A probe that ends a role conflict also records the partner it declares (log
entry 55). -/
def Node.probe (n : Node) (p : PortId) (b : Probe) : Node :=
  match (n.port p).state with
  | .probeSend =>
    let n := (n.changePort p .probeEcho .probeSeen).learnPartner p b
    if b.echo && !(n.port p).conflict then n.changePort p .align .probeSeen else n
  | .probeEcho =>
    if (n.port p).conflict then
      if b.role = .headEnd then n
      else
        let n := n.onPort p fun r => { r with conflict := false, neighbour := some (b.station, b.role) }
        if b.echo then n.changePort p .align .probeSeen else n
    else if b.echo then n.changePort p .align .probeSeen else n
  | .align => (n.changePort p .probeEcho .probeSeen).learnPartner p b
  | .run => (n.changePort p .probeEcho .probeSeen).learnPartner p b
  | .recover => (n.changePort p .probeEcho .probeSeen).learnPartner p b
  | _ => n

/-- R6: the partner has moved on to ALIGN. -/
def Node.partnerMovedOn (n : Node) (p : PortId) : Node :=
  let r := n.port p
  if r.state = .probeEcho ∧ r.conflict = false then n.changePort p .align Config.movedOnCause else n

/-- R4: a good, bad (`false`) or missing marker moves the runs. -/
def Port.countMarker (r : Port) (good : Bool) : Port :=
  if good then { r with good := bump Config.byteMax r.good, missing := 0 }
  else { r with good := 0, missing := bump Config.byteMax r.missing }

/-- R8, R9: the change of state that the runs and the error count bring. The error threshold is compared when coding
errors have been counted, so that a new value applies from the next one counted. The manual does not say which cause a
port tells when one arrival brings both the third missing marker and an error count above the threshold: MARKERS-MISSING
is the model's choice (log entry 67). -/
def Node.judgePort (n : Node) (p : PortId) (errors : Nat) : Node :=
  let r := n.port p
  match r.state with
  | .align => if Config.alignRun ≤ r.good then n.changePort p .run .markersGood else n
  | .recover => if Config.alignRun ≤ r.good then n.changePort p .run .markersGood else n
  | .run =>
    if Config.missLimit ≤ r.missing then n.changePort p .recover .markersMissing
    else if 0 < errors ∧ n.set.errorThreshold < r.errNow then n.changePort p .recover .errors
    else n
  | _ => n

/-- R4: coding errors add to the current window, at a port that takes note of its receiver. -/
def Port.addErrors (r : Port) (errors : Nat) : Port :=
  match r.state with
  | .disabled => r
  | .dark => r
  | _ => { r with errNow := r.errNow + errors }

/-- R4: a marker received at a port is classified and counted. -/
def Node.classify (n : Node) (p : PortId) (good : Bool) (errors : Nat) : Node :=
  let n := n.onPort p fun r =>
    let r := r.addErrors errors
    if PortState.classifies r.state then { r.countMarker good with markerSeen := true } else r
  n.judgePort p errors

/-- R4: a marker is missing at a port that expects one. -/
def Node.markerMissing (n : Node) (p : PortId) (errors : Nat) : Node :=
  let n := n.onPort p fun r =>
    let r := r.addErrors errors
    if PortState.classifies r.state && r.markerSeen then r.countMarker false else r
  n.judgePort p errors

/-- R9: 200 cycle periods have passed in RECOVER. -/
def Node.recoverExpired (n : Node) (p : PortId) : Node :=
  let r := n.port p
  if r.state = .recover ∧ Config.recoverLimit ≤ n.svc.now - r.entered then
    n.changePort p .probeSend .recoverExpired
  else n

/-! ## The passage of a cycle through a wayside (R3, R13, R15) -/

/-- R3: the number remembered for a schedule. -/
def Ring.lastNumber (r : Ring) : Loop → Option Nat
  | .outer => r.lastOuter
  | .inner => r.lastInner

/-- R3: whether a passage is the first of the cycle with that number and schedule. It is not when the number is the one
remembered for the schedule or lies behind it by fewer cycles than a cycle takes to come back; the number is kept until a
full reset, whether the loop is present or not. How the numbers are compared is the model's choice (log entry 69). -/
def Node.firstPassage (n : Node) (c : Cycle) : Bool :=
  match n.ring.lastNumber c.loop with
  | none => true
  | some last => decide (Config.lapMost ≤ (last + Config.cycleNumberWrap - c.marker.number) % Config.cycleNumberWrap)

/-- R3, R27: remember the cycle handed on. R3 hands a later passage to WIN too; that the number and the voice cap are
remembered at first passages alone is the model's choice (log entry 96). -/
def Ring.remember (r : Ring) (c : Cycle) : Ring :=
  match c.loop with
  | .outer => { r with lastOuter := some c.marker.number, lastCap := some c.marker.voiceCap }
  | .inner => { r with lastInner := some c.marker.number }

/-- R3, R30, R34, R35: WIN's part in a first passage. -/
def Node.winPassage (n : Node) (c : Cycle) (k : Content) : Node × Content :=
  let x := n.takeData c.loop k.data
  let x := x.1.answerSurveys c.marker.foldCount x.2
  let m := x.1.mgmtPassage c.loop k.mgmt
  let d := m.1.placeData c.loop x.2
  (d.1, { k with mgmt := m.2, data := d.2 })

/-- R3: a full cycle passes through a wayside: WIN at every passage, CALL and ZONE at the first of an outer cycle. A
wayside that is ORPHAN reads no voice slot (R60). R43: a later passage makes its loop present too, and leaves the moment
of the last first passage as it was, which is the model's choice (log entry 94). The cycle is remembered at a first passage
alone (log entry 96). -/
def Node.passage (n : Node) (c : Cycle) (k : Content) : Node × Content :=
  if n.firstPassage c then
    let n := { n with ring := n.ring.remember c }
    let x := n.winPassage c k
    match c.loop with
    | .inner => x
    | .outer =>
      let v : Node × List VoiceSlot :=
        if x.1.ring.attach = .orphan then (x.1, x.2.voice)
        else x.1.voicePassage c.marker.voiceCap x.2.voice
      let n := match c.marker.releaseTag with
        | some t => v.1.receiveTag t
        | none => v.1
      (n, { x.2 with voice := v.2 })
  else
    let x := n.takeData c.loop k.data
    (x.1.onLoop c.loop fun s => { s with present := true }, { k with data := x.2 })

/-- A cycle with what its passage left in it. -/
def Node.passCycle (n : Node) (c : Cycle) : Node × Cycle :=
  match c.content with
  | none => (n, c)
  | some k =>
    let x := n.passage c k
    (x.1, { c with content := some x.2 })

/-- R2, R10, R13: RING directs a cycle out of a port. A port in ALIGN, RUN or RECOVER sends it. One in LOOPBACK has it
returned to its own receiver, where its marker is counted as a good one (log entry 54). -/
def Port.direct (r : Port) (c : Cycle) : Port :=
  if PortState.carries r.state then { r with sent := some c }
  else if r.state = .loopback then { r.countMarker true with markerSeen := true }
  else r

/-- R2, R10, R13: RING directs a cycle out of the port with this name. -/
def Node.direct (n : Node) (p : PortId) (c : Cycle) : Node := n.onPort p fun r => r.direct c

/-- R13: a turned cycle. -/
def Cycle.turned (c : Cycle) : Cycle :=
  { c with marker := { c.marker with foldCount := bump Config.byteMax c.marker.foldCount } }

/-- R13: a bare copy. -/
def Cycle.bare (c : Cycle) : Cycle := { c with content := none }

/-- R13: a cycle arriving at the port a folded node relies on is turned, and a bare copy goes the other way. -/
def Node.turn (n : Node) (p : PortId) (c : Cycle) : Node :=
  let x := n.passCycle c
  let t := Cycle.turned x.2
  (x.1.direct p t).direct (otherPort p) (Cycle.bare t)

/-- R13: a cycle is relayed straight through from a port in ALIGN or RUN. -/
def Node.relay (n : Node) (p : PortId) (c : Cycle) : Node :=
  if (n.port p).state = .align ∨ (n.port p).state = .run then
    let x := n.passCycle c
    x.1.direct (otherPort p) x.2
  else n

/-- R15: a full cycle at the failed port of a restoring node opens it out. -/
def Node.earlyEnd (n : Node) (c : Cycle) : Node :=
  if n.ring.restoring && c.content.isSome then n.openOut else n

/-- R13, R15: what a wayside does with an arriving cycle, by its attachment state. -/
def Node.directArrival (n : Node) (p : PortId) (c : Cycle) : Node :=
  match n.ring.attach, p with
  | .through, _ => n.relay p c
  | .orphan, _ => n.relay p c
  | .foldEast, .west => n.turn .west c
  | .foldEast, .east => n.earlyEnd c
  | .foldWest, .east => n.turn .east c
  | .foldWest, .west => n.earlyEnd c

/-- R14, R21: a good marker gives node time and is remembered. -/
def Node.adoptTime (n : Node) (m : Marker) : Node :=
  let n := n.setTime { seconds := m.time.seconds, cycle := m.time.cycle, sync := true }
  { n with ring := { n.ring with lastGood := n.svc.now } }

/-- R4, R11, R13, R21: a cycle arrives at a port of a wayside. RING acts on it as the attachment state stood when it
arrived; the port's own change follows. That the coding errors of a cycle whose marker changes the seconds count in the
new error window is the model's choice (log entry 104). -/
def Node.arrives (n : Node) (p : PortId) (c : Cycle) (good : Bool) (errors : Nat) : Node :=
  let n :=
    if PortState.carries (n.port p).state then
      let n := if good then n.adoptTime c.marker else n
      n.directArrival p c
    else n
  n.classify p good errors

/-- R14: no good marker for 3 cycle periods. -/
def Node.noGoodMarker (n : Node) : Node :=
  if n.ring.attach ≠ .orphan ∧ Config.missLimit ≤ n.svc.now - n.ring.lastGood then n.setAttach .orphan else n

/-- R15: the wait-to-restore timer expires. -/
def Node.restoreExpires (n : Node) : Node :=
  if n.ring.restoring && due n.svc.now n.ring.timer then n.openOut else n

/-- R43: a loop has had no first passage for 3 cycle periods. -/
def Node.loopCeases (n : Node) (l : Loop) : Node :=
  let s := n.win.loop l
  if s.present && decide (Config.missLimit ≤ n.svc.now - s.lastSeen) then n.loopEnds l else n

/-! ## Port commands (R12) -/

/-- R12: the port that an argument names, 1 EAST or 2 WEST (10 section 10.7). -/
def portOf : Nat → Option PortId
  | 1 => some .east
  | 2 => some .west
  | _ => none

/-- R12: PORT-ENABLE. -/
def Node.portEnable (n : Node) (a : Nat) : Node × Status × Value :=
  match portOf a with
  | none => (n, .badArgument, .nil)
  | some p =>
    if (n.port p).state = .disabled then ((n.changePort p .dark .command).seeLight p, .done, .nil)
    else (n, .wrongState, .nil)

/-- R12: PORT-DISABLE. -/
def Node.portDisable (n : Node) (a : Nat) : Node × Status × Value :=
  match portOf a with
  | none => (n, .badArgument, .nil)
  | some p =>
    if (n.port p).state = .disabled then (n, .done, .nil) else (n.changePort p .disabled .command, .done, .nil)

/-- R7, R12: PORT-RESET. -/
def Node.portReset (n : Node) (a : Nat) : Node × Status × Value :=
  match portOf a with
  | none => (n, .badArgument, .nil)
  | some p =>
    if (n.port p).state = .disabled then (n, .wrongState, .nil)
    else
      let new : PortState := if n.pins.light p then .probeSend else .dark
      ((n.changePort p new .command).onPort p fun r => { r with conflict := false }, .done, .nil)

/-- R10, R12: PORT-LOOPBACK. -/
def Node.portLoopback (n : Node) (a : Nat) : Node × Status × Value :=
  match portOf a with
  | none => (n, .badArgument, .nil)
  | some p =>
    match (n.port p).state with
    | .disabled => (n, .wrongState, .nil)
    | .loopback => (n, .done, .nil)
    | _ => (n.changePort p .loopback .command, .done, .nil)

/-- R12: PORT-STATUS. -/
def Node.portStatus (n : Node) (a : Nat) : Node × Status × Value :=
  match portOf a with
  | none => (n, .badArgument, .nil)
  | some p =>
    let r := n.port p
    (n, .done, .list
      [.portState r.state, .nat r.good, .nat r.missing, .nat r.errNow, .nat r.errLast,
       Value.opt (fun x : Nat × Role => .list [.nat x.1, .role x.2]) r.neighbour, .flag r.conflict])

end Sys2Proof.Machine
end

