-- ==== Sys2Proof/Machine/Ring.lean ====
section
/-! DEFINITION. RING at the head-end (01 sections 1.4, 1.7, 1.8): origination, returns, ring state, surveys and the station map; ring commands of both roles. -/

namespace Sys2Proof.Machine

/-- Act on the head-end's RING. -/
def Node.onHead (n : Node) (f : Head → Head) : Node := { n with head := f n.head }

/-! ## Surveys (R22, R24, R25) -/

/-- R22: a survey starts; the SURVEY message waits for a holding of the outer loop. -/
def Node.startSurvey (n : Node) : Node :=
  let k := if n.head.lastSurvey < 255 then n.head.lastSurvey + 1 else 1
  let kind : SurveyKind := if n.head.state = .closed then .closed else .presence
  let sv : Survey := { number := k, kind := kind, start := n.svc.now, entries := [], overflow := false }
  (n.onHead fun h => { h with lastSurvey := k, survey := some sv }).onWin fun w => { w with survey := some k }

/-- R24: whether one time is earlier than another. -/
def NodeTime.before (a b : NodeTime) : Bool :=
  decide (a.seconds < b.seconds ∨ (a.seconds = b.seconds ∧ a.cycle < b.cycle))

/-- R24: the UNREACHABLE entry with the oldest last heard; of equal ones the lowest station number (log entry 16). -/
def oldestLost (l : List MapEntry) : Option MapEntry :=
  (l.filter fun e => e.presence = .unreachable).foldl (fun best e =>
    match best with
    | none => some e
    | some b => if NodeTime.before e.heard b.heard then some e else best) none

/-- 01 section 1.7: put an entry in its place by station number. -/
def insertEntry (e : MapEntry) : List MapEntry → List MapEntry
  | [] => [e]
  | x :: l => if e.station < x.station then e :: x :: l else x :: insertEntry e l

/-- R24: reached-via of a reported entry. -/
def viaOf (e : SurveyEntry) : ReachedVia :=
  match e.attach with
  | .foldEast => .fold
  | .foldWest => .fold
  | _ => if e.foldSeen = 0 then .outer else .inner

/-- R24: place a map entry; a new number with the map full replaces the oldest UNREACHABLE one. -/
def Node.placeEntry (n : Node) (e : MapEntry) (c : NoticeCode) : Node :=
  if (n.head.entry e.station).isSome then
    (n.onHead fun h => { h with map := h.map.map fun x => if x.station = e.station then e else x }).post c .none
      [.nat e.station]
  else if n.head.map.length < Config.mapSize then
    (n.onHead fun h => { h with map := insertEntry e h.map }).post c .none [.nat e.station]
  else match oldestLost n.head.map with
    | some o =>
      (n.onHead fun h =>
        { h with map := insertEntry e (h.map.filter fun x => x.station ≠ o.station) }).post c .none
        [.nat e.station]
    | none => n.post .stationExcess .none [.nat e.station]

/-- R24: one entry of a survey message, with its place among the entries. -/
def Node.surveyEntry (sv : Survey) (n : Node) (x : Nat × SurveyEntry) : Node :=
  let e := x.2
  let old := n.head.entry e.station
  let repeated := decide (1 < (sv.entries.filter fun y => y.station = e.station).length) || decide (e.station = n.me)
  let first := decide ((sv.entries.map SurveyEntry.station).idxOf e.station + 1 = x.1)
  if repeated then
    if first && decide (old.map MapEntry.presence ≠ some .duplicate) then
      n.placeEntry
        { station := e.station, position := none, presence := .duplicate,
          via := (old.map MapEntry.via).getD (viaOf e), attach := (old.map MapEntry.attach).getD e.attach,
          heard := n.svc.time } .stationDuplicate
    else n.onHead fun h =>
      { h with map := h.map.map fun y => if y.station = e.station then { y with heard := n.svc.time } else y }
  else
    let position :=
      match sv.kind with
      | .closed => some x.1
      | .presence => old.bind MapEntry.position
    let new : MapEntry :=
      { station := e.station, position := position, presence := .present, via := viaOf e, attach := e.attach,
        heard := n.svc.time }
    if old.map MapEntry.presence = some .present then
      n.onHead fun h => { h with map := h.map.map fun y => if y.station = e.station then new else y }
    else n.placeEntry new .stationFound

/-- R24: a station missing from the survey becomes UNREACHABLE. -/
def Node.loseStation (sv : Survey) (n : Node) (e : MapEntry) : Node :=
  if sv.entries.any fun y => y.station = e.station then n
  else
    let lost := decide (e.presence ≠ .unreachable)
    let n := n.onHead fun h =>
      { h with map := h.map.map fun y =>
          if y.station = e.station then
            { y with presence := .unreachable, position := if sv.kind = .closed then none else y.position }
          else y }
    if lost then n.post .stationLost .none [.nat e.station] else n

/-- R24: a survey ends. That the stations lost are told by station number, here and at a time-out in OPEN (R25), is the
model's choice (log entry 115). -/
def Node.endSurvey (n : Node) (sv : Survey) : Node :=
  let n := n.onHead fun h => { h with survey := none }
  let n := n.head.map.foldl (Node.loseStation sv) n
  let n := (numbered 1 sv.entries).foldl (Node.surveyEntry sv) n
  let n := if sv.overflow then n.post .stationExcess .none [] else n
  let present := (n.head.map.filter fun e => e.presence = .present).length
  n.post .surveyDone .none [.nat sv.number, .surveyKind sv.kind, .nat present]

/-- R24: the survey slots of a stripped cycle; the survey in progress gathers its own and ends with the last. -/
def Node.gatherSurvey (n : Node) (s : Slot) : Node :=
  match s.body, n.head.survey with
  | .survey k _ entries over_, some sv =>
    if k = sv.number then
      let sv := { sv with entries := sv.entries ++ entries, overflow := sv.overflow || over_ }
      if s.length ≤ s.seq then n.endSurvey sv else n.onHead fun h => { h with survey := some sv }
    else n
  | _, _ => n

/-- R25: a survey has timed out. -/
def Node.surveyTimeout (n : Node) : Node :=
  match n.head.survey with
  | none => n
  | some sv =>
    if n.svc.now - sv.start < Config.surveyLimit then n
    else if n.head.state = .opened then
      (n.endSurvey { sv with entries := [], overflow := false }).startSurvey
    else n.startSurvey

/-! ## Ring state (R19, R44) -/

/-- R19, R37, R44: the ring state changes. -/
def Node.setRing (n : Node) (new : RingState) : Node :=
  let old := n.head.state
  let n := n.onHead fun h => { h with state := new }
  let n := n.post .ringState .none [.ring old, .ring new]
  let n := n.onWin fun w => w.discardPartials fun _ => true
  let n := if old = .closed then n.endInner else n
  let n := if new = .opened then n.onLoop .outer fun s => { s with timer := none }
    else if old = .opened then n.restartLoss .outer else n
  let n := if new = .closed then n.beginLoop .inner else n
  n.startSurvey

/-- R19: a folded return. -/
def Node.foldedReturn (n : Node) : Node :=
  let n := n.onHead fun h => { h with closing := 0 }
  if n.head.state = .wrapped then n else n.setRing .wrapped

/-- R19: an unfolded outer return. -/
def Node.unfoldedReturn (n : Node) : Node :=
  let n := n.onHead fun h => { h with closing := h.closing + 1 }
  if n.head.state ≠ .closed ∧ Config.alignRun ≤ n.head.closing then n.setRing .closed else n

/-- R19: 3 cycle periods have passed with no full cycle returning. -/
def Node.returnTimeout (n : Node) : Node :=
  if Config.missLimit ≤ n.svc.now - n.head.lastReturn then
    let n := n.onHead fun h => { h with closing := 0 }
    if n.head.state = .opened then n else n.setRing .opened
  else n

/-! ## Returns (R18) -/

/-- R18, R30, R50: a full cycle is stripped: handed to WIN, and an outer-schedule one to CALL, which reads its upstream
audio at WEST and, with origin WEST, at EAST. -/
def Node.strip (n : Node) (p : PortId) (c : Cycle) (k : Content) : Node :=
  let x := n.stripData c.loop k.data
  let n := x.2.foldl Node.gatherSurvey x.1
  let n := n.stripMgmt c.loop c.marker.number k.mgmt
  match c.loop, p, n.head.origin with
  | .inner, _, _ => n
  | .outer, .east, .east => n
  | .outer, _, _ => n.onCall fun t => t.readSlots n.svc.now k.voice

/-- R18: a folded cycle is relayed out of WEST, handed to WIN alone. -/
def Node.relayReturn (n : Node) (c : Cycle) (k : Content) : Node :=
  let x := n.takeData c.loop k.data
  x.1.direct .west { c with content := some { k with data := x.2 } }

/-- R17: a full cycle arriving at EAST ends the wait of a restoring head-end. -/
def Node.headEarlyEnd (n : Node) : Node := if n.head.restoring then n.originEast else n

/-- R18: a full cycle arriving at the head-end. -/
def Node.fullReturn (n : Node) (p : PortId) (c : Cycle) (k : Content) : Node :=
  let n := n.onHead fun h => { h with lastReturn := n.svc.now }
  match p, n.head.origin with
  | .west, _ =>
    let n := n.strip .west c k
    if c.marker.foldCount = 0 then n.unfoldedReturn else n.foldedReturn
  | .east, .west => (n.strip .east c k).headEarlyEnd
  | .east, .east =>
    if c.marker.foldCount = 0 then n.strip .east c k
    else if PortState.carries n.west.state then (n.relayReturn c k).foldedReturn
    else (n.strip .east c k).foldedReturn

/-- R4, R18: a cycle arrives at a port of the head-end. R18 goes by the fold count and the port alone; that a full cycle
whose marker is bad is stripped or relayed and counted as a return like any other, by the fold count and number that were
received, is the model's choice (log entry 95). -/
def Node.returns (n : Node) (p : PortId) (c : Cycle) (good : Bool) (errors : Nat) : Node :=
  let n :=
    if PortState.carries (n.port p).state then
      match c.content with
      | none => n
      | some k => n.fullReturn p c k
    else n
  n.classify p good errors

/-- R17: the head-end's wait-to-restore timer expires. -/
def Node.headRestoreExpires (n : Node) : Node :=
  if n.head.restoring && due n.svc.now n.head.timer then n.originEast else n

/-! ## Origination (R1, R17) -/

/-- R17: with origin WEST, a bare copy goes out of EAST in ALIGN, RUN or RECOVER. -/
def Node.sendBare (n : Node) (c : Cycle) : Node :=
  if PortState.carries n.east.state then n.direct .east (Cycle.bare c) else n

/-- R1, R33, R35: the management slot and data window of a loop's next cycle. -/
def Node.originateWindow (n : Node) (l : Loop) (slots : Nat) : Node × Mgmt × List (Option Slot) :=
  let m := n.originateMgmt l n.head.number
  let d := m.1.placeData l (List.replicate slots none)
  (d.1, m.2, d.2)

/-- R90: the reply to RELEASE is sent when the marker carrying its tag has been originated. -/
def Node.releaseWritten (n : Node) : Node :=
  match n.head.tag with
  | none => n
  | some _ =>
    let n := n.onHead fun h => { h with tag := none }
    match n.cmd.chanL with
    | some { origin := o, cmd := .release _ } => n.endCommand o .done .nil
    | _ => n

/-- R1, R17: the outer-schedule cycle. -/
def Node.originateOuter (n : Node) : Node :=
  let west := decide (n.head.origin = .west)
  let cap := n.set.voiceCap
  let marker : Marker :=
    { number := n.head.number, time := n.svc.time, voiceCap := cap, foldCount := if west then 1 else 0,
      releaseTag := n.head.tag }
  let voice := n.call.writeSlots cap
  let w := n.originateWindow .outer (62 - cap)
  let c : Cycle := { marker := marker, content := some { mgmt := w.2.1, voice := voice, data := w.2.2 } }
  let n := w.1.releaseWritten
  if west then (n.direct .west c).sendBare c else n.direct .east c

/-- R1, R17: the inner-schedule cycle, in CLOSED with origin EAST. -/
def Node.originateInner (n : Node) : Node :=
  if n.originates .inner then
    let w := n.originateWindow .inner 62
    let marker : Marker :=
      { number := n.head.number, time := n.svc.time, voiceCap := 0, foldCount := 0, releaseTag := none }
    w.1.direct .west { marker := marker, content := some { mgmt := w.2.1, voice := [], data := w.2.2 } }
  else n

/-- R1, R17, R20: a cycle period passes at the head-end. That number and time advance before the period's cycle is
originated, so that the first one after a full reset carries number 1, is the model's choice (log entry 103). -/
def Node.originate (n : Node) : Node :=
  let n := n.passPeriod
  let n := n.onHead fun h => { h with number := (h.number + 1) % Config.cycleNumberWrap }
  if n.head.started then n.originateOuter.originateInner else n

/-! ## Ring commands (R20, R22, R26, R27) -/

/-- R20: TIME-SET. -/
def Node.timeSet (n : Node) (seconds : Nat) : Node × Status × Value :=
  if Config.secondsWrap ≤ seconds then (n, .badArgument, .nil)
  else (n.setTime { seconds := seconds, cycle := 0, sync := true }, .done, .nil)

/-- R20: TIME-READ. -/
def Node.timeRead (n : Node) : Value := .time n.svc.time

/-- R26: a map entry as it is told. -/
def MapEntry.report (e : MapEntry) : Value :=
  .list [.nat e.station, Value.opt .nat e.position, .presence e.presence, .via e.via, .attach e.attach, .time e.heard]

/-- R26: STATION-MAP-READ. -/
def Node.stationMapRead (n : Node) (first : Nat) : Node × Status × Value :=
  if first < 1 ∨ 999 < first then (n, .badArgument, .nil)
  else (n, .done, .list
    [.nat n.head.map.length,
     .list (((n.head.map.filter fun e => first ≤ e.station).take 16).map MapEntry.report)])

/-- R27: number of map entries in a presence. -/
def Head.count (h : Head) (p : Presence) : Nat := (h.map.filter fun e => e.presence = p).length

/-- R27: RING-STATUS. -/
def Node.ringStatus (n : Node) : Value :=
  if n.isHead then
    let h := n.head
    .list
      [.ring h.state, .port h.origin, .flag h.restoring, timeLeft n.svc.now h.timer, .time n.svc.time,
       .nat h.number, .nat n.set.voiceCap,
       Value.opt (fun s : Survey => .list [.nat s.number, .surveyKind s.kind]) h.survey,
       .nat (h.count .present), .nat (h.count .unreachable), .nat (h.count .duplicate)]
  else
    let r := n.ring
    .list
      [.attach r.attach, .flag r.restoring, timeLeft n.svc.now r.timer, .time n.svc.time,
       Value.opt .nat r.lastOuter, Value.opt .nat r.lastCap, Value.opt .nat r.lastSurvey]

end Sys2Proof.Machine
end

