-- ==== Sys2Proof/Machine/Setting.lean ====
section
/-! DEFINITION. STORE (11): setting items, SETTING-WRITE, SETTING-READ, the records of the settings store, STORE-APPEND and STORE-READ. -/

namespace Sys2Proof.Machine

/-- A value of an item as a whole, the candidate of R190. -/
inductive Candidate where
  | number (n : Nat)
  | actions (l : List ReleaseAction)
  | beacons (l : List Nat)
  | pattern (l : List (Nat × Nat))
  | zones (l : List Nat)
  | bindings (l : List Binding)
  | remap (l : List (Option Nat))
  | kinds (l : List DeviceKind)
  | roster (l : List (Option RosterSpec))
  | outputs (l : List OutputSpec)
  | inputs (l : List InputSpec)
  | classes (l : List ClassBounds)
  | rules (l : List (Option RuleSpec))
  | routes (l : List Route)
  deriving DecidableEq, Repr

/-! ## Items (11.1) -/

/-- 11 section 11.1: the range of a number-valued item. -/
def numberRange : Nat → Option (Nat × Nat)
  | 1 => some (1, 2)
  | 2 => some (1, 999)
  | 3 => some (0, 4)
  | 4 => some (0, 1000)
  | 10 => some (1, 255)
  | 11 => some (0, 300)
  | 12 => some (400, 16000)
  | 13 => some (4, 24)
  | 14 => some (1, 32)
  | 15 => some (200, 5000)
  | 20 => some (20, 250)
  | 30 => some (0, 4095)
  | 42 => some (50, 1000)
  | 43 => some (0, 3)
  | 60 => some (1, 1024)
  | 70 => some (4, 64)
  | 80 => some (1, 4)
  | 81 => some (500, 10000)
  | 91 => some (0, 1)
  | 92 => some (0, 1)
  | 93 => some (60, 3600)
  | _ => none

/-- The items whose values are sets or lists. -/
def listItems : List Nat := [21, 31, 32, 33, 34, 40, 41, 44, 45, 46, 50, 71, 90]

/-- 11 section 11.1: whether an item number is one of the table. -/
def isItem (i : Nat) : Bool := (numberRange i).isSome || listItems.contains i

/-- 11 section 11.1: the next-start items. -/
def nextStart (i : Nat) : Bool := i = 1 || i = 3 || i = 4

/-- 11 section 11.1: the role an item belongs to, `none` for both. -/
def itemRole (i : Nat) : Option Role :=
  if [13, 15, 80, 81].contains i then some .headEnd
  else if [20, 21, 30, 31, 32, 33, 34, 40, 41, 42, 43, 44, 45, 46, 60, 70, 71].contains i then some .wayside
  else none

/-- Whether an item belongs to the other role. -/
def otherRole (r : Role) (i : Nat) : Bool :=
  match itemRole i with
  | none => false
  | some q => q ≠ r

/-- A number as an on or off setting (log entry 18). -/
def flagNumber (b : Bool) : Nat := if b then 1 else 0

/-- The working value of a number-valued item. -/
def Settings.number (s : Settings) : Nat → Nat
  | 1 => if s.role = .headEnd then 1 else 2
  | 2 => s.station
  | 3 => s.linkRate
  | 4 => s.replyGap
  | 10 => s.errorThreshold
  | 11 => s.waitToRestore
  | 12 => s.tokenLossLimit
  | 13 => s.voiceCap
  | 14 => s.burstQuota
  | 15 => s.forwardTimeout
  | 20 => s.hookDebounce
  | 30 => s.releaseDelay
  | 42 => s.exchangeTimeout
  | 43 => s.exchangeRetries
  | 60 => s.tollHigh
  | 70 => s.segmentLength
  | 80 => s.batchLimit
  | 81 => s.collectTimeout
  | 91 => flagNumber s.noticePush
  | 92 => flagNumber s.attentionPulse
  | 93 => s.holdLapse
  | _ => 0

/-- The working settings with a number-valued item changed. -/
def Settings.withNumber (s : Settings) (i v : Nat) : Settings :=
  match i with
  | 1 => { s with role := if v = 1 then .headEnd else .wayside }
  | 2 => { s with station := v }
  | 3 => { s with linkRate := v }
  | 4 => { s with replyGap := v }
  | 10 => { s with errorThreshold := v }
  | 11 => { s with waitToRestore := v }
  | 12 => { s with tokenLossLimit := v }
  | 13 => { s with voiceCap := v }
  | 14 => { s with burstQuota := v }
  | 15 => { s with forwardTimeout := v }
  | 20 => { s with hookDebounce := v }
  | 30 => { s with releaseDelay := v }
  | 42 => { s with exchangeTimeout := v }
  | 43 => { s with exchangeRetries := v }
  | 60 => { s with tollHigh := v }
  | 70 => { s with segmentLength := v }
  | 80 => { s with batchLimit := v }
  | 81 => { s with collectTimeout := v }
  | 91 => { s with noticePush := decide (v = 1) }
  | 92 => { s with attentionPulse := decide (v = 1) }
  | 93 => { s with holdLapse := v }
  | _ => s

/-! ## Candidates (R190) -/

/-- R190: the operation on an item whose records stand in the places 1 to `size`. -/
def placed {α : Type} (dflt : List α) (work : List α) (op : SettingOp) (given : Option (List (Nat × α)))
    (keys : Option (List Nat)) : Option (List α) :=
  let inside (l : List (Nat × α)) : Bool := l.all fun x => decide (1 ≤ x.1 ∧ x.1 ≤ dflt.length)
  match op, given, keys with
  | .set, some l, _ =>
    if inside l && distinct (l.map Prod.fst) then some (l.foldl (fun w x => put w x.1 x.2) dflt) else none
  | .add, some l, _ => if inside l then some (l.foldl (fun w x => put w x.1 x.2) work) else none
  | .remove, _, some ks =>
    some (ks.foldl (fun w k =>
      match nth dflt k with
      | some d => put w k d
      | none => w) work)
  | _, _, _ => none

/-- The keys of a REMOVE as place numbers. -/
def placeKeys : SettingValue → Option (List Nat)
  | .keys l => l.mapM fun k =>
      match k with
      | .num n => some n
      | _ => none
  | _ => none

/-- R190: the operation on a set. -/
def setOp {α : Type} [DecidableEq α] (work given : List α) : SettingOp → List α
  | .set => given.dedup
  | .add => work ++ (given.dedup.filter fun a => !work.contains a)
  | .remove => work.filter fun a => !given.contains a

/-- R190: one binding put in, in place of one with its key. -/
def putBinding (l : List Binding) (b : Binding) : List Binding :=
  if l.any fun x => bindingKey x = bindingKey b then
    l.map fun x => if bindingKey x = bindingKey b then b else x
  else l ++ [b]

/-- R190: one class's bounds put in. -/
def putClass (l : List ClassBounds) (b : ClassBounds) : List ClassBounds :=
  l.map fun x => if x.cls = b.cls then b else x

/-- R190: one notice code's routing put in. -/
def putRoute (l : List Route) (r : Route) : List Route := l.map fun x => if x.code = r.code then r else x

/-- The classes that keys name. -/
def classKeys : List SettingKey → Option (List PoolClass)
  | [] => some []
  | .cls c :: l => (classKeys l).map (c :: ·)
  | _ :: _ => none

/-- The notice codes that keys name. -/
def codeKeys : List SettingKey → Option (List NoticeCode)
  | [] => some []
  | .code c :: l => (codeKeys l).map (c :: ·)
  | _ :: _ => none

/-- R190: the candidate for a set or list item from the working value; `none` where the value is not of the item's
form or names a key twice or outside its places. -/
def listCandidate (s : Settings) (bounds : List ClassBounds) (item : Nat) (op : SettingOp) (v : SettingValue) :
    Option Candidate :=
  let d := Settings.default
  match item, op, v with
  | 31, op, .actions l => some (.actions (setOp s.releaseActions l op))
  | 32, op, .beacons l => some (.beacons (setOp s.pulseBeacons l op))
  | 33, .remove, .keys l => if l = [] then some (.pattern [s.pulsePattern]) else some (.pattern [])
  | 33, .set, .pattern l => some (.pattern l)
  | 33, .add, .pattern l => some (.pattern (if l = [] then [s.pulsePattern] else l.drop (l.length - 1)))
  | 34, .set, .bindings l => some (.bindings l)
  | 34, .add, .bindings l => some (.bindings (l.foldl putBinding s.bindings))
  | 34, .remove, .keys ks => some (.bindings (s.bindings.filter fun b => !ks.contains (bindingKey b)))
  | 21, op, .portZones l => (placed d.portZones s.portZones op (some l) none).map .zones
  | 21, op, v => (placed d.portZones s.portZones op none (placeKeys v)).map .zones
  | 40, op, .remap l => (placed d.remap s.remap op (some l) none).map .remap
  | 40, op, v => (placed d.remap s.remap op none (placeKeys v)).map .remap
  | 41, op, .kinds l =>
    (l.mapM fun (x : Nat × Option DeviceKind) => x.2.map fun k => (x.1, k)).bind fun l =>
      (placed d.kinds s.kinds op (some l) none).map .kinds
  | 41, op, v => (placed d.kinds s.kinds op none (placeKeys v)).map .kinds
  | 44, op, .roster l => (placed d.roster s.roster op (some l) none).map .roster
  | 44, op, v => (placed d.roster s.roster op none (placeKeys v)).map .roster
  | 45, op, .outputs l => (placed d.outputs s.outputs op (some l) none).map .outputs
  | 45, op, v => (placed d.outputs s.outputs op none (placeKeys v)).map .outputs
  | 46, op, .inputs l => (placed d.inputs s.inputs op (some l) none).map .inputs
  | 46, op, v => (placed d.inputs s.inputs op none (placeKeys v)).map .inputs
  | 50, .set, .classes l => some (.classes l)
  | 50, .add, .classes l => some (.classes (l.foldl putClass bounds))
  | 50, .remove, .keys ks =>
    (classKeys ks).map fun cs => .classes ((defaultBounds.filter fun b => cs.contains b.cls).foldl putClass bounds)
  | 71, op, .rules l => (placed d.rules s.rules op (some l) none).map .rules
  | 71, op, v => (placed d.rules s.rules op none (placeKeys v)).map .rules
  | 90, .set, .routes l =>
    if distinct (l.map Route.code) then some (.routes (l.foldl putRoute d.routes)) else none
  | 90, .add, .routes l => some (.routes (l.foldl putRoute s.routes))
  | 90, .remove, .keys ks =>
    (codeKeys ks).map fun cs => .routes ((cs.map defaultRoute).foldl putRoute s.routes)
  | _, _, _ => none

/-- R190: the candidate; a number-valued item takes SET alone. -/
def candidate (s : Settings) (bounds : List ClassBounds) (item : Nat) (op : SettingOp) (v : SettingValue) :
    Option Candidate :=
  if (numberRange item).isSome then
    match op, v with
    | .set, .number n => some (.number n)
    | _, _ => none
  else listCandidate s bounds item op v

/-- Whether a candidate lies within its item's ranges. -/
def Candidate.inRange (item : Nat) : Candidate → Bool
  | .number n =>
    match numberRange item with
    | some (lo, hi) => decide (lo ≤ n ∧ n ≤ hi)
    | none => false
  | .actions _ => true
  | .beacons l => l.all fun b => decide (1 ≤ b ∧ b ≤ 4)
  | .pattern l =>
    l.length = 1 && l.all fun p => decide (1 ≤ p.1 ∧ p.1 ≤ 255 ∧ 1 ≤ p.2 ∧ p.2 ≤ 255)
  | .zones l => l.all fun z => decide (z ≤ 8)
  | .bindings l =>
    decide (l.length ≤ Config.bindingPlaces) && l.all bindingOk && distinct (l.map bindingKey)
  | .remap l => remapOk l
  | .kinds _ => true
  | .roster l => l.all fun r =>
      match r with
      | none => true
      | some s => rosterInRange s
  | .outputs l => l.all outputOk
  | .inputs l => l.all inputOk
  | .classes _ => true
  | .rules l => l.all fun r =>
      match r with
      | none => true
      | some s => ruleOk s
  | .routes _ => true

/-! ## Taking a value -/

/-- R15, R17: a wait-to-restore of 0 written while the timer runs makes it expire at once. -/
def Node.takeWaitToRestore (n : Node) (v : Nat) : Node :=
  let n := n.onSettings fun s => s.withNumber 11 v
  if v = 0 then
    if n.isHead then (if n.head.restoring then n.originEast else n)
    else if n.ring.restoring then n.openOut else n
  else n

/-- R163: a batch limit below the records out of IDLE is refused. -/
def Node.takeBatchLimit (n : Node) (v : Nat) : Node × Status :=
  if v < n.coll.batches.length then (n, .wrongState)
  else (n.onSettings fun s => s.withNumber 80 v, .done)

/-- R145, R150, R163, R71: the numbers that act besides; the others change nothing else. ATTENTION-PULSE turned off during a
pause (R183) lets the pause run to its end, which is the model's choice (log entry 85). -/
def Node.takeNumber (n : Node) (item v : Nat) : Node × Status :=
  match item with
  | 11 => (n.takeWaitToRestore v, .done)
  | 13 => let r := n.voiceCapSet v; (r.1, r.2.1)
  | 60 => (n.onToll (takeTollHigh v), .done)
  | 70 => (n.onSvc fun s => s.takeSegmentLength v, .done)
  | 80 => n.takeBatchLimit v
  | _ => (n.onSettings fun s => s.withNumber item v, .done)

/-- R111: a new POLL-ROSTER; its changed entries must suit their devices (log entry 31). R108 sets times at a ROSTER-SET:
that a SETTING-WRITE sets them afresh for the entries whose contents change, and leaves the others' as they are, is the
model's choice (log entry 88). -/
def Node.takeRoster (n : Node) (l : List (Option RosterSpec)) : Node × Status :=
  let old := n.set.roster
  let changed := (places 16).filter fun e => nth old e ≠ nth l e
  let ok := changed.all fun e =>
    match (nth l e).getD none with
    | none => true
    | some r => n.set.rosterOk r
  if ok then
    let n := n.onSettings fun s => { s with roster := l }
    (changed.foldl (fun n e => n.onRoster e fun _ => freshRoster n.svc.now ((nth l e).getD none)) n, .done)
  else (n, .badArgument)

/-- R159: a new THRESHOLD-RULES acts on each entry whose contents change. That R158 is applied once, after all of them, is
the model's choice (log entry 117). -/
def Node.takeRules (n : Node) (l : List (Option RuleSpec)) : Node × Status :=
  (n.onRules fun x =>
    (places 8).foldl (fun y k =>
      if nth y.1.settings.rules k = nth l k then y else replaceRule y k ((nth l k).getD none)) x, .done)

/-- R190: the owning block takes a candidate that lies within its ranges. -/
def Node.takeValue (n : Node) (item : Nat) : Candidate → Node × Status
  | .number v => n.takeNumber item v
  | .actions l => (n.onSettings fun s => { s with releaseActions := l }, .done)
  | .beacons l => (n.onSettings fun s => { s with pulseBeacons := l }, .done)
  | .pattern l => (n.onSettings fun s => { s with pulsePattern := l.headD s.pulsePattern }, .done)
  | .zones l => (n.onSettings fun s => { s with portZones := l }, .done)
  | .bindings l =>
    let r := takeBindings l (n.svc, n.zone)
    ({ n with svc := r.1.1, zone := r.1.2 }, r.2)
  | .remap l => n.takeRemap l
  | .kinds l => n.takeKinds l
  | .roster l => n.takeRoster l
  | .outputs l => n.takeOutputs l
  | .inputs l => n.takeInputs l
  | .classes l =>
    match checkBounds n.svc.pool l with
    | .done => (n.onSvc fun s => s.takeBounds l, .done)
    | st => (n, st)
  | .rules l => n.takeRules l
  | .routes l => (n.onSettings fun s => { s with routes := l }, .done)

/-- R190: form the candidate, check it whole and let the owning block take it. -/
def Node.writeItem (n : Node) (item : Nat) (op : SettingOp) (v : SettingValue) : Node × Status :=
  match candidate n.set n.svc.pool.bounds item op v with
  | none => (n, .badArgument)
  | some c => if c.inRange item then n.takeValue item c else (n, .badArgument)

/-- R190: SETTING-WRITE. -/
def Node.settingWrite (n : Node) (item : Nat) (op : SettingOp) (v : SettingValue) : Node × Status × Value :=
  if isItem item = false ∨ ((numberRange item).isSome ∧ op ≠ .set) then (n, .badArgument, .nil)
  else if otherRole n.set.role item then (n, .wrongRole, .nil)
  else if nextStart item then (n, .wrongState, .nil)
  else
    let r := n.writeItem item op v
    (r.1, r.2, .nil)

/-- R192: the ranges of an item's fields alone, as a record of the other role is checked: that no line is given twice in
REMAP is no range. -/
def Candidate.fieldsInRange (item : Nat) : Candidate → Bool
  | .remap l => (l.filterMap id).all fun k => decide (1 ≤ k ∧ k ≤ 8)
  | c => c.inRange item

/-- R192 step 3: a record of an item that is no next-start item, as it acts on the working settings; one of the other role
is only checked against its item's ranges. -/
def Node.applyRecord (n : Node) (item : Nat) (op : SettingOp) (v : SettingValue) : Node × Status :=
  if isItem item = false then (n, .badArgument)
  else if otherRole n.set.role item then
    match candidate n.set n.svc.pool.bounds item op v with
    | none => (n, .badArgument)
    | some c => (n, if c.fieldsInRange item then .done else .badArgument)
  else n.writeItem item op v

/-! ## Records of the store (11.2.1) -/

/-- A record's item number, operation byte and value bytes, with its check (11 section 11.2.1). -/
def recordFields (r : List Byte) : Option (Nat × Nat × List Byte) :=
  match r with
  | _ :: _ :: hi :: lo :: op :: rest => some (be16 hi lo, op.toNat, rest.dropLast)
  | _ => none

/-- 11 section 11.2.1: the check byte. -/
def checkSum (r : List Byte) : Byte := (r.dropLast).foldl (· + ·) 0#8

/-- 11 section 11.2.1: length in range and equal to the bytes there are, and a correct check. -/
def recordOk (r : List Byte) : Bool :=
  decide (6 ≤ r.length ∧ r.length ≤ 236)
    && (match r with
      | hi :: lo :: _ => be16 hi lo = r.length
      | _ => false)
    && decide (r.getLast? = some (checkSum r))

/-- 11 section 11.2.1: the operation a byte names. -/
def recordOp : Nat → Option SettingOp
  | 1 => some .set
  | 2 => some .add
  | 3 => some .remove
  | _ => none

/-- R192, R194: the value that a record's bytes give a next-start item, if it lies within the item's range. That they are
read as SET has them, whatever the record's operation, is the model's choice (log entry 93). -/
def nextStartValue (item : Nat) (value : List Byte) : Option Nat :=
  match Config.parseSetting item .set value with
  | .number v => if (Candidate.number v).inRange item then some v else none
  | _ => none

/-- R192, R194: a record acts on the working settings; the status tells a refusal. One of a next-start item is checked
against the item's range and nothing else, its operation not among it (log entry 93). -/
def Node.takeStored (n : Node) (r : List Byte) : Node × Status :=
  match recordFields r with
  | none => (n, .badArgument)
  | some (item, opByte, value) =>
    if nextStart item then (n, if (nextStartValue item value).isSome then .done else .badArgument)
    else
      match recordOp opByte with
      | none => (n, .badArgument)
      | some op => n.applyRecord item op (Config.parseSetting item op value)

/-- The bytes of the record at an offset, if all of them are written. -/
def wholeRecord (m : Memory) (x : Nat × Nat) : Option (List Byte) := (rawBytes m x.1 x.2).mapM id

/-- R194 step 4: whether a record of the store is whole and passes its check, and its bytes. -/
def soundRecord (m : Memory) (x : Nat × Nat) : Option (List Byte) :=
  if Config.storeSize < x.1 + x.2 then none
  else (wholeRecord m x).filter recordOk

/-- R194 step 4: whether a record's operation is known. -/
def knownOperation (r : List Byte) : Bool :=
  match recordFields r with
  | some (_, opByte, _) => (recordOp opByte).isSome
  | none => false

/-- R194 step 4: one record is applied or skipped; one whose operation is unknown is skipped whatever its item. A skipped
record changes nothing but the number of skipped records: that R129 counts no request of a record refused for NO-ROOM at a
start is the model's choice between the two rules (log entry 109). -/
def Node.startRecord (m : Memory) (n : Node) (x : Nat × Nat) : Node :=
  let skipped : Node := { n with skipped := n.skipped + 1 }
  match soundRecord m x with
  | none => skipped
  | some r =>
    match knownOperation r, n.takeStored r with
    | true, (n', .done) => { n' with applied := n'.applied + 1 }
    | _, _ => skipped

/-- R194 step 4: the stored records are applied in order. -/
def Node.applyStore (n : Node) (m : Memory) : Node := (storeRecords m).1.foldl (Node.startRecord m) n

/-- R194 step 3: the value that a sound record gives a next-start item, whatever the record's operation. -/
def recordValue (item : Nat) (r : List Byte) : Option Nat :=
  match recordFields r with
  | some (i, _, value) => if i = item then nextStartValue i value else none
  | none => none

/-- R194 step 3: the stored value of a next-start item. -/
def storedValue (m : Memory) (item : Nat) : Nat :=
  ((storeRecords m).1.foldl (fun (last : Option Nat) x =>
    match (soundRecord m x).bind (recordValue item) with
    | some v => some v
    | none => last) none).getD (Settings.default.number item)

/-! ## SETTING-READ (R191) -/

/-- The order of keys: by number, by zone and device or beacon, and by the tables of classes and codes. R191 says key order
alone: that the sign device keys of a zone stand before its beacon keys, and that class and code keys stand in the order of
their tables, is the model's choice (log entry 74). -/
def keyRank : SettingKey → Nat
  | .num n => n
  | .zoneDevice z d => z * 16 + d
  | .zoneBeacon z b => z * 16 + 8 + b
  | .cls .toll => 1
  | .cls .weather => 2
  | .cls .sign => 3
  | .cls .transit => 4
  | .code c => noticeCodes.idxOf c

/-- The records of a list-valued item, with their keys, in key order. -/
def Node.itemRecords (n : Node) (item : Nat) : List (SettingKey × SettingValue) :=
  let s := n.set
  match item with
  | 21 => (numbered 1 s.portZones).map fun x => (.num x.1, .portZones [x])
  | 33 => [(.num 1, .pattern [s.pulsePattern])]
  | 34 => (s.bindings.insertionSort fun a b => keyRank (bindingKey a) ≤ keyRank (bindingKey b)).map fun b =>
      (bindingKey b, .bindings [b])
  | 40 => (numbered 1 s.remap).map fun x => (.num x.1, .remap [x])
  | 41 => (numbered 1 s.kinds).map fun x => (.num x.1, .kinds [(x.1, some x.2)])
  | 44 => ((numbered 1 s.roster).filter fun x => x.2.isSome).map fun x => (.num x.1, .roster [x])
  | 45 => (numbered 1 s.outputs).map fun x => (.num x.1, .outputs [x])
  | 46 => (numbered 1 s.inputs).map fun x => (.num x.1, .inputs [x])
  | 50 => n.svc.pool.bounds.map fun b => (.cls b.cls, .classes [b])
  | 71 => ((numbered 1 s.rules).filter fun x => x.2.isSome).map fun x => (.num x.1, .rules [x])
  | 90 => s.routes.map fun r => (.code r.code, .routes [r])
  | _ => []

/-- R191: as many of a list's records as fit the reply body, status byte and result, of at most 240 bytes (10
section 10.6.1). -/
def recordsThatFit (item : Nat) (l : List SettingValue) : Nat :=
  ((List.range (l.length + 1)).reverse.find? fun k =>
    decide (1 + (Config.listResult item (l.take k) (l.length - k)).length ≤ Config.bodyMax)).getD 0

/-- R191: SETTING-READ. A list read without a starting key is read from its first record (log entry 75), and a starting key
that is no key of the item is not refused but placed among the item's keys by its rank (log entry 102): both the model's
choice. -/
def Node.settingRead (n : Node) (m : Memory) (item : Nat) (key : Option SettingKey) : Node × Status × Value :=
  if isItem item = false then (n, .badArgument, .nil)
  else if (numberRange item).isSome then
    let stored : List Value := if nextStart item then [.nat (storedValue m item)] else []
    (n, .done, .list (.setting (.number (n.set.number item)) :: stored))
  else if item = 31 then (n, .done, .list [.setting (.actions n.set.releaseActions)])
  else if item = 32 then (n, .done, .list [.setting (.beacons n.set.pulseBeacons)])
  else
    let from_ := (key.map keyRank).getD 0
    let l := ((n.itemRecords item).filter fun x => decide (from_ ≤ keyRank x.1)).map Prod.snd
    let k := recordsThatFit item l
    (n, .done, .list [.list ((l.take k).map .setting), .nat (l.length - k)])

/-! ## STORE-APPEND and STORE-READ (R192, R193) -/

/-- R192: STORE-APPEND; without a status the record is being written and the command stays in progress
(log entry 32). -/
def Node.storeAppend (n : Node) (m : Memory) (r : List Byte) : Node × Option (Status × Value) :=
  if recordOk r = false then (n, some (.badArgument, .nil))
  else if Config.storeSize < storeEnd m + r.length then (n, some (.storeFull, .nil))
  else match n.takeStored r with
    | (n', .done) => ({ n' with writing := some r }, none)
    | (n', st) => (n', some (st, .nil))

/-- R193: STORE-READ. -/
def Node.storeRead (n : Node) (m : Memory) (off : Nat) : Node × Status × Value :=
  if Config.storeSize ≤ off then (n, .badArgument, .nil)
  else
    (n, .done, .list
      [.bytes (readBytes m off (min Config.storeReadMax (Config.storeSize - off))), .nat (storeEnd m),
       .nat (Config.storeSize - storeEnd m), .nat n.applied, .nat n.skipped])

end Sys2Proof.Machine
end

