-- ==== Sys2Proof/Machine/Report.lean ====
section
/-! DEFINITION. The read-class replies of POOL, TOLL, WX and the node itself (R130, R146, R160, R161, R189), and RULE-SET (R159). -/

namespace Sys2Proof.Machine

/-- The numbers of a list without its repeats, in order of first appearance. -/
def firsts : List Nat → List Nat
  | [] => []
  | a :: l => a :: (firsts l).filter (· ≠ a)

/-! ## TOLL-STATUS (R146) -/

/-- R146: gantry entries in order of gantry number, from `first` on. -/
def Toll.sorted (t : Toll) (first : Nat) : List Gantry :=
  (t.gantries.filter fun e => decide (first ≤ e.number)).insertionSort fun a b => a.number ≤ b.number

/-- R146: one gantry entry, whole. -/
def Toll.gantryReport (t : Toll) (e : Gantry) : Value :=
  let l := t.recordsOf e.number
  .list [.nat e.number, Value.opt .nat e.device, .nat e.a, .nat e.c, Value.opt .nat e.reported, .nat l.length,
    .nat (l.filter fun r => r.loan.isSome).length]

/-- R146: one toll attachment. That ATTACHED is told by the gantry number alone, and UNATTACHED by its reason, is the
model's choice (log entry 8). -/
def attachmentReport : Option Attachment → Value
  | none => .absent
  | some (.attached g) => .nat g
  | some (.unattached r _) => .unattached r

/-- R146: the counts. -/
def TollCounts.report (c : TollCounts) : Value :=
  .list [.nat c.accepted, .nat c.duplicate, .nat c.gap, .nat c.malformed, .nat c.deferred, .nat c.heldCeiling,
    .nat c.heldFree, .nat c.heldGuarantee, .nat c.unattached, .nat c.skipped, .nat c.acknowledged,
    .nat c.unmatched]

/-- R146: how many records are LOANED to each batch number, told as pairs of batch number and count, none as an empty list:
the model's choice (log entry 8). -/
def Toll.loansReport (t : Toll) : Value :=
  let loans := t.log.filterMap LogRecord.loan
  .list ((firsts loans).map fun b => .list [.nat b, .nat (loans.count b)])

/-- R146: TOLL-STATUS. -/
def Node.tollStatus (n : Node) (first : Nat) : Node × Status × Value :=
  if first < 1 ∨ 65535 < first then (n, .badArgument, .nil)
  else
    let t := n.toll
    let devs := (places 8).filter fun d => n.set.kindOf d = .toll
    (n, .done, .list
      [.nat t.log.length, t.loansReport, Value.opt (fun r : LogRecord => .time r.receipt) t.log.head?,
       .nat n.set.tollHigh, .flag t.high, .flag t.heldMark, .nat t.gantries.length,
       .list (((t.sorted first).take 8).map t.gantryReport),
       .list (devs.map fun d => .list [.nat d, attachmentReport ((nth t.attachments d).getD none)]),
       t.counts.report])

/-! ## RULE-SET and RULE-STATUS (R159, R160) -/

/-- R159: the rule that an argument gives, if its direction is known. -/
def ruleArgSpec : RuleArg → Option (Option RuleSpec)
  | .empty => some none
  | .rule device quantity level direction hysteresis hold zone =>
    direction.map fun (d : Direction) =>
      some { device := device, quantity := quantity, level := level, direction := d, hysteresis := hysteresis,
             hold := hold, zone := zone }

/-- R159: whether a rule lies within its ranges. -/
def ruleEntryOk : Option RuleSpec → Bool
  | none => true
  | some r => ruleOk r

/-- R159: RULE-SET. -/
def Node.ruleSet (n : Node) (rule : Nat) (arg : RuleArg) : Node × Status × Value :=
  if rule < 1 ∨ 8 < rule then (n, .badArgument, .nil)
  else match ruleArgSpec arg with
    | none => (n, .badArgument, .nil)
    | some r =>
      if ruleEntryOk r then (n.onRules fun x => replaceRule x rule r, .done, .nil) else (n, .badArgument, .nil)

/-- The fields of a rule as values; direction ABOVE is 1 and BELOW is 2 (log entry 8). -/
def ruleSpecReport (r : RuleSpec) : Value :=
  .list [.nat r.device, .nat r.quantity, .num r.level, .nat (if r.direction = .above then 1 else 2),
    .nat r.hysteresis, .nat r.hold, .nat r.zone]

/-- R160: one rule, or the word EMPTY. -/
def Node.ruleReport (n : Node) (k : Nat) : Value :=
  match (nth n.set.rules k).getD none, nth n.rules k with
  | some spec, some rec => .list [ruleSpecReport spec, .rule rec.state, Value.opt .num rec.last, .time rec.since]
  | _, _ => .empty

/-- R160: the tripped rules bound to a zone. -/
def Node.trippedOf (n : Node) (z : Nat) : List Nat :=
  (places 8).filter fun k =>
    match (nth n.set.rules k).getD none, nth n.rules k with
    | some spec, some rec => spec.zone = z && isTripped rec.state
    | _, _ => false

/-- R160: RULE-STATUS. -/
def Node.ruleStatus (n : Node) : Value :=
  .list
    [.list ((places 8).map n.ruleReport),
     .list ((places 8).map fun z =>
      .list [.flag (zoneTripped n.set.rules n.rules z), .list ((n.trippedOf z).map .nat)])]

/-! ## WX-STATUS (R161) -/

/-- R161: the number of segments in a state and of the samples they hold. -/
def Wx.inState (w : Wx) (st : SegState) : Value :=
  let l := w.segments.filter fun g => g.state = st
  .list [.nat l.length, .nat (l.map fun g => g.samples.length).sum]

/-- R161: one segment, whole except for its samples. -/
def segmentReport (g : Segment) : Value :=
  .list [.nat g.number, .nat g.device, .seg g.state, Value.opt .nat g.batch, .time g.first, .nat g.samples.length,
    .nat g.gap, Value.opt .close g.cause]

/-- R161: the counts. -/
def WxCounts.report (c : WxCounts) : Value :=
  .list [.nat c.stored, .nat c.lost, .nat c.malformed, .nat c.segmentsForPool, .nat c.segmentsForWx,
    .nat c.samplesForPool, .nat c.samplesForWx, .nat c.acknowledged, .nat c.unmatched]

/-- R148, R161: the number the next segment will take. -/
def Wx.nextSegment (w : Wx) : Nat := nextNumber 65535 (w.segments.map (·.number)) Config.segmentPlaces w.lastNumber

/-- R161: WX-STATUS. -/
def Node.wxStatus (n : Node) (first : Nat) : Node × Status × Value :=
  if first < 1 ∨ 48 < first then (n, .badArgument, .nil)
  else
    let w := n.svc.wx
    (n, .done, .list
      [w.inState .opened, w.inState .closed, w.inState .loaned, .nat n.set.segmentLength, .nat w.nextSegment,
       .flag w.lossMark,
       .list ((places 8).map fun d =>
        .list [.nat ((nth w.gaps d).getD 0), Value.opt (fun g : Segment => .nat g.number) (w.openOf d)]),
       .list (((w.segments.drop (first - 1)).take 12).map segmentReport), w.counts.report])

/-! ## IDENTIFY (R189) -/

/-- R189: IDENTIFY. -/
def Node.identify (n : Node) : Value :=
  let q := n.svc.note.queue
  .list
    [.role n.set.role, .nat n.me, .nat Config.partRevision, .time n.svc.time, .hold n.cmd.held,
     timeLeft n.svc.now n.cmd.lapse, .flag n.set.noticePush, .flag n.set.attentionPulse, .nat q.length,
     .nat (q.filter (·.toHost)).length, .nat (q.filter (·.toCentre)).length, .flag n.svc.note.overflow,
     .nat n.svc.note.lost, .nat n.link.valid, .nat n.link.badLength, .nat n.link.badCrc, .nat n.link.wrongKind,
     .nat n.link.noticeNo, .nat n.link.dataNo, .flag n.cmd.chanL.isSome, .flag n.cmd.chanC.isSome]

end Sys2Proof.Machine
end

