-- ==== Sys2Proof/Machine/Host.lean ====
section
/-! DEFINITION. The host link (R184, R185), the maintenance hold (R187, R188) and NOTE's commands (R177, R179, R182). -/

namespace Sys2Proof.Machine

/-! ## The sender (R185) -/

/-- R178, R185: the sender takes the oldest entry that holds HOST for a NOTICE frame. R185 does not say when the running
frame number advances; that it does when the frame is begun is the model's choice (log entry 101). -/
def Node.takeNotice (n : Node) (e : Notice) : Node :=
  let k := n.link
  let frame : Frame :=
    .notice k.noticeNo (if e.received then e.source else 0) e n.svc.note.overflow
  let n := n.onSvc fun s => { s with note := { s.note with queue := serveHost 1 s.note.queue }.setAttention }
  { n with link := { k with sending := some frame, lastNotice := some true, noticeNo := (k.noticeNo + 1) % 256 } }

/-- R185: the sender begins the oldest DATA frame; it leaves the delivery queue when it has been sent (R171). The running
frame number advances when the frame is begun, which is the model's choice (log entry 101). -/
def Node.takeDataFrame (n : Node) (f : DataFrame) : Node :=
  let k := n.link
  { n with link :=
      { k with sending := some (.data k.dataNo f), lastNotice := some false, dataNo := (k.dataNo + 1) % 256 } }

/-- R178: the entry offered to the sender. -/
def Node.offeredNotice (n : Node) : Option Notice :=
  if n.set.noticePush then n.svc.note.queue.find? (·.toHost) else none

/-- R185: of a NOTICE and a DATA frame the kind not sent last goes first. -/
def Link.noticeTurn (k : Link) : Bool :=
  match k.lastNotice with
  | none => Config.noticeFirst
  | some b => !b

/-- R185: what the free sender begins when no REPLY waits. -/
def Node.sendOther (n : Node) : Node :=
  match n.offeredNotice, n.coll.delivery with
  | none, [] => n
  | some e, [] => n.takeNotice e
  | none, f :: _ => n.takeDataFrame f
  | some e, f :: _ => if n.link.noticeTurn then n.takeNotice e else n.takeDataFrame f

/-- R185: the free sender chooses the next frame; a REPLY whose LINK-REPLY-GAP has not passed keeps it waiting
(log entry 27), and between a RESTART's reply and the start it sends nothing (R195). A gap is known by its command's tag
alone, so a tag that the host uses again before the gap has passed holds both replies: the model's choice (log entry 84). -/
def Node.sendNext (n : Node) : Node :=
  if n.link.running = false ∨ n.link.sending.isSome ∨ n.restartDue then n
  else match n.link.replies with
    | [] => n.sendOther
    | r :: rest =>
      if n.link.gaps.contains r.tag then n
      else n.onLink fun k => { k with replies := rest, sending := some (.reply r) }

/-- R171, R185, R195: a frame has been sent whole. -/
def Node.frameSent (n : Node) : Node :=
  match n.link.sending with
  | none => n
  | some f =>
    let n := n.onLink fun k => { k with sending := none }
    match f with
    | .reply r => if r.restart then { n with restartDue := true } else n
    | .notice _ _ _ _ => n
    | .data _ _ => { n with coll := { n.coll with delivery := n.coll.delivery.drop 1 } }

/-- R185: the LINK-REPLY-GAP of the oldest COMMAND frame still open has passed. -/
def Node.gapEnds (n : Node) : Node := n.onLink fun k => { k with gaps := k.gaps.drop 1 }

/-- R184: a frame discarded for bad length. -/
def Node.countBadLength (n : Node) : Node :=
  n.onLink fun k => { k with badLength := bump Config.wordMax k.badLength }

/-- R184: the frame being gathered is discarded for bad length, and the receiver hunts. -/
def Node.discardFrame (n : Node) : Node := n.countBadLength.onLink fun k => { k with gather := [] }

/-- R184: 40 cycle periods have passed since the last byte of a frame still being gathered. -/
def Node.frameGap (n : Node) : Node :=
  if n.link.gather ≠ [] ∧ Config.frameGap ≤ n.svc.now - n.link.gatherAt then n.discardFrame else n

/-! ## The maintenance hold (R187, R188) -/

/-- R187: the lapse timer, started or restarted. -/
def Node.lapseFromNow (n : Node) : Option Nat := some (n.svc.now + secs n.set.holdLapse)

/-- R187: a valid frame restarts the lapse timer while HELD. -/
def Node.restartLapse (n : Node) : Node :=
  if n.cmd.held then n.onCmd fun c => { c with lapse := n.lapseFromNow } else n

/-- R187: MAINT-HOLD from L. -/
def Node.maintHold (n : Node) : Node × Status × Value :=
  if n.cmd.held then (n.restartLapse, .done, .nil)
  else
    ((n.onCmd fun c => { c with held := true, lapse := n.lapseFromNow }).post .holdState .none
      [.hold true, .byCommand], .done, .nil)

/-- R187: MAINT-END from L. -/
def Node.maintEnd (n : Node) : Node × Status × Value :=
  if n.cmd.held then
    ((n.onCmd fun c => { c with held := false, lapse := none }).post .holdState .none [.hold false, .byCommand],
      .done, .nil)
  else (n, .done, .nil)

/-- R187: the lapse timer expires. -/
def Node.holdLapses (n : Node) : Node :=
  if n.cmd.held && due n.svc.now n.cmd.lapse then
    (n.onCmd fun c => { c with held := false, lapse := none }).post .holdLapsed .none []
  else n

/-- R188: HOLD-RELEASE-ASK from C. -/
def Node.holdReleaseAsk (n : Node) : Node × Status × Value :=
  (if n.cmd.held then n.post .holdAsked .none [] else n, .done, .hold n.cmd.held)

/-! ## NOTE's commands -/

/-- R179: NOTICE-READ; from channel C nothing is taken away. -/
def Node.noticeRead (n : Node) (o : Origin) (count : Nat) : Node × Status × Value :=
  if count < 1 ∨ 8 < count then (n, .badArgument, .nil)
  else
    let r := n.svc.note.readReply count
    let v : Value := .cons (.list (r.1.map noticeReport)) r.2
    match o with
    | .link _ => (n.onSvc fun s => s.readFromL count, .done, v)
    | .centre _ => (n, .done, v)

/-- R182: NOTICE-CLEAR. -/
def Node.noticeClear (n : Node) : Node × Status × Value :=
  (n.onSvc fun s => { s with note := { s.note with overflow := false, lost := 0 } }, .done, .nat n.svc.note.lost)

/-- R177: NOTICE-ROUTE-SET. -/
def Node.noticeRouteSet (n : Node) (code : Option NoticeCode) (host centre : Bool) : Node × Status × Value :=
  match code with
  | none => (n, .badArgument, .nil)
  | some c =>
    (n.onSettings fun s => { s with routes := putRoute s.routes { code := c, host := host, centre := centre } },
      .done, .nil)

/-- R183: the attention pause ends. -/
def Node.pauseEnds (n : Node) : Node :=
  if due n.svc.now n.svc.note.pauseUntil then
    n.onSvc fun s => { s with note := { s.note with pauseUntil := none }.setAttention }
  else n

/-- R181: a NOTICE-FWD reaches the head-end. -/
def Node.takeNotices (n : Node) (source : Nat) (l : List Notice) : Node :=
  n.onSvc fun s => { s with note := l.foldl (fun t e => t.receive source e) s.note }

end Sys2Proof.Machine
end

