-- ==== Sys2Proof/Machine/Cmd.lean ====
section
/-! DEFINITION. CMD: the catalogue (10 section 10.8), how a command is checked and executed (R186, R188), forwarding (R47–R49) and what is told at a freeing (R31). -/

namespace Sys2Proof.Machine

/-! ## The catalogue (10 section 10.8) -/

/-- 10 section 10.8: a row of the catalogue. -/
structure Listing where
  role : Option Role
  onL : Bool
  onC : Bool
  hold : HoldClass
  deriving DecidableEq, Repr

/-- Taken in both roles by both channels. -/
def Listing.both (h : HoldClass) : Listing := { role := none, onL := true, onC := true, hold := h }

/-- Taken at the head-end from L. -/
def Listing.head (h : HoldClass) : Listing := { role := some .headEnd, onL := true, onC := false, hold := h }

/-- Taken at a wayside by both channels. -/
def Listing.way (h : HoldClass) : Listing := { role := some .wayside, onL := true, onC := true, hold := h }

/-- Taken in both roles from L alone. -/
def Listing.local_ : Listing := { role := none, onL := true, onC := false, hold := .none }

/-- 10 section 10.8. -/
def Command.listing : Command → Listing
  | .ringStatus => .both .read
  | .portStatus _ => .both .read
  | .timeRead => .both .read
  | .portEnable _ => .both .device
  | .portDisable _ => .both .device
  | .portReset _ => .both .device
  | .portLoopback _ => .both .device
  | .surveyStart => .head .none
  | .timeSet _ => .head .none
  | .stationMapRead _ => .head .read
  | .windowStatus => .both .read
  | .phoneStatus => .way .read
  | .callList _ => .head .none
  | .callAnswer _ _ => .head .none
  | .callEnd _ => .head .none
  | .callRing _ _ _ => .head .none
  | .voiceCapSet _ => .head .none
  | .zoneStart _ => .way .zone
  | .zoneClear _ _ => .way .zone
  | .signShow _ _ => .way .zone
  | .signStage _ _ _ => .way .zone
  | .signUnstage _ => .way .zone
  | .beaconSetSingle _ _ _ => .way .zone
  | .beaconSetCancel _ => .way .zone
  | .zoneStatus => .way .read
  | .signStatus _ => .way .read
  | .release _ => .head .zone
  | .deviceList => .way .read
  | .rosterRead => .way .read
  | .inputStatus => .way .read
  | .deviceStatus _ => .way .read
  | .deviceStatusPoll _ _ => .way .device
  | .rosterSet _ _ => .way .device
  | .lineReset _ => .way .device
  | .restartPulse _ => .way .device
  | .poolStatus => .both .read
  | .tollStatus _ => .way .read
  | .wxStatus _ => .way .read
  | .ruleStatus => .way .read
  | .ruleSet _ _ => .way .setting
  | .collect _ _ _ => .head .collection
  | .collectConfirm _ => .head .collection
  | .collectDrop _ => .head .collection
  | .collectStatus => .both .read
  | .noticeRead _ => .both .read
  | .identify => .both .read
  | .noticeClear => .both .setting
  | .noticeRouteSet _ _ _ => .both .setting
  | .maintHold => .local_
  | .maintEnd => .local_
  | .holdReleaseAsk => { role := some .wayside, onL := false, onC := true, hold := .always }
  | .settingWrite _ _ _ => .both .setting
  | .settingRead _ _ => .both .read
  | .storeRead _ => .both .read
  | .storeAppend _ => .local_
  | .restart => .local_

/-- R186 step 3: whether a command is taken on the channel it came by. -/
def Listing.takenFrom (r : Listing) : Origin → Bool
  | .link _ => r.onL
  | .centre _ => r.onC

/-- R188: the classes refused from C while HELD. -/
def HoldClass.held : HoldClass → Bool
  | .setting => true
  | .device => true
  | _ => false

/-- Whether an origin is channel C. -/
def Origin.isCentre : Origin → Bool
  | .link _ => false
  | .centre _ => true

/-- R188: STORE-APPEND is taken only while the hold is HELD. -/
def Command.needsHold : Command → Bool
  | .storeAppend _ => true
  | _ => false

/-- R186 steps 3 and 4, R188: the status that refuses a command before its block sees it. -/
def Node.refusal (n : Node) (o : Origin) (c : Command) : Option Status :=
  let r := Command.listing c
  if r.role = some .headEnd ∧ n.isHead = false ∨ r.role = some .wayside ∧ n.isHead = true then some .wrongRole
  else if r.takenFrom o = false then some .wrongState
  else if Origin.isCentre o = true ∧ n.cmd.held = true ∧ HoldClass.held r.hold = true then some .held
  else if Command.needsHold c = true ∧ n.cmd.held = false then some .wrongState
  else none

/-! ## Execution (R186 step 5) -/

/-- A command that ends as soon as it is taken. -/
def atOnce (x : Node × Status × Value) : Node × Option (Status × Value) := (x.1, some x.2)

/-- A read-class command that is always replied DONE. -/
def told (n : Node) (v : Value) : Node × Option (Status × Value) := (n, some (.done, v))

/-- R22: SURVEY-START. -/
def Node.surveyCommand (n : Node) : Node × Status × Value := (n.startSurvey, .done, .nil)

/-- R90: RELEASE; the command stays in progress until the marker carrying its tag has been originated. -/
def Node.releaseCommand (n : Node) (tag : Nat) : Node × Option (Status × Value) :=
  if tag < 1 ∨ 255 < tag then (n, some (.badArgument, .nil))
  else (n.onHead fun h => { h with tag := some tag }, none)

/-- R195: RESTART; its reply, once sent, lets a start begin. -/
def Node.restartCommand (n : Node) : Node × Status × Value :=
  if n.link.running then (n, .done, .nil) else (n, .wrongState, .nil)

/-- The block that owns a command's record executes it; without a status the command stays in progress. -/
def Node.perform (n : Node) (mem : Memory) (o : Origin) : Command → Node × Option (Status × Value)
  | .portEnable p => atOnce (n.portEnable p)
  | .portDisable p => atOnce (n.portDisable p)
  | .portReset p => atOnce (n.portReset p)
  | .portLoopback p => atOnce (n.portLoopback p)
  | .portStatus p => atOnce (n.portStatus p)
  | .timeSet s => atOnce (n.timeSet s)
  | .timeRead => told n n.timeRead
  | .surveyStart => atOnce n.surveyCommand
  | .stationMapRead first => atOnce (n.stationMapRead first)
  | .ringStatus => told n n.ringStatus
  | .windowStatus => told n n.windowStatus
  | .phoneStatus => told n n.phoneStatus
  | .callAnswer call console => atOnce (n.callAnswer call console)
  | .callEnd call => atOnce (n.callEnd call)
  | .callRing station port console => atOnce (n.callRing station port console)
  | .voiceCapSet cap => atOnce (n.voiceCapSet cap)
  | .callList first => atOnce (n.callList first)
  | .zoneStart z => atOnce (n.zoneStart z)
  | .zoneClear z l => atOnce (n.zoneClear z l)
  | .signShow d p => atOnce (n.signShow d p)
  | .signStage d p tag => atOnce (n.signStage d p tag)
  | .signUnstage d => atOnce (n.signUnstage d)
  | .signStatus d => atOnce (n.signStatus d)
  | .release tag => n.releaseCommand tag
  | .beaconSetSingle b on off => atOnce (n.beaconSingle b on off)
  | .beaconSetCancel b => atOnce (n.beaconCancel b)
  | .zoneStatus => told n n.zoneStatus
  | .rosterSet e arg => atOnce (n.rosterSet e arg)
  | .rosterRead => told n n.rosterRead
  | .lineReset l => atOnce (n.lineReset l)
  | .restartPulse x => atOnce (n.restartPulse x)
  | .inputStatus => told n n.inputStatus
  | .deviceList => told n n.deviceList
  | .deviceStatus d => atOnce (n.deviceStatus d)
  | .deviceStatusPoll d poll => n.devicePoll o d poll
  | .poolStatus => told n n.svc.pool.report
  | .tollStatus first => atOnce (n.tollStatus first)
  | .ruleSet k arg => atOnce (n.ruleSet k arg)
  | .ruleStatus => told n n.ruleStatus
  | .wxStatus first => atOnce (n.wxStatus first)
  | .collect station kind max => atOnce (n.collect station kind max)
  | .collectConfirm b => atOnce (n.collectConfirm b)
  | .collectDrop b => atOnce (n.collectDrop b)
  | .collectStatus => told n n.collectStatus
  | .noticeRead count => atOnce (n.noticeRead o count)
  | .noticeClear => atOnce n.noticeClear
  | .noticeRouteSet c host centre => atOnce (n.noticeRouteSet c host centre)
  | .maintHold => atOnce n.maintHold
  | .maintEnd => atOnce n.maintEnd
  | .holdReleaseAsk => atOnce n.holdReleaseAsk
  | .identify => told n n.identify
  | .settingWrite op item v => atOnce (n.settingWrite item op v)
  | .settingRead item key => atOnce (n.settingRead mem item key)
  | .storeAppend r => n.storeAppend mem r
  | .storeRead off => atOnce (n.storeRead mem off)
  | .restart => atOnce n.restartCommand

/-- R186 step 5: a command becomes its channel's command in progress, is executed, and ends if it got a status. -/
def Node.execute (n : Node) (mem : Memory) (o : Origin) (c : Command) : Node :=
  let p : InProgress := { origin := o, cmd := c }
  let r := (n.onCmd fun k => k.setChannel o (some p)).perform mem o c
  match r.2 with
  | some (st, v) => r.1.endCommand o st v
  | none => r.1

/-- R186 steps 1 and 2: a busy channel or an unknown code ends a command before its other checks. -/
def Node.preCheck (n : Node) (o : Origin) (p : Parsed) : Option Status :=
  if (n.cmd.channel o).isSome then some .busy
  else match p with
    | .unknown => some .unknownCommand
    | _ => none

/-- R186: a command arrives on a channel. -/
def Node.takeCommand (n : Node) (mem : Memory) (o : Origin) (p : Parsed) : Node :=
  match n.preCheck o p with
  | some st => n.replyTo o p st .nil
  | none =>
    match p with
    | .unknown => n.replyTo o p .unknownCommand .nil
    | .garbled c => n.replyTo o p ((n.refusal o c).getD .badArgument) .nil
    | .command c =>
      match n.refusal o c with
      | some st => n.replyTo o p st .nil
      | none => n.execute mem o c

/-! ## Forwarding (R47–R49) -/

/-- R47: the status that refuses a FORWARD. -/
def Node.forwardRefusal (n : Node) (station : Nat) : Option Status :=
  if 4 ≤ n.cmd.forwards.length then some .busy
  else match n.head.entry station with
    | none => some .notFound
    | some e =>
      match e.presence with
      | .unreachable => some .notFound
      | .duplicate => some .duplicate
      | .present => none

/-- R47: the entry is made and the COMMAND-FWD offered. -/
def Node.makeForward (n : Node) (tag station : Nat) (p : Parsed) : Node :=
  let k := nextNumber 255 (n.cmd.forwards.map (·.number)) 4 n.cmd.lastForward
  let e : Forward :=
    { number := k, station := station, tag := tag, startCycle := n.head.number, start := n.svc.now, cmd := p }
  (n.onCmd fun c => { c with forwards := c.forwards ++ [e], lastForward := k }).offerCmd
    { source := n.me, dest := station, length := messageSlots (.commandFwd k p), payload := .commandFwd k p }

/-- R47, R186: a COMMAND frame whose station field is not 0. -/
def Node.forward (n : Node) (tag station : Nat) (p : Parsed) : Node :=
  match n.preCheck (.link tag) p with
  | some st => n.replyTo (.link tag) p st .nil
  | none =>
    if n.isHead then
      match n.forwardRefusal station with
      | some st => n.replyTo (.link tag) p st .nil
      | none => n.makeForward tag station p
    else n.replyTo (.link tag) p .wrongRole .nil

/-- R49: a forward ends, with the reply frame of its station. -/
def Node.endForward (n : Node) (e : Forward) (st : Status) (v : Value) : Node :=
  (n.onCmd fun c => { c with forwards := c.forwards.filter fun f => f.number ≠ e.number }).pushReply
    { tag := e.tag, station := e.station, cmd := e.cmd, status := st, result := v, restart := false }

/-- R49: a REPLY-FWD reaches the head-end. -/
def Node.takeReplyFwd (n : Node) (source fwd : Nat) (st : Status) (v : Value) : Node :=
  match n.cmd.forwards.find? fun e => e.number = fwd && e.station = source with
  | some e => n.endForward e st v
  | none => { n with win := { n.win with undelivered := bump Config.wordMax n.win.undelivered } }

/-- Whether a message is the COMMAND-FWD of a forward. -/
def isForwardOf (fwd : Nat) (m : Message) : Bool :=
  match m.payload with
  | .commandFwd k _ => k = fwd
  | _ => false

/-- R49: the forward timeout passes for an entry. -/
def Node.forwardTimeout (n : Node) (fwd : Nat) : Node :=
  match n.cmd.forwards.find? fun e => e.number = fwd with
  | none => n
  | some e =>
    if ms n.set.forwardTimeout ≤ n.svc.now - e.start then
      let n := n.onSvc fun s => s.withdrawNormal (isForwardOf fwd)
      let n := n.onCmd fun c => { c with refused := c.refused.filter fun m => !isForwardOf fwd m }
      n.endForward e .timeout .nil
    else n

/-! ## What is told at a freeing (R31) -/

/-- R31: the producers that may hold a refused message. -/
inductive Producer where
  | call | cmd | note | coll
  deriving DecidableEq, Repr

/-- R31, R180: whether a producer has something to offer. -/
def Node.waits (n : Node) : Producer → Bool
  | .call => !n.call.held.isEmpty
  | .cmd => !n.cmd.refused.isEmpty
  | .note => !n.isHead && n.svc.note.queue.any (·.toCentre)
  | .coll => !n.coll.heldH.isEmpty || !n.coll.heldW.isEmpty

/-- R31: a producer offers again. -/
def Node.offerAgain (n : Node) : Producer → Node
  | .call => n.retryCalls n.call.held
  | .cmd => Node.retryCmd n.cmd.refused n
  | .note => n.onSvc (Svc.lookCentre 2)
  | .coll => if n.isHead then Node.retryHeldH n.coll.heldH n else Node.retryHeldW n.coll.heldW n

/-- R31: those told of a freeing offer again, in an order the manual leaves open (log entry 12). -/
def Node.tellEach : (fuel : Nat) → List Producer → Node → Node
  | 0, _, n => n
  | _, [], n => n
  | _, [p], n => n.offerAgain p
  | fuel + 1, p :: l, n =>
    let k := Config.producerChoice n.svc.free % (p :: l).length
    let q := (p :: l)[k]?.getD p
    Node.tellEach fuel ((p :: l).filter (· ≠ q)) (n.fresh.offerAgain q)

/-- R31: a freeing is told to every producer holding a refused message; a freeing that comes of it is told too. -/
def Node.tellFreed : (fuel : Nat) → Node → Node
  | 0, n => n
  | fuel + 1, n =>
    if n.svc.freed then
      let n := n.onSvc fun s => { s with freed := false }
      let told := [Producer.call, .cmd, .note, .coll].filter n.waits
      Node.tellFreed fuel (Node.tellEach 4 told n)
    else n

/-! ## The end of a step -/

/-- What follows of a step's changes within the step: restart conditions (R114), exchanges (R103), freeings (R31) and
the host link sender (R185), in this order (log entry 11). -/
def Node.settle (n : Node) : Node := (Node.tellFreed 64 n.evaluateOutputs.lookAll).sendNext

end Sys2Proof.Machine
end

