-- ==== Sys2Proof/Machine/Start.lean ====
section
/-! DEFINITION. Full reset and start-up (R194, R195), the writing of the store (R192), and how an event or a command of the table acts on the machine. -/

namespace Sys2Proof.Machine

/-! ## Reset and start (R194) -/

/-- R192: the store after a full reset: a record being written is left partly written (log entry 21). -/
def State.storeAfterReset (s : State) : Memory :=
  match s.node.writing with
  | none => s.store
  | some r => writePartly s.node.svc.free s.store (storeEnd s.store) r

/-- R194 steps 1 and 2, R192: a full reset; the store, what stands at the inputs and the waiting commands stay. -/
def State.fullReset (s : State) : State :=
  { s with
    store := s.storeAfterReset
    node := Node.fullReset s.node.pins (s.node.svc.free + if s.node.writing.isSome then 1 else 0) }

/-- R194 step 3: the working values of the next-start items become their stored values. -/
def Node.takeNextStart (n : Node) (m : Memory) : Node :=
  n.onSettings fun s =>
    ((s.withNumber 1 (storedValue m 1)).withNumber 3 (storedValue m 3)).withNumber 4 (storedValue m 4)

/-- 11 section 11.5: the rate that the straps choose, 1–4 in the order of the table. -/
def Pins.rate (p : Pins) : Nat :=
  match p.strapA, p.strapB with
  | false, false => 1
  | true, false => 2
  | false, true => 3
  | true, true => 4

/-- R194 step 5: the host link starts and START is posted as the first notice. -/
def Node.startLink (n : Node) : Node :=
  let rate := if n.set.linkRate = 0 then n.pins.rate else n.set.linkRate
  let n := n.onLink fun k => { k with running := true, rate := rate }
  let n := n.onSvc fun s => { s with note := { s.note with keep := true } }
  n.post .start .none [.role n.set.role, .nat n.me, .nat n.applied, .nat n.skipped]

/-- R194 step 6: the transmitters send probe pattern, and a port that has light leaves DARK (R5). -/
def Node.startPorts (n : Node) : Node :=
  let on (r : Port) : Port := { r with transmit := true }
  ({ n with east := on n.east, west := on n.west }.seeLight .east).seeLight .west

/-- R194 step 7 at the head-end: markers, the first survey and the origination of the outer loop. -/
def Node.startHead (n : Node) : Node :=
  ((n.onHead fun h => { h with started := true }).startSurvey).beginLoop .outer

/-- R100, R105: a device as a start leaves it. -/
def Node.startDevice (n : Node) (d : Nat) : Node :=
  n.onDevice d fun _ =>
    if n.set.kindOf d = .unused then .reset
    else { Device.reset with state := .absent, joinDue := n.dueNow d }

/-- R194 step 7 at a wayside: joins, roster due times, restart outputs, and the debouncers of the contacts
(log entry 40). -/
def Node.startWayside (n : Node) : Node :=
  let n := n.onTrib fun t => { t with started := true }
  let n := (places 8).foldl Node.startDevice n
  let n := (places 16).foldl (fun n e => n.onRoster e fun _ => freshRoster n.svc.now (n.set.rosterEntry e)) n
  let n := (places 8).foldl (fun n p => n.timeHook p ((nth n.pins.offHook p).getD false)) n
  (places 4).foldl Node.timeInput n

/-- R194: a start, from a node in its reset state. -/
def Node.start (n : Node) (m : Memory) : Node :=
  let n := (n.takeNextStart m).applyStore m
  let n := { n.startLink.startPorts with phase := .started }
  (if n.isHead then n.startHead else n.startWayside).settle

/-- R194, R195: a start begins when the reset input is released or once a RESTART's reply has been sent. -/
def State.start (s : State) : State :=
  if s.node.phase = .held ∨ s.node.restartDue = true then
    let t := s.fullReset
    { t with node := t.node.start t.store }
  else s

/-! ## The record being written (R192) -/

/-- R192: the record stands in the store. -/
def State.written (s : State) (r : List Byte) : Memory := writeBytes s.store (storeEnd s.store) r

/-- R192: the command that began the writing ends. -/
def Node.writeDone (n : Node) (m : Memory) : Node :=
  let n := { n with writing := none }
  match n.cmd.chanL with
  | some { origin := o, cmd := .storeAppend _ } =>
    n.endCommand o .done (.list [.nat (storeEnd m), .nat (Config.storeSize - storeEnd m)])
  | _ => n

/-- R192: the record's bytes have been written. -/
def State.writeDone (s : State) : State :=
  match s.node.writing with
  | none => s
  | some r => { s with store := s.written r, node := (s.node.writeDone (s.written r)).settle }

/-! ## Events and commands -/

/-- Act on the node alone. -/
def State.act (s : State) (f : Node → Node) : Host.Outcome State Fault Refusal := .next { s with node := f s.node }

/-- An event of both roles; while the reset input is held nothing happens (log entry 5). -/
def Node.onEvent (f : Node → Node) (n : Node) : Node := if n.phase = .started then (f n).settle else n

/-- An event of one role; at a node of the other role nothing happens (log entry 5). -/
def Node.onRole (head : Bool) (f : Node → Node) (n : Node) : Node :=
  if n.phase = .started ∧ n.isHead = head then (f n).settle else n

/-- R30: a complete message is handed over to its taker, so it no longer waits (log entry 10). -/
def Node.handOver (n : Node) (is : Message → Bool) : Node :=
  { n with win := { n.win with arrived := dropFirst is n.win.arrived } }

/-- Whether a message has this body and, where one is given, this source. -/
def isMessage (source : Option Nat) (p : Payload) (m : Message) : Bool :=
  decide (m.payload = p) &&
    match source with
    | none => true
    | some st => decide (m.source = st)

/-- R30: a complete message reaches its taker; one of a kind the role does not take is discarded and counted. -/
def Node.onMessage (head : Bool) (source : Option Nat) (p : Payload) (f : Node → Node) (n : Node) : Node :=
  if n.phase = .held then n
  else if n.isHead = head then (f (n.handOver (isMessage source p))).settle
  else if takesKind n.set.role p then n
  else { n with win := n.win.countIncomplete 1 }

/-- R195: a command at a node whose host link has not started: a RESTART from L is taken and refused, and no other command
acts (log entry 5). -/
def Node.beforeLink (n : Node) (mem : Memory) (o : Origin) (c : Command) : Node :=
  match o, c with
  | .link _, .restart => if n.link.running then n else n.takeCommand mem o (.command c)
  | _, _ => n

/-- R186: a command of the catalogue arrives on a channel; a head-end has no channel C. Its row is the command alone: that it
stands for no frame of R184, so that it counts none, restarts no lapse timer and opens no gap, is the model's choice (log
entry 83). While the reset input is held only a RESTART is answered (R195). -/
def Node.onCommand (mem : Memory) (o : Origin) (c : Command) (n : Node) : Node :=
  if n.phase = .held then n.beforeLink mem o c
  else if Origin.isCentre o = true ∧ n.isHead = true then n
  else (n.takeCommand mem o (.command c)).settle

/-- The machine after a command of the catalogue. -/
def State.command (s : State) (o : Origin) (c : Command) : Host.Outcome State Fault Refusal :=
  s.act (Node.onCommand s.store o c)

/-! ## The receiver of the host link (R184) -/

/-- R184: a frame that passed its check. -/
def Node.validFrame (n : Node) (mem : Memory) (f : RawFrame) : Node :=
  let n := (n.onLink fun k => { k with valid := bump Config.wordMax k.valid }).restartLapse
  if f.kind ≠ 1 then n.onLink fun k => { k with wrongKind := bump Config.wordMax k.wrongKind }
  else
    let n := if 0 < n.set.replyGap then n.onLink fun k => { k with gaps := k.gaps ++ [f.tag] } else n
    let p := Config.parseCommand f.code f.body
    if f.station ≠ 0 then n.forward f.tag f.station p else n.takeCommand mem (.link f.tag) p

/-- R184: a whole frame is checked; what fails its CRC is counted and discarded. -/
def Node.takeFrame (n : Node) (mem : Memory) (f : RawFrame) : Node :=
  if f.good then n.validFrame mem f
  else n.onLink fun k => { k with badCrc := bump Config.wordMax k.badCrc }

/-- R184: the receiver goes through the bytes it has: it hunts, gathers and takes whole frames (log entry 29). -/
def Node.receiveBytes (mem : Memory) : (fuel : Nat) → List Byte → Node → Node
  | 0, _, n => n
  | fuel + 1, l, n =>
    match receive l with
    | .nothing => n
    | .hunting rest => Node.receiveBytes mem fuel rest n
    | .gathering => n.onLink fun k => { k with gather := l, gatherAt := n.svc.now }
    | .wrongLength rest => Node.receiveBytes mem fuel rest n.countBadLength
    | .frame f rest => Node.receiveBytes mem fuel rest (n.takeFrame mem f)

/-- R184: bytes arrive behind those of a frame still being gathered. -/
def Node.receiveFrame (n : Node) (mem : Memory) (bytes : List Byte) : Node :=
  if bytes = [] then n
  else
    let l := n.link.gather ++ bytes
    Node.receiveBytes mem (l.length + 1) l (n.onLink fun k => { k with gather := [] })

end Sys2Proof.Machine
end

