-- ==== Sys2Proof/Machine/ExecCall.lean ====
section
/-! DEFINITION. The meanings of the rows of emergency calls (03): one definition per row of spec/opcode_table.json. -/

namespace Sys2Proof.Machine

/-- What stands at a hook contact. -/
def Node.setHook (n : Node) (p : Nat) (b : Bool) : Node :=
  { n with pins := { n.pins with offHook := put n.pins.offHook p b } }

/-- R55: a CALL-BUSY leaves the record as it is. -/
def Node.takeBusy (n : Node) (_port : Nat) : Node := n

/-- R51: a hook contact changes. -/
def execHookContactChange (port : Nat) (offHook : Bool) (s : State) : Host.Outcome State Fault Refusal :=
  s.act fun n => Node.onRole false (fun n => n.timeHook port offHook) (n.setHook port offHook)

/-- R51, R52: the hook debounce time passes. -/
def execHookDebounceExpiry (port : Nat) (s : State) : Host.Outcome State Fault Refusal :=
  s.act (Node.onRole false fun n => n.hookSettled port)

/-- R54: a record's repeat timer expires. -/
def execRepeatTimerExpiry (port : Nat) (s : State) : Host.Outcome State Fault Refusal :=
  s.act (Node.onRole false fun n => n.repeatExpires port)

/-- R55: a CALL-QUEUED reaches a wayside. -/
def execCallQueued (port call place : Nat) (s : State) : Host.Outcome State Fault Refusal :=
  s.act (Node.onMessage false none (.callQueued port call place) fun n => n.takeQueued port call)

/-- R55: a CALL-ASSIGN reaches a wayside. -/
def execCallAssign (port call slot : Nat) (s : State) : Host.Outcome State Fault Refusal :=
  s.act (Node.onMessage false none (.callAssign port call slot) fun n => n.takeAssign port call slot)

/-- R55: a CALL-BUSY reaches a wayside. -/
def execCallBusy (port : Nat) (s : State) : Host.Outcome State Fault Refusal :=
  s.act (Node.onMessage false none (.callBusy port) fun n => n.takeBusy port)

/-- R55: a CALL-RING reaches a wayside. -/
def execCallRingAtWayside (port call slot : Nat) (s : State) : Host.Outcome State Fault Refusal :=
  s.act (Node.onMessage false none (.callRing port call slot) fun n => n.takeRing port call slot)

/-- R55: a CALL-ANSWERED reaches a wayside. -/
def execCallAnsweredAtWayside (port call : Nat) (s : State) : Host.Outcome State Fault Refusal :=
  s.act (Node.onMessage false none (.callAnswered port call) fun n => n.takeAnswered port call)

/-- R58: a CALL-CLEAR reaches a wayside. -/
def execCallClearAtWayside (port call : Nat) (s : State) : Host.Outcome State Fault Refusal :=
  s.act (Node.onMessage false none (.callClear port (some call)) fun n => n.takeClear port call)

/-- R58: a CALL-CLEARED reaches a wayside. -/
def execCallClearedAtWayside (port call : Nat) (s : State) : Host.Outcome State Fault Refusal :=
  s.act (Node.onMessage false none (.callCleared port call) fun n => n.takeCleared port call)

/-- R56: a label run has reached 8. -/
def execLabelRunLimit (port : Nat) (s : State) : Host.Outcome State Fault Refusal :=
  s.act (Node.onRole false fun n => n.labelLimit port)

/-- R61: PHONE-STATUS. -/
def execPhoneStatus (o : Origin) (s : State) : Host.Outcome State Fault Refusal := s.command o .phoneStatus

/-- R64: a CALL-REQUEST reaches the head-end. -/
def execCallRequest (station port : Nat) (time : NodeTime) (s : State) : Host.Outcome State Fault Refusal :=
  s.act (Node.onMessage true (some station) (.callRequest port time) fun n => n.takeRequest station port)

/-- R65: CALL-ANSWER. -/
def execCallAnswer (o : Origin) (call console : Nat) (s : State) : Host.Outcome State Fault Refusal :=
  s.command o (.callAnswer call console)

/-- R66: CALL-END. -/
def execCallEnd (o : Origin) (call : Nat) (s : State) : Host.Outcome State Fault Refusal :=
  s.command o (.callEnd call)

/-- R67: CALL-RING. -/
def execCallRing (o : Origin) (station port console : Nat) (s : State) : Host.Outcome State Fault Refusal :=
  s.command o (.callRing station port console)

/-- R67: a RINGING entry's ring timer expires. -/
def execRingTimerExpiry (call : Nat) (s : State) : Host.Outcome State Fault Refusal :=
  s.act (Node.onRole true fun n => n.ringExpires call)

/-- R68: a CALL-ANSWERED reaches the head-end. -/
def execCallAnsweredAtHeadEnd (station port call : Nat) (s : State) : Host.Outcome State Fault Refusal :=
  s.act (Node.onMessage true (some station) (.callAnswered port call) fun n => n.takeAnsweredHead station port call)

/-- R69: a CALL-CLEAR reaches the head-end. -/
def execCallClearAtHeadEnd (station port : Nat) (call : Option Nat) (s : State) : Host.Outcome State Fault Refusal :=
  s.act (Node.onMessage true (some station) (.callClear port call) fun n => n.takeClearHead station port call)

/-- R70: a CALL-CLEARED reaches the head-end. -/
def execCallClearedAtHeadEnd (station port call : Nat) (s : State) : Host.Outcome State Fault Refusal :=
  s.act (Node.onMessage true (some station) (.callCleared port call) fun n => n.takeClearedHead station port call)

/-- R70: a CLEARING entry's drain timer expires. -/
def execDrainTimerExpiry (call : Nat) (s : State) : Host.Outcome State Fault Refusal :=
  s.act (Node.onRole true fun n => n.drainExpires call)

/-- R71: VOICE-CAP-SET. -/
def execVoiceCapSet (o : Origin) (cap : Nat) (s : State) : Host.Outcome State Fault Refusal :=
  s.command o (.voiceCapSet cap)

/-- R73: CALL-LIST. -/
def execCallList (o : Origin) (first : Nat) (s : State) : Host.Outcome State Fault Refusal :=
  s.command o (.callList first)

end Sys2Proof.Machine
end

