-- ==== Sys2Proof/Machine/ExecColl.lean ====
section
/-! DEFINITION. The meanings of the rows of collection (09): one definition per row of spec/opcode_table.json. -/

namespace Sys2Proof.Machine

/-- R170: a batch entry's timer expires. -/
def Node.batchExpires (n : Node) (batch : Nat) : Node :=
  match n.coll.batches.find? fun e => e.number = batch with
  | none => n
  | some e => if due n.svc.now e.timer then n.endBatch e .timeout else n

/-- R164: COLLECT. -/
def execCollect (o : Origin) (station : Nat) (kind : Option CollKind) (max : Nat) (s : State) :
    Host.Outcome State Fault Refusal :=
  s.command o (.collect station kind max)

/-- R166: a COLLECT-ASK reaches a wayside. -/
def execCollectAsk (batch : Nat) (kind : CollKind) (max : Nat) (s : State) : Host.Outcome State Fault Refusal :=
  s.act (Node.onMessage false none (.collectAsk batch kind max) fun n => n.takeAsk batch kind max)

/-- R169: a BATCH-HEAD reaches the head-end. -/
def execBatchHead (source batch : Nat) (kind : CollKind) (n : Nat) (s : State) : Host.Outcome State Fault Refusal :=
  s.act (Node.onMessage true (some source) (.batchHead batch kind n)
    fun x => x.takeBatchMessage source batch kind n fun _ x => x)

/-- R169: a BATCH-ITEM reaches the head-end. -/
def execBatchItem (source batch : Nat) (kind : CollKind) (n index : Nat) (item : Item) (s : State) :
    Host.Outcome State Fault Refusal :=
  s.act (Node.onMessage true (some source) (.batchItem batch kind n index item)
    fun x => x.takeBatchMessage source batch kind n (Node.takeItem index n item))

/-- R169: a BATCH-END reaches the head-end. -/
def execBatchEnd (source batch : Nat) (kind : CollKind) (n : Nat) (s : State) : Host.Outcome State Fault Refusal :=
  s.act (Node.onMessage true (some source) (.batchEnd batch kind n)
    fun x => x.takeBatchMessage source batch kind n Node.takeEnd)

/-- R170: a batch's collection timeout passes. -/
def execBatchTimerExpiry (batch : Nat) (s : State) : Host.Outcome State Fault Refusal :=
  s.act (Node.onRole true fun n => n.batchExpires batch)

/-- R172: COLLECT-CONFIRM. -/
def execCollectConfirm (o : Origin) (batch : Nat) (s : State) : Host.Outcome State Fault Refusal :=
  s.command o (.collectConfirm batch)

/-- R173: COLLECT-DROP. -/
def execCollectDrop (o : Origin) (batch : Nat) (s : State) : Host.Outcome State Fault Refusal :=
  s.command o (.collectDrop batch)

/-- R174: a COLLECT-ACK reaches a wayside. -/
def execCollectAck (batch : Nat) (list : AckList) (s : State) : Host.Outcome State Fault Refusal :=
  s.act (Node.onMessage false none (.collectAck batch list) fun n => n.takeAck list)

/-- R175: COLLECT-STATUS. -/
def execCollectStatus (o : Origin) (s : State) : Host.Outcome State Fault Refusal := s.command o .collectStatus

end Sys2Proof.Machine
end

