-- ==== Sys2Proof/Machine/ExecHost.lean ====
section
/-! DEFINITION. The meanings of the rows of notices, the host link and the maintenance hold (10): one definition per row of spec/opcode_table.json. -/

namespace Sys2Proof.Machine

/-- R181: a NOTICE-FWD reaches the head-end. -/
def execNoticeFwd (source : Nat) (entries : List Notice) (s : State) : Host.Outcome State Fault Refusal :=
  s.act (Node.onMessage true (some source) (.noticeFwd entries) fun n => n.takeNotices source entries)

/-- R179: NOTICE-READ. -/
def execNoticeRead (o : Origin) (count : Nat) (s : State) : Host.Outcome State Fault Refusal :=
  s.command o (.noticeRead count)

/-- R182: NOTICE-CLEAR. -/
def execNoticeClear (o : Origin) (s : State) : Host.Outcome State Fault Refusal := s.command o .noticeClear

/-- R177: NOTICE-ROUTE-SET. -/
def execNoticeRouteSet (o : Origin) (code : Option NoticeCode) (host centre : Bool) (s : State) :
    Host.Outcome State Fault Refusal :=
  s.command o (.noticeRouteSet code host centre)

/-- R183: the attention pause ends. -/
def execAttentionPauseExpiry (s : State) : Host.Outcome State Fault Refusal := s.act (Node.onEvent Node.pauseEnds)

/-- R184: a frame arrives on the host link. -/
def execHostFrameReceived (bytes : List Byte) (s : State) : Host.Outcome State Fault Refusal :=
  s.act (Node.onEvent fun n => n.receiveFrame s.store bytes)

/-- R184: a frame is cut short. -/
def execFrameGapTimeout (s : State) : Host.Outcome State Fault Refusal := s.act (Node.onEvent Node.frameGap)

/-- R185: the sender has finished a frame. -/
def execFrameSent (s : State) : Host.Outcome State Fault Refusal := s.act (Node.onEvent Node.frameSent)

/-- R187: MAINT-HOLD. -/
def execMaintHold (o : Origin) (s : State) : Host.Outcome State Fault Refusal := s.command o .maintHold

/-- R187: MAINT-END. -/
def execMaintEnd (o : Origin) (s : State) : Host.Outcome State Fault Refusal := s.command o .maintEnd

/-- R187: the hold's lapse timer expires. -/
def execHoldLapseExpiry (s : State) : Host.Outcome State Fault Refusal := s.act (Node.onEvent Node.holdLapses)

/-- R188: HOLD-RELEASE-ASK. -/
def execHoldReleaseAsk (o : Origin) (s : State) : Host.Outcome State Fault Refusal := s.command o .holdReleaseAsk

/-- R189: IDENTIFY. -/
def execIdentify (o : Origin) (s : State) : Host.Outcome State Fault Refusal := s.command o .identify

/-- R184: a body length byte above 240. -/
def execBadLength (s : State) : Host.Outcome State Fault Refusal := s.act (Node.onEvent Node.discardFrame)

/-- R185: a LINK-REPLY-GAP has passed. -/
def execLinkReplyGapEnds (s : State) : Host.Outcome State Fault Refusal := s.act (Node.onEvent Node.gapEnds)

end Sys2Proof.Machine
end

