-- ==== Sys2Proof/Machine/ExecRing.lean ====
section
/-! DEFINITION. The meanings of the rows of the line ports, the ring and node time (01): one definition per row of spec/opcode_table.json. -/

namespace Sys2Proof.Machine

/-- R20, R21: a cycle period passes at a wayside; nothing that waits on a change of the node is looked at. -/
def Node.tick (n : Node) : Node := if n.phase = .started ∧ n.isHead = false then n.passPeriod else n

/-- What stands at a port's receiver. -/
def Node.setLight (n : Node) (p : PortId) (b : Bool) : Node :=
  match p with
  | .east => { n with pins := { n.pins with lightEast := b } }
  | .west => { n with pins := { n.pins with lightWest := b } }

/-- R1, R17, R20: a cycle period passes at the head-end, which originates its cycles. -/
def execOriginateCycle (s : State) : Host.Outcome State Fault Refusal := s.act (Node.onRole true Node.originate)

/-- R21: a cycle period passes at a wayside. -/
def execCycleTimerTick (s : State) : Host.Outcome State Fault Refusal := s.act Node.tick

/-- R4, R13: a cycle arrives at a wayside; `good` tells its marker, `errors` the coding errors found. -/
def execCycleArrivesWayside (port : PortId) (cycle : Cycle) (good : Bool) (errors : Nat) (s : State) :
    Host.Outcome State Fault Refusal :=
  s.act (Node.onRole false fun n => n.arrives port cycle good errors)

/-- R4, R18: a cycle arrives at the head-end. -/
def execCycleReturns (port : PortId) (cycle : Cycle) (good : Bool) (errors : Nat) (s : State) :
    Host.Outcome State Fault Refusal :=
  s.act (Node.onRole true fun n => n.returns port cycle good errors)

/-- R4: a cycle period ends without a marker. -/
def execMarkerMissing (port : PortId) (errors : Nat) (s : State) : Host.Outcome State Fault Refusal :=
  s.act (Node.onEvent fun n => n.markerMissing port errors)

/-- R9: 200 cycle periods in RECOVER. -/
def execRecoverExpired (port : PortId) (s : State) : Host.Outcome State Fault Refusal :=
  s.act (Node.onEvent fun n => n.recoverExpired port)

/-- R5: light is lost at a port. -/
def execLightLost (port : PortId) (s : State) : Host.Outcome State Fault Refusal :=
  s.act fun n => Node.onEvent (fun n => n.loseLight port) (n.setLight port false)

/-- R5: light is received at a port. -/
def execLightSeen (port : PortId) (s : State) : Host.Outcome State Fault Refusal :=
  s.act fun n => Node.onEvent (fun n => n.seeLight port) (n.setLight port true)

/-- R6, R7: a partner's probe arrives. -/
def execProbeReceived (port : PortId) (probe : Probe) (s : State) : Host.Outcome State Fault Refusal :=
  s.act (Node.onEvent fun n => n.probe port probe)

/-- R6: light carrying markers or idle fill reaches a port in PROBE.ECHO. -/
def execPartnerMovedOn (port : PortId) (s : State) : Host.Outcome State Fault Refusal :=
  s.act (Node.onEvent fun n => n.partnerMovedOn port)

/-- R14: 3 cycle periods without a good marker. -/
def execNoGoodMarkerTimeout (s : State) : Host.Outcome State Fault Refusal :=
  s.act (Node.onRole false Node.noGoodMarker)

/-- R15: a wayside's wait-to-restore timer expires. -/
def execWaitToRestoreExpiry (s : State) : Host.Outcome State Fault Refusal :=
  s.act (Node.onRole false Node.restoreExpires)

/-- R17: the head-end's wait-to-restore timer expires. -/
def execHeadEndRestoreExpiry (s : State) : Host.Outcome State Fault Refusal :=
  s.act (Node.onRole true Node.headRestoreExpires)

/-- R19: 3 cycle periods without a full cycle returning. -/
def execReturnTimeout (s : State) : Host.Outcome State Fault Refusal := s.act (Node.onRole true Node.returnTimeout)

/-- R25: a survey has not ended after 4000 cycle periods. -/
def execSurveyTimeout (s : State) : Host.Outcome State Fault Refusal := s.act (Node.onRole true Node.surveyTimeout)

/-- R12: PORT-ENABLE. -/
def execPortEnable (o : Origin) (port : Nat) (s : State) : Host.Outcome State Fault Refusal :=
  s.command o (.portEnable port)

/-- R12: PORT-DISABLE. -/
def execPortDisable (o : Origin) (port : Nat) (s : State) : Host.Outcome State Fault Refusal :=
  s.command o (.portDisable port)

/-- R12: PORT-RESET. -/
def execPortReset (o : Origin) (port : Nat) (s : State) : Host.Outcome State Fault Refusal :=
  s.command o (.portReset port)

/-- R10, R12: PORT-LOOPBACK. -/
def execPortLoopback (o : Origin) (port : Nat) (s : State) : Host.Outcome State Fault Refusal :=
  s.command o (.portLoopback port)

/-- R12: PORT-STATUS. -/
def execPortStatus (o : Origin) (port : Nat) (s : State) : Host.Outcome State Fault Refusal :=
  s.command o (.portStatus port)

/-- R20: TIME-SET. -/
def execTimeSet (o : Origin) (seconds : Nat) (s : State) : Host.Outcome State Fault Refusal :=
  s.command o (.timeSet seconds)

/-- R20: TIME-READ. -/
def execTimeRead (o : Origin) (s : State) : Host.Outcome State Fault Refusal := s.command o .timeRead

/-- R22: SURVEY-START. -/
def execSurveyStart (o : Origin) (s : State) : Host.Outcome State Fault Refusal := s.command o .surveyStart

/-- R26: STATION-MAP-READ. -/
def execStationMapRead (o : Origin) (first : Nat) (s : State) : Host.Outcome State Fault Refusal :=
  s.command o (.stationMapRead first)

/-- R27: RING-STATUS. -/
def execRingStatus (o : Origin) (s : State) : Host.Outcome State Fault Refusal := s.command o .ringStatus

end Sys2Proof.Machine
end

