-- ==== Sys2Proof/Machine/ExecSetting.lean ====
section
/-! DEFINITION. The meanings of the rows of stored settings, reset and start-up (11): one definition per row of spec/opcode_table.json. -/

namespace Sys2Proof.Machine

/-- R194: the reset input is asserted. -/
def execResetAsserted (s : State) : Host.Outcome State Fault Refusal := .next s.fullReset

/-- R194, R195: the reset input is released, or a RESTART reply has been sent. -/
def execStart (s : State) : Host.Outcome State Fault Refusal := .next s.start

/-- R190: SETTING-WRITE with SET. -/
def execSettingWriteSet (o : Origin) (item : Nat) (value : SettingValue) (s : State) :
    Host.Outcome State Fault Refusal :=
  s.command o (.settingWrite .set item value)

/-- R190: SETTING-WRITE with ADD. -/
def execSettingWriteAdd (o : Origin) (item : Nat) (value : SettingValue) (s : State) :
    Host.Outcome State Fault Refusal :=
  s.command o (.settingWrite .add item value)

/-- R190: SETTING-WRITE with REMOVE. -/
def execSettingWriteRemove (o : Origin) (item : Nat) (value : SettingValue) (s : State) :
    Host.Outcome State Fault Refusal :=
  s.command o (.settingWrite .remove item value)

/-- R191: SETTING-READ. -/
def execSettingRead (o : Origin) (item : Nat) (key : Option SettingKey) (s : State) :
    Host.Outcome State Fault Refusal :=
  s.command o (.settingRead item key)

/-- R192: STORE-APPEND. -/
def execStoreAppend (o : Origin) (record : List Byte) (s : State) : Host.Outcome State Fault Refusal :=
  s.command o (.storeAppend record)

/-- R192: a record's bytes have been written. -/
def execStoreWriteDone (s : State) : Host.Outcome State Fault Refusal := .next s.writeDone

/-- R193: STORE-READ. -/
def execStoreRead (o : Origin) (offset : Nat) (s : State) : Host.Outcome State Fault Refusal :=
  s.command o (.storeRead offset)

/-- R195: RESTART. -/
def execRestart (o : Origin) (s : State) : Host.Outcome State Fault Refusal := s.command o .restart

end Sys2Proof.Machine
end

