-- ==== Sys2Proof/Machine/ExecStore.lean ====
section
/-! DEFINITION. The meanings of the rows of the buffer pool, toll records and weather (06–08): one definition per row of spec/opcode_table.json. -/

namespace Sys2Proof.Machine

/-- R130: POOL-STATUS. -/
def execPoolStatus (o : Origin) (s : State) : Host.Outcome State Fault Refusal := s.command o .poolStatus

/-- R146: TOLL-STATUS. -/
def execTollStatus (o : Origin) (first : Nat) (s : State) : Host.Outcome State Fault Refusal :=
  s.command o (.tollStatus first)

/-- R159: RULE-SET. -/
def execRuleSet (o : Origin) (rule : Nat) (arg : RuleArg) (s : State) : Host.Outcome State Fault Refusal :=
  s.command o (.ruleSet rule arg)

/-- R160: RULE-STATUS. -/
def execRuleStatus (o : Origin) (s : State) : Host.Outcome State Fault Refusal := s.command o .ruleStatus

/-- R161: WX-STATUS. -/
def execWxStatus (o : Origin) (first : Nat) (s : State) : Host.Outcome State Fault Refusal :=
  s.command o (.wxStatus first)

end Sys2Proof.Machine
end

