-- ==== Sys2Proof/Machine/ExecTrib.lean ====
section
/-! DEFINITION. The meanings of the rows of tributary lines, restart outputs and cabinet inputs (05): one definition per row of spec/opcode_table.json. -/

namespace Sys2Proof.Machine

/-- What stands at a cabinet input. -/
def Node.setInput (n : Node) (i : Nat) (b : Bool) : Node :=
  { n with pins := { n.pins with inputHigh := put n.pins.inputHigh i b } }

/-- R101: a reply arrives on a line. -/
def execExchangeReply (line : Nat) (reply : LineReply) (s : State) : Host.Outcome State Fault Refusal :=
  s.act (Node.onRole false fun n => n.lineReply line reply)

/-- R101: a line's reply timer expires. -/
def execReplyTimeout (line : Nat) (s : State) : Host.Outcome State Fault Refusal :=
  s.act (Node.onRole false fun n => n.replyTimeout line)

/-- R105: a device's join due time arrives. -/
def execJoinDue (device : Nat) (s : State) : Host.Outcome State Fault Refusal :=
  s.act (Node.onRole false fun n => n.lookForWork device)

/-- R108: a roster entry's next due is reached. -/
def execRosterDue (entry : Nat) (s : State) : Host.Outcome State Fault Refusal :=
  s.act (Node.onRole false fun n => n.rosterDue entry)

/-- R111: ROSTER-SET. -/
def execRosterSet (o : Origin) (entry : Nat) (arg : RosterArg) (s : State) : Host.Outcome State Fault Refusal :=
  s.command o (.rosterSet entry arg)

/-- R111: ROSTER-READ. -/
def execRosterRead (o : Origin) (s : State) : Host.Outcome State Fault Refusal := s.command o .rosterRead

/-- R113: LINE-RESET. -/
def execLineReset (o : Origin) (line : Nat) (s : State) : Host.Outcome State Fault Refusal :=
  s.command o (.lineReset line)

/-- R115: an output's hold timer expires. -/
def execHoldTimerExpiry (output : Nat) (s : State) : Host.Outcome State Fault Refusal :=
  s.act (Node.onRole false fun n => n.holdExpires output)

/-- R116: an output's pulse timer expires. -/
def execPulseTimerExpiry (output : Nat) (s : State) : Host.Outcome State Fault Refusal :=
  s.act (Node.onRole false fun n => n.pulseExpires output)

/-- R116: a device's restart end is reached. -/
def execRestartEnd (device : Nat) (s : State) : Host.Outcome State Fault Refusal :=
  s.act (Node.onRole false fun n => n.restartEnds device)

/-- R118: RESTART-PULSE. -/
def execRestartPulse (o : Origin) (output : Nat) (s : State) : Host.Outcome State Fault Refusal :=
  s.command o (.restartPulse output)

/-- R119: a cabinet input contact changes. -/
def execInputContactChange (input : Nat) (high : Bool) (s : State) : Host.Outcome State Fault Refusal :=
  s.act fun n => Node.onRole false (fun n => n.timeInput input) (n.setInput input high)

/-- R119: an input's debounce time passes. -/
def execInputDebounceExpiry (input : Nat) (s : State) : Host.Outcome State Fault Refusal :=
  s.act (Node.onRole false fun n => n.inputSettled input)

/-- R120: INPUT-STATUS. -/
def execInputStatus (o : Origin) (s : State) : Host.Outcome State Fault Refusal := s.command o .inputStatus

/-- R121: DEVICE-LIST. -/
def execDeviceList (o : Origin) (s : State) : Host.Outcome State Fault Refusal := s.command o .deviceList

/-- R121: DEVICE-STATUS with poll NONE. -/
def execDeviceStatus (o : Origin) (device : Nat) (s : State) : Host.Outcome State Fault Refusal :=
  s.command o (.deviceStatus device)

/-- R104: DEVICE-STATUS with a poll. -/
def execDeviceStatusPoll (o : Origin) (device : Nat) (poll : Option PollKind) (s : State) :
    Host.Outcome State Fault Refusal :=
  s.command o (.deviceStatusPoll device poll)

end Sys2Proof.Machine
end

