-- ==== Sys2Proof/Machine/ExecWin.lean ====
section
/-! DEFINITION. The meanings of the rows of the data window and forwarding (02): one definition per row of spec/opcode_table.json. -/

namespace Sys2Proof.Machine

/-- R37: the token-loss timer of a loop reaches its limit. -/
def execTokenLossExpiry (loop : Loop) (s : State) : Host.Outcome State Fault Refusal :=
  s.act (Node.onRole true fun n => n.tokenLost loop)

/-- R43: 3 cycle periods without a first passage of a schedule. -/
def execLoopCeases (loop : Loop) (s : State) : Host.Outcome State Fault Refusal :=
  s.act (Node.onRole false fun n => n.loopCeases loop)

/-- R46: WINDOW-STATUS. -/
def execWindowStatus (o : Origin) (s : State) : Host.Outcome State Fault Refusal := s.command o .windowStatus

/-- R47: a COMMAND frame for another station; the row is the forward alone and no frame of R184 (log entry 83). -/
def execForward (tag station : Nat) (cmd : Parsed) (s : State) : Host.Outcome State Fault Refusal :=
  s.act (Node.onEvent fun n => n.forward tag station cmd)

/-- R48: a COMMAND-FWD reaches a wayside. -/
def execCommandFwd (source fwd : Nat) (cmd : Parsed) (s : State) : Host.Outcome State Fault Refusal :=
  s.act (Node.onMessage false (some source) (.commandFwd fwd cmd) fun n => n.takeCommand s.store (.centre fwd) cmd)

/-- R49: a REPLY-FWD reaches the head-end. -/
def execReplyFwd (source fwd : Nat) (status : Status) (result : Value) (s : State) :
    Host.Outcome State Fault Refusal :=
  s.act (Node.onMessage true (some source) (.replyFwd fwd status result)
    fun n => n.takeReplyFwd source fwd status result)

/-- R49: the forward timeout passes for an entry. -/
def execForwardTimeout (fwd : Nat) (s : State) : Host.Outcome State Fault Refusal :=
  s.act (Node.onRole true fun n => n.forwardTimeout fwd)

end Sys2Proof.Machine
end

