-- ==== Sys2Proof/Machine/ExecZone.lean ====
section
/-! DEFINITION. The meanings of the rows of alert zones, signs, releases and beacons (04): one definition per row of spec/opcode_table.json. -/

namespace Sys2Proof.Machine

/-- R96: a beacon's phase time runs out. -/
def Node.beaconPhase (n : Node) (b : Nat) : Node := n.onZone (beaconPhaseEnds b)

/-- R76: ZONE-START. -/
def execZoneStart (o : Origin) (zone : Nat) (s : State) : Host.Outcome State Fault Refusal :=
  s.command o (.zoneStart zone)

/-- R77: ZONE-CLEAR. -/
def execZoneClear (o : Origin) (zone : Nat) (causes : List (Option Cause)) (s : State) :
    Host.Outcome State Fault Refusal :=
  s.command o (.zoneClear zone causes)

/-- R86: SIGN-SHOW. -/
def execSignShow (o : Origin) (device : Nat) (page : Page) (s : State) : Host.Outcome State Fault Refusal :=
  s.command o (.signShow device page)

/-- R87: SIGN-STAGE. -/
def execSignStage (o : Origin) (device : Nat) (page : Page) (tag : Nat) (s : State) :
    Host.Outcome State Fault Refusal :=
  s.command o (.signStage device page tag)

/-- R88: SIGN-UNSTAGE. -/
def execSignUnstage (o : Origin) (device : Nat) (s : State) : Host.Outcome State Fault Refusal :=
  s.command o (.signUnstage device)

/-- R89: SIGN-STATUS. -/
def execSignStatus (o : Origin) (device : Nat) (s : State) : Host.Outcome State Fault Refusal :=
  s.command o (.signStatus device)

/-- R90: RELEASE. -/
def execRelease (o : Origin) (tag : Nat) (s : State) : Host.Outcome State Fault Refusal := s.command o (.release tag)

/-- R92: a pending release's delay runs out. -/
def execReleaseDelayExpiry (s : State) : Host.Outcome State Fault Refusal := s.act (Node.onRole false Node.releaseDue)

/-- R96: a beacon's phase time runs out. -/
def execBeaconPhaseExpiry (beacon : Nat) (s : State) : Host.Outcome State Fault Refusal :=
  s.act (Node.onRole false fun n => n.beaconPhase beacon)

/-- R97: BEACON-SET with a pattern. -/
def execBeaconSetSingle (o : Origin) (beacon onTime offTime : Nat) (s : State) : Host.Outcome State Fault Refusal :=
  s.command o (.beaconSetSingle beacon onTime offTime)

/-- R96, R97: BEACON-SET with CANCEL. -/
def execBeaconSetCancel (o : Origin) (beacon : Nat) (s : State) : Host.Outcome State Fault Refusal :=
  s.command o (.beaconSetCancel beacon)

/-- R98: ZONE-STATUS. -/
def execZoneStatus (o : Origin) (s : State) : Host.Outcome State Fault Refusal := s.command o .zoneStatus

end Sys2Proof.Machine
end

