-- ==== Sys2Proof/Machine/Dispatch.lean ====
section
/-! DEFINITION. The one table from commands and events to their meanings. -/

namespace Sys2Proof.Machine

/-- The effect of a command or event on everything but the queue. -/
def exec (i : Instr) (s : State) : Host.Outcome State Fault Refusal :=
  match i with
  | .resetAsserted => Sys2Proof.Machine.execResetAsserted s
  | .start => Sys2Proof.Machine.execStart s
  | .originateCycle => Sys2Proof.Machine.execOriginateCycle s
  | .cycleTimerTick => Sys2Proof.Machine.execCycleTimerTick s
  | .cycleArrivesWayside port cycle good errors => Sys2Proof.Machine.execCycleArrivesWayside port cycle good errors s
  | .cycleReturns port cycle good errors => Sys2Proof.Machine.execCycleReturns port cycle good errors s
  | .markerMissing port errors => Sys2Proof.Machine.execMarkerMissing port errors s
  | .recoverExpired port => Sys2Proof.Machine.execRecoverExpired port s
  | .lightLost port => Sys2Proof.Machine.execLightLost port s
  | .lightSeen port => Sys2Proof.Machine.execLightSeen port s
  | .probeReceived port probe => Sys2Proof.Machine.execProbeReceived port probe s
  | .partnerMovedOn port => Sys2Proof.Machine.execPartnerMovedOn port s
  | .noGoodMarkerTimeout => Sys2Proof.Machine.execNoGoodMarkerTimeout s
  | .waitToRestoreExpiry => Sys2Proof.Machine.execWaitToRestoreExpiry s
  | .headEndRestoreExpiry => Sys2Proof.Machine.execHeadEndRestoreExpiry s
  | .returnTimeout => Sys2Proof.Machine.execReturnTimeout s
  | .surveyTimeout => Sys2Proof.Machine.execSurveyTimeout s
  | .portEnable o port => Sys2Proof.Machine.execPortEnable o port s
  | .portDisable o port => Sys2Proof.Machine.execPortDisable o port s
  | .portReset o port => Sys2Proof.Machine.execPortReset o port s
  | .portLoopback o port => Sys2Proof.Machine.execPortLoopback o port s
  | .portStatus o port => Sys2Proof.Machine.execPortStatus o port s
  | .timeSet o seconds => Sys2Proof.Machine.execTimeSet o seconds s
  | .timeRead o => Sys2Proof.Machine.execTimeRead o s
  | .surveyStart o => Sys2Proof.Machine.execSurveyStart o s
  | .stationMapRead o first => Sys2Proof.Machine.execStationMapRead o first s
  | .ringStatus o => Sys2Proof.Machine.execRingStatus o s
  | .tokenLossExpiry loop => Sys2Proof.Machine.execTokenLossExpiry loop s
  | .loopCeases loop => Sys2Proof.Machine.execLoopCeases loop s
  | .windowStatus o => Sys2Proof.Machine.execWindowStatus o s
  | .forward tag station cmd => Sys2Proof.Machine.execForward tag station cmd s
  | .commandFwd source fwd cmd => Sys2Proof.Machine.execCommandFwd source fwd cmd s
  | .replyFwd source fwd status result => Sys2Proof.Machine.execReplyFwd source fwd status result s
  | .forwardTimeout fwd => Sys2Proof.Machine.execForwardTimeout fwd s
  | .hookContactChange port offHook => Sys2Proof.Machine.execHookContactChange port offHook s
  | .hookDebounceExpiry port => Sys2Proof.Machine.execHookDebounceExpiry port s
  | .repeatTimerExpiry port => Sys2Proof.Machine.execRepeatTimerExpiry port s
  | .callQueued port call place => Sys2Proof.Machine.execCallQueued port call place s
  | .callAssign port call slot => Sys2Proof.Machine.execCallAssign port call slot s
  | .callBusy port => Sys2Proof.Machine.execCallBusy port s
  | .callRingAtWayside port call slot => Sys2Proof.Machine.execCallRingAtWayside port call slot s
  | .callAnsweredAtWayside port call => Sys2Proof.Machine.execCallAnsweredAtWayside port call s
  | .callClearAtWayside port call => Sys2Proof.Machine.execCallClearAtWayside port call s
  | .callClearedAtWayside port call => Sys2Proof.Machine.execCallClearedAtWayside port call s
  | .labelRunLimit port => Sys2Proof.Machine.execLabelRunLimit port s
  | .phoneStatus o => Sys2Proof.Machine.execPhoneStatus o s
  | .callRequest station port time => Sys2Proof.Machine.execCallRequest station port time s
  | .callAnswer o call console => Sys2Proof.Machine.execCallAnswer o call console s
  | .callEnd o call => Sys2Proof.Machine.execCallEnd o call s
  | .callRing o station port console => Sys2Proof.Machine.execCallRing o station port console s
  | .ringTimerExpiry call => Sys2Proof.Machine.execRingTimerExpiry call s
  | .callAnsweredAtHeadEnd station port call => Sys2Proof.Machine.execCallAnsweredAtHeadEnd station port call s
  | .callClearAtHeadEnd station port call => Sys2Proof.Machine.execCallClearAtHeadEnd station port call s
  | .callClearedAtHeadEnd station port call => Sys2Proof.Machine.execCallClearedAtHeadEnd station port call s
  | .drainTimerExpiry call => Sys2Proof.Machine.execDrainTimerExpiry call s
  | .voiceCapSet o cap => Sys2Proof.Machine.execVoiceCapSet o cap s
  | .callList o first => Sys2Proof.Machine.execCallList o first s
  | .zoneStart o zone => Sys2Proof.Machine.execZoneStart o zone s
  | .zoneClear o zone causes => Sys2Proof.Machine.execZoneClear o zone causes s
  | .signShow o device page => Sys2Proof.Machine.execSignShow o device page s
  | .signStage o device page tag => Sys2Proof.Machine.execSignStage o device page tag s
  | .signUnstage o device => Sys2Proof.Machine.execSignUnstage o device s
  | .signStatus o device => Sys2Proof.Machine.execSignStatus o device s
  | .release o tag => Sys2Proof.Machine.execRelease o tag s
  | .releaseDelayExpiry => Sys2Proof.Machine.execReleaseDelayExpiry s
  | .beaconPhaseExpiry beacon => Sys2Proof.Machine.execBeaconPhaseExpiry beacon s
  | .beaconSetSingle o beacon onTime offTime => Sys2Proof.Machine.execBeaconSetSingle o beacon onTime offTime s
  | .beaconSetCancel o beacon => Sys2Proof.Machine.execBeaconSetCancel o beacon s
  | .zoneStatus o => Sys2Proof.Machine.execZoneStatus o s
  | .exchangeReply line reply => Sys2Proof.Machine.execExchangeReply line reply s
  | .replyTimeout line => Sys2Proof.Machine.execReplyTimeout line s
  | .joinDue device => Sys2Proof.Machine.execJoinDue device s
  | .rosterDue entry => Sys2Proof.Machine.execRosterDue entry s
  | .rosterSet o entry arg => Sys2Proof.Machine.execRosterSet o entry arg s
  | .rosterRead o => Sys2Proof.Machine.execRosterRead o s
  | .lineReset o line => Sys2Proof.Machine.execLineReset o line s
  | .holdTimerExpiry output => Sys2Proof.Machine.execHoldTimerExpiry output s
  | .pulseTimerExpiry output => Sys2Proof.Machine.execPulseTimerExpiry output s
  | .restartEnd device => Sys2Proof.Machine.execRestartEnd device s
  | .restartPulse o output => Sys2Proof.Machine.execRestartPulse o output s
  | .inputContactChange input high => Sys2Proof.Machine.execInputContactChange input high s
  | .inputDebounceExpiry input => Sys2Proof.Machine.execInputDebounceExpiry input s
  | .inputStatus o => Sys2Proof.Machine.execInputStatus o s
  | .deviceList o => Sys2Proof.Machine.execDeviceList o s
  | .deviceStatus o device => Sys2Proof.Machine.execDeviceStatus o device s
  | .deviceStatusPoll o device poll => Sys2Proof.Machine.execDeviceStatusPoll o device poll s
  | .poolStatus o => Sys2Proof.Machine.execPoolStatus o s
  | .tollStatus o first => Sys2Proof.Machine.execTollStatus o first s
  | .ruleSet o rule arg => Sys2Proof.Machine.execRuleSet o rule arg s
  | .ruleStatus o => Sys2Proof.Machine.execRuleStatus o s
  | .wxStatus o first => Sys2Proof.Machine.execWxStatus o first s
  | .collect o station kind max => Sys2Proof.Machine.execCollect o station kind max s
  | .collectAsk batch kind max => Sys2Proof.Machine.execCollectAsk batch kind max s
  | .batchHead source batch kind n => Sys2Proof.Machine.execBatchHead source batch kind n s
  | .batchItem source batch kind n index item => Sys2Proof.Machine.execBatchItem source batch kind n index item s
  | .batchEnd source batch kind n => Sys2Proof.Machine.execBatchEnd source batch kind n s
  | .batchTimerExpiry batch => Sys2Proof.Machine.execBatchTimerExpiry batch s
  | .collectConfirm o batch => Sys2Proof.Machine.execCollectConfirm o batch s
  | .collectDrop o batch => Sys2Proof.Machine.execCollectDrop o batch s
  | .collectAck batch list => Sys2Proof.Machine.execCollectAck batch list s
  | .collectStatus o => Sys2Proof.Machine.execCollectStatus o s
  | .noticeFwd source entries => Sys2Proof.Machine.execNoticeFwd source entries s
  | .noticeRead o count => Sys2Proof.Machine.execNoticeRead o count s
  | .noticeClear o => Sys2Proof.Machine.execNoticeClear o s
  | .noticeRouteSet o code host centre => Sys2Proof.Machine.execNoticeRouteSet o code host centre s
  | .attentionPauseExpiry => Sys2Proof.Machine.execAttentionPauseExpiry s
  | .hostFrameReceived bytes => Sys2Proof.Machine.execHostFrameReceived bytes s
  | .frameGapTimeout => Sys2Proof.Machine.execFrameGapTimeout s
  | .frameSent => Sys2Proof.Machine.execFrameSent s
  | .maintHold o => Sys2Proof.Machine.execMaintHold o s
  | .maintEnd o => Sys2Proof.Machine.execMaintEnd o s
  | .holdLapseExpiry => Sys2Proof.Machine.execHoldLapseExpiry s
  | .holdReleaseAsk o => Sys2Proof.Machine.execHoldReleaseAsk o s
  | .identify o => Sys2Proof.Machine.execIdentify o s
  | .settingWriteSet o item value => Sys2Proof.Machine.execSettingWriteSet o item value s
  | .settingWriteAdd o item value => Sys2Proof.Machine.execSettingWriteAdd o item value s
  | .settingWriteRemove o item value => Sys2Proof.Machine.execSettingWriteRemove o item value s
  | .settingRead o item key => Sys2Proof.Machine.execSettingRead o item key s
  | .storeAppend o record => Sys2Proof.Machine.execStoreAppend o record s
  | .storeWriteDone => Sys2Proof.Machine.execStoreWriteDone s
  | .storeRead o offset => Sys2Proof.Machine.execStoreRead o offset s
  | .restart o => Sys2Proof.Machine.execRestart o s
  | .badLength => Sys2Proof.Machine.execBadLength s
  | .linkReplyGapEnds => Sys2Proof.Machine.execLinkReplyGapEnds s

end Sys2Proof.Machine
end

