-- ==== Sys2Proof/Machine/Flags.lean ====
section
/-! DEFINITION. What stands at the part's outputs in a state: light, lamps, ringers, handsets, contacts, beacons and the attention line. -/

namespace Sys2Proof.Machine

/-- R57: a call lamp. -/
inductive Lamp where
  | off | slowFlash | fastFlash | steady
  deriving DecidableEq, Repr

/-- R57: the call lamp of a port. -/
def Phone.lamp (r : Phone) : Lamp :=
  match r.state with
  | .idle => .off
  | .requesting => .slowFlash
  | .queued => .slowFlash
  | .alerting => .steady
  | .connected => .steady
  | .ringing => .fastFlash
  | .clearing => .off
  | .hung => .fastFlash

/-- R57: the ringer of a port. -/
def Phone.ringer (r : Phone) : Bool := r.state = .ringing

/-- R57: what the handset hears of a slot that passes. -/
def Phone.handset (r : Phone) : Audio :=
  match r.state with
  | .requesting => .waitingTone
  | .queued => .waitingTone
  | .alerting => r.hears
  | .connected => r.hears
  | .hung => .clearedTone
  | _ => .silence

/-- R57, R60, R72: what the handset of a phone port hears. A call whose slot no longer passes is silent: the wayside is
ORPHAN, or no outer-schedule cycle made its first passage in the cycle period before this one (log entry 57). -/
def Node.handset (n : Node) (p : Nat) : Audio :=
  match n.phone p with
  | none => .silence
  | some r =>
    let passes := decide (n.ring.attach ≠ .orphan ∧ n.svc.now ≤ n.win.outer.lastSeen + 1)
    if PhoneState.talks r.state && !passes then .silence else r.handset

/-- R50, R72: what a console hears: the upstream audio last read for it, and silence once a whole cycle period has passed
in which no voice slot was read (log entry 57). -/
def Node.consoleHears (n : Node) (p : Nat) : Audio :=
  if n.svc.now ≤ n.call.lastRead + 1 then (nth n.call.consoles p).getD .silence else .silence

/-- R57: whether the port's audio is written upstream. -/
def Phone.writes (r : Phone) : Bool := r.state = .alerting || r.state = .connected

/-- R116: the contact of a restart output is open exactly while it is PULSING. -/
def Output.open_ (x : Output) : Bool := x.state = .pulsing

/-- 04 section 4.5: a beacon's light. -/
def Beacon.light (b : Beacon) : Bool := b.lit

/-- R2: what a line port sends. -/
inductive Sent where
  | dark | probe (p : Probe) | idleFill | cycle (c : Cycle)
  deriving DecidableEq, Repr

/-- R6: the probe pattern a port sends; its echo mark tells that the partner's probe has been received. -/
def Node.ownProbe (n : Node) (echo : Bool) : Probe := { station := n.me, role := n.set.role, echo := echo }

/-- R2, R5, R6: what a line port sends in this cycle period. The echo flag is clear in DARK, for which R6 gives none: the
model's choice (log entry 76). -/
def Node.sends (n : Node) (p : PortId) : Sent :=
  let r := n.port p
  match r.state with
  | .disabled => .dark
  | .dark => if r.transmit then .probe (n.ownProbe false) else .dark
  | .probeSend => .probe (n.ownProbe false)
  | .probeEcho => .probe (n.ownProbe true)
  | .loopback => .idleFill
  | _ =>
    match r.sent with
    | some c => .cycle c
    | none => .idleFill

/-- R183: the attention line. -/
def Node.attentionLine (n : Node) : Bool := n.svc.note.attention

end Sys2Proof.Machine
end

