-- ==== Sys2Proof/Safety.lean ====
section
/-! DEFINITION. What the statements speak of: a safe store and pool, the notice queue's and the call table's invariants, the command of a row, when a command is taken, the state a command or an event leaves, what the end of a step keeps, and what the operations make of list-valued items. -/

namespace Sys2Proof.Machine

/-- 11 section 11.2: the store is in its canonical form, no offset past 4095. -/
def StoreOk (s : State) : Prop := Memory.wf s.store = true

/-- R122: the free count and the four holdings together. -/
def Pool.total (p : Pool) : Nat := p.free + p.held

/-- R122: the holdings of the four classes and the free count sum to 1536. -/
def PoolOk (p : Pool) : Prop := p.total = Config.poolSize

/-- R123: the free count covers the guarantee, and no class holds more than its ceiling. -/
def PoolSafe (p : Pool) : Prop := p.guarantee ≤ p.free ∧ ∀ c, (p.cls c).holding ≤ (p.cls c).ceiling

/-- R176: the notice queue holds 256 entries at most, and each waits for a destination. -/
def NotesOk (n : Note) : Prop := n.queue.length ≤ 256 ∧ ∀ e ∈ n.queue, noticeWaits e = true

/-- R122, R123, R176: the services' invariants together: the pool's sum, its guarantee and ceilings, and the notice
queue's places. -/
structure SvcOk (s : Svc) : Prop where
  sum : PoolOk s.pool
  safe : PoolSafe s.pool
  notes : NotesOk s.note

/-- R62, R63, R71: the call table with voice cap `cap`: no two entries share a call number, a (station, phone port) pair
or a slot, every slot lies within the cap, the QUEUED entries are those without a slot, the wait queue holds exactly
these in order of arrival, at most 16, and while it is not empty no slot within the cap is FREE. -/
structure CallsOk (c : Call) (cap : Nat) : Prop where
  inRange : 4 ≤ cap ∧ cap ≤ 24
  numbers : (c.table.map CallEntry.number).Nodup
  range : ∀ e ∈ c.table, 1 ≤ e.number ∧ e.number ≤ 255
  pairs : (c.table.map fun e => (e.station, e.port)).Nodup
  slots : (c.table.filterMap CallEntry.slot).Nodup
  within : ∀ e ∈ c.table, ∀ k, e.slot = some k → 1 ≤ k ∧ k ≤ cap
  queued : ∀ e ∈ c.table, e.slot = none ↔ e.state = .queued
  waiting : c.waiting = (c.table.filter fun e => e.state = .queued).map CallEntry.number
  places : c.waiting.length ≤ 16
  busy : c.waiting ≠ [] → c.freeSlot cap = none

/-- R192: no byte of the store that was written has changed. -/
def KeepsWritten (m m' : Memory) : Prop := ∀ a b, readByte m a = some b → readByte m' a = some b

/-- The command of the catalogue that a row gives, with the way it came. -/
def rowCommand : Instr → Option (Origin × Command)
  | .portEnable o p => some (o, .portEnable p)
  | .portDisable o p => some (o, .portDisable p)
  | .portReset o p => some (o, .portReset p)
  | .portLoopback o p => some (o, .portLoopback p)
  | .portStatus o p => some (o, .portStatus p)
  | .timeSet o x => some (o, .timeSet x)
  | .timeRead o => some (o, .timeRead)
  | .surveyStart o => some (o, .surveyStart)
  | .stationMapRead o k => some (o, .stationMapRead k)
  | .ringStatus o => some (o, .ringStatus)
  | .windowStatus o => some (o, .windowStatus)
  | .phoneStatus o => some (o, .phoneStatus)
  | .callAnswer o c p => some (o, .callAnswer c p)
  | .callEnd o c => some (o, .callEnd c)
  | .callRing o st p c => some (o, .callRing st p c)
  | .voiceCapSet o cap => some (o, .voiceCapSet cap)
  | .callList o k => some (o, .callList k)
  | .zoneStart o z => some (o, .zoneStart z)
  | .zoneClear o z l => some (o, .zoneClear z l)
  | .signShow o d p => some (o, .signShow d p)
  | .signStage o d p t => some (o, .signStage d p t)
  | .signUnstage o d => some (o, .signUnstage d)
  | .signStatus o d => some (o, .signStatus d)
  | .release o t => some (o, .release t)
  | .beaconSetSingle o b x y => some (o, .beaconSetSingle b x y)
  | .beaconSetCancel o b => some (o, .beaconSetCancel b)
  | .zoneStatus o => some (o, .zoneStatus)
  | .rosterSet o e a => some (o, .rosterSet e a)
  | .rosterRead o => some (o, .rosterRead)
  | .lineReset o l => some (o, .lineReset l)
  | .restartPulse o x => some (o, .restartPulse x)
  | .inputStatus o => some (o, .inputStatus)
  | .deviceList o => some (o, .deviceList)
  | .deviceStatus o d => some (o, .deviceStatus d)
  | .deviceStatusPoll o d k => some (o, .deviceStatusPoll d k)
  | .poolStatus o => some (o, .poolStatus)
  | .tollStatus o k => some (o, .tollStatus k)
  | .ruleSet o k a => some (o, .ruleSet k a)
  | .ruleStatus o => some (o, .ruleStatus)
  | .wxStatus o k => some (o, .wxStatus k)
  | .collect o st k m => some (o, .collect st k m)
  | .collectConfirm o b => some (o, .collectConfirm b)
  | .collectDrop o b => some (o, .collectDrop b)
  | .collectStatus o => some (o, .collectStatus)
  | .noticeRead o k => some (o, .noticeRead k)
  | .noticeClear o => some (o, .noticeClear)
  | .noticeRouteSet o c h x => some (o, .noticeRouteSet c h x)
  | .maintHold o => some (o, .maintHold)
  | .maintEnd o => some (o, .maintEnd)
  | .holdReleaseAsk o => some (o, .holdReleaseAsk)
  | .identify o => some (o, .identify)
  | .settingWriteSet o i v => some (o, .settingWrite .set i v)
  | .settingWriteAdd o i v => some (o, .settingWrite .add i v)
  | .settingWriteRemove o i v => some (o, .settingWrite .remove i v)
  | .settingRead o i k => some (o, .settingRead i k)
  | .storeAppend o r => some (o, .storeAppend r)
  | .storeRead o a => some (o, .storeRead a)
  | .restart o => some (o, .restart)
  | _ => none

/-- R186: a command can come by the way `o`: the node has started, and a head-end has no channel C. -/
def Reaches (s : State) (o : Origin) : Prop :=
  s.node.phase = .started ∧ (Origin.isCentre o = true → s.node.isHead = false)

/-- R186, R188: a command is taken: it can come, its channel is free, its role is the node's, it is taken on that
channel, and neither the hold nor its absence refuses it. -/
structure Takes (s : State) (o : Origin) (c : Command) : Prop where
  reaches : Reaches s o
  free : s.node.cmd.channel o = none
  role : ∀ r, (Command.listing c).role = some r → s.node.set.role = r
  channel : (Command.listing c).takenFrom o = true
  notHeld : Origin.isCentre o = true → s.node.cmd.held = true → HoldClass.held (Command.listing c).hold = false
  inHold : Command.needsHold c = true → s.node.cmd.held = true

/-- The state that an event leaves: the node as `n` says, up to the end of the step. -/
def State.settled (s : State) (n : Node) : State := { s with node := n.settle }

/-- The state that a command leaves when it ends: the node as `n` says, its reply on its way. -/
def State.replied (s : State) (n : Node) (o : Origin) (c : Command) (st : Status) (v : Value) : State :=
  s.settled (n.replyTo o (.command c) st v)

/-- The state while a command stays in progress: the node as `n` says, the command on its channel. -/
def State.busyWith (s : State) (n : Node) (o : Origin) (c : Command) : State :=
  s.settled (n.onCmd fun k => k.setChannel o (some { origin := o, cmd := c }))

/-- R4, R5, R11: a port takes a state with both runs and the current error count 0; its neighbour and conflict flag go
in DISABLED and DARK; the change is posted. -/
def Node.portTo (n : Node) (p : PortId) (new : PortState) (c : PortCause) : Node :=
  (n.onPort p fun r =>
    { r with
      state := new, good := 0, missing := 0, errNow := 0, markerSeen := false, entered := n.svc.now, sent := none
      neighbour := if new = .dark ∨ new = .disabled then none else r.neighbour
      conflict := r.conflict && !decide (new = .dark ∨ new = .disabled) }).post .portState (.linePort p)
    [.portState (n.port p).state, .portState new, .portCause c]

/-- A message in the normal queue. -/
def Svc.queued (s : Svc) (m : Message) : Prop := ∃ q, NEntry.msg q ∈ s.queues.normal ∧ q.msg = m

/-- A reply frame that waits or is being sent. -/
def Node.replying (n : Node) (r : Reply) : Prop := r ∈ n.link.replies ∨ n.link.sending = some (.reply r)

/-- A message of CMD that waits for a place, or stands in the normal queue. -/
def Node.carrying (n : Node) (m : Message) : Prop := m ∈ n.cmd.refused ∨ n.svc.queued m

/-- A sign record but for its load in flight. -/
def Sign.still (g : Sign) : Sign := { g with load := none }

/-- What stays while the services only lend buffers, take offers and file notices: time, settings, the pool's sum and
its floors and ceilings, and every message already queued. -/
structure Svc.Keeps (s t : Svc) : Prop where
  now : t.now = s.now
  time : t.time = s.time
  settings : t.settings = s.settings
  total : t.pool.total = s.pool.total
  bounds : t.pool.bounds = s.pool.bounds
  noteKeep : t.note.keep = s.note.keep
  lastSegment : t.wx.lastNumber = s.wx.lastNumber
  emergency : ∀ q ∈ s.queues.emergency, q ∈ t.queues.emergency
  normal : ∀ e ∈ s.queues.normal, e ∈ t.queues.normal

/-- What the end of a step leaves as it was. It may lend and free buffers, file notices, move queued messages, begin
exchanges, fire restart outputs, end commands and begin frames; it touches nothing else. -/
structure Node.Keeps (n m : Node) : Prop where
  svc : Svc.Keeps n.svc m.svc
  phase : m.phase = n.phase
  restartDue : m.restartDue = n.restartDue
  pins : m.pins = n.pins
  east : m.east = n.east
  west : m.west = n.west
  ring : m.ring = n.ring
  head : m.head = n.head
  win : m.win = n.win
  toll : m.toll = n.toll
  rules : m.rules = n.rules
  writing : m.writing = n.writing
  applied : m.applied = n.applied
  skipped : m.skipped = n.skipped
  inputs : m.trib.inputs = n.trib.inputs
  started : m.trib.started = n.trib.started
  zones : m.zone.zones = n.zone.zones
  pending : m.zone.pending = n.zone.pending
  performed : m.zone.performed = n.zone.performed
  forced : m.zone.forced = n.zone.forced
  beacons : m.zone.beacons = n.zone.beacons
  signs : ∀ d, (m.zone.sign d).map Sign.still = (n.zone.sign d).map Sign.still
  phones : m.call.phones = n.call.phones
  table : m.call.table = n.call.table
  waiting : m.call.waiting = n.call.waiting
  lastCall : m.call.last = n.call.last
  callFull : m.call.full = n.call.full
  consoles : m.call.consoles = n.call.consoles
  lastRead : m.call.lastRead = n.call.lastRead
  dropped : m.call.dropped = n.call.dropped
  collToll : m.coll.toll = n.coll.toll
  collWeather : m.coll.weather = n.coll.weather
  batches : m.coll.batches = n.coll.batches
  lastBatch : m.coll.last = n.coll.last
  delivery : m.coll.delivery = n.coll.delivery
  counts : m.coll.counts = n.coll.counts
  forwards : m.cmd.forwards = n.cmd.forwards
  lastForward : m.cmd.lastForward = n.cmd.lastForward
  held : m.cmd.held = n.cmd.held
  lapse : m.cmd.lapse = n.cmd.lapse
  chanL : n.cmd.chanL = none → m.cmd.chanL = none
  chanC : n.cmd.chanC = none → m.cmd.chanC = none
  running : m.link.running = n.link.running
  rate : m.link.rate = n.link.rate
  valid : m.link.valid = n.link.valid
  badLength : m.link.badLength = n.link.badLength
  badCrc : m.link.badCrc = n.link.badCrc
  wrongKind : m.link.wrongKind = n.link.wrongKind
  gather : m.link.gather = n.link.gather
  gatherAt : m.link.gatherAt = n.link.gatherAt
  gaps : m.link.gaps = n.link.gaps
  replying : ∀ r, n.replying r → m.replying r
  carrying : ∀ x, n.carrying x → m.carrying x

/-! ## List-valued items (R190) -/

/-- R190: the record that given records leave for a key: the last one given with it, else the one that stood there. -/
def lastFor {α κ : Type} [DecidableEq κ] (key : α → κ) (given : List α) (k : κ) (there : α) : α :=
  ((given.filter fun x => key x = k).getLast?).getD there

/-- R190: a list whose places hold the records given for them, and elsewhere what stood there. -/
def placesWith {α : Type} (base : List α) (given : List (Nat × α)) : List α :=
  (numbered 1 base).map fun y => (lastFor Prod.fst given y.1 y).2

/-- R190: a list whose places with these numbers are back at their defaults. -/
def placesWithout {α : Type} (dflt work : List α) (ks : List Nat) : List α :=
  (numbered 1 work).map fun y => if y.1 ∈ ks then (nth dflt y.1).getD y.2 else y.2

/-- R190: the three operations on an item whose records stand in fixed places, the keys being their numbers. SET begins at
the defaults (log entry 30), ADD and REMOVE at the working value. -/
def FixedPlaces {α : Type} (w : Settings) (bounds : List ClassBounds) (item : Nat)
    (form : List (Nat × α) → SettingValue) (whole : List α → Candidate) (dflt work : List α) : Prop :=
  (∀ l : List (Nat × α),
    let inside := ∀ x ∈ l, 1 ≤ x.1 ∧ x.1 ≤ dflt.length
    let twice := ¬(l.map Prod.fst).Nodup
    (¬inside ∨ twice → candidate w bounds item .set (form l) = none) ∧
    (inside → ¬twice → candidate w bounds item .set (form l) = some (whole (placesWith dflt l))) ∧
    (¬inside → candidate w bounds item .add (form l) = none) ∧
    (inside → candidate w bounds item .add (form l) = some (whole (placesWith work l)))) ∧
  (∀ ks : List Nat, candidate w bounds item .remove (.keys (ks.map .num)) =
    some (whole (placesWithout dflt work ks))) ∧
  (∀ ks : List SettingKey, (∃ k ∈ ks, ∀ m, k ≠ .num m) → candidate w bounds item .remove (.keys ks) = none)

/-- 11 section 11.1, R190: whether a value has the form that an operation on an item takes. -/
def SettingValue.fits (item : Nat) (op : SettingOp) : SettingValue → Bool
  | .number _ => (numberRange item).isSome && op = .set
  | .actions _ => item = 31
  | .beacons _ => item = 32
  | .pattern _ => item = 33 && op ≠ .remove
  | .portZones _ => item = 21 && op ≠ .remove
  | .bindings _ => item = 34 && op ≠ .remove
  | .remap _ => item = 40 && op ≠ .remove
  | .kinds _ => item = 41 && op ≠ .remove
  | .roster _ => item = 44 && op ≠ .remove
  | .outputs _ => item = 45 && op ≠ .remove
  | .inputs _ => item = 46 && op ≠ .remove
  | .classes _ => item = 50 && op ≠ .remove
  | .rules _ => item = 71 && op ≠ .remove
  | .routes _ => item = 90 && op ≠ .remove
  | .keys _ => [21, 33, 34, 40, 41, 44, 45, 46, 50, 71, 90].contains item && op = .remove
  | .garbled => false

end Sys2Proof.Machine
end

