-- ==== Sys2Proof/Certificates/Slice0/Obligations.lean ====
section
/-! DEFINITION. What is stated of the 6248: the statements for the provers. -/

section

open Sys2Proof Sys2Proof.Machine

/-! ## The queue and the machine as a whole -/

/-- A step takes the command at the front of the queue and runs it on the machine with the queue's rest. -/
def Obligations.StepRunsFrontCommand : Prop :=
  ∀ (c : Instr) (rest : List Instr) (s : State), s.pending = c :: rest →
    step s = exec c { s with pending := rest }

/-- With no command waiting a step leaves the machine as it is (DESIGN CHOICE, log entry 33). While the reset input is
held no event but RESET_ASSERTED and START acts, and of the commands only a RESTART from L: at most the levels that
stand at the inputs change (DEDUCED, log entry 5). R195: that RESTART finds a host link that has not started and is
answered WRONG-STATE, or BUSY with a command in progress. -/
def Obligations.IdleOrHeldMachineStays : Prop :=
  (∀ s : State, s.pending = [] → step s = .next s) ∧
  (∀ (i : Instr) (s : State), s.node.phase = .held → s.node.writing = none → i ≠ .resetAsserted → i ≠ .start →
     (∀ tag, i ≠ .restart (.link tag)) → ∃ p, exec i s = .next { s with node := { s.node with pins := p } }) ∧
  (∀ (tag : Nat) (s : State), s.node.phase = .held →
     let answer (st : Status) : Host.Outcome State Fault Refusal :=
       .next { s with node := s.node.replyTo (.link tag) (.command .restart) st .nil }
     let run := exec (.restart (.link tag)) s
     (s.node.link.running = false → s.node.cmd.chanL = none → run = answer .wrongState) ∧
     (s.node.link.running = false → s.node.cmd.chanL ≠ none → run = answer .busy) ∧
     (s.node.link.running = true → run = .next s))

/-- A command acts on everything but the queue of waiting commands. Only the end of a record's writing, a reset and a
start touch the store; every other row leaves every byte. -/
def Obligations.RowsLeaveQueueAndStore : Prop :=
  (∀ (c : Instr) (s t : State), exec c s = .next t → t.pending = s.pending) ∧
  (∀ (c : Instr) (s t : State), c ≠ .storeWriteDone → c ≠ .resetAsserted → c ≠ .start → exec c s = .next t →
     t.store = s.store)

/-- The store is in its form right after reset, and nothing is written there. -/
def Obligations.ResetStoreIsSound : Prop := StoreOk State.reset ∧ ∀ a, readByte State.reset.store a = none

/-- Every step keeps the store in its form: offsets strictly rising, none past 4095. -/
def Obligations.StepKeepsStoreSound : Prop :=
  ∀ s t : State, StoreOk s → step s = .next t → StoreOk t

/-- 11 section 11.2: a byte of the store that has been written is never changed by any step. -/
def Obligations.WrittenBytesNeverChange : Prop :=
  ∀ s t : State, StoreOk s → step s = .next t → KeepsWritten s.store t.store

/-- R194 step 1: a full reset gives every block its reset state, in every state of the machine; the store keeps every byte
that was written, and with no record being written it is as it was. What stands at the inputs stays (log entry 4). The
reset values that the spec gives, register by register; the invariants of the pool, the notices and the call table hold
there. That the reset input is held after it is log entry 5 (the model's). -/
def Obligations.ResetStateAndItsValues : Prop :=
  (∀ s : State, ∃ t, exec .resetAsserted s = .next t ∧ t.node.phase = .held ∧ t.node.pins = s.node.pins ∧
     t.node.svc.settings = .default ∧ t.node.svc.time = { seconds := 0, cycle := 0, sync := false } ∧
     t.node.svc.pool = .reset ∧ t.node.svc.wx = .reset ∧ t.node.svc.note = .reset ∧
     t.node.svc.queues.emergency = [] ∧ t.node.svc.queues.normal = [] ∧
     t.node.east = .reset ∧ t.node.west = .reset ∧ t.node.ring = .reset ∧ t.node.head = .reset ∧
     t.node.win = .reset ∧ t.node.call = .reset ∧ t.node.zone = .reset ∧ t.node.trib = .reset ∧
     t.node.toll = .reset ∧ t.node.rules = List.replicate 8
       { state := .clear, last := none, since := { seconds := 0, cycle := 0, sync := false } } ∧
     t.node.coll = .reset ∧ t.node.cmd = .reset ∧ t.node.link = .reset ∧
     t.node.writing = none ∧ t.pending = s.pending ∧ (StoreOk s → KeepsWritten s.store t.store) ∧
     (s.node.writing = none → t.store = s.store)) ∧
  (let n := State.reset.node
   (n.svc.settings.role = .wayside ∧ n.svc.settings.station = 999 ∧ n.svc.settings.voiceCap = 16 ∧
     n.svc.settings.errorThreshold = 40 ∧ n.svc.settings.waitToRestore = 30) ∧
   (∀ p, (n.port p).state = .dark ∧ (n.port p).good = 0 ∧ (n.port p).missing = 0 ∧ (n.port p).neighbour = none ∧
     (n.port p).conflict = false ∧ (n.port p).transmit = false) ∧
   (n.ring.attach = .orphan ∧ n.head.state = .opened ∧ n.head.origin = .east ∧ n.head.map = [] ∧
     n.head.number = 0) ∧
   (n.svc.pool.free = 1536 ∧ SvcOk n.svc ∧ CallsOk n.call n.set.voiceCap) ∧
   (∀ p, 1 ≤ p → p ≤ 8 → (n.phone p).map Phone.state = some .idle) ∧
   (∀ d, 1 ≤ d → d ≤ 8 → (n.device d).map Device.state = some .unused) ∧
   (∀ b, 1 ≤ b → b ≤ 4 → (nth n.zone.beacons b).map Beacon.mode = some .off) ∧
   (∀ x, 1 ≤ x → x ≤ 4 → (nth n.trib.outputs x).map Output.state = some .armed) ∧
   (n.toll.log = [] ∧ n.svc.wx.segments = [] ∧ n.coll.batches = [] ∧ n.svc.note.queue = [] ∧
     n.attentionLine = false ∧ n.cmd.held = false ∧ n.cmd.forwards = [] ∧ n.link.valid = 0))

/-- R194 steps 5 and 6: whatever the store holds, a start leaves the machine started, with the host link running, notices
kept and both line port transmitters on. When START acts is log entry 5 (the model's). -/
def Obligations.StartRunsTheNode : Prop :=
  ∀ s : State, s.node.phase = .held ∨ s.node.restartDue = true →
    ∃ t, exec .start s = .next t ∧ t.node.phase = .started ∧ t.node.link.running = true ∧
      t.node.svc.note.keep = true ∧ t.node.east.transmit = true ∧ t.node.west.transmit = true ∧
      t.pending = s.pending ∧ t.store = s.storeAfterReset

/-- R194: with no record in the store a start leaves every item at its default, so the node is the WAYSIDE 999; START with
the role, the station number and no record applied or skipped is the first notice, sent as NOTICE frame 0, and TRIB begins
its work. When START acts is log entry 5 (the model's). -/
def Obligations.StartOnBlankStore : Prop :=
  ∀ s : State, s.node.phase = .held → s.store = [] → s.node.writing = none →
    ∃ t e, exec .start s = .next t ∧ t.node.set = .default ∧ t.node.isHead = false ∧ t.node.me = 999 ∧
      t.node.link.sending = some (.notice 0 0 e false) ∧ e.code = .start ∧
      e.details = [.role .wayside, .nat 999, .nat 0, .nat 0] ∧ t.node.trib.started = true ∧
      t.node.restartDue = false ∧ t.store = []

/-! ## How commands are taken and answered (10 sections 10.7 to 10.9) -/

/-- R186 step 1: a command that comes while its channel has one in progress is answered BUSY, whatever it is, and
nothing else happens. R186 steps 3 and 4, R188: a command of the other role is answered WRONG-ROLE; one of this role
on a channel that does not take it WRONG-STATE; a setting- or device-class command from C under the hold HELD; STORE-
APPEND without the hold WRONG-STATE. Nothing else happens. -/
def Obligations.BusyAndRefusedCommandsAreAnswered : Prop :=
  (∀ (i : Instr) (o : Origin) (c : Command) (s : State), rowCommand i = some (o, c) → Reaches s o →
     s.node.cmd.channel o ≠ none → exec i s = .next (s.replied s.node o c .busy .nil)) ∧
  (∀ (i : Instr) (o : Origin) (c : Command) (s : State), rowCommand i = some (o, c) → Reaches s o →
     s.node.cmd.channel o = none →
     let r := Command.listing c
     (r.role = some .headEnd ∧ s.node.set.role = .wayside ∨ r.role = some .wayside ∧ s.node.set.role = .headEnd →
       exec i s = .next (s.replied s.node o c .wrongRole .nil)) ∧
     ((∀ q, r.role = some q → s.node.set.role = q) →
       (r.takenFrom o = false → exec i s = .next (s.replied s.node o c .wrongState .nil)) ∧
       (r.takenFrom o = true → Origin.isCentre o = true → s.node.cmd.held = true → HoldClass.held r.hold = true →
         exec i s = .next (s.replied s.node o c .held .nil)) ∧
       (r.takenFrom o = true → Origin.isCentre o = false → Command.needsHold c = true → s.node.cmd.held = false →
         exec i s = .next (s.replied s.node o c .wrongState .nil))))

/-- R186: a reply on L is a REPLY frame with the command's tag and station field 0, which waits or is sent when the step
ends; a reply on C is a REPLY-FWD with the forward number, which is offered to the normal queue and kept while it is
refused. The number of the head-end is log entry 37, and the length of a REPLY-FWD log entry 19 (both the model's). -/
def Obligations.RepliesGoTheirWay : Prop :=
  ∀ (n : Node) (c : Command) (st : Status) (v : Value),
    (∀ tag, (n.replyTo (.link tag) (.command c) st v).settle.replying
      { tag := tag, station := 0, cmd := .command c, status := st, result := v,
        restart := decide (c = .restart ∧ st = .done) }) ∧
    (∀ fwd, ∃ len, 1 ≤ len ∧ len ≤ 8 ∧ (n.replyTo (.centre fwd) (.command c) st v).settle.carrying
      { source := n.me, dest := Config.headEndNumber, length := len, payload := .replyFwd fwd st v })

/-- The frame of every step but for its own effect: what follows of a change at the end of a step (buffers lent and
freed, notices filed, queued messages moved, exchanges and pulses begun, frames sent) touches nothing that `Node.Keeps`
lists. It is the restart conditions, the search for exchanges, the freeings and the sender, in this order (log entry 11,
the model's). R31: a freeing is told once to each producer that holds a refused message, CALL, CMD and COLL, and to NOTE
with entries for the centre (R180), in an order that is open (log entry 12, a free value), and a freeing that comes of
it is told again; with none to tell nothing follows. R59, R165, R166: CALL, CMD and COLL offer their held messages
again, oldest first: one that is taken is held no longer and the next is offered; at the first refusal it and all behind
it stay held (that CMD does the same is log entry 60, the model's). -/
def Obligations.EndOfStepFrame : Prop :=
  (∀ (s : State) (n : Node), Node.Keeps n (s.settled n).node ∧ (s.settled n).store = s.store ∧
    (s.settled n).pending = s.pending ∧
    (s.settled n).node = (Node.tellFreed 64 (n.evaluateOutputs.lookAll)).sendNext) ∧
  (∀ (n : Node) (fuel : Nat),
    let m : Node := { n with svc := { n.svc with freed := false } }
    let told := [Producer.call, .cmd, .note, .coll].filter n.waits
    (n.svc.freed = false → Node.tellFreed fuel n = n) ∧
    (n.svc.freed = true → Node.tellFreed (fuel + 1) n = Node.tellFreed fuel (Node.tellEach 4 told m)) ∧
    (n.waits .call = true ↔ n.call.held ≠ []) ∧ (n.waits .cmd = true ↔ n.cmd.refused ≠ []) ∧
    (n.waits .note = true ↔ n.isHead = false ∧ ∃ e ∈ n.svc.note.queue, e.toCentre = true) ∧
    (n.waits .coll = true ↔ n.coll.heldH ≠ [] ∨ n.coll.heldW ≠ [])) ∧
  (∀ (n : Node) (l : List Producer) (fuel : Nat), Node.tellEach fuel [] n = n ∧
    (∀ p, Node.tellEach (fuel + 1) [p] n = n.offerAgain p) ∧
    (2 ≤ l.length → ∃ p ∈ l, ∃ k, Node.tellEach (fuel + 1) l n = Node.tellEach fuel (l.filter fun q => q ≠ p)
      (Node.offerAgain { n with svc := { n.svc with free := k } } p))) ∧
  (∀ (n : Node) (m : Message) (rest : List Message),
    let calls := n.svc.offerEmergency m
    let offer := n.svc.offerNormal m
    let held (l : List Message) (c : Call) : Call := { c with held := l }
    (n.call.held = m :: rest → n.offerAgain .call = if calls.2 then
        Node.offerAgain { n with svc := calls.1, call := held rest n.call } .call
      else { n with svc := calls.1 }) ∧
    (n.cmd.refused = m :: rest → n.offerAgain .cmd = if offer.2 then
        Node.offerAgain { n with svc := offer.1, cmd := { n.cmd with refused := rest } } .cmd
      else { n with svc := offer.1 }) ∧
    (n.isHead = true → n.coll.heldH = m :: rest → n.offerAgain .coll = if offer.2 then
        Node.offerAgain { n with svc := offer.1, coll := { n.coll with heldH := rest } } .coll
      else { n with svc := offer.1 }) ∧
    (n.call.held = [] → n.offerAgain .call = n) ∧ (n.cmd.refused = [] → n.offerAgain .cmd = n) ∧
    (n.isHead = true → n.coll.heldH = [] → n.offerAgain .coll = n) ∧
    n.offerAgain .note = { n with svc := Svc.lookCentre 2 n.svc }) ∧
  (∀ (n : Node) (e : HeldEntry) (rest : List HeldEntry), n.isHead = false →
    let x := match e with
      | .msg _ m => n.svc.offerNormal m
      | .batch k b => n.svc.offerPlaceholder k b
    (n.coll.heldW = [] → n.offerAgain .coll = n) ∧
    (n.coll.heldW = e :: rest → n.offerAgain .coll = if x.2 then
        Node.offerAgain { n with svc := x.1, coll := { n.coll with heldW := rest } } .coll
      else { n with svc := x.1 }))

/-! ## Line ports (01 section 1.2) -/

/-- R5, R6, R9, R11: the events that change a port's state without its leaving or reaching RUN. The port takes the new
state with both runs and the current error count 0, PORT-STATE is posted with the port, the states and the cause, and
nothing else changes but by the end of the step. Between the sub-states of PROBE nothing is posted (that the counts are
0 then too is log entry 111, the model's). The cause told of PARTNER_MOVED_ON is log entry 23, and that the cycle a port
sends ends with its state log entry 52 (both the model's). R6, R7: a probe takes PROBE.SEND to PROBE.ECHO with the
partner's number and role, and on to ALIGN if it carries the echo flag; it takes PROBE.ECHO to ALIGN if it carries the
flag; it takes ALIGN, RUN and RECOVER back to PROBE.ECHO; elsewhere it does nothing. A head-end that enters PROBE.ECHO
against a head-end sets the conflict flag, posts ROLE-CONFLICT and goes no further, until a probe of a partner that is
none; that this probe records the partner afresh is log entry 55 (the model's). R5, R14, R17: a port in RUN that loses
light becomes DARK with its neighbour absent, and one in RUN that sees a probe goes to PROBE.ECHO. At a wayside a
THROUGH node then folds toward that port, and a folded node whose good port it was becomes ORPHAN unless its other port
is RUN; at the head-end the origin becomes WEST when the port is EAST. -/
def Obligations.PortEventsMovePorts : Prop :=
  (∀ (p : PortId) (s : State), s.node.phase = .started →
     let r := s.node.port p
     let dark := s.node.setLight p false
     let lit := s.node.setLight p true
     ((PortState.isProbe r.state = true ∨ r.state = .align ∨ r.state = .recover) →
       exec (.lightLost p) s = .next (s.settled (dark.portTo p .dark .lightLost))) ∧
     ((r.state = .disabled ∨ r.state = .dark ∨ r.state = .loopback) →
       exec (.lightLost p) s = .next (s.settled dark)) ∧
     (r.state = .dark → r.transmit = true →
       exec (.lightSeen p) s = .next (s.settled (lit.portTo p .probeSend .lightSeen))) ∧
     ((r.state ≠ .dark ∨ r.transmit = false) → exec (.lightSeen p) s = .next (s.settled lit)) ∧
     (r.state = .recover → Config.recoverLimit ≤ s.node.svc.now - r.entered →
       exec (.recoverExpired p) s = .next (s.settled (s.node.portTo p .probeSend .recoverExpired))) ∧
     (r.state = .probeEcho → r.conflict = false →
       exec (.partnerMovedOn p) s = .next (s.settled (s.node.portTo p .align Config.movedOnCause)))) ∧
  (∀ (p : PortId) (b : Probe) (s : State), s.node.phase = .started →
     let r := s.node.port p
     let clash := s.node.isHead && decide (b.role = .headEnd)
     let learned (n : Node) : Node :=
       let m := n.onPort p fun r => { r with neighbour := some (b.station, b.role), conflict := r.conflict || clash }
       if clash then m.post .roleConflict (.linePort p) [.nat b.station] else m
     let gone (n : Node) : Host.Outcome State Fault Refusal :=
       .next (s.settled (if b.echo then n.portTo p .align .probeSeen else n))
     let run := exec (.probeReceived p b) s
     (r.state = .probeSend →
       let n := learned (s.node.onPort p fun r =>
         { r with state := .probeEcho, good := 0, missing := 0, errNow := 0, markerSeen := false,
                  entered := s.node.svc.now, sent := none })
       run = if r.conflict || clash then .next (s.settled n) else gone n) ∧
     (r.state = .probeEcho → r.conflict = false → run = gone s.node) ∧
     (r.state = .probeEcho → r.conflict = true → b.role = .headEnd → run = .next (s.settled s.node)) ∧
     (r.state = .probeEcho → r.conflict = true → b.role = .wayside → run = gone (s.node.onPort p fun r =>
       { r with conflict := false, neighbour := some (b.station, b.role) })) ∧
     ((r.state = .align ∨ r.state = .recover) →
       run = .next (s.settled (learned (s.node.portTo p .probeEcho .probeSeen)))) ∧
     ((r.state = .disabled ∨ r.state = .dark ∨ r.state = .loopback) → run = .next (s.settled s.node))) ∧
  (∀ (p : PortId) (s : State), s.node.phase = .started → (s.node.port p).state = .run →
     let q := otherPort p
     let left (t : State) : Prop :=
       (t.node.port q).state = (s.node.port q).state ∧
       (s.node.isHead = false → s.node.ring.attach = .through → t.node.ring.attach = foldTo p) ∧
       (s.node.isHead = false → s.node.ring.attach = foldTo q →
         t.node.ring.attach = if (s.node.port q).state = .run then foldTo p else .orphan) ∧
       (s.node.isHead = true → s.node.head.origin = .east → t.node.head.origin = .west ∨ p = .west) ∧
       (s.node.isHead = true → p = .west → t.node.head = s.node.head) ∧
       t.node.toll = s.node.toll ∧ t.node.rules = s.node.rules ∧ t.node.cmd.held = s.node.cmd.held
     (∃ t, exec (.lightLost p) s = .next t ∧ left t ∧ (t.node.port p).state = .dark ∧
       (t.node.port p).neighbour = none) ∧
     (∀ b : Probe, ∃ t, exec (.probeReceived p b) s = .next t ∧ left t ∧ (t.node.port p).state = .probeEcho ∧
       (t.node.port p).neighbour = some (b.station, b.role) ∧
       (t.node.port p).conflict =
         ((s.node.port p).conflict || (s.node.isHead && decide (b.role = .headEnd)))))

/-- R4: a good marker adds 1 to the good-marker run and clears the missing-marker run; a bad or missing one clears the
good-marker run and adds 1 to the other. Both stop at 255, coding errors add to the current count, and only ALIGN, RUN,
RECOVER and LOOPBACK classify. R8, R9: 8 good markers in a row take ALIGN and RECOVER to RUN; the third missing one in a
row, or an error count above the threshold, takes RUN to RECOVER; a port that is not in RUN keeps its state at a missing
marker. That each MARKER_MISSING adds 1, one after a missing marker too, on a port that has seen a marker since it entered
its state, is log entry 48, and that MARKERS-MISSING is told before ERRORS is log entry 67 (both the model's choice). R11,
R14 to R17: a port that so leaves or reaches RUN posts PORT-STATE and is told to RING. A THROUGH wayside folds toward a port
that leaves RUN; a folded one starts its wait-to-restore timer when its failed port reaches RUN, stops it when that port
leaves RUN, and when its good port leaves RUN folds the other way or becomes ORPHAN; an ORPHAN one leaves by a port that
reaches RUN while the other is not RUN. At the head-end EAST leaving RUN makes the origin WEST, where the inner loop's
token-loss timer stops, and EAST reaching RUN again starts the wait-to-restore timer. -/
def Obligations.MissingMarkers : Prop :=
  (∀ (p : PortId) (s : State), s.node.phase = .started →
     let r := s.node.port p
     PortState.classifies r.state = true → r.markerSeen = true → r.missing < 255 →
     ∃ t, exec (.markerMissing p 0) s = .next t ∧
       (t.node.port (otherPort p)).state = (s.node.port (otherPort p)).state ∧
       (r.state = .run → 2 ≤ r.missing → (t.node.port p).state = .recover ∧ (t.node.port p).missing = 0) ∧
       (r.state = .run → r.missing < 2 → r.errNow ≤ s.node.set.errorThreshold →
         (t.node.port p).state = .run ∧ (t.node.port p).good = 0 ∧ (t.node.port p).missing = r.missing + 1) ∧
       (r.state ≠ .run → (t.node.port p).state = r.state ∧ (t.node.port p).good = 0 ∧
         (t.node.port p).missing = r.missing + 1)) ∧
  (∀ (n : Node) (p : PortId) (errors : Nat),
     let r := n.port p
     let off := r.state = .dark ∨ r.state = .disabled
     let told : Port := if off then r else { r with errNow := r.errNow + errors }
     let counts := r.state = .align ∨ r.state = .run ∨ r.state = .recover ∨ r.state = .loopback
     let gone : Port := { told with good := 0, missing := bump 255 r.missing }
     let moved (q : Port) : Node :=
       let m := n.onPort p fun _ => q
       if (r.state = .align ∨ r.state = .recover) ∧ 8 ≤ q.good then m.changePort p .run .markersGood
       else if r.state = .run ∧ 3 ≤ q.missing then m.changePort p .recover .markersMissing
       else if r.state = .run ∧ 0 < errors ∧ n.set.errorThreshold < q.errNow then m.changePort p .recover .errors
       else m
     n.classify p true errors =
       moved (if counts then { told with good := bump 255 r.good, missing := 0, markerSeen := true } else told) ∧
     n.classify p false errors = moved (if counts then { gone with markerSeen := true } else told) ∧
     (∀ s : State, s.node = n → n.phase = .started → exec (.markerMissing p errors) s =
       .next (s.settled (moved (if counts ∧ r.markerSeen = true then gone else told))))) ∧
  (∀ (n : Node) (p : PortId) (new : PortState) (why : PortCause),
     let old := (n.port p).state
     let run := n.changePort p new why
     let m := n.portTo p new why
     (PortState.isProbe old = false → old ≠ .run → new ≠ .run → new ≠ old → run = m) ∧
     (old ≠ .run → new = .run → run = if n.isHead then m.headPort p true else m.waysidePort p true) ∧
     (old = .run → new ≠ .run → run = if n.isHead then m.headPort p false else m.waysidePort p false)) ∧
  (∀ (n : Node) (p : PortId),
     let q := otherPort p
     let waits (b : Bool) : Node := { n with ring := { n.ring with
       restoring := b, timer := if b then some (n.svc.now + 4000 * n.set.waitToRestore) else none } }
     (n.ring.attach = .through → n.waysidePort p false = n.setAttach (foldTo p) ∧ n.waysidePort p true = n) ∧
     (n.ring.attach = foldTo p → ∀ b, n.waysidePort p b = waits b) ∧
     (n.ring.attach = foldTo q → n.waysidePort p true = n ∧ n.waysidePort p false =
       if (n.port q).state = .run then (waits false).setAttach (foldTo p) else n.setAttach .orphan) ∧
     (n.ring.attach = .orphan → n.waysidePort p false = n ∧ n.waysidePort p true =
       if (n.port q).state = .run then n else n.setAttach (foldTo q))) ∧
  (∀ (n : Node) (new : Attach), n.ring.attach ≠ .orphan → new ≠ .orphan →
     let told := Node.post { n with ring := { n.ring with attach := new } } .attachState .none
       [.attach n.ring.attach, .attach new]
     n.setAttach new = { told with
       east := { n.east with sent := none }, west := { n.west with sent := none }
       win := n.win.discardPartials fun _ => true }) ∧
  (∀ n : Node,
     let waits (b : Bool) : Node := { n with head := { n.head with
       restoring := b, timer := if b then some (n.svc.now + 4000 * n.set.waitToRestore) else none } }
     (∀ b, n.headPort .west b = n) ∧
     (n.head.origin = .east → n.headPort .east true = n ∧ n.headPort .east false =
       { n with head := { n.head with origin := .west }
                win := { n.win with inner := { n.win.inner with timer := none } } }) ∧
     (n.head.origin = .west → ∀ b, n.headPort .east b = waits b))

/-- R10, R12: the port commands. An argument that names no port is BAD-ARGUMENT. PORT-ENABLE takes a DISABLED port to DARK
and on to PROBE.SEND where light stands at its receiver, and is WRONG-STATE elsewhere; PORT-DISABLE takes any other port
to DISABLED; PORT-RESET and PORT-LOOPBACK are WRONG-STATE in DISABLED; a command whose effect is there already is DONE. A
port that enters DISABLED or DARK has its neighbour absent and its conflict flag clear (R5). That PORT-RESET to PROBE.SEND
clears the conflict flag is log entry 24 (the model's). R2, R5, R6: what a port sends in each state: no light in DISABLED
and before its transmitter is started, the probe pattern with the node's number and role in DARK and PROBE, idle fill in
LOOPBACK, and in ALIGN, RUN and RECOVER the cycle directed out of it in this period, or idle fill. The echo flag is set in
PROBE.ECHO alone; that it is clear in DARK is log entry 76 (the model's choice). For how long a directed cycle is sent is
log entry 52 (the model's). -/
def Obligations.PortCommands : Prop :=
  (∀ (n : Node) (p : PortId),
    let r := n.port p
    let probe (echo : Bool) : Sent := .probe { station := n.me, role := n.set.role, echo := echo }
    (r.state = .disabled → n.sends p = .dark) ∧
    (r.state = .dark → n.sends p = if r.transmit then probe false else .dark) ∧
    (r.state = .probeSend → n.sends p = probe false) ∧
    (r.state = .probeEcho → n.sends p = probe true) ∧
    (r.state = .loopback → n.sends p = .idleFill) ∧
    (r.state = .align ∨ r.state = .run ∨ r.state = .recover →
      (r.sent = none → n.sends p = .idleFill) ∧ (∀ c, r.sent = some c → n.sends p = .cycle c))) ∧
  (∀ (o : Origin) (s : State),
    (∀ a, portOf a = none →
      (Takes s o (.portEnable a) →
        exec (.portEnable o a) s = .next (s.replied s.node o (.portEnable a) .badArgument .nil)) ∧
      (Takes s o (.portDisable a) →
        exec (.portDisable o a) s = .next (s.replied s.node o (.portDisable a) .badArgument .nil)) ∧
      (Takes s o (.portReset a) →
        exec (.portReset o a) s = .next (s.replied s.node o (.portReset a) .badArgument .nil)) ∧
      (Takes s o (.portLoopback a) →
        exec (.portLoopback o a) s = .next (s.replied s.node o (.portLoopback a) .badArgument .nil))) ∧
    (∀ a p, portOf a = some p →
      let st := (s.node.port p).state
      (Takes s o (.portEnable a) →
        (st = .disabled → ∃ n, exec (.portEnable o a) s = .next (s.replied n o (.portEnable a) .done .nil) ∧
          (n.port p).state = (if (s.node.port p).transmit && s.node.pins.light p then .probeSend else .dark) ∧
          (n.port p).neighbour = none ∧ (n.port p).conflict = false ∧
          n.port (otherPort p) = s.node.port (otherPort p) ∧ n.ring = s.node.ring ∧ n.head = s.node.head) ∧
        (st ≠ .disabled →
          exec (.portEnable o a) s = .next (s.replied s.node o (.portEnable a) .wrongState .nil))) ∧
      (Takes s o (.portDisable a) →
        (st = .disabled → exec (.portDisable o a) s = .next (s.replied s.node o (.portDisable a) .done .nil)) ∧
        (st ≠ .disabled → ∃ n, exec (.portDisable o a) s = .next (s.replied n o (.portDisable a) .done .nil) ∧
          (n.port p).state = .disabled ∧ (n.port p).neighbour = none ∧ (n.port p).conflict = false ∧
          (n.port (otherPort p)).state = (s.node.port (otherPort p)).state)) ∧
      (Takes s o (.portReset a) →
        (st = .disabled → exec (.portReset o a) s = .next (s.replied s.node o (.portReset a) .wrongState .nil)) ∧
        (st ≠ .disabled → ∃ n, exec (.portReset o a) s = .next (s.replied n o (.portReset a) .done .nil) ∧
          (n.port p).state = (if s.node.pins.light p then .probeSend else .dark) ∧ (n.port p).conflict = false ∧
          (s.node.pins.light p = false → (n.port p).neighbour = none) ∧
          (n.port (otherPort p)).state = (s.node.port (otherPort p)).state)) ∧
      (Takes s o (.portLoopback a) →
        (st = .disabled →
          exec (.portLoopback o a) s = .next (s.replied s.node o (.portLoopback a) .wrongState .nil)) ∧
        (st = .loopback →
          exec (.portLoopback o a) s = .next (s.replied s.node o (.portLoopback a) .done .nil)) ∧
        (st ≠ .disabled → st ≠ .loopback →
          ∃ n, exec (.portLoopback o a) s = .next (s.replied n o (.portLoopback a) .done .nil) ∧
          (n.port p).state = .loopback ∧
          (n.port (otherPort p)).state = (s.node.port (otherPort p)).state))))

/-! ## Node time, cycles and the ring (01 sections 1.1 to 1.8) -/

/-- R4, R21: a cycle period passes at a wayside: node time advances by one cycle, the sync flag stays and the error
windows turn over with the second. No cycle is out of a port yet (log 52); nothing that waits on a change is looked at
(log 11). R3, R13, R15: a cycle arrives, full or bare, its marker good or bad (log 34). A THROUGH or ORPHAN node relays
it from ALIGN or RUN; a folded one turns it back out of the port it relies on, with a bare copy out of the other; at the
failed port a full cycle opens a restoring one out. At a first passage WIN takes its slots, answers surveys, judges the
management slot and places, at a later one it takes its slots alone; in the outer schedule the first passage has the
phone records check their labels (R56), P1 to P8 (log 97), and ZONE take the tag (R91). Number and cap are remembered at
first passages alone (log 96); a marker turns the error window over before its errors count (log 104). At an ORPHAN node
a cycle reaches WIN and ZONE but not CALL (log 41); cycle numbers tell a first passage (log 69); a later one makes its
loop present (log 94). A cycle out of a LOOPBACK port counts there as a good marker (log 54). R34, R38: what a node
without the token does with the token and clear-way fields. R41: the clear-way lock ends at FREE or DIRECTED unless that
token is taken as directed (log 59), not where a holding ends (log 105). R35: it places into empty slots alone, four in
a cycle at most: the next slot of a begun message, else an unbegun emergency message, then, unless directed, a SURVEY,
work on the outer loop alone (log 51) and, when it does not fit the quota, the end of the choice (log 107), and the
normal queue in order; the first message always, a later one, not emergency, within the burst quota. R36, R40: a holder
discards its token at another one, hands it over to the station clear-way names, or goes on while a message is begun,
and releases FREE with nothing left to send. (The log entries are the model's choices, 107 deduced.) -/
def Obligations.WaysideTimeAdvances : Prop :=
  (∀ s : State, s.node.phase = .started → s.node.isHead = false →
     let n := s.node
     let last := decide (¬n.svc.time.cycle < 3999)
     let turn (r : Port) : Port :=
       if last then { r with sent := none, errLast := r.errNow, errNow := 0 } else { r with sent := none }
     let time : NodeTime :=
       if last then { n.svc.time with cycle := 0, seconds := (n.svc.time.seconds + 1) % 4294967296 }
       else { n.svc.time with cycle := n.svc.time.cycle + 1 }
     (n.svc.time.seconds < 4294967296) →
     exec .cycleTimerTick s = .next { s with node :=
       { n with svc := { n.svc with now := n.svc.now + 1, time := time }, east := turn n.east, west := turn n.west } }) ∧
  (∀ (p : PortId) (c : Cycle) (good : Bool) (errors : Nat) (s : State), s.node.phase = .started →
     s.node.isHead = false →
     let st := (s.node.port p).state
     let q := otherPort p
     let n := if good then s.node.adoptTime c.marker else s.node
     let x : Node × Cycle :=
       match c.content with
       | none => (n, c)
       | some k => ((n.passage c k).1, { c with content := some (n.passage c k).2 })
     let back : Cycle := { x.2 with marker := { x.2.marker with foldCount := bump 255 x.2.marker.foldCount } }
     let run := exec (.cycleArrivesWayside p c good errors) s
     let ends (m : Node) : Host.Outcome State Fault Refusal := .next (s.settled (m.classify p good errors))
     (PortState.carries st = false → run = ends s.node) ∧
     (s.node.ring.attach = .through ∨ s.node.ring.attach = .orphan →
       (st = .align ∨ st = .run → run = ends (x.1.direct q x.2)) ∧ (st = .recover → run = ends n)) ∧
     (PortState.carries st = true → s.node.ring.attach = foldTo q →
       run = ends ((x.1.direct p back).direct q { back with content := none })) ∧
     (PortState.carries st = true → s.node.ring.attach = foldTo p →
       run = ends (if s.node.ring.restoring = true ∧ c.content ≠ none then n.openOut else n))) ∧
  (∀ (n : Node) (m : Marker) (p : PortId) (c : Cycle),
     let turn (r : Port) : Port :=
       if m.time.seconds = n.svc.time.seconds then r else { r with errLast := r.errNow, errNow := 0 }
     n.adoptTime m = { n with
       svc := { n.svc with time := { seconds := m.time.seconds, cycle := m.time.cycle, sync := true } }
       east := turn n.east, west := turn n.west, ring := { n.ring with lastGood := n.svc.now } } ∧
     n.openOut = Node.setAttach { n with ring := { n.ring with restoring := false, timer := none } } .through ∧
     n.direct p c = n.onPort p fun r =>
       if PortState.carries r.state then { r with sent := some c }
       else if r.state = .loopback then { r with good := bump 255 r.good, missing := 0, markerSeen := true }
       else r) ∧
  (∀ (n : Node) (c : Cycle), n.firstPassage c =
     match (match c.loop with | .outer => n.ring.lastOuter | .inner => n.ring.lastInner) with
     | none => true
     | some last => decide (4000 ≤ (last + 65536 - c.marker.number) % 65536)) ∧
  (∀ (n : Node) (c : Cycle) (k : Content),
     let a := n.takeData c.loop k.data
     let b := a.1.answerSurveys c.marker.foldCount a.2
     let m := b.1.mgmtPassage c.loop k.mgmt
     let d := m.1.placeData c.loop b.2
     n.winPassage c k = (d.1, { k with mgmt := m.2, data := d.2 }) ∧
     (n.firstPassage c = false →
       n.passage c k = (a.1.onLoop c.loop fun w => { w with present := true }, { k with data := a.2 })) ∧
     (n.firstPassage c = true → c.loop = .inner →
       n.passage c k = Node.winPassage { n with ring := { n.ring with lastInner := some c.marker.number } } c k) ∧
     (n.firstPassage c = true → c.loop = .outer →
       let cap := c.marker.voiceCap
       let w := Node.winPassage { n with ring :=
         { n.ring with lastOuter := some c.marker.number, lastCap := some cap } } c k
       let v := if n.ring.attach = .orphan then (w.1, w.2.voice)
         else [1, 2, 3, 4, 5, 6, 7, 8].foldl (Node.labelCheck cap) (w.1, w.2.voice)
       (w.1.ring.attach = n.ring.attach ∧ w.1.call = n.call ∧ w.2.voice = k.voice) ∧
       (c.marker.releaseTag = none → n.passage c k = (v.1, { w.2 with voice := v.2 })) ∧
       (∀ x, c.marker.releaseTag = some x → n.passage c k = (v.1.receiveTag x, { w.2 with voice := v.2 })))) ∧
  (∀ (n : Node) (l : Loop) (m : Mgmt),
     let w := n.win.loop l
     let asks := !n.svc.queues.emergency.isEmpty && w.holding.isNone && !w.cwLock && w.present
     let work := !n.svc.queues.emergency.isEmpty || !n.svc.queues.normal.isEmpty ||
       (l = .outer && n.win.survey.isSome)
     let fresh (d : Bool) : Holding :=
       { directed := d, quota := 0, burst := n.set.burstQuota, started := false, begun := none, handOver := none }
     let directed : Node × Mgmt := (n.onLoop l fun w => { w with holding := some (fresh true), cwLock := true },
       { m with token := .empty, clearWay := none })
     let asked : Option Nat :=
       if asks then (if m.clearWay = none then some n.me else m.clearWay)
       else if m.clearWay = some n.me then none else m.clearWay
     let passed : Node × Mgmt := (n, { m with clearWay := asked })
     let run := n.passToken l m
     (m.token = .empty → run = passed) ∧
     (∀ x, m.token = .directed x → run = if x = n.me then directed else passed) ∧
     (m.token = .free →
       (∀ y, m.clearWay = some y → run = if y = n.me then directed else (n, { m with token := .directed y })) ∧
       (m.clearWay = none → w.lapLock = none → run = if work then
         (n.onLoop l fun w => { w with holding := some (fresh false), lapLock := some m.lap }, { m with token := .empty })
         else passed) ∧
       (m.clearWay = none → w.lapLock ≠ none → run = if asks then directed else passed)) ∧
     (w.holding = none → n.passLock l m = (run.1.onLoop l fun v => { v with
       cwLock := decide (v.holding.map Holding.directed = some true) || (v.cwLock && decide (m.token = .empty)) },
       run.2)) ∧
     (let seen := n.onLoop l fun v => { v with
        present := true, lastSeen := n.svc.now, lastLap := some m.lap
        lapLock := if v.lapLock = some m.lap then some m.lap else none }
      (w.holding = none → n.mgmtPassage l m = seen.passLock l m) ∧
      (∀ h, w.holding = some h → n.mgmtPassage l m = seen.holderPassage l h m))) ∧
  (∀ (n : Node) (l : Loop) (data : List (Option Slot)),
     let out := (n.placeData l data).2
     out.length = data.length ∧ (∀ (i : Nat) (x : Slot), data[i]? = some (some x) → out[i]? = some (some x)) ∧
     (out.filter Option.isSome).length ≤ (data.filter Option.isSome).length + 4 ∧
     ((n.win.loop l).holding = none → n.placeData l data = (n, data))) ∧
  (∀ (n : Node) (l : Loop) (h : Holding),
     let urgent := n.svc.queues.emergency.find? fun m => m.begun.isNone
     let fits (k : Nat) : Bool := h.started = false ∨ h.quota + k ≤ h.burst
     let run := n.choose l h
     (h.handOver ≠ none → run = (n, none)) ∧
     (h.handOver = none → ∀ m, urgent = some m →
       run = (n, some { src := .emergency m.id, slots := slotsOf m.msg })) ∧
     (h.handOver = none → urgent = none → h.directed = true → run = (n, none)) ∧
     (h.handOver = none → urgent = none → h.directed = false →
       (∀ k, n.win.survey = some k → l = .outer →
         run = (n, if fits 8 then some { src := .survey, slots := surveySlots n.me k } else none)) ∧
       (n.win.survey = none ∨ l = .inner → run = Node.chooseNormal l h n.svc.queues.normal n)) ∧
     Node.chooseNormal l h [] n = (n, none) ∧
     (∀ (m : QMsg) (rest : List NEntry),
       (m.begun ≠ none → Node.chooseNormal l h (.msg m :: rest) n = Node.chooseNormal l h rest n) ∧
       (m.begun = none → Node.chooseNormal l h (.msg m :: rest) n =
         (n, if fits m.msg.length then some { src := .normal m.id, slots := slotsOf m.msg } else none)))) ∧
  (∀ (n : Node) (l : Loop) (room : Nat) (rest : List (Option Slot)) (h : Holding),
     let holds (g : Holding) (m : Node) : Node := m.onLoop l fun w => { w with holding := some g }
     let run := Node.place l (room + 1) (none :: rest) n
     let next (m : Node) (s : Slot) : Node × List (Option Slot) :=
       ((Node.place l room rest m).1, some s :: (Node.place l room rest m).2)
     (∀ data, n.placeData l data = Node.place l 4 data n) ∧
     (∀ s, Node.place l (room + 1) (some s :: rest) n =
       ((Node.place l (room + 1) rest n).1, some s :: (Node.place l (room + 1) rest n).2)) ∧
     Node.place l 0 rest n = (n, rest) ∧ Node.place l room [] n = (n, []) ∧
     ((n.win.loop l).holding = some h → ∀ b s x y, h.begun = some b → b.slots = s :: x :: y →
       run = next (holds { h with begun := some { b with slots := x :: y }, quota := h.quota + 1 } n) s) ∧
     ((n.win.loop l).holding = some h → ∀ b s, h.begun = some b → b.slots = [s] →
       run = next ((holds { h with begun := none, quota := h.quota + 1 } n).messageOver b.src) s) ∧
     ((n.win.loop l).holding = some h → h.begun = none → ∀ m, n.choose l h = (m, none) → run = (m, none :: rest)) ∧
     ((n.win.loop l).holding = some h → h.begun = none → ∀ m b s x y, n.choose l h = (m, some b) →
       b.slots = s :: x :: y → run = next (holds { h with
         started := true, begun := some { b with slots := x :: y }, quota := h.quota + 1 } (m.firstPlaced l b)) s) ∧
     ((n.win.loop l).holding = some h → h.begun = none → ∀ m b s, n.choose l h = (m, some b) → b.slots = [s] →
       run = next ((holds { h with started := true, quota := h.quota + 1 } (m.firstPlaced l b)).messageOver b.src) s)) ∧
  (∀ (n : Node) (l : Loop) (m : Mgmt) (h : Holding),
     let run := n.holderPassage l h m
     let ended := n.onLoop l fun w => { w with holding := none }
     let own := if m.clearWay = some n.me then none else m.clearWay
     (m.token ≠ .empty → (n.win.loop l).holding = some h → run.2 = m ∧ (run.1.win.loop l).holding = none ∧
       run.1.win.duplicate = bump 65535 n.win.duplicate) ∧
     (m.token = .empty → h.begun = none → ∀ y,
       h.handOver = some y ∨ (h.handOver = none ∧ m.clearWay = some y ∧ y ≠ n.me) →
       run = (ended, { m with token := .directed y, clearWay := own })) ∧
     (m.token = .empty → ∀ b, h.begun = some b → ∃ g : Holding, g.begun = some b ∧
       run = (n.onLoop l fun w => { w with holding := some g }, { m with clearWay := own })) ∧
     (m.token = .empty → h.begun = none → h.handOver = none → (m.clearWay = none ∨ m.clearWay = some n.me) →
       n.svc.queues.emergency = [] → n.svc.queues.normal = [] → n.win.survey = none →
       run = (ended, { m with token := .free, clearWay := none })))

/-- R1, R17, R20, R90: a cycle period passes at the head-end: node time and the cycle number advance, before the
period's cycle is originated (log entry 103, the model's choice). Once markers have started, the full cycle goes out of
the origin port, in ALIGN, RUN or RECOVER: out of EAST with fold count 0, or out of WEST with fold count 1 and then a
bare copy out of EAST. It carries the number, the time, the voice cap and the release tag, as many voice slots as the
cap, and 62 slots in all. In CLOSED with origin EAST an inner-schedule cycle without voice slots and with 62 data slots
goes out of WEST. R33: the token field of an originated slot. That a FREE token taken with a clear-way value naming the
head-end itself gives a normal holding and clears the value is log entry 68, and that a SURVEY is work on the outer loop
alone is log entry 51 (both the model's choice). R42: the record of a directed token, cleared by every other field
written (EMPTY too: log entry 112, the model's). R33, R42: a token in a stripped slot is accepted with the loop's lap
count and no holding, and one that comes back untaken is told; any other is a duplicate. R39: how the clear-way value is
learned and dropped (`notBefore` tells the cycles apart: log entry 15, the model's). R18: a full cycle that returns at
EAST with origin EAST is no return at WEST: unfolded, it leaves the ring state and the closing run alone; folded, it is
relayed out of WEST with the slots for this node emptied, and the ring is WRAPPED. No console hears it. A port holds the
cycle directed out of it (log entry 52, the model's). -/
def Obligations.HeadEndOriginates : Prop :=
  (∀ s : State, s.node.phase = .started → s.node.isHead = true → s.node.head.started = true →
     PortState.carries (s.node.port s.node.head.origin).state = true → s.node.set.voiceCap ≤ 24 →
     ∃ t c k, exec .originateCycle s = .next t ∧
       t.node.head.number = (s.node.head.number + 1) % 65536 ∧
       t.node.svc.time.seconds = (advanceTime s.node.svc.time).seconds ∧
       t.node.svc.time.cycle = (advanceTime s.node.svc.time).cycle ∧
       c.content = some k ∧
       c.marker = { number := t.node.head.number, time := t.node.svc.time, voiceCap := s.node.set.voiceCap,
                    foldCount := if s.node.head.origin = .east then 0 else 1, releaseTag := s.node.head.tag } ∧
       k.voice.length = s.node.set.voiceCap ∧ k.voice.length + k.data.length = 62 ∧ t.node.head.tag = none ∧
       (s.node.head.origin = .east → t.node.east.sent = some c ∧
         (s.node.head.state = .closed → PortState.carries s.node.west.state = true →
           ∃ ci ki, t.node.west.sent = some ci ∧ ci.content = some ki ∧ ki.voice = [] ∧ ki.data.length = 62 ∧
             ci.marker = { number := t.node.head.number, time := t.node.svc.time, voiceCap := 0, foldCount := 0,
                           releaseTag := none })) ∧
       (s.node.head.origin = .west → t.node.west.sent = some c ∧
         (PortState.carries s.node.east.state = true → t.node.east.sent = some { c with content := none }))) ∧
  (∀ (n : Node) (l : Loop) (k : Nat),
     let w := n.win.loop l
     let run := n.tokenField l
     (w.opening = true → run = (n.onLoop l fun w => { w with opening := false, carried := none }, .free)) ∧
     (w.opening = false → w.holding = none →
       (w.carried = none ∨ w.carried = some .empty → run = (n.onLoop l fun w => { w with carried := none }, .empty)) ∧
       (∀ x, w.carried = some (.directed x) → x ≠ n.me →
         run = (n.onLoop l fun w => { w with carried := none }, .directed x)) ∧
       (∀ x, w.carried = some .free → w.clearWay = some x → x ≠ n.me →
         run = (n.onLoop l fun w => { w with carried := none }, .directed x)) ∧
       (∀ x, w.carried = some (.directed x) → x = n.me → run.2 = .empty ∧ (run.1.win.loop l).timer = none ∧
         (run.1.win.loop l).cwLock = true ∧
         ((run.1.win.loop l).holding).map Holding.directed = some true) ∧
       (w.carried = some .free → (w.clearWay = none ∨ w.clearWay = some n.me) →
         let work := !n.svc.queues.emergency.isEmpty || !n.svc.queues.normal.isEmpty ||
           (l = .outer && n.win.survey.isSome)
         (work = false → run = (n.onLoop l fun w => { w with carried := none }, .free)) ∧
         (work = true → run.2 = .empty ∧ (run.1.win.loop l).timer = none ∧
           (run.1.win.loop l).lapLock = some w.lap ∧ (run.1.win.loop l).clearWay = none ∧
           ((run.1.win.loop l).holding).map Holding.directed = some false))) ∧
     (let m := n.originateMgmt l k
      ((m.1.win.loop l).record = match m.2.token with
        | .directed x => some x
        | .free => none
        | .empty => none) ∧
      m.2.lap = (m.1.win.loop l).lap ∧ m.2.clearWay = (m.1.win.loop l).clearWay)) ∧
  (∀ (n : Node) (l : Loop) (k : Nat) (m : Mgmt),
     let w := n.win.loop l
     let taken := n.acceptToken l m
     (m.token = .empty → taken = n) ∧
     (m.token ≠ .empty → (m.lap ≠ w.lap ∨ w.holding ≠ none) →
       taken = { n with win := { n.win with duplicate := bump 65535 n.win.duplicate } }) ∧
     (m.token ≠ .empty → m.lap = w.lap → w.holding = none → (∀ x, m.token = .directed x → w.record ≠ some x) →
       taken = (n.onLoop l fun w => { w with lap := (w.lap + 1) % 256, carried := some m.token }).restartLoss l) ∧
     (∀ x, m.token = .directed x → m.lap = w.lap → w.holding = none → w.record = some x →
       taken = ((n.onLoop l fun w => { w with
           lap := (w.lap + 1) % 256, carried := some .free
           clearWay := if w.clearWay = some x then none else w.clearWay
           cwFirst := if w.clearWay = some x then none else w.cwFirst }).post .clearWayUntaken .none
         [.loop l, .nat x]).restartLoss l) ∧
     (let learned := (n.learnClearWay l k m).win.loop l
      (∀ x, w.clearWay = none → m.clearWay = some x → x ≠ n.me →
        learned = { w with clearWay := some x, cwFirst := none }) ∧
      (∀ x f, w.clearWay = some x → x ≠ n.me → m.clearWay = none → w.cwFirst = some f → notBefore k f = true →
        learned = { w with clearWay := none, cwFirst := none }) ∧
      (∀ x y, w.clearWay = some x → m.clearWay = some y → learned = w) ∧
      (∀ x, w.clearWay = some x → m.clearWay = none →
        (x = n.me ∨ w.cwFirst = none ∨ w.cwFirst.map (notBefore k) = some false) → learned = w))) ∧
  (∀ (c : Cycle) (k : Content) (s : State), s.node.phase = .started → s.node.isHead = true →
     PortState.carries s.node.east.state = true → c.content = some k → s.node.head.origin = .east →
     ∃ t, exec (.cycleReturns .east c true 0) s = .next t ∧ t.node.head.lastReturn = s.node.svc.now ∧
       t.node.head.origin = .east ∧ t.node.call.consoles = s.node.call.consoles ∧
       t.node.call.table = s.node.call.table ∧
       (c.marker.foldCount = 0 → t.node.head.state = s.node.head.state ∧
         t.node.head.closing = s.node.head.closing) ∧
       (c.marker.foldCount ≠ 0 → t.node.head.state = .wrapped ∧ t.node.head.closing = 0 ∧
         (PortState.carries s.node.west.state = true → t.node.west.sent = some
           { c with content := some { k with data := k.data.map fun x => x.filter fun (v : Slot) =>
               v.dest ≠ s.node.me } })))

/-- R13, R21: a bare cycle with a good marker reaches a wayside's port in ALIGN, RUN or RECOVER and its errors stay within
the threshold. The node takes the marker's time and sets its sync flag. A THROUGH or ORPHAN node relays it unchanged out
of the opposite port from a port in ALIGN or RUN; a folded node turns it back out of the port it relies on, the fold count
one higher up to 255, and sends a copy out of the other port. The port holds the cycle directed out of it (log entry 52,
the model's). -/
def Obligations.BareCycleAtWayside : Prop :=
  ∀ (p : PortId) (c : Cycle) (s : State), s.node.phase = .started → s.node.isHead = false →
    PortState.carries (s.node.port p).state = true → (s.node.port p).state ≠ .align ∨ (s.node.port p).good < 7 →
    (s.node.port p).state ≠ .recover ∨ (s.node.port p).good < 7 →
    (s.node.port p).errNow ≤ s.node.set.errorThreshold → c.content = none →
    ∃ t, exec (.cycleArrivesWayside p c true 0) s = .next t ∧
      t.node.svc.time = { seconds := c.marker.time.seconds, cycle := c.marker.time.cycle, sync := true } ∧
      t.node.ring.lastGood = s.node.svc.now ∧ t.node.ring.attach = s.node.ring.attach ∧ t.node.win = s.node.win ∧
      t.node.call.phones = s.node.call.phones ∧
      ((s.node.ring.attach = .through ∨ s.node.ring.attach = .orphan) → (s.node.port p).state ≠ .recover →
        PortState.carries (s.node.port (otherPort p)).state = true →
        (t.node.port (otherPort p)).sent = some c) ∧
      (s.node.ring.attach = foldTo (otherPort p) →
        (t.node.port p).sent =
          some { c with marker := { c.marker with foldCount := bump 255 c.marker.foldCount } } ∧
        (PortState.carries (s.node.port (otherPort p)).state = true → (t.node.port (otherPort p)).sent =
          some { c with marker := { c.marker with foldCount := bump 255 c.marker.foldCount } }))

/-- R14, R15, R21: 3 cycle periods without a good marker make a wayside ORPHAN, with the restoring flag and the sync
flag clear and no loop present; when the wait-to-restore timer of a restoring folded node expires, it becomes THROUGH.
R17, R19, R25: at the head-end the wait-to-restore timer makes the origin EAST; 3 cycle periods without a full cycle
returning make the ring OPEN with the closing run 0, and start a survey; a survey not ended after 4000 cycle periods
is followed by a new one, and in OPEN it first ends as though no station had answered: every entry of
the map is UNREACHABLE, and after a closed survey without a position (R24, R25). -/
def Obligations.RingTimersExpire : Prop :=
  (∀ s : State, s.node.phase = .started → s.node.isHead = false →
     (s.node.ring.attach ≠ .orphan → 3 ≤ s.node.svc.now - s.node.ring.lastGood →
       ∃ t, exec .noGoodMarkerTimeout s = .next t ∧ t.node.ring.attach = .orphan ∧ t.node.ring.restoring = false ∧
         t.node.ring.timer = none ∧ t.node.svc.time.sync = false ∧ t.node.win.outer.present = false ∧
         t.node.win.inner.present = false ∧ t.node.toll = s.node.toll ∧ t.node.rules = s.node.rules) ∧
     (s.node.ring.restoring = true → due s.node.svc.now s.node.ring.timer = true →
       s.node.ring.attach = .foldEast ∨ s.node.ring.attach = .foldWest →
       ∃ t, exec .waitToRestoreExpiry s = .next t ∧ t.node.ring.attach = .through ∧ t.node.ring.restoring = false ∧
         t.node.ring.timer = none ∧ t.node.toll = s.node.toll ∧ t.node.call.phones = s.node.call.phones)) ∧
  (∀ s : State, s.node.phase = .started → s.node.isHead = true →
     (s.node.head.restoring = true → due s.node.svc.now s.node.head.timer = true →
       ∃ t, exec .headEndRestoreExpiry s = .next t ∧ t.node.head.origin = .east ∧ t.node.head.restoring = false ∧
         t.node.head.timer = none ∧ t.node.head.map = s.node.head.map ∧ t.node.call.table = s.node.call.table) ∧
     (3 ≤ s.node.svc.now - s.node.head.lastReturn → s.node.head.state ≠ .opened →
       ∃ t sv, exec .returnTimeout s = .next t ∧ t.node.head.state = .opened ∧ t.node.head.closing = 0 ∧
         t.node.head.survey = some sv ∧ sv.kind = .presence ∧ sv.start = s.node.svc.now ∧
         t.node.head.map = s.node.head.map ∧ t.node.call.table = s.node.call.table) ∧
     (∀ old, s.node.head.survey = some old → 4000 ≤ s.node.svc.now - old.start →
       ∃ t sv, exec .surveyTimeout s = .next t ∧ t.node.head.survey = some sv ∧ sv.start = s.node.svc.now ∧
         sv.entries = [] ∧ t.node.head.state = s.node.head.state ∧
         (s.node.head.state ≠ .opened → t.node.head.map = s.node.head.map) ∧
         (s.node.head.state = .opened → t.node.head.map = s.node.head.map.map fun e => { e with
           presence := .unreachable, position := if old.kind = .closed then none else e.position }) ∧
         t.node.call.table = s.node.call.table))

/-- R18, R19: a full cycle with a good marker that arrives at the head-end's WEST counts as a return: with fold count 0
it adds 1 to the closing run, and the 8th closes the ring; with a raised fold count the ring is WRAPPED at once and
the closing run is 0. -/
def Obligations.ReturnsMakeTheRingState : Prop :=
  ∀ (c : Cycle) (k : Content) (s : State), s.node.phase = .started → s.node.isHead = true →
    PortState.carries s.node.west.state = true → c.content = some k →
    ∃ t, exec (.cycleReturns .west c true 0) s = .next t ∧ t.node.head.lastReturn = s.node.svc.now ∧
      t.node.head.origin = s.node.head.origin ∧
      (c.marker.foldCount = 0 → t.node.head.closing = s.node.head.closing + 1 ∧
        t.node.head.state = if 8 ≤ s.node.head.closing + 1 then .closed else s.node.head.state) ∧
      (c.marker.foldCount ≠ 0 → t.node.head.closing = 0 ∧ t.node.head.state = .wrapped) ∧
      t.node.call.table = s.node.call.table

/-- R20: TIME-SET above 4294967295 is BAD-ARGUMENT; otherwise the seconds count takes the argument, the cycle within the
second is 0 and the sync flag is set, the error windows turning over if the seconds count changes (R4). R22: SURVEY-START
starts a survey with the next number, 255 followed by 1: closed if the ring is CLOSED, otherwise presence; its message
waits for a holding of the outer loop, and the reply is DONE. R23: a wayside answers a survey once, in the first empty
place of its slots in a cycle; where none is empty it marks an overflow in the last slot, or waits for more slots. R24:
the last slot of the survey in progress, stripped at the head-end, ends it: with room in the map, a number that appears
once is PRESENT with what it reported, one that appears again or is the head-end's own DUPLICATE, and one that does not
appear UNREACHABLE; SURVEY-DONE tells how many are PRESENT. R30: the slots for a node are taken out of the data window;
slot 1 begins a message of its source and schedule, the next one expected extends it, the last one completes it for the
taker of its kind, or adds to the incomplete count where the role takes no such kind, and any other slot discards the
partial message, which is counted. What a message is whose slots carry shares of different messages is log entry 9 (the
model's). That a message of a kind the role does not take is counted incomplete is log entry 5, and that one complete
waits for its own row log entry 10 (both the model's). -/
def Obligations.TimeSetAndSurveyStart : Prop :=
  (∀ (o : Origin) (x : Nat) (s : State), Takes s o (.timeSet x) →
     let n := s.node
     let turn (r : Port) : Port := if x = n.svc.time.seconds then r else { r with errLast := r.errNow, errNow := 0 }
     exec (.timeSet o x) s = .next
       (if x < 4294967296 then
         s.replied { n with svc := { n.svc with time := { seconds := x, cycle := 0, sync := true } },
                            east := turn n.east, west := turn n.west } o (.timeSet x) .done .nil
       else s.replied n o (.timeSet x) .badArgument .nil)) ∧
  (∀ (o : Origin) (s : State), Takes s o .surveyStart →
     let n := s.node
     let k := if n.head.lastSurvey < 255 then n.head.lastSurvey + 1 else 1
     let sv : Survey := { number := k, kind := if n.head.state = .closed then .closed else .presence,
                          start := n.svc.now, entries := [], overflow := false }
     exec (.surveyStart o) s = .next (s.replied
       { n with head := { n.head with lastSurvey := k, survey := some sv }, win := { n.win with survey := some k } }
       o .surveyStart .done .nil)) ∧
  (∀ (n : Node) (fold k : Nat) (data : List (Option Slot)),
     let run := Node.answerSurvey fold (n, data) k
     let told : Node := { n with ring := { n.ring with lastSurvey := some k } }
     let mine : SurveyEntry := { station := n.me, attach := n.ring.attach, foldSeen := fold }
     let noRoom (l : List (Option Slot)) : Prop := ∀ s, some s ∈ l → ∀ room es marked,
       s.body = .survey k room es marked → room ≤ es.length
     (n.ring.lastSurvey = some k → run = (n, data)) ∧
     (n.ring.lastSurvey ≠ some k →
       (∀ (before after : List (Option Slot)) (s : Slot) (room : Nat) (es : List SurveyEntry) (marked : Bool),
         data = before ++ some s :: after → noRoom before → s.body = .survey k room es marked → es.length < room →
         run = (told, before ++ some { s with body := .survey k room (es ++ [mine]) marked } :: after)) ∧
       (noRoom data → data.any (isLastOf k) = true → run = (told, data.map (markOverflow k))) ∧
       (noRoom data → data.any (isLastOf k) = false → run = (n, data)))) ∧
  (∀ (n : Node) (s : Slot) (sv : Survey) (room : Nat) (es : List SurveyEntry) (mark : Bool),
     n.head.survey = some sv → s.body = .survey sv.number room es mark →
     let more : Survey := { sv with entries := sv.entries ++ es, overflow := sv.overflow || mark }
     (s.length ≤ s.seq → n.gatherSurvey s = n.endSurvey more) ∧
     (s.seq < s.length → n.gatherSurvey s = { n with head := { n.head with survey := some more } })) ∧
  (∀ (n : Node) (sv : Survey),
     let t := n.endSurvey sv
     let found (l : List MapEntry) : Nat := (l.filter fun e => e.presence = .present).length
     t.head.survey = none ∧
     (∃ m : Node, t = m.post .surveyDone .none
       [.nat sv.number, .surveyKind sv.kind, .nat (found t.head.map)]) ∧
     (n.head.map.length + sv.entries.length ≤ 48 →
       (∀ before e after, sv.entries = before ++ e :: after → (∀ x ∈ before ++ after, x.station ≠ e.station) →
         e.station ≠ n.me → t.head.entry e.station = some
           { station := e.station, presence := .present, attach := e.attach, heard := n.svc.time
             position := if sv.kind = .closed then some (before.length + 1)
               else (n.head.entry e.station).bind MapEntry.position
             via := if e.attach = .foldEast ∨ e.attach = .foldWest then .fold
               else if e.foldSeen = 0 then .outer else .inner }) ∧
       (∀ e ∈ sv.entries, (1 < (sv.entries.filter fun x => x.station = e.station).length ∨ e.station = n.me) →
         ∃ d, t.head.entry e.station = some d ∧ d.presence = .duplicate ∧
           ((n.head.entry e.station).map MapEntry.presence ≠ some .duplicate → d.position = none)) ∧
       (∀ k m, n.head.entry k = some m → (∀ x ∈ sv.entries, x.station ≠ k) → t.head.entry k = some
         { m with presence := .unreachable, position := if sv.kind = .closed then none else m.position }))) ∧
  (∀ (n : Node) (l : Loop) (data : List (Option Slot)),
     (n.takeData l data).2 = data.map fun x => x.filter fun (s : Slot) => s.dest ≠ n.me) ∧
  (∀ (w : Win) (r : Role) (l : Loop) (s : Slot) (share : Payload),
     let mine (q : Partial) : Bool := q.source = s.source && q.loop = l
     let kept := w.partials.filter fun q => !mine q
     let dropped : Win := { w with
       partials := kept, incomplete := bumpBy 65535 (w.partials.filter mine).length w.incomplete }
     let going (v : Win) (shares : List Payload) : Win := { v with partials := kept ++
       [{ source := s.source, loop := l, dest := s.dest, length := s.length, next := s.seq + 1, shares := shares }] }
     let run := w.takeSlot r l s share
     (s.seq = 1 → 1 < s.length → run = going dropped [share]) ∧
     (s.seq = 1 → s.length = 1 → run =
       if takesKind r share then { dropped with arrived := w.arrived ++
         [{ source := s.source, dest := s.dest, length := 1, payload := share }] }
       else { dropped with incomplete := bumpBy 65535 1 dropped.incomplete }) ∧
     (∀ q, s.seq ≠ 1 → w.partials.find? mine = some q → q.next = s.seq → s.seq < s.length →
       run = going w (q.shares ++ [share])) ∧
     (∀ q, s.seq ≠ 1 → w.partials.find? mine = some q → q.next = s.seq → s.length ≤ s.seq →
       ∃ p : Payload, ((∀ x ∈ q.shares, x = share) → p = share) ∧ run =
         if takesKind r p then { w with partials := kept, arrived := w.arrived ++
           [{ source := s.source, dest := s.dest, length := s.length, payload := p }] }
         else { w with partials := kept, incomplete := bumpBy 65535 1 w.incomplete }) ∧
     (s.seq ≠ 1 → (w.partials.find? mine).map Partial.next ≠ some s.seq → run = dropped))

/-! ## The data window and forwarding (02) -/

/-- R37, R43: when a loop's token-loss count reaches the limit, the head-end advances the lap count, treats the next
cycle as carrying an accepted FREE token, restarts the timer and posts TOKEN-REISSUED; when 3 cycle periods have
passed without a first passage, a loop ceases to be present at a wayside: its holding ends, its locks are cleared and
its partial messages are gone. -/
def Obligations.LoopTimers : Prop :=
  ∀ (l : Loop) (s : State), s.node.phase = .started →
    (∀ t, s.node.isHead = true → (s.node.win.loop l).timer = some t →
      s.node.set.tokenLossLimit ≤ s.node.svc.now - t →
      exec (.tokenLossExpiry l) s = .next (s.settled ((s.node.onLoop l fun w =>
        { w with lap := (w.lap + 1) % 256, carried := some .free, timer := some s.node.svc.now,
                 reissued := bump 65535 w.reissued }).post .tokenReissued .none
        [.loop l, .nat (((s.node.win.loop l).lap + 1) % 256)]))) ∧
    (s.node.isHead = false → (s.node.win.loop l).present = true →
      3 ≤ s.node.svc.now - (s.node.win.loop l).lastSeen →
      ∃ t, exec (.loopCeases l) s = .next t ∧ (t.node.win.loop l).present = false ∧
        (t.node.win.loop l).holding = none ∧ (t.node.win.loop l).lapLock = none ∧
        (t.node.win.loop l).cwLock = false ∧ (∀ q ∈ t.node.win.partials, q.loop ≠ l) ∧
        t.node.win.duplicate = s.node.win.duplicate ∧ t.node.call.phones = s.node.call.phones ∧
        t.node.toll = s.node.toll)

/-- R47, R186: a FORWARD. While channel L has a command in progress it is BUSY, with an unknown code UNKNOWN-COMMAND, and
at a wayside WRONG-ROLE. At the head-end, a full table is BUSY, a station without an entry or UNREACHABLE NOT-FOUND, a
DUPLICATE one DUPLICATE; otherwise an entry is made with the next number counted on from the last one given, 1–255
cyclically, past the numbers in use, the station, the tag and the present cycle number, and a COMMAND-FWD with the
enclosed command is offered. That the reply which refuses a FORWARD carries station field 0 is log entry 47 (the
model's). -/
def Obligations.ForwardIsTaken : Prop :=
  ∀ (tag st : Nat) (p : Parsed) (s : State), s.node.phase = .started →
    let n := s.node
    let after (k : Nat) : Nat := if k < 255 then k + 1 else 1
    let refused (r : Status) : Host.Outcome State Fault Refusal := .next (s.settled (n.replyTo (.link tag) p r .nil))
    (n.cmd.chanL ≠ none → exec (.forward tag st p) s = refused .busy) ∧
    (n.cmd.chanL = none → p = .unknown → exec (.forward tag st p) s = refused .unknownCommand) ∧
    (n.cmd.chanL = none → p ≠ .unknown →
      (n.isHead = false → exec (.forward tag st p) s = refused .wrongRole) ∧
      (n.isHead = true → 4 ≤ n.cmd.forwards.length → exec (.forward tag st p) s = refused .busy) ∧
      (n.isHead = true → n.cmd.forwards.length < 4 →
        (n.head.entry st = none ∨ (n.head.entry st).map MapEntry.presence = some .unreachable →
          exec (.forward tag st p) s = refused .notFound) ∧
        ((n.head.entry st).map MapEntry.presence = some .duplicate →
          exec (.forward tag st p) s = refused .duplicate) ∧
        ((n.head.entry st).map MapEntry.presence = some .present →
          ∃ k len, 1 ≤ k ∧ k ≤ 255 ∧ (∀ e ∈ n.cmd.forwards, e.number ≠ k) ∧ 1 ≤ len ∧ len ≤ 8 ∧
            (∃ i ≤ 4, k = Nat.repeat after (i + 1) n.cmd.lastForward ∧
              ∀ j, j < i → ∃ e ∈ n.cmd.forwards, e.number = Nat.repeat after (j + 1) n.cmd.lastForward) ∧
            exec (.forward tag st p) s = .next (s.settled (Node.offerCmd
              { n with cmd := { n.cmd with
                  lastForward := k
                  forwards := n.cmd.forwards ++ [{ number := k, station := st, tag := tag, startCycle := n.head.number,
                                                   start := n.svc.now, cmd := p }] } }
              { source := n.me, dest := st, length := len, payload := .commandFwd k p })))))

/-- R48, R186: a COMMAND-FWD at a wayside acts as the enclosed command does when it comes on channel C with the same
forward number; an unknown code is answered UNKNOWN-COMMAND unless the channel is busy. The message waits no more
(DESIGN CHOICE, log entry 10). -/
def Obligations.CommandFwdActsOnChannelC : Prop :=
  ∀ (src fwd : Nat) (s : State), s.node.phase = .started → s.node.isHead = false →
    (∀ (i : Instr) (c : Command), rowCommand i = some (.centre fwd, c) →
      exec (.commandFwd src fwd (.command c)) s =
        exec i { s with node := s.node.handOver (isMessage (some src) (.commandFwd fwd (.command c))) }) ∧
    (s.node.cmd.chanC = none →
      let n := s.node.handOver (isMessage (some src) (.commandFwd fwd .unknown))
      exec (.commandFwd src fwd .unknown) s =
        .next (s.settled (n.replyTo (.centre fwd) .unknown .unknownCommand .nil)))

/-- R48, R49, R186: how an enclosed command and a forward end. A COMMAND-FWD that a wayside takes is answered BUSY while
channel C has a command in progress, and UNKNOWN-COMMAND or by the check of its body where it spells none; otherwise it
ends in the state in which the enclosed command, coming on C with the same forward number, ends (TIME-READ is spelt
out). A REPLY-FWD whose forward number and source have an entry ends the forward with the wayside's status and result; one
without is counted as undelivered. When the forward timeout has passed, a COMMAND-FWD of which no slot has been placed
leaves the normal queue, one that CMD still holds is dropped, the entry is freed and the reply is TIMEOUT; before, and
without an entry, nothing happens. A message taken waits no more (log entry 10). What spells a command is
log entry 7, and that an expiry before its end does nothing is log entry 1 (all three the model's choice). -/
def Obligations.ForwardsEnd : Prop :=
  (∀ (src fwd : Nat) (s : State), s.node.phase = .started → s.node.isHead = false →
    let n (p : Parsed) : Node := s.node.handOver (isMessage (some src) (.commandFwd fwd p))
    let answer (p : Parsed) (st : Status) : Host.Outcome State Fault Refusal :=
      .next (s.settled ((n p).replyTo (.centre fwd) p st .nil))
    (∀ p, s.node.cmd.chanC ≠ none → exec (.commandFwd src fwd p) s = answer p .busy) ∧
    (s.node.cmd.chanC = none →
      exec (.commandFwd src fwd .unknown) s = answer .unknown .unknownCommand ∧
      (∀ c, exec (.commandFwd src fwd (.garbled c)) s =
        answer (.garbled c) ((s.node.refusal (.centre fwd) c).getD .badArgument)) ∧
      exec (.commandFwd src fwd (.command .timeRead)) s = .next
        (s.replied (n (.command .timeRead)) (.centre fwd) .timeRead .done (.time s.node.svc.time))) ∧
    (∀ i c, rowCommand i = some (.centre fwd, c) →
      ∃ t, exec (.commandFwd src fwd (.command c)) s = .next t ∧
        exec i { s with node := n (.command c) } = .next t)) ∧
  (∀ (fwd src : Nat) (st : Status) (v : Value) (s : State), s.node.phase = .started → s.node.isHead = true →
    let n := s.node.handOver (isMessage (some src) (.replyFwd fwd st v))
    let without (c : Cmd) : Cmd := { c with forwards := c.forwards.filter fun f => f.number ≠ fwd }
    (∀ e, s.node.cmd.forwards.find? (fun e => e.number = fwd && e.station = src) = some e →
      exec (.replyFwd src fwd st v) s = .next (s.settled ((n.onCmd without).pushReply
        { tag := e.tag, station := src, cmd := e.cmd, status := st, result := v, restart := false }))) ∧
    (s.node.cmd.forwards.find? (fun e => e.number = fwd && e.station = src) = none →
      exec (.replyFwd src fwd st v) s = .next (s.settled
        { n with win := { n.win with undelivered := bump 65535 n.win.undelivered } }))) ∧
  (∀ (fwd : Nat) (s : State), s.node.phase = .started → s.node.isHead = true →
    let its (m : Message) : Bool := match m.payload with
      | .commandFwd k _ => k = fwd
      | _ => false
    let unplaced (x : NEntry) : Bool := match x with
      | .msg q => q.begun.isNone && its q.msg
      | .batch _ _ _ _ => false
    (∀ e, s.node.cmd.forwards.find? (fun e => e.number = fwd) = some e →
      s.node.set.forwardTimeout * 4 ≤ s.node.svc.now - e.start →
      ∃ v : Svc, v.queues.normal = s.node.svc.queues.normal.filter (fun x => !unplaced x) ∧
        v.queues.emergency = s.node.svc.queues.emergency ∧ v.pool.total = s.node.svc.pool.total ∧
        v.settings = s.node.svc.settings ∧ v.wx = s.node.svc.wx ∧ v.note = s.node.svc.note ∧
        exec (.forwardTimeout fwd) s = .next (s.settled (Node.pushReply
          { s.node with
            svc := v
            cmd := { s.node.cmd with forwards := s.node.cmd.forwards.filter fun f => f.number ≠ fwd
                                     refused := s.node.cmd.refused.filter fun m => !its m } }
          { tag := e.tag, station := e.station, cmd := e.cmd, status := .timeout, result := .nil,
            restart := false }))) ∧
    (∀ e, s.node.cmd.forwards.find? (fun e => e.number = fwd) = some e →
      s.node.svc.now - e.start < s.node.set.forwardTimeout * 4 →
      exec (.forwardTimeout fwd) s = .next (s.settled s.node)) ∧
    (s.node.cmd.forwards.find? (fun e => e.number = fwd) = none →
      exec (.forwardTimeout fwd) s = .next (s.settled s.node)))

/-! ## Emergency calls at a wayside (03 section 3.2) -/

/-- R51: a hook contact's level is timed against the debounced state; when the debounce time has passed, a difference
still timed changes the debounced state, and a RINGING record lifted offers CALL-ANSWERED and enters CONNECTED. R52, R53:
the debounced off-hook of an IDLE port and the debounced on-hook of a port in a call. A lifted phone enters REQUESTING
with the present node time as its time of request; its zone, if not 0, has the cause PHONE; away from ORPHAN the repeat
timer runs, in ORPHAN it stands still. An on-hook takes REQUESTING and HUNG to IDLE and QUEUED, ALERTING and CONNECTED to
CLEARING with the slot absent, the call number kept, the repeat count 0 and the repeat timer started. In CLEARING an
off-hook sets held off-hook and an on-hook clears it, and nothing else; a REQUESTING or HUNG record with held off-hook set
that is hung up goes on from IDLE into REQUESTING, where the mark is cleared. The other ports' records stay. That a record
which enters CONNECTED hears silence until a slot passes (`hears`) is log entry 57 (the model's choice). -/
def Obligations.HookActsOnTheRecord : Prop :=
  (∀ (p : Nat) (level : Bool) (r : Phone) (s : State), s.node.phase = .started → s.node.isHead = false →
     s.node.phone p = some r →
     exec (.hookContactChange p level) s = .next (s.settled ((s.node.setHook p level).onPhone p fun r =>
       if level = r.offHook then { r with timing := none }
       else if r.timing.isSome then r
       else { r with timing := some (s.node.svc.now + s.node.set.hookDebounce * 4) })) ∧
     (∀ c k, r.state = .ringing → r.offHook = false → r.call = some c → r.slot = some k →
       due s.node.svc.now r.timing = true →
       let n := s.node.onPhone p fun r => { r with offHook := true, timing := none }
       exec (.hookDebounceExpiry p) s = .next (s.settled
         (((n.offerCall (n.toHead (.callAnswered p c))).onPhone p fun r =>
           { r with state := .connected, timer := none, call := some c, slot := some k, hears := .silence }).post
           .phoneState (.voicePort p) [.phone .ringing, .phone .connected])))) ∧
  (∀ (p : Nat) (r : Phone) (s : State), s.node.phase = .started → s.node.isHead = false →
     s.node.phone p = some r → due s.node.svc.now r.timing = true →
     ∃ t r', exec (.hookDebounceExpiry p) s = .next t ∧ t.node.phone p = some r' ∧ r'.timing = none ∧
       r'.offHook = !r.offHook ∧ (∀ q, q ≠ p → t.node.phone q = s.node.phone q) ∧
       t.node.toll = s.node.toll ∧ t.node.rules = s.node.rules ∧
       (r.offHook = false → r.state = .idle → r'.state = .requesting ∧ r'.requested = some s.node.svc.time ∧
         r'.call = none ∧ r'.slot = none ∧ r'.heldOff = false ∧
         r'.timer = (if s.node.ring.attach = .orphan then none else some (s.node.svc.now + 4000)) ∧
         (∀ z zr, s.node.portZone p = z → nth s.node.zone.zones z = some zr →
           ∃ zr', nth t.node.zone.zones z = some zr' ∧ .phone ∈ zr'.causes)) ∧
       (r.state = .clearing → r' = { r with offHook := !r.offHook, timing := none, heldOff := !r.offHook }) ∧
       (r.offHook = true → r.state = .requesting ∨ r.state = .hung → r.heldOff = true →
         r'.state = .requesting ∧ r'.requested = some s.node.svc.time ∧ r'.call = none ∧ r'.slot = none ∧
         r'.heldOff = false ∧ r'.labelRun = 0 ∧
         r'.timer = (if s.node.ring.attach = .orphan then none else some (s.node.svc.now + 4000))) ∧
       (r.offHook = true → r.state = .requesting ∨ r.state = .hung → r.heldOff = false →
         r'.state = .idle ∧ r'.call = none ∧ r'.slot = none ∧ r'.timer = none ∧ r'.labelRun = 0) ∧
       (r.offHook = true → r.state = .queued ∨ r.state = .alerting ∨ r.state = .connected →
         r'.state = .clearing ∧ r'.call = r.call ∧ r'.slot = none ∧ r'.count = 0 ∧
         r'.timer = some (s.node.svc.now + 4000)))

/-- R54: the repeat timer. In REQUESTING and QUEUED a fresh CALL-REQUEST with the same time of request replaces the one
still unsent, and the timer restarts; in CLEARING the count goes up to 3, with CALL-CLEAR offered again, and after the
third the record enters IDLE. That every CALL-REQUEST of the port, or CALL-CLEAR of the port and call, that waits with no
slot placed is the one replaced is log entry 70 (the model's choice). R52, R53: a record that enters IDLE loses its call
number and slot, its timer stops and its label run is 0; with held off-hook set or the debounced state OFF-HOOK it goes on
at once into REQUESTING with the mark cleared and the present time as its time of request: its zone, if not 0, takes the
cause PHONE, and a CALL-REQUEST is offered and the repeat timer started, or in ORPHAN CALL-STRANDED posted. A record that
changes its state hears silence until a slot passes (`hears`: log entry 57, the model's choice). -/
def Obligations.RepeatTimerExpires : Prop :=
  (∀ (n : Node) (p : Nat) (r : Phone), n.phone p = some r →
    let still := n.onPhone p fun r => { r with
      state := .idle, call := none, slot := none, timer := none, labelRun := 0, hears := .silence }
    let idle := if r.state = .idle then still
      else still.post .phoneState (.voicePort p) [.phone r.state, .phone .idle]
    let asking := (idle.onPhone p fun r => { r with
      state := .requesting, requested := some n.svc.time, call := none, slot := none, heldOff := false
      hears := .silence }).post .phoneState (.voicePort p)
        [.phone .idle, .phone .requesting]
    let zoned := if n.portZone p = 0 then asking else asking.onZone (addCause (n.portZone p) .phone)
    let run := n.enterIdle p
    (r.heldOff = false → r.offHook = false → run = idle) ∧
    (r.heldOff = true ∨ r.offHook = true → n.ring.attach = .orphan →
      run = (zoned.onPhone p fun r => { r with timer := none }).post .callStranded (.voicePort p) []) ∧
    (r.heldOff = true ∨ r.offHook = true → n.ring.attach ≠ .orphan →
      run = (zoned.offerCall (n.toHead (.callRequest p n.svc.time))).onPhone p fun r => { r with
        timer := some (n.svc.now + 4000) })) ∧
  (∀ (p : Nat) (r : Phone) (s : State), s.node.phase = .started → s.node.isHead = false →
    s.node.phone p = some r → due s.node.svc.now r.timer = true →
    let n := s.node
    (∀ t, r.requested = some t → r.state = .requesting ∨ r.state = .queued →
      exec (.repeatTimerExpiry p) s = .next (s.settled
        (((n.withdrawCall (isRequestOf p)).offerCall (n.toHead (.callRequest p t))).onPhone p
          fun r => { r with timer := some (n.svc.now + 4000) }))) ∧
    (r.state = .clearing → r.count < 3 →
      exec (.repeatTimerExpiry p) s = .next (s.settled
        ((((n.onPhone p fun r => { r with count := r.count + 1 }).withdrawCall (isClearOf p r.call)).offerCall
          (n.toHead (.callClear p r.call))).onPhone p fun r => { r with timer := some (n.svc.now + 4000) }))) ∧
    (r.state = .clearing → 3 ≤ r.count → exec (.repeatTimerExpiry p) s = .next (s.settled (n.enterIdle p))) ∧
    (r.state = .clearing → r.count = 3 → r.heldOff = false → r.offHook = false →
      exec (.repeatTimerExpiry p) s = .next (s.settled
        ((n.onPhone p fun r => { r with state := .idle, call := none, slot := none, timer := none, labelRun := 0,
                                        hears := .silence }).post
          .phoneState (.voicePort p) [.phone .clearing, .phone .idle]))))

/-- R55, the table: what CALL-QUEUED, CALL-ASSIGN, CALL-BUSY, CALL-RING and CALL-ANSWERED do to a record, by its state. A
stray is answered with CALL-CLEAR for its number and leaves the record. R57: the call lamp, the ringer, the audio written
upstream and what the handset hears, by the state of the record. In ALERTING and CONNECTED it hears what its slot carried;
that it hears silence in ORPHAN, once more than one cycle period has passed without a first passage of an outer-schedule
cycle, and from entry until a slot passes (`hears`), is log entry 57 (the model's choice). A message taken waits no more
(log entry 10, the model's). -/
def Obligations.CallMessagesAtWayside : Prop :=
  (∀ (n : Node) (p : Nat) (r : Phone), n.phone p = some r →
    r.lamp = (match r.state with
      | .idle => .off
      | .requesting => .slowFlash
      | .queued => .slowFlash
      | .alerting => .steady
      | .connected => .steady
      | .ringing => .fastFlash
      | .clearing => .off
      | .hung => .fastFlash) ∧
    (r.ringer = true ↔ r.state = .ringing) ∧
    (r.writes = true ↔ r.state = .alerting ∨ r.state = .connected) ∧
    (r.state = .requesting ∨ r.state = .queued → n.handset p = .waitingTone) ∧
    (r.state = .hung → n.handset p = .clearedTone) ∧
    (r.state = .idle ∨ r.state = .ringing ∨ r.state = .clearing → n.handset p = .silence) ∧
    (r.state = .alerting ∨ r.state = .connected → n.handset p =
      if n.ring.attach ≠ .orphan ∧ n.svc.now ≤ n.win.outer.lastSeen + 1 then r.hears else .silence)) ∧
  (∀ (p call x : Nat) (r : Phone) (s : State), s.node.phase = .started → s.node.isHead = false →
    s.node.phone p = some r →
    let got (m : Payload) : Node := s.node.handOver (isMessage none m)
    let stray (m : Payload) : Node := (got m).offerCall (s.node.toHead (.callClear p (some call)))
    let moved (n : Node) (f : Phone → Phone) (new : PhoneState) : Node :=
      (n.onPhone p f).post .phoneState (.voicePort p) [.phone r.state, .phone new]
    let queued := Payload.callQueued p call x
    let assign := Payload.callAssign p call x
    let ring := Payload.callRing p call x
    let answered := Payload.callAnswered p call
    let own := decide (r.call = some call)
    exec (.callQueued p call x) s = .next (s.settled
      (match r.state with
        | .requesting =>
          moved (got queued) (fun r => { r with state := .queued, call := some call, hears := .silence }) .queued
        | .queued => (got queued).onPhone p fun r => { r with call := some call }
        | .idle => stray queued
        | .hung => stray queued
        | _ => if own then got queued else stray queued)) ∧
    exec (.callAssign p call x) s = .next (s.settled
      (match r.state with
        | .idle => stray assign
        | .hung => stray assign
        | .requesting => moved (got assign) (fun r =>
            { r with state := .alerting, call := some call, slot := some x, timer := none, hears := .silence })
            .alerting
        | .queued => moved (got assign) (fun r =>
            { r with state := .alerting, call := some call, slot := some x, timer := none, hears := .silence })
            .alerting
        | _ => if own then got assign else stray assign)) ∧
    exec (.callBusy p) s = .next (s.settled (got (.callBusy p))) ∧
    exec (.callRingAtWayside p call x) s = .next (s.settled
      (match r.state with
        | .requesting => moved ((got ring).offerCall (s.node.toHead (.callAnswered p call))) (fun r =>
            { r with state := .connected, call := some call, slot := some x, timer := none, hears := .silence })
            .connected
        | .idle => moved (got ring) (fun r =>
            { r with state := .ringing, call := some call, slot := some x, hears := .silence }) .ringing
        | .queued => stray ring
        | .hung => stray ring
        | _ => if own then got ring else stray ring)) ∧
    exec (.callAnsweredAtWayside p call) s = .next (s.settled
      (match r.state with
        | .alerting =>
          if own then moved (got answered) (fun r => { r with state := .connected, timer := none }) .connected
          else stray answered
        | .connected => if own then got answered else stray answered
        | .ringing => if own then got answered else stray answered
        | .clearing => if own then got answered else stray answered
        | _ => stray answered)))

/-- R58: CALL-CLEAR offers CALL-CLEARED for its number in every state; a REQUESTING record, and a QUEUED, ALERTING or
CONNECTED one of that call whose debouncer times no on-hook, enters HUNG; a RINGING or CLEARING one of that call enters
IDLE, and so does a QUEUED, ALERTING or CONNECTED one whose debouncer times an on-hook; another call leaves the record.
CALL-CLEARED takes a CLEARING record of its call to IDLE and nothing else. A record that enters IDLE does so as
`enterIdle` says, and goes on to REQUESTING with the handset off the hook or held off-hook set (R52). R56: a label run of
8 in ALERTING, CONNECTED or RINGING acts as a CALL-CLEAR for the record's call would, with CALL-LOST posted. That an IDLE
or HUNG record of the call itself offers CALL-CLEARED and stays is log entry 53 (the model's: R58's table has a dash
there). R50, R56, R57: at the first passage of a full cycle such a record checks its slot's label: above the cap, or with
another label, the run advances by 1; with its own label the run is 0 and the connected mark takes ALERTING to CONNECTED.
The handset takes the downstream audio and the port writes its own upstream, unless the run has reached 8 or the record is
RINGING. That nothing is heard of a slot above the cap is log entry 57 (the model's). A message taken waits no more, and a
label run of 8 acts when LABEL_RUN_LIMIT comes (log entry 10, the model's). -/
def Obligations.CallsClearAtWayside : Prop :=
  (∀ (p call : Nat) (r : Phone) (s : State), s.node.phase = .started → s.node.isHead = false →
     s.node.phone p = some r →
     let got := s.node.handOver (isMessage none (.callClear p (some call)))
     let gotC := s.node.handOver (isMessage none (.callCleared p call))
     let cleared := got.offerCall (s.node.toHead (.callCleared p call))
     let hang (f : Phone → Phone) (new : PhoneState) (n : Node) : Node :=
       (n.onPhone p fun r => { f r with state := new, hears := .silence }).post .phoneState (.voicePort p)
         [.phone r.state, .phone new]
     let idle := hang (fun r => { r with call := none, slot := none, timer := none, labelRun := 0 }) .idle
     let hung := hang (fun r => { r with timer := none }) .hung
     (r.state = .requesting → exec (.callClearAtWayside p call) s = .next (s.settled (hung cleared))) ∧
     (r.state ≠ .requesting → r.call ≠ some call →
       exec (.callClearAtWayside p call) s = .next (s.settled cleared)) ∧
     (r.state = .queued ∨ r.state = .alerting ∨ r.state = .connected → r.call = some call →
       (r.offHook = false ∨ r.timing = none) →
       exec (.callClearAtWayside p call) s = .next (s.settled (hung cleared))) ∧
     (r.state = .queued ∨ r.state = .alerting ∨ r.state = .connected → r.call = some call →
       r.offHook = true → r.timing ≠ none →
       exec (.callClearAtWayside p call) s = .next (s.settled (cleared.enterIdle p))) ∧
     (r.state = .ringing ∨ r.state = .clearing → r.call = some call →
       exec (.callClearAtWayside p call) s = .next (s.settled (cleared.enterIdle p))) ∧
     (r.state = .clearing → r.call = some call →
       exec (.callClearedAtWayside p call) s = .next (s.settled (gotC.enterIdle p))) ∧
     (r.state = .ringing ∨ r.state = .clearing → r.call = some call → r.offHook = false → r.heldOff = false →
       exec (.callClearAtWayside p call) s = .next (s.settled (idle cleared))) ∧
     (r.state = .idle ∨ r.state = .hung → exec (.callClearAtWayside p call) s = .next (s.settled cleared)) ∧
     (r.state = .clearing → r.call = some call → r.offHook = false → r.heldOff = false →
       exec (.callClearedAtWayside p call) s = .next (s.settled (idle gotC))) ∧
     (r.state ≠ .clearing ∨ r.call ≠ some call →
       exec (.callClearedAtWayside p call) s = .next (s.settled gotC))) ∧
  (∀ (p call : Nat) (r : Phone) (s : State), s.node.phase = .started → s.node.isHead = false →
     s.node.phone p = some r → r.call = some call → r.labelRun = 8 → r.state = .alerting ∨ r.state = .connected →
     (r.offHook = false ∨ r.timing = none) →
     exec (.labelRunLimit p) s = .next (s.settled
       ((((s.node.offerCall (s.node.toHead (.callCleared p call))).onPhone p fun r =>
         { r with state := .hung, timer := none, hears := .silence }).post .phoneState (.voicePort p)
         [.phone r.state, .phone .hung]).post .callLost (.voicePort p) [.nat call]))) ∧
  (∀ (p call : Nat) (r : Phone) (s : State), s.node.phase = .started → s.node.isHead = false →
     s.node.phone p = some r → r.call = some call → r.labelRun = 8 → r.state = .ringing ∨
     ((r.state = .alerting ∨ r.state = .connected) ∧ r.offHook = true ∧ r.timing ≠ none) →
     exec (.labelRunLimit p) s = .next (s.settled
       (((s.node.offerCall (s.node.toHead (.callCleared p call))).enterIdle p).post .callLost (.voicePort p)
         [.nat call]))) ∧
  (∀ (p call : Nat) (r : Phone) (s : State), s.node.phase = .started → s.node.isHead = false →
     s.node.phone p = some r → r.call = some call → r.labelRun = 8 → r.state = .ringing → r.offHook = false →
     r.heldOff = false →
     exec (.labelRunLimit p) s = .next (s.settled
       ((((s.node.offerCall (s.node.toHead (.callCleared p call))).onPhone p fun r =>
         { r with state := .idle, call := none, slot := none, timer := none, labelRun := 0, hears := .silence }).post
         .phoneState (.voicePort p) [.phone .ringing, .phone .idle]).post .callLost (.voicePort p) [.nat call]))) ∧
  (∀ (n : Node) (p k cap : Nat) (r : Phone) (v : List VoiceSlot), n.phone p = some r → r.slot = some k →
     r.labelRun ≠ 8 → r.state = .alerting ∨ r.state = .connected ∨ r.state = .ringing →
     let run := Node.labelCheck cap (n, v) p
     let written (u : VoiceSlot) : List VoiceSlot := put v k { u with up := .phone n.me p }
     (cap < k ∨ nth v k = none →
       run = (n.onPhone p fun r => { r with labelRun := r.labelRun + 1, hears := .silence }, v)) ∧
     (∀ u, k ≤ cap → nth v k = some u →
       (r.call = some u.label → r.state = .alerting → u.connected = true → run =
         ((n.onPhone p fun r => { r with state := .connected, labelRun := 0, timer := none, hears := u.down }).post
           .phoneState (.voicePort p) [.phone .alerting, .phone .connected], written u)) ∧
       (r.call = some u.label → (r.state = .connected ∨ (r.state = .alerting ∧ u.connected = false)) → run =
         (n.onPhone p fun r => { r with labelRun := 0, hears := u.down }, written u)) ∧
       (r.call = some u.label → r.state = .ringing → run = (n.onPhone p fun r => { r with labelRun := 0 }, v)) ∧
       (r.call ≠ some u.label → r.state ≠ .ringing → run =
         (n.onPhone p fun r => { r with labelRun := r.labelRun + 1, hears := u.down },
           if r.labelRun + 1 < 8 then written u else v)) ∧
       (r.call ≠ some u.label → r.state = .ringing → run =
         (n.onPhone p fun r => { r with labelRun := r.labelRun + 1 }, v))))

/-! ## Emergency calls at the head-end (03 section 3.3) -/

/-- R64: a CALL-REQUEST from a pair without an entry. With a slot within the cap FREE, the lowest is held by a new
ALERTING entry, which offers CALL-ASSIGN and posts CALL-ARRIVED; with none and fewer than 16 waiting, a new QUEUED entry
joins the queue, offers CALL-QUEUED with its place and posts CALL-WAITING; with 16 waiting, CALL-BUSY is offered, no entry
is made, and QUEUE-FULL is posted if the mark was clear. A pair that has an entry is answered by its state and no entry is
added. That the voice port is the subject of CALL-ARRIVED, CALL-WAITING and QUEUE-FULL and the other fields are details is
log entry 8 (the model's choice), and that the message waits no more log entry 10 (the model's). -/
def Obligations.CallRequestIsTaken : Prop :=
  ∀ (st p : Nat) (time : NodeTime) (s : State), s.node.phase = .started → s.node.isHead = true →
    let n := s.node.handOver (isMessage (some st) (.callRequest p time))
    let offer (m : Payload) (n : Node) : Node := n.offerCall { source := n.me, dest := st, length := 1, payload := m }
    let new (k : Nat) (state : CallState) (slot : Option Nat) : CallEntry :=
      { number := k, station := st, port := p, state := state, slot := slot, console := none,
        arrival := s.node.svc.time, ring := none, drain := none, cause := none }
    let add (e : CallEntry) (n : Node) : Node :=
      n.onCall fun c => { c with table := c.table ++ [e], last := e.number }
    let c := n.call.nextCall
    let run := exec (.callRequest st p time) s
    (n.call.pair st p = none →
      (∀ k, n.call.freeSlot n.set.voiceCap = some k → run = .next (s.settled
        ((offer (.callAssign p c k) (add (new c .alerting (some k)) n)).post .callArrived (.voicePort p)
          [.nat c, .nat st, .nat k]))) ∧
      (n.call.freeSlot n.set.voiceCap = none → n.call.waiting.length < 16 →
        let q := (add (new c .queued none) n).onCall fun t => { t with waiting := t.waiting ++ [c] }
        run = .next (s.settled ((offer (.callQueued p c (n.call.waiting.length + 1)) q).post .callWaiting
          (.voicePort p) [.nat c, .nat st, .nat (n.call.waiting.length + 1)]))) ∧
      (n.call.freeSlot n.set.voiceCap = none → 16 ≤ n.call.waiting.length →
        run = .next (s.settled
          (if n.call.full then offer (.callBusy p) n
          else ((offer (.callBusy p) n).post .queueFull (.voicePort p) [.nat st]).onCall
            fun t => { t with full := true })))) ∧
    (∀ e, n.call.pair st p = some e → e.station = st → e.port = p →
      (e.state = .clearing → run = .next (s.settled n)) ∧
      (e.state = .queued → run = .next (s.settled
        (offer (.callQueued p e.number (n.call.waiting.idxOf e.number + 1)) n))) ∧
      (∀ k, e.slot = some k →
        (e.state = .alerting ∨ e.state = .connected →
          run = .next (s.settled (offer (.callAssign p e.number k) n))) ∧
        (e.state = .ringing → run = .next (s.settled (offer (.callRing p e.number k) n)))))

/-- R65, R66: CALL-ANSWER makes an ALERTING entry CONNECTED with an IDLE console, offers CALL-ANSWERED and posts
CALL-CONNECTED. CALL-END offers CALL-CLEAR: a QUEUED entry leaves the wait queue and the table, with CALL-ENDED posted
with cause CONSOLE (whether it is marked confirmed is a free value, log entry 42); an ALERTING, CONNECTED or RINGING entry
becomes CLEARING with the drain timer running, its ring timer stopped and its console free. Each is refused out of its
ranges with BAD-ARGUMENT, without an entry with NOT-FOUND, and in the wrong state with WRONG-STATE. R63, R70: the drain
timer of a CLEARING entry removes it, and the slots FREE within the cap go, lowest first, to successive heads of the wait
queue, each becoming ALERTING with CALL-ASSIGN offered and CALL-ARRIVED posted. What is subject and what is detail of
CALL-CONNECTED, CALL-ENDED and CALL-ARRIVED is log entry 8 (the model's choice). -/
def Obligations.CallAnswerAndEnd : Prop :=
  let silenced (e : CallEntry) (l : List Audio) : List Audio :=
    match e.console with
    | some p => put l p .silence
    | none => l
  (∀ (o : Origin) (call console : Nat) (s : State),
    let n := s.node
    let bad := decide (call < 1 ∨ 255 < call)
    let badConsole := decide (console < 1 ∨ 8 < console)
    (Takes s o (.callAnswer call console) →
      let run := exec (.callAnswer o call console) s
      let refused (st : Status) : Host.Outcome State Fault Refusal :=
        .next (s.replied n o (.callAnswer call console) st .nil)
      ((bad || badConsole) = true → run = refused .badArgument) ∧
      ((bad || badConsole) = false → n.call.entry call = none → run = refused .notFound) ∧
      (∀ e, (bad || badConsole) = false → n.call.entry call = some e →
        (e.state ≠ .alerting ∨ (n.call.consoleCall console).isSome = true → run = refused .wrongState) ∧
        (e.state = .alerting → n.call.consoleCall console = none → run = .next (s.replied
          (((n.onCall fun c => c.changeEntry call fun e => { e with state := .connected, console := some console
              }).offerCall { source := n.me, dest := e.station, length := 1, payload := .callAnswered e.port call
              }).post .callConnected .none [.nat call, .nat console]) o (.callAnswer call console) .done .nil)))) ∧
    (Takes s o (.callEnd call) →
      let run := exec (.callEnd o call) s
      let refused (st : Status) : Host.Outcome State Fault Refusal := .next (s.replied n o (.callEnd call) st .nil)
      (bad = true → run = refused .badArgument) ∧
      (bad = false → n.call.entry call = none → run = refused .notFound) ∧
      (∀ e, bad = false → n.call.entry call = some e →
        (e.state = .clearing → run = refused .wrongState) ∧
        (e.state = .queued → run = .next (s.replied
          (((n.offerCall { source := n.me, dest := e.station, length := 1, payload := .callClear e.port (some call)
              }).onCall fun c => { c with
                table := c.table.filter fun x => x.number ≠ e.number
                waiting := c.waiting.filter fun k => k ≠ e.number
                consoles := silenced e c.consoles
                full := c.full && decide (16 ≤ (c.waiting.filter fun k => k ≠ e.number).length) }).post
            .callEnded (.voicePort e.port)
            [.nat e.number, .nat e.station, .endCause .console, .flag Config.queuedEndConfirmed])
          o (.callEnd call) .done .nil)) ∧
        (e.state = .alerting ∨ e.state = .connected ∨ e.state = .ringing → run = .next (s.replied
          ((n.offerCall { source := n.me, dest := e.station, length := 1, payload := .callClear e.port (some call)
              }).onCall fun c => { c with
                table := c.table.map fun x =>
                  if x.number = call then { x with state := .clearing, ring := none, console := none,
                                                   drain := some (n.svc.now + 8000), cause := some .console }
                  else x
                consoles := silenced e c.consoles })
          o (.callEnd call) .done .nil))))) ∧
  (∀ (call : Nat) (e : CallEntry) (s : State), s.node.phase = .started → s.node.isHead = true →
    s.node.call.entry call = some e → e.state = .clearing → due s.node.svc.now e.drain = true →
    exec (.drainTimerExpiry call) s = .next (s.settled (Node.promote 24 ((s.node.onCall fun c => { c with
        table := c.table.filter fun x => x.number ≠ e.number
        waiting := c.waiting.filter fun k => k ≠ e.number
        consoles := silenced e c.consoles
        full := c.full && decide (16 ≤ (c.waiting.filter fun k => k ≠ e.number).length) }).post
      .callEnded (.voicePort e.port)
      [.nat e.number, .nat e.station, .endCause (e.cause.getD .console), .flag false])))) ∧
  (∀ (fuel : Nat) (n : Node),
    (n.call.freeSlot n.set.voiceCap = none ∨ n.call.waiting = [] → n.promote (fuel + 1) = n) ∧
    (∀ k w rest e, n.call.freeSlot n.set.voiceCap = some k → n.call.waiting = w :: rest → n.call.entry w = some e →
      n.promote (fuel + 1) = Node.promote fuel
        ((((n.onCall fun c => { c with
            table := c.table.map fun x => if x.number = w then { x with state := .alerting, slot := some k } else x
            waiting := rest
            full := c.full && decide (16 ≤ rest.length) }).offerCall
          { source := n.me, dest := e.station, length := 1, payload := .callAssign e.port w k }).post
          .callArrived (.voicePort e.port) [.nat w, .nat e.station, .nat k]))))

/-- R67: CALL-RING, its checks in order, and the new RINGING entry with the lowest FREE slot, the console engaged and
the ring timer running; CALL-RING is offered and the reply carries the call number. R71: VOICE-CAP-SET outside 4 to 24
is BAD-ARGUMENT; with a slot above the new value held it is WRONG-STATE; otherwise the new cap is in force and the
reply is DONE, with no call waiting nothing else changes. -/
def Obligations.CallRingAndVoiceCap : Prop :=
  (∀ (o : Origin) (st p k : Nat) (s : State), Takes s o (.callRing st p k) →
     let n := s.node
     let run := exec (.callRing o st p k) s
     let refused (r : Status) : Host.Outcome State Fault Refusal := .next (s.replied n o (.callRing st p k) r .nil)
     let bad := decide (st < 1 ∨ 999 < st ∨ p < 1 ∨ 8 < p ∨ k < 1 ∨ 8 < k)
     let presence := (n.head.entry st).map MapEntry.presence
     (bad = true → run = refused .badArgument) ∧
     (bad = false → presence = none ∨ presence = some .unreachable → run = refused .notFound) ∧
     (bad = false → presence = some .duplicate → run = refused .duplicate) ∧
     (bad = false → presence = some .present →
       ((n.call.pair st p).isSome = true ∨ (n.call.consoleCall k).isSome = true → run = refused .wrongState) ∧
       (n.call.pair st p = none → n.call.consoleCall k = none →
         (n.call.freeSlot n.set.voiceCap = none → run = refused .noRoom) ∧
         (∀ slot, n.call.freeSlot n.set.voiceCap = some slot →
           let c := n.call.nextCall
           let e : CallEntry :=
             { number := c, station := st, port := p, state := .ringing, slot := some slot, console := some k,
               arrival := n.svc.time, ring := some (n.svc.now + 240000), drain := none, cause := none }
           run = .next (s.replied ((n.onCall fun t => { t with table := t.table ++ [e], last := c }).offerCall
             { source := n.me, dest := st, length := 1, payload := .callRing p c slot })
             o (.callRing st p k) .done (.nat c)))))) ∧
  (∀ (o : Origin) (cap : Nat) (s : State), Takes s o (.voiceCapSet cap) →
     let n := s.node
     let run := exec (.voiceCapSet o cap) s
     let held := (places 24).any fun k => decide (cap < k) && (n.call.holder k).isSome
     (cap < 4 ∨ 24 < cap → run = .next (s.replied n o (.voiceCapSet cap) .badArgument .nil)) ∧
     (4 ≤ cap → cap ≤ 24 → held = true → run = .next (s.replied n o (.voiceCapSet cap) .wrongState .nil)) ∧
     (4 ≤ cap → cap ≤ 24 → held = false → n.call.waiting = [] → run = .next (s.replied
       { n with svc := { n.svc with settings := { n.svc.settings with voiceCap := cap } } }
       o (.voiceCapSet cap) .done .nil)))

/-- R67, R68, R69, R70: how an entry at the head-end goes on and ends. The ring timer of a RINGING entry makes it
CLEARING with cause RING-TIMEOUT; CALL-ANSWERED of its call makes a RINGING entry CONNECTED; CALL-CLEAR of its call, or
without a number, removes the entry, and so do CALL-CLEARED and the drain timer for a CLEARING one. What matches nothing
leaves the table. R50, R62: the voice slots of an originated outer-schedule cycle: a FREE or DRAINING slot within the
cap carries label 0 and silence, one HELD by a call its number, with the connected mark and the audio of the entry's
console when CONNECTED, the reassurance tone when ALERTING and silence when RINGING. That the connected mark of a FREE
or DRAINING slot is clear is log entry 98 (the model's choice). A port holds the cycle directed out of it (log entry 52,
the model's). -/
def Obligations.HeadEndCallsGoOn : Prop :=
  (∀ (call : Nat) (e : CallEntry) (s : State), s.node.phase = .started → s.node.isHead = true →
     s.node.call.entry call = some e → s.node.call.pair e.station e.port = some e → s.node.call.waiting = [] →
     let n := s.node
     let without := n.call.table.filter fun x => x.number ≠ call
     (e.state = .ringing → due n.svc.now e.ring = true →
       ∃ t, exec (.ringTimerExpiry call) s = .next t ∧ t.node.call.table = n.call.table.map fun x =>
         if x.number = call then { x with state := .clearing, ring := none, console := none,
                                          drain := some (n.svc.now + 8000), cause := some .ringTimeout } else x) ∧
     (e.state = .ringing →
       ∃ t, exec (.callAnsweredAtHeadEnd e.station e.port call) s = .next t ∧
         t.node.call.table = n.call.table.map fun x =>
           if x.number = call then { x with state := .connected, ring := none } else x) ∧
     (e.state ≠ .ringing →
       ∃ t, exec (.callAnsweredAtHeadEnd e.station e.port call) s = .next t ∧ t.node.call.table = n.call.table) ∧
     (∃ t, exec (.callClearAtHeadEnd e.station e.port (some call)) s = .next t ∧ t.node.call.table = without ∧
       t.node.head = n.head) ∧
     (∃ t, exec (.callClearAtHeadEnd e.station e.port none) s = .next t ∧ t.node.call.table = without) ∧
     (∀ k, k ≠ call →
       ∃ t, exec (.callClearAtHeadEnd e.station e.port (some k)) s = .next t ∧ t.node.call.table = n.call.table) ∧
     (e.state = .clearing →
       (∃ t, exec (.callClearedAtHeadEnd e.station e.port call) s = .next t ∧ t.node.call.table = without) ∧
       (due n.svc.now e.drain = true →
         ∃ t, exec (.drainTimerExpiry call) s = .next t ∧ t.node.call.table = without)) ∧
     (e.state ≠ .clearing →
       ∃ t, exec (.callClearedAtHeadEnd e.station e.port call) s = .next t ∧ t.node.call.table = n.call.table)) ∧
  (∀ (c : Call) (cap k : Nat), 1 ≤ k → k ≤ cap →
     let slot := nth (c.writeSlots cap) k
     (c.writeSlots cap).length = cap ∧
     ((∀ e ∈ c.table, e.slot ≠ some k) →
       slot.map (fun v => (v.label, v.connected, v.down)) = some (0, false, .silence)) ∧
     (∀ before e after, c.table = before ++ e :: after → (∀ x ∈ before, x.slot ≠ some k) → e.slot = some k →
       slot.map (fun v => (v.label, v.connected)) = some (match e.state with
         | .alerting => (e.number, false)
         | .ringing => (e.number, false)
         | .connected => (e.number, true)
         | .queued => (0, false)
         | .clearing => (0, false)) ∧
       (e.state = .clearing ∨ e.state = .ringing → slot.map VoiceSlot.down = some .silence) ∧
       (e.state = .alerting → slot.map VoiceSlot.down = some .reassurance) ∧
       (∀ p, e.state = .connected → e.console = some p → slot.map VoiceSlot.down = some (.console p)))) ∧
  (∀ s : State, s.node.phase = .started → s.node.isHead = true → s.node.head.started = true →
     PortState.carries (s.node.port s.node.head.origin).state = true →
     ∃ t c k, exec .originateCycle s = .next t ∧ (t.node.port s.node.head.origin).sent = some c ∧
       c.content = some k ∧ k.voice = s.node.call.writeSlots s.node.set.voiceCap)

/-! ## Alert zones, signs, releases and beacons (04) -/

/-- R74, R76: ZONE-START outside 1 to 8 is BAD-ARGUMENT. Otherwise the zone holds COMMAND: an IDLE zone becomes ACTIVE
with the present node time as its time active, a zone that holds COMMAND already stays as it is, another ACTIVE zone keeps
its causes and its time; the other zones stay; the reply is DONE with the zone's state and causes. R74, R77: ZONE-CLEAR of
a zone outside 1 to 8, of no cause, of an unknown cause or of WEATHER is BAD-ARGUMENT. Otherwise each named cause leaves
the zone's set; a zone whose set is then empty is IDLE with no time active; the phone records stay. That the reply tells
the state as a flag, on for ACTIVE, is log entry 8 (the model's choice). -/
def Obligations.ZoneCommandsMoveCauses : Prop :=
  (∀ (o : Origin) (z : Nat) (s : State), Takes s o (.zoneStart z) →
     let n := s.node
     let run := exec (.zoneStart o z) s
     (z < 1 ∨ 8 < z → run = .next (s.replied n o (.zoneStart z) .badArgument .nil)) ∧
     (∀ r, 1 ≤ z → z ≤ 8 → nth n.zone.zones z = some r →
       ∃ m r', run = .next (s.replied m o (.zoneStart z) .done (.list [.flag true, .causes r'.causes])) ∧
         nth m.zone.zones z = some r' ∧ (∀ k, k ≠ z → nth m.zone.zones k = nth n.zone.zones k) ∧
         .command ∈ r'.causes ∧
         (r.causes = [] → r'.causes = [.command] ∧ r'.since = some n.svc.time) ∧
         (.command ∈ r.causes → m = n) ∧
         (r.causes ≠ [] → r'.since = r.since ∧ ∀ c ∈ r.causes, c ∈ r'.causes) ∧
         m.call = n.call ∧ m.toll = n.toll ∧ m.rules = n.rules)) ∧
  (∀ (o : Origin) (z : Nat) (l : List (Option Cause)) (s : State), Takes s o (.zoneClear z l) →
     let n := s.node
     let run := exec (.zoneClear o z l) s
     let bad := decide (z < 1 ∨ 8 < z ∨ l = [] ∨ none ∈ l ∨ some Cause.weather ∈ l)
     (bad = true → run = .next (s.replied n o (.zoneClear z l) .badArgument .nil)) ∧
     (∀ r, bad = false → nth n.zone.zones z = some r →
       ∃ m r', run = .next (s.replied m o (.zoneClear z l) .done
           (.list [.flag (!r'.causes.isEmpty), .causes r'.causes])) ∧
         nth m.zone.zones z = some r' ∧ (∀ k, k ≠ z → nth m.zone.zones k = nth n.zone.zones k) ∧
         r'.causes = r.causes.filter (fun c => !l.contains (some c)) ∧
         (r'.causes = [] → r.causes ≠ [] → r'.since = none) ∧ (r'.causes ≠ [] → r'.since = r.since) ∧
         m.call = n.call ∧ m.toll = n.toll ∧ m.rules = n.rules))

/-- 04 section 4.3.1, R86, R87, R88: the sign commands. A device outside 1 to 8 is BAD-ARGUMENT, one without a sign
record NOT-FOUND, a page or tag out of range BAD-ARGUMENT, no SIGN buffer NO-ROOM. SIGN-SHOW makes the page the normal
page and ends FAULT; SIGN-STAGE makes page and tag the staged page and leaves wanted page and state; SIGN-UNSTAGE
leaves no staged page. The other signs stay. That NOT-FOUND goes before a bad page is log entry 62, and before a bad tag
log entry 63 (both the model's choice). -/
def Obligations.SignCommands : Prop :=
  ∀ (o : Origin) (d : Nat) (p : Page) (tag : Nat) (s : State),
    let n := s.node
    let bad := decide (d < 1 ∨ 8 < d)
    let room := (n.svc.requestBuffers .sign 1).2
    let others (m : Node) : Prop := ∀ k, k ≠ d → m.zone.sign k = n.zone.sign k
    (Takes s o (.signShow d p) →
      let run := exec (.signShow o d p) s
      (bad = true → run = .next (s.replied n o (.signShow d p) .badArgument .nil)) ∧
      (bad = false → n.zone.sign d = none → run = .next (s.replied n o (.signShow d p) .notFound .nil)) ∧
      (∀ g, bad = false → n.zone.sign d = some g →
        (pageOk p = false → run = .next (s.replied n o (.signShow d p) .badArgument .nil)) ∧
        (pageOk p = true → room ≠ none → ∃ m, run = .next (s.replied m o (.signShow d p) .noRoom .nil) ∧
          m.zone = n.zone) ∧
        (pageOk p = true → room = none → ∃ m g' v, run = .next (s.replied m o (.signShow d p) .done v) ∧
          m.zone.sign d = some g' ∧ g'.normal = some p ∧ g'.staged = g.staged ∧ g'.fault = false ∧
          g'.state ≠ .fault ∧ others m ∧ m.zone.zones = n.zone.zones))) ∧
    (Takes s o (.signStage d p tag) →
      let run := exec (.signStage o d p tag) s
      (bad = true → run = .next (s.replied n o (.signStage d p tag) .badArgument .nil)) ∧
      (bad = false → n.zone.sign d = none → run = .next (s.replied n o (.signStage d p tag) .notFound .nil)) ∧
      (∀ g, bad = false → n.zone.sign d = some g →
        (pageOk p = false ∨ 255 < tag → run = .next (s.replied n o (.signStage d p tag) .badArgument .nil)) ∧
        (pageOk p = true → tag ≤ 255 → room ≠ none → ∃ m,
          run = .next (s.replied m o (.signStage d p tag) .noRoom .nil) ∧ m.zone = n.zone) ∧
        (pageOk p = true → tag ≤ 255 → room = none → ∃ m,
          run = .next (s.replied m o (.signStage d p tag) .done .nil) ∧
          m.zone.sign d = some { g with staged := some (p, tag) } ∧ others m ∧ m.zone.zones = n.zone.zones))) ∧
    (Takes s o (.signUnstage d) →
      let run := exec (.signUnstage o d) s
      (bad = true → run = .next (s.replied n o (.signUnstage d) .badArgument .nil)) ∧
      (bad = false → n.zone.sign d = none → run = .next (s.replied n o (.signUnstage d) .notFound .nil)) ∧
      (∀ g, bad = false → n.zone.sign d = some g → ∃ m,
        run = .next (s.replied m o (.signUnstage d) .done .nil) ∧
        m.zone.sign d = some { g with staged := none } ∧ others m ∧
        (g.staged = none → m.svc = n.svc) ∧
        (g.staged.isSome = true → m.svc = n.svc.freeBuffers .sign 1)))

/-- R90: RELEASE outside 1 to 255 is BAD-ARGUMENT; otherwise the tag waits and the command stays in progress, and the
next originated cycle makes no tag wait, with the reply DONE on its way. -/
def Obligations.ReleaseWaitsForItsMarker : Prop :=
  ∀ (tag k : Nat) (s : State),
    (Takes s (.link k) (.release tag) →
      (tag < 1 ∨ 255 < tag → exec (.release (.link k) tag) s =
        .next (s.replied s.node (.link k) (.release tag) .badArgument .nil)) ∧
      (1 ≤ tag → tag ≤ 255 → exec (.release (.link k) tag) s =
        .next (s.busyWith { s.node with head := { s.node.head with tag := some tag } } (.link k) (.release tag)))) ∧
    (s.node.phase = .started → s.node.isHead = true → s.node.head.started = true → s.node.head.tag = some tag →
      s.node.cmd.chanL = some { origin := .link k, cmd := .release tag } →
      ∃ t, exec .originateCycle s = .next t ∧ t.node.head.tag = none ∧ t.node.cmd.chanL = none ∧
        t.node.replying { tag := k, station := 0, cmd := .command (.release tag), status := .done, result := .nil,
                          restart := false })

/-- R92, R93: when the delay of the pending release has run out, the release unit becomes empty, the count of releases
performed goes up, and with APPLY-STAGED among the actions each staged page that carries the tag, or tag 0, becomes
its sign's normal page and is staged no more; the zones stay. -/
def Obligations.DueReleaseIsPerformed : Prop :=
  ∀ (q : Pending) (s : State), s.node.phase = .started → s.node.isHead = false → s.node.zone.pending = some q →
    q.due ≤ s.node.svc.now →
    ∃ t, exec .releaseDelayExpiry s = .next t ∧ t.node.zone.pending = none ∧
      t.node.zone.performed = bump 65535 s.node.zone.performed ∧ t.node.zone.forced = s.node.zone.forced ∧
      t.node.zone.zones = s.node.zone.zones ∧ t.node.call.phones = s.node.call.phones ∧
      t.node.toll = s.node.toll ∧
      (.applyStaged ∈ s.node.set.releaseActions → ∀ d g, 1 ≤ d → d ≤ 8 → s.node.zone.sign d = some g →
        ∃ g', t.node.zone.sign d = some g' ∧
          (∀ p, g.staged = some (p, q.tag) ∨ g.staged = some (p, 0) → g'.normal = some p ∧ g'.staged = none) ∧
          (∀ p k, g.staged = some (p, k) → k ≠ q.tag → k ≠ 0 → g'.normal = g.normal ∧ g'.staged = g.staged))

/-- R95, R96, R97: a beacon's phases and BEACON-SET. A continuous beacon changes phase for the time of the new phase; a
single period goes from ON to OFF, and at its end the beacon runs the pattern of its governing zone, the lowest ACTIVE
zone that binds it, or is OFF. BEACON-SET outside B1 to B4 or with a SINGLE time outside 1 to 255 is BAD-ARGUMENT; SINGLE
begins the ON phase with the pattern; CANCEL ends a single period and changes nothing besides. The reply's mode is 0, 1
with its zone, or 2 (log entry 8, the model's choice, as that RELEASE-DONE tells forced as a flag). Units of 10 ms are 40
cycle periods. R74, R75, R95: ZONE-START of an IDLE zone makes the beacons that it governs run its pattern. R80: a sign's
wanted page is its governing zone's, else its normal page; a change of it ends FAULT. R158: the first tripped rule of a
zone adds the cause WEATHER, the last one gone removes it. R91, R92, R94: a tag starts a pending release or is performed,
a pending one first; BEACON-PULSE begins single periods, ROSTER-SWEEP makes every entry due, TIME-MARK posts RELEASE-DONE.
That a change of the wanted page sets the load attempts to 0 is log entry 25, and that a phase expiry which is not due
does nothing is log entry 1 (both the model's). -/
def Obligations.BeaconsRun : Prop :=
  let set (n : Node) (b : Nat) (f : Beacon → Beacon) : Node :=
    { n with zone := { n.zone with beacons := change f n.zone.beacons b } }
  let running (n : Node) (z x y : Nat) : Beacon :=
    { mode := .continuous z, onTime := x, offTime := y, lit := true, phaseEnd := some (n.svc.now + x * 40) }
  let single (n : Node) (x y : Nat) : Beacon :=
    { mode := .single, onTime := x, offTime := y, lit := true, phaseEnd := some (n.svc.now + x * 40) }
  (∀ (b : Nat) (s : State), s.node.phase = .started → s.node.isHead = false →
    let n := s.node
    let run := exec (.beaconPhaseExpiry b) s
    let becomes (f : Beacon → Beacon) : Prop := run = .next (s.settled (set n b f))
    (nth n.zone.beacons b = none → run = .next (s.settled n)) ∧
    (∀ r, nth n.zone.beacons b = some r →
      (due n.svc.now r.phaseEnd = false ∨ r.mode = .off → run = .next (s.settled n)) ∧
      (∀ z, due n.svc.now r.phaseEnd = true → r.mode = .continuous z → becomes fun r =>
        { r with lit := !r.lit, phaseEnd := some (n.svc.now + (if r.lit then r.offTime else r.onTime) * 40) }) ∧
      (due n.svc.now r.phaseEnd = true → r.mode = .single → r.lit = true → becomes fun r =>
        { r with lit := false, phaseEnd := some (n.svc.now + r.offTime * 40) }) ∧
      (due n.svc.now r.phaseEnd = true → r.mode = .single → r.lit = false →
        (beaconZone n.set n.zone b = none → becomes fun _ => .reset) ∧
        (∀ z x y, beaconZone n.set n.zone b = some z → n.set.boundPattern z b = some (x, y) →
          becomes fun _ => running n z x y)))) ∧
  (∀ (o : Origin) (b x y : Nat) (s : State), Takes s o (.beaconSetSingle b x y) →
    let n := s.node
    let run := exec (.beaconSetSingle o b x y) s
    let bad := decide (b < 1 ∨ 4 < b ∨ x < 1 ∨ 255 < x ∨ y < 1 ∨ 255 < y)
    (bad = true → run = .next (s.replied n o (.beaconSetSingle b x y) .badArgument .nil)) ∧
    (∀ r, bad = false → nth n.zone.beacons b = some r → run = .next (s.replied
      (set n b fun _ => single n x y) o (.beaconSetSingle b x y) .done (.list [.nat 2])))) ∧
  (∀ (o : Origin) (b : Nat) (s : State), Takes s o (.beaconSetCancel b) →
    let n := s.node
    let run := exec (.beaconSetCancel o b) s
    let becomes (r : Beacon) (v : Value) : Prop :=
      run = .next (s.replied (set n b fun _ => r) o (.beaconSetCancel b) .done v)
    (b < 1 ∨ 4 < b → run = .next (s.replied n o (.beaconSetCancel b) .badArgument .nil)) ∧
    (∀ r, 1 ≤ b → b ≤ 4 → nth n.zone.beacons b = some r →
      (r.mode = .off → run = .next (s.replied n o (.beaconSetCancel b) .done (.list [.nat 0]))) ∧
      (∀ z, r.mode = .continuous z →
        run = .next (s.replied n o (.beaconSetCancel b) .done (.list [.nat 1, .nat z]))) ∧
      (r.mode = .single →
        (beaconZone n.set n.zone b = none → becomes .reset (.list [.nat 0])) ∧
        (∀ z x y, beaconZone n.set n.zone b = some z → n.set.boundPattern z b = some (x, y) →
          becomes (running n z x y) (.list [.nat 1, .nat z]))))) ∧
  (∀ (o : Origin) (z b x y : Nat) (r : Beacon) (zr : ZoneRec) (s : State), Takes s o (.zoneStart z) → 1 ≤ z → z ≤ 8 →
    1 ≤ b → b ≤ 4 → nth s.node.zone.zones z = some zr → zr.causes = [] → nth s.node.zone.beacons b = some r →
    r.mode ≠ .single → s.node.set.boundPattern z b = some (x, y) →
    (∀ k, k < z → s.node.zone.active k = true → s.node.set.boundPattern k b = none) →
    ∃ t r', exec (.zoneStart o z) s = .next t ∧ nth t.node.zone.beacons b = some r' ∧ r'.mode = .continuous z ∧
      r'.onTime = x ∧ r'.offTime = y ∧ (r.mode ≠ .continuous z → r' = running s.node z x y)) ∧
  (∀ (d : Nat) (g : Sign) (x : ZoneSt), x.2.sign d = some g →
    let zone := signZone x.1.settings x.2 d
    let y := workOutSign d x
    ∃ g', y.2.sign d = some g' ∧ (∀ k, k ≠ d → y.2.sign k = x.2.sign k) ∧ y.2.zones = x.2.zones ∧
      y.2.beacons = x.2.beacons ∧ g'.normal = g.normal ∧ g'.staged = g.staged ∧ g'.shown = g.shown ∧
      g'.load = g.load ∧
      (zone = none → g'.wanted = g.normal.map fun p => (p.id, 0)) ∧
      (∀ k p, zone = some k → x.1.settings.boundPage k d = some p → g'.wanted = some (p.id, k)) ∧
      (g'.wanted.map Prod.fst = g.wanted.map Prod.fst → g'.fault = g.fault ∧ g'.attempts = g.attempts) ∧
      (g'.wanted.map Prod.fst ≠ g.wanted.map Prod.fst → g'.fault = false ∧ g'.attempts = 0) ∧
      g'.state = if g'.fault then .fault else if zone.isSome then .zoned else .normal) ∧
  (∀ (specs specs' : List (Option RuleSpec)) (recs recs' : List RuleRec) (z : Nat) (r : ZoneRec) (x : ZoneSt),
    1 ≤ z → z ≤ 8 → nth x.2.zones z = some r →
    let was := zoneTripped specs recs z
    let is := zoneTripped specs' recs' z
    ∃ r', nth (handWeather specs recs specs' recs' x).2.zones z = some r' ∧ (was = is → r' = r) ∧
      (was = false → is = true → ∀ c, c ∈ r'.causes ↔ c = .weather ∨ c ∈ r.causes) ∧
      (was = true → is = false → r'.causes = r.causes.filter (· ≠ .weather))) ∧
  (∀ (tag : Nat) (n : Node),
    (∀ p, n.zone.pending = some p → n.receiveTag tag =
      (Node.performRelease { n with zone := { n.zone with pending := none } } p.tag true).receiveTag tag) ∧
    (n.zone.pending = none → n.set.releaseDelay = 0 → n.receiveTag tag = n.performRelease tag false) ∧
    (n.zone.pending = none → 0 < n.set.releaseDelay → n.receiveTag tag =
      { n with zone := { n.zone with pending := some { tag := tag, due := n.svc.now + n.set.releaseDelay } } })) ∧
  (∀ (tag : Nat) (forced : Bool) (n : Node),
    let acts := n.set.releaseActions
    let m := n.performRelease tag forced
    m.zone.performed = bump 65535 n.zone.performed ∧
    m.zone.forced = (if forced then bump 65535 n.zone.forced else n.zone.forced) ∧
    (∀ b r, nth n.zone.beacons b = some r → nth m.zone.beacons b = some
      (if .beaconPulse ∈ acts ∧ b ∈ n.set.pulseBeacons then
        single n n.set.pulsePattern.1 n.set.pulsePattern.2 else r)) ∧
    (.rosterSweep ∉ acts → m.trib = n.trib) ∧
    (.rosterSweep ∈ acts → ∀ e spec r, 1 ≤ e → e ≤ 16 → n.set.rosterEntry e = some spec →
      nth n.trib.roster e = some r →
      nth m.trib.roster e = some { r with since := some (r.since.getD n.svc.now) }) ∧
    (acts = [.timeMark] → m.svc = n.svc.post .releaseDone .none [.nat tag, .nat 0, .flag forced]))

/-! ## Tributary lines (05) -/

/-- R101, R102, R104, R107: a reply on a line. One that fails its check adds to the line's corrupt count; a whole one
that answers no exchange in flight adds to its stray count; a STATUS that answers the exchange in flight of a weather
station ends it: the line is free, the status and the time of it are kept and the miss count is 0, but while the station
is RESTARTING, JOINING or ABSENT, where no count moves. A SILENT one is PRESENT again and DEVICE-STATE is posted with
the cause ANSWERED. Where a command asked for the exchange, the command is DONE with the device's entry as it then
stands; so is a poll of any kind, for any device: what an answer does for a command is what it does for another asker,
and then that reply. That a status record of another kind is taken and kept too is log entry 64, what the entry is told
in log entry 8 (both the model's choice). -/
def Obligations.RepliesOnLines : Prop :=
  ∀ (l d : Nat) (v : Device) (s : State), s.node.phase = .started → s.node.isHead = false →
    s.node.set.deviceOn l = some d → s.node.device d = some v →
    let n := s.node
    exec (.exchangeReply l .corrupt) s = .next (s.settled
      (n.onLine l fun k => { k with corrupt := bump 65535 k.corrupt })) ∧
    (∀ k c, c.kind ≠ .tollOffer → (∀ e, v.exchange = some e → e.number ≠ k ∨ e.kind ≠ c.kind) →
      exec (.exchangeReply l (.whole k c)) s = .next (s.settled
        (n.onLine l fun k => { k with stray := bump 65535 k.stray }))) ∧
    (∀ e st, v.exchange = some e → e.kind = .status → n.set.kindOf d = .weather →
      let run := exec (.exchangeReply l (.whole e.number (.status st))) s
      let kept (f : Device → Device) : Node := n.onDevice d fun v =>
        f { v with exchange := none, status := some (st, n.svc.time) }
      let back : Node := (kept fun v => { v with miss := 0, state := .present }).post .deviceState (.device d)
        [.dev .silent, .dev .present, .devCause .answered]
      let m : Node := if v.state = .silent then back
        else if v.state = .restarting ∨ v.state = .joining ∨ v.state = .absent then kept id
        else kept fun v => { v with miss := 0 }
      ((∀ o, e.asker ≠ .command o) → run = .next (s.settled m)) ∧
      (∀ o p, e.asker = .command o → n.cmd.channel o = some p →
        run = .next (s.replied (m.onCmd fun k => k.setChannel o none) o p.cmd .done (m.deviceReport d)))) ∧
    (∀ (m : Node) (e : Exchange) (c : ReplyContent) (o : Origin) (p : InProgress), e.asker = .command o →
      let taken := m.answered d v { e with asker := .join } c
      taken.cmd.channel o = some p → m.answered d v e c =
        (taken.onCmd fun k => k.setChannel o none).replyTo o (.command p.cmd) .done (taken.deviceReport d))

/-- R101, R104, R105, R107, R153: the reply timer. Below retries + 1 the attempt number advances, the request is
repeated with its timer restarted and the line's repeat count goes up; at retries + 1 the line's unanswered count goes
up and the exchange ends. An IDENTIFY returns its device to its join origin with the join due one join interval later; a
return to ABSENT or FAILED closes the device's OPEN segment. Any other kind adds a miss: the third makes a PRESENT
device SILENT, the tenth makes it or a SILENT one FAILED, its join due one join interval on (spelt out for a FAILED
device without waiting commands); RESTARTING, JOINING or ABSENT no count moves. A command that asked for the exchange is
replied TIMEOUT with the device's entry as it then stands, WRONG-STATE when its exchange is abandoned, and WRONG-STATE
when it still waits in the command list of a device that leaves PRESENT and SILENT: the list is emptied, oldest first.
R82, R83: a page load ends, UNANSWERED before the miss counts. CONFIRMED shows its page; ABANDONED makes the shown page
unknown; of the wanted page CONFIRMED clears the load attempts and REFUSED or UNANSWERED adds one, the third entering
FAULT; of another page the attempts stay. That a reply timer which is not due, or on a line without a device, does
nothing is log entry 1, how the entry is told log entry 8 (both the model's choice). -/
def Obligations.ReplyTimerExpires : Prop :=
  (∀ (l d : Nat) (v : Device) (e : Exchange) (s : State), s.node.phase = .started → s.node.isHead = false →
    s.node.set.deviceOn l = some d → s.node.device d = some v → v.exchange = some e →
    let n := s.node
    let run := exec (.replyTimeout l) s
    let later := (n.set.lineOf d).map fun _ => n.svc.now + 40000
    let missed : Node :=
      let m := n.onLine l fun k => { k with unanswered := bump 65535 k.unanswered }
      if e.kind = .pageLoad then m.onZone (loadEnds d .unanswered) else m
    (n.svc.now < e.deadline → run = .next (s.settled n)) ∧
    (e.deadline ≤ n.svc.now → e.attempt ≤ e.retries → run = .next (s.settled
      ((n.onDevice d fun v => { v with
          exchange := some { e with attempt := e.attempt + 1, deadline := n.svc.now + e.timeout * 4 } }).onLine l
        fun k => { k with repeats := bump 65535 k.repeats }))) ∧
    (e.deadline ≤ n.svc.now → e.retries < e.attempt → e.asker = .join → e.kind = .identify → v.state = .joining →
      let back := v.joinOrigin.getD .joining
      let m : Node := missed.onDevice d fun v =>
        { v with exchange := none, state := back, joinOrigin := none, joinDue := later }
      run = .next (s.settled
        (if back = .absent ∨ back = .failed ∨ back = .unused ∨ back = .wrongKind then
          m.onSvc fun w => w.closeOpen d .device
        else m))) ∧
    (e.deadline ≤ n.svc.now → e.retries < e.attempt → e.kind ≠ .identify →
      let told (m : Node) (new : DevState) : Node :=
        m.post .deviceState (.device d) [.dev v.state, .dev new, .devCause .misses]
      let ends (m : Node) : Prop :=
        ((∀ o, e.asker ≠ .command o) → run = .next (s.settled m)) ∧
        (∀ o p, e.asker = .command o → n.cmd.channel o = some p → run = .next (s.replied
          (m.onCmd fun k => k.setChannel o none) o p.cmd .timeout (m.deviceReport d)))
      (v.state = .present ∧ v.miss < 2 ∨ v.state = .silent ∧ v.miss < 9 →
        ends (missed.onDevice d fun v => { v with exchange := none, miss := v.miss + 1 })) ∧
      (v.state = .present → 2 ≤ v.miss → v.miss < 9 → ends (told
        (missed.onDevice d fun v => { v with exchange := none, miss := v.miss + 1, state := .silent }) .silent)) ∧
      (v.state = .present ∨ v.state = .silent → 9 ≤ v.miss → v.commands = [] →
        ends ((told (missed.onDevice d fun v => { v with
            exchange := none, miss := 10, state := .failed, joinDue := later, attachWaiting := false })
          .failed).onSvc fun w => w.closeOpen d .device)) ∧
      (v.state = .restarting ∨ v.state = .joining ∨ v.state = .absent →
        ends (missed.onDevice d fun v => { v with exchange := none })))) ∧
  (∀ (n : Node) (d : Nat) (v : Device) (e : Exchange), n.device d = some v →
    let free : Node := n.onDevice d fun v => { v with exchange := none }
    let answered (m : Node) (o : Origin) (p : InProgress) : Node :=
      (m.onCmd fun k => k.setChannel o none).replyTo o (.command p.cmd) .wrongState .nil
    (e.kind ≠ .pageLoad → (∀ o, e.asker ≠ .command o) → n.abandon d e = free) ∧
    (e.kind ≠ .pageLoad → ∀ o p, e.asker = .command o → n.cmd.channel o = some p →
      n.abandon d e = answered free o p) ∧
    (∀ w rest o p, v.commands = w :: rest → w.origin = o → n.cmd.channel o = some p →
      n.emptyCommands d = Node.emptyCommands (answered (n.onDevice d fun v => { v with commands := rest }) o p) d) ∧
    (v.commands = [] → n.emptyCommands d = n) ∧
    (∀ old new c f, new ≠ .present → new ≠ .silent →
      let m : Node := (n.onDevice d fun v => { f v with state := new, attachWaiting := false }).post .deviceState
        (.device d) [.dev old, .dev new, .devCause c]
      n.moveDevice d old new c f = Node.emptyCommands
        (if new = .failed ∨ new = .absent ∨ new = .unused ∨ new = .wrongKind then
          m.onSvc fun w => w.closeOpen d .device else m) d) ∧
    (∀ o p, e.asker = .command o →
      let m := n.unanswered d { e with asker := .join }
      m.cmd.channel o = some p → n.unanswered d e =
        (m.onCmd fun k => k.setChannel o none).replyTo o (.command p.cmd) .timeout (m.deviceReport d))) ∧
  (∀ (l : Nat) (s : State), s.node.phase = .started → s.node.isHead = false → s.node.set.deviceOn l = none →
    exec (.replyTimeout l) s = .next (s.settled s.node)) ∧
  (∀ (d : Nat) (o : LoadOutcome) (g : Sign) (l : Load) (x : ZoneSt), x.2.sign d = some g → g.load = some l →
    ∃ g', (loadEnds d o x).2.sign d = some g' ∧ g'.load = none ∧ g'.deferred = 0 ∧ g'.wanted = g.wanted ∧
      g'.normal = g.normal ∧ g'.staged = g.staged ∧ (∀ k, k ≠ d → (loadEnds d o x).2.sign k = x.2.sign k) ∧
      (o = .confirmed → g'.shown = some l.id) ∧ (o = .abandoned → g'.shown = none) ∧
      (o = .refused ∨ o = .unanswered → g'.shown = g.shown) ∧
      (g.wanted.map Prod.fst = some l.id →
        (o = .confirmed → g'.attempts = 0 ∧ g'.fault = g.fault) ∧
        (o = .refused ∨ o = .unanswered → g'.attempts = min 3 (g.attempts + 1) ∧
          (2 ≤ g.attempts → g'.fault = true ∧ g'.state = .fault))) ∧
      (o = .abandoned ∨ g.wanted.map Prod.fst ≠ some l.id → g'.attempts = g.attempts))

/-- R103: what a free line begins, in this order: the wanted page of a PRESENT sign, whose load is then in flight; the
oldest waiting command exchange, which leaves the list; the roster poll that is due of a PRESENT or SILENT device, whose
next due is then a period from now and whose due since is absent; a join; an attach STATUS. With none of them nothing
begins. The line's exchange number advances, and the exchange begins at attempt 1 with the retries and the time-out as
they stand; a TOLL-OFFER carries the sequences that the gantry's entry gives. R109: of the due entries 1 to 16 of a
device the one due longest is polled, at a tie the lowest. R110: an entry due of a device that is neither PRESENT nor
SILENT, has no line, or is not of the kind the poll needs is skipped, its next due a period behind its due since; no
other entry changes. R105: when the join due of an ABSENT or FAILED device comes, an IDENTIFY begins: the device enters
JOINING with its join origin recorded and no join due. (With no roster entry due and no command waiting.) R104, R121:
DEVICE-STATUS with a poll of an unknown kind, of a device outside 1 to 8 or of a kind that does not suit it is
BAD-ARGUMENT; of a device that is neither PRESENT nor SILENT WRONG-STATE; otherwise its exchange joins the device's
command list and the command stays in progress. R106, R107: with nothing ahead of it, a waiting attach STATUS is begun
in PRESENT, and goes on waiting in SILENT. -/
def Obligations.DeviceExchangesBegin : Prop :=
  (∀ (d l : Nat) (v : Device) (k : Line) (s : State), s.node.phase = .started → s.node.isHead = false →
     s.node.trib.started = true → s.node.device d = some v → v.exchange = none → v.commands = [] →
     s.node.set.lineOf d = some l → nth s.node.trib.lines l = some k → v.state = .absent ∨ v.state = .failed →
     due s.node.svc.now v.joinDue = true →
     (∀ e r, nth s.node.trib.roster e = some r → r.since = none) →
     let n := s.node
     exec (.joinDue d) s = .next (s.settled
       ((n.onLine l fun k => { k with number := (k.number + 1) % 256 }).onDevice d fun v =>
         { v with
           state := .joining, joinOrigin := some v.state, joinDue := none,
           exchange := some
             { kind := .identify, number := (k.number + 1) % 256, attempt := 1, asker := .join, request := .plain,
               timeout := n.set.exchangeTimeout, retries := n.set.exchangeRetries,
               deadline := n.svc.now + n.set.exchangeTimeout * 4 } }))) ∧
  (∀ (o : Origin) (d : Nat) (q : Option PollKind) (s : State), Takes s o (.deviceStatusPoll d q) →
     let n := s.node
     let run := exec (.deviceStatusPoll o d q) s
     let refused (st : Status) : Host.Outcome State Fault Refusal :=
       .next (s.replied n o (.deviceStatusPoll d q) st .nil)
     (q = none ∨ d < 1 ∨ 8 < d → run = refused .badArgument) ∧
     (∀ k v, q = some k → 1 ≤ d → d ≤ 8 → n.device d = some v →
       (PollKind.suits k (n.set.kindOf d) = false → run = refused .badArgument) ∧
       (PollKind.suits k (n.set.kindOf d) = true →
         (v.state ≠ .present → v.state ≠ .silent → run = refused .wrongState) ∧
         (v.state = .present ∨ v.state = .silent → run = .next (s.busyWith
           (n.onDevice d fun v => { v with commands := v.commands ++ [{ origin := o, poll := k }] })
           o (.deviceStatusPoll d q)))))) ∧
  (∀ (n : Node) (d l : Nat) (v : Device) (k : Line), n.trib.started = true → n.device d = some v →
     v.exchange = none → v.commands = [] → n.set.lineOf d = some l → nth n.trib.lines l = some k →
     (∀ e r, nth n.trib.roster e = some r → r.since = none) → v.attachWaiting = true →
     (v.state = .silent → n.lookForWork d = n) ∧
     (v.state = .present → wantsLoad n.zone d = false → n.lookForWork d =
       (n.onLine l fun k => { k with number := (k.number + 1) % 256 }).onDevice d fun v =>
         { v with
           attachWaiting := false
           exchange := some
             { kind := .status, number := (k.number + 1) % 256, attempt := 1, asker := .attach, request := .plain,
               timeout := n.set.exchangeTimeout, retries := n.set.exchangeRetries,
               deadline := n.svc.now + n.set.exchangeTimeout * 4 } })) ∧
  (∀ (n : Node) (d l : Nat) (v : Device) (k : Line), n.trib.started = true → n.device d = some v →
     v.exchange = none → n.set.lineOf d = some l → nth n.trib.lines l = some k →
     let run := n.lookForWork d
     let m := n.skipRoster d v
     let begun (kind : ExchKind) (asker : Asker) (request : Request) : Node :=
       (m.onLine l fun k => { k with number := (k.number + 1) % 256 }).onDevice d fun v => { v with
         exchange := some
           { kind := kind, number := (k.number + 1) % 256, attempt := 1, asker := asker, request := request,
             timeout := n.set.exchangeTimeout, retries := n.set.exchangeRetries,
             deadline := n.svc.now + n.set.exchangeTimeout * 4 } }
     let poll (q : PollKind) (asker : Asker) : Node :=
       match q with
       | .status => begun .status asker .plain
       | .sample => begun .sample asker .plain
       | .tollOffer =>
         let x := offerSequences n.toll d v.identity
         begun .tollOffer asker (.toll x.1 x.2)
     (∀ g p src, v.state = .present → wantsLoad n.zone d = true → n.zone.sign d = some g →
       wantedPage n.set g d = some (p, src) → run = { begun .pageLoad .zone (.page p) with
         zone := n.zone.changeSign d fun g => { g with load := some { id := p.id, src := src } } }) ∧
     (v.state ≠ .present ∨ wantsLoad n.zone d = false →
       (∀ w rest, v.commands = w :: rest → run =
         (poll w.poll (.command w.origin)).onDevice d fun v => { v with commands := rest }) ∧
       (∀ e x, v.commands = [] → v.state = .present ∨ v.state = .silent → m.duePoll d = some (e, x) → run =
         (poll x.kind (.roster e)).onRoster e fun _ =>
           { nextDue := some (n.svc.now + x.period * 400), since := none }) ∧
       (v.commands = [] → v.state = .present ∨ v.state = .silent → m.duePoll d = none → v.attachWaiting = false →
         run = m) ∧
       (v.commands = [] → v.state = .restarting ∨ v.state = .wrongKind ∨ v.state = .unused → run = m))) ∧
  (∀ (n : Node) (d : Nat) (v : Device),
     let since (e : Nat) : Option Nat := (nth n.trib.roster e).bind RosterRec.since
     let dueAt (e : Nat) (x : RosterSpec) (at_ : Nat) : Prop :=
       1 ≤ e ∧ e ≤ 16 ∧ n.set.rosterEntry e = some x ∧ x.device = d ∧ since e = some at_
     let skips (x : RosterSpec) : Prop := v.state ≠ .present ∧ v.state ≠ .silent ∨ n.set.lineOf d = none ∨
       PollKind.suits x.kind (n.set.kindOf d) = false
     (∀ e x, n.duePoll d = some (e, x) ↔ ∃ at_, dueAt e x at_ ∧
       ∀ f y b, dueAt f y b → at_ < b ∨ (at_ = b ∧ e ≤ f)) ∧
     (n.duePoll d = none ↔ ∀ e x at_, ¬dueAt e x at_) ∧
     (∃ l, n.skipRoster d v = { n with trib := { n.trib with roster := l } } ∧ l.length = n.trib.roster.length ∧
       (∀ e x at_, dueAt e x at_ → skips x → nth l e = some
         { nextDue := some (at_ + x.period * 400), since := none }) ∧
       (∀ e, (∀ x at_, dueAt e x at_ → ¬skips x) → nth l e = nth n.trib.roster e)))

/-- R108, R111: a roster entry whose next due is reached becomes due since that moment. ROSTER-SET out of its ranges, or
with a kind that does not suit the device, is BAD-ARGUMENT; otherwise the entry is replaced, is not due, and its next
due is one period on, or absent for EMPTY. A new POLL-ROSTER with an entry out of its ranges, or with a changed entry
whose kind does not suit its device, is BAD-ARGUMENT and leaves the node as it was; one that is taken changes the
setting and its changed entries' times alone. That the changed entries alone must suit their devices is deduced (log
entry 31); that they are then not due, their next due one period on, and that the others keep their times, is the
model's choice (log entry 88). -/
def Obligations.RosterIsKept : Prop :=
  (∀ (e : Nat) (s : State),
    let n := s.node
    (∀ spec r, n.phase = .started → n.isHead = false → n.set.rosterEntry e = some spec →
      nth n.trib.roster e = some r → due n.svc.now r.nextDue = true → r.since = none →
      exec (.rosterDue e) s = .next (s.settled (n.onRoster e fun r => { r with since := some n.svc.now }))) ∧
    (∀ o arg, Takes s o (.rosterSet e arg) →
      let run := exec (.rosterSet o e arg) s
      let write (x : Option RosterSpec) (due : Option Nat) : Node :=
        (n.onSettings fun w => { w with roster := put w.roster e x }).onRoster e
          fun _ => { nextDue := due, since := none }
      (e < 1 ∨ 16 < e → run = .next (s.replied n o (.rosterSet e arg) .badArgument .nil)) ∧
      (1 ≤ e → e ≤ 16 → arg = .empty →
        run = .next (s.replied (write none none) o (.rosterSet e arg) .done .nil)) ∧
      (∀ d p, 1 ≤ e → e ≤ 16 → arg = .entry d none p →
        run = .next (s.replied n o (.rosterSet e arg) .badArgument .nil)) ∧
      (∀ d k p, 1 ≤ e → e ≤ 16 → arg = .entry d (some k) p →
        let ok := decide (1 ≤ d ∧ d ≤ 8 ∧ 1 ≤ p ∧ p ≤ 36000) && PollKind.suits k (n.set.kindOf d)
        run = .next (if ok then
            s.replied (write (some { device := d, kind := k, period := p }) (some (n.svc.now + p * 400)))
              o (.rosterSet e arg) .done .nil
          else s.replied n o (.rosterSet e arg) .badArgument .nil)))) ∧
  (∀ (n : Node) (l : List (Option RosterSpec)),
    let inRange (r : RosterSpec) : Prop := 1 ≤ r.device ∧ r.device ≤ 8 ∧ 1 ≤ r.period ∧ r.period ≤ 36000
    let changed (e : Nat) : Prop := 1 ≤ e ∧ e ≤ 16 ∧ nth n.set.roster e ≠ nth l e
    let suits (e : Nat) : Prop :=
      ∀ r, nth l e = some (some r) → inRange r ∧ PollKind.suits r.kind (n.set.kindOf r.device) = true
    let t := n.takeValue 44 (.roster l)
    (Candidate.inRange 44 (.roster l) = true ↔ ∀ r, some r ∈ l → inRange r) ∧
    ((∃ e, changed e ∧ ¬suits e) → t = (n, .badArgument)) ∧
    ((∀ e, changed e → suits e) → ∃ times,
      t = ((n.onSettings fun w => { w with roster := l }).onTrib fun x => { x with roster := times }, .done) ∧
      (∀ e, ¬changed e → nth times e = nth n.trib.roster e) ∧
      (∀ e old, changed e → nth n.trib.roster e = some old → nth times e = some
        { nextDue := ((nth l e).getD none).map fun r => n.svc.now + r.period * 400, since := none })))

/-- R112, R113: LINE-RESET outside 1 to 8 is BAD-ARGUMENT; a line that no device uses, or that UNUSED ones alone hold
(deduced from R99: log entry 108), is DONE with no device; a device with nothing in flight or waiting becomes ABSENT
with an immediate join due, misses 0, identity kept; the lines keep their exchange numbers and counts. R99, R112: a
REMAP with a line outside 1 to 8 or given twice is BAD-ARGUMENT; any other, and any DEVICE-KIND, is taken, and each
device whose line or kind it changes, no other, is detached, by number (log entry 89, the model's): UNUSED, or ABSENT
with a join due at once if it has a line; misses 0; restart, join origin, status, exchange and commands gone; identity
kept with the kind. The settings, lines, roster and toll log stay. An exchange in flight is ABANDONED first, then the
command list emptied, then DEVICE-STATE posted, with cause REMAP, or KIND where the line stays, and an OPEN segment
closed. R79, R84, R85: a sign that stays one shows an unknown page, one that ceases to be one loses its record and
buffers, a new one gets a record (its making posts nothing: log entry 79, the model's). R134, R135: the device is
unbound and its attachment absent; an entry with records stays, one without goes at once, and UNATTACHED devices that
are PRESENT or SILENT are tried again. R153, R159: a weather station that ceases to be one loses its pending gap, and
its rules not CLEAR become CLEAR; RULE-CLEAR with cause DEVICE is posted for a tripped one. -/
def Obligations.LineResetDetaches : Prop :=
  (∀ (o : Origin) (l : Nat) (s : State), Takes s o (.lineReset l) →
    let n := s.node
    let run := exec (.lineReset o l) s
    (l < 1 ∨ 8 < l → run = .next (s.replied n o (.lineReset l) .badArgument .nil)) ∧
    (1 ≤ l → l ≤ 8 → n.set.deviceOn l = none →
      run = .next (s.replied n o (.lineReset l) .done .absent)) ∧
    (∀ d v, 1 ≤ l → l ≤ 8 → n.set.deviceOn l = some d → n.device d = some v →
      v.exchange = none → v.commands = [] →
      ∃ m v', run = .next (s.replied m o (.lineReset l) .done (.list [.nat d, .dev .absent])) ∧
        m.device d = some v' ∧ v'.state = .absent ∧ v'.joinDue = some n.svc.now ∧ v'.miss = 0 ∧
        v'.identity = v.identity ∧ v'.restartEnd = none ∧ m.trib.lines = n.trib.lines ∧
        (∀ k, k ≠ d → m.device k = n.device k))) ∧
  (∀ (n : Node) (l : List (Option Nat)) (ks : List DeviceKind),
    let lines := l.filterMap id
    let ok := (∀ k ∈ lines, 1 ≤ k ∧ k ≤ 8) ∧ lines.Nodup
    let t := n.takeValue 40 (.remap l)
    (Candidate.inRange 40 (.remap l) = true ↔ ok) ∧ (¬ok → t = (n, .badArgument)) ∧
    (ok → t = ((n.onSettings fun w => { w with remap := l }).detachChanged n.set, .done)) ∧
    Candidate.inRange 41 (.kinds ks) = true ∧
    n.takeValue 41 (.kinds ks) = ((n.onSettings fun w => { w with kinds := ks }).detachChanged n.set, .done)) ∧
  (∀ (n : Node) (old : Settings),
    let m := n.detachChanged old
    m.set = n.set ∧ m.trib.lines = n.trib.lines ∧ m.trib.roster = n.trib.roster ∧ m.toll.log = n.toll.log ∧
    (∀ d v, 1 ≤ d → d ≤ 8 → n.device d = some v →
      let unused := n.set.kindOf d = .unused
      (old.lineOf d = n.set.lineOf d → old.kindOf d = n.set.kindOf d → m.device d = some v) ∧
      (old.lineOf d ≠ n.set.lineOf d ∨ old.kindOf d ≠ n.set.kindOf d → m.device d = some { v with
        state := if unused then .unused else .absent
        joinDue := if unused then none else (n.set.lineOf d).map fun _ => n.svc.now
        identity := if n.set.kindOf d = old.kindOf d then v.identity else none
        miss := 0, restartEnd := none, restartOrigin := none, joinOrigin := none, status := none, exchange := none
        commands := [], attachWaiting := false })) ∧
    (∀ d, (∀ k, k ≠ d → old.lineOf k = n.set.lineOf k ∧ old.kindOf k = n.set.kindOf k) → 1 ≤ d → d ≤ 8 →
      (old.lineOf d ≠ n.set.lineOf d → m = n.detach d (old.kindOf d) .remap) ∧
      (old.lineOf d = n.set.lineOf d → old.kindOf d ≠ n.set.kindOf d → m = n.detach d (old.kindOf d) .kind))) ∧
  (∀ (n : Node) (d : Nat) (v : Device) (kind : DeviceKind) (cause : DevCause), n.device d = some v →
    let new := n.set.kindOf d
    let state : DevState := if new = .unused then .unused else .absent
    let run := n.detach d kind cause
    (∀ e, v.exchange = some e → run = (n.abandon d e).detach d kind cause) ∧
    (v.exchange = none → v.commands ≠ [] → run = (n.emptyCommands d).detach d kind cause) ∧
    (v.exchange = none → v.commands = [] → run = Node.detachElsewhere
      (((n.onDevice d fun v => { v with
          state := state, joinDue := if new = .unused then none else (n.set.lineOf d).map fun _ => n.svc.now
          identity := if new = kind then v.identity else none
          miss := 0, restartEnd := none, restartOrigin := none, joinOrigin := none, status := none
          attachWaiting := false }).post .deviceState (.device d) [.dev v.state, .dev state, .devCause cause]).onSvc
        fun s => s.closeOpen d .device) d kind new)) ∧
  (∀ (n : Node) (d : Nat) (old new : DeviceKind),
    let m := n.detachElsewhere d old new
    m.trib = n.trib ∧ m.set = n.set ∧ m.toll.log = n.toll.log ∧
    nth m.toll.attachments d = (nth n.toll.attachments d).map (fun _ => none) ∧
    (∀ e ∈ m.toll.gantries, e.device ≠ some d) ∧
    let unbound (x : Svc) : Prop := (m.svc, m.toll) = unbindDevice n.trib.devices d (x, n.toll)
    (old ≠ .weather ∨ new = .weather → m.rules = n.rules ∧
      (old ≠ .sign → new ≠ .sign → m.zone = n.zone ∧ unbound n.svc) ∧
      (old = .sign → new = .sign → m.zone = n.zone.changeSign d (fun g => { g with shown := none }) ∧
        unbound n.svc) ∧
      (old ≠ .sign → new = .sign → unbound n.svc ∧ m.zone =
        { n.zone with signs := put n.zone.signs d (some (workedOut n.set n.zone d .made)) }) ∧
      (∀ g, old = .sign → new ≠ .sign → n.zone.sign d = some g →
        m.zone = { n.zone with signs := put n.zone.signs d none } ∧ unbound (n.svc.freeBuffers .sign
          ((if g.normal.isSome then 1 else 0) + (if g.staged.isSome then 1 else 0) + g.deferred)))) ∧
    (old = .weather → new ≠ .weather → m = ((n.detachElsewhere d .unused new).onSvc fun s =>
      { s with wx := { s.wx with gaps := put s.wx.gaps d 0 } }).onRules (clearRulesOf d))) ∧
  (∀ (devices : List Device) (d : Nat) (x : TollSt),
    let alone : Toll := { x.2 with attachments := put x.2.attachments d none }
    let run := unbindDevice devices d x
    ((∀ e ∈ x.2.gantries, e.device ≠ some d) → run = (x.1, alone)) ∧
    (∀ e, x.2.gantries.filter (fun g => g.device = some d) = [e] → (x.2.gantries.map Gantry.number).Nodup →
      (x.2.recordsOf e.number ≠ [] → run = (x.1, { alone with
        gantries := x.2.gantries.map fun g => if g.device = some d then { g with device := none } else g })) ∧
      (x.2.recordsOf e.number = [] → run = retryUnattached devices
        (x.1, { alone with gantries := x.2.gantries.filter fun g => g.number ≠ e.number }))) ∧
    (let tries (k : Nat) (r : Bool) (v : Device) : Prop := nth devices k = some v ∧
       (v.state = .present ∨ v.state = .silent) ∧ ∃ u, nth x.2.attachments k = some (some (.unattached u r))
     ((∀ k r v, ¬tries k r v) → retryUnattached devices x = x) ∧
     (∀ k r v i, 1 ≤ k → k ≤ 8 → tries k r v → (∀ j q w, tries j q w → j = k) → v.identity = some i →
       retryUnattached devices x = attachGantry devices k i r x))) ∧
  (∀ (d : Nat) (x : RuleSt),
    let y := clearRulesOf d x
    let hit (k : Nat) : Prop := 1 ≤ k ∧ k ≤ 8 ∧ ∃ spec rec, nth x.1.settings.rules k = some (some spec) ∧
      nth x.2 k = some rec ∧ spec.device = d ∧ rec.state ≠ .clear
    y.1.settings = x.1.settings ∧
    (∀ k, ¬hit k → nth y.2 k = nth x.2 k) ∧
    (∀ k, hit k → nth y.2 k = some { state := .clear, last := none, since := x.1.time }) ∧
    ((∀ k rec, hit k → nth x.2 k = some rec → isTripped rec.state = false) → y.1 = x.1) ∧
    (∀ k spec rec, hit k → (∀ j, hit j → j = k) → nth x.1.settings.rules k = some (some spec) → nth x.2 k = some rec →
      isTripped rec.state = true →
      y.1 = x.1.post .ruleClear (.rule k) [.nat spec.zone, .absent, .ruleClear .device]))

/-- R114–R118: a restart output. Its conditions hold when all of them do (never, with none). ARMED it goes to HOLDING
with its hold timer, or with hold time 0 fires at once; HOLDING and SPENT it goes back to ARMED as soon as one is false;
else nothing moves. A look evaluates outputs 1 to 4, five rounds (that order is log entry 90, the model's). A device
condition is of the state the device is in, or came from while JOINING or RESTARTING. A pulse fires when the hold timer
is due or RESTART-PULSE asks (BAD-ARGUMENT outside 1–4, WRONG-STATE while PULSING), and ends in SPENT. Its target: none,
or one that is UNUSED or WRONG-KIND, is left alone; one already RESTARTING keeps its origin and the later of the two
restart ends; any other becomes RESTARTING from the state it held (its join origin while JOINING), its join due absent,
its restart end the pulse's end and the settle time on, and DEVICE-STATE is posted (spelt out for a target without
commands, R104). A new RESTART-OUTPUTS out of its ranges is BAD-ARGUMENT; one taken puts each changed output that is not
PULSING back to ARMED, its hold timer stopped, and leaves the others as they are. A target leaves RESTARTING for ABSENT
at its restart end, to be asked at once. R100, R106: an identity of the configured kind makes a device PRESENT with
misses 0 and no join due, a new serial number is told and drops the status record, a sign rejoins and a gantry is
attached; one of another kind makes it WRONG-KIND with its OPEN segment closed (a gantry's attachment stays: log entry
114, the model's). R133–R135: the attachment; RENUMBERED needs a serial number that differs from the last identity's.
The model's choices: a second pulse on a target keeps the later end and posts nothing (log entry 72), an expiry not due
does nothing (1), CLASH goes before RENUMBERED (65), and a bound device that RENUMBERED refuses stays bound (81). -/
def Obligations.RestartOutputsAndTheirTargets : Prop :=
  (∀ (x : Nat) (spec : OutputSpec) (r : Output) (s : State), nth s.node.set.outputs x = some spec →
     nth s.node.trib.outputs x = some r →
     let n := s.node
     let fired (c : FireCause) : Node :=
       (n.onOutput x fun _ => { state := .pulsing, hold := none,
                                pulse := some (n.svc.now + spec.width * 4000) }).post .restartFired (.output x)
         [Value.opt .nat spec.target, .fire c]
     let until_ := n.svc.now + spec.width * 4000 + spec.settle * 4000
     let outcome (c : FireCause) (m : Node) : Prop :=
       (spec.target.bind n.device = none → m = fired c) ∧
       (∀ d v, spec.target = some d → n.device d = some v →
         (v.state = .unused ∨ v.state = .wrongKind → m = fired c) ∧
         (v.state = .restarting →
           m = (fired c).onDevice d fun v => { v with restartEnd := some (max until_ (v.restartEnd.getD 0)) }) ∧
         (v.state ≠ .unused → v.state ≠ .wrongKind → v.state ≠ .restarting → v.commands = [] →
           m = ((fired c).onDevice d fun v =>
             { v with state := .restarting, restartOrigin := some (v.joinOrigin.getD v.state), joinOrigin := none,
                      joinDue := none, restartEnd := some until_, attachWaiting := false }).post .deviceState
             (.device d) [.dev v.state, .dev .restarting, .devCause .restart]))
     (n.phase = .started → n.isHead = false →
       (r.state = .holding → due n.svc.now r.hold = true →
         ∃ m, exec (.holdTimerExpiry x) s = .next (s.settled m) ∧ outcome .conditions m) ∧
       (r.state ≠ .holding ∨ due n.svc.now r.hold = false →
         exec (.holdTimerExpiry x) s = .next (s.settled n)) ∧
       (r.state = .pulsing → due n.svc.now r.pulse = true → exec (.pulseTimerExpiry x) s = .next (s.settled
         (n.onOutput x fun r => { r with state := .spent, pulse := none })))) ∧
     (let all := spec.conds ≠ [] ∧ ∀ c ∈ spec.conds, n.holds c = true
      let run := n.evaluateOutput x
      (r.state = .armed → all → spec.hold = 0 → outcome .conditions run) ∧
      (r.state = .armed → all → spec.hold ≠ 0 → run = n.onOutput x fun r =>
        { r with state := .holding, hold := some (n.svc.now + spec.hold * 4000) }) ∧
      (r.state = .holding → ¬all → run = n.onOutput x fun r => { r with state := .armed, hold := none }) ∧
      (r.state = .spent → ¬all → run = n.onOutput x fun r => { r with state := .armed }) ∧
      (r.state = .pulsing ∨ (r.state = .armed ∧ ¬all) ∨ ((r.state = .holding ∨ r.state = .spent) ∧ all) →
        run = n)) ∧
     (∀ o, Takes s o (.restartPulse x) → 1 ≤ x → x ≤ 4 →
       (r.state = .pulsing → exec (.restartPulse o x) s = .next (s.replied n o (.restartPulse x) .wrongState .nil)) ∧
       (r.state ≠ .pulsing → ∃ m, exec (.restartPulse o x) s = .next (s.replied m o (.restartPulse x) .done .nil) ∧
         outcome .command m))) ∧
  (∀ n : Node,
     let round (m : Node) : Node := ((((m.evaluateOutput 1).evaluateOutput 2).evaluateOutput 3).evaluateOutput 4)
     (n.trib.started = false → n.evaluateOutputs = n) ∧
     (n.trib.started = true → n.evaluateOutputs = round (round (round (round (round n))))) ∧
     (∀ d v, n.device d = some v →
       let as (st : DevState) : Prop := v.state = st ∨ (v.state = .joining ∧ v.joinOrigin = some st) ∨
         (v.state = .restarting ∧ v.restartOrigin = some st)
       (n.holds (.device d .silent) = true ↔ as .silent) ∧ (n.holds (.device d .failed) = true ↔ as .failed) ∧
       (n.holds (.device d .absent) = true ↔ as .absent)) ∧
     (∀ i r, nth n.trib.inputs i = some r → n.holds (.input i) = r.active) ∧
     (∀ p, n.holds (.portNotRun p) = true ↔ (n.port p).state ≠ .run) ∧
     (n.holds .orphan = true ↔ n.ring.attach = .orphan)) ∧
  (∀ (x : Nat) (o : Origin) (s : State), Takes s o (.restartPulse x) → (x < 1 ∨ 4 < x) →
     exec (.restartPulse o x) s = .next (s.replied s.node o (.restartPulse x) .badArgument .nil)) ∧
  (∀ (d : Nat) (v : Device) (s : State), s.node.phase = .started → s.node.isHead = false →
     s.node.device d = some v →
     let n := s.node
     ((v.state ≠ .restarting ∨ due n.svc.now v.restartEnd = false) →
       exec (.restartEnd d) s = .next (s.settled n)) ∧
     (v.state = .restarting → due n.svc.now v.restartEnd = true → n.svc.wx.segments = [] → v.commands = [] →
       exec (.restartEnd d) s = .next (s.settled
         ((n.onDevice d fun v => { v with
             state := .absent, miss := 0, joinDue := (n.set.lineOf d).map fun _ => n.svc.now, restartEnd := none,
             restartOrigin := none, attachWaiting := false }).post .deviceState (.device d)
           [.dev .restarting, .dev .absent, .devCause .settled])))) ∧
  (∀ (n : Node) (d : Nat) (v : Device) (i : Identity), n.device d = some v → v.commands = [] →
     let told (m : Node) (new : DevState) (c : DevCause) : Node :=
       m.post .deviceState (.device d) [.dev (v.joinOrigin.getD v.state), .dev new, .devCause c]
     let fresh := decide (v.identity.map Identity.serial ≠ some i.serial)
     let joined : Node := told (n.onDevice d fun v => { v with
       state := .present, identity := some i, joinOrigin := none, joinDue := none, miss := 0,
       status := if fresh then none else v.status }) .present .joined
     let replaced := v.identity.any fun (j : Identity) => j.serial ≠ i.serial
     let named : Node := if fresh then
       joined.post .deviceNew (.device d) [.nat i.maker, .nat i.serial, .nat i.level] else joined
     (i.kind ≠ n.set.kindOf d → n.takeIdentity d v i = (told (n.onDevice d fun v => { v with
       state := .wrongKind, identity := some i, joinOrigin := none, joinDue := none, attachWaiting := false })
       .wrongKind .wrongKind).onSvc fun s => s.closeOpen d .device) ∧
     (i.kind = .weather → n.set.kindOf d = .weather → n.takeIdentity d v i = named) ∧
     (i.kind = .toll → n.set.kindOf d = .toll → n.takeIdentity d v i =
       named.onToll (joinGantry named.trib.devices d i replaced)) ∧
     (i.kind = .sign → n.set.kindOf d = .sign → n.takeIdentity d v i =
       (named.onZone (signRejoins d)).onDevice d fun v => { v with attachWaiting := true })) ∧
  (∀ (devices : List Device) (d : Nat) (i : Identity) (replaced : Bool) (x : TollSt),
     let g := i.gantry
     let u := i.oldest - 1
     let run := attachGantry devices d i replaced x
     let refused (r : UnattachedReason) : TollSt :=
       (x.1.post .tollUnattached (.device d) [.nat g, .unattached r],
         { x.2 with attachments := put x.2.attachments d (some (.unattached r replaced)) })
     let attached (f : Gantry → Gantry) (t : Toll) : Toll := { t with
       attachments := put x.2.attachments d (some (.attached g))
       gantries := x.2.gantries.map fun e => if e.number = g then f e else e }
     (x.2.entry g = none →
       (16 ≤ x.2.gantries.length → run = refused .full) ∧
       (x.2.gantries.length < 16 → run = (x.1, { x.2 with
         gantries := x.2.gantries ++ [{ number := g, a := u, c := u, reported := none, device := some d,
                                        lastBad := none, lastGap := none }]
         attachments := put x.2.attachments d (some (.attached g)) }))) ∧
     (∀ e, x.2.entry g = some e →
       let clash := ∃ k v, e.device = some k ∧ k ≠ d ∧ nth devices k = some v ∧
         (v.state = .present ∨ v.state = .silent)
       (clash → run = refused .clash) ∧
       (¬clash → replaced = true → u < e.c → run = refused .renumbered) ∧
       (¬clash → (replaced = false ∨ e.c ≤ u) → u ≤ e.a →
         run = (x.1, attached (fun e => { e with device := some d }) x.2)) ∧
       (¬clash → (replaced = false ∨ e.c ≤ u) → e.a < u →
         run = (x.1.post .tollSequenceJump (.device d) [.nat g, .nat e.a, .nat u],
           attached (fun e => { e with device := some d, a := u })
             { x.2 with counts := { x.2.counts with
                 skipped := bumpBy 4294967295 (u - e.a) x.2.counts.skipped } }))) ∧
     (let bound := x.2.gantries.any fun e => e.device = some d && e.number ≠ g
      (bound = false → joinGantry devices d i replaced x = run) ∧
      (bound = true → joinGantry devices d i replaced x =
        attachGantry devices d i replaced (unbindDevice devices d x)))) ∧
  (∀ (n : Node) (l : List OutputSpec),
     let condOk (c : RestartCond) : Prop := (∀ d st, c = .device d st → 1 ≤ d ∧ d ≤ 8) ∧
       ∀ i, c = .input i → 1 ≤ i ∧ i ≤ 4
     let ok := ∀ x ∈ l, x.conds.length ≤ 3 ∧ (∀ c ∈ x.conds, condOk c) ∧ x.hold ≤ 600 ∧ x.width ∈ [1, 2, 5, 10] ∧
       (∀ d, x.target = some d → 1 ≤ d ∧ d ≤ 8) ∧ x.settle ≤ 120
     let t := n.takeValue 45 (.outputs l)
     (Candidate.inRange 45 (.outputs l) = true ↔ ok) ∧ (¬ok → t = (n, .badArgument)) ∧
     (ok → ∃ q, t = ((n.onSettings fun w => { w with outputs := l }).onTrib fun x => { x with outputs := q }, .done) ∧
       ∀ x r, nth n.trib.outputs x = some r → nth q x = some
         (if 1 ≤ x ∧ x ≤ 4 ∧ nth n.set.outputs x ≠ nth l x ∧ r.state ≠ .pulsing then
           { r with state := .armed, hold := none } else r)))

/-- R119: cabinet inputs. The contact's level is compared with the active level and a difference is timed; when the
debounce time has passed the debounced state changes and, with the notice enable on, INPUT-CHANGE is posted. That
INPUT-CHANGE tells the new state as a flag, on for ACTIVE, is log entry 8 (the model's choice). A new CABINET-INPUTS
with a debounce time outside 10 to 2000 is BAD-ARGUMENT; one that is taken compares, once TRIB has started, each contact
whose active level setting it changes with the new level and times a difference from that moment with the new debounce
time; every other input goes on as it was, a timing begun earlier with its end, and nothing is posted. -/
def Obligations.CabinetInputsAreTimed : Prop :=
  (∀ (i : Nat) (spec : InputSpec) (r : Input) (s : State), s.node.phase = .started → s.node.isHead = false →
    nth s.node.set.inputs i = some spec → nth s.node.trib.inputs i = some r →
    let n := s.node
    (∀ high old, nth n.pins.inputHigh i = some old →
      exec (.inputContactChange i high) s = .next (s.settled ((n.setInput i high).onInput i fun r =>
        if r.active = decide (high = spec.activeHigh) then { r with timing := none }
        else if r.timing.isSome then r else { r with timing := some (n.svc.now + spec.debounce * 4) }))) ∧
    (due n.svc.now r.timing = true →
      exec (.inputDebounceExpiry i) s = .next (s.settled
        (let m := n.onInput i fun r => { active := !r.active, timing := none }
        if spec.notice then m.post .inputChange (.input i) [.flag (!r.active)] else m)))) ∧
  (∀ (n : Node) (l : List InputSpec),
    let ok := ∀ x ∈ l, 10 ≤ x.debounce ∧ x.debounce ≤ 2000
    let turned (i : Nat) : Prop := n.trib.started = true ∧ 1 ≤ i ∧ i ≤ 4 ∧
      (nth n.set.inputs i).map InputSpec.activeHigh ≠ (nth l i).map InputSpec.activeHigh
    let t := n.takeValue 46 (.inputs l)
    (Candidate.inRange 46 (.inputs l) = true ↔ ok) ∧ (¬ok → t = (n, .badArgument)) ∧
    (ok → ∃ q, t = ((n.onSettings fun w => { w with inputs := l }).onTrib fun x => { x with inputs := q }, .done) ∧
      ∀ i r, nth n.trib.inputs i = some r →
        (¬turned i → nth q i = some r) ∧
        (∀ x high, turned i → nth l i = some x → nth n.pins.inputHigh i = some high → nth q i = some
          (if r.active = decide (high = x.activeHigh) then { r with timing := none }
           else if r.timing.isSome then r else { r with timing := some (n.svc.now + x.debounce * 4) }))))

/-! ## What a read tells (the read class of 10 section 10.8) -/

/-- R20, R27, R46, R61, R98, R111, R120, R121, R130, R160, R175, R189: the reads that are always DONE. Each tells its
record as it stands, field by field in its rule's order, a field that the record has not being absent, and changes
nothing but that its reply goes its way; IDENTIFY is told while its own channel has it in progress. The numbers and
flags that stand for words are log entry 8, which loops are present at the head-end log entry 86, the form of a due
since log entry 91, that of a running timer log entry 113, the part revision log entry 35, what is counted per kind log
entry 50, what WINDOW-STATUS counts of NOTE and of placeholders log entries 77 and 78, which held messages
COLLECT-STATUS tells for a kind log entry 82, that the number of items marked REMOVED is absent with the batch record
log entry 100, and that the frame number told is the next one while a frame is being sent log entry 101 (all the
model's). -/
def Obligations.ReadsTellAndChangeNothing : Prop :=
  ∀ (o : Origin) (s : State),
    let n := s.node
    let reads (i : Instr) (c : Command) (v : Value) : Prop :=
      Takes s o c → exec i s = .next (s.replied n o c .done v)
    let left (t : Option Nat) : Value := Value.opt (fun d => .nat (d - n.svc.now)) t
    let num (x : Option Nat) : Value := Value.opt .nat x
    let p := n.svc.pool
    let cls (c : ClassRec) : Value :=
      .list [.nat c.holding, .nat c.floor, .nat c.ceiling, .nat (c.floor - c.holding), .nat c.high, .nat c.granted,
        .nat c.refusedCeiling, .nat c.refusedFree, .nat c.refusedGuarantee, .nat c.evictedSegments,
        .nat c.evictedBuffers]
    let guarantee := (p.toll.floor - p.toll.holding) + (p.weather.floor - p.weather.holding) +
      (p.sign.floor - p.sign.holding) + (p.transit.floor - p.transit.holding)
    let presence (x : Presence) : Value := .nat (n.head.map.filter fun e => e.presence = x).length
    let loop (l : Loop) : Value :=
      let w := n.win.loop l
      if w.present then
        .list [Value.opt (fun h : Holding => .list [.flag h.directed, .nat h.quota]) w.holding, num w.lastLap,
          .flag w.lapLock.isSome, .flag w.cwLock, .flag (n.requesting l)]
      else .absent
    let headLoop (l : Loop) : Value :=
      let w := n.win.loop l
      .list [num w.clearWay, Value.opt (fun t => .nat (n.svc.now - t)) w.timer, .nat w.reissued]
    let noSign (b : Binding) : Bool :=
      match bindingSign b with
      | some (_, d) => (n.zone.sign d).isNone
      | none => false
    let tripped (z : Nat) : List Nat := (places 8).filter fun k =>
      match (nth n.set.rules k).getD none, nth n.rules k with
      | some spec, some r => spec.zone = z && isTripped r.state
      | _, _ => false
    let batch (e : BatchEntry) : Value :=
      .list [.nat e.station, .kind e.kind, .batch e.state, .nat e.number, .nat e.max, num e.n, .nat e.received,
        .flag e.endSeen, Value.opt .batchCause e.cause, .flag e.placed, left e.timer]
    let kind (k : CollKind) (r : Option WBatch) (a : KindCounts) : Value :=
      .list
        [Value.opt (fun b : WBatch => .list [.nat b.number, .nat b.items.length, .nat b.next,
            .nat (b.items.length - (b.next - 1)), Value.opt .loop b.bound,
            .nat (b.items.filter fun x => x.2 = .removed).length]) r,
         .nat (n.coll.heldW.filter fun e => e.kind = k).length, .nat a.asks, .nat a.sent, .nat a.voids]
    let q := n.svc.note.queue
    reads (.timeRead o) .timeRead (.time n.svc.time) ∧
    reads (.poolStatus o) .poolStatus (.list [.nat p.free, .nat guarantee, .num ((p.free : Int) - guarantee),
      cls p.toll, cls p.weather, cls p.sign, cls p.transit, .nat p.leastFree, .flag p.waiting]) ∧
    reads (.identify o) .identify (.list
      [.role n.set.role, .nat n.me, .nat Config.partRevision, .time n.svc.time, .hold n.cmd.held, left n.cmd.lapse,
       .flag n.set.noticePush, .flag n.set.attentionPulse, .nat q.length, .nat (q.filter (·.toHost)).length,
       .nat (q.filter (·.toCentre)).length, .flag n.svc.note.overflow, .nat n.svc.note.lost, .nat n.link.valid,
       .nat n.link.badLength, .nat n.link.badCrc, .nat n.link.wrongKind, .nat n.link.noticeNo, .nat n.link.dataNo,
       .flag (n.cmd.chanL.isSome || !Origin.isCentre o), .flag (n.cmd.chanC.isSome || Origin.isCentre o)]) ∧
    reads (.ringStatus o) .ringStatus (.list (if n.isHead then
      [.ring n.head.state, .port n.head.origin, .flag n.head.restoring, left n.head.timer, .time n.svc.time,
       .nat n.head.number, .nat n.set.voiceCap,
       Value.opt (fun v : Survey => .list [.nat v.number, .surveyKind v.kind]) n.head.survey, presence .present,
       presence .unreachable, presence .duplicate]
      else [.attach n.ring.attach, .flag n.ring.restoring, left n.ring.timer, .time n.svc.time, num n.ring.lastOuter,
        num n.ring.lastCap, num n.ring.lastSurvey])) ∧
    reads (.windowStatus o) .windowStatus (.list
      ([.list [loop .outer, loop .inner], .nat n.svc.queues.emergency.length, .nat n.svc.queues.normal.length,
        .nat n.holdingProducers, .nat n.win.duplicate, .nat n.win.incomplete] ++
       if n.isHead then [.nat n.win.undelivered, headLoop .outer, headLoop .inner] else [])) ∧
    reads (.phoneStatus o) .phoneStatus (.list
      [.list ((numbered 1 n.call.phones).map fun x => .list
         [.phone x.2.state, num x.2.call, num x.2.slot,
          if n.portZone x.1 = 0 then .absent else .nat (n.portZone x.1), Value.opt .time x.2.requested,
          .flag x.2.offHook, .nat x.2.count, left x.2.timer]),
       .nat n.call.held.length, .nat n.call.dropped]) ∧
    reads (.zoneStatus o) .zoneStatus (.list
      [.list (n.zone.zones.map fun z => .list [.flag (!z.causes.isEmpty), .causes z.causes, Value.opt .time z.since]),
       .nat n.set.bindings.length, .nat (n.set.bindings.filter noSign).length,
       .list (n.zone.beacons.map fun b => .list
         [match b.mode with
          | .off => .list [.nat 0]
          | .continuous z => .list [.nat 1, .nat z]
          | .single => .list [.nat 2], .flag b.lit]),
       Value.opt (fun r : Pending => .list [.nat r.tag, .nat (r.due - n.svc.now)]) n.zone.pending,
       .nat n.zone.performed, .nat n.zone.forced, .nat p.sign.holding,
       .list ((places 8).filterMap fun d => (n.zone.sign d).map fun g => .list [.nat d, .sign g.state])]) ∧
    reads (.rosterRead o) .rosterRead (.list ((places 16).map fun e =>
      match n.set.rosterEntry e, nth n.trib.roster e with
      | some x, some r => .list [.nat e, .nat x.device, .poll x.kind, .nat x.period, left r.nextDue,
          .flag r.since.isSome, num r.since]
      | _, _ => .list [.nat e])) ∧
    reads (.inputStatus o) .inputStatus (.list
      [.list ((places 4).map fun i =>
         match nth n.set.inputs i, nth n.trib.inputs i, nth n.pins.inputHigh i with
         | some x, some r, some high => .list [.flag r.active, .flag high, .flag r.timing.isSome, .flag x.activeHigh,
             .nat x.debounce, .flag x.notice]
         | _, _, _ => .absent),
       .list ((places 4).map fun i =>
         match nth n.set.outputs i, nth n.trib.outputs i with
         | some x, some r => .list [.out r.state, left (r.hold.orElse fun _ => r.pulse),
             .list (x.conds.map fun c => .flag (n.holds c))]
         | _, _ => .absent)]) ∧
    reads (.deviceList o) .deviceList (.list ((numbered 1 n.trib.devices).map fun x => .list
      [num (n.set.lineOf x.1), .devKind (n.set.kindOf x.1), .dev x.2.state, .nat x.2.miss,
       Value.opt (fun i : Identity => .nat i.serial) x.2.identity, .flag x.2.exchange.isSome])) ∧
    reads (.ruleStatus o) .ruleStatus (.list
      [.list ((places 8).map fun k =>
         match (nth n.set.rules k).getD none, nth n.rules k with
         | some x, some r => .list
             [.list [.nat x.device, .nat x.quantity, .num x.level, .nat (if x.direction = .above then 1 else 2),
                .nat x.hysteresis, .nat x.hold, .nat x.zone],
              .rule r.state, Value.opt .num r.last, .time r.since]
         | _, _ => .empty),
       .list ((places 8).map fun z =>
         .list [.flag (zoneTripped n.set.rules n.rules z), .list ((tripped z).map .nat)])]) ∧
    reads (.collectStatus o) .collectStatus (.list (if n.isHead then
      [.nat n.set.batchLimit, .nat n.set.collectTimeout, .nat n.coll.nextBatch, .list (n.coll.batches.map batch),
       .nat n.coll.heldH.length, .nat n.coll.delivery.length, .nat n.coll.counts.begun, .nat n.coll.counts.complete,
       .nat n.coll.counts.gap, .nat n.coll.counts.timeout, .nat n.coll.counts.accepted, .nat n.coll.counts.ignored,
       .nat n.coll.counts.late, .nat n.coll.counts.confirmed, .nat n.coll.counts.dropped]
      else [kind .toll n.coll.toll n.coll.counts.toll, kind .weather n.coll.weather n.coll.counts.weather]))

/-- R12, R26, R73, R89, R121, R146, R161, R191, R193: the reads with an argument. Out of the argument's range they are
BAD-ARGUMENT, a sign without a record is NOT-FOUND; otherwise they are DONE. They change nothing but that the reply goes
its way. What they tell stands field by field in its rule's order, and a byte of the store that was never written reads
as 255. A list-valued SETTING-READ gives the most whole records that fit the 240 bytes of a reply body, from the first
key at or above the starting key, and how many follow; that it is DONE and begins at the first record without a starting
key is log entry 75 (the model's choice). What bytes the records take is log entry 7, the numbers and flags that stand
for words and `absent` for an unknown page and an IDLE console log entry 8, the order of keys log entry 74, the form of
join due, restart end and due since log entry 91, that of a ring and a drain timer log entry 113, that the gantry number
and the oldest sequence are absent but for a gantry log entry 110, what the stored value of a next-start item is log
entry 93, and that a key which is no key of the item is not refused log entry 102 (all the model's). -/
def Obligations.ReadsWithAnArgument : Prop :=
  ∀ (o : Origin) (a : Nat) (s : State),
    let n := s.node
    let answers (i : Instr) (c : Command) (st : Status) (v : Value) : Prop :=
      Takes s o c → exec i s = .next (s.replied n o c st v)
    let ranged (low high : Nat) (i : Instr) (c : Command) (v : Value) : Prop :=
      (a < low ∨ high < a → answers i c .badArgument .nil) ∧ (low ≤ a → a ≤ high → answers i c .done v)
    let left (t : Option Nat) : Value := Value.opt (fun d => .nat (d - n.svc.now)) t
    let num (x : Option Nat) : Value := Value.opt .nat x
    let slot (k : Nat) : Value :=
      match n.call.holder k with
      | none => .list [.nat 0]
      | some e => if e.state = .clearing then .list [.nat 2] else .list [.nat 1, .nat e.number]
    let call (e : CallEntry) : Value :=
      .list [.nat e.number, .nat e.station, .nat e.port, .call e.state, num e.slot, num e.console, .time e.arrival,
        left e.ring, left e.drain]
    let loans := n.toll.log.filterMap LogRecord.loan
    let gantry (e : Gantry) : Value :=
      let l := n.toll.log.filter fun r => r.record.gantry = e.number
      .list [.nat e.number, num e.device, .nat e.a, .nat e.c, num e.reported, .nat l.length,
        .nat (l.filter fun r => r.loan.isSome).length]
    let attachment (d : Nat) : Value :=
      match (nth n.toll.attachments d).getD none with
      | none => .absent
      | some (.attached g) => .nat g
      | some (.unattached r _) => .unattached r
    let t := n.toll.counts
    let w := n.svc.wx
    let inState (st : SegState) : Value :=
      let l := w.segments.filter fun g => g.state = st
      .list [.nat l.length, .nat (l.map fun g => g.samples.length).sum]
    let segment (g : Segment) : Value :=
      .list [.nat g.number, .nat g.device, .seg g.state, num g.batch, .time g.first, .nat g.samples.length,
        .nat g.gap, Value.opt .close g.cause]
    let gantryOnly (i : Identity) (k : Nat) : Value := if i.kind = .toll then .nat k else .absent
    let device (v : Device) : Value :=
      .list [num (n.set.lineOf a), .devKind (n.set.kindOf a), .dev v.state, Value.opt .dev v.joinOrigin,
        Value.opt (fun i : Identity => .list
          [.devKind i.kind, .nat i.maker, .nat i.serial, .nat i.level, gantryOnly i i.gantry, gantryOnly i i.oldest])
          v.identity,
        .nat v.miss, Value.opt statusReport v.status, num v.joinDue, num v.restartEnd, Value.opt .dev v.restartOrigin,
        Value.opt (fun e : Exchange => .list [.exch e.kind, .nat e.number, .nat e.attempt, askerReport e.asker])
          v.exchange,
        match n.set.lineOf a with
        | none => .absent
        | some l =>
          match nth n.trib.lines l with
          | none => .absent
          | some k => .list [.nat k.number, .nat k.corrupt, .nat k.stray, .nat k.repeats, .nat k.unanswered],
        .list ((places 16).filterMap fun e =>
          match n.set.rosterEntry e, nth n.trib.roster e with
          | some x, some r =>
            if x.device = a then some (.list [.nat e, .poll x.kind, .nat x.period, left r.nextDue,
              .flag r.since.isSome, num r.since]) else none
          | _, _ => none)]
    (portOf a = none → answers (.portStatus o a) (.portStatus a) .badArgument .nil) ∧
    (∀ p, portOf a = some p → answers (.portStatus o a) (.portStatus a) .done (.list
      [.portState (n.port p).state, .nat (n.port p).good, .nat (n.port p).missing, .nat (n.port p).errNow,
       .nat (n.port p).errLast, Value.opt (fun x => .list [.nat x.1, .role x.2]) (n.port p).neighbour,
       .flag (n.port p).conflict])) ∧
    ranged 1 999 (.stationMapRead o a) (.stationMapRead a) (.list [.nat n.head.map.length,
      .list (((n.head.map.filter fun e => a ≤ e.station).take 16).map fun e =>
        .list [.nat e.station, num e.position, .presence e.presence, .via e.via, .attach e.attach, .time e.heard])]) ∧
    ranged 1 255 (.callList o a) (.callList a) (.list
      [.nat n.set.voiceCap, .list ((places 24).map slot), .list (n.call.waiting.map .nat),
       .list ((places 8).map fun p => Value.opt (fun e : CallEntry => .nat e.number) (n.call.consoleCall p)),
       .nat n.call.table.length,
       .list ((((places 255).filterMap fun k => if a ≤ k then n.call.entry k else none).take 12).map call),
       .nat n.call.held.length, .nat n.call.dropped, .flag n.call.full]) ∧
    (a < 1 ∨ 8 < a → answers (.deviceStatus o a) (.deviceStatus a) .badArgument .nil) ∧
    (∀ v, 1 ≤ a → a ≤ 8 → n.device a = some v → answers (.deviceStatus o a) (.deviceStatus a) .done (device v)) ∧
    ranged 1 65535 (.tollStatus o a) (.tollStatus a) (.list
      [.nat n.toll.log.length, .list ((firsts loans).map fun b => .list [.nat b, .nat (loans.count b)]),
       Value.opt (fun r : LogRecord => .time r.receipt) n.toll.log.head?, .nat n.set.tollHigh, .flag n.toll.high,
       .flag n.toll.heldMark, .nat n.toll.gantries.length, .list (((n.toll.sorted a).take 8).map gantry),
       .list (((places 8).filter fun d => n.set.kindOf d = .toll).map fun d => .list [.nat d, attachment d]),
       .list [.nat t.accepted, .nat t.duplicate, .nat t.gap, .nat t.malformed, .nat t.deferred, .nat t.heldCeiling,
         .nat t.heldFree, .nat t.heldGuarantee, .nat t.unattached, .nat t.skipped, .nat t.acknowledged,
         .nat t.unmatched]]) ∧
    ranged 1 48 (.wxStatus o a) (.wxStatus a) (.list
      [inState .opened, inState .closed, inState .loaned, .nat n.set.segmentLength, .nat w.nextSegment, .flag w.lossMark,
       .list ((places 8).map fun d =>
         .list [.nat ((nth w.gaps d).getD 0), Value.opt (fun g : Segment => .nat g.number) (w.openOf d)]),
       .list (((w.segments.drop (a - 1)).take 12).map segment),
       .list [.nat w.counts.stored, .nat w.counts.lost, .nat w.counts.malformed, .nat w.counts.segmentsForPool,
         .nat w.counts.segmentsForWx, .nat w.counts.samplesForPool, .nat w.counts.samplesForWx,
         .nat w.counts.acknowledged, .nat w.counts.unmatched]]) ∧
    (a < 1 ∨ 8 < a → answers (.signStatus o a) (.signStatus a) .badArgument .nil) ∧
    (1 ≤ a → a ≤ 8 → n.zone.sign a = none → answers (.signStatus o a) (.signStatus a) .notFound .nil) ∧
    (∀ g, 1 ≤ a → a ≤ 8 → n.zone.sign a = some g → answers (.signStatus o a) (.signStatus a) .done (.list
      [.sign g.state, Value.opt (fun p : Page => .nat p.id) g.normal,
       Value.opt (fun x : Page × Nat => .list [.nat x.1.id, .nat x.2]) g.staged,
       Value.opt (fun w : Nat × Nat => .list [.nat w.1, .nat w.2]) g.wanted, num g.shown, .nat g.attempts,
       Value.opt (fun l : Load => .nat l.id) g.load, Value.opt statusReport g.last,
       Value.opt (fun v : Device => .dev v.state) (n.device a)])) ∧
    (∀ key, isItem a = false → answers (.settingRead o a key) (.settingRead a key) .badArgument .nil) ∧
    (∀ key, (numberRange a).isSome = true → nextStart a = false → answers (.settingRead o a key) (.settingRead a key)
      .done (.list [.setting (.number (n.set.number a))])) ∧
    (∀ key, (numberRange a).isSome = true → nextStart a = true → answers (.settingRead o a key) (.settingRead a key)
      .done (.list [.setting (.number (n.set.number a)), .nat (storedValue s.store a)])) ∧
    (∀ key, a = 31 → answers (.settingRead o a key) (.settingRead a key) .done
      (.list [.setting (.actions n.set.releaseActions)])) ∧
    (∀ key, a = 32 → answers (.settingRead o a key) (.settingRead a key) .done
      (.list [.setting (.beacons n.set.pulseBeacons)])) ∧
    (∀ key, isItem a = true → (numberRange a).isSome = false → a ≠ 31 → a ≠ 32 →
      let l := ((n.itemRecords a).filter fun x => key.all fun k => keyRank k ≤ keyRank x.1).map Prod.snd
      let fits (k : Nat) : Prop := 1 + (Config.listResult a (l.take k) (l.length - k)).length ≤ 240
      ∃ k, k ≤ l.length ∧ (fits k ∨ k = 0) ∧ (∀ j, k < j → j ≤ l.length → ¬fits j) ∧
        answers (.settingRead o a key) (.settingRead a key) .done
          (.list [.list ((l.take k).map .setting), .nat (l.length - k)])) ∧
    (∀ key, isItem a = true → ∃ v, answers (.settingRead o a key) (.settingRead a key) .done v) ∧
    (4096 ≤ a → answers (.storeRead o a) (.storeRead a) .badArgument .nil) ∧
    (a < 4096 → answers (.storeRead o a) (.storeRead a) .done (.list
      [.bytes ((List.range (min 224 (4096 - a))).map fun k => (readByte s.store (a + k)).getD 255#8),
       .nat (storeEnd s.store), .nat (4096 - storeEnd s.store), .nat n.applied, .nat n.skipped]))

/-! ## The pool, toll records and weather (06 to 08) -/

/-- R122, R123, R128, R129: a request for buffers. It is granted exactly if the class stays within its ceiling, the free
count covers it, and what is left free covers the unheld floors of the other three classes; then the buffers move from
the free count to the holding of the class, whose high mark rises to a higher holding. Otherwise no buffer moves, and
the first condition that fails is the reason. Granted, refused or freed, the free count and the holdings keep their sum,
and the law of R123 (`PoolSafe`: the free count covers the guarantee, no holding stands above its ceiling) goes on.
R124: a TOLL, SIGN or TRANSIT request refused for FREE or GUARANTEE, while the WEATHER holding exceeds its floor, evicts
the oldest CLOSED segment, counted against the asking class, and is decided again; with none CLOSED, at the floor, for
CEILING or of class WEATHER it is refused at once. R127: the checks of new bounds, in order, and a value that passes
them has that law. R152: an eviction takes the oldest CLOSED segment out, frees a buffer for each of its samples, and
adds its samples and gap to the oldest later segment of the device, or to the pending gap. R151: a lost sample closes
the device's OPEN segment, counts, and is told once while the loss mark is set. R138, R143: TOLL's holding goes on being
the number of records in the log, over every record taken and every pair acknowledged. R128: the high mark of a class
and the least free count are moved by grants alone, up to the new holding and down to the new free count; a full reset
gives 0 and 1536. R125, R126: a refused TRANSIT request sets the waiting mark, no other refusal moves it; buffers freed
while it is set clear it and are told to the producers, as are freed TRANSIT buffers without it; none freed tells
nothing; new bounds clear and tell a set mark. -/
def Obligations.PoolDecidesByThreeConditions : Prop :=
  (∀ (c : PoolClass) (k : Nat) (s : Svc),
     let p := s.pool
     let r := p.cls c
     let unheld (x : PoolClass) : Nat := if x = c then 0 else (p.cls x).floor - (p.cls x).holding
     let others := unheld .toll + unheld .weather + unheld .sign + unheld .transit
     let t := (s.requestBuffers c k).1
     let reason := (s.requestBuffers c k).2
     (r.holding + k ≤ r.ceiling → k ≤ p.free → others ≤ p.free - k →
       reason = none ∧ t = { s with pool := t.pool } ∧ t.pool.free = p.free - k ∧
       (t.pool.cls c).holding = r.holding + k ∧ (t.pool.cls c).high = max r.high (r.holding + k) ∧
       (∀ x, x ≠ c → t.pool.cls x = p.cls x)) ∧
     (s.wx.segments = [] →
       (r.ceiling < r.holding + k → reason = some .ceiling) ∧
       (r.holding + k ≤ r.ceiling → p.free < k → reason = some .free) ∧
       (r.holding + k ≤ r.ceiling → k ≤ p.free → p.free - k < others → reason = some .guarantee) ∧
       (reason ≠ none → t = { s with pool := t.pool } ∧ t.pool.free = p.free ∧
         ∀ x, (t.pool.cls x).holding = (p.cls x).holding)) ∧
     (let first : Option PoolReason :=
        if r.ceiling < r.holding + k then some .ceiling else if p.free < k then some .free
        else if p.free - k < others then some .guarantee else none
      ∀ x, first = some x →
       (x = .ceiling ∨ c = .weather ∨ p.weather.holding ≤ p.weather.floor ∨ s.evictOldest true = none →
         s.requestBuffers c k = (s.refuseBuffers c x, some x)) ∧
       (x ≠ .ceiling → c ≠ .weather → p.weather.floor < p.weather.holding → ∀ u j, s.evictOldest true = some (u, j) →
         s.requestBuffers c k = Svc.requestBuffers { u with pool := u.pool.countEviction c j } c k)) ∧
     (PoolOk p → PoolOk t.pool ∧ PoolOk (s.freeBuffers c k).pool) ∧
     (PoolSafe p → PoolSafe t.pool ∧ PoolSafe (s.freeBuffers c k).pool)) ∧
  (∀ (l : List ClassBounds) (s : Svc),
     let p := s.pool
     ((∃ c, boundsFor l c = none) → checkBounds p l = .badArgument) ∧
     (∀ t w g r, boundsFor l .toll = some t → boundsFor l .weather = some w → boundsFor l .sign = some g →
       boundsFor l .transit = some r →
       let bad := l.length ≠ 4 ∨ 1536 < t.floor + w.floor + g.floor + r.floor ∨
         ∃ b ∈ l, b.ceiling < 1 ∨ b.ceiling < b.floor ∨ (if b.cls = .toll then 1024 else 1536) < b.ceiling
       let full := t.ceiling < p.toll.holding ∨ w.ceiling < p.weather.holding ∨ g.ceiling < p.sign.holding ∨
         r.ceiling < p.transit.holding ∨ p.free < (t.floor - p.toll.holding) + (w.floor - p.weather.holding) +
           (g.floor - p.sign.holding) + (r.floor - p.transit.holding)
       (bad → checkBounds p l = .badArgument) ∧ (¬bad → full → checkBounds p l = .wrongState) ∧
       (¬bad → ¬full → checkBounds p l = .done)) ∧
     (checkBounds p l = .done → PoolSafe (s.takeBounds l).pool ∧ (PoolOk p → PoolOk (s.takeBounds l).pool))) ∧
  (∀ (s : Svc) (forPool : Bool),
     ((∀ g ∈ s.wx.segments, g.state ≠ .closed) → s.evictOldest forPool = none) ∧
     (∀ before e after, s.wx.segments = before ++ e :: after → e.state = .closed →
       (∀ g ∈ before, g.state ≠ .closed) →
       let lost := e.samples.length + e.gap
       ∃ t, s.evictOldest forPool = some (t, e.samples.length) ∧
         t.pool = (s.freeBuffers .weather e.samples.length).pool ∧ t.note = s.note ∧ t.queues = s.queues ∧
         ((∀ g ∈ after, g.device ≠ e.device) → t.wx.segments = before ++ after ∧
           t.wx.gaps = change (bumpBy 65535 lost) s.wx.gaps e.device) ∧
         (∀ mid g rest, after = mid ++ g :: rest → g.device = e.device → (∀ x ∈ mid, x.device ≠ e.device) →
           t.wx.segments = before ++ mid ++ { g with gap := bumpBy 65535 lost g.gap } :: rest ∧
           t.wx.gaps = s.wx.gaps))) ∧
  (∀ (s u : Svc) (d : Nat) (r : LossReason),
     (s.wx.openOf d = none ∧ u = s) ∨ (∃ g, s.wx.openOf d = some g ∧ u = s.closeSegment g .early) →
     let v : Svc := { u with wx := { u.wx with
       gaps := change (bump 65535) u.wx.gaps d
       counts := { u.wx.counts with lost := bump 4294967295 u.wx.counts.lost } } }
     (u.wx.lossMark = true → s.loseSample d r = v) ∧
     (u.wx.lossMark = false → s.loseSample d r =
       Svc.post { v with wx := { v.wx with lossMark := true } } .weatherLoss (.device d) [.loss r])) ∧
  (∀ (devices : List Device) (d g : Nat) (r : TollRecord) (stopped : Bool) (x : TollSt) (q : Nat × Nat),
     x.1.pool.toll.holding = x.2.log.length →
     let y := (takeRecord d g (x, stopped) r).1
     let z := (ackPair devices x q).1
     y.1.pool.toll.holding = y.2.log.length ∧ z.1.pool.toll.holding = z.2.log.length) ∧
  (∀ (s : Svc) (c : PoolClass) (k : Nat) (r : PoolReason) (l : List ClassBounds),
     let gone : Svc := { s with pool := s.pool.release c k }
     let told (t : Svc) : Svc := { t with pool := { t.pool with waiting := false }, freed := true }
     (s.refuseBuffers c r).pool.waiting = (s.pool.waiting || decide (c = .transit)) ∧
     ((s.requestBuffers .transit k).2 ≠ none → (s.requestBuffers .transit k).1.pool.waiting = true) ∧
     s.freeBuffers c 0 = s ∧
     (k ≠ 0 → s.freeBuffers c k = if s.pool.waiting = true ∨ c = .transit then told gone else gone) ∧
     (s.pool.waiting = true → (s.takeBounds l).pool.waiting = false ∧ (s.takeBounds l).freed = true) ∧
     (s.pool.waiting = false → (s.takeBounds l).pool.waiting = false ∧ (s.takeBounds l).freed = s.freed)) ∧
  (∀ c : PoolClass, (Pool.reset.cls c).high = 0) ∧ Pool.reset.leastFree = 1536 ∧
  (∀ (p : Pool) (c : PoolClass) (k : Nat),
     let marks (q : Pool) : Prop := (∀ x, (q.cls x).high = (p.cls x).high) ∧ q.leastFree = p.leastFree
     let q := p.grant c k
     (q.cls c).holding = (p.cls c).holding + k ∧ (q.cls c).high = max (p.cls c).high (q.cls c).holding ∧
     (∀ x, x ≠ c → (q.cls x).high = (p.cls x).high) ∧ q.leastFree = min p.leastFree q.free ∧
     marks (p.release c k) ∧ (∀ r, marks (p.refuse c r)) ∧ marks (p.countEviction c k) ∧
     (∀ b, marks (p.withBounds b)))

/-- Every step keeps the invariants of the call pool, the notices and the call table. R122: the free count and the
holdings sum to 1536. R123: the free count covers the guarantee, and no holding stands above its ceiling. R176: the notice
queue holds 256 entries at most, each with a destination to go to. R62, R63: the entries of the call table differ in call
number, pair and slot, slots lie within the voice cap, the wait queue holds exactly the QUEUED entries in order of arrival,
at most 16, and while one waits no slot within the cap is FREE (`CallsOk`); and such a table holds 40 entries at most. -/
def Obligations.StepKeepsPoolSum : Prop :=
  (∀ s t : State, PoolOk s.node.svc.pool → step s = .next t → PoolOk t.node.svc.pool) ∧
  (∀ s t : State, PoolSafe s.node.svc.pool → step s = .next t → PoolSafe t.node.svc.pool) ∧
  (∀ s t : State, NotesOk s.node.svc.note → step s = .next t → NotesOk t.node.svc.note) ∧
  (∀ s t : State, CallsOk s.node.call s.node.set.voiceCap → step s = .next t →
    CallsOk t.node.call t.node.set.voiceCap) ∧
  (∀ (c : Call) (cap : Nat), CallsOk c cap → c.table.length ≤ 40)

/-- R156, R157, R159: RULE-SET and the rules. RULE-SET of a rule outside 1 to 8, of an unknown direction or out of its
ranges is BAD-ARGUMENT; otherwise the entry is replaced and its state is CLEAR with no last value. A sample of the
rule's device with its quantity moves the rule by its table: past the level in `hold` samples in a row trips it, back
by the hysteresis in `hold` samples in a row clears it, and one that breaks the row sets it back. A sample of another
device, or without the quantity, leaves the rule. -/
def Obligations.RulesTripAndClear : Prop :=
  (∀ (o : Origin) (k : Nat) (arg : RuleArg) (s : State), Takes s o (.ruleSet k arg) →
    let n := s.node
    let run := exec (.ruleSet o k arg) s
    let bad := .next (s.replied n o (.ruleSet k arg) .badArgument .nil)
    let now : RuleRec := { state := .clear, last := none, since := n.svc.time }
    let take (x : Option RuleSpec) : Prop :=
      (∃ m, run = .next (s.replied m o (.ruleSet k arg) .done .nil) ∧ m.set.rules = put n.set.rules k x ∧
        m.rules = put n.rules k now ∧ m.call = n.call ∧ m.toll = n.toll) ∧
      (∀ rec, nth n.rules k = some rec → isTripped rec.state = false →
        run = .next (s.replied { n with
          svc := { n.svc with settings := { n.svc.settings with rules := put n.svc.settings.rules k x } }
          rules := put n.rules k now } o (.ruleSet k arg) .done .nil))
    (k < 1 ∨ 8 < k → run = bad) ∧
    (∀ d q v y h z, arg = .rule d q v none y h z → run = bad) ∧
    (1 ≤ k → k ≤ 8 → arg = .empty → take none) ∧
    (∀ r : RuleSpec, 1 ≤ k → k ≤ 8 →
      arg = .rule r.device r.quantity r.level (some r.direction) r.hysteresis r.hold r.zone →
      (ruleOk r = false → run = bad) ∧ (ruleOk r = true → take (some r)))) ∧
  (∀ (k : Nat) (spec : RuleSpec) (rec : RuleRec) (r : Sample) (s : Svc) (l : List RuleRec),
    nth s.settings.rules k = some (some spec) → nth l k = some rec →
    (spec.device ≠ r.device → evaluateRule r (s, l) k = (s, l)) ∧
    (r.quantities.find? (fun q => q.code = spec.quantity) = none → evaluateRule r (s, l) k = (s, l)) ∧
    (∀ q, spec.device = r.device → r.quantities.find? (fun q => q.code = spec.quantity) = some q →
      let past := match spec.direction with
        | .above => decide (spec.level < q.value)
        | .below => decide (q.value < spec.level)
      let back := !past && (match spec.direction with
        | .above => decide (q.value ≤ spec.level - spec.hysteresis)
        | .below => decide (spec.level + spec.hysteresis ≤ q.value))
      ∃ new, nth (evaluateRule r (s, l) k).2 k = some new ∧ new.last = some q.value ∧
        new.since = (if new.state = rec.state then rec.since else s.time) ∧
        (∀ j, j ≠ k → nth (evaluateRule r (s, l) k).2 j = nth l j) ∧
        (rec.state = .clear → past = true → new.state = if spec.hold = 1 then .tripped else .arming 1) ∧
        (rec.state = .clear → past = false → new.state = .clear) ∧
        (∀ m, rec.state = .arming m → past = true →
          new.state = if m + 1 = spec.hold then .tripped else .arming (m + 1)) ∧
        (∀ m, rec.state = .arming m → past = false → new.state = .clear) ∧
        (rec.state = .tripped → back = true → new.state = if spec.hold = 1 then .clear else .easing 1) ∧
        (rec.state = .tripped → back = false → new.state = .tripped) ∧
        (∀ m, rec.state = .easing m → back = true →
          new.state = if m + 1 = spec.hold then .clear else .easing (m + 1)) ∧
        (∀ m, rec.state = .easing m → back = false → new.state = .tripped)))

/-- R136 to R140, R149, R150: what a device's reply brings into the log and the weather store. A record of an ATTACHED
gantry at or below its accepted-through is a duplicate; a malformed one, or one beyond the next, stops acceptance; the
next one is appended to the log with the present node time and raises the accepted-through if POOL grants a buffer,
and is held otherwise. A reply of up to 4 records is taken record by record, each against the entry as the one before left
it; after a stop every record is counted deferred and nothing more is taken; the request's C becomes the reported-through
if it exceeds it. A sample that fits its device's OPEN segment, with a buffer granted, is appended to it. With none OPEN, a
new segment is created under a number that no segment holds, its first sample time the sample's and its gap count the
device's pending gap. A sample that brings the segment to SEGMENT-LENGTH closes it, cause FULL; one that would take the
record beyond 360 bytes closes it first, cause SIZE. Closing posts SEGMENT-READY. R102, R107, R147, R157: the reply of a
SAMPLE exchange ends it: the line is free, the miss count 0, and a well-formed sample is stored and then, stored or lost,
seen by the eight rules in order of number, whose changes reach ZONE; a malformed one is counted and lost, and no rule sees
it. A reply of no sample ready brings nothing. A sample of a RESTARTING station is taken too. -/
def Obligations.RecordsAndSamplesAreTaken : Prop :=
  (∀ (l d g a c : Nat) (v : Device) (e : Exchange) (ge : Gantry) (r : TollRecord) (s : State),
    s.node.phase = .started → s.node.isHead = false → s.node.set.deviceOn l = some d → s.node.device d = some v →
    v.exchange = some e → e.kind = .tollOffer → e.request = .toll a c →
    nth s.node.toll.attachments d = some (some (.attached g)) → s.node.toll.entry g = some ge →
    let n := s.node
    let granted := (n.svc.requestBuffers .toll 1).2 = none
    ∃ t, exec (.exchangeReply l (.whole e.number (.records [r]))) s = .next t ∧ t.node.call.phones = n.call.phones ∧
      let k := t.node.toll.counts
      let through := (t.node.toll.entry g).map Gantry.a
      (r.seq ≤ ge.a → t.node.toll.log = n.toll.log ∧ through = some ge.a ∧
        k.duplicate = bump 4294967295 n.toll.counts.duplicate) ∧
      (ge.a < r.seq → malformedRecord g r = true → t.node.toll.log = n.toll.log ∧ through = some ge.a ∧
        k.malformed = bump 4294967295 n.toll.counts.malformed) ∧
      (ge.a + 1 < r.seq → malformedRecord g r = false → t.node.toll.log = n.toll.log ∧ through = some ge.a ∧
        k.gap = bump 4294967295 n.toll.counts.gap) ∧
      (r.seq = ge.a + 1 → malformedRecord g r = false → granted →
        t.node.toll.log = n.toll.log ++ [{ record := r, receipt := n.svc.time, loan := none }] ∧
        through = some (ge.a + 1) ∧ k.accepted = bump 4294967295 n.toll.counts.accepted ∧
        t.node.toll.heldMark = false) ∧
      (r.seq = ge.a + 1 → malformedRecord g r = false → ¬granted →
        t.node.toll.log = n.toll.log ∧ through = some ge.a ∧ t.node.toll.heldMark = true)) ∧
  (∀ (s : Svc) (g : Segment) (r : Sample), s.wx.openOf r.device = some g →
    segmentBytes (g.samples ++ [r]) ≤ 360 → (s.requestBuffers .weather 1).2 = none →
    g.samples.length + 1 < s.settings.segmentLength →
    s.storeSample r =
      { (s.requestBuffers .weather 1).1 with wx := { s.wx with
          segments := s.wx.segments.map fun x =>
            if x.number = g.number then { g with samples := g.samples ++ [r] } else x
          lossMark := false
          counts := { s.wx.counts with stored := bump 4294967295 s.wx.counts.stored } } }) ∧
  (∀ (l d g a c : Nat) (v : Device) (e : Exchange) (rs : List TollRecord) (s : State),
    s.node.phase = .started → s.node.isHead = false → s.node.set.deviceOn l = some d → s.node.device d = some v →
    v.exchange = some e → e.kind = .tollOffer → e.request = .toll a c →
    nth s.node.toll.attachments d = some (some (.attached g)) → rs.length ≤ 4 →
    ∃ t, exec (.exchangeReply l (.whole e.number (.records rs))) s = .next t ∧ t.node.toll =
      reportThrough g c (rs.foldl (takeRecord d g) ((s.node.svc, s.node.toll), false)).1.2) ∧
  (∀ (d g : Nat) (r : TollRecord) (ge : Gantry) (x : TollSt), x.2.entry g = some ge →
    let goesOn (y : TollSt × Bool) : Prop := y.2 = false
    let stops (y : TollSt × Bool) : Prop := y.2 = true ∧ y.1.2.log = x.2.log ∧
      (y.1.2.entry g).map Gantry.a = some ge.a
    let run := takeRecord d g (x, false) r
    (takeRecord d g (x, true) r = ((x.1, { x.2 with counts := { x.2.counts with
      deferred := bump 4294967295 x.2.counts.deferred } }), true)) ∧
    (r.seq ≤ ge.a → run = ((x.1, { x.2 with counts := { x.2.counts with
      duplicate := bump 4294967295 x.2.counts.duplicate } }), false)) ∧
    (r.seq = ge.a + 1 → malformedRecord g r = false → (x.1.requestBuffers .toll 1).2 = none → goesOn run ∧
      run.1.2.log = x.2.log ++ [{ record := r, receipt := (x.1.requestBuffers .toll 1).1.time, loan := none }] ∧
      (run.1.2.entry g).map Gantry.a = some (ge.a + 1)) ∧
    (ge.a < r.seq → (malformedRecord g r = true ∨ r.seq ≠ ge.a + 1 ∨ (x.1.requestBuffers .toll 1).2 ≠ none) →
      stops run)) ∧
  (∀ (s : Svc) (r : Sample), s.wx.openOf r.device = none → s.wx.segments.length < 48 →
    (s.requestBuffers .weather 1).2 = none → 1 < s.settings.segmentLength →
    ∃ k, 1 ≤ k ∧ k ≤ 65535 ∧ (∀ g ∈ s.wx.segments, g.number ≠ k) ∧
      s.storeSample r = { (s.requestBuffers .weather 1).1 with wx := { s.wx with
        segments := s.wx.segments ++
          [{ number := k, device := r.device, state := .opened, batch := none, first := r.time,
             gap := (nth s.wx.gaps r.device).getD 0, cause := none, samples := [r] }]
        lastNumber := k
        gaps := put s.wx.gaps r.device 0
        lossMark := false
        counts := { s.wx.counts with stored := bump 4294967295 s.wx.counts.stored } } }) ∧
  (∀ (s : Svc) (g : Segment) (r : Sample), s.wx.openOf r.device = some g →
    let longer : Segment := { g with samples := g.samples ++ [r] }
    (segmentBytes longer.samples ≤ 360 → (s.requestBuffers .weather 1).2 = none →
      s.settings.segmentLength ≤ g.samples.length + 1 →
      s.storeSample r = Svc.closeSegment
        { (s.requestBuffers .weather 1).1 with wx := { s.wx with
            segments := s.wx.segments.map fun x => if x.number = g.number then longer else x
            lossMark := false
            counts := { s.wx.counts with stored := bump 4294967295 s.wx.counts.stored } } } longer .full) ∧
    (360 < segmentBytes longer.samples → (s.closeSegment g .size).wx.openOf r.device = none →
      s.storeSample r = (s.closeSegment g .size).storeSample r)) ∧
  (∀ (l d : Nat) (v : Device) (e : Exchange) (s : State), s.node.phase = .started → s.node.isHead = false →
    s.node.set.deviceOn l = some d → s.node.device d = some v → v.exchange = some e → e.kind = .sample →
    (∀ o, e.asker ≠ .command o) →
    let free := s.node.onDevice d fun v => { v with exchange := none }
    let ended (m : Node) : Host.Outcome State Fault Refusal :=
      .next (s.settled (m.onDevice d fun v => { v with miss := 0 }))
    (v.state = .present → (∀ qs, exec (.exchangeReply l (.whole e.number (.sample qs))) s =
      ended (free.takeSample d qs)) ∧ exec (.exchangeReply l (.whole e.number .noSample)) s = ended free) ∧
    (v.state = .restarting → ∀ qs, exec (.exchangeReply l (.whole e.number (.sample qs))) s =
      .next (s.settled (free.takeSample d qs)))) ∧
  (∀ (n : Node) (d : Nat) (qs : List Quantity),
    let r : Sample := { device := d, time := n.svc.time, quantities := qs }
    let formed := 1 ≤ qs.length ∧ qs.length ≤ 12 ∧ (qs.map Quantity.code).Nodup ∧
      ∀ q ∈ qs, inQuantityRange q.code q.value = true
    let k := n.svc.wx.counts
    let kept := n.svc.storeSample r
    let seen := [1, 2, 3, 4, 5, 6, 7, 8].foldl (evaluateRule r) (kept, n.rules)
    (formed → n.takeSample d qs = Node.onZone { n with svc := seen.1, rules := seen.2 }
      (handWeather kept.settings.rules n.rules seen.1.settings.rules seen.2)) ∧
    (¬formed → n.takeSample d qs =
      let bad : Svc := { n.svc with wx := { n.svc.wx with
        counts := { k with malformed := bump 4294967295 k.malformed } } }
      { n with svc := bad.loseSample d .malformed })) ∧
  (∀ (s : Svc) (g : Segment) (c : CloseCause), s.closeSegment g c = Svc.post
    { s with wx := { s.wx with segments := s.wx.segments.map fun x =>
        if x.number = g.number then { x with state := .closed, cause := some c } else x } }
    .segmentReady (.device g.device) [.nat g.number, .nat g.samples.length, .nat g.gap, .close c])

/-! ## Collection (09) -/

/-- R164, R165, R172, R173: COLLECT, COLLECT-CONFIRM and COLLECT-DROP. COLLECT checks its ranges, the ring (OPEN is
WRONG-STATE), the four cases of BUSY and the station map (NOT-FOUND), in this order; then a new entry ASKED takes the
next batch number, counted on from the last one given, 1–255 cyclically, past the numbers that entries hold (R162: the
up to four entries hold four at most); its timer runs for the collection timeout, a COLLECT-ASK is offered and the
reply carries the number. CONFIRM and DROP free a HELD batch; CONFIRM offers a COLLECT-ACK first if a record was
received, one slot for each 48 bytes of its body (R28), whose layout is log entry 20 (the model's). -/
def Obligations.CollectCommands : Prop :=
  ∀ (o : Origin) (st max batch : Nat) (kind : Option CollKind) (s : State),
    let n := s.node
    let after (k : Nat) : Nat := if k < 255 then k + 1 else 1
    (Takes s o (.collect st kind max) →
      let run := exec (.collect o st kind max) s
      let refused (x : Status) : Host.Outcome State Fault Refusal :=
        .next (s.replied n o (.collect st kind max) x .nil)
      let bad := decide (st < 1 ∨ 999 < st ∨ max < 1 ∨ 64 < max)
      (kind = none ∨ bad = true → run = refused .badArgument) ∧
      (∀ k, kind = some k → bad = false →
        (n.head.state = .opened → run = refused .wrongState) ∧
        (n.head.state ≠ .opened →
          let busy := n.coll.batches.any (fun e => e.station = st && e.kind = k) ||
            decide (n.set.batchLimit ≤ n.coll.batches.length ∨ 8 ≤ n.coll.heldH.length ∨
              516 < n.coll.delivery.length +
                129 * (n.coll.batches.filter fun e => e.state ≠ .held).length + 129)
          let present := decide ((n.head.entry st).map MapEntry.presence = some .present)
          (busy = true → run = refused .busy) ∧
          (busy = false → present = false → run = refused .notFound) ∧
          (busy = false → present = true → ∃ b, 1 ≤ b ∧ b ≤ 255 ∧
            (∃ k ≤ 4, b = Nat.repeat after (k + 1) n.coll.last ∧
              ∀ j, j < k → ∃ e ∈ n.coll.batches, e.number = Nat.repeat after (j + 1) n.coll.last) ∧
            (n.coll.batches.length ≤ 4 → ∀ e ∈ n.coll.batches, e.number ≠ b) ∧
            run = .next (s.replied (Node.offerColl { n with coll := { n.coll with
                batches := n.coll.batches ++ [
                  { station := st, kind := k, state := .asked, number := b, max := max, n := none, received := 0,
                    endSeen := false, cause := none, placed := false,
                    timer := some (n.svc.now + n.set.collectTimeout * 4),
                    acks := if k = .toll then .toll [] else .weather [] }]
                last := b
                counts := { n.coll.counts with begun := bump 65535 n.coll.counts.begun } } }
              { source := n.me, dest := st, length := 1, payload := .collectAsk b k max })
              o (.collect st kind max) .done (.nat b)))))) ∧
    (let freed (m : Node) (f : CollCounts → CollCounts) : Node := { m with coll := { m.coll with
        batches := m.coll.batches.filter fun e => e.number ≠ batch, counts := f m.coll.counts } }
     let bad := decide (batch < 1 ∨ 255 < batch)
     let found := n.coll.batches.find? fun e => e.number = batch
     (Takes s o (.collectConfirm batch) →
      let run := exec (.collectConfirm o batch) s
      let refused (x : Status) : Host.Outcome State Fault Refusal :=
        .next (s.replied n o (.collectConfirm batch) x .nil)
      let done (m : Node) : Host.Outcome State Fault Refusal := .next (s.replied
        (freed m fun k => { k with confirmed := bump 65535 k.confirmed }) o (.collectConfirm batch) .done .nil)
      (bad = true → run = refused .badArgument) ∧ (bad = false → found = none → run = refused .notFound) ∧
      (∀ e, bad = false → found = some e →
        (e.state ≠ .held → run = refused .wrongState) ∧
        (e.state = .held → 0 < e.received → 8 ≤ n.coll.heldH.length → run = refused .busy) ∧
        (e.state = .held → e.received = 0 → run = done n) ∧
        (e.state = .held → 0 < e.received → n.coll.heldH.length < 8 → run = done (n.offerColl
          { source := n.me, dest := e.station, length := messageSlots (.collectAck batch e.acks),
            payload := .collectAck batch e.acks })))) ∧
     (Takes s o (.collectDrop batch) →
      let run := exec (.collectDrop o batch) s
      let refused (x : Status) : Host.Outcome State Fault Refusal :=
        .next (s.replied n o (.collectDrop batch) x .nil)
      (bad = true → run = refused .badArgument) ∧ (bad = false → found = none → run = refused .notFound) ∧
      (∀ e, bad = false → found = some e →
        (e.state ≠ .held → run = refused .wrongState) ∧
        (e.state = .held → run = .next (s.replied
          (freed n fun k => { k with dropped := bump 65535 k.dropped }) o (.collectDrop batch) .done .nil)))))

/-- R142, R154, R166: a COLLECT-ASK at a wayside. Every loan of the kind is cancelled, the oldest items up to the maximum
are LOANED to the batch, and the batch record lists them, unsent, with the next index 1 and no bound loop. For WEATHER
every OPEN segment stays as it is, and of the others the oldest, up to the maximum, are LOANED with the batch number while
the rest are CLOSED, one that was LOANED without its batch number. Of a batch forgotten before, the held entries of the
kind and its BATCH-HEAD and BATCH-END with no slot placed are gone, and every other message stays. Then a BATCH-HEAD, the
placeholder and a BATCH-END are offered, in this order. R32, R167: a holding that reaches the placeholder binds the batch
to its loop; bound to the other loop it can begin no message. The item at the next index goes with its contents, or void
when it is REMOVED or no longer there, if the burst quota allows. Its first slot placed, it is SENT, the next index
advances, and with none left the placeholder leaves the queue. One withdrawn while its item is begun leaves after that
item; that another holding passes it over meanwhile is log entry 38, and the head-end's number log entry 37 (both the
model's). A loop that ceases unbinds the batch. -/
def Obligations.AskLoansTheOldest : Prop :=
  (∀ (n : Node) (l : Loop) (h : Holding) (id j : Nat) (k : CollKind) (rest : List NEntry),
    Node.chooseNormal l h (.batch id k j true :: rest) n = Node.chooseNormal l h rest n ∧
    (∀ b, n.coll.record k = some b →
      let run := Node.chooseNormal l h (.batch id k j false :: rest) n
      let m := n.onColl fun c => c.setRecord k (some { b with bound := some (b.bound.getD l) })
      (b.bound.getD l ≠ l → run = (m, none)) ∧
      (b.bound.getD l = l → nth b.items b.next = none →
        run = Node.chooseNormal l h rest (m.onSvc fun s => s.dropEntry (NEntry.isPlace id))) ∧
      (∀ i mark, b.bound.getD l = l → nth b.items b.next = some (i, mark) →
        let p : Payload := .batchItem b.number k b.items.length b.next
          (if mark = .removed then .void i else (n.itemContents i).getD (.void i))
        let msg : Message :=
          { source := n.me, dest := Config.headEndNumber, length := messageSlots p, payload := p }
        run = (m, if h.started = false ∨ h.quota + messageSlots p ≤ h.burst then
          some { src := .item id k, slots := slotsOf msg } else none)))) ∧
  (∀ (n : Node) (l : Loop) (id : Nat) (k : CollKind) (b : WBatch), n.coll.record k = some b →
    let sent (void : Bool) : Node :=
      let m := n.onColl fun c => (c.setRecord k (some { b with
        items := change (fun x => (x.1, .sent)) b.items b.next, next := b.next + 1 })).countKind k fun a => { a with
          sent := bump 65535 a.sent, voids := if void then bump 65535 a.voids else a.voids }
      if b.items.length ≤ b.next then m.onSvc fun s => s.dropEntry (NEntry.isPlace id) else m
    (∀ (s : Slot) rest number total index i, s.body = .message (.batchItem number k total index i) →
      n.firstPlaced l { src := .item id k, slots := s :: rest } = match i with
        | .void _ => sent true
        | _ => sent false) ∧
    n.messageOver (.item id k) = (n.onSvc fun s => s.dropEntry (NEntry.isLeaving id)) ∧
    (n.coll.unbind l).record k = some { b with bound := if b.bound = some l then none else b.bound }) ∧
  (∀ (batch max : Nat) (s : State), s.node.phase = .started → s.node.isHead = false →
    let n := s.node
    let msg (p : Payload) : Message := { source := n.me, dest := Config.headEndNumber, length := 1, payload := p }
    let offered (m : Node) (k : CollKind) (j : Nat) : State := s.settled
      (((m.offerEntry (.msg k (msg (.batchHead batch k j)))).offerEntry (.batch k batch)).offerEntry
        (.msg k (msg (.batchEnd batch k j))))
    let forgotten (m : Node) (k : CollKind) : Prop :=
      m.coll.heldW = n.coll.heldW.filter (fun e => e.kind ≠ k) ∧
      (∀ e ∈ m.svc.queues.normal, e.unplaced (isBatchEdge k) = false) ∧
      (∀ q, NEntry.msg q ∈ n.svc.queues.normal → NEntry.unplaced (isBatchEdge k) (.msg q) = false →
        NEntry.msg q ∈ m.svc.queues.normal)
    let kept (m : Node) (k : CollKind) (r : Option WBatch) : Prop :=
      (r = none → m.svc.queues = n.svc.queues ∧ m.svc.pool = n.svc.pool ∧ m.coll.heldW = n.coll.heldW) ∧
      (r ≠ none → forgotten m k)
    (∃ m, let t := offered m .toll (n.toll.log.take max).length
      exec (.collectAsk batch .toll max) s = .next t ∧ kept m .toll n.coll.toll ∧ m.svc.wx = n.svc.wx ∧
      t.node.toll.log = (n.toll.log.take max).map (fun r => { r with loan := some batch }) ++
        (n.toll.log.drop max).map (fun r => { r with loan := none }) ∧
      t.node.coll.toll = some
        { number := batch, next := 1, bound := none,
          items := (n.toll.log.take max).map fun r => (.toll r.record.gantry r.record.seq, .unsent) } ∧
      t.node.coll.weather = n.coll.weather ∧
      t.node.coll.counts.toll.asks = bump 65535 n.coll.counts.toll.asks ∧
      t.node.toll.gantries = n.toll.gantries ∧ t.node.call.phones = n.call.phones) ∧
    (let others := n.svc.wx.segments.filter fun (g : Segment) => g.state ≠ .opened
     ∃ m, let t := offered m .weather (others.take max).length
      exec (.collectAsk batch .weather max) s = .next t ∧ kept m .weather n.coll.weather ∧
      m.svc.wx.segments.map (·.number) = n.svc.wx.segments.map (·.number) ∧
      m.svc.wx.segments.filter (fun g => g.state = .opened) =
        n.svc.wx.segments.filter (fun g => g.state = .opened) ∧
      m.svc.wx.segments.filter (fun g => g.state ≠ .opened) =
        (others.take max).map (fun g => { g with state := .loaned, batch := some batch }) ++
        (others.drop max).map (fun g =>
          { g with state := .closed, batch := if g.state = .loaned then none else g.batch }) ∧
      m.svc.wx = { n.svc.wx with segments := m.svc.wx.segments } ∧
      t.node.coll.weather = some
        { number := batch, next := 1, bound := none,
          items := (others.take max).map fun g => (.segment g.number, .unsent) } ∧
      t.node.coll.toll = n.coll.toll ∧ t.node.toll = n.toll ∧
      t.node.coll.counts.weather.asks = bump 65535 n.coll.counts.weather.asks))

/-- R143, R155, R174: a COLLECT-ACK at a wayside. The pairs of a TOLL list are taken in order. A pair whose gantry has
an entry removes the gantry's records up to its sequence and makes C the greater of C and the lesser of the sequence and
A (the entry stays while it has a device or a record, else it is gone); one without an entry is unmatched. (That it is
gone is said of entries with different numbers, with no gantry UNATTACHED, which could be attached then.) The numbers of
a WEATHER list are taken in order. A segment number that no CLOSED or LOANED segment has is unmatched; otherwise the
segment is removed and its buffers are freed. Removed records and segments that were LOANED are marked REMOVED where
they stand in the kind's batch record; its other items stay. A message taken waits no more (log entry 10, the model's).
-/
def Obligations.AckRemovesWhatItNames : Prop :=
  (∀ (batch : Nat) (ps : List (Nat × Nat)) (s : State), s.node.phase = .started → s.node.isHead = false →
    let n := s.node.handOver (isMessage none (.collectAck batch (.toll ps)))
    let y := ackPairs n.trib.devices ps (n.svc, n.toll)
    let gone (x : ItemId) : Bool := y.2.any fun p => decide (x = .toll p.1 p.2)
    exec (.collectAck batch (.toll ps)) s = .next (s.settled { n with
      svc := y.1.1, toll := y.1.2
      coll := { n.coll with toll := n.coll.toll.map fun b => { b with
        items := b.items.map fun x => if gone x.1 then (x.1, .removed) else x } } })) ∧
  (∀ (devices : List Device) (p : Nat × Nat) (ps : List (Nat × Nat)) (x : TollSt),
    ackPairs devices [] x = (x, []) ∧
    (let y := ackPairs devices ps (ackPair devices x p).1
     ackPairs devices (p :: ps) x = (y.1, (ackPair devices x p).2 ++ y.2))) ∧
  (∀ (devices : List Device) (g q : Nat) (x : TollSt),
    let run := ackPair devices x (g, q)
    let named (r : LogRecord) : Bool := r.record.gantry = g && decide (r.record.seq ≤ q)
    let gone := x.2.log.filter named
    (x.2.entry g = none → run = ((x.1, { x.2 with counts :=
      { x.2.counts with unmatched := bump 4294967295 x.2.counts.unmatched } }), [])) ∧
    (∀ e, x.2.entry g = some e →
      run.2 = (gone.filter fun r => r.loan.isSome).map (fun r => (r.record.gantry, r.record.seq)) ∧
      run.1.2.log = x.2.log.filter (fun r => !named r) ∧
      run.1.2.counts.acknowledged = bumpBy 4294967295 gone.length x.2.counts.acknowledged ∧
      run.1.2.counts.unmatched = x.2.counts.unmatched ∧
      (e.device.isSome = true ∨ (∃ r ∈ x.2.log, r.record.gantry = g ∧ q < r.record.seq) →
        run.1.1 = x.1.freeBuffers .toll gone.length ∧ run.1.2.entry g = some { e with c := max e.c (min q e.a) } ∧
        (∀ k, k ≠ g → run.1.2.entry k = x.2.entry k)) ∧
      (e.device = none → (∀ r ∈ x.2.log, r.record.gantry = g → r.record.seq ≤ q) →
        (x.2.gantries.map Gantry.number).Nodup → (∀ d r b, nth x.2.attachments d ≠ some (some (.unattached r b))) →
        run.1.1 = x.1.freeBuffers .toll gone.length ∧ run.1.2.entry g = none ∧
        (∀ k, k ≠ g → run.1.2.entry k = x.2.entry k)))) ∧
  (∀ (batch g q : Nat) (s : State), s.node.phase = .started → s.node.isHead = false →
    let n := s.node
    ∃ t, exec (.collectAck batch (.toll [(g, q)])) s = .next t ∧ t.node.rules = n.rules ∧
      t.node.call.phones = n.call.phones ∧
      (n.toll.entry g = none → t.node.toll.log = n.toll.log ∧ t.node.coll.toll = n.coll.toll ∧
        t.node.toll.counts.unmatched = bump 4294967295 n.toll.counts.unmatched) ∧
      (∀ e, n.toll.entry g = some e →
        (e.device.isSome = true ∨ ∃ r ∈ n.toll.log, r.record.gantry = g ∧ q < r.record.seq) →
        t.node.toll.entry g = some { e with c := max e.c (min q e.a) }) ∧
      (n.toll.entry g ≠ none →
        t.node.toll.log = n.toll.log.filter (fun r => !(r.record.gantry = g && decide (r.record.seq ≤ q))) ∧
        t.node.toll.counts.acknowledged = bumpBy 4294967295
          (n.toll.log.filter fun r => r.record.gantry = g && decide (r.record.seq ≤ q)).length
          n.toll.counts.acknowledged ∧
        (let gone (x : ItemId) : Bool := n.toll.log.any fun r => r.record.gantry = g && decide (r.record.seq ≤ q) &&
           r.loan.isSome && decide (x = .toll r.record.gantry r.record.seq)
         t.node.coll.toll = n.coll.toll.map fun b => { b with
           items := b.items.map fun x => if gone x.1 then (x.1, .removed) else x }))) ∧
  (∀ (batch : Nat) (ks : List Nat) (s : State), s.node.phase = .started → s.node.isHead = false →
    let n := s.node.handOver (isMessage none (.collectAck batch (.weather ks)))
    let y := n.svc.ackSegments ks
    exec (.collectAck batch (.weather ks)) s = .next (s.settled { n with
      svc := y.1
      coll := { n.coll with weather := n.coll.weather.map fun b => { b with
        items := b.items.map fun x => if (y.2.map ItemId.segment).contains x.1 then (x.1, .removed) else x } } })) ∧
  (∀ (s : Svc) (k : Nat) (ks : List Nat), s.ackSegments [] = (s, []) ∧
    (let y := (s.ackSegment k).1.ackSegments ks
     s.ackSegments (k :: ks) = (y.1, (s.ackSegment k).2 ++ y.2))) ∧
  (∀ (k : Nat) (s : Svc),
    (s.wx.segments.find? (fun g => g.number = k && g.state ≠ .opened) = none →
      s.ackSegment k = ({ s with wx := { s.wx with counts :=
        { s.wx.counts with unmatched := bump 4294967295 s.wx.counts.unmatched } } }, [])) ∧
    (∀ g, s.wx.segments.find? (fun g => g.number = k && g.state ≠ .opened) = some g →
      s.ackSegment k = (Svc.freeBuffers { s with wx := { s.wx with
          segments := dropFirst (fun h => h.number = k) s.wx.segments
          counts := { s.wx.counts with acknowledged := bump 4294967295 s.wx.counts.acknowledged } } }
        .weather g.samples.length, if g.state = .loaned then [k] else [])))

/-- R169, R170, R171: the batch messages at the head-end. One that belongs to no entry counts as late. Of one that does,
the entry's timer is started again and n is learned; the item with the next index is received and delivered, an earlier
one is ignored, a later one ends the batch with GAP; the end is marked; an entry with its end seen and all n received is
COMPLETE; when the timer runs out the batch ends with TIMEOUT. A batch that ends is HELD with its timer stopped, and its
result joins the delivery queue. How many frames an item makes (`itemFrames`) is log entry 26, and that the ask of an
entry which ends stays as it was log entry 92 (both the model's). -/
def Obligations.BatchMessagesGather : Prop :=
  ∀ (src batch count index : Nat) (k : CollKind) (i : Item) (s : State), s.node.phase = .started →
    s.node.isHead = true →
    let n := s.node
    let runHead := exec (.batchHead src batch k count) s
    let runItem := exec (.batchItem src batch k count index i) s
    let runEnd := exec (.batchEnd src batch k count) s
    (n.coll.entryOf src batch k = none →
      let late (run : Host.Outcome State Fault Refusal) : Prop := ∃ t, run = .next t ∧
        t.node.coll.batches = n.coll.batches ∧ t.node.coll.delivery = n.coll.delivery ∧
        t.node.coll.counts = { n.coll.counts with late := bump 65535 n.coll.counts.late }
      late runHead ∧ late runItem ∧ late runEnd) ∧
    (∀ e, n.coll.entryOf src batch k = some e →
      let m := e.n.getD count
      let e' : BatchEntry := { e with timer := some (n.svc.now + n.set.collectTimeout * 4), n := some m }
      let becomes (run : Host.Outcome State Fault Refusal) (x : BatchEntry) (more : List DataFrame) : Prop :=
        ∃ t, run = .next t ∧
          t.node.coll.batches = n.coll.batches.map (fun y => if y.number = batch then x else y) ∧
          t.node.coll.delivery = n.coll.delivery ++ more ∧ t.node.head = n.head ∧ t.node.call.table = n.call.table
      let ended (x : BatchEntry) (c : BatchCause) : BatchEntry :=
        { x with state := .held, cause := some c, timer := none }
      let result (x : BatchEntry) (c : BatchCause) : DataFrame :=
        .result x.station x.number x.kind x.n x.received (x.n.map fun k => k - x.received) c
      let got : BatchEntry := { e' with received := e.received + 1, state := .receiving, acks := addAck e.acks i }
      (e.endSeen = false →
        becomes runHead e' [] ∧
        (index = e.received + 1 → becomes runItem got (itemFrames e.station e.number e.kind m index i)) ∧
        (index ≤ e.received → becomes runItem e' []) ∧
        (e.received + 1 < index → becomes runItem (ended e' .gap) [result e' .gap])) ∧
      (e.received = m → becomes runEnd (ended { e' with endSeen := true } .complete) [result e' .complete]) ∧
      (e.received ≠ m → becomes runEnd { e' with endSeen := true } []) ∧
      (e.endSeen = true → index = e.received + 1 → index = m → becomes runItem (ended got .complete)
        (itemFrames e.station e.number e.kind m index i ++ [result got .complete]))) ∧
    (∀ e, n.coll.batches.find? (fun e => e.number = batch) = some e → due n.svc.now e.timer = true →
      ∃ t, exec (.batchTimerExpiry batch) s = .next t ∧
        t.node.coll.batches = n.coll.batches.map (fun y => if y.number = batch then
          { y with state := .held, cause := some .timeout, timer := none } else y) ∧
        t.node.coll.delivery = n.coll.delivery ++ [.result e.station batch e.kind e.n e.received
          (e.n.map fun k => k - e.received) .timeout] ∧ t.node.call.table = n.call.table)

/-! ## Notices, the host link and the hold (10) -/

/-- R176–R183: notices. A notice whose code is routed nowhere is not kept; one that finds 256 entries sets the overflow
flag and counts as lost; any other is appended, and with CENTRE in its set a wayside looks for centre delivery: with
fewer than two of its messages waiting it offers the oldest entries for the centre, four at most, and they leave when
the offer is taken. The queue's law (`NotesOk`: at most 256 entries, each with a destination) goes on. The sender takes
the oldest entry for the host with NOTICE-PUSH on. The entries of a NOTICE-FWD join the head-end's queue with the sender
as their source, for the host alone, as far as the queue takes them; the rest count as lost. NOTICE-READ outside 1 to 8
is BAD-ARGUMENT, from L it tells the oldest entries that wait for the host and they wait no more, from C nothing is
taken away; NOTICE-CLEAR clears the flag and the lost count and tells the count as it stood; NOTICE-ROUTE-SET changes
one code's routing; when the attention pause ends the line follows the queue again, and a pause that is not due goes on
(log entry 1, the model's). A NOTICE-FWD taken waits no more (log entry 10), the head-end's number is log entry 37, and
the frame number advances when its frame is begun (log entry 101; all the model's). -/
def Obligations.NoticesAreKeptAndRead : Prop :=
  (∀ (src : Nat) (l : List Notice) (s : State), s.node.phase = .started → s.node.isHead = true →
    let n := s.node.handOver (isMessage (some src) (.noticeFwd l))
    let room := 256 - n.svc.note.queue.length
    let joins := (l.take room).map fun e =>
      { e with source := src, received := true, toHost := true, toCentre := false }
    exec (.noticeFwd src l) s = .next (s.settled { n with svc := { n.svc with note := { n.svc.note with
      queue := n.svc.note.queue ++ joins
      attention := if joins = [] then n.svc.note.attention else n.svc.note.pauseUntil.isNone
      overflow := n.svc.note.overflow || decide (room < l.length)
      lost := Nat.repeat (bump 65535) (l.length - room) n.svc.note.lost } } })) ∧
  (∀ (o : Origin) (count : Nat) (s : State), Takes s o (.noticeRead count) →
    let n := s.node
    let run := exec (.noticeRead o count) s
    let host := n.svc.note.queue.filter (·.toHost)
    let v : Value := .cons (.list ((host.take count).map noticeReport))
      (.list [.nat (host.length - count), .flag n.svc.note.overflow, .nat n.svc.note.lost])
    (count < 1 ∨ 8 < count → run = .next (s.replied n o (.noticeRead count) .badArgument .nil)) ∧
    (1 ≤ count → count ≤ 8 →
      (∀ f, o = .centre f → run = .next (s.replied n o (.noticeRead count) .done v)) ∧
      (∀ tag, o = .link tag → ∃ m, run = .next (s.replied m o (.noticeRead count) .done v) ∧
        m.svc.note.queue.filter (·.toHost) = host.drop count ∧
        (m.svc.note.queue.filter (·.toCentre)).map (fun e => { e with toHost := false }) =
          (n.svc.note.queue.filter (·.toCentre)).map (fun e => { e with toHost := false }) ∧
        m.svc.note.lost = n.svc.note.lost ∧ m.svc.note.overflow = n.svc.note.overflow ∧
        m.svc.note.pauseUntil = (if n.set.attentionPulse && decide (count < host.length) then
          some (n.svc.now + 200) else n.svc.note.pauseUntil) ∧
        m.attentionLine = (m.svc.note.pauseUntil.isNone && decide (count < host.length)) ∧
        m.link = n.link ∧ m.call = n.call ∧ m.zone = n.zone ∧ m.toll = n.toll ∧ m.coll = n.coll))) ∧
  (∀ (o : Origin) (s : State), Takes s o .noticeClear →
    let n := s.node
    exec (.noticeClear o) s = .next (s.replied { n with svc := { n.svc with
      note := { n.svc.note with overflow := false, lost := 0 } } } o .noticeClear .done (.nat n.svc.note.lost))) ∧
  (∀ (o : Origin) (c : Option NoticeCode) (h x : Bool) (s : State), Takes s o (.noticeRouteSet c h x) →
    let n := s.node
    let run := exec (.noticeRouteSet o c h x) s
    (c = none → run = .next (s.replied n o (.noticeRouteSet c h x) .badArgument .nil)) ∧
    (∀ k, c = some k → run = .next (s.replied { n with svc := { n.svc with settings := { n.svc.settings with
      routes := n.svc.settings.routes.map fun r => if r.code = k then { code := k, host := h, centre := x } else r } } }
      o (.noticeRouteSet c h x) .done .nil))) ∧
  (∀ s : State, s.node.phase = .started →
    let n := s.node
    exec .attentionPauseExpiry s = .next (s.settled
      (if due n.svc.now n.svc.note.pauseUntil then { n with svc := { n.svc with note := { n.svc.note with
        pauseUntil := none, attention := n.svc.note.queue.any (·.toHost) } } } else n))) ∧
  (∀ (s : Svc) (c : NoticeCode) (b : Subject) (d : List Value),
    let r := s.settings.route c
    let head := decide (s.settings.role = .headEnd)
    let e : Notice :=
      { code := c, source := s.settings.station, received := false, subject := b, time := s.time, details := d,
        toHost := r.host || (head && r.centre), toCentre := r.centre && !head }
    let q := s.note.queue ++ [e]
    let kept : Svc := { s with note := { s.note with
      queue := q, attention := s.note.pauseUntil.isNone && q.any (·.toHost) } }
    let waits := e.toHost || e.toCentre
    ((s.note.keep = false ∨ waits = false) → s.post c b d = s) ∧
    (s.note.keep = true → waits = true → 256 ≤ s.note.queue.length → s.post c b d =
      { s with note := { s.note with overflow := true, lost := bump 65535 s.note.lost } }) ∧
    (s.note.keep = true → waits = true → s.note.queue.length < 256 →
      (e.toCentre = false → s.post c b d = kept) ∧
      (e.toCentre = true → s.post c b d = Svc.lookCentre 2 kept)) ∧
    (NotesOk s.note → NotesOk (s.post c b d).note)) ∧
  (∀ (s : Svc) (fuel : Nat),
    let es := (s.note.queue.filter (·.toCentre)).take 4
    let m : Message := { source := s.settings.station, dest := Config.headEndNumber,
                         length := slotsFor (1 + (es.map fun e => 12 + 4 * e.details.length).sum), payload := .noticeFwd es }
    let offer := s.offerNormal m
    let taken : Note := { offer.1.note with queue := serveCentre es.length offer.1.note.queue }
    let idle := decide (s.settings.role = .headEnd ∨ es = [] ∨
      2 ≤ (s.queues.normal.filter NEntry.isNoticeFwd).length)
    (idle = true → Svc.lookCentre fuel s = s) ∧
    (idle = false → offer.2 = false → Svc.lookCentre (fuel + 1) s = offer.1) ∧
    (idle = false → offer.2 = true → Svc.lookCentre (fuel + 1) s =
      Svc.lookCentre fuel { offer.1 with note := { taken with
        attention := taken.pauseUntil.isNone && taken.queue.any (·.toHost) } })) ∧
  (∀ (t : Note) (k : Nat) (src : Nat) (e : Notice), NotesOk t →
    NotesOk { t with queue := serveHost k t.queue } ∧ NotesOk { t with queue := serveCentre k t.queue } ∧
    NotesOk (t.receive src e)) ∧
  (∀ (n : Node), n.link.running = true → n.link.sending = none → n.restartDue = false → n.link.replies = [] →
    n.coll.delivery = [] →
    let next := n.svc.note.queue.find? (·.toHost)
    (n.set.noticePush = false ∨ next = none → n.sendNext = n) ∧
    (∀ e, n.set.noticePush = true → next = some e →
      n.sendNext.link = { n.link with
        sending := some (.notice n.link.noticeNo (if e.received then e.source else 0) e n.svc.note.overflow)
        lastNotice := some true, noticeNo := (n.link.noticeNo + 1) % 256 } ∧
      n.sendNext.svc.note.queue.filter (·.toHost) = (n.svc.note.queue.filter (·.toHost)).drop 1 ∧
      (n.sendNext.svc.note.queue.filter (·.toCentre)).map (fun e => { e with toHost := false }) =
        (n.svc.note.queue.filter (·.toCentre)).map (fun e => { e with toHost := false }) ∧
      n.sendNext.svc.queues = n.svc.queues ∧ n.sendNext.svc.pool = n.svc.pool))

/-- R184, R185, R186, R171, R195: the host link. A frame in its layout is received whole, whatever stands behind it.
Bytes that arrive join those gathered: with no start marker in front the receiver hunts on behind the first byte, a body
length above 240 is counted and the hunt goes on behind the start marker, what is not yet whole is gathered on, and
behind a frame whose CRC-16 fails or whose kind is not COMMAND the receiver goes on with the rest (DEDUCED, log entry
29). 40 cycle periods without a byte discard what is gathered. A COMMAND frame with station field 0 acts as its command
does on L, one more valid frame counted and a running hold lapse started again; an unknown code is UNKNOWN-COMMAND. A
frame sent whole frees the sender: a DATA frame leaves the delivery queue, the reply of a RESTART lets a start begin.
R185: a free sender of a running link begins the oldest REPLY (while its gap lasts, nothing: log entry 27, DEDUCED);
with none, a NOTICE that the push setting lets out and a DATA frame take turns, which of them is first being open (log
entry 28), or the one that waits goes; its number is the running one, which then advances (when it is begun: log entry
101, the model's). The oldest reply gap passes; a gap is known by its tag (log entry 84), and what a body spells is log
entry 7 (both the model's). That a command's own row, or FORWARD, is no frame and does none of this is log entry 83 (the
model's choice). -/
def Obligations.HostFramesComeAndGo : Prop :=
  (∀ (kind tag station : Nat) (code : Byte) (body rest : List Byte), kind < 256 → tag < 256 → station < 65536 →
    body.length ≤ 240 → receive (frameBytes kind tag station code body ++ rest) = .frame
      { kind := kind, tag := tag, station := station, code := code, body := body, good := true } rest) ∧
  (∀ (bytes : List Byte) (s : State), s.node.phase = .started →
    let n := s.node
    let run := exec (.hostFrameReceived bytes) s
    let all := n.link.gather ++ bytes
    let hunting : Node := { n with link := { n.link with gather := [] } }
    let short : Node := { n with link := { n.link with badLength := bump 65535 n.link.badLength, gather := [] } }
    let crc : Node := { n with link := { n.link with badCrc := bump 65535 n.link.badCrc, gather := [] } }
    let valid : Node := { n with
      link := { n.link with valid := bump 65535 n.link.valid, gather := [] }
      cmd := { n.cmd with lapse :=
        if n.cmd.held then some (n.svc.now + n.set.holdLapse * 4000) else n.cmd.lapse } }
    let goesOn (rest : List Byte) (m : Node) : Host.Outcome State Fault Refusal :=
      exec (.hostFrameReceived rest) { s with node := m }
    (bytes = [] → run = .next (s.settled n)) ∧
    (bytes ≠ [] →
      (∀ rest, receive all = .hunting rest → run = goesOn rest hunting) ∧
      (receive all = .gathering → run = .next (s.settled
        { n with link := { n.link with gather := all, gatherAt := n.svc.now } })) ∧
      (∀ rest, receive all = .wrongLength rest → run = goesOn rest short) ∧
      (∀ f rest, receive all = .frame f rest → f.good = false → run = goesOn rest crc) ∧
      (∀ f rest, receive all = .frame f rest → f.good = true → f.kind ≠ 1 → run = goesOn rest
        { valid with link := { valid.link with wrongKind := bump 65535 valid.link.wrongKind } }) ∧
      (∀ f, receive all = .frame f [] → f.good = true → f.kind = 1 →
        let taken : Node := if 0 < n.set.replyGap then
          { valid with link := { valid.link with gaps := valid.link.gaps ++ [f.tag] } } else valid
        let answer (p : Parsed) (st : Status) : Host.Outcome State Fault Refusal :=
          .next (s.settled (taken.replyTo (.link f.tag) p st .nil))
        (∀ i c, f.station = 0 → Config.parseCommand f.code f.body = .command c →
          rowCommand i = some (.link f.tag, c) → run = exec i { s with node := taken }) ∧
        (∀ p, f.station = 0 → Config.parseCommand f.code f.body = p → n.cmd.chanL ≠ none → run = answer p .busy) ∧
        (f.station = 0 → Config.parseCommand f.code f.body = .unknown → n.cmd.chanL = none →
          run = answer .unknown .unknownCommand) ∧
        (∀ p, f.station ≠ 0 → Config.parseCommand f.code f.body = p →
          run = exec (.forward f.tag f.station p) { s with node := taken }))) ∧
    exec .frameGapTimeout s = .next (s.settled
      (if n.link.gather ≠ [] ∧ 40 ≤ n.svc.now - n.link.gatherAt then short else n)) ∧
    exec .badLength s = .next (s.settled short)) ∧
  (∀ s : State, s.node.phase = .started →
    let n := s.node
    let free : Node := { n with link := { n.link with sending := none } }
    (n.link.sending = none → exec .frameSent s = .next (s.settled n)) ∧
    (∀ k st e f, n.link.sending = some (.notice k st e f) → exec .frameSent s = .next (s.settled free)) ∧
    (∀ k f, n.link.sending = some (.data k f) → exec .frameSent s = .next (s.settled
      { free with coll := { n.coll with delivery := n.coll.delivery.drop 1 } })) ∧
    (∀ r, n.link.sending = some (.reply r) → exec .frameSent s = .next (s.settled
      (if r.restart then { free with restartDue := true } else free))) ∧
    exec .linkReplyGapEnds s = .next (s.settled { n with link := { n.link with gaps := n.link.gaps.drop 1 } })) ∧
  (∀ n : Node,
    let k := n.link
    let run := n.sendNext
    let push := if n.set.noticePush then n.svc.note.queue.find? (·.toHost) else none
    let data (f : DataFrame) : Prop := run = { n with link :=
      { k with sending := some (.data k.dataNo f), lastNotice := some false, dataNo := (k.dataNo + 1) % 256 } }
    let notice (e : Notice) : Prop := run.coll = n.coll ∧ run.link = { k with
      sending := some (.notice k.noticeNo (if e.received then e.source else 0) e n.svc.note.overflow)
      lastNotice := some true, noticeNo := (k.noticeNo + 1) % 256 }
    (k.running = false ∨ k.sending ≠ none ∨ n.restartDue = true → run = n) ∧
    (k.running = true → k.sending = none → n.restartDue = false →
      (∀ r rest, k.replies = r :: rest → run = if r.tag ∈ k.gaps then n else
        { n with link := { k with replies := rest, sending := some (.reply r) } }) ∧
      (k.replies = [] →
        (push = none → n.coll.delivery = [] → run = n) ∧
        (∀ f rest, push = none → n.coll.delivery = f :: rest → data f) ∧
        (∀ e, push = some e → n.coll.delivery = [] → notice e) ∧
        (∀ e f rest, push = some e → n.coll.delivery = f :: rest →
          (k.lastNotice = some true → data f) ∧ (k.lastNotice = some false → notice e) ∧
          (k.lastNotice = none → data f ∨ notice e)))))

/-- R187, R188: the maintenance hold. MAINT-HOLD begins it with HOLD-STATE posted and the lapse timer running, or
starts the timer again; MAINT-END ends it with HOLD-STATE posted and the timer stopped; a lapse ends it with
HOLD-LAPSED posted; HOLD-RELEASE-ASK posts HOLD-ASKED while HELD and leaves the hold as it is. Each command is replied
DONE. -/
def Obligations.MaintenanceHoldBeginsAndEnds : Prop :=
  ∀ (o : Origin) (s : State),
    let n := s.node
    let lapse := some (n.svc.now + n.set.holdLapse * 4000)
    let set (held : Bool) (x : Option Nat) : Node := { n with cmd := { n.cmd with held := held, lapse := x } }
    (Takes s o .maintHold → exec (.maintHold o) s = .next (s.replied
      (if n.cmd.held then set true lapse
      else (set true lapse).post .holdState .none [.hold true, .byCommand]) o .maintHold .done .nil)) ∧
    (Takes s o .maintEnd → exec (.maintEnd o) s = .next (s.replied
      (if n.cmd.held then (set false none).post .holdState .none [.hold false, .byCommand] else n)
      o .maintEnd .done .nil)) ∧
    (n.phase = .started → n.cmd.held = true → due n.svc.now n.cmd.lapse = true →
      exec .holdLapseExpiry s = .next (s.settled ((set false none).post .holdLapsed .none []))) ∧
    (Takes s o .holdReleaseAsk → exec (.holdReleaseAsk o) s = .next (s.replied
      (if n.cmd.held then n.post .holdAsked .none [] else n) o .holdReleaseAsk .done (.hold n.cmd.held)))

/-! ## Stored settings (11) -/

/-- R190, R195: SETTING-WRITE and RESTART. An unknown item, or ADD or REMOVE of a number, is BAD-ARGUMENT; an item of
the other role WRONG-ROLE; a next-start item WRONG-STATE; a value not of its item's form, or a candidate out of range,
BAD-ARGUMENT. A candidate in range is taken by the item's block while the command is in progress, and the row is replied
with the outcome; a list that takes no device with an exchange or a command off its line leaves the channels alone. A
number in its range becomes the working value; ADD and REMOVE of a set add and remove its members. A list's candidate:
SET is the records given (two with one key: BAD-ARGUMENT), ADD puts each in, in place of one of its key, REMOVE drops
those of its keys, or puts fixed places back at their defaults. That SET leaves unnamed fixed places at their defaults,
what a key outside them does, and PULSE-PATTERN's operations are log entry 30 (deduced). PORT-ZONES, PULSE-PATTERN and
NOTICE-ROUTES change their setting alone. Some numbers act besides. R15, R17: a wait-to-restore of 0 makes a running
timer expire at once: a wayside becomes THROUGH, the head-end's origin EAST. R71: the voice cap is WRONG-STATE while a
slot above it is held (with no call waiting nothing else changes). R145: the toll high mark is compared with the log at
once. R150: a new SEGMENT-LENGTH closes the OPEN segments that have reached it, and the others go on. R163: a batch
limit below the batch entries is WRONG-STATE. RESTART is DONE once the host link runs, WRONG-STATE before. The ranges of
the on-or-off items, and the unit of FORWARD-TIMEOUT, are log entry 18 (the model's). -/
def Obligations.SettingWritesAndRestart : Prop :=
  (∀ (o : Origin) (item : Nat) (v : SettingValue) (s : State),
    let n := s.node
    let writes (op : SettingOp) (i : Instr) : Prop :=
      Takes s o (.settingWrite op item v) →
      let run := exec i s
      let answer (m : Node) (st : Status) : Host.Outcome State Fault Refusal :=
        .next (s.replied m o (.settingWrite op item v) st .nil)
      (isItem item = false ∨ (numberRange item).isSome = true ∧ op ≠ .set → run = answer n .badArgument) ∧
      (isItem item = true → ((numberRange item).isSome = true → op = .set) →
        (otherRole n.set.role item = true → run = answer n .wrongRole) ∧
        (otherRole n.set.role item = false → nextStart item = true → run = answer n .wrongState) ∧
        (otherRole n.set.role item = false → nextStart item = false →
          (SettingValue.fits item op v = false → run = answer n .badArgument) ∧
          (let c := candidate n.set n.svc.pool.bounds item op v
           (c = none → run = answer n .badArgument) ∧
           (∀ x, c = some x → x.inRange item = false → run = answer n .badArgument) ∧
           (∀ x, c = some x → x.inRange item = true →
             let p : InProgress := { origin := o, cmd := .settingWrite op item v }
             let t := (n.onCmd fun k => k.setChannel o (some p)).takeValue item x
             let y := n.takeValue item x
             run = .next (s.settled (t.1.endCommand o t.2 .nil)) ∧
             (numberRange item = none → (item ≠ 40 ∧ item ≠ 41 ∨
               ∀ d w, n.device d = some w → w.exchange = none ∧ w.commands = []) → run = answer y.1 y.2))) ∧
          (∀ x low high, v = .number x → numberRange item = some (low, high) → x < low ∨ high < x →
            run = answer n .badArgument) ∧
          (∀ x low high, v = .number x → numberRange item = some (low, high) → low ≤ x → x ≤ high →
            item ∉ [11, 13, 60, 70, 80] → run = answer (n.onSettings fun w => w.withNumber item x) .done) ∧
          (∀ l, v = .beacons l → item = 32 → (∀ b ∈ l, 1 ≤ b ∧ b ≤ 4) → (∀ b ∈ n.set.pulseBeacons, 1 ≤ b ∧ b ≤ 4) →
            ∃ l', run = answer (n.onSettings fun w => { w with pulseBeacons := l' }) .done ∧
              ∀ b, b ∈ l' ↔ match op with
                | .set => b ∈ l
                | .add => b ∈ n.set.pulseBeacons ∨ b ∈ l
                | .remove => b ∈ n.set.pulseBeacons ∧ b ∉ l) ∧
          (∀ l, v = .actions l → item = 31 →
            ∃ l', run = answer (n.onSettings fun w => { w with releaseActions := l' }) .done ∧
              ∀ x, x ∈ l' ↔ match op with
                | .set => x ∈ l
                | .add => x ∈ n.set.releaseActions ∨ x ∈ l
                | .remove => x ∈ n.set.releaseActions ∧ x ∉ l) ∧
          (∀ x low high, v = .number x → numberRange item = some (low, high) → low ≤ x → x ≤ high →
            let set (w : Settings) : Settings := w.withNumber item x
            let restoring := if n.isHead then n.head.restoring else n.ring.restoring
            (item = 11 → (x ≠ 0 ∨ restoring = false) → run = answer (n.onSettings set) .done) ∧
            (item = 11 → x = 0 → restoring = true → ∃ m, run = answer m .done ∧ m.set = set n.set ∧
              (n.isHead = true → m.head.origin = .east ∧ m.head.restoring = false ∧ m.head.timer = none) ∧
              (n.isHead = false → m.ring.attach = .through ∧ m.ring.restoring = false ∧ m.ring.timer = none)) ∧
            (item = 13 → (n.call.table.any fun e => e.slot.any fun k => x < k && k ≤ 24) = true →
              run = answer n .wrongState) ∧
            (item = 13 → (n.call.table.any fun e => e.slot.any fun k => x < k && k ≤ 24) = false →
              n.call.waiting = [] → run = answer (n.onSettings set) .done) ∧
            (item = 60 → ∃ m, run = answer m .done ∧ m.set = set n.set ∧ m.toll.log = n.toll.log ∧
              m.toll.high = (if x < n.toll.log.length then true
                else if n.toll.log.length ≤ x - 32 then false else n.toll.high)) ∧
            (item = 70 → ∃ m, run = answer m .done ∧ m.set = set n.set ∧
              (∀ h ∈ m.svc.wx.segments, h.state = .opened → h.samples.length < x) ∧
              (∀ g ∈ n.svc.wx.segments, g.state = .opened → g.samples.length < x →
                (∀ h ∈ n.svc.wx.segments, h.number = g.number → h = g) →
                ∃ h ∈ m.svc.wx.segments, h.number = g.number ∧ h.state = .opened ∧ h.samples = g.samples) ∧
              ((∀ g ∈ n.svc.wx.segments, g.state = .opened → g.samples.length < x) → m = n.onSettings set)) ∧
            (item = 80 → x < n.coll.batches.length → run = answer n .wrongState) ∧
            (item = 80 → n.coll.batches.length ≤ x → run = answer (n.onSettings set) .done))))
    writes .set (.settingWriteSet o item v) ∧ writes .add (.settingWriteAdd o item v) ∧
    writes .remove (.settingWriteRemove o item v) ∧
    (Takes s o .restart → exec (.restart o) s = .next (s.replied n o .restart
      (if n.link.running then .done else .wrongState) .nil))) ∧
  (∀ (w : Settings) (b : List ClassBounds),
    let made (item : Nat) (op : SettingOp) (v : SettingValue) : Option Candidate := candidate w b item op v
    let first := Settings.default
    FixedPlaces w b 21 .portZones .zones first.portZones w.portZones ∧
    FixedPlaces w b 40 .remap .remap first.remap w.remap ∧
    FixedPlaces w b 41 (fun l => .kinds (l.map fun x => (x.1, some x.2))) .kinds first.kinds w.kinds ∧
    FixedPlaces w b 44 .roster .roster first.roster w.roster ∧
    FixedPlaces w b 45 .outputs .outputs first.outputs w.outputs ∧
    FixedPlaces w b 46 .inputs .inputs first.inputs w.inputs ∧
    FixedPlaces w b 71 .rules .rules first.rules w.rules ∧
    (∀ op l, (∃ x ∈ l, x.2 = none) → made 41 op (.kinds l) = none) ∧
    (∀ l, made 33 .set (.pattern l) = some (.pattern l) ∧
      made 33 .add (.pattern l) = some (.pattern [l.getLast?.getD w.pulsePattern])) ∧
    (∀ ks : List SettingKey, made 33 .remove (.keys ks) = some (.pattern (if ks = [] then [w.pulsePattern] else []))) ∧
    (∀ l, made 34 .set (.bindings l) = some (.bindings l) ∧ ∃ r, made 34 .add (.bindings l) = some (.bindings r) ∧
      ∀ x, x ∈ r ↔ (l.filter fun y => bindingKey y = bindingKey x).getLast? = some x ∨
        (x ∈ w.bindings ∧ ∀ y ∈ l, bindingKey y ≠ bindingKey x)) ∧
    (∀ ks : List SettingKey, made 34 .remove (.keys ks) =
      some (.bindings (w.bindings.filter fun x => decide (bindingKey x ∉ ks)))) ∧
    (∀ l, made 50 .set (.classes l) = some (.classes l) ∧
      made 50 .add (.classes l) = some (.classes (b.map fun x => lastFor ClassBounds.cls l x.cls x))) ∧
    (∀ cs : List PoolClass, made 50 .remove (.keys (cs.map .cls)) = some (.classes (b.map fun x =>
      if x.cls ∈ cs then (boundsFor defaultBounds x.cls).getD x else x))) ∧
    (∀ ks : List SettingKey, (∃ k ∈ ks, ∀ c, k ≠ .cls c) → made 50 .remove (.keys ks) = none) ∧
    (∀ l, (¬(l.map Route.code).Nodup → made 90 .set (.routes l) = none) ∧
      ((l.map Route.code).Nodup → made 90 .set (.routes l) =
        some (.routes (first.routes.map fun x => lastFor Route.code l x.code x))) ∧
      made 90 .add (.routes l) = some (.routes (w.routes.map fun x => lastFor Route.code l x.code x))) ∧
    (∀ cs : List NoticeCode, made 90 .remove (.keys (cs.map .code)) =
      some (.routes (w.routes.map fun x => if x.code ∈ cs then defaultRoute x.code else x))) ∧
    (∀ ks : List SettingKey, (∃ k ∈ ks, ∀ c, k ≠ .code c) → made 90 .remove (.keys ks) = none)) ∧
  (∀ n : Node,
    (∀ l, n.takeValue 21 (.zones l) = (n.onSettings fun w => { w with portZones := l }, .done) ∧
      (Candidate.inRange 21 (.zones l) = true ↔ ∀ z ∈ l, z ≤ 8)) ∧
    (∀ p, n.takeValue 33 (.pattern [p]) = (n.onSettings fun w => { w with pulsePattern := p }, .done)) ∧
    (∀ l, Candidate.inRange 33 (.pattern l) = true ↔
      ∃ x y, l = [(x, y)] ∧ 1 ≤ x ∧ x ≤ 255 ∧ 1 ≤ y ∧ y ≤ 255) ∧
    (∀ l, n.takeValue 90 (.routes l) = (n.onSettings fun w => { w with routes := l }, .done) ∧
      Candidate.inRange 90 (.routes l) = true))

/-- R192: STORE-APPEND of a record whose length or check is wrong is BAD-ARGUMENT, of one that does not fit STORE-FULL;
one that the working settings refuse is answered so, and leaves everything but what POOL did for it; one they take is
written, the command in progress until STORE_WRITE_DONE (log entry 32, the model's). When it has been written, its bytes
stand from the end of the records on, every other byte is as it was, and the command is replied DONE with the new end
and what is left. A next-start item's record is checked against its range alone, any other acts as SETTING-WRITE would
(R190), but one of the other role, which is only checked; neither of the two changes a working value. R194 step 4: at a
start a record that is not whole, is refused or has an unknown operation is skipped, which but for the count changes
nothing (POOL's counts neither: log entry 109, the model's), any other applied. Step 3: the stored value of a next-start
item is that of its last sound record in range, else its default. That such a record's value is read as SET's whatever
its operation, and what one of unknown operation does, is log entry 93 (the model's choice). R78, R99, R127, R159: what
the list-valued items' blocks refuse (more than 32 bindings, a bad or repeated one, no SIGN buffers: NO-ROOM; a line
outside 1–8 or given twice; the pool's checks; a rule out of range), and what they take: R190's write takes a candidate
in range, R78's lost sign bindings give up their buffers (R85), and every sign and beacon that the old table or the new
one names works out again (their order is log entry 80, the model's); R159's changed rules start CLEAR, an old tripped
one is told, and R158 is applied once, after all (log entry 117, the model's). -/
def Obligations.StoredRecordsAreWritten : Prop :=
  (∀ (o : Origin) (r : List Byte) (s : State), Takes s o (.storeAppend r) →
    let n := s.node
    let run := exec (.storeAppend o r) s
    let refused (st : Status) : Host.Outcome State Fault Refusal := .next (s.replied n o (.storeAppend r) st .nil)
    (recordOk r = false → run = refused .badArgument) ∧
    (recordOk r = true → 4096 < storeEnd s.store + r.length → run = refused .storeFull) ∧
    (recordOk r = true → storeEnd s.store + r.length ≤ 4096 →
      let x := (n.onCmd fun k => k.setChannel o (some { origin := o, cmd := .storeAppend r })).takeStored r
      (x.2 = .done → run = .next (s.settled { x.1 with writing := some r })) ∧
      (x.2 ≠ .done → run = .next (s.replied { n with svc := x.1.svc } o (.storeAppend r) x.2 .nil)))) ∧
  (∀ (r : List Byte) (s : State), s.node.writing = some r → StoreOk s →
    storeEnd s.store + r.length ≤ 4096 → (∀ a, storeEnd s.store ≤ a → readByte s.store a = none) →
    ∃ t, exec .storeWriteDone s = .next t ∧ t.node.writing = none ∧ StoreOk t ∧
      (∀ k, k < r.length → readByte t.store (storeEnd s.store + k) = r[k]?) ∧
      (∀ a, a < storeEnd s.store ∨ storeEnd s.store + r.length ≤ a → readByte t.store a = readByte s.store a) ∧
      t.node.set = s.node.set ∧ t.node.svc.time = s.node.svc.time ∧
      (∀ tag, s.node.cmd.chanL = some { origin := .link tag, cmd := .storeAppend r } →
        t.node.cmd.chanL = none ∧ t.node.replying
          { tag := tag, station := 0, cmd := .command (.storeAppend r), status := .done, restart := false,
            result := .list [.nat (storeEnd t.store), .nat (4096 - storeEnd t.store)] })) ∧
  (∀ (mem : Memory) (n : Node) (x : Nat × Nat),
    (soundRecord mem x = none → Node.startRecord mem n x = { n with skipped := n.skipped + 1 }) ∧
    (∀ r, soundRecord mem x = some r →
      let t := n.takeStored r
      let known := (recordFields r).any fun x => decide (1 ≤ x.2.1 ∧ x.2.1 ≤ 3)
      (t.2 = .done → known = true → Node.startRecord mem n x = { t.1 with applied := t.1.applied + 1 }) ∧
      (t.2 ≠ .done ∨ known = false → Node.startRecord mem n x = { n with skipped := n.skipped + 1 }))) ∧
  (∀ (n : Node) (r value : List Byte) (item opByte : Nat), recordFields r = some (item, opByte, value) →
    let t := n.takeStored r
    let given (v : Nat) : Prop := Config.parseSetting item .set value = .number v ∧
      ∃ low high, numberRange item = some (low, high) ∧ low ≤ v ∧ v ≤ high
    (nextStart item = true → t.1 = n ∧ (t.2 = .done ∨ t.2 = .badArgument) ∧ (t.2 = .done ↔ ∃ v, given v)) ∧
    (∀ k v, recordValue k r = some v ↔ item = k ∧ given v) ∧
    (nextStart item = false →
      (recordOp opByte = none → t = (n, .badArgument)) ∧
      (∀ op, recordOp opByte = some op →
        let w := n.settingWrite item op (Config.parseSetting item op value)
        (otherRole n.set.role item = false → t = (w.1, w.2.1)) ∧ (otherRole n.set.role item = true → t.1 = n)))) ∧
  (∀ (mem : Memory) (item : Nat),
    let l := (storeRecords mem).1.filterMap fun x => (soundRecord mem x).bind (recordValue item)
    storedValue mem item = l.getLast?.getD (Settings.default.number item)) ∧
  (∀ (n : Node) (l : List (Option Nat)),
    let lines := l.filterMap id
    let ok := (∀ k ∈ lines, 1 ≤ k ∧ k ≤ 8) ∧ lines.Nodup
    let t := n.takeValue 40 (.remap l)
    (¬ok → t = (n, .badArgument)) ∧ (ok → t.2 = .done ∧ t.1.set = { n.set with remap := l })) ∧
  (∀ (n : Node) (l : List DeviceKind),
    let t := n.takeValue 41 (.kinds l)
    t.2 = .done ∧ t.1.set = { n.set with kinds := l }) ∧
  (∀ (n : Node) (l : List Binding),
    let bad := 32 < l.length ∨ (∃ b ∈ l, bindingOk b = false) ∨ ¬(l.map bindingKey).Nodup
    let asked := l.filter fun b => (bindingSign b).isSome && !n.set.bindings.contains b
    let granted := askSigns asked.length n.svc
    let t := n.takeValue 34 (.bindings l)
    (bad → t = (n, .badArgument)) ∧
    (¬bad → granted.2 < asked.length →
      t = ({ n with svc := granted.1.freeBuffers .sign granted.2 }, .noRoom)) ∧
    (Candidate.inRange 34 (.bindings l) = true ↔ ¬bad) ∧
    (¬bad → asked.length ≤ granted.2 →
      let old := n.set.bindings
      let lost := old.filter fun b => (bindingSign b).isSome && !l.contains b
      let y := lost.foldl (fun z b =>
        match bindingSign b with
        | some (k, d) => giveUpPage d (.binding k) z
        | none => z) (granted.1, n.zone)
      t.2 = .done ∧ t.1.set = { n.set with bindings := l } ∧ t.1.svc.pool.cls .sign = y.1.pool.cls .sign ∧
      ((∀ d g, y.2.sign d = some g → (workedOut t.1.set n.zone d g).state = g.state) →
        t.1.svc = { y.1 with settings := t.1.set }) ∧
      t.1.zone.zones = n.zone.zones ∧
      (∀ d, let named := ∃ z p, .sign z d p ∈ old ++ l
        (¬named → t.1.zone.sign d = n.zone.sign d) ∧
        (∀ g, named → 1 ≤ d → d ≤ 8 → y.2.sign d = some g →
          t.1.zone.sign d = some (workedOut t.1.set n.zone d g))) ∧
      (∀ b r, nth n.zone.beacons b = some r →
        let named := ∃ z on off, .beacon z b on off ∈ old ++ l
        (¬named → nth t.1.zone.beacons b = some r) ∧
        (named → 1 ≤ b → b ≤ 4 → nth t.1.zone.beacons b = some
          (if r.mode = .single then r else r.workedOut t.1.set n.zone n.svc.now b))))) ∧
  (∀ (d : Nat) (src : PageSrc) (x : ZoneSt),
    (∀ g k, x.2.sign d = some g → g.load = some k → k.src = src → giveUpPage d src x =
      (x.1, x.2.changeSign d fun g => { g with load := some { k with src := .gone }, deferred := g.deferred + 1 })) ∧
    ((∀ g k, x.2.sign d = some g → g.load = some k → k.src ≠ src) →
      giveUpPage d src x = (x.1.freeBuffers .sign 1, x.2))) ∧
  (∀ (n : Node) (item : Nat) (op : SettingOp) (v : SettingValue), isItem item = true →
    ((numberRange item).isSome = true → op = .set) → otherRole n.set.role item = false → nextStart item = false →
    let c := candidate n.set n.svc.pool.bounds item op v
    let run := n.settingWrite item op v
    (c = none → run = (n, .badArgument, .nil)) ∧
    (∀ x, c = some x → x.inRange item = false → run = (n, .badArgument, .nil)) ∧
    (∀ x, c = some x → x.inRange item = true →
      run = ((n.takeValue item x).1, (n.takeValue item x).2, .nil))) ∧
  (∀ (n : Node) (l : List ClassBounds),
    let t := n.takeValue 50 (.classes l)
    t.2 = checkBounds n.svc.pool l ∧ (t.2 ≠ .done → t.1 = n) ∧
    (t.2 = .done → t.1 = { n with svc := n.svc.takeBounds l })) ∧
  (∀ (n : Node) (l : List (Option RuleSpec)),
    let t := n.takeValue 71 (.rules l)
    (Candidate.inRange 71 (.rules l) = true ↔ ∀ r, some r ∈ l → 1 ≤ r.device ∧ r.device ≤ 8 ∧ r.hysteresis ≤ 1000 ∧
      1 ≤ r.hold ∧ r.hold ≤ 8 ∧ r.zone ≤ 8 ∧ inQuantityRange r.quantity r.level = true) ∧
    let changed (k : Nat) : Prop := 1 ≤ k ∧ k ≤ 8 ∧ nth n.set.rules k ≠ nth l k
    t.2 = .done ∧
    (∀ k, ¬changed k → nth t.1.rules k = nth n.rules k ∧ nth t.1.set.rules k = nth n.set.rules k) ∧
    (∀ k, changed k → nth t.1.rules k = (nth n.rules k).map (fun _ =>
        { state := .clear, last := none, since := n.svc.time }) ∧
      nth t.1.set.rules k = (nth n.set.rules k).map fun _ => (nth l k).getD none) ∧
    (∃ x : Svc, t.1 = Node.onZone { n with svc := x, rules := t.1.rules }
        (handWeather n.set.rules n.rules t.1.set.rules t.1.rules) ∧
      let tripped (k : Nat) (spec : RuleSpec) : Prop := changed k ∧ nth n.set.rules k = some (some spec) ∧
        ∃ rec, nth n.rules k = some rec ∧ isTripped rec.state = true
      ((∀ k spec, ¬tripped k spec) → x = { n.svc with settings := t.1.set }) ∧
      (∀ k spec, tripped k spec → (∀ j sp, tripped j sp → j = k) → x =
        { n.svc.post .ruleClear (.rule k) [.nat spec.zone, .absent, .ruleClear .changed] with
          settings := t.1.set })))

end
end

