-- ==== Sys2Proof/Laws/Bytes.lean ====
section
/-! SUPPORT. What the byte layouts of ring messages have in common: numbers that differ, lengths of bodies and of messages (R28, R29). -/

namespace Sys2Proof.Machine

/-! ## Freely chosen numbers that are all different -/

theorem pickNumber_mem (choice : Nat → Nat) (k : Nat) (left : List Nat) (h : k < left.length) :
    pickNumber choice k left ∈ left := by
  induction k generalizing choice left with
  | zero =>
    have hl : choice 0 % left.length < left.length := Nat.mod_lt _ h
    simp only [pickNumber, List.getD_eq_getElem?_getD, List.getElem?_eq_getElem hl, Option.getD_some]
    exact List.getElem_mem hl
  | succ k ih =>
    have hl : choice 0 % left.length < left.length := Nat.mod_lt _ (by omega)
    exact List.mem_of_mem_eraseIdx (ih _ _ (by rw [List.length_eraseIdx_of_lt hl]; omega))

theorem pickNumber_zero_ne (choice : Nat → Nat) (k : Nat) (left : List Nat) (nd : left.Nodup)
    (h : k + 1 < left.length) : pickNumber choice (k + 1) left ≠ pickNumber choice 0 left := by
  have hl : choice 0 % left.length < left.length := Nat.mod_lt _ (by omega)
  have hm : pickNumber choice (k + 1) left ∈ left.eraseIdx (choice 0 % left.length) :=
    pickNumber_mem _ _ _ (by rw [List.length_eraseIdx_of_lt hl]; omega)
  intro he
  rw [he] at hm
  simp only [pickNumber, List.getD_eq_getElem?_getD, List.getElem?_eq_getElem hl, Option.getD_some] at hm
  rw [List.mem_eraseIdx_iff_getElem] at hm
  obtain ⟨i, hi, hne, heq⟩ := hm
  exact hne ((List.Nodup.getElem_inj_iff nd).mp heq)

/-- Different places take different numbers. -/
theorem pickNumber_inj (choice : Nat → Nat) (j k : Nat) (left : List Nat) (nd : left.Nodup) (hj : j < left.length)
    (hk : k < left.length) (h : pickNumber choice j left = pickNumber choice k left) : j = k := by
  induction j generalizing choice k left with
  | zero =>
    cases k with
    | zero => rfl
    | succ k => exact absurd h.symm (pickNumber_zero_ne choice k left nd hk)
  | succ j ih =>
    cases k with
    | zero => exact absurd h (pickNumber_zero_ne choice j left nd hj)
    | succ k =>
      have hl : choice 0 % left.length < left.length := Nat.mod_lt _ (by omega)
      have e := List.length_eraseIdx_of_lt hl
      rw [ih _ k _ (nd.eraseIdx _) (by rw [e]; omega) (by rw [e]; omega) h]

theorem SlotBody.kindIndex_lt (b : SlotBody) : SlotBody.kindIndex b < 17 := by
  cases b with
  | message p => cases p <;> exact of_decide_eq_true rfl
  | survey => exact of_decide_eq_true rfl

theorem SlotBody.kindNumber_bounds (b : SlotBody) :
    let v := pickNumber Config.kindChoice (SlotBody.kindIndex b) ((List.range 255).map (· + 1))
    1 ≤ v ∧ v ≤ 255 := by
  intro v
  have h := pickNumber_mem Config.kindChoice (SlotBody.kindIndex b) ((List.range 255).map (· + 1))
    (by have := SlotBody.kindIndex_lt b; simp; omega)
  simp only [List.mem_map, List.mem_range] at h
  obtain ⟨a, ha, he⟩ := h
  omega

/-- R29: the kind of an occupied slot is not 0, the kind of an empty one. -/
theorem slotKind_ne_zero (s : Slot) : slotKind s ≠ 0#8 := by
  have h := SlotBody.kindNumber_bounds s.body
  intro he
  have := congrArg BitVec.toNat he
  simp only [slotKind, BitVec.toNat_ofNat] at this
  simp only [] at h
  omega

/-- R28, R29: slots show one kind when their messages are of one kind of R28, and different kinds otherwise. -/
theorem slotKind_eq_iff (s t : Slot) : slotKind s = slotKind t ↔ SlotBody.kindIndex s.body = SlotBody.kindIndex t.body := by
  constructor
  · intro h
    have hs := SlotBody.kindNumber_bounds s.body
    have ht := SlotBody.kindNumber_bounds t.body
    have e := congrArg BitVec.toNat h
    simp only [slotKind, BitVec.toNat_ofNat] at e
    simp only [] at hs ht
    refine pickNumber_inj Config.kindChoice _ _ ((List.range 255).map (· + 1)) ?_ ?_ ?_ (by omega)
    · exact List.Nodup.map (fun a b h => by simpa using h) List.nodup_range
    · have := SlotBody.kindIndex_lt s.body; simp; omega
    · have := SlotBody.kindIndex_lt t.body; simp; omega
  · intro h
    simp only [slotKind, h]

/-! ## Lengths -/

@[simp] theorem bigEndian_length (k v : Nat) : (bigEndian k v).length = k := by
  induction k generalizing v with
  | zero => rfl
  | succ k ih => simp [bigEndian, ih]

theorem subjectBytes_length (s : Subject) : (subjectBytes s).length = 2 := by
  cases s with
  | linePort p => cases p <;> rfl
  | _ => rfl

theorem detailBytes_length (v : Value) : (detailBytes v).length = 4 := by
  cases v <;> simp [detailBytes]

theorem flatMap_length {α β : Type} (f : α → List β) (k : Nat) (h : ∀ a, (f a).length = k) (l : List α) :
    (l.flatMap f).length = k * l.length := by
  induction l with
  | nil => rfl
  | cons a l ih => simp [ih, h, Nat.mul_succ]; omega

/-- 10 section 10.7: a notice entry takes 12 bytes and 4 for each detail. -/
theorem noticeBytes_length (e : Notice) : (noticeBytes e).length = 12 + 4 * e.details.length := by
  simp [noticeBytes, timeBytes, subjectBytes_length, flatMap_length _ 4 detailBytes_length]
  omega

/-- R180: the body of a NOTICE-FWD: the count and the entries. -/
theorem noticeFwd_length (l : List Notice) :
    (messageBody (.noticeFwd l)).length = 1 + (l.map fun e => 12 + 4 * e.details.length).sum := by
  simp only [messageBody, List.length_append, bigEndian_length, List.length_flatMap]
  congr 3
  funext e
  exact noticeBytes_length e

theorem sampleRecord_length (r : Sample) : (sampleRecord r).length = sampleBytes r := by
  have h (q : Quantity) : (quantityBytes q).length = 3 := by simp [quantityBytes]
  simp [sampleRecord, sampleBytes, flatMap_length _ 3 h]
  omega

/-- 08 section 8.2.5: the length that SIZE looks at is that of the segment record. -/
theorem segmentRecord_length (g : Segment) : (segmentRecord g).length = segmentBytes g.samples := by
  simp only [segmentRecord, segmentBytes, List.length_append, bigEndian_length, List.length_flatMap]
  have h : (g.samples.map fun r => (sampleRecord r).length) = g.samples.map sampleBytes :=
    List.map_congr_left fun r _ => sampleRecord_length r
  rw [h]

/-- 07 section 7.4.1: a toll record of 8 tag and 10 plate bytes takes 35 bytes. -/
theorem tollBytes_length (r : TollRecord) (ht : r.tag.length = 8) (hp : r.plate.length = 10) :
    (tollBytes r).length = 35 := by
  simp [tollBytes, ht, hp]

/-- R168: a toll item's 41 bytes and the five fields fit one slot. -/
theorem tollItem_slots (b n i : Nat) (k : CollKind) (r : TollRecord) (t : NodeTime) (ht : r.tag.length = 8)
    (hp : r.plate.length = 10) : messageSlots (.batchItem b k n i (.toll r t)) = 1 := by
  simp [messageSlots, messageBody, itemContent, timeBytes, tollBytes_length r ht hp, slotsFor]

/-- R168: a weather item is the five fields and the segment record. -/
theorem weatherItem_length (b n i : Nat) (k : CollKind) (g : Segment) :
    (messageBody (.batchItem b k n i (.segment g))).length = 5 + segmentBytes g.samples := by
  simp [messageBody, itemContent, segmentRecord_length]
  omega

/-- R28: every message is 1 to 8 slots long. -/
theorem messageSlots_bounds (p : Payload) : 1 ≤ messageSlots p ∧ messageSlots p ≤ 8 := by
  unfold messageSlots slotsFor
  omega

/-- R28: the kinds of one slot, and those whose length their body gives. -/
def Payload.oneSlot : Payload → Bool
  | .commandFwd _ _ => false
  | .replyFwd _ _ _ => false
  | .noticeFwd _ => false
  | .batchItem _ _ _ _ _ => false
  | .collectAck _ _ => false
  | _ => true

theorem messageSlots_one (p : Payload) (h : Payload.oneSlot p = true) : messageSlots p = 1 := by
  cases p <;> cases h <;> simp [messageSlots, messageBody, slotsFor] <;> omega

end Sys2Proof.Machine
end

