-- ==== Sys2Proof/Laws/Ops.lean ====
section
/-! SUPPORT. The laws of the settings store's operations, of numbered tables and counts, and of how many records fit a reply (R191). -/

namespace Sys2Proof.Machine

/-! ## The settings store -/

theorem risingFrom_mono {m : Memory} {a b : Nat} (h : a ≤ b) (hb : risingFrom b m = true) : risingFrom a m = true := by
  cases m with
  | nil => rfl
  | cons c m =>
    simp only [risingFrom, Bool.and_eq_true, decide_eq_true_eq] at hb ⊢
    exact ⟨Nat.le_trans h hb.1, hb.2⟩

theorem readByte_eq_none_of_rising {m : Memory} {low a : Nat} (h : risingFrom low m = true) (ha : a < low) :
    readByte m a = none := by
  induction m generalizing low with
  | nil => rfl
  | cons c m ih =>
    simp only [risingFrom, Bool.and_eq_true, decide_eq_true_eq] at h
    have hne : c.1 ≠ a := by omega
    simp only [readByte, hne, if_false]
    exact ih h.2 (by omega)

theorem rising_writeByte {m : Memory} {low a : Nat} {b : Byte} (h : risingFrom low m = true) (ha : low ≤ a) :
    risingFrom low (writeByte m a b) = true := by
  induction m generalizing low with
  | nil => simp [writeByte, risingFrom, ha]
  | cons c m ih =>
    obtain ⟨k, d⟩ := c
    have hr := h
    simp only [risingFrom, Bool.and_eq_true, decide_eq_true_eq] at h
    simp only [writeByte]
    split
    · simp only [risingFrom, Bool.and_eq_true, decide_eq_true_eq]
      exact ⟨ha, by omega, h.2⟩
    · split
      · exact hr
      · simp only [risingFrom, Bool.and_eq_true, decide_eq_true_eq]
        exact ⟨h.1, ih h.2 (by omega)⟩

theorem mem_writeByte {m : Memory} {a : Nat} {b : Byte} {c : Host.Cell} (h : c ∈ writeByte m a b) :
    c ∈ m ∨ c = (a, b) := by
  induction m with
  | nil => simpa [writeByte] using h
  | cons d m ih =>
    obtain ⟨k, e⟩ := d
    simp only [writeByte] at h
    split at h
    · rcases List.mem_cons.1 h with h | h
      · exact .inr h
      · exact .inl h
    · split at h
      · exact .inl h
      · rcases List.mem_cons.1 h with h | h
        · exact .inl (h ▸ List.mem_cons_self ..)
        · rcases ih h with h | h
          · exact .inl (List.mem_cons_of_mem _ h)
          · exact .inr h

/-- A write inside the store keeps its canonical form. -/
theorem wf_writeByte {m : Memory} {a : Nat} {b : Byte} (h : Memory.wf m = true) (ha : a < Config.storeSize) :
    Memory.wf (writeByte m a b) = true := by
  simp only [Memory.wf, Bool.and_eq_true, List.all_eq_true, decide_eq_true_eq] at h ⊢
  refine ⟨rising_writeByte h.1 (Nat.zero_le _), fun c hc => ?_⟩
  rcases mem_writeByte hc with hc | rfl
  · exact h.2 c hc
  · exact ha

/-- Writing a record keeps the canonical form. -/
theorem wf_writeBytes {m : Memory} {a : Nat} {l : List Byte} (h : Memory.wf m = true) :
    Memory.wf (writeBytes m a l) = true := by
  induction l generalizing m a with
  | nil => exact h
  | cons b l ih =>
    simp only [writeBytes]
    split
    · exact ih (wf_writeByte h ‹_›)
    · exact ih h

/-- A record partly written keeps the canonical form. -/
theorem wf_writePartly {k : Nat} {m : Memory} {a : Nat} {l : List Byte} (h : Memory.wf m = true) :
    Memory.wf (writePartly k m a l) = true := by
  induction l generalizing m a with
  | nil => exact h
  | cons b l ih =>
    simp only [writePartly]
    split
    · exact ih (wf_writeByte h (by rename_i hc; exact hc.1))
    · exact ih h

theorem readByte_writeByte_rising {m : Memory} {low a x : Nat} {b : Byte} (h : risingFrom low m = true) :
    readByte (writeByte m a b) x = if x = a then some ((readByte m a).getD b) else readByte m x := by
  induction m generalizing low with
  | nil =>
    by_cases hx : x = a
    · subst hx; simp [writeByte, readByte]
    · simp [writeByte, readByte, hx, Ne.symm hx]
  | cons c m ih =>
    obtain ⟨k, d⟩ := c
    simp only [risingFrom, Bool.and_eq_true, decide_eq_true_eq] at h
    simp only [writeByte]
    split
    · rename_i hak
      by_cases hx : x = a
      · subst hx
        have hk : k ≠ x := by omega
        have hn : readByte m x = none := readByte_eq_none_of_rising h.2 (by omega)
        simp [readByte, hk, hn]
      · simp [readByte, hx, Ne.symm hx]
    · split
      · rename_i hak
        subst hak
        by_cases hx : x = a
        · subst hx; simp [readByte]
        · simp [hx]
      · rename_i hlt hne
        have hne' : k ≠ a := fun e => hne e.symm
        simp only [readByte, ih h.2]
        by_cases hx : x = a
        · subst hx
          simp [hne']
        · by_cases hk : k = x
          · simp [hk, hx]
          · simp [hk, hx]

/-- 11 section 11.2: a byte that is written reads back, and a written byte never changes. -/
theorem readByte_writeByte {m : Memory} {a x : Nat} {b : Byte} (h : Memory.wf m = true) :
    readByte (writeByte m a b) x = if x = a then some ((readByte m a).getD b) else readByte m x := by
  simp only [Memory.wf, Bool.and_eq_true] at h
  exact readByte_writeByte_rising h.1

theorem keeps_writeByte {m : Memory} {a : Nat} {b : Byte} (h : Memory.wf m = true) :
    KeepsWritten m (writeByte m a b) := by
  intro x c hx
  rw [readByte_writeByte h]
  split
  · subst_vars; simp [hx]
  · exact hx

theorem KeepsWritten.refl (m : Memory) : KeepsWritten m m := fun _ _ h => h

theorem KeepsWritten.trans {a b c : Memory} (h : KeepsWritten a b) (k : KeepsWritten b c) : KeepsWritten a c :=
  fun x y hx => k x y (h x y hx)

/-- Writing a record changes no byte that was written. -/
theorem keeps_writeBytes {m : Memory} {a : Nat} {l : List Byte} (h : Memory.wf m = true) :
    KeepsWritten m (writeBytes m a l) := by
  induction l generalizing m a with
  | nil => exact .refl m
  | cons b l ih =>
    simp only [writeBytes]
    split
    · exact (keeps_writeByte h).trans (ih (wf_writeByte h ‹_›))
    · exact ih h

/-- A record partly written changes no byte that was written. -/
theorem keeps_writePartly {k : Nat} {m : Memory} {a : Nat} {l : List Byte} (h : Memory.wf m = true) :
    KeepsWritten m (writePartly k m a l) := by
  induction l generalizing m a with
  | nil => exact .refl m
  | cons b l ih =>
    simp only [writePartly]
    split
    · rename_i hc
      exact (keeps_writeByte h).trans (ih (wf_writeByte h hc.1))
    · exact ih h

/-- The bytes of a record that fits among unwritten bytes read back, and every other byte reads as before. -/
theorem readByte_writeBytes {m : Memory} {a : Nat} {l : List Byte} (h : Memory.wf m = true)
    (fit : a + l.length ≤ Config.storeSize) (blank : ∀ x, a ≤ x → readByte m x = none) (x : Nat) :
    readByte (writeBytes m a l) x = if a ≤ x ∧ x < a + l.length then l[x - a]? else readByte m x := by
  induction l generalizing m a with
  | nil =>
    simp only [writeBytes, List.length_nil, Nat.add_zero]
    split
    · omega
    · rfl
  | cons b l ih =>
    simp only [List.length_cons] at fit ⊢
    have ha : a < Config.storeSize := by omega
    simp only [writeBytes, ha, if_true]
    have hb : ∀ y, readByte (writeByte m a b) y = if y = a then some b else readByte m y := by
      intro y
      rw [readByte_writeByte h]
      simp [blank a (Nat.le_refl a)]
    rw [ih (wf_writeByte h ha) (by omega) (fun y hy => by
      rw [hb]
      have : y ≠ a := by omega
      simp [this, blank y (by omega)])]
    rw [hb]
    by_cases hx : x = a
    · subst hx
      simp
    · by_cases h1 : a + 1 ≤ x ∧ x < a + 1 + l.length
      · have h2 : a ≤ x ∧ x < a + (l.length + 1) := by omega
        have h3 : x - a = x - (a + 1) + 1 := by omega
        simp only [h1, h2, and_self, if_true, h3, List.getElem?_cons_succ]
      · have h2 : ¬(a ≤ x ∧ x < a + (l.length + 1)) := by omega
        simp only [if_neg h1, if_neg h2, if_neg hx]

/-! ## Numbered tables -/

@[simp] theorem nth_zero {α : Type} (l : List α) : nth l 0 = none := rfl
@[simp] theorem nth_nil {α : Type} (n : Nat) : nth ([] : List α) n = none := by cases n <;> rfl
@[simp] theorem nth_one {α : Type} (a : α) (l : List α) : nth (a :: l) 1 = some a := rfl
@[simp] theorem nth_cons {α : Type} (a : α) (l : List α) (n : Nat) : nth (a :: l) (n + 2) = nth l (n + 1) := rfl

/-- What a change of one place leaves at every place. -/
theorem nth_change {α : Type} (f : α → α) (l : List α) (n k : Nat) :
    nth (change f l n) k = if k = n then (nth l k).map f else nth l k := by
  induction l generalizing n k with
  | nil => cases n <;> simp [change]
  | cons a l ih =>
    match n with
    | 0 =>
      by_cases hk : k = 0
      · subst hk; simp [change]
      · simp [change, hk]
    | 1 =>
      match k with
      | 0 => simp
      | 1 => simp [change]
      | k + 2 => simp [change]
    | n + 2 =>
      match k with
      | 0 => simp
      | 1 => simp [change]
      | k + 2 =>
        simp only [change, nth_cons, ih]
        by_cases hk : k + 1 = n + 1
        · have : k + 2 = n + 2 := by omega
          simp [hk, this]
        · simp

@[simp] theorem nth_change_same {α : Type} (f : α → α) (l : List α) (n : Nat) :
    nth (change f l n) n = (nth l n).map f := by
  simp [nth_change]

theorem nth_change_other {α : Type} (f : α → α) (l : List α) {n k : Nat} (h : k ≠ n) :
    nth (change f l n) k = nth l k := by
  simp [nth_change, h]

@[simp] theorem nth_put_same {α : Type} (l : List α) (n : Nat) (a : α) :
    nth (put l n a) n = (nth l n).map fun _ => a := by
  simp [put]

theorem nth_put_other {α : Type} (l : List α) {n k : Nat} (a : α) (h : k ≠ n) : nth (put l n a) k = nth l k := by
  simp [put, nth_change, h]

/-- A change of one place keeps how many there are. -/
@[simp] theorem length_change {α : Type} (f : α → α) (l : List α) (n : Nat) : (change f l n).length = l.length := by
  induction l generalizing n with
  | nil => match n with
    | 0 => rfl
    | 1 => rfl
    | n + 2 => rfl
  | cons a l ih => match n with
    | 0 => rfl
    | 1 => rfl
    | n + 2 => simp only [change, List.length_cons, ih]

/-- Two changes of one place are one. -/
theorem change_change {α : Type} (f g : α → α) (l : List α) (n : Nat) :
    change f (change g l n) n = change (f ∘ g) l n := by
  induction l generalizing n with
  | nil => match n with
    | 0 => rfl
    | 1 => rfl
    | n + 2 => rfl
  | cons a l ih => match n with
    | 0 => rfl
    | 1 => rfl
    | n + 2 => simp only [change, ih]

/-- A change is what it does to the record that stands there. -/
theorem change_congr {α : Type} {f g : α → α} {l : List α} {n : Nat} {a : α} (h : nth l n = some a) (e : f a = g a) :
    change f l n = change g l n := by
  induction l generalizing n with
  | nil => simp at h
  | cons b l ih => match n with
    | 0 => rfl
    | 1 =>
      simp at h
      subst h
      simp [change, e]
    | n + 2 =>
      simp only [change]
      rw [ih (by simpa using h)]

theorem change_self {α : Type} {f : α → α} {l : List α} {n : Nat} {a : α} (h : nth l n = some a) (e : f a = a) :
    change f l n = l := by
  induction l generalizing n with
  | nil => simp at h
  | cons b l ih => match n with
    | 0 => rfl
    | 1 =>
      simp at h
      subst h
      simp [change, e]
    | n + 2 =>
      simp only [change]
      rw [ih (by simpa using h)]

/-- What `dropFirst` takes out is one record that meets `p`. -/
theorem mem_of_mem_dropFirst {α : Type} {p : α → Bool} {l : List α} {x : α} (h : x ∈ dropFirst p l) : x ∈ l := by
  induction l with
  | nil => exact h
  | cons a l ih =>
    simp only [dropFirst] at h
    split at h
    · exact .tail _ h
    · cases h with
      | head => exact .head _
      | tail _ h => exact .tail _ (ih h)

theorem mem_dropFirst {α : Type} {p : α → Bool} {l : List α} {x : α} (h : x ∈ l) (hp : p x = false) :
    x ∈ dropFirst p l := by
  induction l with
  | nil => exact h
  | cons a l ih =>
    simp only [dropFirst]
    cases h with
    | head => simp [hp]
    | tail _ h =>
      split
      · exact h
      · exact .tail _ (ih h)

/-- R47, R162: the next number counts on from the last one given, past the numbers in use. -/
theorem nextNumber_counts_on (max : Nat) (used : List Nat) (fuel last : Nat) :
    let after (k : Nat) : Nat := if k < max then k + 1 else 1
    ∃ k ≤ fuel, nextNumber max used fuel last = Nat.repeat after (k + 1) last ∧
      ∀ j, j < k → Nat.repeat after (j + 1) last ∈ used := by
  intro after
  have shift : ∀ k a, Nat.repeat after (k + 1) a = Nat.repeat after k (after a) := by
    intro k a
    induction k with
    | zero => rfl
    | succ k ih =>
      show after (Nat.repeat after (k + 1) a) = _
      rw [ih]
      rfl
  induction fuel generalizing last with
  | zero => exact ⟨0, Nat.le_refl _, rfl, fun j h => by omega⟩
  | succ n ih =>
    show ∃ k ≤ n + 1, (if used.contains (after last) then nextNumber max used n (after last) else after last) = _ ∧ _
    by_cases h : used.contains (after last) = true
    · rw [if_pos h]
      obtain ⟨k, a, b, c⟩ := ih (after last)
      refine ⟨k + 1, by omega, by rw [shift (k + 1)]; exact b, fun j hj => ?_⟩
      cases j with
      | zero =>
        show after last ∈ used
        simpa using h
      | succ j =>
        rw [shift]
        exact c j (by omega)
    · rw [if_neg h]
      exact ⟨0, by omega, rfl, fun j h => by omega⟩

/-! ## Counts -/

/-- A count that stops at its limit never passes it. -/
theorem bump_le {limit c : Nat} (h : c ≤ limit) : bump limit c ≤ limit := by
  unfold bump; split <;> omega

theorem bump_lt {limit c : Nat} (h : c < limit) : bump limit c = c + 1 := by
  simp [bump, h]

theorem bump_full {limit c : Nat} (h : limit ≤ c) : bump limit c = c := by
  unfold bump; split <;> omega

/-- The last number up to `n` that meets `p`, or 0. -/
theorem lastUpTo_spec (p : Nat → Bool) (n : Nat) :
    let k := ((List.range (n + 1)).reverse.find? p).getD 0
    k ≤ n ∧ (p k = true ∨ k = 0) ∧ ∀ j, k < j → j ≤ n → p j = false := by
  induction n with
  | zero =>
    cases h : p 0 <;> simp [h] <;> omega
  | succ n ih =>
    rw [List.range_succ, List.reverse_append, List.reverse_singleton, List.singleton_append, List.find?_cons]
    cases h : p (n + 1) with
    | true => exact ⟨Nat.le_refl _, Or.inl h, fun j hj hn => absurd hj (Nat.not_lt.mpr hn)⟩
    | false =>
      refine ⟨Nat.le_succ_of_le ih.1, ih.2.1, fun j hj hn => ?_⟩
      rcases Nat.lt_or_ge j (n + 1) with hl | hl
      · exact ih.2.2 j hj (by omega)
      · rw [show j = n + 1 by omega]; exact h

/-- R191: no more of a list's records fit the 240 bytes of a reply body. -/
theorem recordsThatFit_spec (item : Nat) (l : List SettingValue) :
    let fits (k : Nat) : Prop := 1 + (Config.listResult item (l.take k) (l.length - k)).length ≤ Config.bodyMax
    let k := recordsThatFit item l
    k ≤ l.length ∧ (fits k ∨ k = 0) ∧ ∀ j, k < j → j ≤ l.length → ¬fits j := by
  have h := lastUpTo_spec (fun k => decide (1 + (Config.listResult item (l.take k) (l.length - k)).length ≤ Config.bodyMax))
    l.length
  simp only [decide_eq_true_eq, decide_eq_false_iff_not] at h
  exact h

end Sys2Proof.Machine
end

