-- ==== Sys2Proof/Laws/Pool.lean ====
section
/-! SUPPORT. The laws of POOL (R122, R123, R126): what a request and a free do to the holdings, and that their sum with the free count never changes. -/

namespace Sys2Proof.Machine

theorem poolOk_iff (p : Pool) : PoolOk p ↔ p.total = Config.poolSize := Iff.rfl

@[simp] theorem Pool.cls_change (p : Pool) (c : PoolClass) (f : ClassRec → ClassRec) :
    (p.change c f).cls c = f (p.cls c) := by
  cases c <;> rfl

theorem Pool.cls_change_other (p : Pool) {c d : PoolClass} (f : ClassRec → ClassRec) (h : d ≠ c) :
    (p.change c f).cls d = p.cls d := by
  cases c <;> cases d <;> first | rfl | exact absurd rfl h

@[simp] theorem Pool.free_change (p : Pool) (c : PoolClass) (f : ClassRec → ClassRec) :
    (p.change c f).free = p.free := by
  cases c <;> rfl

@[simp] theorem Pool.leastFree_change (p : Pool) (c : PoolClass) (f : ClassRec → ClassRec) :
    (p.change c f).leastFree = p.leastFree := by
  cases c <;> rfl

/-- A class's holding after a change, with those of the others. -/
theorem Pool.held_change (p : Pool) (c : PoolClass) (f : ClassRec → ClassRec) :
    (p.change c f).held + (p.cls c).holding = p.held + (f (p.cls c)).holding := by
  cases c <;> simp only [Pool.change, Pool.held, Pool.cls] <;> omega

theorem Pool.held_change_same (p : Pool) (c : PoolClass) (f : ClassRec → ClassRec)
    (h : (f (p.cls c)).holding = (p.cls c).holding) : (p.change c f).held = p.held := by
  have := p.held_change c f
  omega

theorem Pool.total_change_same (p : Pool) (c : PoolClass) (f : ClassRec → ClassRec)
    (h : (f (p.cls c)).holding = (p.cls c).holding) : (p.change c f).total = p.total := by
  simp [Pool.total, p.held_change_same c f h]

theorem Pool.holding_le_held (p : Pool) (c : PoolClass) : (p.cls c).holding ≤ p.held := by
  cases c <;> simp only [Pool.held, Pool.cls] <;> omega

/-- R123: a request is granted only while the free count reaches it. -/
theorem Pool.free_of_decide {p : Pool} {c : PoolClass} {n : Nat} (h : p.decide c n = none) : n ≤ p.free := by
  unfold Pool.decide at h
  split at h
  · cases h
  · split at h
    · cases h
    · omega

/-- R123: the three conditions of a grant. -/
theorem Pool.decide_none {p : Pool} {c : PoolClass} {n : Nat} :
    p.decide c n = none ↔
      (p.cls c).holding + n ≤ (p.cls c).ceiling ∧ n ≤ p.free ∧ p.othersUnheld c ≤ p.free - n := by
  unfold Pool.decide
  split
  · simp; omega
  · split
    · simp; omega
    · split
      · simp; omega
      · simp; omega

@[simp] theorem Pool.total_grant {p : Pool} {c : PoolClass} {n : Nat} (h : n ≤ p.free) :
    (p.grant c n).total = p.total := by
  have hc := p.held_change c fun r =>
    { r with holding := r.holding + n, high := max r.high (r.holding + n), granted := bump Config.wordMax r.granted }
  simp only [Pool.grant, Pool.total, Pool.held] at hc ⊢
  omega

@[simp] theorem Pool.total_refuse (p : Pool) (c : PoolClass) (r : PoolReason) : (p.refuse c r).total = p.total := by
  unfold Pool.refuse
  apply p.total_change_same
  cases r <;> rfl

@[simp] theorem Pool.total_countEviction (p : Pool) (c : PoolClass) (k : Nat) :
    (p.countEviction c k).total = p.total := by
  unfold Pool.countEviction
  exact p.total_change_same _ _ rfl

@[simp] theorem Pool.total_release (p : Pool) (c : PoolClass) (n : Nat) : (p.release c n).total = p.total := by
  have hle : min n (p.cls c).holding ≤ (p.cls c).holding := Nat.min_le_right ..
  have hc := p.held_change c fun r => { r with holding := r.holding - min n (p.cls c).holding }
  simp only [Pool.release, Pool.total, Pool.held] at hc ⊢
  omega

@[simp] theorem Pool.total_waiting (p : Pool) (b : Bool) : ({ p with waiting := b } : Pool).total = p.total := rfl

@[simp] theorem Pool.total_withBounds (p : Pool) (b : ClassBounds) : (p.withBounds b).total = p.total := by
  unfold Pool.withBounds
  exact p.total_change_same _ _ rfl

@[simp] theorem Pool.total_reset : Pool.reset.total = Config.poolSize := rfl

/-! ## Floors and ceilings, which only a POOL-CLASSES change moves -/

@[simp] theorem Pool.bounds_waiting (p : Pool) (b : Bool) : ({ p with waiting := b } : Pool).bounds = p.bounds := rfl

theorem Pool.bounds_change (p : Pool) (c : PoolClass) (f : ClassRec → ClassRec)
    (hf : (f (p.cls c)).floor = (p.cls c).floor) (hc : (f (p.cls c)).ceiling = (p.cls c).ceiling) :
    (p.change c f).bounds = p.bounds := by
  cases c <;> simp_all [Pool.change, Pool.bounds, Pool.cls]

@[simp] theorem Pool.bounds_grant (p : Pool) (c : PoolClass) (n : Nat) : (p.grant c n).bounds = p.bounds :=
  p.bounds_change c _ rfl rfl

@[simp] theorem Pool.bounds_refuse (p : Pool) (c : PoolClass) (r : PoolReason) :
    (p.refuse c r).bounds = p.bounds := by
  unfold Pool.refuse
  apply p.bounds_change <;> cases r <;> rfl

@[simp] theorem Pool.bounds_countEviction (p : Pool) (c : PoolClass) (k : Nat) :
    (p.countEviction c k).bounds = p.bounds :=
  p.bounds_change c _ rfl rfl

@[simp] theorem Pool.bounds_release (p : Pool) (c : PoolClass) (n : Nat) : (p.release c n).bounds = p.bounds :=
  p.bounds_change c _ rfl rfl

end Sys2Proof.Machine
end

