-- ==== Sys2Proof/Laws/Queue.lean ====
section
/-! SUPPORT. What the services' shared operations (requests for buffers, offers to the queues, notices, closing a segment) can change, said once. -/

namespace Sys2Proof.Machine

namespace Svc.Keeps

theorem refl (s : Svc) : Svc.Keeps s s :=
  ⟨rfl, rfl, rfl, rfl, rfl, rfl, rfl, fun _ h => h, fun _ h => h⟩

theorem trans {s t u : Svc} (a : Svc.Keeps s t) (b : Svc.Keeps t u) : Svc.Keeps s u :=
  ⟨b.now.trans a.now, b.time.trans a.time, b.settings.trans a.settings, b.total.trans a.total,
    b.bounds.trans a.bounds, b.noteKeep.trans a.noteKeep, b.lastSegment.trans a.lastSegment,
    fun q h => b.emergency q (a.emergency q h), fun e h => b.normal e (a.normal e h)⟩

end Svc.Keeps

theorem Svc.keeps_fresh (s : Svc) : Svc.Keeps s s.fresh :=
  ⟨rfl, rfl, rfl, rfl, rfl, rfl, rfl, fun _ h => h, fun _ h => h⟩

theorem Svc.keeps_freed (s : Svc) (b : Bool) : Svc.Keeps s { s with freed := b } :=
  ⟨rfl, rfl, rfl, rfl, rfl, rfl, rfl, fun _ h => h, fun _ h => h⟩

theorem Svc.keeps_pool (s : Svc) {p : Pool} (h : p.total = s.pool.total) (k : p.bounds = s.pool.bounds) :
    Svc.Keeps s { s with pool := p } :=
  ⟨rfl, rfl, rfl, h, k, rfl, rfl, fun _ h => h, fun _ h => h⟩

theorem Svc.keeps_wx (s : Svc) {w : Wx} (h : w.lastNumber = s.wx.lastNumber) : Svc.Keeps s { s with wx := w } :=
  ⟨rfl, rfl, rfl, rfl, rfl, rfl, h, fun _ h => h, fun _ h => h⟩

theorem Svc.keeps_note (s : Svc) {n : Note} (h : n.keep = s.note.keep) : Svc.Keeps s { s with note := n } :=
  ⟨rfl, rfl, rfl, rfl, rfl, h, rfl, fun _ h => h, fun _ h => h⟩

/-! ## Requests and frees (R123, R126) -/

theorem Svc.keeps_reportFreeing (s : Svc) : Svc.Keeps s s.reportFreeing :=
  ⟨rfl, rfl, rfl, rfl, rfl, rfl, rfl, fun _ h => h, fun _ h => h⟩

theorem Svc.keeps_freeBuffers (s : Svc) (c : PoolClass) (n : Nat) : Svc.Keeps s (s.freeBuffers c n) := by
  unfold Svc.freeBuffers
  split
  · exact .refl s
  · have h := Svc.keeps_pool s (Pool.total_release s.pool c n) (Pool.bounds_release s.pool c n)
    simp only []
    split
    · exact h.trans (Svc.keeps_reportFreeing _)
    · exact h

theorem Svc.keeps_refuseBuffers (s : Svc) (c : PoolClass) (r : PoolReason) :
    Svc.Keeps s (s.refuseBuffers c r) := by
  unfold Svc.refuseBuffers
  apply Svc.keeps_pool
  · split <;> simp
  · split <;> simp

theorem Svc.keeps_evictOldest {s t : Svc} {b : Bool} {k : Nat} (h : s.evictOldest b = some (t, k)) :
    Svc.Keeps s t := by
  unfold Svc.evictOldest at h
  split at h
  · cases h
  · simp only [Option.some.injEq, Prod.mk.injEq] at h
    obtain ⟨rfl, _⟩ := h
    refine Svc.Keeps.trans (Svc.keeps_wx s ?_) (Svc.keeps_freeBuffers _ _ _)
    split <;> rfl

theorem Svc.keeps_countEviction (s : Svc) (c : PoolClass) (k : Nat) :
    Svc.Keeps s { s with pool := s.pool.countEviction c k } :=
  Svc.keeps_pool s (Pool.total_countEviction ..) (Pool.bounds_countEviction ..)

theorem Svc.keeps_requestLoop (c : PoolClass) (n fuel : Nat) (s : Svc) :
    Svc.Keeps s (Svc.requestLoop c n fuel s).1 := by
  induction fuel generalizing s with
  | zero =>
    unfold Svc.requestLoop
    split
    · rename_i h
      exact Svc.keeps_pool s (Pool.total_grant (Pool.free_of_decide h)) (Pool.bounds_grant ..)
    · exact Svc.keeps_refuseBuffers ..
  | succ fuel ih =>
    unfold Svc.requestLoop
    split
    · rename_i h
      exact Svc.keeps_pool s (Pool.total_grant (Pool.free_of_decide h)) (Pool.bounds_grant ..)
    · split
      · exact Svc.keeps_refuseBuffers ..
      · split
        · exact Svc.keeps_refuseBuffers ..
        · rename_i h
          exact ((Svc.keeps_evictOldest h).trans (Svc.keeps_countEviction ..)).trans (ih _)

/-- R122, R123: a request for buffers keeps the pool's sum. -/
theorem Svc.keeps_requestBuffers (s : Svc) (c : PoolClass) (n : Nat) : Svc.Keeps s (s.requestBuffers c n).1 :=
  Svc.keeps_requestLoop ..

/-! ## Offers (R31, R32) -/

theorem Svc.keeps_offerNormal (s : Svc) (m : Message) : Svc.Keeps s (s.offerNormal m).1 := by
  have h := Svc.keeps_requestBuffers s .transit (transitBuffers m.length)
  unfold Svc.offerNormal
  split
  · split
    · rename_i heq
      rw [heq] at h
      exact h.trans ⟨rfl, rfl, rfl, rfl, rfl, rfl, rfl, fun _ h => h, fun _ h => List.mem_append_left _ h⟩
    · rename_i heq
      rw [heq] at h
      exact h
  · exact .refl s

theorem Svc.keeps_offerEmergency (s : Svc) (m : Message) : Svc.Keeps s (s.offerEmergency m).1 := by
  have h := Svc.keeps_requestBuffers s .transit (transitBuffers m.length)
  unfold Svc.offerEmergency
  split
  · split
    · rename_i heq
      rw [heq] at h
      exact h.trans ⟨rfl, rfl, rfl, rfl, rfl, rfl, rfl, fun _ h => List.mem_append_left _ h, fun _ h => h⟩
    · rename_i heq
      rw [heq] at h
      exact h
  · exact .refl s

theorem Svc.keeps_offerPlaceholder (s : Svc) (k : CollKind) (b : Nat) :
    Svc.Keeps s (s.offerPlaceholder k b).1 := by
  unfold Svc.offerPlaceholder
  split
  · exact ⟨rfl, rfl, rfl, rfl, rfl, rfl, rfl, fun _ h => h, fun _ h => List.mem_append_left _ h⟩
  · exact .refl s

theorem Svc.Keeps.queued {s t : Svc} (h : Svc.Keeps s t) {m : Message} (hm : s.queued m) : t.queued m := by
  obtain ⟨q, hq, rfl⟩ := hm
  exact ⟨q, h.normal _ hq, rfl⟩

/-- R31: an offer that is taken stands in the normal queue. -/
theorem Svc.queued_of_offerNormal {s : Svc} {m : Message} (h : (s.offerNormal m).2 = true) :
    (s.offerNormal m).1.queued m := by
  unfold Svc.offerNormal at h ⊢
  split at h
  · rename_i hc
    simp only [hc, if_true]
    split at h
    · rename_i heq
      exact ⟨_, List.mem_append_right _ (List.mem_singleton_self _), rfl⟩
    · cases h
  · cases h

/-! ## Notices and segments -/

@[simp] theorem Note.setAttention_keep (n : Note) : n.setAttention.keep = n.keep := by
  unfold Note.setAttention; split <;> rfl

@[simp] theorem Note.append_keep (n : Note) (e : Notice) : (n.append e).keep = n.keep := by
  unfold Note.append
  split
  · simp
  · rfl

theorem Svc.keeps_of_offer {s t : Svc} {m : Message} {b : Bool} (h : s.offerNormal m = (t, b)) : Svc.Keeps s t := by
  have k := Svc.keeps_offerNormal s m
  rwa [h] at k

theorem Svc.keeps_append (s : Svc) (e : Notice) : Svc.Keeps s { s with note := s.note.append e } :=
  Svc.keeps_note s (Note.append_keep s.note e)

theorem Svc.keeps_lookCentre (fuel : Nat) (s : Svc) : Svc.Keeps s (Svc.lookCentre fuel s) := by
  induction fuel generalizing s with
  | zero => exact .refl s
  | succ fuel ih =>
    unfold Svc.lookCentre
    simp only []
    split
    · exact .refl s
    · split
      · rename_i heq
        exact ((Svc.keeps_of_offer heq).trans (Svc.keeps_note _ (by simp))).trans (ih _)
      · rename_i heq
        exact Svc.keeps_of_offer heq

/-- R176: filing a notice keeps what `Svc.Keeps` says. -/
theorem Svc.keeps_post (s : Svc) (c : NoticeCode) (b : Subject) (d : List Value) : Svc.Keeps s (s.post c b d) := by
  unfold Svc.post
  simp only []
  split
  · exact .refl s
  · split
    · exact (Svc.keeps_append s _).trans (Svc.keeps_lookCentre ..)
    · exact Svc.keeps_append s _

theorem Svc.keeps_closeOpen (s : Svc) (d : Nat) (c : CloseCause) : Svc.Keeps s (s.closeOpen d c) := by
  unfold Svc.closeOpen
  split
  · exact .refl s
  · unfold Svc.closeSegment
    exact (Svc.keeps_wx s (by rfl)).trans (Svc.keeps_post ..)

/-- R32: what a producer withdraws leaves the normal queue, and its buffers are freed; nothing else of the services
changes but the pool. -/
theorem Svc.withdrawNormal_spec (s : Svc) (p : Message → Bool) :
    let v := s.withdrawNormal p
    v.queues.normal = s.queues.normal.filter (fun e => !NEntry.unplaced p e) ∧
    v.queues.emergency = s.queues.emergency ∧ v.pool.total = s.pool.total ∧ v.settings = s.settings ∧
    v.wx = s.wx ∧ v.note = s.note := by
  unfold Svc.withdrawNormal
  simp only []
  split
  · rename_i h
    refine ⟨?_, rfl, rfl, rfl, rfl, rfl⟩
    symm
    rw [List.filter_eq_self]
    intro a ha
    by_contra hc
    have : a ∈ List.filter (NEntry.unplaced p) s.queues.normal := List.mem_filter.2 ⟨ha, by simpa using hc⟩
    rw [h] at this
    cases this
  · unfold Svc.freeBuffers Svc.reportFreeing
    split
    · exact ⟨rfl, rfl, rfl, rfl, rfl, rfl⟩
    · simp only []
      split <;> exact ⟨rfl, rfl, by simp, rfl, rfl, rfl⟩

end Sys2Proof.Machine
end

