-- ==== Sys2Proof/Laws/State.lean ====
section
/-! SUPPORT. What each update of the node leaves in each of its parts, so that no proof unfolds a record update. -/

namespace Sys2Proof.Machine

@[simp] theorem Node.onSvc_svc (n : Node) (f : Svc → Svc) : (n.onSvc f).svc = f n.svc := rfl
@[simp] theorem Node.onSvc_phase (n : Node) (f : Svc → Svc) : (n.onSvc f).phase = n.phase := rfl
@[simp] theorem Node.onSvc_restartDue (n : Node) (f : Svc → Svc) : (n.onSvc f).restartDue = n.restartDue := rfl
@[simp] theorem Node.onSvc_pins (n : Node) (f : Svc → Svc) : (n.onSvc f).pins = n.pins := rfl
@[simp] theorem Node.onSvc_east (n : Node) (f : Svc → Svc) : (n.onSvc f).east = n.east := rfl
@[simp] theorem Node.onSvc_west (n : Node) (f : Svc → Svc) : (n.onSvc f).west = n.west := rfl
@[simp] theorem Node.onSvc_ring (n : Node) (f : Svc → Svc) : (n.onSvc f).ring = n.ring := rfl
@[simp] theorem Node.onSvc_head (n : Node) (f : Svc → Svc) : (n.onSvc f).head = n.head := rfl
@[simp] theorem Node.onSvc_win (n : Node) (f : Svc → Svc) : (n.onSvc f).win = n.win := rfl
@[simp] theorem Node.onSvc_call (n : Node) (f : Svc → Svc) : (n.onSvc f).call = n.call := rfl
@[simp] theorem Node.onSvc_zone (n : Node) (f : Svc → Svc) : (n.onSvc f).zone = n.zone := rfl
@[simp] theorem Node.onSvc_trib (n : Node) (f : Svc → Svc) : (n.onSvc f).trib = n.trib := rfl
@[simp] theorem Node.onSvc_toll (n : Node) (f : Svc → Svc) : (n.onSvc f).toll = n.toll := rfl
@[simp] theorem Node.onSvc_rules (n : Node) (f : Svc → Svc) : (n.onSvc f).rules = n.rules := rfl
@[simp] theorem Node.onSvc_coll (n : Node) (f : Svc → Svc) : (n.onSvc f).coll = n.coll := rfl
@[simp] theorem Node.onSvc_cmd (n : Node) (f : Svc → Svc) : (n.onSvc f).cmd = n.cmd := rfl
@[simp] theorem Node.onSvc_link (n : Node) (f : Svc → Svc) : (n.onSvc f).link = n.link := rfl
@[simp] theorem Node.onSvc_writing (n : Node) (f : Svc → Svc) : (n.onSvc f).writing = n.writing := rfl
@[simp] theorem Node.onSvc_applied (n : Node) (f : Svc → Svc) : (n.onSvc f).applied = n.applied := rfl
@[simp] theorem Node.onSvc_skipped (n : Node) (f : Svc → Svc) : (n.onSvc f).skipped = n.skipped := rfl

@[simp] theorem Node.onZone_svc (n : Node) (f : ZoneSt → ZoneSt) : (n.onZone f).svc = (f (n.svc, n.zone)).1 := rfl
@[simp] theorem Node.onZone_phase (n : Node) (f : ZoneSt → ZoneSt) : (n.onZone f).phase = n.phase := rfl
@[simp] theorem Node.onZone_restartDue (n : Node) (f : ZoneSt → ZoneSt) : (n.onZone f).restartDue = n.restartDue := rfl
@[simp] theorem Node.onZone_pins (n : Node) (f : ZoneSt → ZoneSt) : (n.onZone f).pins = n.pins := rfl
@[simp] theorem Node.onZone_east (n : Node) (f : ZoneSt → ZoneSt) : (n.onZone f).east = n.east := rfl
@[simp] theorem Node.onZone_west (n : Node) (f : ZoneSt → ZoneSt) : (n.onZone f).west = n.west := rfl
@[simp] theorem Node.onZone_ring (n : Node) (f : ZoneSt → ZoneSt) : (n.onZone f).ring = n.ring := rfl
@[simp] theorem Node.onZone_head (n : Node) (f : ZoneSt → ZoneSt) : (n.onZone f).head = n.head := rfl
@[simp] theorem Node.onZone_win (n : Node) (f : ZoneSt → ZoneSt) : (n.onZone f).win = n.win := rfl
@[simp] theorem Node.onZone_call (n : Node) (f : ZoneSt → ZoneSt) : (n.onZone f).call = n.call := rfl
@[simp] theorem Node.onZone_zone (n : Node) (f : ZoneSt → ZoneSt) : (n.onZone f).zone = (f (n.svc, n.zone)).2 := rfl
@[simp] theorem Node.onZone_trib (n : Node) (f : ZoneSt → ZoneSt) : (n.onZone f).trib = n.trib := rfl
@[simp] theorem Node.onZone_toll (n : Node) (f : ZoneSt → ZoneSt) : (n.onZone f).toll = n.toll := rfl
@[simp] theorem Node.onZone_rules (n : Node) (f : ZoneSt → ZoneSt) : (n.onZone f).rules = n.rules := rfl
@[simp] theorem Node.onZone_coll (n : Node) (f : ZoneSt → ZoneSt) : (n.onZone f).coll = n.coll := rfl
@[simp] theorem Node.onZone_cmd (n : Node) (f : ZoneSt → ZoneSt) : (n.onZone f).cmd = n.cmd := rfl
@[simp] theorem Node.onZone_link (n : Node) (f : ZoneSt → ZoneSt) : (n.onZone f).link = n.link := rfl
@[simp] theorem Node.onZone_writing (n : Node) (f : ZoneSt → ZoneSt) : (n.onZone f).writing = n.writing := rfl
@[simp] theorem Node.onZone_applied (n : Node) (f : ZoneSt → ZoneSt) : (n.onZone f).applied = n.applied := rfl
@[simp] theorem Node.onZone_skipped (n : Node) (f : ZoneSt → ZoneSt) : (n.onZone f).skipped = n.skipped := rfl

@[simp] theorem Node.onToll_svc (n : Node) (f : TollSt → TollSt) : (n.onToll f).svc = (f (n.svc, n.toll)).1 := rfl
@[simp] theorem Node.onToll_phase (n : Node) (f : TollSt → TollSt) : (n.onToll f).phase = n.phase := rfl
@[simp] theorem Node.onToll_restartDue (n : Node) (f : TollSt → TollSt) : (n.onToll f).restartDue = n.restartDue := rfl
@[simp] theorem Node.onToll_pins (n : Node) (f : TollSt → TollSt) : (n.onToll f).pins = n.pins := rfl
@[simp] theorem Node.onToll_east (n : Node) (f : TollSt → TollSt) : (n.onToll f).east = n.east := rfl
@[simp] theorem Node.onToll_west (n : Node) (f : TollSt → TollSt) : (n.onToll f).west = n.west := rfl
@[simp] theorem Node.onToll_ring (n : Node) (f : TollSt → TollSt) : (n.onToll f).ring = n.ring := rfl
@[simp] theorem Node.onToll_head (n : Node) (f : TollSt → TollSt) : (n.onToll f).head = n.head := rfl
@[simp] theorem Node.onToll_win (n : Node) (f : TollSt → TollSt) : (n.onToll f).win = n.win := rfl
@[simp] theorem Node.onToll_call (n : Node) (f : TollSt → TollSt) : (n.onToll f).call = n.call := rfl
@[simp] theorem Node.onToll_zone (n : Node) (f : TollSt → TollSt) : (n.onToll f).zone = n.zone := rfl
@[simp] theorem Node.onToll_trib (n : Node) (f : TollSt → TollSt) : (n.onToll f).trib = n.trib := rfl
@[simp] theorem Node.onToll_toll (n : Node) (f : TollSt → TollSt) : (n.onToll f).toll = (f (n.svc, n.toll)).2 := rfl
@[simp] theorem Node.onToll_rules (n : Node) (f : TollSt → TollSt) : (n.onToll f).rules = n.rules := rfl
@[simp] theorem Node.onToll_coll (n : Node) (f : TollSt → TollSt) : (n.onToll f).coll = n.coll := rfl
@[simp] theorem Node.onToll_cmd (n : Node) (f : TollSt → TollSt) : (n.onToll f).cmd = n.cmd := rfl
@[simp] theorem Node.onToll_link (n : Node) (f : TollSt → TollSt) : (n.onToll f).link = n.link := rfl
@[simp] theorem Node.onToll_writing (n : Node) (f : TollSt → TollSt) : (n.onToll f).writing = n.writing := rfl
@[simp] theorem Node.onToll_applied (n : Node) (f : TollSt → TollSt) : (n.onToll f).applied = n.applied := rfl
@[simp] theorem Node.onToll_skipped (n : Node) (f : TollSt → TollSt) : (n.onToll f).skipped = n.skipped := rfl

@[simp] theorem Node.onWin_svc (n : Node) (f : Win → Win) : (n.onWin f).svc = n.svc := rfl
@[simp] theorem Node.onWin_phase (n : Node) (f : Win → Win) : (n.onWin f).phase = n.phase := rfl
@[simp] theorem Node.onWin_restartDue (n : Node) (f : Win → Win) : (n.onWin f).restartDue = n.restartDue := rfl
@[simp] theorem Node.onWin_pins (n : Node) (f : Win → Win) : (n.onWin f).pins = n.pins := rfl
@[simp] theorem Node.onWin_east (n : Node) (f : Win → Win) : (n.onWin f).east = n.east := rfl
@[simp] theorem Node.onWin_west (n : Node) (f : Win → Win) : (n.onWin f).west = n.west := rfl
@[simp] theorem Node.onWin_ring (n : Node) (f : Win → Win) : (n.onWin f).ring = n.ring := rfl
@[simp] theorem Node.onWin_head (n : Node) (f : Win → Win) : (n.onWin f).head = n.head := rfl
@[simp] theorem Node.onWin_win (n : Node) (f : Win → Win) : (n.onWin f).win = f n.win := rfl
@[simp] theorem Node.onWin_call (n : Node) (f : Win → Win) : (n.onWin f).call = n.call := rfl
@[simp] theorem Node.onWin_zone (n : Node) (f : Win → Win) : (n.onWin f).zone = n.zone := rfl
@[simp] theorem Node.onWin_trib (n : Node) (f : Win → Win) : (n.onWin f).trib = n.trib := rfl
@[simp] theorem Node.onWin_toll (n : Node) (f : Win → Win) : (n.onWin f).toll = n.toll := rfl
@[simp] theorem Node.onWin_rules (n : Node) (f : Win → Win) : (n.onWin f).rules = n.rules := rfl
@[simp] theorem Node.onWin_coll (n : Node) (f : Win → Win) : (n.onWin f).coll = n.coll := rfl
@[simp] theorem Node.onWin_cmd (n : Node) (f : Win → Win) : (n.onWin f).cmd = n.cmd := rfl
@[simp] theorem Node.onWin_link (n : Node) (f : Win → Win) : (n.onWin f).link = n.link := rfl
@[simp] theorem Node.onWin_writing (n : Node) (f : Win → Win) : (n.onWin f).writing = n.writing := rfl
@[simp] theorem Node.onWin_applied (n : Node) (f : Win → Win) : (n.onWin f).applied = n.applied := rfl
@[simp] theorem Node.onWin_skipped (n : Node) (f : Win → Win) : (n.onWin f).skipped = n.skipped := rfl

@[simp] theorem Node.onCmd_svc (n : Node) (f : Cmd → Cmd) : (n.onCmd f).svc = n.svc := rfl
@[simp] theorem Node.onCmd_phase (n : Node) (f : Cmd → Cmd) : (n.onCmd f).phase = n.phase := rfl
@[simp] theorem Node.onCmd_restartDue (n : Node) (f : Cmd → Cmd) : (n.onCmd f).restartDue = n.restartDue := rfl
@[simp] theorem Node.onCmd_pins (n : Node) (f : Cmd → Cmd) : (n.onCmd f).pins = n.pins := rfl
@[simp] theorem Node.onCmd_east (n : Node) (f : Cmd → Cmd) : (n.onCmd f).east = n.east := rfl
@[simp] theorem Node.onCmd_west (n : Node) (f : Cmd → Cmd) : (n.onCmd f).west = n.west := rfl
@[simp] theorem Node.onCmd_ring (n : Node) (f : Cmd → Cmd) : (n.onCmd f).ring = n.ring := rfl
@[simp] theorem Node.onCmd_head (n : Node) (f : Cmd → Cmd) : (n.onCmd f).head = n.head := rfl
@[simp] theorem Node.onCmd_win (n : Node) (f : Cmd → Cmd) : (n.onCmd f).win = n.win := rfl
@[simp] theorem Node.onCmd_call (n : Node) (f : Cmd → Cmd) : (n.onCmd f).call = n.call := rfl
@[simp] theorem Node.onCmd_zone (n : Node) (f : Cmd → Cmd) : (n.onCmd f).zone = n.zone := rfl
@[simp] theorem Node.onCmd_trib (n : Node) (f : Cmd → Cmd) : (n.onCmd f).trib = n.trib := rfl
@[simp] theorem Node.onCmd_toll (n : Node) (f : Cmd → Cmd) : (n.onCmd f).toll = n.toll := rfl
@[simp] theorem Node.onCmd_rules (n : Node) (f : Cmd → Cmd) : (n.onCmd f).rules = n.rules := rfl
@[simp] theorem Node.onCmd_coll (n : Node) (f : Cmd → Cmd) : (n.onCmd f).coll = n.coll := rfl
@[simp] theorem Node.onCmd_cmd (n : Node) (f : Cmd → Cmd) : (n.onCmd f).cmd = f n.cmd := rfl
@[simp] theorem Node.onCmd_link (n : Node) (f : Cmd → Cmd) : (n.onCmd f).link = n.link := rfl
@[simp] theorem Node.onCmd_writing (n : Node) (f : Cmd → Cmd) : (n.onCmd f).writing = n.writing := rfl
@[simp] theorem Node.onCmd_applied (n : Node) (f : Cmd → Cmd) : (n.onCmd f).applied = n.applied := rfl
@[simp] theorem Node.onCmd_skipped (n : Node) (f : Cmd → Cmd) : (n.onCmd f).skipped = n.skipped := rfl

@[simp] theorem Node.onLink_svc (n : Node) (f : Link → Link) : (n.onLink f).svc = n.svc := rfl
@[simp] theorem Node.onLink_phase (n : Node) (f : Link → Link) : (n.onLink f).phase = n.phase := rfl
@[simp] theorem Node.onLink_restartDue (n : Node) (f : Link → Link) : (n.onLink f).restartDue = n.restartDue := rfl
@[simp] theorem Node.onLink_pins (n : Node) (f : Link → Link) : (n.onLink f).pins = n.pins := rfl
@[simp] theorem Node.onLink_east (n : Node) (f : Link → Link) : (n.onLink f).east = n.east := rfl
@[simp] theorem Node.onLink_west (n : Node) (f : Link → Link) : (n.onLink f).west = n.west := rfl
@[simp] theorem Node.onLink_ring (n : Node) (f : Link → Link) : (n.onLink f).ring = n.ring := rfl
@[simp] theorem Node.onLink_head (n : Node) (f : Link → Link) : (n.onLink f).head = n.head := rfl
@[simp] theorem Node.onLink_win (n : Node) (f : Link → Link) : (n.onLink f).win = n.win := rfl
@[simp] theorem Node.onLink_call (n : Node) (f : Link → Link) : (n.onLink f).call = n.call := rfl
@[simp] theorem Node.onLink_zone (n : Node) (f : Link → Link) : (n.onLink f).zone = n.zone := rfl
@[simp] theorem Node.onLink_trib (n : Node) (f : Link → Link) : (n.onLink f).trib = n.trib := rfl
@[simp] theorem Node.onLink_toll (n : Node) (f : Link → Link) : (n.onLink f).toll = n.toll := rfl
@[simp] theorem Node.onLink_rules (n : Node) (f : Link → Link) : (n.onLink f).rules = n.rules := rfl
@[simp] theorem Node.onLink_coll (n : Node) (f : Link → Link) : (n.onLink f).coll = n.coll := rfl
@[simp] theorem Node.onLink_cmd (n : Node) (f : Link → Link) : (n.onLink f).cmd = n.cmd := rfl
@[simp] theorem Node.onLink_link (n : Node) (f : Link → Link) : (n.onLink f).link = f n.link := rfl
@[simp] theorem Node.onLink_writing (n : Node) (f : Link → Link) : (n.onLink f).writing = n.writing := rfl
@[simp] theorem Node.onLink_applied (n : Node) (f : Link → Link) : (n.onLink f).applied = n.applied := rfl
@[simp] theorem Node.onLink_skipped (n : Node) (f : Link → Link) : (n.onLink f).skipped = n.skipped := rfl

@[simp] theorem Node.onColl_svc (n : Node) (f : Coll → Coll) : (n.onColl f).svc = n.svc := rfl
@[simp] theorem Node.onColl_phase (n : Node) (f : Coll → Coll) : (n.onColl f).phase = n.phase := rfl
@[simp] theorem Node.onColl_restartDue (n : Node) (f : Coll → Coll) : (n.onColl f).restartDue = n.restartDue := rfl
@[simp] theorem Node.onColl_pins (n : Node) (f : Coll → Coll) : (n.onColl f).pins = n.pins := rfl
@[simp] theorem Node.onColl_east (n : Node) (f : Coll → Coll) : (n.onColl f).east = n.east := rfl
@[simp] theorem Node.onColl_west (n : Node) (f : Coll → Coll) : (n.onColl f).west = n.west := rfl
@[simp] theorem Node.onColl_ring (n : Node) (f : Coll → Coll) : (n.onColl f).ring = n.ring := rfl
@[simp] theorem Node.onColl_head (n : Node) (f : Coll → Coll) : (n.onColl f).head = n.head := rfl
@[simp] theorem Node.onColl_win (n : Node) (f : Coll → Coll) : (n.onColl f).win = n.win := rfl
@[simp] theorem Node.onColl_call (n : Node) (f : Coll → Coll) : (n.onColl f).call = n.call := rfl
@[simp] theorem Node.onColl_zone (n : Node) (f : Coll → Coll) : (n.onColl f).zone = n.zone := rfl
@[simp] theorem Node.onColl_trib (n : Node) (f : Coll → Coll) : (n.onColl f).trib = n.trib := rfl
@[simp] theorem Node.onColl_toll (n : Node) (f : Coll → Coll) : (n.onColl f).toll = n.toll := rfl
@[simp] theorem Node.onColl_rules (n : Node) (f : Coll → Coll) : (n.onColl f).rules = n.rules := rfl
@[simp] theorem Node.onColl_coll (n : Node) (f : Coll → Coll) : (n.onColl f).coll = f n.coll := rfl
@[simp] theorem Node.onColl_cmd (n : Node) (f : Coll → Coll) : (n.onColl f).cmd = n.cmd := rfl
@[simp] theorem Node.onColl_link (n : Node) (f : Coll → Coll) : (n.onColl f).link = n.link := rfl
@[simp] theorem Node.onColl_writing (n : Node) (f : Coll → Coll) : (n.onColl f).writing = n.writing := rfl
@[simp] theorem Node.onColl_applied (n : Node) (f : Coll → Coll) : (n.onColl f).applied = n.applied := rfl
@[simp] theorem Node.onColl_skipped (n : Node) (f : Coll → Coll) : (n.onColl f).skipped = n.skipped := rfl

@[simp] theorem Node.onCall_svc (n : Node) (f : Call → Call) : (n.onCall f).svc = n.svc := rfl
@[simp] theorem Node.onCall_phase (n : Node) (f : Call → Call) : (n.onCall f).phase = n.phase := rfl
@[simp] theorem Node.onCall_restartDue (n : Node) (f : Call → Call) : (n.onCall f).restartDue = n.restartDue := rfl
@[simp] theorem Node.onCall_pins (n : Node) (f : Call → Call) : (n.onCall f).pins = n.pins := rfl
@[simp] theorem Node.onCall_east (n : Node) (f : Call → Call) : (n.onCall f).east = n.east := rfl
@[simp] theorem Node.onCall_west (n : Node) (f : Call → Call) : (n.onCall f).west = n.west := rfl
@[simp] theorem Node.onCall_ring (n : Node) (f : Call → Call) : (n.onCall f).ring = n.ring := rfl
@[simp] theorem Node.onCall_head (n : Node) (f : Call → Call) : (n.onCall f).head = n.head := rfl
@[simp] theorem Node.onCall_win (n : Node) (f : Call → Call) : (n.onCall f).win = n.win := rfl
@[simp] theorem Node.onCall_call (n : Node) (f : Call → Call) : (n.onCall f).call = f n.call := rfl
@[simp] theorem Node.onCall_zone (n : Node) (f : Call → Call) : (n.onCall f).zone = n.zone := rfl
@[simp] theorem Node.onCall_trib (n : Node) (f : Call → Call) : (n.onCall f).trib = n.trib := rfl
@[simp] theorem Node.onCall_toll (n : Node) (f : Call → Call) : (n.onCall f).toll = n.toll := rfl
@[simp] theorem Node.onCall_rules (n : Node) (f : Call → Call) : (n.onCall f).rules = n.rules := rfl
@[simp] theorem Node.onCall_coll (n : Node) (f : Call → Call) : (n.onCall f).coll = n.coll := rfl
@[simp] theorem Node.onCall_cmd (n : Node) (f : Call → Call) : (n.onCall f).cmd = n.cmd := rfl
@[simp] theorem Node.onCall_link (n : Node) (f : Call → Call) : (n.onCall f).link = n.link := rfl
@[simp] theorem Node.onCall_writing (n : Node) (f : Call → Call) : (n.onCall f).writing = n.writing := rfl
@[simp] theorem Node.onCall_applied (n : Node) (f : Call → Call) : (n.onCall f).applied = n.applied := rfl
@[simp] theorem Node.onCall_skipped (n : Node) (f : Call → Call) : (n.onCall f).skipped = n.skipped := rfl

@[simp] theorem Node.onTrib_svc (n : Node) (f : Trib → Trib) : (n.onTrib f).svc = n.svc := rfl
@[simp] theorem Node.onTrib_phase (n : Node) (f : Trib → Trib) : (n.onTrib f).phase = n.phase := rfl
@[simp] theorem Node.onTrib_restartDue (n : Node) (f : Trib → Trib) : (n.onTrib f).restartDue = n.restartDue := rfl
@[simp] theorem Node.onTrib_pins (n : Node) (f : Trib → Trib) : (n.onTrib f).pins = n.pins := rfl
@[simp] theorem Node.onTrib_east (n : Node) (f : Trib → Trib) : (n.onTrib f).east = n.east := rfl
@[simp] theorem Node.onTrib_west (n : Node) (f : Trib → Trib) : (n.onTrib f).west = n.west := rfl
@[simp] theorem Node.onTrib_ring (n : Node) (f : Trib → Trib) : (n.onTrib f).ring = n.ring := rfl
@[simp] theorem Node.onTrib_head (n : Node) (f : Trib → Trib) : (n.onTrib f).head = n.head := rfl
@[simp] theorem Node.onTrib_win (n : Node) (f : Trib → Trib) : (n.onTrib f).win = n.win := rfl
@[simp] theorem Node.onTrib_call (n : Node) (f : Trib → Trib) : (n.onTrib f).call = n.call := rfl
@[simp] theorem Node.onTrib_zone (n : Node) (f : Trib → Trib) : (n.onTrib f).zone = n.zone := rfl
@[simp] theorem Node.onTrib_trib (n : Node) (f : Trib → Trib) : (n.onTrib f).trib = f n.trib := rfl
@[simp] theorem Node.onTrib_toll (n : Node) (f : Trib → Trib) : (n.onTrib f).toll = n.toll := rfl
@[simp] theorem Node.onTrib_rules (n : Node) (f : Trib → Trib) : (n.onTrib f).rules = n.rules := rfl
@[simp] theorem Node.onTrib_coll (n : Node) (f : Trib → Trib) : (n.onTrib f).coll = n.coll := rfl
@[simp] theorem Node.onTrib_cmd (n : Node) (f : Trib → Trib) : (n.onTrib f).cmd = n.cmd := rfl
@[simp] theorem Node.onTrib_link (n : Node) (f : Trib → Trib) : (n.onTrib f).link = n.link := rfl
@[simp] theorem Node.onTrib_writing (n : Node) (f : Trib → Trib) : (n.onTrib f).writing = n.writing := rfl
@[simp] theorem Node.onTrib_applied (n : Node) (f : Trib → Trib) : (n.onTrib f).applied = n.applied := rfl
@[simp] theorem Node.onTrib_skipped (n : Node) (f : Trib → Trib) : (n.onTrib f).skipped = n.skipped := rfl

@[simp] theorem Node.onHead_svc (n : Node) (f : Head → Head) : (n.onHead f).svc = n.svc := rfl
@[simp] theorem Node.onHead_phase (n : Node) (f : Head → Head) : (n.onHead f).phase = n.phase := rfl
@[simp] theorem Node.onHead_restartDue (n : Node) (f : Head → Head) : (n.onHead f).restartDue = n.restartDue := rfl
@[simp] theorem Node.onHead_pins (n : Node) (f : Head → Head) : (n.onHead f).pins = n.pins := rfl
@[simp] theorem Node.onHead_east (n : Node) (f : Head → Head) : (n.onHead f).east = n.east := rfl
@[simp] theorem Node.onHead_west (n : Node) (f : Head → Head) : (n.onHead f).west = n.west := rfl
@[simp] theorem Node.onHead_ring (n : Node) (f : Head → Head) : (n.onHead f).ring = n.ring := rfl
@[simp] theorem Node.onHead_head (n : Node) (f : Head → Head) : (n.onHead f).head = f n.head := rfl
@[simp] theorem Node.onHead_win (n : Node) (f : Head → Head) : (n.onHead f).win = n.win := rfl
@[simp] theorem Node.onHead_call (n : Node) (f : Head → Head) : (n.onHead f).call = n.call := rfl
@[simp] theorem Node.onHead_zone (n : Node) (f : Head → Head) : (n.onHead f).zone = n.zone := rfl
@[simp] theorem Node.onHead_trib (n : Node) (f : Head → Head) : (n.onHead f).trib = n.trib := rfl
@[simp] theorem Node.onHead_toll (n : Node) (f : Head → Head) : (n.onHead f).toll = n.toll := rfl
@[simp] theorem Node.onHead_rules (n : Node) (f : Head → Head) : (n.onHead f).rules = n.rules := rfl
@[simp] theorem Node.onHead_coll (n : Node) (f : Head → Head) : (n.onHead f).coll = n.coll := rfl
@[simp] theorem Node.onHead_cmd (n : Node) (f : Head → Head) : (n.onHead f).cmd = n.cmd := rfl
@[simp] theorem Node.onHead_link (n : Node) (f : Head → Head) : (n.onHead f).link = n.link := rfl
@[simp] theorem Node.onHead_writing (n : Node) (f : Head → Head) : (n.onHead f).writing = n.writing := rfl
@[simp] theorem Node.onHead_applied (n : Node) (f : Head → Head) : (n.onHead f).applied = n.applied := rfl
@[simp] theorem Node.onHead_skipped (n : Node) (f : Head → Head) : (n.onHead f).skipped = n.skipped := rfl

@[simp] theorem Node.pushReply_svc (n : Node) (r : Reply) : (n.pushReply r).svc = n.svc := rfl
@[simp] theorem Node.pushReply_phase (n : Node) (r : Reply) : (n.pushReply r).phase = n.phase := rfl
@[simp] theorem Node.pushReply_restartDue (n : Node) (r : Reply) : (n.pushReply r).restartDue = n.restartDue := rfl
@[simp] theorem Node.pushReply_pins (n : Node) (r : Reply) : (n.pushReply r).pins = n.pins := rfl
@[simp] theorem Node.pushReply_east (n : Node) (r : Reply) : (n.pushReply r).east = n.east := rfl
@[simp] theorem Node.pushReply_west (n : Node) (r : Reply) : (n.pushReply r).west = n.west := rfl
@[simp] theorem Node.pushReply_ring (n : Node) (r : Reply) : (n.pushReply r).ring = n.ring := rfl
@[simp] theorem Node.pushReply_head (n : Node) (r : Reply) : (n.pushReply r).head = n.head := rfl
@[simp] theorem Node.pushReply_win (n : Node) (r : Reply) : (n.pushReply r).win = n.win := rfl
@[simp] theorem Node.pushReply_call (n : Node) (r : Reply) : (n.pushReply r).call = n.call := rfl
@[simp] theorem Node.pushReply_zone (n : Node) (r : Reply) : (n.pushReply r).zone = n.zone := rfl
@[simp] theorem Node.pushReply_trib (n : Node) (r : Reply) : (n.pushReply r).trib = n.trib := rfl
@[simp] theorem Node.pushReply_toll (n : Node) (r : Reply) : (n.pushReply r).toll = n.toll := rfl
@[simp] theorem Node.pushReply_rules (n : Node) (r : Reply) : (n.pushReply r).rules = n.rules := rfl
@[simp] theorem Node.pushReply_coll (n : Node) (r : Reply) : (n.pushReply r).coll = n.coll := rfl
@[simp] theorem Node.pushReply_cmd (n : Node) (r : Reply) : (n.pushReply r).cmd = n.cmd := rfl
@[simp] theorem Node.pushReply_link (n : Node) (r : Reply) : (n.pushReply r).link = { n.link with replies := n.link.replies ++ [r] } := rfl
@[simp] theorem Node.pushReply_writing (n : Node) (r : Reply) : (n.pushReply r).writing = n.writing := rfl
@[simp] theorem Node.pushReply_applied (n : Node) (r : Reply) : (n.pushReply r).applied = n.applied := rfl
@[simp] theorem Node.pushReply_skipped (n : Node) (r : Reply) : (n.pushReply r).skipped = n.skipped := rfl

@[simp] theorem Node.onSettings_svc (n : Node) (f : Settings → Settings) : (n.onSettings f).svc = { n.svc with settings := f n.svc.settings } := rfl
@[simp] theorem Node.onSettings_phase (n : Node) (f : Settings → Settings) : (n.onSettings f).phase = n.phase := rfl
@[simp] theorem Node.onSettings_restartDue (n : Node) (f : Settings → Settings) : (n.onSettings f).restartDue = n.restartDue := rfl
@[simp] theorem Node.onSettings_pins (n : Node) (f : Settings → Settings) : (n.onSettings f).pins = n.pins := rfl
@[simp] theorem Node.onSettings_east (n : Node) (f : Settings → Settings) : (n.onSettings f).east = n.east := rfl
@[simp] theorem Node.onSettings_west (n : Node) (f : Settings → Settings) : (n.onSettings f).west = n.west := rfl
@[simp] theorem Node.onSettings_ring (n : Node) (f : Settings → Settings) : (n.onSettings f).ring = n.ring := rfl
@[simp] theorem Node.onSettings_head (n : Node) (f : Settings → Settings) : (n.onSettings f).head = n.head := rfl
@[simp] theorem Node.onSettings_win (n : Node) (f : Settings → Settings) : (n.onSettings f).win = n.win := rfl
@[simp] theorem Node.onSettings_call (n : Node) (f : Settings → Settings) : (n.onSettings f).call = n.call := rfl
@[simp] theorem Node.onSettings_zone (n : Node) (f : Settings → Settings) : (n.onSettings f).zone = n.zone := rfl
@[simp] theorem Node.onSettings_trib (n : Node) (f : Settings → Settings) : (n.onSettings f).trib = n.trib := rfl
@[simp] theorem Node.onSettings_toll (n : Node) (f : Settings → Settings) : (n.onSettings f).toll = n.toll := rfl
@[simp] theorem Node.onSettings_rules (n : Node) (f : Settings → Settings) : (n.onSettings f).rules = n.rules := rfl
@[simp] theorem Node.onSettings_coll (n : Node) (f : Settings → Settings) : (n.onSettings f).coll = n.coll := rfl
@[simp] theorem Node.onSettings_cmd (n : Node) (f : Settings → Settings) : (n.onSettings f).cmd = n.cmd := rfl
@[simp] theorem Node.onSettings_link (n : Node) (f : Settings → Settings) : (n.onSettings f).link = n.link := rfl
@[simp] theorem Node.onSettings_writing (n : Node) (f : Settings → Settings) : (n.onSettings f).writing = n.writing := rfl
@[simp] theorem Node.onSettings_applied (n : Node) (f : Settings → Settings) : (n.onSettings f).applied = n.applied := rfl
@[simp] theorem Node.onSettings_skipped (n : Node) (f : Settings → Settings) : (n.onSettings f).skipped = n.skipped := rfl

@[simp] theorem Node.onLoop_svc (n : Node) (l : Loop) (f : LoopSt → LoopSt) : (n.onLoop l f).svc = n.svc := rfl
@[simp] theorem Node.onLoop_phase (n : Node) (l : Loop) (f : LoopSt → LoopSt) : (n.onLoop l f).phase = n.phase := rfl
@[simp] theorem Node.onLoop_restartDue (n : Node) (l : Loop) (f : LoopSt → LoopSt) : (n.onLoop l f).restartDue = n.restartDue := rfl
@[simp] theorem Node.onLoop_pins (n : Node) (l : Loop) (f : LoopSt → LoopSt) : (n.onLoop l f).pins = n.pins := rfl
@[simp] theorem Node.onLoop_east (n : Node) (l : Loop) (f : LoopSt → LoopSt) : (n.onLoop l f).east = n.east := rfl
@[simp] theorem Node.onLoop_west (n : Node) (l : Loop) (f : LoopSt → LoopSt) : (n.onLoop l f).west = n.west := rfl
@[simp] theorem Node.onLoop_ring (n : Node) (l : Loop) (f : LoopSt → LoopSt) : (n.onLoop l f).ring = n.ring := rfl
@[simp] theorem Node.onLoop_head (n : Node) (l : Loop) (f : LoopSt → LoopSt) : (n.onLoop l f).head = n.head := rfl
@[simp] theorem Node.onLoop_win (n : Node) (l : Loop) (f : LoopSt → LoopSt) : (n.onLoop l f).win = n.win.onLoop l f := rfl
@[simp] theorem Node.onLoop_call (n : Node) (l : Loop) (f : LoopSt → LoopSt) : (n.onLoop l f).call = n.call := rfl
@[simp] theorem Node.onLoop_zone (n : Node) (l : Loop) (f : LoopSt → LoopSt) : (n.onLoop l f).zone = n.zone := rfl
@[simp] theorem Node.onLoop_trib (n : Node) (l : Loop) (f : LoopSt → LoopSt) : (n.onLoop l f).trib = n.trib := rfl
@[simp] theorem Node.onLoop_toll (n : Node) (l : Loop) (f : LoopSt → LoopSt) : (n.onLoop l f).toll = n.toll := rfl
@[simp] theorem Node.onLoop_rules (n : Node) (l : Loop) (f : LoopSt → LoopSt) : (n.onLoop l f).rules = n.rules := rfl
@[simp] theorem Node.onLoop_coll (n : Node) (l : Loop) (f : LoopSt → LoopSt) : (n.onLoop l f).coll = n.coll := rfl
@[simp] theorem Node.onLoop_cmd (n : Node) (l : Loop) (f : LoopSt → LoopSt) : (n.onLoop l f).cmd = n.cmd := rfl
@[simp] theorem Node.onLoop_link (n : Node) (l : Loop) (f : LoopSt → LoopSt) : (n.onLoop l f).link = n.link := rfl
@[simp] theorem Node.onLoop_writing (n : Node) (l : Loop) (f : LoopSt → LoopSt) : (n.onLoop l f).writing = n.writing := rfl
@[simp] theorem Node.onLoop_applied (n : Node) (l : Loop) (f : LoopSt → LoopSt) : (n.onLoop l f).applied = n.applied := rfl
@[simp] theorem Node.onLoop_skipped (n : Node) (l : Loop) (f : LoopSt → LoopSt) : (n.onLoop l f).skipped = n.skipped := rfl

@[simp] theorem Node.onDevice_svc (n : Node) (d : Nat) (f : Device → Device) : (n.onDevice d f).svc = n.svc := rfl
@[simp] theorem Node.onDevice_phase (n : Node) (d : Nat) (f : Device → Device) : (n.onDevice d f).phase = n.phase := rfl
@[simp] theorem Node.onDevice_restartDue (n : Node) (d : Nat) (f : Device → Device) : (n.onDevice d f).restartDue = n.restartDue := rfl
@[simp] theorem Node.onDevice_pins (n : Node) (d : Nat) (f : Device → Device) : (n.onDevice d f).pins = n.pins := rfl
@[simp] theorem Node.onDevice_east (n : Node) (d : Nat) (f : Device → Device) : (n.onDevice d f).east = n.east := rfl
@[simp] theorem Node.onDevice_west (n : Node) (d : Nat) (f : Device → Device) : (n.onDevice d f).west = n.west := rfl
@[simp] theorem Node.onDevice_ring (n : Node) (d : Nat) (f : Device → Device) : (n.onDevice d f).ring = n.ring := rfl
@[simp] theorem Node.onDevice_head (n : Node) (d : Nat) (f : Device → Device) : (n.onDevice d f).head = n.head := rfl
@[simp] theorem Node.onDevice_win (n : Node) (d : Nat) (f : Device → Device) : (n.onDevice d f).win = n.win := rfl
@[simp] theorem Node.onDevice_call (n : Node) (d : Nat) (f : Device → Device) : (n.onDevice d f).call = n.call := rfl
@[simp] theorem Node.onDevice_zone (n : Node) (d : Nat) (f : Device → Device) : (n.onDevice d f).zone = n.zone := rfl
@[simp] theorem Node.onDevice_trib (n : Node) (d : Nat) (f : Device → Device) : (n.onDevice d f).trib = { n.trib with devices := change f n.trib.devices d } := rfl
@[simp] theorem Node.onDevice_toll (n : Node) (d : Nat) (f : Device → Device) : (n.onDevice d f).toll = n.toll := rfl
@[simp] theorem Node.onDevice_rules (n : Node) (d : Nat) (f : Device → Device) : (n.onDevice d f).rules = n.rules := rfl
@[simp] theorem Node.onDevice_coll (n : Node) (d : Nat) (f : Device → Device) : (n.onDevice d f).coll = n.coll := rfl
@[simp] theorem Node.onDevice_cmd (n : Node) (d : Nat) (f : Device → Device) : (n.onDevice d f).cmd = n.cmd := rfl
@[simp] theorem Node.onDevice_link (n : Node) (d : Nat) (f : Device → Device) : (n.onDevice d f).link = n.link := rfl
@[simp] theorem Node.onDevice_writing (n : Node) (d : Nat) (f : Device → Device) : (n.onDevice d f).writing = n.writing := rfl
@[simp] theorem Node.onDevice_applied (n : Node) (d : Nat) (f : Device → Device) : (n.onDevice d f).applied = n.applied := rfl
@[simp] theorem Node.onDevice_skipped (n : Node) (d : Nat) (f : Device → Device) : (n.onDevice d f).skipped = n.skipped := rfl

@[simp] theorem Node.onLine_svc (n : Node) (l : Nat) (f : Line → Line) : (n.onLine l f).svc = n.svc := rfl
@[simp] theorem Node.onLine_phase (n : Node) (l : Nat) (f : Line → Line) : (n.onLine l f).phase = n.phase := rfl
@[simp] theorem Node.onLine_restartDue (n : Node) (l : Nat) (f : Line → Line) : (n.onLine l f).restartDue = n.restartDue := rfl
@[simp] theorem Node.onLine_pins (n : Node) (l : Nat) (f : Line → Line) : (n.onLine l f).pins = n.pins := rfl
@[simp] theorem Node.onLine_east (n : Node) (l : Nat) (f : Line → Line) : (n.onLine l f).east = n.east := rfl
@[simp] theorem Node.onLine_west (n : Node) (l : Nat) (f : Line → Line) : (n.onLine l f).west = n.west := rfl
@[simp] theorem Node.onLine_ring (n : Node) (l : Nat) (f : Line → Line) : (n.onLine l f).ring = n.ring := rfl
@[simp] theorem Node.onLine_head (n : Node) (l : Nat) (f : Line → Line) : (n.onLine l f).head = n.head := rfl
@[simp] theorem Node.onLine_win (n : Node) (l : Nat) (f : Line → Line) : (n.onLine l f).win = n.win := rfl
@[simp] theorem Node.onLine_call (n : Node) (l : Nat) (f : Line → Line) : (n.onLine l f).call = n.call := rfl
@[simp] theorem Node.onLine_zone (n : Node) (l : Nat) (f : Line → Line) : (n.onLine l f).zone = n.zone := rfl
@[simp] theorem Node.onLine_trib (n : Node) (l : Nat) (f : Line → Line) : (n.onLine l f).trib = { n.trib with lines := change f n.trib.lines l } := rfl
@[simp] theorem Node.onLine_toll (n : Node) (l : Nat) (f : Line → Line) : (n.onLine l f).toll = n.toll := rfl
@[simp] theorem Node.onLine_rules (n : Node) (l : Nat) (f : Line → Line) : (n.onLine l f).rules = n.rules := rfl
@[simp] theorem Node.onLine_coll (n : Node) (l : Nat) (f : Line → Line) : (n.onLine l f).coll = n.coll := rfl
@[simp] theorem Node.onLine_cmd (n : Node) (l : Nat) (f : Line → Line) : (n.onLine l f).cmd = n.cmd := rfl
@[simp] theorem Node.onLine_link (n : Node) (l : Nat) (f : Line → Line) : (n.onLine l f).link = n.link := rfl
@[simp] theorem Node.onLine_writing (n : Node) (l : Nat) (f : Line → Line) : (n.onLine l f).writing = n.writing := rfl
@[simp] theorem Node.onLine_applied (n : Node) (l : Nat) (f : Line → Line) : (n.onLine l f).applied = n.applied := rfl
@[simp] theorem Node.onLine_skipped (n : Node) (l : Nat) (f : Line → Line) : (n.onLine l f).skipped = n.skipped := rfl

@[simp] theorem Node.onRoster_svc (n : Node) (e : Nat) (f : RosterRec → RosterRec) : (n.onRoster e f).svc = n.svc := rfl
@[simp] theorem Node.onRoster_phase (n : Node) (e : Nat) (f : RosterRec → RosterRec) : (n.onRoster e f).phase = n.phase := rfl
@[simp] theorem Node.onRoster_restartDue (n : Node) (e : Nat) (f : RosterRec → RosterRec) : (n.onRoster e f).restartDue = n.restartDue := rfl
@[simp] theorem Node.onRoster_pins (n : Node) (e : Nat) (f : RosterRec → RosterRec) : (n.onRoster e f).pins = n.pins := rfl
@[simp] theorem Node.onRoster_east (n : Node) (e : Nat) (f : RosterRec → RosterRec) : (n.onRoster e f).east = n.east := rfl
@[simp] theorem Node.onRoster_west (n : Node) (e : Nat) (f : RosterRec → RosterRec) : (n.onRoster e f).west = n.west := rfl
@[simp] theorem Node.onRoster_ring (n : Node) (e : Nat) (f : RosterRec → RosterRec) : (n.onRoster e f).ring = n.ring := rfl
@[simp] theorem Node.onRoster_head (n : Node) (e : Nat) (f : RosterRec → RosterRec) : (n.onRoster e f).head = n.head := rfl
@[simp] theorem Node.onRoster_win (n : Node) (e : Nat) (f : RosterRec → RosterRec) : (n.onRoster e f).win = n.win := rfl
@[simp] theorem Node.onRoster_call (n : Node) (e : Nat) (f : RosterRec → RosterRec) : (n.onRoster e f).call = n.call := rfl
@[simp] theorem Node.onRoster_zone (n : Node) (e : Nat) (f : RosterRec → RosterRec) : (n.onRoster e f).zone = n.zone := rfl
@[simp] theorem Node.onRoster_trib (n : Node) (e : Nat) (f : RosterRec → RosterRec) : (n.onRoster e f).trib = { n.trib with roster := change f n.trib.roster e } := rfl
@[simp] theorem Node.onRoster_toll (n : Node) (e : Nat) (f : RosterRec → RosterRec) : (n.onRoster e f).toll = n.toll := rfl
@[simp] theorem Node.onRoster_rules (n : Node) (e : Nat) (f : RosterRec → RosterRec) : (n.onRoster e f).rules = n.rules := rfl
@[simp] theorem Node.onRoster_coll (n : Node) (e : Nat) (f : RosterRec → RosterRec) : (n.onRoster e f).coll = n.coll := rfl
@[simp] theorem Node.onRoster_cmd (n : Node) (e : Nat) (f : RosterRec → RosterRec) : (n.onRoster e f).cmd = n.cmd := rfl
@[simp] theorem Node.onRoster_link (n : Node) (e : Nat) (f : RosterRec → RosterRec) : (n.onRoster e f).link = n.link := rfl
@[simp] theorem Node.onRoster_writing (n : Node) (e : Nat) (f : RosterRec → RosterRec) : (n.onRoster e f).writing = n.writing := rfl
@[simp] theorem Node.onRoster_applied (n : Node) (e : Nat) (f : RosterRec → RosterRec) : (n.onRoster e f).applied = n.applied := rfl
@[simp] theorem Node.onRoster_skipped (n : Node) (e : Nat) (f : RosterRec → RosterRec) : (n.onRoster e f).skipped = n.skipped := rfl

@[simp] theorem Node.onOutput_svc (n : Node) (x : Nat) (f : Output → Output) : (n.onOutput x f).svc = n.svc := rfl
@[simp] theorem Node.onOutput_phase (n : Node) (x : Nat) (f : Output → Output) : (n.onOutput x f).phase = n.phase := rfl
@[simp] theorem Node.onOutput_restartDue (n : Node) (x : Nat) (f : Output → Output) : (n.onOutput x f).restartDue = n.restartDue := rfl
@[simp] theorem Node.onOutput_pins (n : Node) (x : Nat) (f : Output → Output) : (n.onOutput x f).pins = n.pins := rfl
@[simp] theorem Node.onOutput_east (n : Node) (x : Nat) (f : Output → Output) : (n.onOutput x f).east = n.east := rfl
@[simp] theorem Node.onOutput_west (n : Node) (x : Nat) (f : Output → Output) : (n.onOutput x f).west = n.west := rfl
@[simp] theorem Node.onOutput_ring (n : Node) (x : Nat) (f : Output → Output) : (n.onOutput x f).ring = n.ring := rfl
@[simp] theorem Node.onOutput_head (n : Node) (x : Nat) (f : Output → Output) : (n.onOutput x f).head = n.head := rfl
@[simp] theorem Node.onOutput_win (n : Node) (x : Nat) (f : Output → Output) : (n.onOutput x f).win = n.win := rfl
@[simp] theorem Node.onOutput_call (n : Node) (x : Nat) (f : Output → Output) : (n.onOutput x f).call = n.call := rfl
@[simp] theorem Node.onOutput_zone (n : Node) (x : Nat) (f : Output → Output) : (n.onOutput x f).zone = n.zone := rfl
@[simp] theorem Node.onOutput_trib (n : Node) (x : Nat) (f : Output → Output) : (n.onOutput x f).trib = { n.trib with outputs := change f n.trib.outputs x } := rfl
@[simp] theorem Node.onOutput_toll (n : Node) (x : Nat) (f : Output → Output) : (n.onOutput x f).toll = n.toll := rfl
@[simp] theorem Node.onOutput_rules (n : Node) (x : Nat) (f : Output → Output) : (n.onOutput x f).rules = n.rules := rfl
@[simp] theorem Node.onOutput_coll (n : Node) (x : Nat) (f : Output → Output) : (n.onOutput x f).coll = n.coll := rfl
@[simp] theorem Node.onOutput_cmd (n : Node) (x : Nat) (f : Output → Output) : (n.onOutput x f).cmd = n.cmd := rfl
@[simp] theorem Node.onOutput_link (n : Node) (x : Nat) (f : Output → Output) : (n.onOutput x f).link = n.link := rfl
@[simp] theorem Node.onOutput_writing (n : Node) (x : Nat) (f : Output → Output) : (n.onOutput x f).writing = n.writing := rfl
@[simp] theorem Node.onOutput_applied (n : Node) (x : Nat) (f : Output → Output) : (n.onOutput x f).applied = n.applied := rfl
@[simp] theorem Node.onOutput_skipped (n : Node) (x : Nat) (f : Output → Output) : (n.onOutput x f).skipped = n.skipped := rfl

@[simp] theorem Node.onInput_svc (n : Node) (i : Nat) (f : Input → Input) : (n.onInput i f).svc = n.svc := rfl
@[simp] theorem Node.onInput_phase (n : Node) (i : Nat) (f : Input → Input) : (n.onInput i f).phase = n.phase := rfl
@[simp] theorem Node.onInput_restartDue (n : Node) (i : Nat) (f : Input → Input) : (n.onInput i f).restartDue = n.restartDue := rfl
@[simp] theorem Node.onInput_pins (n : Node) (i : Nat) (f : Input → Input) : (n.onInput i f).pins = n.pins := rfl
@[simp] theorem Node.onInput_east (n : Node) (i : Nat) (f : Input → Input) : (n.onInput i f).east = n.east := rfl
@[simp] theorem Node.onInput_west (n : Node) (i : Nat) (f : Input → Input) : (n.onInput i f).west = n.west := rfl
@[simp] theorem Node.onInput_ring (n : Node) (i : Nat) (f : Input → Input) : (n.onInput i f).ring = n.ring := rfl
@[simp] theorem Node.onInput_head (n : Node) (i : Nat) (f : Input → Input) : (n.onInput i f).head = n.head := rfl
@[simp] theorem Node.onInput_win (n : Node) (i : Nat) (f : Input → Input) : (n.onInput i f).win = n.win := rfl
@[simp] theorem Node.onInput_call (n : Node) (i : Nat) (f : Input → Input) : (n.onInput i f).call = n.call := rfl
@[simp] theorem Node.onInput_zone (n : Node) (i : Nat) (f : Input → Input) : (n.onInput i f).zone = n.zone := rfl
@[simp] theorem Node.onInput_trib (n : Node) (i : Nat) (f : Input → Input) : (n.onInput i f).trib = { n.trib with inputs := change f n.trib.inputs i } := rfl
@[simp] theorem Node.onInput_toll (n : Node) (i : Nat) (f : Input → Input) : (n.onInput i f).toll = n.toll := rfl
@[simp] theorem Node.onInput_rules (n : Node) (i : Nat) (f : Input → Input) : (n.onInput i f).rules = n.rules := rfl
@[simp] theorem Node.onInput_coll (n : Node) (i : Nat) (f : Input → Input) : (n.onInput i f).coll = n.coll := rfl
@[simp] theorem Node.onInput_cmd (n : Node) (i : Nat) (f : Input → Input) : (n.onInput i f).cmd = n.cmd := rfl
@[simp] theorem Node.onInput_link (n : Node) (i : Nat) (f : Input → Input) : (n.onInput i f).link = n.link := rfl
@[simp] theorem Node.onInput_writing (n : Node) (i : Nat) (f : Input → Input) : (n.onInput i f).writing = n.writing := rfl
@[simp] theorem Node.onInput_applied (n : Node) (i : Nat) (f : Input → Input) : (n.onInput i f).applied = n.applied := rfl
@[simp] theorem Node.onInput_skipped (n : Node) (i : Nat) (f : Input → Input) : (n.onInput i f).skipped = n.skipped := rfl

@[simp] theorem Node.onPhone_svc (n : Node) (p : Nat) (f : Phone → Phone) : (n.onPhone p f).svc = n.svc := rfl
@[simp] theorem Node.onPhone_phase (n : Node) (p : Nat) (f : Phone → Phone) : (n.onPhone p f).phase = n.phase := rfl
@[simp] theorem Node.onPhone_restartDue (n : Node) (p : Nat) (f : Phone → Phone) : (n.onPhone p f).restartDue = n.restartDue := rfl
@[simp] theorem Node.onPhone_pins (n : Node) (p : Nat) (f : Phone → Phone) : (n.onPhone p f).pins = n.pins := rfl
@[simp] theorem Node.onPhone_east (n : Node) (p : Nat) (f : Phone → Phone) : (n.onPhone p f).east = n.east := rfl
@[simp] theorem Node.onPhone_west (n : Node) (p : Nat) (f : Phone → Phone) : (n.onPhone p f).west = n.west := rfl
@[simp] theorem Node.onPhone_ring (n : Node) (p : Nat) (f : Phone → Phone) : (n.onPhone p f).ring = n.ring := rfl
@[simp] theorem Node.onPhone_head (n : Node) (p : Nat) (f : Phone → Phone) : (n.onPhone p f).head = n.head := rfl
@[simp] theorem Node.onPhone_win (n : Node) (p : Nat) (f : Phone → Phone) : (n.onPhone p f).win = n.win := rfl
@[simp] theorem Node.onPhone_call (n : Node) (p : Nat) (f : Phone → Phone) : (n.onPhone p f).call = { n.call with phones := change f n.call.phones p } := rfl
@[simp] theorem Node.onPhone_zone (n : Node) (p : Nat) (f : Phone → Phone) : (n.onPhone p f).zone = n.zone := rfl
@[simp] theorem Node.onPhone_trib (n : Node) (p : Nat) (f : Phone → Phone) : (n.onPhone p f).trib = n.trib := rfl
@[simp] theorem Node.onPhone_toll (n : Node) (p : Nat) (f : Phone → Phone) : (n.onPhone p f).toll = n.toll := rfl
@[simp] theorem Node.onPhone_rules (n : Node) (p : Nat) (f : Phone → Phone) : (n.onPhone p f).rules = n.rules := rfl
@[simp] theorem Node.onPhone_coll (n : Node) (p : Nat) (f : Phone → Phone) : (n.onPhone p f).coll = n.coll := rfl
@[simp] theorem Node.onPhone_cmd (n : Node) (p : Nat) (f : Phone → Phone) : (n.onPhone p f).cmd = n.cmd := rfl
@[simp] theorem Node.onPhone_link (n : Node) (p : Nat) (f : Phone → Phone) : (n.onPhone p f).link = n.link := rfl
@[simp] theorem Node.onPhone_writing (n : Node) (p : Nat) (f : Phone → Phone) : (n.onPhone p f).writing = n.writing := rfl
@[simp] theorem Node.onPhone_applied (n : Node) (p : Nat) (f : Phone → Phone) : (n.onPhone p f).applied = n.applied := rfl
@[simp] theorem Node.onPhone_skipped (n : Node) (p : Nat) (f : Phone → Phone) : (n.onPhone p f).skipped = n.skipped := rfl

@[simp] theorem Node.post_svc (n : Node) (c : NoticeCode) (b : Subject) (d : List Value) : (n.post c b d).svc = n.svc.post c b d := rfl
@[simp] theorem Node.post_phase (n : Node) (c : NoticeCode) (b : Subject) (d : List Value) : (n.post c b d).phase = n.phase := rfl
@[simp] theorem Node.post_restartDue (n : Node) (c : NoticeCode) (b : Subject) (d : List Value) : (n.post c b d).restartDue = n.restartDue := rfl
@[simp] theorem Node.post_pins (n : Node) (c : NoticeCode) (b : Subject) (d : List Value) : (n.post c b d).pins = n.pins := rfl
@[simp] theorem Node.post_east (n : Node) (c : NoticeCode) (b : Subject) (d : List Value) : (n.post c b d).east = n.east := rfl
@[simp] theorem Node.post_west (n : Node) (c : NoticeCode) (b : Subject) (d : List Value) : (n.post c b d).west = n.west := rfl
@[simp] theorem Node.post_ring (n : Node) (c : NoticeCode) (b : Subject) (d : List Value) : (n.post c b d).ring = n.ring := rfl
@[simp] theorem Node.post_head (n : Node) (c : NoticeCode) (b : Subject) (d : List Value) : (n.post c b d).head = n.head := rfl
@[simp] theorem Node.post_win (n : Node) (c : NoticeCode) (b : Subject) (d : List Value) : (n.post c b d).win = n.win := rfl
@[simp] theorem Node.post_call (n : Node) (c : NoticeCode) (b : Subject) (d : List Value) : (n.post c b d).call = n.call := rfl
@[simp] theorem Node.post_zone (n : Node) (c : NoticeCode) (b : Subject) (d : List Value) : (n.post c b d).zone = n.zone := rfl
@[simp] theorem Node.post_trib (n : Node) (c : NoticeCode) (b : Subject) (d : List Value) : (n.post c b d).trib = n.trib := rfl
@[simp] theorem Node.post_toll (n : Node) (c : NoticeCode) (b : Subject) (d : List Value) : (n.post c b d).toll = n.toll := rfl
@[simp] theorem Node.post_rules (n : Node) (c : NoticeCode) (b : Subject) (d : List Value) : (n.post c b d).rules = n.rules := rfl
@[simp] theorem Node.post_coll (n : Node) (c : NoticeCode) (b : Subject) (d : List Value) : (n.post c b d).coll = n.coll := rfl
@[simp] theorem Node.post_cmd (n : Node) (c : NoticeCode) (b : Subject) (d : List Value) : (n.post c b d).cmd = n.cmd := rfl
@[simp] theorem Node.post_link (n : Node) (c : NoticeCode) (b : Subject) (d : List Value) : (n.post c b d).link = n.link := rfl
@[simp] theorem Node.post_writing (n : Node) (c : NoticeCode) (b : Subject) (d : List Value) : (n.post c b d).writing = n.writing := rfl
@[simp] theorem Node.post_applied (n : Node) (c : NoticeCode) (b : Subject) (d : List Value) : (n.post c b d).applied = n.applied := rfl
@[simp] theorem Node.post_skipped (n : Node) (c : NoticeCode) (b : Subject) (d : List Value) : (n.post c b d).skipped = n.skipped := rfl

@[simp] theorem Node.fresh_svc (n : Node) : (n.fresh).svc = n.svc.fresh := rfl
@[simp] theorem Node.fresh_phase (n : Node) : (n.fresh).phase = n.phase := rfl
@[simp] theorem Node.fresh_restartDue (n : Node) : (n.fresh).restartDue = n.restartDue := rfl
@[simp] theorem Node.fresh_pins (n : Node) : (n.fresh).pins = n.pins := rfl
@[simp] theorem Node.fresh_east (n : Node) : (n.fresh).east = n.east := rfl
@[simp] theorem Node.fresh_west (n : Node) : (n.fresh).west = n.west := rfl
@[simp] theorem Node.fresh_ring (n : Node) : (n.fresh).ring = n.ring := rfl
@[simp] theorem Node.fresh_head (n : Node) : (n.fresh).head = n.head := rfl
@[simp] theorem Node.fresh_win (n : Node) : (n.fresh).win = n.win := rfl
@[simp] theorem Node.fresh_call (n : Node) : (n.fresh).call = n.call := rfl
@[simp] theorem Node.fresh_zone (n : Node) : (n.fresh).zone = n.zone := rfl
@[simp] theorem Node.fresh_trib (n : Node) : (n.fresh).trib = n.trib := rfl
@[simp] theorem Node.fresh_toll (n : Node) : (n.fresh).toll = n.toll := rfl
@[simp] theorem Node.fresh_rules (n : Node) : (n.fresh).rules = n.rules := rfl
@[simp] theorem Node.fresh_coll (n : Node) : (n.fresh).coll = n.coll := rfl
@[simp] theorem Node.fresh_cmd (n : Node) : (n.fresh).cmd = n.cmd := rfl
@[simp] theorem Node.fresh_link (n : Node) : (n.fresh).link = n.link := rfl
@[simp] theorem Node.fresh_writing (n : Node) : (n.fresh).writing = n.writing := rfl
@[simp] theorem Node.fresh_applied (n : Node) : (n.fresh).applied = n.applied := rfl
@[simp] theorem Node.fresh_skipped (n : Node) : (n.fresh).skipped = n.skipped := rfl

@[simp] theorem Node.onPort_svc (n : Node) (p : PortId) (f : Port → Port) : (n.onPort p f).svc = n.svc := by
  cases p <;> rfl
@[simp] theorem Node.onPort_phase (n : Node) (p : PortId) (f : Port → Port) : (n.onPort p f).phase = n.phase := by
  cases p <;> rfl
@[simp] theorem Node.onPort_restartDue (n : Node) (p : PortId) (f : Port → Port) : (n.onPort p f).restartDue = n.restartDue := by
  cases p <;> rfl
@[simp] theorem Node.onPort_pins (n : Node) (p : PortId) (f : Port → Port) : (n.onPort p f).pins = n.pins := by
  cases p <;> rfl
@[simp] theorem Node.onPort_ring (n : Node) (p : PortId) (f : Port → Port) : (n.onPort p f).ring = n.ring := by
  cases p <;> rfl
@[simp] theorem Node.onPort_head (n : Node) (p : PortId) (f : Port → Port) : (n.onPort p f).head = n.head := by
  cases p <;> rfl
@[simp] theorem Node.onPort_win (n : Node) (p : PortId) (f : Port → Port) : (n.onPort p f).win = n.win := by
  cases p <;> rfl
@[simp] theorem Node.onPort_call (n : Node) (p : PortId) (f : Port → Port) : (n.onPort p f).call = n.call := by
  cases p <;> rfl
@[simp] theorem Node.onPort_zone (n : Node) (p : PortId) (f : Port → Port) : (n.onPort p f).zone = n.zone := by
  cases p <;> rfl
@[simp] theorem Node.onPort_trib (n : Node) (p : PortId) (f : Port → Port) : (n.onPort p f).trib = n.trib := by
  cases p <;> rfl
@[simp] theorem Node.onPort_toll (n : Node) (p : PortId) (f : Port → Port) : (n.onPort p f).toll = n.toll := by
  cases p <;> rfl
@[simp] theorem Node.onPort_rules (n : Node) (p : PortId) (f : Port → Port) : (n.onPort p f).rules = n.rules := by
  cases p <;> rfl
@[simp] theorem Node.onPort_coll (n : Node) (p : PortId) (f : Port → Port) : (n.onPort p f).coll = n.coll := by
  cases p <;> rfl
@[simp] theorem Node.onPort_cmd (n : Node) (p : PortId) (f : Port → Port) : (n.onPort p f).cmd = n.cmd := by
  cases p <;> rfl
@[simp] theorem Node.onPort_link (n : Node) (p : PortId) (f : Port → Port) : (n.onPort p f).link = n.link := by
  cases p <;> rfl
@[simp] theorem Node.onPort_writing (n : Node) (p : PortId) (f : Port → Port) : (n.onPort p f).writing = n.writing := by
  cases p <;> rfl
@[simp] theorem Node.onPort_applied (n : Node) (p : PortId) (f : Port → Port) : (n.onPort p f).applied = n.applied := by
  cases p <;> rfl
@[simp] theorem Node.onPort_skipped (n : Node) (p : PortId) (f : Port → Port) : (n.onPort p f).skipped = n.skipped := by
  cases p <;> rfl

@[simp] theorem Node.onPort_port (n : Node) (p : PortId) (f : Port → Port) : (n.onPort p f).port p = f (n.port p) := by
  cases p <;> rfl

@[simp] theorem Node.onPort_other (n : Node) (p : PortId) (f : Port → Port) :
    (n.onPort p f).port (otherPort p) = n.port (otherPort p) := by
  cases p <;> rfl

end Sys2Proof.Machine
end

