-- ==== Sys2Proof/Laws/Settle.lean ====
section
/-! SUPPORT. What the end of a step (`Node.settle`) can change, said once: the frame of every step but for its own effect. -/

namespace Sys2Proof.Machine

namespace Node.Keeps

theorem refl (n : Node) : Node.Keeps n n := by
  constructor <;> first | exact .refl _ | rfl | exact fun _ => rfl | exact fun h => h | exact fun _ h => h

theorem trans {a b c : Node} (h : Node.Keeps a b) (k : Node.Keeps b c) : Node.Keeps a c := by
  cases h; cases k
  constructor <;>
    first
    | exact Svc.Keeps.trans ‹_› ‹_›
    | (exact fun d => ((‹∀ d, (c.zone.sign d).map Sign.still = (b.zone.sign d).map Sign.still› d).trans
        (‹∀ d, (b.zone.sign d).map Sign.still = (a.zone.sign d).map Sign.still› d)))
    | simp_all

end Node.Keeps

/-- Acting on the services within `Svc.Keeps`. -/
theorem Node.keeps_svc (n : Node) {t : Svc} (h : Svc.Keeps n.svc t) : Node.Keeps n { n with svc := t } := by
  constructor <;>
    first
    | exact h | rfl | exact fun _ => rfl | exact fun h => h | exact fun _ h => h
    | exact fun _ hx => hx.imp id fun hq => h.queued hq

theorem Node.keeps_post (n : Node) (c : NoticeCode) (b : Subject) (d : List Value) : Node.Keeps n (n.post c b d) :=
  n.keeps_svc (Svc.keeps_post ..)

/-- Acting on TRIB but for the inputs. -/
theorem Node.keeps_onTrib (n : Node) {f : Trib → Trib} (hi : (f n.trib).inputs = n.trib.inputs)
    (hs : (f n.trib).started = n.trib.started) : Node.Keeps n (n.onTrib f) := by
  constructor <;>
    first
    | exact .refl _ | exact hi | exact hs | rfl | exact fun _ => rfl | exact fun h => h | exact fun _ h => h

theorem Node.keeps_onDevice (n : Node) (d : Nat) (f : Device → Device) : Node.Keeps n (n.onDevice d f) :=
  n.keeps_onTrib rfl rfl

theorem Node.keeps_onLine (n : Node) (l : Nat) (f : Line → Line) : Node.Keeps n (n.onLine l f) :=
  n.keeps_onTrib rfl rfl

theorem Node.keeps_onRoster (n : Node) (e : Nat) (f : RosterRec → RosterRec) : Node.Keeps n (n.onRoster e f) :=
  n.keeps_onTrib rfl rfl

theorem Node.keeps_onOutput (n : Node) (x : Nat) (f : Output → Output) : Node.Keeps n (n.onOutput x f) :=
  n.keeps_onTrib rfl rfl

theorem keeps_foldl {α : Type} {f : Node → α → Node} (h : ∀ n a, Node.Keeps n (f n a)) (l : List α) (n : Node) :
    Node.Keeps n (l.foldl f n) := by
  induction l generalizing n with
  | nil => exact .refl n
  | cons a l ih => exact (h n a).trans (ih _)

/-! ## Replies (R48, R186) -/

theorem Node.keeps_pushReply (n : Node) (r : Reply) : Node.Keeps n (n.pushReply r) := by
  constructor <;>
    first
    | exact .refl _ | rfl | exact fun _ => rfl | exact fun h => h
    | exact fun _ h => h.imp (List.mem_append_left _) id
    | exact fun _ h => h

theorem Node.keeps_refuse (n : Node) (m : Message) :
    Node.Keeps n (n.onCmd fun c => { c with refused := c.refused ++ [m] }) := by
  constructor <;>
    first
    | exact .refl _ | rfl | exact fun _ => rfl | exact fun h => h
    | exact fun _ h => h.imp (List.mem_append_left _) id
    | exact fun _ h => h

theorem Node.keeps_offerCmd (n : Node) (m : Message) : Node.Keeps n (n.offerCmd m) := by
  unfold Node.offerCmd
  simp only []
  have h := n.keeps_svc (Svc.keeps_offerNormal n.svc m)
  split
  · exact h
  · exact h.trans (Node.keeps_refuse _ m)

theorem Node.keeps_replyTo (n : Node) (o : Origin) (p : Parsed) (st : Status) (v : Value) :
    Node.Keeps n (n.replyTo o p st v) := by
  cases o
  · exact n.keeps_pushReply _
  · exact n.keeps_offerCmd _

theorem Node.keeps_freeChannel (n : Node) (o : Origin) : Node.Keeps n (n.onCmd fun c => c.setChannel o none) := by
  cases o <;> constructor <;>
    first
    | exact .refl _ | rfl | exact fun _ => rfl | exact fun h => h | exact fun _ h => h

theorem Node.keeps_endCommand (n : Node) (o : Origin) (st : Status) (v : Value) :
    Node.Keeps n (n.endCommand o st v) := by
  unfold Node.endCommand
  split
  · exact .refl n
  · exact (n.keeps_freeChannel o).trans (Node.keeps_replyTo ..)

/-! ## Restart outputs (R114–R116) -/

theorem Node.keeps_emptyCommands (n : Node) (d : Nat) : Node.Keeps n (n.emptyCommands d) := by
  unfold Node.emptyCommands
  split
  · exact .refl n
  · exact (n.keeps_onDevice d _).trans (keeps_foldl (fun n w => Node.keeps_endCommand ..) _ _)

theorem Node.keeps_moveDevice (n : Node) (d : Nat) (old new : DevState) (c : DevCause) (f : Device → Device) :
    Node.Keeps n (n.moveDevice d old new c f) := by
  unfold Node.moveDevice
  simp only []
  have h1 := (n.keeps_onDevice d fun v =>
    { f v with state := new, attachWaiting := (f v).attachWaiting && DevState.polled new }).trans
      (Node.keeps_post _ .deviceState (.device d) [.dev old, .dev new, .devCause c])
  have h2 : ∀ m, Node.Keeps m (if DevState.closesSegment new then m.onSvc fun s => s.closeOpen d .device else m) := by
    intro m
    split
    · exact m.keeps_svc (Svc.keeps_closeOpen ..)
    · exact .refl m
  have h3 := h1.trans (h2 _)
  split
  · exact h3
  · exact h3.trans (Node.keeps_emptyCommands ..)

theorem Node.keeps_restartTarget (n : Node) (d k : Nat) : Node.Keeps n (n.restartTarget d k) := by
  unfold Node.restartTarget
  split
  · exact .refl n
  · split
    · exact .refl n
    · exact .refl n
    · exact n.keeps_onDevice ..
    · exact n.keeps_moveDevice ..

theorem Node.keeps_firePulse (n : Node) (x : Nat) (c : FireCause) : Node.Keeps n (n.firePulse x c) := by
  unfold Node.firePulse
  split
  · exact .refl n
  · simp only []
    split
    · exact (Node.keeps_onOutput ..).trans (Node.keeps_post ..)
    · exact ((Node.keeps_onOutput ..).trans (Node.keeps_post ..)).trans (Node.keeps_restartTarget ..)

theorem Node.keeps_evaluateOutput (n : Node) (x : Nat) : Node.Keeps n (n.evaluateOutput x) := by
  unfold Node.evaluateOutput
  split
  · split
    · split
      · exact n.keeps_firePulse ..
      · exact n.keeps_onOutput ..
    · exact n.keeps_onOutput ..
    · exact n.keeps_onOutput ..
    · exact .refl n
  · exact .refl n

theorem Node.keeps_evaluateOutputs (n : Node) : Node.Keeps n n.evaluateOutputs := by
  unfold Node.evaluateOutputs
  split
  · exact keeps_foldl (fun n _ => keeps_foldl (fun n x => n.keeps_evaluateOutput x) _ n) _ n
  · exact .refl n

/-! ## Exchanges (R103) -/

theorem Node.keeps_beginExchange (n : Node) (l d : Nat) (k : ExchKind) (a : Asker) (r : Request) :
    Node.Keeps n (n.beginExchange l d k a r) := by
  unfold Node.beginExchange
  exact (n.keeps_onLine l _).trans (Node.keeps_onDevice ..)

theorem Node.keeps_skipRoster (n : Node) (d : Nat) (v : Device) : Node.Keeps n (n.skipRoster d v) := by
  unfold Node.skipRoster
  refine keeps_foldl (fun n e => ?_) _ n
  split
  · split
    · exact n.keeps_onRoster ..
    · exact .refl n
  · exact .refl n

theorem sign_changeSign (z : Zone) (d k : Nat) (f : Sign → Sign) :
    (z.changeSign d f).sign k = if k = d then (z.sign k).map f else z.sign k := by
  simp only [Zone.sign, Zone.changeSign, nth_change]
  split
  · cases nth z.signs k <;> rfl
  · rfl

theorem Node.keeps_setLoad (n : Node) (d : Nat) (x : Option Load) :
    Node.Keeps n { n with zone := n.zone.changeSign d fun g => { g with load := x } } := by
  constructor <;>
    first
    | exact .refl _ | rfl | exact fun h => h | exact fun _ h => h
    | skip
  intro k
  simp only [sign_changeSign]
  split
  · cases n.zone.sign k <;> rfl
  · rfl

theorem Node.beginExchange_zone (n : Node) (l d : Nat) (k : ExchKind) (a : Asker) (r : Request) :
    (n.beginExchange l d k a r).zone = n.zone := rfl

theorem Node.keeps_beginLoad (n : Node) (l d : Nat) (k : ExchKind) (a : Asker) (r : Request) (x : Option Load) :
    Node.Keeps n { n.beginExchange l d k a r with zone := n.zone.changeSign d fun g => { g with load := x } } := by
  refine (n.keeps_beginExchange l d k a r).trans ?_
  have h := Node.keeps_setLoad (n.beginExchange l d k a r) d x
  rwa [Node.beginExchange_zone] at h

theorem Node.keeps_lookForWork (n : Node) (d : Nat) : Node.Keeps n (n.lookForWork d) := by
  unfold Node.lookForWork
  split
  · exact .refl n
  · rename_i v _
    split
    · exact .refl n
    · refine (n.keeps_skipRoster d v).trans ?_
      generalize n.skipRoster d v = n
      dsimp only
      cases n.set.lineOf d with
      | none => exact .refl n
      | some l =>
        dsimp only
        cases (if v.state = .present ∧ wantsLoad n.zone d = true then
            (n.zone.sign d).bind fun g => wantedPage n.set g d else none) with
        | some x => exact Node.keeps_beginLoad n l d _ _ _ _
        | none =>
          dsimp only
          cases v.commands with
          | cons w rest => exact (Node.keeps_beginExchange ..).trans (Node.keeps_onDevice ..)
          | nil =>
            dsimp only
            split
            · exact (Node.keeps_beginExchange ..).trans (Node.keeps_onRoster ..)
            · split
              · exact (Node.keeps_beginExchange ..).trans (Node.keeps_onDevice ..)
              · split
                · exact (Node.keeps_beginExchange ..).trans (Node.keeps_onDevice ..)
                · exact .refl n

theorem Node.keeps_lookAll (n : Node) : Node.Keeps n n.lookAll :=
  keeps_foldl (fun n d => n.keeps_lookForWork d) _ n

/-! ## Freeings (R31) -/

theorem Node.keeps_retryCalls (l : List Message) (n : Node) : Node.Keeps n (n.retryCalls l) := by
  induction l generalizing n with
  | nil => exact .refl n
  | cons m l ih =>
    unfold Node.retryCalls
    simp only []
    have h := n.keeps_svc (Svc.keeps_offerEmergency n.svc m)
    split
    · refine (h.trans ?_).trans (ih _)
      constructor <;>
        first
        | exact .refl _ | rfl | exact fun _ => rfl | exact fun h => h | exact fun _ h => h
    · exact h

theorem Node.keeps_tryEntry (n : Node) (e : HeldEntry) : Node.Keeps n (n.tryEntry e).1 := by
  cases e
  · exact n.keeps_svc (Svc.keeps_offerNormal ..)
  · exact n.keeps_svc (Svc.keeps_offerPlaceholder ..)

theorem Node.keeps_heldW (n : Node) (l : List HeldEntry) : Node.Keeps n (n.onColl fun c => { c with heldW := l }) := by
  constructor <;>
    first
    | exact .refl _ | rfl | exact fun _ => rfl | exact fun h => h | exact fun _ h => h

theorem Node.keeps_heldH (n : Node) (l : List Message) : Node.Keeps n (n.onColl fun c => { c with heldH := l }) := by
  constructor <;>
    first
    | exact .refl _ | rfl | exact fun _ => rfl | exact fun h => h | exact fun _ h => h

theorem Node.keeps_retryHeldW (l : List HeldEntry) (n : Node) : Node.Keeps n (Node.retryHeldW l n) := by
  induction l generalizing n with
  | nil => exact .refl n
  | cons e l ih =>
    unfold Node.retryHeldW
    simp only []
    split
    · exact ((n.keeps_tryEntry e).trans (Node.keeps_heldW _ _)).trans (ih _)
    · exact n.keeps_tryEntry e

theorem Node.keeps_retryHeldH (l : List Message) (n : Node) : Node.Keeps n (Node.retryHeldH l n) := by
  induction l generalizing n with
  | nil => exact .refl n
  | cons m l ih =>
    unfold Node.retryHeldH
    simp only []
    have h := n.keeps_svc (Svc.keeps_offerNormal n.svc m)
    split
    · exact (h.trans (Node.keeps_heldH _ _)).trans (ih _)
    · exact h

/-- A refused message of CMD that is offered again stands in the queue or stays refused. -/
theorem Node.keeps_dropRefused (n : Node) {m : Message} {l : List Message} (h : n.cmd.refused = m :: l)
    (q : n.svc.queued m) : Node.Keeps n (n.onCmd fun c => { c with refused := c.refused.drop 1 }) := by
  constructor <;>
    first
    | exact .refl _ | rfl | exact fun _ => rfl | exact fun h => h
    | skip
  · exact fun _ hr => hr
  · intro x hx
    rcases hx with hx | hx
    · rw [h] at hx
      rcases List.mem_cons.1 hx with rfl | hx
      · exact .inr q
      · refine .inl ?_
        show x ∈ (n.cmd.refused.drop 1)
        rw [h]
        exact hx
    · exact .inr hx

theorem Node.keeps_retryCmd (l : List Message) (n : Node) (hl : n.cmd.refused = l) :
    Node.Keeps n (Node.retryCmd l n) := by
  induction l generalizing n with
  | nil => exact .refl n
  | cons m l ih =>
    unfold Node.retryCmd
    simp only []
    have h := n.keeps_svc (Svc.keeps_offerNormal n.svc m)
    split
    · rename_i ht
      refine (h.trans (Node.keeps_dropRefused _ (m := m) (l := l) hl (Svc.queued_of_offerNormal ht))).trans (ih _ ?_)
      show n.cmd.refused.drop 1 = l
      rw [hl]
      rfl
    · exact h

theorem Node.keeps_offerAgain (n : Node) (p : Producer) : Node.Keeps n (n.offerAgain p) := by
  cases p
  · exact n.keeps_retryCalls _
  · exact n.keeps_retryCmd _ rfl
  · exact n.keeps_svc (Svc.keeps_lookCentre ..)
  · show Node.Keeps n (if n.isHead then Node.retryHeldH n.coll.heldH n else Node.retryHeldW n.coll.heldW n)
    split
    · exact Node.keeps_retryHeldH ..
    · exact Node.keeps_retryHeldW ..

theorem Node.keeps_fresh (n : Node) : Node.Keeps n n.fresh := n.keeps_svc (Svc.keeps_fresh _)

theorem Node.keeps_tellEach (fuel : Nat) (l : List Producer) (n : Node) :
    Node.Keeps n (Node.tellEach fuel l n) := by
  induction fuel generalizing l n with
  | zero => cases l <;> exact .refl n
  | succ fuel ih =>
    match l with
    | [] => exact .refl n
    | [p] => exact n.keeps_offerAgain p
    | p :: q :: l => exact (n.keeps_fresh.trans (Node.keeps_offerAgain ..)).trans (ih _ _)

theorem Node.keeps_tellFreed (fuel : Nat) (n : Node) : Node.Keeps n (Node.tellFreed fuel n) := by
  induction fuel generalizing n with
  | zero => exact .refl n
  | succ fuel ih =>
    unfold Node.tellFreed
    split
    · exact ((n.keeps_svc (Svc.keeps_freed n.svc false)).trans (Node.keeps_tellEach ..)).trans (ih _)
    · exact .refl n

/-! ## The sender (R185) -/

theorem Node.keeps_sendOther (n : Node) (h : n.link.sending = none) : Node.Keeps n n.sendOther := by
  have key : ∀ (k : Link) (t : Svc), Svc.Keeps n.svc t → k.running = n.link.running → k.rate = n.link.rate →
      k.valid = n.link.valid → k.badLength = n.link.badLength → k.badCrc = n.link.badCrc →
      k.wrongKind = n.link.wrongKind → k.gather = n.link.gather → k.gatherAt = n.link.gatherAt →
      k.gaps = n.link.gaps → k.replies = n.link.replies → Node.Keeps n { n with svc := t, link := k } := by
    intro k t ht h1 h2 h3 h4 h5 h6 h9 h10 h7 h8
    constructor <;>
      first
      | assumption | rfl | exact fun _ => rfl | exact fun h => h
      | exact fun _ hx => hx.imp id fun hq => ht.queued hq
      | skip
    intro r hr
    rcases hr with hr | hr
    · exact .inl (by rw [show ({ n with svc := t, link := k } : Node).link.replies = n.link.replies from h8]; exact hr)
    · rw [h] at hr; cases hr
  unfold Node.sendOther
  split
  · exact .refl n
  · exact key _ _ (Svc.keeps_note _ (by simp)) rfl rfl rfl rfl rfl rfl rfl rfl rfl rfl
  · exact key _ _ (.refl _) rfl rfl rfl rfl rfl rfl rfl rfl rfl rfl
  · split
    · exact key _ _ (Svc.keeps_note _ (by simp)) rfl rfl rfl rfl rfl rfl rfl rfl rfl rfl
    · exact key _ _ (.refl _) rfl rfl rfl rfl rfl rfl rfl rfl rfl rfl

theorem Node.keeps_sendNext (n : Node) : Node.Keeps n n.sendNext := by
  unfold Node.sendNext
  split
  · exact .refl n
  · rename_i hc
    have hs : n.link.sending = none := by
      cases h : n.link.sending <;> simp_all
    split
    · exact n.keeps_sendOther hs
    · rename_i r rest hr
      split
      · exact .refl n
      · constructor <;>
          first
          | exact .refl _ | rfl | exact fun _ => rfl | exact fun h => h
          | skip
        · intro x hx
          rcases hx with hx | hx
          · rw [hr] at hx
            rcases List.mem_cons.1 hx with rfl | hx
            · exact .inr rfl
            · exact .inl hx
          · rw [hs] at hx; cases hx
        · exact fun _ h => h

/-- The end of a step keeps all that `Node.Keeps` says. -/
theorem Node.keeps_settle (n : Node) : Node.Keeps n n.settle :=
  ((n.keeps_evaluateOutputs.trans (Node.keeps_lookAll _)).trans (Node.keeps_tellFreed 64 _)).trans
    (Node.keeps_sendNext _)

end Sys2Proof.Machine
end

