-- ==== Sys2Proof/Laws/Calls.lean ====
section
/-! SUPPORT. What keeps the invariant of the call table (R62, R63): a number given in turn is new, and one lemma for each operation on the table. -/

namespace Sys2Proof.Machine

/-! ## Numbers given in turn -/

/-- The number tried after `last`. -/
def nextTried (max last : Nat) : Nat := if last < max then last + 1 else 1

theorem nextNumber_succ (max : Nat) (used : List Nat) (fuel last : Nat) :
    nextNumber max used (fuel + 1) last =
      if used.contains (nextTried max last) then nextNumber max used fuel (nextTried max last)
      else nextTried max last := rfl

theorem nextTried_range {max : Nat} (last : Nat) (h : 1 ≤ max) :
    1 ≤ nextTried max last ∧ nextTried max last ≤ max := by
  unfold nextTried; split <;> omega

theorem nextNumber_range {max : Nat} (used : List Nat) (fuel last : Nat) (h : 1 ≤ max) :
    1 ≤ nextNumber max used fuel last ∧ nextNumber max used fuel last ≤ max := by
  induction fuel generalizing last with
  | zero => exact nextTried_range last h
  | succ n ih =>
    rw [nextNumber_succ]
    split
    · exact ih _
    · exact nextTried_range last h

/-- The number tried after `j` others. -/
theorem repeat_nextTried {max : Nat} (last j : Nat) (h : 1 ≤ max) :
    Nat.repeat (nextTried max) (j + 1) last = (nextTried max last - 1 + j) % max + 1 := by
  have r := nextTried_range last h
  induction j with
  | zero =>
    show nextTried max last = _
    rw [Nat.add_zero, Nat.mod_eq_of_lt (by omega)]
    omega
  | succ j ih =>
    show nextTried max (Nat.repeat (nextTried max) (j + 1) last) = _
    rw [ih, ← Nat.add_assoc]
    generalize nextTried max last - 1 + j = x
    have hm : x % max < max := Nat.mod_lt _ h
    rw [← Nat.mod_add_mod]
    unfold nextTried
    split
    · rename_i hl
      rw [Nat.mod_eq_of_lt hl]
    · rw [show x % max + 1 = max by omega, Nat.mod_self]

/-- A next number that is in use was the last of `fuel + 1` tries, all in use. -/
theorem nextNumber_used {max : Nat} {used : List Nat} {fuel last : Nat} (h : nextNumber max used fuel last ∈ used) :
    ∀ j ≤ fuel, Nat.repeat (nextTried max) (j + 1) last ∈ used := by
  have shift : ∀ j a, Nat.repeat (nextTried max) (j + 1) a = Nat.repeat (nextTried max) j (nextTried max a) := by
    intro j a
    induction j with
    | zero => rfl
    | succ j ih => exact congrArg (nextTried max) ih
  induction fuel generalizing last with
  | zero =>
    intro j hj
    obtain rfl : j = 0 := by omega
    exact h
  | succ n ih =>
    rw [nextNumber_succ] at h
    split at h
    · rename_i hc
      intro j hj
      rw [shift]
      cases j with
      | zero =>
        show nextTried max last ∈ used
        simpa using hc
      | succ j => exact ih h j (by omega)
    · rename_i hc
      exact absurd (by simpa using h) hc

/-- R47, R62, R162: with as many tries as numbers in use the next number is in no use. -/
theorem nextNumber_fresh {max : Nat} {used : List Nat} {fuel : Nat} (last : Nat) (h : fuel < max)
    (hu : used.length ≤ fuel) : nextNumber max used fuel last ∉ used := by
  intro hm
  have all := nextNumber_used hm
  have sub : (List.range (fuel + 1)).map (fun j => Nat.repeat (nextTried max) (j + 1) last) ⊆ used := by
    intro x hx
    obtain ⟨j, hj, rfl⟩ := List.mem_map.1 hx
    exact all j (by have := List.mem_range.1 hj; omega)
  have nd : ((List.range (fuel + 1)).map fun j => Nat.repeat (nextTried max) (j + 1) last).Nodup := by
    refine List.Nodup.map_on (fun a ha b hb e => ?_) List.nodup_range
    have ha := List.mem_range.1 ha
    have hb := List.mem_range.1 hb
    rw [repeat_nextTried last a (by omega), repeat_nextTried last b (by omega)] at e
    have r := nextTried_range (max := max) last (by omega)
    generalize nextTried max last - 1 = x at e
    have e2 : (x + a) % max = (x + b) % max := by omega
    have e3 : a % max = b % max := Nat.ModEq.add_left_cancel' x e2
    rwa [Nat.mod_eq_of_lt (by omega), Nat.mod_eq_of_lt (by omega)] at e3
  have := (nd.subperm sub).length_le
  simp only [List.length_map, List.length_range] at this
  omega

/-! ## Slots (R62) -/

theorem nodup_concat {α : Type} {l : List α} {a : α} (h : l.Nodup) (ha : a ∉ l) : (l ++ [a]).Nodup := by
  rw [List.nodup_append]
  exact ⟨h, List.nodup_singleton a, fun x hx y hy e => ha (by rw [← List.mem_singleton.1 hy, ← e]; exact hx)⟩

/-- R62: a slot is FREE exactly when no entry holds it. -/
theorem Call.holder_none {c : Call} {k : Nat} : c.holder k = none ↔ ∀ e ∈ c.table, e.slot ≠ some k := by
  simp [Call.holder]

theorem mem_places {n k : Nat} : k ∈ places n ↔ 1 ≤ k ∧ k ≤ n := by
  unfold places
  simp only [List.mem_map, List.mem_range]
  constructor
  · rintro ⟨a, ha, rfl⟩; omega
  · intro h; exact ⟨k - 1, by omega, by omega⟩

/-- R62: the slot that is given is FREE and within the cap. -/
theorem Call.of_freeSlot {c : Call} {cap k : Nat} (h : c.freeSlot cap = some k) :
    (1 ≤ k ∧ k ≤ cap) ∧ ∀ e ∈ c.table, e.slot ≠ some k := by
  unfold Call.freeSlot at h
  have hm := List.mem_of_find?_eq_some h
  have hp := List.find?_some h
  exact ⟨mem_places.1 hm, Call.holder_none.1 (by simpa using hp)⟩

/-- R62: no slot within the cap is FREE exactly when each is held. -/
theorem Call.freeSlot_none {c : Call} {cap : Nat} :
    c.freeSlot cap = none ↔ ∀ k, 1 ≤ k → k ≤ cap → ∃ e ∈ c.table, e.slot = some k := by
  unfold Call.freeSlot
  rw [List.find?_eq_none]
  constructor
  · intro h k h1 h2
    have := h k (mem_places.2 ⟨h1, h2⟩)
    by_contra hc
    push Not at hc
    exact this (by simpa using Call.holder_none.2 hc)
  · intro h k hk
    have hk := mem_places.1 hk
    obtain ⟨e, he, hs⟩ := h k hk.1 hk.2
    intro hn
    exact Call.holder_none.1 (by simpa using hn) e he hs

namespace CallsOk

/-- The invariant speaks of the table and the wait queue alone. -/
theorem of_eq {c d : Call} {cap : Nat} (h : CallsOk c cap) (t : d.table = c.table) (w : d.waiting = c.waiting) :
    CallsOk d cap := by
  have f : ∀ k, d.freeSlot k = c.freeSlot k := by
    intro k; unfold Call.freeSlot Call.holder; rw [t]
  constructor
  · exact h.inRange
  · rw [t]; exact h.numbers
  · rw [t]; exact h.range
  · rw [t]; exact h.pairs
  · rw [t]; exact h.slots
  · rw [t]; exact h.within
  · rw [t]; exact h.queued
  · rw [t, w]; exact h.waiting
  · rw [w]; exact h.places
  · rw [w, f]; exact h.busy

/-- R62: the table has room: at most `cap` entries hold a slot, the others wait. -/
theorem length_le {c : Call} {cap : Nat} (h : CallsOk c cap) : c.table.length ≤ cap + c.waiting.length := by
  have hs : (c.table.filterMap CallEntry.slot).length ≤ cap := by
    have sub : c.table.filterMap CallEntry.slot ⊆ Sys2Proof.Machine.places cap := by
      intro k hk
      obtain ⟨e, he, hek⟩ := List.mem_filterMap.1 hk
      exact mem_places.2 (h.within e he k hek)
    have := (h.slots.subperm sub).length_le
    simpa [Sys2Proof.Machine.places] using this
  have hq : ∀ l : List CallEntry, (∀ e ∈ l, e.slot = none ↔ e.state = .queued) →
      l.length = (l.filterMap CallEntry.slot).length + (l.filter fun e => e.state = .queued).length := by
    intro l hl
    induction l with
    | nil => rfl
    | cons a l ih =>
      have ha := hl a List.mem_cons_self
      have ih := ih fun e he => hl e (List.mem_cons_of_mem _ he)
      cases hsl : a.slot with
      | none => simp [hsl, ha.1 hsl, ih]; omega
      | some k =>
        have : a.state ≠ .queued := fun hc => by have := ha.2 hc; rw [hsl] at this; cases this
        simp [hsl, this, ih]; omega
  rw [hq c.table h.queued, h.waiting]
  simp only [List.length_map]
  omega

end CallsOk

/-! ## What the operations on the table keep -/

/-- `CallsOk` but for its last clause: a slot may have become FREE while calls wait, as before R63's promotion. -/
structure CallsFit (c : Call) (cap : Nat) : Prop where
  inRange : 4 ≤ cap ∧ cap ≤ 24
  numbers : (c.table.map CallEntry.number).Nodup
  range : ∀ e ∈ c.table, 1 ≤ e.number ∧ e.number ≤ 255
  pairs : (c.table.map fun e => (e.station, e.port)).Nodup
  slots : (c.table.filterMap CallEntry.slot).Nodup
  within : ∀ e ∈ c.table, ∀ k, e.slot = some k → 1 ≤ k ∧ k ≤ cap
  queued : ∀ e ∈ c.table, e.slot = none ↔ e.state = .queued
  waiting : c.waiting = (c.table.filter fun e => e.state = .queued).map CallEntry.number
  places : c.waiting.length ≤ 16

theorem CallsOk.fit {c : Call} {cap : Nat} (h : CallsOk c cap) : CallsFit c cap :=
  ⟨h.inRange, h.numbers, h.range, h.pairs, h.slots, h.within, h.queued, h.waiting, h.places⟩

theorem CallsFit.ok {c : Call} {cap : Nat} (h : CallsFit c cap) (b : c.waiting ≠ [] → c.freeSlot cap = none) :
    CallsOk c cap :=
  ⟨h.inRange, h.numbers, h.range, h.pairs, h.slots, h.within, h.queued, h.waiting, h.places, b⟩

theorem CallsFit.of_eq {c d : Call} {cap cap' : Nat} (h : CallsFit c cap) (t : d.table = c.table)
    (w : d.waiting = c.waiting) (e : cap' = cap) : CallsFit d cap' := by
  subst e
  exact ⟨h.inRange, by rw [t]; exact h.numbers, by rw [t]; exact h.range, by rw [t]; exact h.pairs,
    by rw [t]; exact h.slots, by rw [t]; exact h.within, by rw [t]; exact h.queued, by rw [t, w]; exact h.waiting,
    by rw [w]; exact h.places⟩

/-- An entry's number names it. -/
theorem Call.eq_of_number {c : Call} (h : (c.table.map CallEntry.number).Nodup) {x y : CallEntry}
    (hx : x ∈ c.table) (hy : y ∈ c.table) (e : x.number = y.number) : x = y :=
  List.inj_on_of_nodup_map h hx hy e

theorem Call.of_entry {c : Call} {k : Nat} {e : CallEntry} (h : c.entry k = some e) : e ∈ c.table ∧ e.number = k := by
  unfold Call.entry at h
  exact ⟨List.mem_of_find?_eq_some h, by simpa using List.find?_some h⟩

theorem Call.of_pair {c : Call} {st p : Nat} {e : CallEntry} (h : c.pair st p = some e) :
    e ∈ c.table ∧ e.station = st ∧ e.port = p := by
  unfold Call.pair at h
  exact ⟨List.mem_of_find?_eq_some h, by simpa using List.find?_some h⟩

theorem Call.pair_none {c : Call} {st p : Nat} (h : c.pair st p = none) :
    (st, p) ∉ c.table.map fun e => (e.station, e.port) := by
  intro hm
  obtain ⟨e, he, hp⟩ := List.mem_map.1 hm
  unfold Call.pair at h
  have := List.find?_eq_none.1 h e he
  simp only [Prod.mk.injEq] at hp
  simp [hp.1, hp.2] at this

/-- A change of entries that leaves number, pair and slot, and who is QUEUED. -/
theorem CallsFit.mapTable {c : Call} {cap : Nat} (h : CallsFit c cap) {g : CallEntry → CallEntry}
    (hg : ∀ x ∈ c.table, (g x).number = x.number ∧ (g x).station = x.station ∧ (g x).port = x.port ∧
      (g x).slot = x.slot ∧ ((g x).state = .queued ↔ x.state = .queued)) :
    CallsFit { c with table := c.table.map g } cap := by
  have hm : (c.table.map g).map CallEntry.number = c.table.map CallEntry.number := by
    rw [List.map_map]
    exact List.map_congr_left fun x hx => (hg x hx).1
  have hs : (c.table.map g).filterMap CallEntry.slot = c.table.filterMap CallEntry.slot := by
    rw [List.filterMap_map]
    exact List.filterMap_congr fun x hx => (hg x hx).2.2.2.1
  constructor
  · exact h.inRange
  · show ((c.table.map g).map CallEntry.number).Nodup
    rw [hm]; exact h.numbers
  · intro e he
    obtain ⟨x, hx, rfl⟩ := List.mem_map.1 he
    rw [(hg x hx).1]; exact h.range x hx
  · show ((c.table.map g).map fun e => (e.station, e.port)).Nodup
    rw [List.map_map, List.map_congr_left (g := fun e : CallEntry => (e.station, e.port))
      fun x hx => by simp [(hg x hx).2.1, (hg x hx).2.2.1]]
    exact h.pairs
  · show ((c.table.map g).filterMap CallEntry.slot).Nodup
    rw [hs]; exact h.slots
  · intro e he k hk
    obtain ⟨x, hx, rfl⟩ := List.mem_map.1 he
    rw [(hg x hx).2.2.2.1] at hk
    exact h.within x hx k hk
  · intro e he
    obtain ⟨x, hx, rfl⟩ := List.mem_map.1 he
    rw [(hg x hx).2.2.2.1, (hg x hx).2.2.2.2]
    exact h.queued x hx
  · show c.waiting = ((c.table.map g).filter fun e => e.state = .queued).map CallEntry.number
    have hf : c.table.filter ((fun e : CallEntry => decide (e.state = .queued)) ∘ g) =
        c.table.filter fun e => decide (e.state = .queued) :=
      List.filter_congr fun x hx => decide_eq_decide.2 (hg x hx).2.2.2.2
    rw [h.waiting, List.filter_map, List.map_map, hf]
    exact (List.map_congr_left fun x hx => (hg x (List.mem_filter.1 hx).1).1).symm
  · exact h.places

/-- R65 to R68: an entry that holds a slot goes on to another state with its number, pair and slot. -/
theorem CallsOk.changeEntry {c : Call} {cap k : Nat} (h : CallsOk c cap) {e : CallEntry} (he : c.entry k = some e)
    {f : CallEntry → CallEntry} (hn : (f e).number = e.number) (hst : (f e).station = e.station)
    (hp : (f e).port = e.port) (hs : (f e).slot = e.slot) (hq : e.state ≠ .queued) (hq' : (f e).state ≠ .queued) :
    CallsOk (c.changeEntry k f) cap := by
  obtain ⟨hm, hk⟩ := Call.of_entry he
  have hg : ∀ x ∈ c.table, let y := if x.number = k then f x else x
      y.number = x.number ∧ y.station = x.station ∧ y.port = x.port ∧ y.slot = x.slot ∧
        (y.state = .queued ↔ x.state = .queued) := by
    intro x hx
    dsimp only
    split
    · rename_i hxk
      obtain rfl := Call.eq_of_number h.numbers hx hm (by rw [hxk, hk])
      exact ⟨hn, hst, hp, hs, by simp [hq, hq']⟩
    · exact ⟨rfl, rfl, rfl, rfl, Iff.rfl⟩
  refine (CallsFit.mapTable h.fit hg).ok fun hw => ?_
  have hf := Call.freeSlot_none.1 (h.busy hw)
  refine Call.freeSlot_none.2 fun j h1 h2 => ?_
  obtain ⟨x, hx, hxj⟩ := hf j h1 h2
  exact ⟨_, List.mem_map_of_mem hx, (hg x hx).2.2.2.1.trans hxj⟩

/-- R62: a new call number is in no entry and lies in its range. -/
theorem Call.nextCall_fresh {c : Call} (room : c.table.length ≤ 40) :
    c.nextCall ∉ c.table.map CallEntry.number ∧ 1 ≤ c.nextCall ∧ c.nextCall ≤ 255 :=
  ⟨nextNumber_fresh c.last (by decide) (by simpa using room), nextNumber_range _ _ _ (by decide)⟩

/-- The fields of an entry's addition, a QUEUED one at the end of the wait queue. -/
theorem CallsFit.append {c : Call} {cap : Nat} (h : CallsFit c cap) {e : CallEntry}
    (hn : e.number ∉ c.table.map CallEntry.number) (hr : 1 ≤ e.number ∧ e.number ≤ 255)
    (hp : c.pair e.station e.port = none) (hs : ∀ k, e.slot = some k → (1 ≤ k ∧ k ≤ cap) ∧ ∀ x ∈ c.table, x.slot ≠ some k)
    (hq : e.slot = none ↔ e.state = .queued) (hw : e.state = .queued → c.waiting.length < 16) :
    CallsFit { c.add e with waiting := c.waiting ++ if e.state = .queued then [e.number] else [] } cap := by
  constructor
  · exact h.inRange
  · show ((c.table ++ [e]).map CallEntry.number).Nodup
    rw [List.map_append, List.map_singleton]
    exact nodup_concat h.numbers hn
  · intro x hx
    rcases List.mem_append.1 hx with hx | hx
    · exact h.range x hx
    · rw [List.mem_singleton.1 hx]; exact hr
  · show ((c.table ++ [e]).map fun e => (e.station, e.port)).Nodup
    rw [List.map_append, List.map_singleton]
    exact nodup_concat h.pairs (Call.pair_none hp)
  · show ((c.table ++ [e]).filterMap CallEntry.slot).Nodup
    rw [List.filterMap_append]
    cases hk : e.slot with
    | none => simpa [hk] using h.slots
    | some k =>
      rw [show [e].filterMap CallEntry.slot = [k] by simp [hk]]
      refine nodup_concat h.slots fun hm => ?_
      obtain ⟨x, hx, hxk⟩ := List.mem_filterMap.1 hm
      exact (hs k hk).2 x hx hxk
  · intro x hx k hk
    rcases List.mem_append.1 hx with hx | hx
    · exact h.within x hx k hk
    · rw [List.mem_singleton.1 hx] at hk; exact (hs k hk).1
  · intro x hx
    rcases List.mem_append.1 hx with hx | hx
    · exact h.queued x hx
    · rw [List.mem_singleton.1 hx]; exact hq
  · show c.waiting ++ _ = ((c.table ++ [e]).filter fun x => x.state = .queued).map CallEntry.number
    rw [List.filter_append, List.map_append, ← h.waiting]
    by_cases hc : e.state = .queued <;> simp [hc]
  · show (c.waiting ++ _).length ≤ 16
    have := h.places
    by_cases hc : e.state = .queued
    · have := hw hc; simp [hc]; omega
    · simpa [hc] using this

/-- R62, R64, R67: a new entry takes the lowest FREE slot. -/
theorem CallsOk.addWithSlot {c : Call} {cap : Nat} (h : CallsOk c cap) {e : CallEntry} {k : Nat}
    (hf : c.freeSlot cap = some k) (hn : e.number = c.nextCall) (hp : c.pair e.station e.port = none)
    (hs : e.slot = some k) (hq : e.state ≠ .queued) : CallsOk (c.add e) cap := by
  have nw : c.waiting = [] := by
    by_contra hc
    rw [h.busy hc] at hf
    cases hf
  have room : c.table.length ≤ 40 := by
    have := h.length_le
    have := h.inRange
    simp only [nw, List.length_nil] at *
    omega
  obtain ⟨n1, n2⟩ := Call.nextCall_fresh room
  have k1 := CallsFit.append h.fit (e := e) (by rw [hn]; exact n1) (by rw [hn]; exact n2) hp
    (fun j hj => by rw [hs] at hj; cases hj; exact Call.of_freeSlot hf) (by simp [hs, hq]) (fun hc => absurd hc hq)
  rw [if_neg hq, List.append_nil] at k1
  exact k1.ok fun hw => absurd nw hw

/-- R64: a new entry waits at the end of the wait queue while no slot is FREE. -/
theorem CallsOk.addWaiting {c : Call} {cap : Nat} (h : CallsOk c cap) {e : CallEntry}
    (hf : c.freeSlot cap = none) (hn : e.number = c.nextCall) (hp : c.pair e.station e.port = none)
    (hs : e.slot = none) (hq : e.state = .queued) (hw : c.waiting.length < 16) :
    CallsOk { c.add e with waiting := c.waiting ++ [e.number] } cap := by
  have room : c.table.length ≤ 40 := by
    have := h.length_le
    have := h.inRange
    omega
  obtain ⟨n1, n2⟩ := Call.nextCall_fresh room
  have k1 := CallsFit.append h.fit (e := e) (by rw [hn]; exact n1) (by rw [hn]; exact n2) hp
    (fun j hj => by rw [hs] at hj; cases hj) (by simp [hs, hq]) (fun _ => hw)
  rw [if_pos hq] at k1
  refine k1.ok fun _ => Call.freeSlot_none.2 fun j h1 h2 => ?_
  obtain ⟨x, hx, hxj⟩ := Call.freeSlot_none.1 hf j h1 h2
  exact ⟨x, List.mem_append_left _ hx, hxj⟩

/-- R69, R70: an entry leaves the table and the wait queue. -/
theorem CallsFit.remove {c : Call} {cap : Nat} (h : CallsFit c cap) (k : Nat) :
    CallsFit { c with table := c.table.filter fun x => x.number ≠ k, waiting := c.waiting.filter (· ≠ k) } cap := by
  have sub : ∀ x ∈ c.table.filter fun x => x.number ≠ k, x ∈ c.table := fun x hx => (List.mem_filter.1 hx).1
  constructor
  · exact h.inRange
  · exact h.numbers.sublist (List.filter_sublist.map _)
  · exact fun e he => h.range e (sub e he)
  · exact h.pairs.sublist (List.filter_sublist.map _)
  · exact h.slots.sublist (List.filter_sublist.filterMap _)
  · exact fun e he => h.within e (sub e he)
  · exact fun e he => h.queued e (sub e he)
  · show c.waiting.filter (· ≠ k) = ((c.table.filter fun x => x.number ≠ k).filter fun e => e.state = .queued).map
      CallEntry.number
    rw [h.waiting, List.filter_map, List.filter_filter, List.filter_filter]
    congr 1
    exact List.filter_congr fun x _ => by simp [Bool.and_comm]
  · exact Nat.le_trans (List.length_filter_le _ _) h.places

/-- R66: a QUEUED entry leaves: no slot becomes FREE by it. -/
theorem CallsOk.removeQueued {c : Call} {cap : Nat} (h : CallsOk c cap) {e : CallEntry} (he : e ∈ c.table)
    (hq : e.state = .queued) :
    CallsOk { c with table := c.table.filter fun x => x.number ≠ e.number,
                     waiting := c.waiting.filter (· ≠ e.number) } cap := by
  refine (h.fit.remove e.number).ok fun hw => Call.freeSlot_none.2 fun j h1 h2 => ?_
  have hw' : c.waiting ≠ [] := fun hc => hw (by show c.waiting.filter _ = []; rw [hc]; rfl)
  obtain ⟨x, hx, hxj⟩ := Call.freeSlot_none.1 (h.busy hw') j h1 h2
  refine ⟨x, List.mem_filter.2 ⟨hx, ?_⟩, hxj⟩
  have : x ≠ e := by
    rintro rfl
    rw [(h.queued x he).2 hq] at hxj
    cases hxj
  simpa using fun hc => this (Call.eq_of_number h.numbers hx he hc)

/-- R63: the head of the wait queue takes a FREE slot. -/
theorem CallsFit.promoteHead {c : Call} {cap k w : Nat} {rest : List Nat} (h : CallsFit c cap)
    (hf : c.freeSlot cap = some k) (hw : c.waiting = w :: rest) :
    (∃ e, c.entry w = some e ∧ e.state = .queued) ∧
    CallsFit { (c.changeEntry w fun e => { e with state := .alerting, slot := some k }) with waiting := rest } cap := by
  have hlist := h.waiting
  rw [hw] at hlist
  have wnd : (w :: rest).Nodup := by
    rw [hlist]
    exact h.numbers.sublist (List.filter_sublist.map _)
  obtain ⟨e, he, hew⟩ : ∃ e ∈ c.table.filter (fun e => e.state = .queued), e.number = w := by
    have hm : w ∈ (c.table.filter fun e => e.state = .queued).map CallEntry.number := by rw [← hlist]; simp
    obtain ⟨e, he, hn⟩ := List.mem_map.1 hm
    exact ⟨e, he, hn⟩
  obtain ⟨het, heq⟩ := List.mem_filter.1 he
  have heq : e.state = .queued := by simpa using heq
  obtain ⟨⟨k1, k2⟩, kf⟩ := Call.of_freeSlot hf
  have hent : c.entry w = some e := by
    cases hx : c.entry w with
    | none => exact absurd hew (by simpa using List.find?_eq_none.1 hx e het)
    | some y =>
      obtain ⟨hy, hyn⟩ := Call.of_entry hx
      rw [Call.eq_of_number h.numbers hy het (by rw [hyn, hew])]
  refine ⟨⟨e, hent, heq⟩, ?_⟩
  have only : ∀ x ∈ c.table, x.number = w → x = e := fun x hx hn =>
    Call.eq_of_number h.numbers hx het (by rw [hn, hew])
  let g : CallEntry → CallEntry := fun x =>
    if x.number = w then { x with state := .alerting, slot := some k } else x
  have gn : ∀ x, (g x).number = x.number := by intro x; dsimp only [g]; split <;> rfl
  have gp : ∀ x, ((g x).station, (g x).port) = (x.station, x.port) := by intro x; dsimp only [g]; split <;> rfl
  have gnf : CallEntry.number ∘ g = CallEntry.number := funext gn
  have gpf : (fun e : CallEntry => (e.station, e.port)) ∘ g = fun e => (e.station, e.port) := funext gp
  have gs : ∀ x, (g x).slot = if x.number = w then some k else x.slot := by
    intro x; dsimp only [g]; split <;> rfl
  have gq : ∀ x, (g x).state = .queued ↔ x.state = .queued ∧ x.number ≠ w := by
    intro x
    dsimp only [g]
    split
    · rename_i hx; simp [hx]
    · rename_i hx; simp [hx]
  have only' : ∀ x ∈ c.table, x.slot ≠ none → x.number ≠ w := by
    intro x hx hs hn
    rw [only x hx hn] at hs
    exact hs ((h.queued e het).2 heq)
  constructor
  · exact h.inRange
  · show ((c.table.map g).map CallEntry.number).Nodup
    rw [List.map_map, gnf]
    exact h.numbers
  · intro x hx
    obtain ⟨y, hy, rfl⟩ := List.mem_map.1 hx
    show 1 ≤ (g y).number ∧ (g y).number ≤ 255
    rw [gn]; exact h.range y hy
  · show ((c.table.map g).map fun e => (e.station, e.port)).Nodup
    rw [List.map_map, gpf]
    exact h.pairs
  · show ((c.table.map g).filterMap CallEntry.slot).Nodup
    rw [List.filterMap_map]
    have key : ∀ l : List CallEntry, (l.map CallEntry.number).Nodup → (l.filterMap CallEntry.slot).Nodup →
        (∀ x ∈ l, x.number = w → x.slot = none) → (∀ x ∈ l, x.slot ≠ some k) →
        (l.filterMap (CallEntry.slot ∘ g)).Nodup ∧
          ∀ j ∈ l.filterMap (CallEntry.slot ∘ g), j ∈ l.filterMap CallEntry.slot ∨ j = k ∧ w ∈ l.map CallEntry.number := by
      intro l
      induction l with
      | nil => intros; exact ⟨List.nodup_nil, by simp⟩
      | cons a l ih =>
        intro n1 n2 n3 n4
        have n1' := List.nodup_cons.1 n1
        have n2' : (l.filterMap CallEntry.slot).Nodup :=
          n2.sublist ((List.sublist_cons_self a l).filterMap _)
        obtain ⟨i1, i2⟩ := ih n1'.2 n2' (fun x hx => n3 x (List.mem_cons_of_mem _ hx))
          (fun x hx => n4 x (List.mem_cons_of_mem _ hx))
        by_cases ha : a.number = w
        · have hs : (CallEntry.slot ∘ g) a = some k := by show (g a).slot = _; rw [gs, if_pos ha]
          have hn : w ∉ l.map CallEntry.number := ha ▸ n1'.1
          have hk : ∀ j ∈ l.filterMap (CallEntry.slot ∘ g), j ∈ l.filterMap CallEntry.slot :=
            fun j hj => (i2 j hj).elim id fun x => absurd x.2 hn
          rw [List.filterMap_cons_some hs]
          refine ⟨List.nodup_cons.2 ⟨fun hm => ?_, i1⟩, fun j hj => ?_⟩
          · obtain ⟨x, hx, hxk⟩ := List.mem_filterMap.1 (hk k hm)
            exact n4 x (List.mem_cons_of_mem _ hx) hxk
          · rcases List.mem_cons.1 hj with rfl | hj
            · exact .inr ⟨rfl, by simp [ha]⟩
            · rw [List.filterMap_cons_none (n3 a List.mem_cons_self ha)]
              exact .inl (hk j hj)
        · have hs : (CallEntry.slot ∘ g) a = a.slot := by show (g a).slot = _; rw [gs, if_neg ha]
          cases has : a.slot with
          | none =>
            rw [List.filterMap_cons_none (hs.trans has), List.filterMap_cons_none has]
            exact ⟨i1, fun j hj => (i2 j hj).imp id fun x => ⟨x.1, by simp [x.2]⟩⟩
          | some j0 =>
            rw [List.filterMap_cons_some (hs.trans has), List.filterMap_cons_some has]
            rw [List.filterMap_cons_some has] at n2
            have n2c := List.nodup_cons.1 n2
            refine ⟨List.nodup_cons.2 ⟨fun hm => ?_, i1⟩, fun j hj => ?_⟩
            · rcases i2 j0 hm with hm | hm
              · exact n2c.1 hm
              · exact n4 a List.mem_cons_self (by rw [has, hm.1])
            · rcases List.mem_cons.1 hj with rfl | hj
              · exact .inl List.mem_cons_self
              · exact (i2 j hj).imp (List.mem_cons_of_mem _) fun x => ⟨x.1, by simp [x.2]⟩
    refine (key c.table h.numbers h.slots (fun x hx hn => ?_) kf).1
    by_contra hs
    exact only' x hx hs hn
  · intro x hx j hj
    obtain ⟨y, hy, rfl⟩ := List.mem_map.1 hx
    have hj : (g y).slot = some j := hj
    rw [gs] at hj
    split at hj
    · cases hj; exact ⟨k1, k2⟩
    · exact h.within y hy j hj
  · intro x hx
    obtain ⟨y, hy, rfl⟩ := List.mem_map.1 hx
    show (g y).slot = none ↔ (g y).state = .queued
    rw [gs, gq]
    have := h.queued y hy
    by_cases hn : y.number = w <;> simp [hn, this]
  · show rest = ((c.table.map g).filter fun e => e.state = .queued).map CallEntry.number
    have hf : c.table.filter ((fun e : CallEntry => decide (e.state = .queued)) ∘ g) =
        (c.table.filter fun e => decide (e.state = .queued)).filter ((fun n => decide (n ≠ w)) ∘ CallEntry.number) := by
      rw [List.filter_filter]
      refine List.filter_congr fun x _ => ?_
      simp only [Function.comp_apply, gq]
      by_cases h1 : x.state = .queued <;> by_cases h2 : x.number = w <;> simp [h1, h2]
    rw [List.filter_map, List.map_map, hf, gnf, ← List.filter_map, ← hlist]
    have hwr := (List.nodup_cons.1 wnd).1
    rw [List.filter_cons_of_neg (by simp), List.filter_eq_self.2]
    intro a ha
    simpa using fun hc : a = w => hwr (hc ▸ ha)
  · have := h.places
    rw [hw] at this
    exact Nat.le_of_succ_le this

/-! ## CALL at the head-end (R63 to R71) -/

/-- R59: an offer of a call message leaves the table, the wait queue and the settings. -/
theorem Node.offerCall_leaves (n : Node) (m : Message) :
    (n.offerCall m).call.table = n.call.table ∧ (n.offerCall m).call.waiting = n.call.waiting ∧
      (n.offerCall m).set = n.set := by
  have h := Svc.keeps_offerEmergency n.svc m
  unfold Node.offerCall
  dsimp only
  split
  · exact ⟨rfl, rfl, h.settings⟩
  · refine ⟨?_, ?_, h.settings⟩
    · show (if _ then _ else _ : Call).table = _
      split <;> rfl
    · show (if _ then _ else _ : Call).waiting = _
      split <;> rfl

/-- What `CallsOk` speaks of, at a node. -/
def Node.callsOk (n : Node) : Prop := CallsOk n.call n.set.voiceCap

theorem Node.callsOk_of_eq {n m : Node} (h : n.callsOk) (t : m.call.table = n.call.table)
    (w : m.call.waiting = n.call.waiting) (s : m.set.voiceCap = n.set.voiceCap) : m.callsOk := by
  unfold Node.callsOk
  rw [s]
  exact CallsOk.of_eq h t w

/-- What the end of a step keeps includes the call table, the wait queue and the cap. -/
theorem Node.Keeps.callsOk {n m : Node} (k : Node.Keeps n m) (h : n.callsOk) : m.callsOk :=
  Node.callsOk_of_eq h k.table k.waiting (congrArg Settings.voiceCap k.svc.settings)

theorem Node.callsOk_offerCall {n : Node} (h : n.callsOk) (m : Message) : (n.offerCall m).callsOk := by
  obtain ⟨t, w, s⟩ := n.offerCall_leaves m
  exact Node.callsOk_of_eq h t w (by rw [s])

theorem Node.callsOk_post {n : Node} (h : n.callsOk) (c : NoticeCode) (b : Subject) (d : List Value) :
    (n.post c b d).callsOk := (n.keeps_post c b d).callsOk h

/-- R63: promotion until no slot is FREE or nobody waits. -/
theorem Node.callsOk_promote (fuel : Nat) (n : Node) (h : CallsFit n.call n.set.voiceCap)
    (hl : n.call.waiting.length ≤ fuel) : (n.promote fuel).callsOk := by
  induction fuel generalizing n with
  | zero =>
    have : n.call.waiting = [] := List.length_eq_zero_iff.1 (by omega)
    exact h.ok fun hw => absurd this hw
  | succ fuel ih =>
    unfold Node.promote
    split
    · rename_i k w rest hf hw
      obtain ⟨⟨e, he, _⟩, hp⟩ := CallsFit.promoteHead h hf hw
      rw [he]
      dsimp only
      obtain ⟨t1, w1, s1⟩ := Node.offerCall_leaves
        (n.onCall fun c => { (c.changeEntry w fun e => { e with state := .alerting, slot := some k }) with
          waiting := rest }.clearFull) (n.toWayside e.station (.callAssign e.port w k))
      have kp := Node.keeps_post (Node.offerCall
        (n.onCall fun c => { (c.changeEntry w fun e => { e with state := .alerting, slot := some k }) with
          waiting := rest }.clearFull) (n.toWayside e.station (.callAssign e.port w k)))
        .callArrived (.voicePort e.port) [.nat w, .nat e.station, .nat k]
      have et := kp.table.trans t1
      have ew := kp.waiting.trans w1
      have es := kp.svc.settings.trans s1
      refine ih _ ?_ ?_
      · refine CallsFit.of_eq hp et ew ?_
        exact congrArg Settings.voiceCap es
      · rw [hw] at hl
        have : rest.length ≤ fuel := by simpa using hl
        exact (congrArg List.length ew).trans_le this
    · rename_i hno
      refine h.ok fun hw => ?_
      cases hf : n.call.freeSlot n.set.voiceCap with
      | none => rfl
      | some k =>
        cases hwt : n.call.waiting with
        | nil => exact absurd hwt hw
        | cons w rest => exact (hno k w rest hf hwt).elim

/-- R64: an answer to a pair that has an entry changes no entry. -/
theorem Node.callsOk_answerRequest {n : Node} (h : n.callsOk) (e : CallEntry) : (n.answerRequest e).callsOk := by
  unfold Node.answerRequest
  split <;> first | exact h | exact Node.callsOk_offerCall h _

/-- R64: CALL-REQUEST at the head-end. -/
theorem Node.callsOk_takeRequest {n : Node} (h : n.callsOk) (st p : Nat) : (n.takeRequest st p).callsOk := by
  unfold Node.takeRequest
  split
  · exact Node.callsOk_answerRequest h _
  · rename_i hp
    dsimp only
    split
    · rename_i k hf
      refine Node.callsOk_post (Node.callsOk_offerCall ?_ _) ..
      exact CallsOk.addWithSlot h hf rfl hp rfl (by simp [newCall])
    · rename_i hf
      split
      · rename_i hw
        refine Node.callsOk_post (Node.callsOk_offerCall ?_ _) ..
        exact CallsOk.addWaiting h hf rfl hp rfl rfl hw
      · split
        · exact Node.callsOk_offerCall h _
        · exact Node.callsOk_of_eq (Node.callsOk_post (Node.callsOk_offerCall h _) ..) rfl rfl rfl

/-- R66, R67: the drain of an entry that holds a slot begins. -/
theorem Node.callsOk_startDrain {n : Node} (h : n.callsOk) {e : CallEntry} (he : n.call.entry e.number = some e)
    (hq : e.state ≠ .queued) (c : EndCause) : (n.startDrain e c).callsOk := by
  obtain ⟨t, w, s⟩ := n.offerCall_leaves (n.toWayside e.station (.callClear e.port (some e.number)))
  have k := Node.callsOk_offerCall h (n.toWayside e.station (.callClear e.port (some e.number)))
  have he' : (n.offerCall (n.toWayside e.station (.callClear e.port (some e.number)))).call.entry e.number = some e := by
    unfold Call.entry at he ⊢
    rw [t]
    exact he
  have key := CallsOk.changeEntry k he' (f := fun x =>
    { x with state := .clearing, ring := none, drain := some ((n.offerCall
        (n.toWayside e.station (.callClear e.port (some e.number)))).svc.now + Config.drainTime),
             console := none, cause := some c }) rfl rfl rfl rfl hq (by simp)
  unfold Node.startDrain Node.callsOk
  exact CallsOk.of_eq key rfl rfl

/-- R65: CALL-ANSWER. -/
theorem Node.callsOk_callAnswer {n : Node} (h : n.callsOk) (c p : Nat) : (n.callAnswer c p).1.callsOk := by
  unfold Node.callAnswer
  split
  · exact h
  · split
    · exact h
    · rename_i e he
      split
      · exact h
      · rename_i hs
        have hs : e.state = .alerting := by
          by_contra hc
          exact hs (.inl hc)
        refine Node.callsOk_post (Node.callsOk_offerCall ?_ _) ..
        exact CallsOk.changeEntry h he rfl rfl rfl rfl (by rw [hs]; decide) (by simp)

/-- R69, R70: an entry is removed and CALL-ENDED posted. -/
theorem Node.callsFit_ended {n : Node} (h : n.callsOk) (e : CallEntry) (c : EndCause) (b : Bool) :
    CallsFit ((n.removeCall e).postEnded e c b).call ((n.removeCall e).postEnded e c b).set.voiceCap ∧
      ((n.removeCall e).postEnded e c b).call.waiting.length ≤ 24 ∧
      (e ∈ n.call.table → e.state = .queued → ((n.removeCall e).postEnded e c b).callsOk) := by
  have k := Node.keeps_post (n.removeCall e) .callEnded (.voicePort e.port)
    [.nat e.number, .nat e.station, .endCause c, .flag b]
  have f := CallsFit.remove (CallsOk.fit h) e.number
  have f' := f.of_eq (d := ((n.removeCall e).postEnded e c b).call)
    (cap' := ((n.removeCall e).postEnded e c b).set.voiceCap) k.table k.waiting
    (congrArg Settings.voiceCap k.svc.settings)
  refine ⟨f', Nat.le_trans f'.places (by decide), fun he hq => ?_⟩
  exact Node.callsOk_of_eq (n := n.removeCall e) (CallsOk.of_eq (CallsOk.removeQueued h he hq) rfl rfl)
    k.table k.waiting (congrArg Settings.voiceCap k.svc.settings)

theorem Node.callsOk_ended {n : Node} (h : n.callsOk) (e : CallEntry) (c : EndCause) (b : Bool) :
    (((n.removeCall e).postEnded e c b).promote 24).callsOk := by
  obtain ⟨f, l, _⟩ := Node.callsFit_ended h e c b
  exact Node.callsOk_promote 24 _ f l

/-- R66: CALL-END. -/
theorem Node.callsOk_callEnd {n : Node} (h : n.callsOk) (c : Nat) : (n.callEnd c).1.callsOk := by
  unfold Node.callEnd
  split
  · exact h
  · split
    · exact h
    · rename_i e he
      obtain ⟨hm, hn⟩ := Call.of_entry he
      split
      · exact h
      · rename_i hq
        have k := Node.callsOk_offerCall h (n.toWayside e.station (.callClear e.port (some c)))
        refine (Node.callsFit_ended k e _ _).2.2 ?_ hq
        rw [(n.offerCall_leaves _).1]
        exact hm
      · rename_i hc hq
        exact Node.callsOk_startDrain h (by rw [hn]; exact he) hq _

/-- R67: CALL-RING. -/
theorem Node.callsOk_callRing {n : Node} (h : n.callsOk) (st p c : Nat) : (n.callRing st p c).1.callsOk := by
  unfold Node.callRing
  split
  · exact h
  · split
    · exact h
    · exact h
    · exact h
    · split
      · exact h
      · rename_i hp
        split
        · exact h
        · rename_i k hf
          refine Node.callsOk_offerCall ?_ _
          refine CallsOk.addWithSlot h hf rfl ?_ rfl (by simp [newCall])
          cases hx : n.call.pair st p with
          | none => exact hx
          | some e => exact absurd (.inl (by rw [hx]; rfl)) hp

/-- R67: the ring timer of an entry. -/
theorem Node.callsOk_ringExpires {n : Node} (h : n.callsOk) (c : Nat) : (n.ringExpires c).callsOk := by
  unfold Node.ringExpires
  split
  · exact h
  · rename_i e he
    obtain ⟨_, hn⟩ := Call.of_entry he
    split
    · rename_i hs
      exact Node.callsOk_startDrain h (by rw [hn]; exact he) (by rw [hs.1]; decide) _
    · exact h

/-- R68: CALL-ANSWERED at the head-end. -/
theorem Node.callsOk_takeAnsweredHead {n : Node} (h : n.callsOk) (st p c : Nat) :
    (n.takeAnsweredHead st p c).callsOk := by
  unfold Node.takeAnsweredHead
  split
  · exact h
  · rename_i e he
    split
    · rename_i hs
      refine Node.callsOk_post ?_ ..
      refine CallsOk.changeEntry h (e := e) ?_ rfl rfl rfl rfl (by rw [hs.1]; decide) (by simp)
      obtain ⟨hm, _⟩ := Call.of_pair he
      cases hx : n.call.entry c with
      | none => exact absurd hs.2 (by simpa using List.find?_eq_none.1 hx e hm)
      | some y =>
        obtain ⟨hy, hyn⟩ := Call.of_entry hx
        rw [Call.eq_of_number h.numbers hy hm (by rw [hyn, hs.2])]
    · exact h

/-- R69: CALL-CLEAR at the head-end. -/
theorem Node.callsOk_takeClearHead {n : Node} (h : n.callsOk) (st p : Nat) (c : Option Nat) :
    (n.takeClearHead st p c).callsOk := by
  unfold Node.takeClearHead
  extract_lets found m
  have k : m.callsOk := by
    unfold m
    clear m
    clear_value found
    cases found with
    | none => exact h
    | some e => exact Node.callsOk_ended h ..
  split
  · exact k
  · exact Node.callsOk_offerCall k _

/-- R70: CALL-CLEARED at the head-end. -/
theorem Node.callsOk_takeClearedHead {n : Node} (h : n.callsOk) (st p c : Nat) :
    (n.takeClearedHead st p c).callsOk := by
  unfold Node.takeClearedHead
  split
  · exact h
  · split
    · exact Node.callsOk_ended h ..
    · exact h

/-- R70: the drain timer of an entry. -/
theorem Node.callsOk_drainExpires {n : Node} (h : n.callsOk) (c : Nat) : (n.drainExpires c).callsOk := by
  unfold Node.drainExpires
  split
  · exact h
  · split
    · exact Node.callsOk_ended h ..
    · exact h

/-- R71: a new voice cap. -/
theorem Node.callsOk_voiceCapSet {n : Node} (h : n.callsOk) (cap : Nat) : (n.voiceCapSet cap).1.callsOk := by
  unfold Node.voiceCapSet
  split
  · exact h
  · split
    · exact h
    · rename_i hr hh
      have f := CallsOk.fit h
      refine Node.callsOk_promote 24 _ ?_ (Nat.le_trans f.places (by decide))
      have hr' : 4 ≤ cap ∧ cap ≤ 24 := by omega
      refine { f with inRange := hr', within := fun e he k hk => ?_ }
      obtain ⟨k1, k2⟩ := f.within e he k hk
      have k3 := f.inRange
      refine ⟨k1, ?_⟩
      by_contra hc
      refine hh (List.any_eq_true.2 ⟨k, mem_places.2 ⟨k1, by omega⟩, ?_⟩)
      have : n.call.holder k ≠ none := fun hn => Call.holder_none.1 hn e he hk
      have hc' : cap < k := by
        have : ¬ k ≤ cap := hc
        omega
      cases hx : n.call.holder k with
      | none => exact absurd hx this
      | some y => simp [hc']

end Sys2Proof.Machine
end

