-- ==== Sys2Proof/Laws/Command.lean ====
section
/-! SUPPORT. How a command of the catalogue is answered (R186, R188), said once for every row that carries one. -/

namespace Sys2Proof.Machine

/-- Acting on the command channels alone passes through each shared operation. -/
@[simp] theorem Node.onCmd_post (n : Node) (f : Cmd → Cmd) (c : NoticeCode) (b : Subject) (d : List Value) :
    (n.onCmd f).post c b d = (n.post c b d).onCmd f := rfl

@[simp] theorem Node.onCmd_onSvc (n : Node) (f : Cmd → Cmd) (g : Svc → Svc) :
    (n.onCmd f).onSvc g = (n.onSvc g).onCmd f := rfl

@[simp] theorem Node.onCmd_onCall (n : Node) (f : Cmd → Cmd) (g : Call → Call) :
    (n.onCmd f).onCall g = (n.onCall g).onCmd f := rfl

@[simp] theorem Node.onCmd_onColl (n : Node) (f : Cmd → Cmd) (g : Coll → Coll) :
    (n.onCmd f).onColl g = (n.onColl g).onCmd f := rfl

@[simp] theorem Node.onCmd_onHead (n : Node) (f : Cmd → Cmd) (g : Head → Head) :
    (n.onCmd f).onHead g = (n.onHead g).onCmd f := rfl

@[simp] theorem Node.onCmd_onWin (n : Node) (f : Cmd → Cmd) (g : Win → Win) :
    (n.onCmd f).onWin g = (n.onWin g).onCmd f := rfl

@[simp] theorem Node.onCmd_onTrib (n : Node) (f : Cmd → Cmd) (g : Trib → Trib) :
    (n.onCmd f).onTrib g = (n.onTrib g).onCmd f := rfl

@[simp] theorem Node.onCmd_onZone (n : Node) (f : Cmd → Cmd) (g : ZoneSt → ZoneSt) :
    (n.onCmd f).onZone g = (n.onZone g).onCmd f := rfl

@[simp] theorem Node.onCmd_onToll (n : Node) (f : Cmd → Cmd) (g : TollSt → TollSt) :
    (n.onCmd f).onToll g = (n.onToll g).onCmd f := rfl

@[simp] theorem Node.onCmd_onRules (n : Node) (f : Cmd → Cmd) (g : RuleSt → RuleSt) :
    (n.onCmd f).onRules g = (n.onRules g).onCmd f := rfl

@[simp] theorem Node.onCmd_onSettings (n : Node) (f : Cmd → Cmd) (g : Settings → Settings) :
    (n.onCmd f).onSettings g = (n.onSettings g).onCmd f := rfl

@[simp] theorem Node.onCmd_offerCall (n : Node) (f : Cmd → Cmd) (m : Message) :
    (n.onCmd f).offerCall m = (n.offerCall m).onCmd f := by
  unfold Node.offerCall
  dsimp only [Node.onCmd, Node.onCall]
  split <;> rfl

@[simp] theorem Node.onCmd_offerColl (n : Node) (f : Cmd → Cmd) (m : Message) :
    (n.onCmd f).offerColl m = (n.offerColl m).onCmd f := by
  unfold Node.offerColl
  have hs : (n.onCmd f).svc = n.svc := rfl
  have hc : (n.onCmd f).coll = n.coll := rfl
  rw [hs, hc]
  by_cases h1 : n.coll.heldH.isEmpty = true <;> by_cases h2 : (n.svc.offerNormal m).2 = true <;>
    simp only [h1, h2, if_true, if_false, Bool.false_eq_true] <;> rfl

/-- R186: a channel's command taken off again. -/
theorem Node.channel_off (n : Node) (o : Origin) (p : Option InProgress) (h : n.cmd.channel o = none) :
    (n.onCmd fun k => k.setChannel o p).onCmd (fun k => k.setChannel o none) = n := by
  obtain ⟨svc, ph, rd, pn, e, w, r, hd, wi, ca, z, t, tl, ru, co, cmd, li, wr, a, sk⟩ := n
  obtain ⟨f, l, re, cl, cc, he, la⟩ := cmd
  cases o <;> simp_all [Node.onCmd, Cmd.setChannel, Cmd.channel]

@[simp] theorem Cmd.channel_setChannel (k : Cmd) (o : Origin) (p : Option InProgress) :
    (k.setChannel o p).channel o = p := by cases o <;> rfl

/-- R186 steps 3 and 4: a command that is taken is not refused. -/
theorem Takes.refusal {s : State} {o : Origin} {c : Command} (h : Takes s o c) : s.node.refusal o c = none := by
  obtain ⟨⟨-, hC⟩, -, hr, hc, hn, hi⟩ := h
  unfold Node.refusal
  have h1 : ¬((Command.listing c).role = some .headEnd ∧ s.node.isHead = false ∨
      (Command.listing c).role = some .wayside ∧ s.node.isHead = true) := by
    rintro (⟨a, b⟩ | ⟨a, b⟩)
    · have := hr _ a
      simp [Node.isHead, Node.set] at *
      contradiction
    · have := hr _ a
      simp [Node.isHead, Node.set] at *
      simp_all
  have h3 : ¬(Origin.isCentre o = true ∧ s.node.cmd.held = true ∧
      HoldClass.held (Command.listing c).hold = true) := by
    rintro ⟨a, b, d⟩
    simp [hn a b] at d
  have h4 : ¬(Command.needsHold c = true ∧ s.node.cmd.held = false) := by
    rintro ⟨a, b⟩
    simp [hi a] at b
  simp only [if_neg h1, hc, if_neg h3, if_neg h4]
  simp

/-- A command that can come acts through `Node.takeCommand`. -/
theorem State.command_reaches {s : State} {o : Origin} {c : Command} (h : Reaches s o) :
    s.command o c = .next (s.settled (s.node.takeCommand s.store o (.command c))) := by
  obtain ⟨hp, hc⟩ := h
  have : ¬(Origin.isCentre o = true ∧ s.node.isHead = true) := by
    rintro ⟨a, b⟩
    rw [hc a] at b; cases b
  simp [State.command, State.act, Node.onCommand, hp, this, State.settled]

/-- R195: while the reset input is held, a RESTART from L is refused with WRONG-STATE where the host link has not started
and no command is in progress on L. -/
theorem State.restart_beforeLink {s : State} (tag : Nat) (hp : s.node.phase = .held) (hr : s.node.link.running = false)
    (hl : s.node.cmd.chanL = none) :
    s.command (.link tag) .restart =
      .next { s with node := s.node.replyTo (.link tag) (.command .restart) .wrongState .nil } := by
  have hn : s.node.refusal (.link tag) .restart = none := by
    simp [Node.refusal, Command.listing, Listing.local_, Command.needsHold, Origin.isCentre, Listing.takenFrom]
  have h0 : ({ s.node.cmd with chanL := none } : Cmd) = s.node.cmd := by rw [← hl]
  simpa [State.command, State.act, Node.onCommand, hp, Node.beforeLink, hr, Node.takeCommand, Node.preCheck, Cmd.channel,
    hl, hn, Node.execute, Node.perform, atOnce, Node.restartCommand, Node.endCommand, Cmd.setChannel, Node.onCmd,
    Node.replyTo, Node.pushReply, Node.onLink, isRestart] using h0

/-- R186 step 5: a command that is taken becomes its channel's command in progress and is executed. -/
theorem State.command_takes {s : State} {o : Origin} {c : Command} (h : Takes s o c) :
    s.command o c = .next (s.settled (s.node.execute s.store o c)) := by
  rw [State.command_reaches h.reaches]
  simp [Node.takeCommand, Node.preCheck, h.free, h.refusal]

/-- R186: a command that ends at once is replied to. -/
theorem State.command_replied {s : State} {o : Origin} {c : Command} (h : Takes s o c) (n : Node) (st : Status)
    (v : Value) (hn : n.cmd.channel o = none)
    (hp : (s.node.onCmd fun k => k.setChannel o (some { origin := o, cmd := c })).perform s.store o c =
      (n.onCmd fun k => k.setChannel o (some { origin := o, cmd := c }), some (st, v))) :
    s.command o c = .next (s.replied n o c st v) := by
  rw [State.command_takes h]
  simp only [Node.execute, hp, State.replied, Node.endCommand, Node.onCmd_cmd, Cmd.channel_setChannel]
  rw [n.channel_off o _ hn]

/-- R186: a command that stays in progress keeps its channel. -/
theorem State.command_stays {s : State} {o : Origin} {c : Command} (h : Takes s o c) (n : Node)
    (hp : (s.node.onCmd fun k => k.setChannel o (some { origin := o, cmd := c })).perform s.store o c =
      (n.onCmd fun k => k.setChannel o (some { origin := o, cmd := c }), none)) :
    s.command o c = .next (s.busyWith n o c) := by
  rw [State.command_takes h]
  simp only [Node.execute, hp, State.busyWith]

/-- Every row but the reset, a start and the end of a record's writing acts on the node alone. -/
theorem exec_acts (c : Instr) (s : State) (h1 : c ≠ .resetAsserted) (h2 : c ≠ .start) (h3 : c ≠ .storeWriteDone) :
    ∃ n : Node, exec c s = .next { s with node := n } := by
  cases c
  case resetAsserted => contradiction
  case start => contradiction
  case storeWriteDone => contradiction
  all_goals exact ⟨_, rfl⟩

/-- R194: a start writes no byte of the store but those of a record being written when it begins. -/
theorem State.start_store (s : State) : s.start.store = s.store ∨ s.start.store = s.storeAfterReset := by
  unfold State.start
  split
  · exact .inr rfl
  · exact .inl rfl

end Sys2Proof.Machine
end

