-- ==== Sys2Proof/Laws/Toll.lean ====
section
/-! SUPPORT. TOLL's shared operations (07): what an unbinding (R135) and a try to attach again (R134) do. -/

namespace Sys2Proof.Machine

/-- R135: what an unbinding and what follows it never do: `d` bound again, its attachment set, the log touched. -/
structure TollSt.Unbound (d : Nat) (x y : TollSt) : Prop where
  log : y.2.log = x.2.log
  attachment : nth y.2.attachments d = nth x.2.attachments d
  gantries : (∀ e ∈ x.2.gantries, e.device ≠ some d) → ∀ e ∈ y.2.gantries, e.device ≠ some d

theorem TollSt.Unbound.refl (d : Nat) (x : TollSt) : TollSt.Unbound d x x := ⟨rfl, rfl, id⟩

theorem TollSt.Unbound.trans {d : Nat} {x y z : TollSt} (h : TollSt.Unbound d x y) (k : TollSt.Unbound d y z) :
    TollSt.Unbound d x z :=
  ⟨k.log.trans h.log, k.attachment.trans h.attachment, fun e => k.gantries (h.gantries e)⟩

theorem TollSt.Unbound.foldl {α : Type} {d : Nat} {f : TollSt → α → TollSt} (h : ∀ y a, TollSt.Unbound d y (f y a)) :
    ∀ (l : List α) (x : TollSt), TollSt.Unbound d x (l.foldl f x)
  | [], x => .refl d x
  | a :: l, x => (h x a).trans (TollSt.Unbound.foldl h l (f x a))

/-- R133, R134: an attachment of another device. -/
theorem unbound_attachGantry (devices : List Device) {d k : Nat} (h : d ≠ k) (i : Identity) (r : Bool) (x : TollSt) :
    TollSt.Unbound d x (attachGantry devices k i r x) := by
  have hd : some k ≠ some d := fun e => h (by cases e; rfl)
  have hc : ∀ (t : Toll) (g : Nat) (f : Gantry → Gantry), (∀ e, (f e).device = some k) →
      (∀ e ∈ t.gantries, e.device ≠ some d) → ∀ e ∈ (t.changeEntry g f).gantries, e.device ≠ some d := by
    intro t g f hf ht e he
    simp only [Toll.changeEntry, List.mem_map] at he
    obtain ⟨e', he', rfl⟩ := he
    split
    · rw [hf]; exact hd
    · exact ht e' he'
  unfold attachGantry
  cases he : x.2.entry i.gantry with
  | none =>
    simp only [he]
    split_ifs
    · exact ⟨rfl, nth_put_other _ _ h, id⟩
    · refine ⟨rfl, nth_put_other _ _ h, fun ht e he => ?_⟩
      simp only [List.mem_append, List.mem_singleton] at he
      rcases he with he | rfl
      · exact ht e he
      · exact hd
  | some e =>
    simp only [he]
    generalize (match e.device with
      | none => false
      | some o => o ≠ k && (match nth devices o with
        | none => false
        | some v => v.answers)) = clash
    split_ifs
    · exact ⟨rfl, nth_put_other _ _ h, id⟩
    · exact ⟨rfl, nth_put_other _ _ h, id⟩
    · exact ⟨rfl, nth_put_other _ _ h, hc _ _ _ fun _ => rfl⟩
    · exact ⟨rfl, nth_put_other _ _ h, hc _ _ _ fun _ => rfl⟩

/-- R134: one try. -/
def retryOne (devices : List Device) (y : TollSt) (d : Nat) : TollSt :=
  match (nth y.2.attachments d).getD none, nth devices d with
  | some (.unattached _ replaced), some v =>
    if v.answers then
      match v.identity with
      | some i => attachGantry devices d i replaced y
      | none => y
    else y
  | _, _ => y

/-- R134: a device whose attachment is absent is not tried. -/
theorem retryOne_eq {devices : List Device} {y : TollSt} {d : Nat}
    (h : ∀ u r v, nth y.2.attachments d = some (some (.unattached u r)) → nth devices d = some v → v.answers = false) :
    retryOne devices y d = y := by
  unfold retryOne
  rcases ha : nth y.2.attachments d with _ | _ | _ | ⟨u, r⟩ <;> rcases hv : nth devices d with _ | v <;>
    simp only [Option.getD]
  rw [h u r v ha hv]; rfl

theorem unbound_retryOne (devices : List Device) {d : Nat} (y : TollSt) (k : Nat)
    (h : nth y.2.attachments d = some none ∨ nth y.2.attachments d = none) :
    TollSt.Unbound d y (retryOne devices y k) := by
  by_cases hk : d = k
  · subst hk
    rw [retryOne_eq]
    · exact .refl _ _
    · intro u r v e; rcases h with h | h <;> rw [h] at e <;> cases e
  · unfold retryOne
    split
    · split
      · split
        · exact unbound_attachGantry devices hk _ _ y
        · exact .refl _ _
      · exact .refl _ _
    · exact .refl _ _

theorem retryUnattached_eq (devices : List Device) (x : TollSt) :
    retryUnattached devices x = (places 8).foldl (retryOne devices) x := rfl

theorem unbound_retryUnattached (devices : List Device) {d : Nat} (x : TollSt)
    (h : nth x.2.attachments d = some none ∨ nth x.2.attachments d = none) :
    TollSt.Unbound d x (retryUnattached devices x) := by
  rw [retryUnattached_eq]
  generalize places 8 = l
  induction l generalizing x with
  | nil => exact .refl _ _
  | cons k l ih =>
    have h1 := unbound_retryOne devices x k h
    exact h1.trans (ih _ (by rw [h1.attachment]; exact h))

theorem unbound_dropIdleEntry (devices : List Device) {d : Nat} (g : Nat) (x : TollSt)
    (h : nth x.2.attachments d = some none ∨ nth x.2.attachments d = none) :
    TollSt.Unbound d x (dropIdleEntry devices g x) := by
  unfold dropIdleEntry
  split
  · exact .refl _ _
  · split
    · have h1 : TollSt.Unbound d x (x.1, { x.2 with gantries := dropFirst (fun e => e.number = g) x.2.gantries }) :=
        ⟨rfl, rfl, fun ht e he => ht e (mem_of_mem_dropFirst he)⟩
      exact h1.trans (unbound_retryUnattached devices _ h)
    · exact .refl _ _

/-- R135: the device is bound to nothing, its attachment absent; the log is as it was. -/
theorem unbindDevice_spec (devices : List Device) (d : Nat) (x : TollSt) :
    let y := unbindDevice devices d x
    y.2.log = x.2.log ∧ nth y.2.attachments d = (nth x.2.attachments d).map (fun _ => none) ∧
      ∀ e ∈ y.2.gantries, e.device ≠ some d := by
  intro y
  let t : Toll := { x.2 with
    attachments := put x.2.attachments d none
    gantries := x.2.gantries.map fun (e : Gantry) => if e.device = some d then { e with device := none } else e }
  have ha : nth t.attachments d = (nth x.2.attachments d).map (fun _ => none) := nth_put_same _ _ _
  have key : ∀ (l : List Nat) (z : TollSt), (nth z.2.attachments d = some none ∨ nth z.2.attachments d = none) →
      TollSt.Unbound d z (l.foldl (fun y g => dropIdleEntry devices g y) z) := by
    intro l
    induction l with
    | nil => intro z _; exact .refl _ _
    | cons g l ih =>
      intro z hz
      have h1 := unbound_dropIdleEntry devices g z hz
      exact h1.trans (ih _ (by rw [h1.attachment]; exact hz))
  have hy : TollSt.Unbound d (x.1, t) y := key _ (x.1, t) (by
    rw [ha]; cases nth x.2.attachments d
    · exact Or.inr rfl
    · exact Or.inl rfl)
  refine ⟨hy.log, hy.attachment.trans ha, hy.gantries ?_⟩
  intro e he
  simp only [t, List.mem_map] at he
  obtain ⟨e', -, rfl⟩ := he
  split
  · exact fun h => by cases h
  · assumption

theorem retryOne_noop {devices : List Device} {x : TollSt} {l : List Nat}
    (h : ∀ d ∈ l, ∀ u r v, nth x.2.attachments d = some (some (.unattached u r)) → nth devices d = some v →
      v.answers = false) : l.foldl (retryOne devices) x = x := by
  induction l with
  | nil => rfl
  | cons d l ih =>
    rw [List.foldl_cons, retryOne_eq (h d (by simp)), ih fun k hk => h k (by simp [hk])]


theorem dropFirst_eq_filter {α κ : Type} [DecidableEq κ] (key : α → κ) (k : κ) : ∀ l : List α, (l.map key).Nodup →
    dropFirst (fun a => key a = k) l = l.filter fun a => key a ≠ k
  | [], _ => rfl
  | a :: l, h => by
    simp only [List.map_cons, List.nodup_cons] at h
    by_cases e : key a = k
    · have : ∀ b ∈ l, key b ≠ k := fun b hb c => h.1 (e ▸ c ▸ List.mem_map_of_mem hb)
      simp only [dropFirst, e, decide_true, if_true, List.filter_cons, ne_eq, not_true_eq_false, decide_false,
        Bool.false_eq_true, if_false]
      exact (List.filter_eq_self.2 fun b hb => by simpa using this b hb).symm
    · simp [dropFirst, e, dropFirst_eq_filter key k l h.2]

/-- R135: a device bound to no entry loses its attachment and nothing more happens. -/
theorem unbindDevice_unbound {devices : List Device} {d : Nat} {x : TollSt} (h : ∀ e ∈ x.2.gantries, e.device ≠ some d) :
    unbindDevice devices d x = (x.1, { x.2 with attachments := put x.2.attachments d none }) := by
  have hl : (x.2.gantries.filter fun g => g.device = some d) = [] := by
    rw [List.filter_eq_nil_iff]; simpa using h
  have hm : (x.2.gantries.map fun (e : Gantry) => if e.device = some d then { e with device := none } else e) =
      x.2.gantries := by
    conv_rhs => rw [← List.map_id x.2.gantries]
    exact List.map_congr_left fun e he => if_neg (h e he)
  show List.foldl _ _ (List.map _ _) = _
  rw [hl, hm]
  rfl

/-- An entry found by its number. -/
theorem find_number {l : List Gantry} {e : Gantry} (h : e ∈ l) (hn : (l.map Gantry.number).Nodup) :
    l.find? (fun g => g.number = e.number) = some e := by
  induction l with
  | nil => cases h
  | cons a l ih =>
    simp only [List.map_cons, List.nodup_cons] at hn
    rw [List.find?_cons]
    rcases List.mem_cons.1 h with rfl | hm
    · simp
    · have : a.number ≠ e.number := fun c => hn.1 (c ▸ List.mem_map_of_mem hm)
      simp [this, ih hm hn.2]

/-- R135: the entry of a bound device is kept while it has records, and removed at once where it has none. -/
theorem unbindDevice_bound {devices : List Device} {d : Nat} {x : TollSt} {e : Gantry}
    (he : x.2.gantries.filter (fun g => g.device = some d) = [e]) (hn : (x.2.gantries.map Gantry.number).Nodup) :
    let alone : Toll := { x.2 with attachments := put x.2.attachments d none }
    let run := unbindDevice devices d x
    (x.2.recordsOf e.number ≠ [] → run = (x.1, { alone with
      gantries := x.2.gantries.map fun (e : Gantry) => if e.device = some d then { e with device := none } else e })) ∧
    (x.2.recordsOf e.number = [] → run = retryUnattached devices
      (x.1, { alone with gantries := x.2.gantries.filter fun g => g.number ≠ e.number })) := by
  intro alone run
  let free (e : Gantry) : Gantry := if e.device = some d then { e with device := none } else e
  have hrun : run = dropIdleEntry devices e.number (x.1, { alone with gantries := x.2.gantries.map free }) := by
    show List.foldl _ _ (List.map _ _) = _
    rw [he]; rfl
  have hee : e ∈ x.2.gantries ∧ decide (e.device = some d) = true :=
    List.mem_filter.1 (by rw [he]; exact List.mem_singleton.2 rfl)
  have hnum : ∀ g, (free g).number = g.number := by intro g; simp only [free]; split <;> rfl
  have hentry : ({ alone with gantries := x.2.gantries.map free } : Toll).entry e.number = some (free e) := by
    show List.find? _ (List.map free _) = _
    have hf : ((fun (g : Gantry) => decide (g.number = e.number)) ∘ free) = fun g => decide (g.number = e.number) := by
      funext g; simp [hnum]
    rw [List.find?_map, hf, find_number hee.1 hn]; rfl
  have hfe : (free e).device = none := by
    have : e.device = some d := by simpa using hee.2
    simp only [free, if_pos this]
  have hrec : ({ alone with gantries := x.2.gantries.map free } : Toll).recordsOf e.number =
      x.2.recordsOf e.number := rfl
  rw [hrun]
  unfold dropIdleEntry
  rw [hentry, hrec]
  constructor
  · intro hr
    have : (x.2.recordsOf e.number).isEmpty = false := by simpa using hr
    simp only [this, Bool.false_eq_true, and_false, if_false, free]
  · intro hr
    simp only [hr, hfe, List.isEmpty_nil, Option.isNone_none, and_self, if_true]
    congr 3
    have hm : Gantry.number ∘ free = Gantry.number := by funext g; exact hnum g
    rw [dropFirst_eq_filter Gantry.number e.number _ (by rw [List.map_map, hm]; exact hn), List.filter_map]
    have hf : ((fun (a : Gantry) => decide (a.number ≠ e.number)) ∘ free) = fun a => decide (a.number ≠ e.number) := by
      funext g; simp [hnum]
    rw [hf]
    conv_rhs => rw [← List.map_id (List.filter _ _)]
    apply List.map_congr_left
    intro g hg
    simp only [List.mem_filter, decide_eq_true_eq] at hg
    refine if_neg fun hd => hg.2 ?_
    have hg' : g ∈ x.2.gantries.filter (fun g => g.device = some d) :=
      List.mem_filter.2 ⟨hg.1, (decide_eq_true hd : decide (g.device = some d) = true)⟩
    rw [he, List.mem_singleton] at hg'
    rw [hg']

/-- R134: with no UNATTACHED device PRESENT or SILENT nothing is tried. -/
theorem retryUnattached_none {devices : List Device} {x : TollSt}
    (h : ∀ k u r v, nth x.2.attachments k = some (some (.unattached u r)) → nth devices k = some v → v.answers = false) :
    retryUnattached devices x = x := by
  rw [retryUnattached_eq]
  exact retryOne_noop fun k _ => h k

/-- R134: the one UNATTACHED device that is PRESENT or SILENT is attached as at a join. -/
theorem retryUnattached_one {devices : List Device} {x : TollSt} {k : Nat} {u : UnattachedReason} {r : Bool} {v : Device}
    {i : Identity} (h1 : 1 ≤ k) (h8 : k ≤ 8) (ha : nth x.2.attachments k = some (some (.unattached u r)))
    (hv : nth devices k = some v) (hs : v.answers = true) (hi : v.identity = some i)
    (ho : ∀ j u r v, nth x.2.attachments j = some (some (.unattached u r)) → nth devices j = some v →
      v.answers = true → j = k) : retryUnattached devices x = attachGantry devices k i r x := by
  have hone : retryOne devices x k = attachGantry devices k i r x := by
    unfold retryOne
    simp only [ha, hv, Option.getD_some, hs, if_true, hi]
  have hother : ∀ j, j ≠ k → ∀ (y : TollSt), nth y.2.attachments j = nth x.2.attachments j →
      retryOne devices y j = y := by
    intro j hj y hy
    apply retryOne_eq
    intro u r v h1 h2
    by_contra hc
    exact hj (ho j u r v (hy ▸ h1) h2 (by simpa using hc))
  have hbefore : ∀ a : List Nat, k ∉ a → a.foldl (retryOne devices) x = x := by
    intro a hk
    induction a with
    | nil => rfl
    | cons j a ih =>
      simp only [List.mem_cons, not_or] at hk
      rw [List.foldl_cons, hother j (fun e => hk.1 e.symm) x rfl, ih hk.2]
  have hafter : ∀ b : List Nat, k ∉ b →
      b.foldl (retryOne devices) (attachGantry devices k i r x) = attachGantry devices k i r x := by
    intro b hk
    induction b with
    | nil => rfl
    | cons j b ih =>
      simp only [List.mem_cons, not_or] at hk
      rw [List.foldl_cons, hother j (fun e => hk.1 e.symm) _
        (unbound_attachGantry devices (fun e => hk.1 e.symm) i r x).attachment, ih hk.2]
  obtain ⟨a, b, hab⟩ := List.append_of_mem (mem_places.2 ⟨h1, h8⟩ : k ∈ places 8)
  have hd : (a ++ k :: b).Nodup := hab ▸ (by decide : (places 8).Nodup)
  have hka : k ∉ a := fun h => (List.nodup_append.1 hd).2.2 k h k (by simp) rfl
  have hkb : k ∉ b := (List.nodup_cons.1 (List.nodup_append.1 hd).2.1).1
  rw [retryUnattached_eq, hab, List.foldl_append, List.foldl_cons, hbefore a hka, hone, hafter b hkb]

end Sys2Proof.Machine
end

