-- ==== Sys2Proof/Laws/Win.lean ====
section
/-! SUPPORT. How the operations on one loop and on one device compose, and what the data window's operations (R23, R30, R35) do to the slots of a cycle. -/

namespace Sys2Proof.Machine

/-! ## One loop -/

@[simp] theorem Node.loop_onLoop (n : Node) (l : Loop) (f : LoopSt → LoopSt) :
    (n.onLoop l f).win.loop l = f (n.win.loop l) := by cases l <;> rfl

theorem Node.onLoop_onLoop (n : Node) (l : Loop) (f g : LoopSt → LoopSt) :
    (n.onLoop l g).onLoop l f = n.onLoop l (f ∘ g) := by cases l <;> rfl

theorem Node.onLoop_congr (n : Node) (l : Loop) {f g : LoopSt → LoopSt} (h : f (n.win.loop l) = g (n.win.loop l)) :
    n.onLoop l f = n.onLoop l g := by
  cases l <;> simp only [Node.onLoop, Win.onLoop, Win.loop] at h ⊢ <;> rw [h]

theorem Node.onLoop_self (n : Node) (l : Loop) {f : LoopSt → LoopSt} (h : f (n.win.loop l) = n.win.loop l) :
    n.onLoop l f = n := by
  cases l <;> simp only [Node.onLoop, Win.onLoop, Win.loop] at h ⊢ <;> rw [h]

/-! ## One device -/

theorem Node.onDevice_onDevice (n : Node) (d : Nat) (f g : Device → Device) :
    (n.onDevice d g).onDevice d f = n.onDevice d (f ∘ g) := by
  unfold Node.onDevice Node.onTrib
  simp only [change_change]

theorem Node.onDevice_congr {n : Node} {d : Nat} {f g : Device → Device} {v : Device} (h : n.device d = some v)
    (e : f v = g v) : n.onDevice d f = n.onDevice d g := by
  unfold Node.onDevice Node.onTrib
  simp only [change_congr h e]

theorem Node.onDevice_self {n : Node} {d : Nat} {f : Device → Device} {v : Device} (h : n.device d = some v)
    (e : f v = v) : n.onDevice d f = n := by
  unfold Node.onDevice Node.onTrib
  simp only [change_self h e]

@[simp] theorem Node.device_onDevice (n : Node) (d : Nat) (f : Device → Device) :
    (n.onDevice d f).device d = (n.device d).map f := by
  unfold Node.device Node.onDevice Node.onTrib
  simp

theorem Node.emptyCommands_of_nil {n : Node} {d : Nat} {v : Device} (h : n.device d = some v)
    (hc : v.commands = []) : n.emptyCommands d = n := by
  unfold Node.emptyCommands
  rw [h]
  simp only [hc, List.foldl]
  exact Node.onDevice_self h (by rw [← hc])

/-! ## The slots of a cycle -/

/-- R30: the slots for this node are emptied, and the others go on. -/
theorem takeSlots_data (r : Role) (me : Nat) (l : Loop) (w : Win) (data : List (Option Slot)) :
    (takeSlots r me l w data).2 = data.map fun x => x.filter fun (s : Slot) => s.dest ≠ me := by
  induction data generalizing w with
  | nil => rfl
  | cons a d ih =>
    cases a with
    | none => simp [takeSlots, ih]
    | some s => by_cases h : s.dest = me <;> simp [takeSlots, h, ih, Option.filter]

/-- R23: slots without an empty place for a survey are passed over. -/
theorem writeEntry_append (k : Nat) (e : SurveyEntry) (l r : List (Option Slot))
    (h : ∀ s, some s ∈ l → ∀ room es marked, s.body = .survey k room es marked → room ≤ es.length) :
    writeEntry k e (l ++ r) = (l ++ (writeEntry k e r).1, (writeEntry k e r).2) := by
  induction l with
  | nil => rfl
  | cons a l ih =>
    have ih := ih fun s hs => h s (.tail _ hs)
    simp only [List.cons_append, writeEntry]
    split
    · split
      · rename_i hc
        obtain ⟨rfl, hc⟩ := hc
        have := h _ (.head _) _ _ _ rfl
        omega
      · rw [ih]
    · rw [ih]

/-- R35: placing keeps the number of slots and every occupied one, and fills `room` empty ones at most. -/
theorem Node.place_spec (l : Loop) (room : Nat) (data : List (Option Slot)) (n : Node) :
    let out := (Node.place l room data n).2
    out.length = data.length ∧ (∀ (i : Nat) (x : Slot), data[i]? = some (some x) → out[i]? = some (some x)) ∧
    (out.filter Option.isSome).length ≤ (data.filter Option.isSome).length + room := by
  induction data generalizing room n with
  | nil => unfold Node.place; simp
  | cons a d ih =>
    have step : ∀ (y : Option Slot) (m : Node) (k : Nat), k + 1 = room → a = none →
        let out := y :: (Node.place l k d m).2
        out.length = (a :: d).length ∧
        (∀ (i : Nat) (x : Slot), (a :: d)[i]? = some (some x) → out[i]? = some (some x)) ∧
        (out.filter Option.isSome).length ≤ ((a :: d).filter Option.isSome).length + room := by
      intro y m k hk ha
      obtain ⟨h1, h2, h3⟩ := ih k m
      subst ha
      refine ⟨by simp [h1], fun i x hx => ?_, ?_⟩
      · cases i with
        | zero => simp at hx
        | succ i =>
          simp only [List.getElem?_cons_succ] at hx ⊢
          exact h2 i x hx
      · cases y <;> simp at h3 ⊢ <;> omega
    match room, a with
    | 0, a => unfold Node.place; simp
    | room + 1, some s =>
      obtain ⟨h1, h2, h3⟩ := ih (room + 1) n
      unfold Node.place
      refine ⟨by simp [h1], fun i x hx => ?_, ?_⟩
      · cases i with
        | zero => simpa using hx
        | succ i =>
          simp only [List.getElem?_cons_succ] at hx ⊢
          exact h2 i x hx
      · simp at h3 ⊢
        omega
    | room + 1, none =>
      unfold Node.place
      split
      · simp
      · split
        · exact step _ _ room rfl rfl
        · split
          · simp
          · exact step _ _ room rfl rfl

/-- R35: a loop without a holding places nothing. -/
theorem Node.place_of_none (l : Loop) (room : Nat) (data : List (Option Slot)) (n : Node)
    (h : (n.win.loop l).holding = none) : Node.place l room data n = (n, data) := by
  induction data generalizing room with
  | nil => unfold Node.place; rfl
  | cons a d ih =>
    match room, a with
    | 0, a => unfold Node.place; rfl
    | room + 1, some s => unfold Node.place; rw [ih]
    | room + 1, none => unfold Node.place; rw [h]

/-- R3: a cycle handed on makes no second first passage. -/
theorem Node.firstPassage_remember (n : Node) (c : Cycle) :
    Node.firstPassage { n with ring := n.ring.remember c } c = false := by
  have hr : (n.ring.remember c).lastNumber c.loop = some c.marker.number := by
    cases hl : c.loop <;> simp [Ring.remember, Ring.lastNumber, hl]
  simp [Node.firstPassage, hr, Config.lapMost, Config.cycleNumberWrap]

/-- R3: whether a passage is a first one rests on the cycle numbers RING remembers alone. -/
theorem Node.firstPassage_congr {n m : Node} (h : m.ring = n.ring) (c : Cycle) :
    m.firstPassage c = n.firstPassage c := by simp only [Node.firstPassage, h]

end Sys2Proof.Machine
end

