-- ==== Sys2Proof/Laws/Trib.lean ====
section
/-! SUPPORT. TRIB's shared operations (05): how a command exchange ends (R104), what a restart condition sees (R114), how an
output is evaluated (R115, R117), which roster entries are skipped or polled (R109, R110), and which exchange is begun (R103). -/

namespace Sys2Proof.Machine

/-! ## Command exchanges (R104) -/

/-- A command's end and a change of a device record do not touch one another. -/
theorem Node.onDevice_offerCmd (n : Node) (d : Nat) (f : Device → Device) (m : Message) :
    (n.onDevice d f).offerCmd m = (n.offerCmd m).onDevice d f := by
  unfold Node.offerCmd
  have hs : (n.onDevice d f).svc = n.svc := rfl
  rw [hs]
  by_cases h : (n.svc.offerNormal m).2 = true <;> simp only [h, if_true, if_false, Bool.false_eq_true] <;> rfl

/-- A command's end and a change of a device record do not touch one another. -/
theorem Node.onDevice_endCommand (n : Node) (d : Nat) (f : Device → Device) (o : Origin) (st : Status) (v : Value) :
    (n.onDevice d f).endCommand o st v = (n.endCommand o st v).onDevice d f := by
  unfold Node.endCommand
  have hc : (n.onDevice d f).cmd = n.cmd := rfl
  rw [hc]
  cases n.cmd.channel o with
  | none => rfl
  | some p =>
    cases o with
    | link t => rfl
    | centre k =>
      exact Node.onDevice_offerCmd (n.onCmd fun c => c.setChannel (.centre k) none) d f _

/-- R104: a command that has its channel ends with its reply. -/
theorem Node.endCommand_channel {n : Node} {o : Origin} {p : InProgress} (h : n.cmd.channel o = some p) (st : Status)
    (v : Value) : n.endCommand o st v = (n.onCmd fun k => k.setChannel o none).replyTo o (.command p.cmd) st v := by
  simp only [Node.endCommand, h]

/-- R104: an empty list has nothing to answer. -/
theorem Node.emptyCommands_nil {n : Node} {d : Nat} {v : Device} (h : n.device d = some v) (e : v.commands = []) :
    n.emptyCommands d = n := by
  simp only [Node.emptyCommands, h, e, List.foldl_nil]
  exact Node.onDevice_self h (by rw [← e])

/-- A list of ends passes through a change of a device record. -/
theorem Node.foldl_endCommand_onDevice (d : Nat) (f : Device → Device) : ∀ (l : List Waiting) (n : Node),
    l.foldl (fun n w => n.endCommand w.origin .wrongState .nil) (n.onDevice d f) =
      (l.foldl (fun n w => n.endCommand w.origin .wrongState .nil) n).onDevice d f
  | [], _ => rfl
  | w :: l, n => by
    rw [List.foldl_cons, Node.onDevice_endCommand, Node.foldl_endCommand_onDevice d f l]; rfl

/-- The device records after a command's end. -/
theorem Node.device_endCommand (n : Node) (o : Origin) (st : Status) (v : Value) (d : Nat) :
    (n.endCommand o st v).device d = n.device d := by
  unfold Node.endCommand
  split
  · rfl
  · rename_i p _
    cases o with
    | link t => rfl
    | centre k =>
      simp only [Node.replyTo, Node.offerCmd]
      split <;> rfl

/-- R104: the oldest waiting command of a list that is emptied is answered first. -/
theorem Node.emptyCommands_cons {n : Node} {d : Nat} {v : Device} {w : Waiting} {rest : List Waiting}
    (h : n.device d = some v) (e : v.commands = w :: rest) :
    n.emptyCommands d = Node.emptyCommands
      ((n.onDevice d fun v => { v with commands := rest }).endCommand w.origin .wrongState .nil) d := by
  have h' : ((n.onDevice d fun v => { v with commands := rest }).endCommand w.origin .wrongState .nil).device d =
      some { v with commands := rest } := by
    rw [Node.device_endCommand]
    show nth (change _ n.trib.devices d) d = _
    rw [nth_change_same]
    show (n.device d).map _ = _
    rw [h]; rfl
  simp only [Node.emptyCommands, h, h', e, List.foldl_cons]
  rw [Node.onDevice_endCommand, Node.onDevice_endCommand, Node.onDevice_onDevice]
  rfl

/-- R104: an exchange asked for by a command ends ANSWERED as any other, and then its command is replied to. -/
theorem Node.answered_command {n : Node} {d : Nat} {v : Device} {e : Exchange} {c : ReplyContent} {o : Origin}
    (h : e.asker = .command o) : n.answered d v e c =
      let m := n.answered d v { e with asker := .join } c
      m.endCommand o .done (m.deviceReport d) := by
  have hr : ∀ n : Node, n.handReply d v { e with asker := .join } c = n.handReply d v e c := by
    intro n; cases c <;> rfl
  simp [Node.answered, Node.endPoll, hr, h]

/-- R104: an exchange asked for by a command ends UNANSWERED as any other, and then its command is replied to. -/
theorem Node.unanswered_command {n : Node} {d : Nat} {e : Exchange} {o : Origin} (h : e.asker = .command o) :
    n.unanswered d e =
      let m := n.unanswered d { e with asker := .join }
      m.endCommand o .timeout (m.deviceReport d) := by
  simp [Node.unanswered, Node.endPoll, h]

/-- R104: a device that leaves PRESENT and SILENT has its command list emptied. -/
theorem Node.moveDevice_leaves (n : Node) (d : Nat) (old new : DevState) (c : DevCause) (f : Device → Device)
    (hp : DevState.polled new = false) :
    n.moveDevice d old new c f = Node.emptyCommands
      (let m : Node := (n.onDevice d fun v => { f v with state := new, attachWaiting := false }).post .deviceState
        (.device d) [.dev old, .dev new, .devCause c]
       if DevState.closesSegment new then m.onSvc fun w => w.closeOpen d .device else m) d := by
  simp only [Node.moveDevice, hp, Bool.and_false, Bool.false_eq_true, if_false]

/-! ## Restart outputs (R114, R115, R117) -/

/-- R114: the state a condition sees. -/
theorem Device.seen_eq {v : Device} {st : DevState} (h1 : st ≠ .joining) (h2 : st ≠ .restarting) :
    v.seen = st ↔ v.state = st ∨ (v.state = .joining ∧ v.joinOrigin = some st) ∨
      (v.state = .restarting ∧ v.restartOrigin = some st) := by
  have hj : ∀ o : Option DevState, o.getD .joining = st ↔ o = some st := by
    intro o; cases o with
    | none => simp [Ne.symm h1]
    | some x => simp
  have hr : ∀ o : Option DevState, o.getD .restarting = st ↔ o = some st := by
    intro o; cases o with
    | none => simp [Ne.symm h2]
    | some x => simp
  unfold Device.seen
  cases hs : v.state <;> simp_all [Ne.symm h1, Ne.symm h2]

/-- R114: a condition on a device. -/
theorem Node.holds_device {n : Node} {d : Nat} {v : Device} (h : n.device d = some v) :
    (n.holds (.device d .silent) = true ↔ v.seen = .silent) ∧ (n.holds (.device d .failed) = true ↔ v.seen = .failed) ∧
      (n.holds (.device d .absent) = true ↔ v.seen = .absent) := by
  simp only [Node.holds, h, Option.map_some]
  cases v.seen <;> simp

/-- R114: when an output's conditions are all true. -/
theorem Node.allTrue_eq_true (n : Node) (s : OutputSpec) :
    n.allTrue s = true ↔ s.conds ≠ [] ∧ ∀ c ∈ s.conds, n.holds c = true := by
  simp [Node.allTrue]

/-- R115, R117: one output is evaluated, by its state. -/
theorem Node.evaluateOutput_eq {n : Node} {x : Nat} {spec : OutputSpec} {r : Output} (hs : nth n.set.outputs x = some spec)
    (hr : nth n.trib.outputs x = some r) : n.evaluateOutput x =
      match r.state, n.allTrue spec with
      | .armed, true =>
        if spec.hold = 0 then n.firePulse x .conditions
        else n.onOutput x fun o => { o with state := .holding, hold := some (n.svc.now + secs spec.hold) }
      | .holding, false => n.onOutput x fun o => { o with state := .armed, hold := none }
      | .spent, false => n.onOutput x fun o => { o with state := .armed }
      | _, _ => n := by
  simp only [Node.evaluateOutput, hs, hr]
  all_goals cases r.state <;> cases n.allTrue spec <;> rfl

/-- R114: the outputs are evaluated from X1 to X4, five times over. -/
theorem Node.evaluateOutputs_started {n : Node} (h : n.trib.started = true) :
    n.evaluateOutputs = (List.replicate 5 ()).foldl (fun n _ => (places 4).foldl Node.evaluateOutput n) n := by
  simp only [Node.evaluateOutputs, h, if_true]
  rfl

/-! ## The poll roster (R109, R110) -/

/-- R108: the moment since which a roster entry is due. -/
def Node.rosterSince (n : Node) (e : Nat) : Option Nat := (nth n.trib.roster e).bind RosterRec.since

/-- R110: whether an entry that is due and names the device is skipped. -/
def Node.skipsEntry (n : Node) (d : Nat) (v : Device) (s : RosterSpec) : Prop :=
  s.device = d ∧
    (DevState.polled v.state = false ∨ (n.set.lineOf d).isNone ∨ PollKind.suits s.kind (n.set.kindOf d) = false)

/-- R110: one due entry is looked at. -/
def Node.skipEntry (d : Nat) (v : Device) (n : Node) (e : Nat) : Node :=
  match n.set.rosterEntry e, nth n.trib.roster e with
  | some s, some { since := some t, .. } =>
    if s.device = d ∧
        (DevState.polled v.state = false ∨ (n.set.lineOf d).isNone ∨ PollKind.suits s.kind (n.set.kindOf d) = false)
    then n.onRoster e fun _ => { nextDue := some (t + s.period * Config.cyclesPerTenth), since := none }
    else n
  | _, _ => n

/-- R110: the entries are looked at one by one. -/
theorem Node.skipRoster_eq (n : Node) (d : Nat) (v : Device) : n.skipRoster d v = (places 16).foldl (Node.skipEntry d v) n := by
  unfold Node.skipRoster
  congr 1

/-- R110: what looking at one entry does: it acts on the roster's times alone. -/
theorem Node.skipEntry_roster (d : Nat) (v : Device) (n : Node) (e : Nat) :
    ∃ l, Node.skipEntry d v n e = { n with trib := { n.trib with roster := l } } ∧ l.length = n.trib.roster.length ∧
      (∀ k, k ≠ e → nth l k = nth n.trib.roster k) ∧
      (∀ s t, n.set.rosterEntry e = some s → n.rosterSince e = some t → n.skipsEntry d v s →
        nth l e = some { nextDue := some (t + s.period * Config.cyclesPerTenth), since := none }) ∧
      ((∀ s t, n.set.rosterEntry e = some s → n.rosterSince e = some t → ¬n.skipsEntry d v s) →
        nth l e = nth n.trib.roster e) := by
  unfold Node.skipEntry Node.rosterSince Node.skipsEntry
  rcases hs : n.set.rosterEntry e with _ | s
  · exact ⟨_, rfl, rfl, fun _ _ => rfl, by simp, fun _ => rfl⟩
  rcases hr : nth n.trib.roster e with _ | ⟨nd, _ | t⟩
  · exact ⟨_, rfl, rfl, fun _ _ => rfl, by simp, fun _ => hr⟩
  · exact ⟨_, rfl, rfl, fun _ _ => rfl, by simp, fun _ => hr⟩
  · by_cases hk : s.device = d ∧ (DevState.polled v.state = false ∨ (n.set.lineOf d).isNone ∨
        PollKind.suits s.kind (n.set.kindOf d) = false)
    · simp only [if_pos hk]
      refine ⟨_, rfl, length_change .., fun k h => nth_change_other _ _ h, ?_, ?_⟩
      · intro s' t' h1 h2 _
        cases h1; simp only [Option.bind_some, Option.some.injEq] at h2; subst h2
        rw [nth_change_same, hr]; rfl
      · intro h; exact absurd hk (h s t rfl rfl)
    · simp only [if_neg hk]
      refine ⟨_, rfl, rfl, fun _ _ => rfl, ?_, fun _ => hr⟩
      intro s' t' h1 _ h3; cases h1; exact absurd h3 hk

/-- R110: what looking at several entries, none twice, does. -/
theorem Node.skipEntries_roster (d : Nat) (v : Device) : ∀ (es : List Nat) (n : Node), es.Nodup →
    ∃ l, es.foldl (Node.skipEntry d v) n = { n with trib := { n.trib with roster := l } } ∧
      l.length = n.trib.roster.length ∧
      (∀ e s t, e ∈ es → n.set.rosterEntry e = some s → n.rosterSince e = some t → n.skipsEntry d v s →
        nth l e = some { nextDue := some (t + s.period * Config.cyclesPerTenth), since := none }) ∧
      (∀ e, (e ∈ es → ∀ s t, n.set.rosterEntry e = some s → n.rosterSince e = some t → ¬n.skipsEntry d v s) →
        nth l e = nth n.trib.roster e)
  | [], n, _ => ⟨_, rfl, rfl, by simp, fun _ _ => rfl⟩
  | a :: es, n, h => by
    obtain ⟨ha, hd⟩ := List.nodup_cons.1 h
    obtain ⟨l, h1, h2, h3, h4, h5⟩ := Node.skipEntry_roster d v n a
    obtain ⟨l', g1, g2, g3, g4⟩ := Node.skipEntries_roster d v es (Node.skipEntry d v n a) hd
    rw [h1] at g1 g2 g3 g4
    have hsince : ∀ e, e ≠ a → (({ n with trib := { n.trib with roster := l } } : Node)).rosterSince e = n.rosterSince e := by
      intro e he; show (nth l e).bind _ = _; rw [h3 e he]; rfl
    refine ⟨l', by rw [List.foldl_cons, h1, g1], by rw [g2]; exact h2, ?_, ?_⟩
    · intro e s t he hs ht hk
      rcases List.mem_cons.1 he with rfl | he
      · rw [g4 e (fun hm => absurd hm ha)]; exact h4 s t hs ht hk
      · have hne : e ≠ a := fun x => ha (x ▸ he)
        exact g3 e s t he hs (by rw [hsince e hne]; exact ht) hk
    · intro e he
      by_cases hea : e = a
      · subst hea
        rw [g4 e (fun hm => absurd hm ha)]; exact h5 (he List.mem_cons_self)
      · rw [g4 e (fun hm s t hs ht => he (List.mem_cons_of_mem _ hm) s t hs (by rw [← hsince e hea]; exact ht))]
        exact h3 e hea

/-- R109: an entry that is due for a device, and the moment since which it is. -/
def Node.dueFor (n : Node) (d e : Nat) (s : RosterSpec) (t : Nat) : Prop :=
  n.set.rosterEntry e = some s ∧ s.device = d ∧ n.rosterSince e = some t

/-- R109: one entry compared with the best so far. -/
def Node.betterPoll (n : Node) (d : Nat) (best : Option (Nat × RosterSpec × Nat)) (e : Nat) :
    Option (Nat × RosterSpec × Nat) :=
  match n.set.rosterEntry e, nth n.trib.roster e with
  | some s, some { since := some t, .. } =>
    if s.device = d then
      match best with
      | some (_, _, u) => if t < u then some (e, s, t) else best
      | none => some (e, s, t)
    else best
  | _, _ => best

/-- R109: the entries are compared one by one. -/
theorem Node.duePoll_eq (n : Node) (d : Nat) :
    n.duePoll d = ((places 16).foldl (n.betterPoll d) none).map fun x => (x.1, x.2.1) := by
  unfold Node.duePoll
  congr 2

/-- R109: the best of the entries looked at: the one due longest, the first of those due equally long. -/
def Node.BestPoll (n : Node) (d : Nat) (es : List Nat) : Option (Nat × RosterSpec × Nat) → Prop
  | none => ∀ e ∈ es, ∀ s t, ¬n.dueFor d e s t
  | some (e, s, t) => e ∈ es ∧ n.dueFor d e s t ∧ ∀ f ∈ es, ∀ s' u, n.dueFor d f s' u → t < u ∨ (t = u ∧ e ≤ f)

/-- R109: one more entry, higher than those looked at. -/
theorem Node.BestPoll.step {n : Node} {d : Nat} {es : List Nat} {best : Option (Nat × RosterSpec × Nat)} {e : Nat}
    (h : n.BestPoll d es best) (hlt : ∀ f ∈ es, f < e) : n.BestPoll d (es ++ [e]) (n.betterPoll d best e) := by
  have hmem : ∀ f, f ∈ es ++ [e] ↔ f ∈ es ∨ f = e := by simp
  by_cases hd : ∃ s t, n.dueFor d e s t
  · obtain ⟨s, t, h1, h2, h3⟩ := hd
    have huniq : ∀ s' u, n.dueFor d e s' u → s' = s ∧ u = t := by
      rintro s' u ⟨a, _, b⟩
      rw [h1] at a; rw [h3] at b; cases a; cases b; exact ⟨rfl, rfl⟩
    have hval : ∀ b : Option (Nat × RosterSpec × Nat), n.betterPoll d b e = match b with
        | some (_, _, u) => if t < u then some (e, s, t) else b
        | none => some (e, s, t) := by
      intro b
      unfold Node.betterPoll
      unfold Node.rosterSince at h3
      rcases hr : nth n.trib.roster e with _ | ⟨nd, _ | t'⟩ <;> simp_all
    rw [hval]
    rcases best with _ | ⟨f, sf, u⟩
    · refine ⟨by simp, ⟨h1, h2, h3⟩, ?_⟩
      intro g hg s' u' hu
      rcases (hmem g).1 hg with hg | rfl
      · exact absurd hu (h g hg s' u')
      · obtain ⟨_, rfl⟩ := huniq _ _ hu; exact .inr ⟨rfl, le_refl _⟩
    · obtain ⟨m1, m2, m3⟩ := h
      by_cases hc : t < u
      · simp only [if_pos hc]
        refine ⟨by simp, ⟨h1, h2, h3⟩, ?_⟩
        intro g hg s' u' hu
        rcases (hmem g).1 hg with hg | rfl
        · rcases m3 g hg s' u' hu with k | ⟨k, _⟩ <;> exact .inl (by omega)
        · obtain ⟨_, rfl⟩ := huniq _ _ hu; exact .inr ⟨rfl, le_refl _⟩
      · simp only [if_neg hc]
        refine ⟨by simp [m1], m2, ?_⟩
        intro g hg s' u' hu
        rcases (hmem g).1 hg with hg | rfl
        · exact m3 g hg s' u' hu
        · obtain ⟨_, rfl⟩ := huniq _ _ hu
          have := hlt f m1
          omega
  · have hno : ∀ s t, ¬n.dueFor d e s t := fun s t x => hd ⟨s, t, x⟩
    have hval : n.betterPoll d best e = best := by
      unfold Node.betterPoll
      unfold Node.dueFor Node.rosterSince at hno
      rcases hs : n.set.rosterEntry e with _ | s <;> rcases hr : nth n.trib.roster e with _ | ⟨nd, _ | t'⟩ <;>
        simp_all
    rw [hval]
    rcases best with _ | ⟨f, sf, u⟩
    · intro g hg s' u' hu
      rcases (hmem g).1 hg with hg | rfl
      · exact h g hg s' u' hu
      · exact hno _ _ hu
    · obtain ⟨m1, m2, m3⟩ := h
      refine ⟨by simp [m1], m2, ?_⟩
      intro g hg s' u' hu
      rcases (hmem g).1 hg with hg | rfl
      · exact m3 g hg s' u' hu
      · exact absurd hu (hno _ _)

/-- R109: the best of all that are looked at in rising order. -/
theorem Node.BestPoll.foldl {n : Node} {d : Nat} : ∀ (es fs : List Nat) (best : Option (Nat × RosterSpec × Nat)),
    n.BestPoll d fs best → (fs ++ es).Pairwise (· < ·) → n.BestPoll d (fs ++ es) (es.foldl (n.betterPoll d) best)
  | [], fs, best, h, _ => by simpa using h
  | e :: es, fs, best, h, hp => by
    have h1 : ∀ f ∈ fs, f < e := by
      intro f hf
      exact (List.pairwise_append.1 hp).2.2 f hf e List.mem_cons_self
    have := Node.BestPoll.foldl es (fs ++ [e]) _ (h.step h1) (by simpa using hp)
    simpa using this

/-- R109: the poll chosen for a device among its due entries 1 to 16. -/
theorem Node.duePoll_best (n : Node) (d : Nat) :
    ∃ best, n.BestPoll d (places 16) best ∧ n.duePoll d = best.map fun x => (x.1, x.2.1) :=
  ⟨_, by simpa using Node.BestPoll.foldl (n := n) (d := d) (places 16) [] none (by simp [Node.BestPoll]) (by decide),
    n.duePoll_eq d⟩

/-- R110: what skipping leaves as it was. -/
theorem Node.skipRoster_keeps (n : Node) (d : Nat) (v : Device) :
    ∃ l, n.skipRoster d v = { n with trib := { n.trib with roster := l } } := by
  obtain ⟨l, h, -⟩ := Node.skipEntries_roster d v (places 16) n (by decide)
  exact ⟨l, by rw [Node.skipRoster_eq, h]⟩

/-! R110: no part that a new exchange is made from moves with a skip. -/

theorem Node.set_skipRoster (n : Node) (d : Nat) (v : Device) : (n.skipRoster d v).set = n.set := by
  obtain ⟨l, h⟩ := n.skipRoster_keeps d v
  rw [h]; rfl

theorem Node.svc_skipRoster (n : Node) (d : Nat) (v : Device) : (n.skipRoster d v).svc = n.svc := by
  obtain ⟨l, h⟩ := n.skipRoster_keeps d v
  rw [h]

theorem Node.zone_skipRoster (n : Node) (d : Nat) (v : Device) : (n.skipRoster d v).zone = n.zone := by
  obtain ⟨l, h⟩ := n.skipRoster_keeps d v
  rw [h]

theorem Node.toll_skipRoster (n : Node) (d : Nat) (v : Device) : (n.skipRoster d v).toll = n.toll := by
  obtain ⟨l, h⟩ := n.skipRoster_keeps d v
  rw [h]

theorem Node.lines_skipRoster (n : Node) (d : Nat) (v : Device) :
    (n.skipRoster d v).trib.lines = n.trib.lines := by
  obtain ⟨l, h⟩ := n.skipRoster_keeps d v
  rw [h]

/-! ## The next exchange (R103) -/

/-- R103 item 1: the page load that stands for a device. -/
def Node.standingLoad (n : Node) (d : Nat) (v : Device) : Option (Page × PageSrc) :=
  if v.state = .present ∧ wantsLoad n.zone d = true then (n.zone.sign d).bind fun g => wantedPage n.set g d else none

/-- R103 items 2 to 4: the exchange chosen when no page load stands. -/
def Node.otherWork (n : Node) (d l : Nat) (v : Device) : Node :=
  match v.commands with
  | w :: rest =>
    (n.beginExchange l d (PollKind.exchange w.poll) (.command w.origin) (n.pollRequest d v w.poll)).onDevice d
      fun v => { v with commands := rest }
  | [] =>
    match (if DevState.polled v.state then n.duePoll d else none) with
    | some (e, s) =>
      (n.beginExchange l d (PollKind.exchange s.kind) (.roster e) (n.pollRequest d v s.kind)).onRoster e
        fun _ => { nextDue := some (n.svc.now + s.period * Config.cyclesPerTenth), since := none }
    | none =>
      if (v.state = .absent ∨ v.state = .failed) ∧ due n.svc.now v.joinDue = true then
        (n.beginExchange l d .identify .join .plain).onDevice d fun v =>
          { v with state := .joining, joinOrigin := some v.state, joinDue := none }
      else if v.attachWaiting ∧ v.state = .present then
        (n.beginExchange l d .status .attach .plain).onDevice d fun v => { v with attachWaiting := false }
      else n

/-- R103: a free line whose device has one looks for work once the due entries that may not be polled are skipped. -/
theorem Node.lookForWork_free {n : Node} {d l : Nat} {v : Device} (hs : n.trib.started = true)
    (hd : n.device d = some v) (he : v.exchange = none) (hl : (n.skipRoster d v).set.lineOf d = some l) :
    n.lookForWork d =
      match (n.skipRoster d v).standingLoad d v with
      | some (p, src) =>
        { (n.skipRoster d v).beginExchange l d .pageLoad .zone (.page p) with
          zone := (n.skipRoster d v).zone.changeSign d fun g => { g with load := some { id := p.id, src := src } } }
      | none => (n.skipRoster d v).otherWork d l v := by
  unfold Node.lookForWork
  simp only [hd, hs, he, Bool.true_eq_false, Option.isSome_none, Bool.false_eq_true, or_self, if_false]
  generalize n.skipRoster d v = m at hl ⊢
  simp only [hl, Node.standingLoad, Node.otherWork]
  all_goals split <;> rename_i hload <;> simp only [hload]
  all_goals cases v.commands <;> rfl

/-- R101: an exchange begins on a line: its number advances and the device has the exchange in flight. -/
theorem Node.beginExchange_eq {n : Node} {l : Nat} {k : Line} (h : nth n.trib.lines l = some k) (d : Nat)
    (kind : ExchKind) (asker : Asker) (req : Request) : n.beginExchange l d kind asker req =
      (n.onLine l fun k => { k with number := (k.number + 1) % 256 }).onDevice d fun v => { v with
        exchange := some
          { kind := kind, number := (k.number + 1) % 256, attempt := 1, asker := asker, request := req,
            timeout := n.set.exchangeTimeout, retries := n.set.exchangeRetries,
            deadline := n.svc.now + ms n.set.exchangeTimeout } } := by
  have hk : (nth (n.onLine l fun k => { k with number := (k.number + 1) % 256 }).trib.lines l).map (·.number) =
      some ((k.number + 1) % 256) := by
    show (nth (change _ n.trib.lines l) l).map _ = _
    rw [nth_change_same, h]; rfl
  simp only [Node.beginExchange, hk]; rfl

end Sys2Proof.Machine
end

