-- ==== Sys2Proof/Laws/Detach.lean ====
section
/-! SUPPORT. What detaching a device does (R112): its record, the blocks that know it (R84, R135, R159), and what is left
alone. -/

namespace Sys2Proof.Machine

/-! ## What ZONE's and WX's operations leave to the services -/

theorem Svc.keeps_foldl {α β : Type} (p : β → Svc) {f : β → α → β} (h : ∀ x a, Svc.Keeps (p x) (p (f x a))) :
    ∀ (l : List α) (x : β), Svc.Keeps (p x) (p (l.foldl f x))
  | [], _ => .refl _
  | a :: l, x => (h x a).trans (Svc.keeps_foldl p h l (f x a))

theorem keeps_workOutSign (d : Nat) (x : ZoneSt) : Svc.Keeps x.1 (workOutSign d x).1 := by
  unfold workOutSign
  split
  · exact .refl _
  · dsimp only
    split
    · exact .refl _
    · exact Svc.keeps_post ..

theorem keeps_handZone (k : Nat) (x : ZoneSt) : Svc.Keeps x.1 (handZone k x).1 := by
  unfold handZone
  have h1 := Svc.keeps_foldl Prod.fst (fun x d => keeps_workOutSign d x) (x.1.settings.boundSigns k) x
  have h2 : ∀ l y, Svc.Keeps y.1 (List.foldl (fun y b => workOutBeacon b y) y l).1 :=
    fun l y => Svc.keeps_foldl Prod.fst (f := fun y b => workOutBeacon b y) (fun y b => Svc.Keeps.refl y.1) l y
  exact h1.trans (h2 _ _)

theorem keeps_addCause (k : Nat) (c : Cause) (x : ZoneSt) : Svc.Keeps x.1 (addCause k c x).1 := by
  unfold addCause
  split
  · exact .refl _
  · dsimp only
    split_ifs
    · exact .refl _
    · exact (Svc.keeps_post ..).trans (keeps_handZone k (_, _))
    · exact .refl _

theorem keeps_removeCause (k : Nat) (c : Cause) (x : ZoneSt) : Svc.Keeps x.1 (removeCause k c x).1 := by
  unfold removeCause
  split
  · exact .refl _
  · dsimp only
    split_ifs
    · exact (Svc.keeps_post ..).trans (keeps_handZone k (_, _))
    · exact .refl _
    · exact .refl _

theorem keeps_handWeather (a : List (Option RuleSpec)) (b : List RuleRec) (c : List (Option RuleSpec)) (e : List RuleRec)
    (x : ZoneSt) : Svc.Keeps x.1 (handWeather a b c e x).1 := by
  refine Svc.keeps_foldl Prod.fst (fun x z => ?_) _ x
  split
  · exact keeps_addCause ..
  · exact keeps_removeCause ..
  · exact .refl _

theorem keeps_loadEnds (d : Nat) (o : LoadOutcome) (x : ZoneSt) : Svc.Keeps x.1 (loadEnds d o x).1 := by
  unfold loadEnds
  split
  · split
    · exact .refl _
    · refine Svc.Keeps.trans ?_ (Svc.keeps_freeBuffers _ _ _)
      have h1 : ∀ (b : Prop) [Decidable b] (s : Svc) c u l, Svc.Keeps s (if b then s.post c u l else s) := by
        intro b _ s c u l
        split
        · exact Svc.keeps_post ..
        · exact .refl _
      exact (h1 _ _ _ _ _).trans (h1 _ _ _ _ _)
  · exact .refl _

theorem keeps_removeSign (d : Nat) (x : ZoneSt) : Svc.Keeps x.1 (removeSign d x).1 := by
  unfold removeSign
  split
  · exact .refl _
  · exact Svc.keeps_freeBuffers ..

/-- R133, R134: attaching a device only posts. -/
theorem keeps_attachGantry (devices : List Device) (d : Nat) (i : Identity) (r : Bool) (x : TollSt) :
    Svc.Keeps x.1 (attachGantry devices d i r x).1 := by
  unfold attachGantry
  cases he : x.2.entry i.gantry with
  | none =>
    simp only [he]
    split_ifs
    · exact Svc.keeps_post ..
    · exact .refl _
  | some e =>
    simp only [he]
    generalize (match e.device with
      | none => false
      | some o => o ≠ d && (match nth devices o with
        | none => false
        | some v => v.answers)) = clash
    split_ifs
    · exact Svc.keeps_post ..
    · exact Svc.keeps_post ..
    · exact Svc.keeps_post ..
    · exact .refl _

theorem keeps_retryUnattached (devices : List Device) (x : TollSt) : Svc.Keeps x.1 (retryUnattached devices x).1 := by
  refine Svc.keeps_foldl Prod.fst (fun y d => ?_) _ x
  split
  · split
    · split
      · exact keeps_attachGantry ..
      · exact .refl _
    · exact .refl _
  · exact .refl _

theorem keeps_unbindDevice (devices : List Device) (d : Nat) (x : TollSt) :
    Svc.Keeps x.1 (unbindDevice devices d x).1 := by
  have h1 : ∀ g y, Svc.Keeps y.1 (dropIdleEntry devices g y).1 := by
    intro g y
    unfold dropIdleEntry
    split
    · exact .refl _
    · split
      · exact keeps_retryUnattached devices
          (y.1, { y.2 with gantries := dropFirst (fun e => e.number = g) y.2.gantries })
      · exact .refl _
  have h2 := fun l y => Svc.keeps_foldl Prod.fst (f := fun y g => dropIdleEntry devices g y) (fun y g => h1 g y) l y
  have h3 : ∀ l (t : Toll), Svc.Keeps x.1 (List.foldl (fun y g => dropIdleEntry devices g y) (x.1, t) l).1 :=
    fun l t => h2 l (x.1, t)
  exact h3 _ _

/-! ## Detaching (R112) -/

/-- What detaching device `d` leaves: the settings and times, the lines, the roster, the log and the other devices. -/
structure Node.Detaches (d : Nat) (n m : Node) : Prop where
  now : m.svc.now = n.svc.now
  time : m.svc.time = n.svc.time
  set : m.set = n.set
  lines : m.trib.lines = n.trib.lines
  roster : m.trib.roster = n.trib.roster
  log : m.toll.log = n.toll.log
  others : ∀ k, k ≠ d → m.device k = n.device k

theorem Node.Detaches.refl (d : Nat) (n : Node) : Node.Detaches d n n := ⟨rfl, rfl, rfl, rfl, rfl, rfl, fun _ _ => rfl⟩

theorem Node.Detaches.trans {d : Nat} {n m k : Node} (a : Node.Detaches d n m) (b : Node.Detaches d m k) :
    Node.Detaches d n k :=
  ⟨b.now.trans a.now, b.time.trans a.time, b.set.trans a.set, b.lines.trans a.lines, b.roster.trans a.roster,
    b.log.trans a.log, fun k h => (b.others k h).trans (a.others k h)⟩

/-- Only the services and what is none of TRIB's or TOLL's log change. -/
theorem Node.Detaches.of_svc {d : Nat} {n m : Node} (hs : Svc.Keeps n.svc m.svc) (ht : m.trib = n.trib)
    (hl : m.toll.log = n.toll.log) : Node.Detaches d n m :=
  ⟨hs.now, hs.time, hs.settings, by rw [ht], by rw [ht], hl, fun k _ => by unfold Node.device; rw [ht]⟩

theorem Node.detaches_onDevice (n : Node) (d : Nat) (f : Device → Device) : Node.Detaches d n (n.onDevice d f) :=
  ⟨rfl, rfl, rfl, rfl, rfl, rfl, fun _ h => nth_change_other _ _ h⟩

theorem Node.trib_endCommand (n : Node) (o : Origin) (st : Status) (v : Value) :
    (n.endCommand o st v).trib = n.trib ∧ (n.endCommand o st v).toll = n.toll ∧
      (n.endCommand o st v).zone = n.zone ∧ (n.endCommand o st v).rules = n.rules := by
  unfold Node.endCommand
  split
  · exact ⟨rfl, rfl, rfl, rfl⟩
  · cases o with
    | link t => exact ⟨rfl, rfl, rfl, rfl⟩
    | centre k =>
      simp only [Node.replyTo, Node.offerCmd]
      split <;> exact ⟨rfl, rfl, rfl, rfl⟩

theorem Node.detaches_endCommand (n : Node) (o : Origin) (st : Status) (v : Value) (d : Nat) :
    Node.Detaches d n (n.endCommand o st v) :=
  have h := n.trib_endCommand o st v
  .of_svc (n.keeps_endCommand o st v).svc h.1 (by rw [h.2.1])

theorem Node.detaches_emptyCommands (n : Node) (d : Nat) : Node.Detaches d n (n.emptyCommands d) := by
  unfold Node.emptyCommands
  split
  · exact .refl _ _
  · rename_i v _
    refine (n.detaches_onDevice d fun v => { v with commands := [] }).trans ?_
    generalize n.onDevice d _ = m
    induction v.commands generalizing m with
    | nil => exact .refl _ _
    | cons w l ih => exact (m.detaches_endCommand ..).trans (ih _)

/-- R104: the list is empty, the rest of the record as it was. -/
theorem Node.device_emptyCommands {n : Node} {d : Nat} {v : Device} (h : n.device d = some v) :
    (n.emptyCommands d).device d = some { v with commands := [] } := by
  simp only [Node.emptyCommands, h]
  have hd : (n.onDevice d fun v => { v with commands := [] }).device d = some { v with commands := [] } := by
    show nth (change _ n.trib.devices d) d = _
    rw [nth_change_same]
    show (n.device d).map _ = _
    rw [h]; rfl
  revert hd
  generalize n.onDevice d _ = m
  generalize v.commands = l
  induction l generalizing m with
  | nil => exact id
  | cons w l ih => intro hd; exact ih _ ((m.device_endCommand ..).trans hd)

theorem Node.detaches_abandon (n : Node) (d : Nat) (e : Exchange) : Node.Detaches d n (n.abandon d e) := by
  have hz : ∀ m : Node, Node.Detaches d m (if e.kind = .pageLoad then m.onZone (loadEnds d .abandoned) else m) := by
    intro m
    split
    · exact .of_svc (keeps_loadEnds d .abandoned (m.svc, m.zone)) rfl rfl
    · exact .refl _ _
  have he : ∀ m : Node, Node.Detaches d m (m.endPoll d e .wrongState) := by
    intro m
    unfold Node.endPoll
    split
    · exact Node.detaches_endCommand ..
    · exact .refl _ _
  exact ((n.detaches_onDevice d fun v => { v with exchange := none }).trans (hz _)).trans (he _)

/-- R102: an exchange that ends ABANDONED leaves its device's record but for the exchange. -/
theorem Node.device_abandon {n : Node} {d : Nat} {v : Device} (e : Exchange) (h : n.device d = some v) :
    (n.abandon d e).device d = some { v with exchange := none } := by
  have hd : (n.freeLine d).device d = some { v with exchange := none } := by
    show nth (change _ n.trib.devices d) d = _
    rw [nth_change_same]
    show (n.device d).map _ = _
    rw [h]; rfl
  have hz : ∀ m : Node, (if e.kind = .pageLoad then m.onZone (loadEnds d .abandoned) else m).device d = m.device d := by
    intro m; split <;> rfl
  unfold Node.abandon Node.endPoll
  dsimp only
  split
  · rw [Node.device_endCommand, hz, hd]
  · rw [hz, hd]

/-- R159: the rules of a device that ceases to be a weather station. -/
theorem keeps_clearRulesOf (d : Nat) (x : RuleSt) : Svc.Keeps x.1 (clearRulesOf d x).1 := by
  refine Svc.keeps_foldl Prod.fst (fun y k => ?_) _ x
  split
  · dsimp only
    split_ifs
    · exact .refl _
    · exact Svc.keeps_post ..
    · exact .refl _
  · exact .refl _

theorem Node.detaches_onRules (n : Node) (d : Nat) {f : RuleSt → RuleSt}
    (h : Svc.Keeps n.svc (f (n.svc, n.rules)).1) : Node.Detaches d n (n.onRules f) :=
  .of_svc (h.trans (keeps_handWeather _ _ _ _ ((f (n.svc, n.rules)).1, n.zone))) rfl rfl

/-- R84, R135, R159: a detached device at ZONE, TOLL and WX. -/
theorem Node.detaches_detachElsewhere (n : Node) (d : Nat) (a b : DeviceKind) :
    Node.Detaches d n (n.detachElsewhere d a b) ∧ (n.detachElsewhere d a b).trib = n.trib := by
  have hz : ∀ m : Node, ∃ f, (if a = .sign then if b = .sign then m.onZone (forgetShown d) else m.onZone (removeSign d)
      else if b = .sign then m.onZone (makeSign d) else m) = m.onZone f ∧ Svc.Keeps m.svc (f (m.svc, m.zone)).1 := by
    intro m
    split
    · split
      · exact ⟨_, rfl, .refl _⟩
      · exact ⟨_, rfl, keeps_removeSign d (m.svc, m.zone)⟩
    · split
      · exact ⟨_, rfl, .refl _⟩
      · exact ⟨fun x => x, rfl, .refl _⟩
  obtain ⟨f, hf, hk⟩ := hz n
  have hu : ∀ (m : Node) (l : List Device),
      Node.Detaches d m (m.onToll (unbindDevice l d)) ∧ (m.onToll (unbindDevice l d)).trib = m.trib := by
    intro m l
    exact ⟨.of_svc (keeps_unbindDevice l d (m.svc, m.toll)) rfl (unbindDevice_spec l d (m.svc, m.toll)).1, rfl⟩
  unfold Node.detachElsewhere
  rw [hf]
  dsimp only
  have hfz : Node.Detaches d n (n.onZone f) := .of_svc hk rfl rfl
  have h1 : Node.Detaches d n ((n.onZone f).onToll (unbindDevice (n.onZone f).trib.devices d)) :=
    hfz.trans (hu (n.onZone f) _).1
  generalize hm : (n.onZone f).onToll (unbindDevice (n.onZone f).trib.devices d) = m at h1
  have ht : m.trib = n.trib := by rw [← hm]; rfl
  split
  · refine ⟨(h1.trans ?_).trans (Node.detaches_onRules _ d (keeps_clearRulesOf d (_, _))), ht⟩
    exact .of_svc (m.svc.keeps_wx rfl) rfl rfl
  · exact ⟨h1, ht⟩

/-- R112: a device taken off with nothing in flight and nothing waiting. -/
theorem Node.detach_idle {n : Node} {d : Nat} {v : Device} (k : DeviceKind) (c : DevCause) (h : n.device d = some v)
    (he : v.exchange = none) (hc : v.commands = []) :
    let new := n.set.kindOf d
    let state : DevState := if new = .unused then .unused else .absent
    n.detach d k c = Node.detachElsewhere
      (((n.onDevice d fun v => { v with
          state := state, joinDue := if new = .unused then none else (n.set.lineOf d).map fun _ => n.svc.now
          identity := if new = k then v.identity else none
          miss := 0, restartEnd := none, restartOrigin := none, joinOrigin := none, status := none
          attachWaiting := false }).post .deviceState (.device d) [.dev v.state, .dev state, .devCause c]).onSvc
        fun s => s.closeOpen d .device) d k new := by
  intro new state
  have h0 : n.emptyCommands d = n := Node.emptyCommands_nil h hc
  have hp : DevState.polled state = false := by simp only [state]; split <;> rfl
  have hs : DevState.closesSegment state = true := by simp only [state]; split <;> rfl
  unfold Node.detach
  simp only [h, he, h0]
  congr 1
  rw [Node.moveDevice_leaves _ _ _ _ _ _ hp, hs, if_pos rfl]
  refine Node.emptyCommands_nil (v := ?_) ?_ ?_
  rotate_left
  · show nth (change _ n.trib.devices d) d = _
    rw [nth_change_same]
    show (n.device d).map _ = _
    rw [h]; rfl
  · exact hc

/-- R112: an exchange in flight ends ABANDONED first. -/
theorem Node.detach_exchange {n : Node} {d : Nat} {v : Device} {e : Exchange} (k : DeviceKind) (c : DevCause)
    (h : n.device d = some v) (he : v.exchange = some e) : n.detach d k c = (n.abandon d e).detach d k c := by
  have hs : (n.abandon d e).set = n.set := (n.detaches_abandon d e).set
  unfold Node.detach
  simp only [h, he, n.device_abandon e h, hs]

/-- R112: waiting commands are answered next. -/
theorem Node.detach_commands {n : Node} {d : Nat} {v : Device} (k : DeviceKind) (c : DevCause)
    (h : n.device d = some v) (he : v.exchange = none) : n.detach d k c = (n.emptyCommands d).detach d k c := by
  have hs : (n.emptyCommands d).set = n.set := (n.detaches_emptyCommands d).set
  have h1 := Node.device_emptyCommands h
  have h2 : (n.emptyCommands d).emptyCommands d = n.emptyCommands d := Node.emptyCommands_nil h1 rfl
  unfold Node.detach
  simp only [h, h1, he, hs, h2]

/-- R112: what a detached device's record holds. -/
def Device.detached (s : Settings) (now d : Nat) (k : DeviceKind) (v : Device) : Device :=
  let unused := s.kindOf d = .unused
  { v with
    state := if unused then .unused else .absent
    joinDue := if unused then none else (s.lineOf d).map fun _ => now
    identity := if s.kindOf d = k then v.identity else none
    miss := 0, restartEnd := none, restartOrigin := none, joinOrigin := none, status := none, exchange := none
    commands := [], attachWaiting := false }

/-- R112: everything a detaching does to the device table, and what it leaves. -/
theorem Node.detach_spec {n : Node} {d : Nat} {v : Device} (k : DeviceKind) (c : DevCause) (h : n.device d = some v) :
    Node.Detaches d n (n.detach d k c) ∧
      (n.detach d k c).device d = some (v.detached n.set n.svc.now d k) := by
  have idle : ∀ (n : Node) (v : Device), n.device d = some v → v.exchange = none → v.commands = [] →
      Node.Detaches d n (n.detach d k c) ∧ (n.detach d k c).device d = some (v.detached n.set n.svc.now d k) := by
    intro n v h he hc
    rw [Node.detach_idle k c h he hc]
    have hx := Node.detaches_detachElsewhere
      (((n.onDevice d fun v => { v with
          state := if n.set.kindOf d = .unused then .unused else .absent
          joinDue := if n.set.kindOf d = .unused then none else (n.set.lineOf d).map fun _ => n.svc.now
          identity := if n.set.kindOf d = k then v.identity else none
          miss := 0, restartEnd := none, restartOrigin := none, joinOrigin := none, status := none
          attachWaiting := false }).post .deviceState (.device d)
            [.dev v.state, .dev (if n.set.kindOf d = .unused then .unused else .absent), .devCause c]).onSvc
        fun s => s.closeOpen d .device) d k (n.set.kindOf d)
    constructor
    · refine Node.Detaches.trans ?_ hx.1
      exact (n.detaches_onDevice d _).trans
        (.of_svc ((Svc.keeps_post ..).trans (Svc.keeps_closeOpen ..)) rfl rfl)
    · unfold Node.device
      rw [hx.2]
      show nth (change _ n.trib.devices d) d = _
      rw [nth_change_same]
      show (n.device d).map _ = _
      rw [h]
      simp only [Option.map_some, Device.detached, Option.some.injEq]
      rw [← he, ← hc]
  have waiting : ∀ (n : Node) (v : Device), n.device d = some v → v.exchange = none →
      Node.Detaches d n (n.detach d k c) ∧ (n.detach d k c).device d = some (v.detached n.set n.svc.now d k) := by
    intro n v h he
    have hk := n.detaches_emptyCommands d
    have := idle (n.emptyCommands d) { v with commands := [] } (Node.device_emptyCommands h) he rfl
    rw [Node.detach_commands k c h he]
    rw [hk.set, hk.now] at this
    exact ⟨hk.trans this.1, this.2⟩
  cases he : v.exchange with
  | none => exact waiting n v h he
  | some e =>
    have hk := n.detaches_abandon d e
    have := waiting (n.abandon d e) { v with exchange := none } (n.device_abandon e h) rfl
    rw [Node.detach_exchange k c h he]
    rw [hk.set, hk.now] at this
    exact ⟨hk.trans this.1, this.2⟩

/-- R112: whether a write has changed a device's line or kind. -/
def Node.moved (n : Node) (old : Settings) (d : Nat) : Prop :=
  old.lineOf d ≠ n.set.lineOf d ∨ old.kindOf d ≠ n.set.kindOf d

/-- R112: one device of `detachChanged`. -/
def Node.detachOne (old : Settings) (n : Node) (d : Nat) : Node :=
  if old.lineOf d ≠ n.set.lineOf d then n.detach d (old.kindOf d) .remap
  else if old.kindOf d ≠ n.set.kindOf d then n.detach d (old.kindOf d) .kind
  else n

theorem Node.detachChanged_eq (n : Node) (old : Settings) : n.detachChanged old = (places 8).foldl (Node.detachOne old) n :=
  rfl

theorem Node.detach_missing {n : Node} {d : Nat} (k : DeviceKind) (c : DevCause) (h : n.device d = none) :
    n.detach d k c = n := by
  unfold Node.detach; rw [h]

theorem Node.detachOne_unmoved {n : Node} {old : Settings} {d : Nat} (h : ¬n.moved old d) : n.detachOne old d = n := by
  simp only [Node.moved, not_or, not_not] at h
  simp only [Node.detachOne, h.1, h.2, ne_eq, not_true_eq_false, if_false]

theorem Node.detachOne_moved {n : Node} {old : Settings} {d : Nat} (h : n.moved old d) :
    n.detachOne old d = n.detach d (old.kindOf d) (if old.lineOf d ≠ n.set.lineOf d then .remap else .kind) := by
  unfold Node.detachOne
  split
  · rfl
  · rename_i hl
    rw [if_pos (h.resolve_left hl)]

theorem Node.detaches_detachOne (n : Node) (old : Settings) (d : Nat) : Node.Detaches d n (n.detachOne old d) := by
  by_cases h : n.moved old d
  · rw [Node.detachOne_moved h]
    cases hv : n.device d with
    | none => rw [Node.detach_missing _ _ hv]; exact .refl _ _
    | some v => exact (Node.detach_spec _ _ hv).1
  · rw [Node.detachOne_unmoved h]; exact .refl _ _

/-- R112: what detaching several devices leaves. -/
structure Node.DetachesAll (l : List Nat) (n m : Node) : Prop where
  now : m.svc.now = n.svc.now
  time : m.svc.time = n.svc.time
  set : m.set = n.set
  lines : m.trib.lines = n.trib.lines
  roster : m.trib.roster = n.trib.roster
  log : m.toll.log = n.toll.log
  others : ∀ k, k ∉ l → m.device k = n.device k

/-- R112: each device is detached at most once, and what it becomes depends on its own record and the settings alone. -/
theorem Node.foldl_detachOne (old : Settings) : ∀ (l : List Nat) (n : Node), l.Nodup →
    Node.DetachesAll l n (l.foldl (Node.detachOne old) n) ∧
    (∀ d v, d ∈ l → n.moved old d → n.device d = some v →
      (l.foldl (Node.detachOne old) n).device d = some (v.detached n.set n.svc.now d (old.kindOf d))) ∧
    (∀ d, ¬n.moved old d → (l.foldl (Node.detachOne old) n).device d = n.device d)
  | [], n, _ => ⟨⟨rfl, rfl, rfl, rfl, rfl, rfl, fun _ _ => rfl⟩, fun _ _ h => (by cases h), fun _ _ => rfl⟩
  | k :: l, n, hl => by
    have hk := n.detaches_detachOne old k
    have hm : ∀ d, (n.detachOne old k).moved old d ↔ n.moved old d := by
      intro d; unfold Node.moved; rw [hk.set]
    obtain ⟨h1, h2, h3⟩ := Node.foldl_detachOne old l (n.detachOne old k) (List.nodup_cons.1 hl).2
    have hkl := (List.nodup_cons.1 hl).1
    rw [List.foldl_cons]
    refine ⟨⟨h1.now.trans hk.now, h1.time.trans hk.time, h1.set.trans hk.set, h1.lines.trans hk.lines,
      h1.roster.trans hk.roster, h1.log.trans hk.log, ?_⟩, ?_, ?_⟩
    · intro d hd
      simp only [List.mem_cons, not_or] at hd
      exact (h1.others d hd.2).trans (hk.others d hd.1)
    · intro d v hd hmv hv
      rcases List.mem_cons.1 hd with rfl | hd
      · rw [h1.others d hkl, Node.detachOne_moved hmv]
        exact (Node.detach_spec _ _ hv).2
      · have hne : d ≠ k := fun e => hkl (e ▸ hd)
        have := h2 d v hd ((hm d).2 hmv) ((hk.others d hne).trans hv)
        rw [hk.set, hk.now] at this
        exact this
    · intro d hmv
      rw [h3 d (mt (hm d).1 hmv)]
      by_cases hd : d = k
      · subst hd; rw [Node.detachOne_unmoved hmv]
      · exact hk.others d hd

/-- R112: a write that changes one device's line or kind. -/
theorem Node.detachChanged_one {n : Node} {old : Settings} {d : Nat} (h1 : 1 ≤ d) (h8 : d ≤ 8)
    (h : ∀ k, k ≠ d → ¬n.moved old k) : n.detachChanged old = n.detachOne old d := by
  have skip : ∀ (l : List Nat) (m : Node), d ∉ l → m.set = n.set → l.foldl (Node.detachOne old) m = m := by
    intro l
    induction l with
    | nil => intro m _ _; rfl
    | cons k l ih =>
      intro m hd hs
      simp only [List.mem_cons, not_or] at hd
      have : ¬m.moved old k := by
        have := h k (fun e => hd.1 e.symm)
        unfold Node.moved at *
        rw [hs]; exact this
      rw [List.foldl_cons, Node.detachOne_unmoved this]
      exact ih m hd.2 hs
  obtain ⟨a, b, hab⟩ := List.append_of_mem (mem_places.2 ⟨h1, h8⟩ : d ∈ places 8)
  have hn : (a ++ d :: b).Nodup := hab ▸ (by decide : (places 8).Nodup)
  have ha : d ∉ a := fun h => (List.nodup_append.1 hn).2.2 d h d (by simp) rfl
  have hb : d ∉ b := (List.nodup_cons.1 (List.nodup_append.1 hn).2.1).1
  rw [Node.detachChanged_eq, hab, List.foldl_append, List.foldl_cons, skip a n ha rfl,
    skip b _ hb (n.detaches_detachOne old d).set]

/-- R84, R135: a detached device at ZONE and TOLL, where it is no weather station that ceases to be one. -/
theorem Node.detachElsewhere_dry (n : Node) (d : Nat) (old new : DeviceKind) (h : old ≠ .weather ∨ new = .weather) :
    let m := n.detachElsewhere d old new
    let unbound (x : Svc) : Prop := (m.svc, m.toll) = unbindDevice n.trib.devices d (x, n.toll)
    m.rules = n.rules ∧
      (old ≠ .sign → new ≠ .sign → m.zone = n.zone ∧ unbound n.svc) ∧
      (old = .sign → new = .sign → m.zone = n.zone.changeSign d (fun g => { g with shown := none }) ∧
        unbound n.svc) ∧
      (old ≠ .sign → new = .sign → unbound n.svc ∧ m.zone =
        { n.zone with signs := put n.zone.signs d (some (workedOut n.set n.zone d .made)) }) ∧
      (∀ g, old = .sign → new ≠ .sign → n.zone.sign d = some g →
        m.zone = { n.zone with signs := put n.zone.signs d none } ∧ unbound (n.svc.freeBuffers .sign
          ((if g.normal.isSome then 1 else 0) + (if g.staged.isSome then 1 else 0) + g.deferred))) := by
  have hd : ¬(old = .weather ∧ new ≠ .weather) := by tauto
  intro m unbound
  have hm : m = n.detachElsewhere d old new := rfl
  unfold Node.detachElsewhere at hm
  simp only [if_neg hd] at hm
  refine ⟨?_, ?_, ?_, ?_, ?_⟩
  · rw [hm]; split <;> (try split) <;> rfl
  · intro h1 h2
    simp only [if_neg h1, if_neg h2] at hm
    simp only [unbound, hm]; exact ⟨rfl, rfl⟩
  · intro h1 h2
    simp only [if_pos h1, if_pos h2] at hm
    simp only [unbound, hm]; exact ⟨rfl, rfl⟩
  · intro h1 h2
    simp only [if_neg h1, if_pos h2] at hm
    simp only [unbound, hm]; exact ⟨rfl, rfl⟩
  · intro g h1 h2 hg
    simp only [if_pos h1, if_neg h2] at hm
    have : removeSign d (n.svc, n.zone) = (n.svc.freeBuffers .sign
        ((if g.normal.isSome then 1 else 0) + (if g.staged.isSome then 1 else 0) + g.deferred),
        { n.zone with signs := put n.zone.signs d none }) := by
      unfold removeSign; simp only [hg]
    simp only [unbound, hm, Node.onZone, Node.onToll, this]; exact ⟨trivial, trivial⟩

/-- R159: a weather station that ceases to be one loses its gap mark and its rules besides. -/
theorem Node.detachElsewhere_weather (n : Node) (d : Nat) {new : DeviceKind} (h : new ≠ .weather) :
    n.detachElsewhere d .weather new = ((n.detachElsewhere d .unused new).onSvc fun s =>
      { s with wx := { s.wx with gaps := put s.wx.gaps d 0 } }).onRules (clearRulesOf d) := by
  have h1 : ¬(DeviceKind.weather = .sign) := by decide
  have h2 : ¬(DeviceKind.unused = .sign) := by decide
  have h3 : ¬(DeviceKind.unused = .weather ∧ new ≠ .weather) := fun e => by cases e.1
  unfold Node.detachElsewhere
  simp only [if_neg h1, if_neg h2, if_neg h3]
  exact if_pos (by simp [h])

/-- A detached device at ZONE, TOLL and WX: its attachment and binding. -/
theorem Node.detachElsewhere_toll (n : Node) (d : Nat) (old new : DeviceKind) :
    let m := n.detachElsewhere d old new
    m.toll.log = n.toll.log ∧ nth m.toll.attachments d = (nth n.toll.attachments d).map (fun _ => none) ∧
      ∀ e ∈ m.toll.gantries, e.device ≠ some d := by
  intro m
  have h : ∃ s, m.toll = (unbindDevice n.trib.devices d (s, n.toll)).2 := by
    simp only [m]
    unfold Node.detachElsewhere
    split_ifs <;> exact ⟨_, rfl⟩
  obtain ⟨s, h⟩ := h
  rw [h]
  exact unbindDevice_spec n.trib.devices d (s, n.toll)

/-- R159: one rule of a device that ceases to be a weather station. -/
def clearRuleOf (d : Nat) (y : RuleSt) (k : Nat) : RuleSt :=
  match (nth y.1.settings.rules k).getD none, nth y.2 k with
  | some spec, some rec =>
    if spec.device ≠ d ∨ rec.state = .clear then y
    else
      let s := if isTripped rec.state then
          y.1.post .ruleClear (.rule k) [.nat spec.zone, .absent, .ruleClear .device] else y.1
      (s, put y.2 k { state := .clear, last := none, since := s.time })
  | _, _ => y

/-- R159: whether a rule is of the device and not CLEAR. -/
def clearsRule (d : Nat) (x : RuleSt) (k : Nat) (spec : RuleSpec) (rec : RuleRec) : Prop :=
  nth x.1.settings.rules k = some (some spec) ∧ nth x.2 k = some rec ∧ spec.device = d ∧ rec.state ≠ .clear

theorem clearRuleOf_other {d k : Nat} {y : RuleSt} (h : ∀ spec rec, ¬clearsRule d y k spec rec) :
    clearRuleOf d y k = y := by
  unfold clearRuleOf
  split
  · rename_i spec rec hs hr
    rw [if_pos]
    by_contra hc
    simp only [not_or, not_not] at hc
    refine h spec rec ⟨?_, hr, hc.1, hc.2⟩
    cases hn : nth y.1.settings.rules k with
    | none => rw [hn] at hs; cases hs
    | some o => rw [hn] at hs; exact congrArg some hs
  · rfl

theorem clearRuleOf_hit {d k : Nat} {y : RuleSt} {spec : RuleSpec} {rec : RuleRec} (h : clearsRule d y k spec rec) :
    clearRuleOf d y k = ((if isTripped rec.state then
        y.1.post .ruleClear (.rule k) [.nat spec.zone, .absent, .ruleClear .device] else y.1),
      put y.2 k { state := .clear, last := none, since := y.1.time }) := by
  obtain ⟨h1, h2, h3, h4⟩ := h
  unfold clearRuleOf
  simp only [h1, h2, Option.getD_some, h3, h4, ne_eq, not_true_eq_false, or_self, if_false]
  by_cases ht : isTripped rec.state = true
  · simp only [ht, if_true, (Svc.keeps_post ..).time]
  · simp only [ht, if_false, Bool.false_eq_true]

theorem clearRulesOf_eq (d : Nat) (x : RuleSt) : clearRulesOf d x = (places 8).foldl (clearRuleOf d) x := rfl

theorem keeps_clearRuleOf (d k : Nat) (y : RuleSt) : Svc.Keeps y.1 (clearRuleOf d y k).1 := by
  by_cases h : ∃ spec rec, clearsRule d y k spec rec
  · obtain ⟨spec, rec, h⟩ := h
    rw [clearRuleOf_hit h]
    dsimp only
    split
    · exact Svc.keeps_post ..
    · exact .refl _
  · rw [clearRuleOf_other fun spec rec e => h ⟨spec, rec, e⟩]; exact .refl _

/-- R159: each rule of the device that is not CLEAR becomes CLEAR, and no other rule is touched. -/
theorem foldl_clearRuleOf (d : Nat) : ∀ (l : List Nat) (x : RuleSt), l.Nodup →
    let y := l.foldl (clearRuleOf d) x
    Svc.Keeps x.1 y.1 ∧
    (∀ k, (k ∉ l ∨ ∀ spec rec, ¬clearsRule d x k spec rec) → nth y.2 k = nth x.2 k) ∧
    (∀ k spec rec, k ∈ l → clearsRule d x k spec rec →
      nth y.2 k = some { state := .clear, last := none, since := x.1.time })
  | [], x, _ => ⟨.refl _, fun _ _ => rfl, fun _ _ _ h => (by cases h)⟩
  | k :: l, x, hl => by
    intro y
    have hk := keeps_clearRuleOf d k x
    obtain ⟨h1, h2, h3⟩ := foldl_clearRuleOf d l (clearRuleOf d x k) (List.nodup_cons.1 hl).2
    have hkl := (List.nodup_cons.1 hl).1
    have hother : ∀ j, j ≠ k → nth (clearRuleOf d x k).2 j = nth x.2 j := by
      intro j hj
      by_cases h : ∃ spec rec, clearsRule d x k spec rec
      · obtain ⟨spec, rec, h⟩ := h
        rw [clearRuleOf_hit h]; exact nth_put_other _ _ hj
      · rw [clearRuleOf_other fun spec rec e => h ⟨spec, rec, e⟩]
    have hc : ∀ j, j ≠ k → ∀ spec rec, clearsRule d (clearRuleOf d x k) j spec rec ↔ clearsRule d x j spec rec := by
      intro j hj spec rec; unfold clearsRule; rw [hother j hj, hk.settings]
    refine ⟨hk.trans h1, ?_, ?_⟩
    · intro j hj
      by_cases hjk : j = k
      · subst hjk
        have hno : ∀ spec rec, ¬clearsRule d x j spec rec := hj.resolve_left (by simp)
        have := h2 j (Or.inl hkl)
        rw [clearRuleOf_other hno] at this
        simp only [y, List.foldl_cons, clearRuleOf_other hno]
        exact this
      · refine (h2 j ?_).trans (hother j hjk)
        rcases hj with hj | hj
        · exact Or.inl fun h => hj (List.mem_cons_of_mem _ h)
        · exact Or.inr fun spec rec e => hj spec rec ((hc j hjk spec rec).1 e)
    · intro j spec rec hj hcl
      by_cases hjk : j = k
      · subst hjk
        refine (h2 j (Or.inl hkl)).trans ?_
        rw [clearRuleOf_hit hcl, nth_put_same, hcl.2.1]; rfl
      · have := h3 j spec rec ((List.mem_cons.1 hj).resolve_left hjk) ((hc j hjk spec rec).2 hcl)
        rw [hk.time] at this
        exact this

/-- R159: with no tripped rule of the device nothing is posted. -/
theorem foldl_clearRuleOf_quiet (d : Nat) : ∀ (l : List Nat) (x : RuleSt), l.Nodup →
    (∀ k spec rec, k ∈ l → clearsRule d x k spec rec → isTripped rec.state = false) →
    (l.foldl (clearRuleOf d) x).1 = x.1
  | [], _, _, _ => rfl
  | k :: l, x, hl, h => by
    have hkl := (List.nodup_cons.1 hl).1
    have h1 : (clearRuleOf d x k).1 = x.1 := by
      by_cases hc : ∃ spec rec, clearsRule d x k spec rec
      · obtain ⟨spec, rec, hc⟩ := hc
        rw [clearRuleOf_hit hc, h k spec rec (by simp) hc]; rfl
      · rw [clearRuleOf_other fun spec rec e => hc ⟨spec, rec, e⟩]
    have hother : ∀ j, j ≠ k → nth (clearRuleOf d x k).2 j = nth x.2 j := by
      intro j hj
      by_cases h : ∃ spec rec, clearsRule d x k spec rec
      · obtain ⟨spec, rec, h⟩ := h
        rw [clearRuleOf_hit h]; exact nth_put_other _ _ hj
      · rw [clearRuleOf_other fun spec rec e => h ⟨spec, rec, e⟩]
    rw [List.foldl_cons, foldl_clearRuleOf_quiet d l _ (List.nodup_cons.1 hl).2, h1]
    intro j spec rec hj hc
    have hjk : j ≠ k := fun e => hkl (e ▸ hj)
    refine h j spec rec (List.mem_cons_of_mem _ hj) ?_
    unfold clearsRule at *
    rw [← hother j hjk, ← h1]; exact hc

/-- R159: one tripped rule of the device, all others of it CLEAR: RULE-CLEAR is posted for it. -/
theorem clearRulesOf_one {d k : Nat} {x : RuleSt} {spec : RuleSpec} {rec : RuleRec} (h1 : 1 ≤ k) (h8 : k ≤ 8)
    (h : clearsRule d x k spec rec)
    (hu : ∀ j, 1 ≤ j → j ≤ 8 → j ≠ k → ∀ spec rec, ¬clearsRule d x j spec rec)
    (ht : isTripped rec.state = true) :
    (clearRulesOf d x).1 = x.1.post .ruleClear (.rule k) [.nat spec.zone, .absent, .ruleClear .device] := by
  obtain ⟨a, b, hab⟩ := List.append_of_mem (mem_places.2 ⟨h1, h8⟩ : k ∈ places 8)
  have hn : (a ++ k :: b).Nodup := hab ▸ (by decide : (places 8).Nodup)
  have ha : k ∉ a := fun h => (List.nodup_append.1 hn).2.2 k h k (by simp) rfl
  have hb : k ∉ b := (List.nodup_cons.1 (List.nodup_append.1 hn).2.1).1
  have hin : ∀ j ∈ a, j ≠ k ∧ 1 ≤ j ∧ j ≤ 8 := fun j hj =>
    ⟨fun e => ha (e ▸ hj), mem_places.1 (hab ▸ List.mem_append_left _ hj)⟩
  have hfirst : a.foldl (clearRuleOf d) x = x := by
    clear hab hn ha
    induction a with
    | nil => rfl
    | cons j a ih =>
      have hj := hin j (by simp)
      rw [List.foldl_cons, clearRuleOf_other (hu j hj.2.1 hj.2.2 hj.1), ih fun i hi => hin i (by simp [hi])]
  rw [clearRulesOf_eq, hab, List.foldl_append, List.foldl_cons, hfirst,
    foldl_clearRuleOf_quiet d b _ (List.nodup_cons.1 (List.nodup_append.1 hn).2.1).2]
  · rw [clearRuleOf_hit h, if_pos ht]
  · intro j s r hj hc
    have hjk : j ≠ k := fun e => hb (e ▸ hj)
    have hj8 := mem_places.1 (hab ▸ List.mem_append_right a (List.mem_cons_of_mem k hj) : j ∈ places 8)
    refine absurd ?_ (hu j hj8.1 hj8.2 hjk s r)
    unfold clearsRule at *
    rw [clearRuleOf_hit h] at hc
    dsimp only at hc
    rw [if_pos ht, (Svc.keeps_post ..).settings, nth_put_other _ _ hjk] at hc
    exact hc

end Sys2Proof.Machine
end

