-- ==== Sys2Proof/Laws/Host.lean ====
section
/-! SUPPORT. The receiver of the host link (R184): each pass takes bytes away, so that its bound never matters. -/

namespace Sys2Proof.Machine

/-- What is left after a pass that does not gather is shorter. -/
theorem receive_shorter (l : List Byte) :
    (∀ rest, receive l = .hunting rest → rest.length < l.length) ∧
    (∀ rest, receive l = .wrongLength rest → rest.length < l.length) ∧
    (∀ f rest, receive l = .frame f rest → rest.length < l.length) := by
  unfold receive
  refine ⟨fun rest h => ?_, fun rest h => ?_, fun f rest h => ?_⟩ <;> (repeat' split at h) <;>
    simp only [Received.hunting.injEq, Received.wrongLength.injEq, Received.frame.injEq, reduceCtorEq] at h
  · subst h; simp
  · subst h; simp
  · obtain ⟨-, h⟩ := h
    subst h
    simp
    omega

/-- Any bound above the number of bytes gives the same. -/
theorem Node.receiveBytes_bound (mem : Memory) (k : Nat) :
    ∀ (j : Nat) (l : List Byte) (n : Node), l.length < k → l.length < j →
      Node.receiveBytes mem k l n = Node.receiveBytes mem j l n := by
  induction k with
  | zero => intro j l n h; omega
  | succ k ih =>
    intro j l n h hj
    cases j with
    | zero => omega
    | succ j =>
      obtain ⟨a, b, c⟩ := receive_shorter l
      unfold Node.receiveBytes
      cases hr : receive l with
      | nothing => rfl
      | gathering => rfl
      | hunting rest =>
        have := a rest hr
        exact ih _ _ _ (by omega) (by omega)
      | wrongLength rest =>
        have := b rest hr
        exact ih _ _ _ (by omega) (by omega)
      | frame f rest =>
        have := c f rest hr
        exact ih _ _ _ (by omega) (by omega)

end Sys2Proof.Machine
end

