-- ==== Sys2Proof/Laws/Invariant.lean ====
section
/-! SUPPORT. What keeps the invariants of the services (R122, R123, R176): one lemma for each shared operation that moves buffers or notices. -/

namespace Sys2Proof.Machine

/-! ## The pool (R123) -/

/-- R123: a grant under the three conditions leaves the guarantee covered and the ceilings kept. -/
theorem PoolSafe.grant {p : Pool} (h : PoolSafe p) {c : PoolClass} {n : Nat} (d : p.decide c n = none) :
    PoolSafe (p.grant c n) := by
  obtain ⟨h1, h2⟩ := h
  obtain ⟨d1, d2, d3⟩ := Pool.decide_none.1 d
  refine ⟨?_, fun x => ?_⟩
  · cases c <;>
      simp only [Pool.grant, Pool.change, Pool.guarantee, Pool.cls, Pool.othersUnheld, ClassRec.unheld] at * <;> omega
  · have := h2 x
    cases c <;> cases x <;> simp only [Pool.grant, Pool.change, Pool.cls] at * <;> omega

/-- R122: what a class gives back covers the floor it no longer holds. -/
theorem PoolSafe.release {p : Pool} (h : PoolSafe p) (c : PoolClass) (n : Nat) : PoolSafe (p.release c n) := by
  obtain ⟨h1, h2⟩ := h
  refine ⟨?_, fun x => ?_⟩
  · cases c <;>
      simp only [Pool.release, Pool.change, Pool.guarantee, Pool.cls, ClassRec.unheld] at * <;> omega
  · have := h2 x
    cases c <;> cases x <;> simp only [Pool.release, Pool.change, Pool.cls] at * <;> omega

/-- A change of a class that leaves its holding and its bounds. -/
theorem PoolSafe.change {p : Pool} (h : PoolSafe p) (c : PoolClass) {f : ClassRec → ClassRec}
    (hh : (f (p.cls c)).holding = (p.cls c).holding) (hf : (f (p.cls c)).floor = (p.cls c).floor)
    (hc : (f (p.cls c)).ceiling = (p.cls c).ceiling) : PoolSafe (p.change c f) := by
  obtain ⟨h1, h2⟩ := h
  refine ⟨?_, fun x => ?_⟩
  · cases c <;>
      simp only [Pool.change, Pool.guarantee, Pool.cls, ClassRec.unheld] at * <;> omega
  · have := h2 x
    cases c <;> cases x <;> simp only [Pool.change, Pool.cls] at * <;> omega

theorem PoolSafe.refuse {p : Pool} (h : PoolSafe p) (c : PoolClass) (r : PoolReason) : PoolSafe (p.refuse c r) := by
  unfold Pool.refuse
  cases r <;> exact h.change c rfl rfl rfl

theorem PoolSafe.countEviction {p : Pool} (h : PoolSafe p) (c : PoolClass) (k : Nat) :
    PoolSafe (p.countEviction c k) := h.change c rfl rfl rfl

/-- Four bounds that name every class name each class once. -/
theorem boundsFor_four {a b c d : ClassBounds} {t w g r : ClassBounds}
    (ht : boundsFor [a, b, c, d] .toll = some t) (hw : boundsFor [a, b, c, d] .weather = some w)
    (hg : boundsFor [a, b, c, d] .sign = some g) (hr : boundsFor [a, b, c, d] .transit = some r) (p : Pool) :
    [a, b, c, d].foldl Pool.withBounds p = { p with
      toll := { p.toll with floor := t.floor, ceiling := t.ceiling }
      weather := { p.weather with floor := w.floor, ceiling := w.ceiling }
      sign := { p.sign with floor := g.floor, ceiling := g.ceiling }
      transit := { p.transit with floor := r.floor, ceiling := r.ceiling } } := by
  obtain ⟨ca, fa, la⟩ := a
  obtain ⟨cb, fb, lb⟩ := b
  obtain ⟨cc, fc, lc⟩ := c
  obtain ⟨cd, fd, ld⟩ := d
  cases ca <;> cases cb <;> cases cc <;> cases cd <;>
    simp only [boundsFor, List.find?, reduceCtorEq, decide_true, decide_false, Option.some.injEq] at ht hw hg hr <;>
    subst ht hw hg hr <;> rfl

/-- R127: bounds that pass their checks keep the guarantee covered and the ceilings kept. -/
theorem PoolSafe.withBounds {p : Pool} {l : List ClassBounds} (ok : checkBounds p l = .done) :
    PoolSafe (l.foldl Pool.withBounds p) := by
  unfold checkBounds at ok
  split at ok
  · rename_i t w g r ht hw hg hr
    split at ok
    · cases ok
    · split at ok
      · cases ok
      · split at ok
        · cases ok
        · rename_i h1 h2 h3
          have h4 : l.length = 4 := by omega
          match l, h4 with
          | [a, b, c, d], _ =>
            rw [boundsFor_four ht hw hg hr]
            refine ⟨?_, fun x => ?_⟩
            · simp only [Pool.guarantee, ClassRec.unheld]; omega
            · cases x <;> simp only [Pool.cls] <;> omega
  · cases ok

/-! ## The services -/

namespace SvcOk

/-- The invariants speak of the pool and the notice queue alone. -/
theorem of_eq {s t : Svc} (h : SvcOk s) (p : t.pool = s.pool) (q : t.note.queue = s.note.queue) : SvcOk t :=
  ⟨by rw [p]; exact h.sum, by rw [p]; exact h.safe, by unfold NotesOk; rw [q]; exact h.notes⟩

theorem withPool {s : Svc} (h : SvcOk s) {p : Pool} (hs : p.total = s.pool.total) (hp : PoolSafe p) :
    SvcOk { s with pool := p } :=
  ⟨hs.trans h.sum, hp, h.notes⟩

theorem withNote {s : Svc} (h : SvcOk s) {n : Note} (hn : NotesOk n) : SvcOk { s with note := n } :=
  ⟨h.sum, h.safe, hn⟩

theorem reportFreeing {s : Svc} (h : SvcOk s) : SvcOk s.reportFreeing := ⟨h.sum, h.safe, h.notes⟩

/-- R126: buffers given back. -/
theorem freeBuffers {s : Svc} (h : SvcOk s) (c : PoolClass) (n : Nat) : SvcOk (s.freeBuffers c n) := by
  unfold Svc.freeBuffers
  have k := h.withPool (Pool.total_release s.pool c n) (h.safe.release c n)
  split
  · exact h
  · dsimp only
    split
    · exact k.reportFreeing
    · exact k

theorem refuseBuffers {s : Svc} (h : SvcOk s) (c : PoolClass) (r : PoolReason) : SvcOk (s.refuseBuffers c r) := by
  unfold Svc.refuseBuffers
  refine h.withPool ?_ ?_
  · split <;> simp
  · have k := h.safe.refuse c r
    split
    · exact k
    · exact k

/-- R152: an eviction. -/
theorem evictOldest {s t : Svc} (h : SvcOk s) {b : Bool} {k : Nat} (e : s.evictOldest b = some (t, k)) : SvcOk t := by
  unfold Svc.evictOldest at e
  split at e
  · cases e
  · simp only [Option.some.injEq, Prod.mk.injEq] at e
    obtain ⟨rfl, _⟩ := e
    exact (h.of_eq (by rfl) (by rfl)).freeBuffers ..

theorem requestLoop (c : PoolClass) (n fuel : Nat) {s : Svc} (h : SvcOk s) : SvcOk (Svc.requestLoop c n fuel s).1 := by
  induction fuel generalizing s with
  | zero =>
    unfold Svc.requestLoop
    split
    · rename_i d
      exact h.withPool (Pool.total_grant (Pool.free_of_decide d)) (h.safe.grant d)
    · exact h.refuseBuffers ..
  | succ fuel ih =>
    unfold Svc.requestLoop
    split
    · rename_i d
      exact h.withPool (Pool.total_grant (Pool.free_of_decide d)) (h.safe.grant d)
    · split
      · exact h.refuseBuffers ..
      · split
        · exact h.refuseBuffers ..
        · rename_i e
          have k := h.evictOldest e
          exact ih (k.withPool (Pool.total_countEviction ..) (k.safe.countEviction ..))

/-- R123, R124: a request, granted or refused. -/
theorem requestBuffers {s : Svc} (h : SvcOk s) (c : PoolClass) (n : Nat) : SvcOk (s.requestBuffers c n).1 :=
  h.requestLoop ..

theorem of_request {s t : Svc} (h : SvcOk s) {c : PoolClass} {n : Nat} {r : Option PoolReason}
    (e : s.requestBuffers c n = (t, r)) : SvcOk t := by
  have k := h.requestBuffers c n
  rwa [e] at k

/-! ## Offers (R31, R32) -/

theorem offerEmergency {s : Svc} (h : SvcOk s) (m : Message) : SvcOk (s.offerEmergency m).1 := by
  unfold Svc.offerEmergency
  split
  · split
    · rename_i e
      exact (h.of_request e).of_eq rfl rfl
    · rename_i e
      exact h.of_request e
  · exact h

theorem offerNormal {s : Svc} (h : SvcOk s) (m : Message) : SvcOk (s.offerNormal m).1 := by
  unfold Svc.offerNormal
  split
  · split
    · rename_i e
      exact (h.of_request e).of_eq rfl rfl
    · rename_i e
      exact h.of_request e
  · exact h

theorem offerPlaceholder {s : Svc} (h : SvcOk s) (k : CollKind) (b : Nat) : SvcOk (s.offerPlaceholder k b).1 := by
  unfold Svc.offerPlaceholder
  split
  · exact h.of_eq rfl rfl
  · exact h

theorem leave {s : Svc} (h : SvcOk s) (b : BegunSrc) : SvcOk (s.leave b) := by
  unfold Svc.leave
  split
  · split
    · exact (h.of_eq (by rfl) (by rfl)).freeBuffers ..
    · exact h
  · split
    · exact (h.of_eq (by rfl) (by rfl)).freeBuffers ..
    · exact h
  · exact h
  · exact h

theorem withdrawEmergency {s : Svc} (h : SvcOk s) (p : Message → Bool) : SvcOk (s.withdrawEmergency p) := by
  unfold Svc.withdrawEmergency
  dsimp only
  split
  · exact h
  · exact (h.of_eq (by rfl) (by rfl)).freeBuffers ..

theorem withdrawNormal {s : Svc} (h : SvcOk s) (p : Message → Bool) : SvcOk (s.withdrawNormal p) := by
  unfold Svc.withdrawNormal
  dsimp only
  split
  · exact h
  · exact (h.of_eq (by rfl) (by rfl)).freeBuffers ..

theorem dropEntry {s : Svc} (h : SvcOk s) (p : NEntry → Bool) : SvcOk (s.dropEntry p) := by
  unfold Svc.dropEntry
  split
  · exact h.of_eq rfl rfl
  · exact h

theorem markLeaving {s : Svc} (h : SvcOk s) (id : Nat) : SvcOk (s.markLeaving id) := h.of_eq rfl rfl

end SvcOk

/-! ## Notices (R176) -/

@[simp] theorem Note.setAttention_queue (n : Note) : n.setAttention.queue = n.queue := by
  unfold Note.setAttention; split <;> rfl

/-- Taking a destination from entries that hold it leaves no more entries, each still with a destination. -/
theorem serveHost_ok (k : Nat) (l : List Notice) (h : ∀ e ∈ l, noticeWaits e = true) :
    (serveHost k l).length ≤ l.length ∧ ∀ e ∈ serveHost k l, noticeWaits e = true := by
  induction l generalizing k with
  | nil => cases k <;> exact ⟨Nat.le_refl _, h⟩
  | cons a l ih =>
    cases k with
    | zero => exact ⟨Nat.le_refl _, h⟩
    | succ k =>
      have hl := fun j => ih j fun e he => h e (List.mem_cons_of_mem _ he)
      have ha := h a List.mem_cons_self
      unfold serveHost
      split
      · split
        · rename_i hc
          refine ⟨Nat.succ_le_succ (hl k).1, fun e he => ?_⟩
          rcases List.mem_cons.1 he with rfl | he
          · simp [noticeWaits, hc]
          · exact (hl k).2 e he
        · exact ⟨Nat.le_succ_of_le (hl k).1, (hl k).2⟩
      · refine ⟨Nat.succ_le_succ (hl (k + 1)).1, fun e he => ?_⟩
        rcases List.mem_cons.1 he with rfl | he
        · exact ha
        · exact (hl (k + 1)).2 e he

theorem serveCentre_ok (k : Nat) (l : List Notice) (h : ∀ e ∈ l, noticeWaits e = true) :
    (serveCentre k l).length ≤ l.length ∧ ∀ e ∈ serveCentre k l, noticeWaits e = true := by
  induction l generalizing k with
  | nil => cases k <;> exact ⟨Nat.le_refl _, h⟩
  | cons a l ih =>
    cases k with
    | zero => exact ⟨Nat.le_refl _, h⟩
    | succ k =>
      have hl := fun j => ih j fun e he => h e (List.mem_cons_of_mem _ he)
      have ha := h a List.mem_cons_self
      unfold serveCentre
      split
      · split
        · rename_i hc
          refine ⟨Nat.succ_le_succ (hl k).1, fun e he => ?_⟩
          rcases List.mem_cons.1 he with rfl | he
          · simp [noticeWaits, hc]
          · exact (hl k).2 e he
        · exact ⟨Nat.le_succ_of_le (hl k).1, (hl k).2⟩
      · refine ⟨Nat.succ_le_succ (hl (k + 1)).1, fun e he => ?_⟩
        rcases List.mem_cons.1 he with rfl | he
        · exact ha
        · exact (hl (k + 1)).2 e he

namespace NotesOk

theorem of_queue {n m : Note} (h : NotesOk n) (e : m.queue = n.queue) : NotesOk m := by
  unfold NotesOk
  rw [e]
  exact h

theorem served {n m : Note} (h : NotesOk n) {k : Nat} (e : m.queue = serveHost k n.queue) : NotesOk m := by
  have := serveHost_ok k n.queue h.2
  exact ⟨by rw [e]; exact Nat.le_trans this.1 h.1, by rw [e]; exact this.2⟩

theorem centred {n m : Note} (h : NotesOk n) {k : Nat} (e : m.queue = serveCentre k n.queue) : NotesOk m := by
  have := serveCentre_ok k n.queue h.2
  exact ⟨by rw [e]; exact Nat.le_trans this.1 h.1, by rw [e]; exact this.2⟩

/-- R176: an entry with a destination takes a place or is lost. -/
theorem append {n : Note} (h : NotesOk n) {e : Notice} (w : noticeWaits e = true) : NotesOk (n.append e) := by
  unfold Note.append
  split
  · rename_i hc
    refine NotesOk.of_queue (n := { n with queue := n.queue ++ [e] }) ⟨?_, fun x hx => ?_⟩ (by simp)
    · have : n.queue.length < 256 := hc
      simp only [List.length_append, List.length_singleton]
      omega
    · rcases List.mem_append.1 hx with hx | hx
      · exact h.2 x hx
      · rw [List.mem_singleton.1 hx]; exact w
  · exact h

/-- R181: an entry received at the head-end. -/
theorem receive {n : Note} (h : NotesOk n) (source : Nat) (e : Notice) : NotesOk (n.receive source e) :=
  h.append (by simp [noticeWaits])

end NotesOk

namespace SvcOk

theorem lookCentre (fuel : Nat) {s : Svc} (h : SvcOk s) : SvcOk (Svc.lookCentre fuel s) := by
  induction fuel generalizing s with
  | zero => exact h
  | succ fuel ih =>
    unfold Svc.lookCentre
    dsimp only
    split
    · exact h
    · have k := h.offerNormal
        { source := s.settings.station, dest := Config.headEndNumber,
          length := messageSlots (.noticeFwd ((s.note.queue.filter (·.toCentre)).take 4)),
          payload := .noticeFwd ((s.note.queue.filter (·.toCentre)).take 4) }
      split
      · rename_i e
        rw [e] at k
        exact ih (k.withNote (k.notes.centred (by rw [Note.setAttention_queue])))
      · rename_i e
        rw [e] at k
        exact k

/-- R176, R180: posting a notice. -/
theorem post {s : Svc} (h : SvcOk s) (c : NoticeCode) (b : Subject) (d : List Value) : SvcOk (s.post c b d) := by
  unfold Svc.post
  dsimp only
  split
  · exact h
  · rename_i hc
    have w := h.withNote (h.notes.append (Bool.of_not_eq_false fun e => hc (.inr e)))
    split
    · exact w.lookCentre 2
    · exact w

/-- R179: a read from channel L. -/
theorem readFromL {s : Svc} (h : SvcOk s) (k : Nat) : SvcOk (s.readFromL k) := by
  unfold Svc.readFromL
  dsimp only
  refine h.withNote (h.notes.served (k := k) ?_)
  rw [Note.setAttention_queue]
  split <;> rfl

/-! ## Segments (R149, R150, R151, R155) -/

theorem closeSegment {s : Svc} (h : SvcOk s) (g : Segment) (c : CloseCause) : SvcOk (s.closeSegment g c) :=
  SvcOk.post (h.of_eq (by rfl) (by rfl)) ..

theorem closeNumbered {s : Svc} (h : SvcOk s) (k : Nat) (c : CloseCause) : SvcOk (s.closeNumbered k c) := by
  unfold Svc.closeNumbered
  split
  · exact h
  · exact h.closeSegment ..

theorem closeOpen {s : Svc} (h : SvcOk s) (d : Nat) (c : CloseCause) : SvcOk (s.closeOpen d c) := by
  unfold Svc.closeOpen
  split
  · exact h
  · exact h.closeSegment ..

theorem loseSample {s : Svc} (h : SvcOk s) (d : Nat) (r : LossReason) : SvcOk (s.loseSample d r) := by
  have k := h.closeOpen d .early
  unfold Svc.loseSample
  dsimp only
  split
  · exact k.of_eq (by rfl) (by rfl)
  · exact SvcOk.post (k.of_eq (by rfl) (by rfl)) ..

theorem weatherBuffer (fuel : Nat) {s : Svc} (h : SvcOk s) : SvcOk (Svc.weatherBuffer fuel s).1 := by
  induction fuel generalizing s with
  | zero => exact h.requestBuffers ..
  | succ fuel ih =>
    unfold Svc.weatherBuffer
    split
    · rename_i e
      exact h.of_request e
    · rename_i e
      have k := h.of_request e
      split
      · exact k
      · rename_i e'
        exact ih (k.evictOldest e')

theorem fileSample {s : Svc} (h : SvcOk s) (r : Sample) : SvcOk (s.fileSample r) := by
  unfold Svc.fileSample
  extract_lets t
  have k : SvcOk t := by
    unfold t
    split
    · exact h
    · exact h.of_eq rfl rfl
  split
  · exact k
  · dsimp only
    split
    · exact SvcOk.closeSegment (k.of_eq (by rfl) (by rfl)) ..
    · exact k.of_eq (by rfl) (by rfl)

/-- R149: a sample stored or lost. -/
theorem storeSample {s : Svc} (h : SvcOk s) (r : Sample) : SvcOk (s.storeSample r) := by
  unfold Svc.storeSample
  extract_lets t room
  have k : SvcOk t := by
    unfold t
    split
    · split
      · exact h.closeSegment ..
      · exact h
    · exact h
  have k2 : SvcOk room.1 := by
    unfold room
    split
    · split
      · exact k
      · rename_i e
        exact k.evictOldest e
    · exact k
  split
  · have k3 := SvcOk.weatherBuffer room.1.wx.segments.length k2
    split
    · rename_i e
      rw [e] at k3
      exact k3.fileSample r
    · rename_i e
      rw [e] at k3
      exact k3.loseSample ..
  · exact k2.loseSample ..

theorem takeSegmentLength {s : Svc} (h : SvcOk s) (n : Nat) : SvcOk (s.takeSegmentLength n) := by
  unfold Svc.takeSegmentLength
  extract_lets w t full
  have k : SvcOk t := h.of_eq rfl rfl
  clear_value t full
  induction full.map (·.number) generalizing t with
  | nil => exact k
  | cons a l ih => exact ih _ (k.closeNumbered a .length)

theorem ackSegment {s : Svc} (h : SvcOk s) (n : Nat) : SvcOk (s.ackSegment n).1 := by
  unfold Svc.ackSegment
  split
  · exact h.of_eq rfl rfl
  · exact (h.of_eq (by rfl) (by rfl)).freeBuffers ..

theorem ackSegments {s : Svc} (h : SvcOk s) (l : List Nat) : SvcOk (s.ackSegments l).1 := by
  unfold Svc.ackSegments
  generalize ([] : List Nat) = found
  induction l generalizing s found with
  | nil => exact h
  | cons a l ih => exact ih (h.ackSegment a) _

/-- R127: bounds that passed their checks. -/
theorem takeBounds {s : Svc} (h : SvcOk s) {l : List ClassBounds} (ok : checkBounds s.pool l = .done) :
    SvcOk (s.takeBounds l) := by
  have key : (l.foldl Pool.withBounds s.pool).total = s.pool.total ∧ PoolSafe (l.foldl Pool.withBounds s.pool) := by
    refine ⟨?_, PoolSafe.withBounds ok⟩
    generalize s.pool = p
    clear ok
    induction l generalizing p with
    | nil => rfl
    | cons a l ih => rw [List.foldl_cons, ih, Pool.total_withBounds]
  have k := h.withPool key.1 key.2
  unfold Svc.takeBounds
  dsimp only
  split
  · exact k.reportFreeing
  · exact k

end SvcOk

end Sys2Proof.Machine
end

