-- ==== Sys2Proof/Laws/Setting.lean ====
section
/-! SUPPORT. What a record of the settings store does (R192, R194): by its item, by its operation, and the stored value of a next-start item. -/

namespace Sys2Proof.Machine

/-- 11 section 11.1: a number is in range if it lies within its item's bounds. -/
theorem Candidate.number_inRange {item v : Nat} : (Candidate.number v).inRange item = true ↔
    ∃ low high, numberRange item = some (low, high) ∧ low ≤ v ∧ v ≤ high := by
  simp only [Candidate.inRange]
  split
  · rename_i low high h; simp [h]
  · rename_i h; simp [h]

/-- R192: the value a next-start item is given is the number that SET reads, within the item's range. -/
theorem nextStartValue_eq_some {item v : Nat} {value : List Byte} :
    nextStartValue item value = some v ↔ Config.parseSetting item .set value = .number v ∧
      ∃ low high, numberRange item = some (low, high) ∧ low ≤ v ∧ v ≤ high := by
  rw [← Candidate.number_inRange]
  unfold nextStartValue
  split
  · rename_i w hw
    simp only [hw, SettingValue.number.injEq]
    constructor
    · intro h
      split at h
      · rename_i hr; simp only [Option.some.injEq] at h; subst h; exact ⟨rfl, hr⟩
      · simp at h
    · rintro ⟨rfl, hr⟩; rw [if_pos hr]
  · rename_i hno
    simp only [reduceCtorEq, false_iff]
    exact fun h => hno v h.1

/-- R194 step 3: the value a record gives a next-start item. -/
theorem recordValue_eq_some {r value : List Byte} {item opByte k v : Nat}
    (h : recordFields r = some (item, opByte, value)) :
    recordValue k r = some v ↔ item = k ∧ nextStartValue item value = some v := by
  unfold recordValue; simp only [h]
  by_cases hk : item = k <;> simp [hk]

/-- R192: a record of a next-start item leaves the working settings, and is taken if its value is in range. -/
theorem Node.takeStored_nextStart {n : Node} {r value : List Byte} {item opByte : Nat}
    (h : recordFields r = some (item, opByte, value)) (hi : nextStart item = true) :
    n.takeStored r = (n, if (nextStartValue item value).isSome then .done else .badArgument) := by
  simp only [Node.takeStored, h, hi, if_true]

/-- R192: a record of any other item with a known operation. -/
theorem Node.takeStored_known {n : Node} {r value : List Byte} {item opByte : Nat} {op : SettingOp}
    (h : recordFields r = some (item, opByte, value)) (hi : nextStart item = false) (ho : recordOp opByte = some op) :
    n.takeStored r = n.applyRecord item op (Config.parseSetting item op value) := by
  simp only [Node.takeStored, h, hi, ho, Bool.false_eq_true, if_false]

/-- R192: a record of any other item with an unknown operation is refused. -/
theorem Node.takeStored_unknown {n : Node} {r value : List Byte} {item opByte : Nat}
    (h : recordFields r = some (item, opByte, value)) (hi : nextStart item = false) (ho : recordOp opByte = none) :
    n.takeStored r = (n, .badArgument) := by
  simp only [Node.takeStored, h, hi, ho, Bool.false_eq_true, if_false]

/-- R192 step 3: a record of this role acts as SETTING-WRITE would. -/
theorem Node.applyRecord_settingWrite {n : Node} {item : Nat} (op : SettingOp) (v : SettingValue)
    (hi : nextStart item = false) (hr : otherRole n.set.role item = false) :
    n.applyRecord item op v = ((n.settingWrite item op v).1, (n.settingWrite item op v).2.1) := by
  unfold Node.applyRecord Node.settingWrite
  by_cases h1 : isItem item = false
  · simp [h1]
  · by_cases h2 : (numberRange item).isSome ∧ op ≠ .set
    · have hc : candidate n.set n.svc.pool.bounds item op v = none := by
        unfold candidate
        rw [if_pos h2.1]
        cases op <;> first | exact absurd rfl h2.2 | rfl
      simp [h1, h2, hr, Node.writeItem, hc]
    · simp [h1, h2, hr, hi]

/-- R192 step 3: a record of the other role changes no working value. -/
theorem Node.applyRecord_otherRole {n : Node} {item : Nat} (op : SettingOp) (v : SettingValue)
    (hr : otherRole n.set.role item = true) : (n.applyRecord item op v).1 = n := by
  unfold Node.applyRecord
  split
  · rfl
  · split <;> rfl

/-- R194 step 4: a record's operation is known if its byte is 1 to 3. -/
theorem knownOperation_eq (r : List Byte) :
    knownOperation r = (recordFields r).any fun x => decide (1 ≤ x.2.1 ∧ x.2.1 ≤ 3) := by
  unfold knownOperation
  cases h : recordFields r with
  | none => rfl
  | some x =>
    obtain ⟨_, op, _⟩ := x
    simp only [Option.any_some]
    match op with
    | 0 => rfl
    | 1 => rfl
    | 2 => rfl
    | 3 => rfl
    | n + 4 => simp [recordOp]

/-- R194 step 4: a sound record is counted as applied if its operation is known and the working settings take it, and
as skipped otherwise, which changes nothing else. -/
theorem Node.startRecord_sound {m : Memory} {x : Nat × Nat} {r : List Byte} (n : Node) (h : soundRecord m x = some r) :
    Node.startRecord m n x =
      if knownOperation r = true ∧ (n.takeStored r).2 = .done then
        { (n.takeStored r).1 with applied := (n.takeStored r).1.applied + 1 }
      else { n with skipped := n.skipped + 1 } := by
  unfold Node.startRecord; simp only [h]
  obtain ⟨t, st⟩ := n.takeStored r
  cases hk : knownOperation r <;> cases st <;> simp

/-- R194 step 3: the stored value of a next-start item is that of the last sound record of the item in range. -/
theorem storedValue_eq (m : Memory) (item : Nat) :
    storedValue m item = (((storeRecords m).1.filterMap fun x => (soundRecord m x).bind (recordValue item)).getLast?).getD
      (Settings.default.number item) := by
  unfold storedValue
  suffices h : ∀ (l : List (Nat × Nat)) (a : Option Nat), l.foldl (fun (last : Option Nat) x =>
      match (soundRecord m x).bind (recordValue item) with
      | some v => some v
      | none => last) a = ((l.filterMap fun x => (soundRecord m x).bind (recordValue item)).getLast?).or a by
    exact congrArg (fun o : Option Nat => o.getD (Settings.default.number item)) ((h _ none).trans Option.or_none)
  intro l
  induction l with
  | nil => intro a; simp
  | cons x l ih =>
    intro a
    rw [List.foldl_cons, ih]
    cases hx : (soundRecord m x).bind (recordValue item) with
    | none => simp [hx]
    | some v =>
      simp only [hx, List.filterMap_cons, List.getLast?_cons]
      cases (l.filterMap fun x => (soundRecord m x).bind (recordValue item)).getLast? <;> rfl

end Sys2Proof.Machine
end

