-- ==== Sys2Proof/Laws/Items.lean ====
section
/-! SUPPORT. R190: what the operations on list-valued items make of the working value, one lemma for each kind of item. -/

namespace Sys2Proof.Machine

/-! ## Lists by their keys -/

/-- Two lists with the same records at every place are one. -/
theorem ext_nth {α : Type} {l m : List α} (h : ∀ k, nth l k = nth m k) : l = m :=
  List.ext_getElem? fun k => h (k + 1)

/-- A table numbered from `k`. -/
theorem nth_numbered {α : Type} : ∀ (l : List α) (k n : Nat), nth (numbered k l) (n + 1) =
    (nth l (n + 1)).map fun a => (k + n, a)
  | [], _, _ => by simp [numbered]
  | a :: l, k, 0 => rfl
  | a :: l, k, n + 1 => by
    have := nth_numbered l (k + 1) n
    simp only [numbered, nth_cons, this]
    congr 1; funext b; rw [Nat.add_assoc, Nat.add_comm 1 n]

theorem nth_map {α β : Type} (f : α → β) (l : List α) (k : Nat) : nth (l.map f) k = (nth l k).map f := by
  cases k with
  | zero => rfl
  | succ k => simp [nth]

/-- What stands at a place of a numbered table that is mapped. -/
theorem nth_numbered_map {α β : Type} (f : Nat × α → β) (l : List α) (k : Nat) :
    nth ((numbered 1 l).map f) k = (nth l k).map fun a => f (k, a) := by
  rw [nth_map]
  cases k with
  | zero => simp
  | succ k => rw [nth_numbered, Option.map_map]; congr 1; funext a; simp [Nat.add_comm]

@[simp] theorem lastFor_nil {α κ : Type} [DecidableEq κ] (key : α → κ) (k : κ) (there : α) :
    lastFor key [] k there = there := rfl

/-- One more record given. -/
theorem lastFor_concat {α κ : Type} [DecidableEq κ] (key : α → κ) (l : List α) (x : α) (k : κ) (there : α) :
    lastFor key (l ++ [x]) k there = if key x = k then x else lastFor key l k there := by
  unfold lastFor
  by_cases h : key x = k <;> simp [h, List.filter_append]

/-- R190: `distinct` says that no record stands twice. -/
theorem distinct_eq_true {α : Type} [DecidableEq α] : ∀ l : List α, distinct l = true ↔ l.Nodup
  | [] => by simp [distinct]
  | a :: l => by
    simp [distinct, distinct_eq_true l]

/-! ## Items whose records stand in fixed places -/

theorem nth_placesWith {α : Type} (base : List α) (l : List (Nat × α)) (k : Nat) :
    nth (placesWith base l) k = (nth base k).map fun a => (lastFor Prod.fst l k (k, a)).2 :=
  nth_numbered_map _ _ _

theorem nth_placesWithout {α : Type} (dflt work : List α) (ks : List Nat) (k : Nat) :
    nth (placesWithout dflt work ks) k = (nth work k).map fun a => if k ∈ ks then (nth dflt k).getD a else a :=
  nth_numbered_map _ _ _

/-- R190: records put in one after another. -/
theorem foldl_put {α : Type} (base : List α) (l : List (Nat × α)) :
    l.foldl (fun w x => put w x.1 x.2) base = placesWith base l := by
  induction l using List.reverseRecOn with
  | nil =>
    apply ext_nth; intro k
    rw [nth_placesWith]; simp
  | append_singleton l x ih =>
    apply ext_nth; intro k
    rw [List.foldl_append, ih, nth_placesWith]
    simp only [List.foldl_cons, List.foldl_nil, lastFor_concat]
    by_cases h : k = x.1
    · subst h
      rw [nth_put_same, nth_placesWith]
      cases nth base x.1 <;> simp
    · rw [nth_put_other _ _ h, nth_placesWith]
      have : x.1 ≠ k := fun e => h e.symm
      simp [this]

/-- R190: places put back at their defaults one after another. -/
theorem foldl_unput {α : Type} (dflt work : List α) (ks : List Nat) :
    ks.foldl (fun w k =>
      match nth dflt k with
      | some d => put w k d
      | none => w) work = placesWithout dflt work ks := by
  induction ks using List.reverseRecOn with
  | nil => apply ext_nth; intro k; rw [nth_placesWithout]; simp
  | append_singleton ks x ih =>
    apply ext_nth; intro k
    rw [List.foldl_append, ih, nth_placesWithout]
    simp only [List.foldl_cons, List.foldl_nil, List.mem_append, List.mem_singleton]
    by_cases h : k = x
    · subst h
      cases hd : nth dflt k with
      | none => simp only [nth_placesWithout, hd]; cases nth work k <;> simp
      | some d => simp only [nth_put_same, nth_placesWithout, hd]; cases nth work k <;> simp
    · cases hd : nth dflt x with
      | none => simp only [nth_placesWithout, h, or_false]
      | some d => simp only [nth_put_other _ _ h, nth_placesWithout, h, or_false]

/-- The keys of a REMOVE that are all place numbers. -/
theorem placeKeys_num (ks : List Nat) : placeKeys (.keys (ks.map .num)) = some ks := by
  unfold placeKeys
  induction ks with
  | nil => rfl
  | cons k ks ih =>
    simp only [List.map_cons, List.mapM_cons] at *
    rw [ih]; rfl

/-- A key of another form makes the value none of the item's. -/
theorem placeKeys_other {ks : List SettingKey} (h : ∃ k ∈ ks, ∀ m, k ≠ .num m) : placeKeys (.keys ks) = none := by
  unfold placeKeys
  induction ks with
  | nil => obtain ⟨k, hk, -⟩ := h; simp at hk
  | cons a ks ih =>
    simp only [List.mapM_cons] at *
    cases a with
    | num n =>
      obtain ⟨k, hk, hn⟩ := h
      rcases List.mem_cons.1 hk with rfl | hk
      · exact absurd rfl (hn n)
      · rw [ih ⟨k, hk, hn⟩]; rfl
    | _ => rfl

/-- R190: the operations on fixed places, said of `placed`. -/
theorem placed_eq {α : Type} (dflt work : List α) (l : List (Nat × α)) :
    (let inside := ∀ x ∈ l, 1 ≤ x.1 ∧ x.1 ≤ dflt.length
    let twice := ¬(l.map Prod.fst).Nodup
    (¬inside ∨ twice → placed dflt work .set (some l) none = none) ∧
    (inside → ¬twice → placed dflt work .set (some l) none = some (placesWith dflt l)) ∧
    (¬inside → placed dflt work .add (some l) none = none) ∧
    (inside → placed dflt work .add (some l) none = some (placesWith work l))) := by
  intro inside twice
  have hin : (l.all fun x => decide (1 ≤ x.1 ∧ x.1 ≤ dflt.length)) = true ↔ inside := by
    simp only [inside, List.all_eq_true, decide_eq_true_eq]
  have hd := distinct_eq_true (l.map Prod.fst)
  refine ⟨?_, ?_, ?_, ?_⟩
  · intro h
    simp only [placed]
    rw [if_neg]
    simp only [Bool.and_eq_true, not_and_or, hin, hd]
    simpa [twice] using h
  · intro h t
    simp only [placed]
    rw [if_pos (by simp only [Bool.and_eq_true, hin, hd]; exact ⟨h, by simpa [twice] using t⟩), foldl_put]
  · intro h
    simp only [placed]
    rw [if_neg (by rw [hin]; exact h)]
  · intro h
    simp only [placed]
    rw [if_pos (by rw [hin]; exact h), foldl_put]

theorem placed_remove {α : Type} (dflt work : List α) (ks : List Nat) :
    placed dflt work .remove none (some ks) = some (placesWithout dflt work ks) := by
  exact congrArg some (foldl_unput dflt work ks)

/-- R190: an item is one of fixed places if its candidates are what `placed` makes of the value. -/
theorem FixedPlaces.of_placed {α : Type} {w : Settings} {bounds : List ClassBounds} {item : Nat}
    {form : List (Nat × α) → SettingValue} {whole : List α → Candidate} {dflt work : List α}
    (h1 : ∀ op l, op ≠ .remove → candidate w bounds item op (form l) = (placed dflt work op (some l) none).map whole)
    (h2 : ∀ ks, candidate w bounds item .remove (.keys ks) =
      (placed dflt work .remove none (placeKeys (.keys ks))).map whole) :
    FixedPlaces w bounds item form whole dflt work := by
  refine ⟨?_, ?_, ?_⟩
  · intro l inside twice
    obtain ⟨p1, p2, p3, p4⟩ := placed_eq dflt work l
    refine ⟨?_, ?_, ?_, ?_⟩
    · intro h; rw [h1 _ _ (by decide), p1 h]; rfl
    · intro h t; rw [h1 _ _ (by decide), p2 h t]; rfl
    · intro h; rw [h1 _ _ (by decide), p3 h]; rfl
    · intro h; rw [h1 _ _ (by decide), p4 h]; rfl
  · intro ks; rw [h2, placeKeys_num, placed_remove]; rfl
  · intro ks h; rw [h2, placeKeys_other h]; rfl

/-! ## Each item -/

/-- R190: an item that is no number makes its candidate as a set or list item. -/
theorem candidate_list {w : Settings} {bounds : List ClassBounds} {item : Nat} (op : SettingOp) (v : SettingValue)
    (h : numberRange item = none) : candidate w bounds item op v = listCandidate w bounds item op v := by
  unfold candidate; rw [h]; rfl

theorem fixedPlaces_portZones (w : Settings) (b : List ClassBounds) :
    FixedPlaces w b 21 .portZones .zones Settings.default.portZones w.portZones :=
  .of_placed (fun op l _ => by cases op <;> rfl) fun _ => rfl

theorem fixedPlaces_remap (w : Settings) (b : List ClassBounds) :
    FixedPlaces w b 40 .remap .remap Settings.default.remap w.remap :=
  .of_placed (fun op l _ => by cases op <;> rfl) fun _ => rfl

/-- Kinds that are known are records like any other. -/
theorem mapM_known (l : List (Nat × DeviceKind)) :
    ((l.map fun x => (x.1, some x.2)).mapM fun (x : Nat × Option DeviceKind) => x.2.map fun k => (x.1, k)) =
      some l := by
  induction l with
  | nil => rfl
  | cons x l ih => simp only [List.map_cons, List.mapM_cons, ih]; rfl

theorem fixedPlaces_kinds (w : Settings) (b : List ClassBounds) :
    FixedPlaces w b 41 (fun l => .kinds (l.map fun x => (x.1, some x.2))) .kinds Settings.default.kinds w.kinds := by
  refine .of_placed (fun op l h => ?_) fun _ => rfl
  rw [candidate_list _ _ rfl]
  show Option.bind _ _ = _
  rw [mapM_known]; rfl

/-- R99: a kind outside the four makes the value bad. -/
theorem candidate_kinds_unknown (w : Settings) (b : List ClassBounds) (op : SettingOp)
    (l : List (Nat × Option DeviceKind)) (h : ∃ x ∈ l, x.2 = none) : candidate w b 41 op (.kinds l) = none := by
  have : (l.mapM fun (x : Nat × Option DeviceKind) => x.2.map fun k => (x.1, k)) = none := by
    induction l with
    | nil => obtain ⟨x, hx, -⟩ := h; simp at hx
    | cons a l ih =>
      simp only [List.mapM_cons]
      rcases ha : a.2 with _ | k
      · rfl
      · obtain ⟨x, hx, hn⟩ := h
        rcases List.mem_cons.1 hx with rfl | hx
        · rw [ha] at hn; cases hn
        · rw [ih ⟨x, hx, hn⟩]; rfl
  rw [candidate_list _ _ rfl]
  show Option.bind _ _ = _
  rw [this]; rfl

theorem fixedPlaces_roster (w : Settings) (b : List ClassBounds) :
    FixedPlaces w b 44 .roster .roster Settings.default.roster w.roster :=
  .of_placed (fun op l _ => by cases op <;> rfl) fun _ => rfl

theorem fixedPlaces_outputs (w : Settings) (b : List ClassBounds) :
    FixedPlaces w b 45 .outputs .outputs Settings.default.outputs w.outputs :=
  .of_placed (fun op l _ => by cases op <;> rfl) fun _ => rfl

theorem fixedPlaces_inputs (w : Settings) (b : List ClassBounds) :
    FixedPlaces w b 46 .inputs .inputs Settings.default.inputs w.inputs :=
  .of_placed (fun op l _ => by cases op <;> rfl) fun _ => rfl

theorem fixedPlaces_rules (w : Settings) (b : List ClassBounds) :
    FixedPlaces w b 71 .rules .rules Settings.default.rules w.rules :=
  .of_placed (fun op l _ => by cases op <;> rfl) fun _ => rfl

/-- R190: records put in by their keys, one after another. -/
theorem foldl_replace {α κ : Type} [DecidableEq κ] (key : α → κ) (base l : List α) :
    l.foldl (fun w r => w.map fun x => if key x = key r then r else x) base =
      base.map fun x => lastFor key l (key x) x := by
  induction l using List.reverseRecOn with
  | nil => simp
  | append_singleton l r ih =>
    rw [List.foldl_append, ih]
    simp only [List.foldl_cons, List.foldl_nil, List.map_map, lastFor_concat]
    apply List.map_congr_left
    intro x _
    have hk : key (lastFor key l (key x) x) = key x := by
      unfold lastFor
      cases hl : (l.filter fun y => key y = key x).getLast? with
      | none => rfl
      | some y =>
        have := List.mem_of_getLast? hl
        simpa using (List.mem_filter.1 this).2
    simp only [Function.comp, hk, eq_comm]

/-- R190: the routes put in. -/
theorem foldl_putRoute (base l : List Route) :
    l.foldl putRoute base = base.map fun x => lastFor Route.code l x.code x := foldl_replace Route.code base l

/-- R190: the classes' bounds put in. -/
theorem foldl_putClass (base l : List ClassBounds) :
    l.foldl putClass base = base.map fun x => lastFor ClassBounds.cls l x.cls x := foldl_replace ClassBounds.cls base l

/-- R190: the key of the last record given is the key asked for. -/
theorem key_lastFor {α κ : Type} [DecidableEq κ] (key : α → κ) (l : List α) (k : κ) (a : α) (h : key a = k) :
    key (lastFor key l k a) = k := by
  unfold lastFor
  cases hl : (l.filter fun y => key y = k).getLast? with
  | none => exact h
  | some y =>
    have := List.mem_of_getLast? hl
    simpa using (List.mem_filter.1 this).2

/-- R190: the bindings that ADD leaves: those given last for their keys, and those whose keys are not given. -/
theorem mem_foldl_putBinding (base l : List Binding) (b : Binding) :
    b ∈ l.foldl putBinding base ↔ (l.filter fun x => bindingKey x = bindingKey b).getLast? = some b ∨
      (b ∈ base ∧ ∀ x ∈ l, bindingKey x ≠ bindingKey b) := by
  induction l using List.reverseRecOn generalizing b with
  | nil => simp
  | append_singleton l r ih =>
    rw [List.foldl_append]
    simp only [List.foldl_cons, List.foldl_nil, List.filter_append, putBinding]
    have hmem : b ∈ (if (l.foldl putBinding base).any fun x => bindingKey x = bindingKey r then
        (l.foldl putBinding base).map fun x => if bindingKey x = bindingKey r then r else x
        else l.foldl putBinding base ++ [r]) ↔ b = r ∨ (b ∈ l.foldl putBinding base ∧ bindingKey b ≠ bindingKey r) := by
      split
      · rename_i h
        simp only [List.any_eq_true, decide_eq_true_eq] at h
        obtain ⟨y, hy, hk⟩ := h
        simp only [List.mem_map]
        constructor
        · rintro ⟨x, hx, rfl⟩
          split
          · exact Or.inl rfl
          · rename_i hn; exact Or.inr ⟨hx, hn⟩
        · rintro (rfl | ⟨hb, hn⟩)
          · exact ⟨y, hy, if_pos hk⟩
          · exact ⟨b, hb, if_neg hn⟩
      · rename_i h
        simp only [List.any_eq_true, decide_eq_true_eq, not_exists, not_and] at h
        simp only [List.mem_append, List.mem_singleton]
        constructor
        · rintro (hb | rfl)
          · exact Or.inr ⟨hb, h b hb⟩
          · exact Or.inl rfl
        · rintro (rfl | ⟨hb, -⟩)
          · exact Or.inr rfl
          · exact Or.inl hb
    rw [hmem, ih]
    by_cases hk : bindingKey r = bindingKey b
    · have hf : ([r].filter fun x => bindingKey x = bindingKey b) = [r] := by simp [hk]
      rw [hf]
      simp only [List.getLast?_append, List.getLast?_singleton, Option.some_or, Option.some.injEq]
      constructor
      · rintro (rfl | ⟨-, hn⟩)
        · exact Or.inl rfl
        · exact absurd hk.symm hn
      · rintro (rfl | ⟨-, hn⟩)
        · exact Or.inl rfl
        · exact absurd hk (hn r (by simp))
    · have hf : ([r].filter fun x => bindingKey x = bindingKey b) = [] := by simp [hk]
      rw [hf]
      simp only [List.append_nil, List.mem_append, List.mem_singleton]
      have hbr : b ≠ r := fun e => hk (e ▸ rfl)
      have hk' : bindingKey b ≠ bindingKey r := fun e => hk e.symm
      simp only [hbr, false_or, ne_eq, hk', not_false_eq_true, and_true]
      constructor
      · rintro (h | ⟨h1, h2⟩)
        · exact Or.inl h
        · refine Or.inr ⟨h1, ?_⟩
          rintro x (hx | rfl)
          · exact h2 x hx
          · exact hk
      · rintro (h | ⟨h1, h2⟩)
        · exact Or.inl h
        · exact Or.inr ⟨h1, fun x hx => h2 x (Or.inl hx)⟩

/-- A value that is no list of keys names none. -/
theorem placeKeys_eq_none {v : SettingValue} (h : ∀ ks, v ≠ .keys ks) : placeKeys v = none := by
  cases v <;> first | rfl | exact absurd rfl (h _)

/-- R190: neither records nor, for REMOVE, keys make no candidate. -/
theorem placed_none {α : Type} (dflt work : List α) (op : SettingOp) (keys : Option (List Nat))
    (h : op = .remove → keys = none) : placed dflt work op none keys = none := by
  cases op
  · rfl
  · rfl
  · rw [h rfl]; rfl

theorem placed_remove_records {α : Type} (dflt work : List α) (l : List (Nat × α)) :
    placed dflt work .remove (some l) none = none := rfl

theorem listCandidate_kinds_remove (w : Settings) (b : List ClassBounds) (l : List (Nat × Option DeviceKind)) :
    listCandidate w b 41 .remove (.kinds l) = none := by
  simp only [listCandidate, placed, Option.map_none, Option.bind_eq_none_iff, implies_true]

/-- 11 section 11.1: a value that has not the form of its item makes no candidate. -/
theorem candidate_unfit {w : Settings} {b : List ClassBounds} {item : Nat} {op : SettingOp} {v : SettingValue}
    (h : SettingValue.fits item op v = false) : candidate w b item op v = none := by
  unfold candidate
  split
  · rename_i hn
    split
    · simp [SettingValue.fits, hn] at h
    · rfl
  · have hp : ∀ (α : Type) (dflt work : List α), [21, 33, 34, 40, 41, 44, 45, 46, 50, 71, 90].contains item = true →
        placed dflt work op none (placeKeys v) = none := by
      intro α dflt work hi
      apply placed_none
      rintro rfl
      apply placeKeys_eq_none
      rintro ks rfl
      simp [SettingValue.fits] at h hi
      omega
    unfold listCandidate
    split <;> first
      | rfl
      | (simp only [hp _ _ _ rfl]; rfl)
      | (simp [SettingValue.fits] at h; done)
      | (have h' : op = .remove := by simpa [SettingValue.fits] using h
         subst h'
         first | rfl | exact listCandidate_kinds_remove w b _)

end Sys2Proof.Machine
end

