-- ==== Sys2Proof/WellFormed.lean ====
section
/-! DEFINITION. The ranges within which the operands of a command or event can lie. Arguments of commands may be any numbers: the command's rule refuses those out of range. -/

namespace Sys2Proof

/-- A number from `lo` to `hi`. -/
def within (lo hi n : Nat) : Bool := decide (lo ≤ n ∧ n ≤ hi)

/-- A station number (00_scope.md, Numbering). -/
def stationOk (n : Nat) : Bool := within 1 999 n

/-- A call, forward, batch number or release tag. -/
def byteNumberOk (n : Nat) : Bool := within 1 255 n

/-- A voice port, device, line, console or phone port. -/
def eightOk (n : Nat) : Bool := within 1 8 n

/-- A beacon, restart output or cabinet input. -/
def fourOk (n : Nat) : Bool := within 1 4 n

/-- A field that may be absent. -/
def absentOr (p : Nat → Bool) : Option Nat → Bool
  | none => true
  | some n => p n

/-- 10 section 10.7: the tag of a host frame is a byte; a forward number is 1–255. -/
def Origin.wf : Origin → Bool
  | .link tag => within 0 255 tag
  | .centre fwd => byteNumberOk fwd

/-- 01 section 1.6. -/
def NodeTime.wf (t : NodeTime) : Bool := decide (t.seconds < Config.secondsWrap ∧ t.cycle < Config.cyclesPerSecond)

/-- R1: the five fields of a marker; a voice cap of 0 stands for the inner schedule. -/
def Marker.wf (m : Marker) : Bool :=
  decide (m.number < Config.cycleNumberWrap) && NodeTime.wf m.time && (m.voiceCap = 0 || within 4 24 m.voiceCap)
    && within 0 255 m.foldCount && absentOr byteNumberOk m.releaseTag

/-- R29: the header fields of an occupied slot. -/
def Slot.wf (s : Slot) : Bool :=
  stationOk s.source && within 0 999 s.dest && eightOk s.length && within 1 s.length s.seq

/-- 02 section 2.3: the management slot. -/
def Mgmt.wf (m : Mgmt) : Bool :=
  (match m.token with
    | .directed st => stationOk st
    | .empty => true
    | .free => true)
    && absentOr stationOk m.clearWay && within 0 255 m.lap

/-- 01 section 1.1: slots 2–63 are the voice slots and the data window. -/
def Content.wf (cap : Nat) (k : Content) : Bool :=
  Mgmt.wf k.mgmt && decide (k.voice.length = cap ∧ k.voice.length + k.data.length = 62)
    && k.voice.all (fun v => within 0 255 v.label)
    && k.data.all fun x =>
      match x with
      | none => true
      | some s => Slot.wf s

/-- A cycle. -/
def Cycle.wf (c : Cycle) : Bool :=
  Marker.wf c.marker &&
    match c.content with
    | none => true
    | some k => Content.wf c.marker.voiceCap k

/-- R141: a toll record has its tag's 8 and its plate's 10 bytes. -/
def TollRecord.wf (r : TollRecord) : Bool :=
  decide (r.gantry ≤ 65535 ∧ r.seq < 4294967296 ∧ r.tag.length = 8 ∧ r.plate.length = 10)

/-- R168: what a BATCH-ITEM carries. -/
def Item.wf : Item → Bool
  | .toll r t => TollRecord.wf r && NodeTime.wf t
  | .segment g => within 1 65535 g.number && within 1 64 g.samples.length
  | .void _ => true

/-- R101: a reply carries an exchange number of one byte; an offer's records are laid out. -/
def LineReply.wf : LineReply → Bool
  | .corrupt => true
  | .whole k (.records l) => within 0 255 k && l.all TollRecord.wf
  | .whole k _ => within 0 255 k

/-- 10 sections 10.1 and 10.4: a NOTICE-FWD has 1–4 entries of at most 4 details. -/
def noticesOk (l : List Notice) : Bool :=
  within 1 4 l.length && l.all fun e => within 0 4 e.details.length

/-- The ranges of a row's operands; an argument of a command is not restricted. -/
def Instr.wf : Instr → Bool
  | .cycleArrivesWayside _ c _ _ => Cycle.wf c
  | .cycleReturns _ c _ _ => Cycle.wf c
  | .probeReceived _ b => stationOk b.station
  | .forward tag st _ => within 0 255 tag && stationOk st
  | .commandFwd src fwd _ => stationOk src && byteNumberOk fwd
  | .replyFwd src fwd _ _ => stationOk src && byteNumberOk fwd
  | .forwardTimeout fwd => byteNumberOk fwd
  | .hookContactChange p _ => eightOk p
  | .hookDebounceExpiry p => eightOk p
  | .repeatTimerExpiry p => eightOk p
  | .callQueued p c place => eightOk p && byteNumberOk c && within 1 16 place
  | .callAssign p c k => eightOk p && byteNumberOk c && within 1 24 k
  | .callBusy p => eightOk p
  | .callRingAtWayside p c k => eightOk p && byteNumberOk c && within 1 24 k
  | .callAnsweredAtWayside p c => eightOk p && byteNumberOk c
  | .callClearAtWayside p c => eightOk p && byteNumberOk c
  | .callClearedAtWayside p c => eightOk p && byteNumberOk c
  | .labelRunLimit p => eightOk p
  | .callRequest st p t => stationOk st && eightOk p && NodeTime.wf t
  | .ringTimerExpiry c => byteNumberOk c
  | .callAnsweredAtHeadEnd st p c => stationOk st && eightOk p && byteNumberOk c
  | .callClearAtHeadEnd st p c => stationOk st && eightOk p && absentOr byteNumberOk c
  | .callClearedAtHeadEnd st p c => stationOk st && eightOk p && byteNumberOk c
  | .drainTimerExpiry c => byteNumberOk c
  | .beaconPhaseExpiry b => fourOk b
  | .exchangeReply l r => eightOk l && LineReply.wf r
  | .replyTimeout l => eightOk l
  | .joinDue d => eightOk d
  | .rosterDue e => within 1 16 e
  | .holdTimerExpiry x => fourOk x
  | .pulseTimerExpiry x => fourOk x
  | .restartEnd d => eightOk d
  | .inputContactChange i _ => fourOk i
  | .inputDebounceExpiry i => fourOk i
  | .collectAsk b _ max => byteNumberOk b && within 1 64 max
  | .batchHead st b _ n => stationOk st && byteNumberOk b && within 0 64 n
  | .batchItem st b _ n i x => stationOk st && byteNumberOk b && within 1 64 n && within 1 n i && Item.wf x
  | .batchEnd st b _ n => stationOk st && byteNumberOk b && within 0 64 n
  | .batchTimerExpiry b => byteNumberOk b
  | .collectAck b _ => byteNumberOk b
  | .noticeFwd st l => stationOk st && noticesOk l
  | .hostFrameReceived l => within 0 249 l.length
  | .portEnable o _ => Origin.wf o
  | .portDisable o _ => Origin.wf o
  | .portReset o _ => Origin.wf o
  | .portLoopback o _ => Origin.wf o
  | .portStatus o _ => Origin.wf o
  | .timeSet o _ => Origin.wf o
  | .timeRead o => Origin.wf o
  | .surveyStart o => Origin.wf o
  | .stationMapRead o _ => Origin.wf o
  | .ringStatus o => Origin.wf o
  | .windowStatus o => Origin.wf o
  | .phoneStatus o => Origin.wf o
  | .callAnswer o _ _ => Origin.wf o
  | .callEnd o _ => Origin.wf o
  | .callRing o _ _ _ => Origin.wf o
  | .voiceCapSet o _ => Origin.wf o
  | .callList o _ => Origin.wf o
  | .zoneStart o _ => Origin.wf o
  | .zoneClear o _ _ => Origin.wf o
  | .signShow o _ _ => Origin.wf o
  | .signStage o _ _ _ => Origin.wf o
  | .signUnstage o _ => Origin.wf o
  | .signStatus o _ => Origin.wf o
  | .release o _ => Origin.wf o
  | .beaconSetSingle o _ _ _ => Origin.wf o
  | .beaconSetCancel o _ => Origin.wf o
  | .zoneStatus o => Origin.wf o
  | .rosterSet o _ _ => Origin.wf o
  | .rosterRead o => Origin.wf o
  | .lineReset o _ => Origin.wf o
  | .restartPulse o _ => Origin.wf o
  | .inputStatus o => Origin.wf o
  | .deviceList o => Origin.wf o
  | .deviceStatus o _ => Origin.wf o
  | .deviceStatusPoll o _ _ => Origin.wf o
  | .poolStatus o => Origin.wf o
  | .tollStatus o _ => Origin.wf o
  | .ruleSet o _ _ => Origin.wf o
  | .ruleStatus o => Origin.wf o
  | .wxStatus o _ => Origin.wf o
  | .collect o _ _ _ => Origin.wf o
  | .collectConfirm o _ => Origin.wf o
  | .collectDrop o _ => Origin.wf o
  | .collectStatus o => Origin.wf o
  | .noticeRead o _ => Origin.wf o
  | .noticeClear o => Origin.wf o
  | .noticeRouteSet o _ _ _ => Origin.wf o
  | .maintHold o => Origin.wf o
  | .maintEnd o => Origin.wf o
  | .holdReleaseAsk o => Origin.wf o
  | .identify o => Origin.wf o
  | .settingWriteSet o _ _ => Origin.wf o
  | .settingWriteAdd o _ _ => Origin.wf o
  | .settingWriteRemove o _ _ => Origin.wf o
  | .settingRead o _ _ => Origin.wf o
  | .storeAppend o l => Origin.wf o && within 0 240 l.length
  | .storeRead o _ => Origin.wf o
  | .restart o => Origin.wf o
  | .resetAsserted => true
  | .start => true
  | .originateCycle => true
  | .cycleTimerTick => true
  | .markerMissing _ _ => true
  | .recoverExpired _ => true
  | .lightLost _ => true
  | .lightSeen _ => true
  | .partnerMovedOn _ => true
  | .noGoodMarkerTimeout => true
  | .waitToRestoreExpiry => true
  | .headEndRestoreExpiry => true
  | .returnTimeout => true
  | .surveyTimeout => true
  | .tokenLossExpiry _ => true
  | .loopCeases _ => true
  | .releaseDelayExpiry => true
  | .attentionPauseExpiry => true
  | .frameGapTimeout => true
  | .frameSent => true
  | .holdLapseExpiry => true
  | .storeWriteDone => true
  | .badLength => true
  | .linkReplyGapEnds => true

/-- R186: the way by which a row of the catalogue came, on L or on C. -/
def Instr.origin : Instr → Option Origin
  | .portEnable o _ => some o
  | .portDisable o _ => some o
  | .portReset o _ => some o
  | .portLoopback o _ => some o
  | .portStatus o _ => some o
  | .timeSet o _ => some o
  | .timeRead o => some o
  | .surveyStart o => some o
  | .stationMapRead o _ => some o
  | .ringStatus o => some o
  | .windowStatus o => some o
  | .forward tag _ _ => some (.link tag)
  | .phoneStatus o => some o
  | .callAnswer o _ _ => some o
  | .callEnd o _ => some o
  | .callRing o _ _ _ => some o
  | .voiceCapSet o _ => some o
  | .callList o _ => some o
  | .zoneStart o _ => some o
  | .zoneClear o _ _ => some o
  | .signShow o _ _ => some o
  | .signStage o _ _ _ => some o
  | .signUnstage o _ => some o
  | .signStatus o _ => some o
  | .release o _ => some o
  | .beaconSetSingle o _ _ _ => some o
  | .beaconSetCancel o _ => some o
  | .zoneStatus o => some o
  | .rosterSet o _ _ => some o
  | .rosterRead o => some o
  | .lineReset o _ => some o
  | .restartPulse o _ => some o
  | .inputStatus o => some o
  | .deviceList o => some o
  | .deviceStatus o _ => some o
  | .deviceStatusPoll o _ _ => some o
  | .poolStatus o => some o
  | .tollStatus o _ => some o
  | .ruleSet o _ _ => some o
  | .ruleStatus o => some o
  | .wxStatus o _ => some o
  | .collect o _ _ _ => some o
  | .collectConfirm o _ => some o
  | .collectDrop o _ => some o
  | .collectStatus o => some o
  | .noticeRead o _ => some o
  | .noticeClear o => some o
  | .noticeRouteSet o _ _ _ => some o
  | .maintHold o => some o
  | .maintEnd o => some o
  | .holdReleaseAsk o => some o
  | .identify o => some o
  | .settingWriteSet o _ _ => some o
  | .settingWriteAdd o _ _ => some o
  | .settingWriteRemove o _ _ => some o
  | .settingRead o _ _ => some o
  | .storeAppend o _ => some o
  | .storeRead o _ => some o
  | .restart o => some o
  | _ => none

end Sys2Proof
end

