-- ==== Sys2Proof/Laws/PerInstr.lean ====
section
/-! SUPPORT. One lemma for each row: a well-formed row names a tag or a forward number of its range (10 section 10.7). -/

namespace Sys2Proof.Laws.Origins

/-- The way by which a well-formed row came is one that can be: a tag of one byte, or a forward number 1 to 255. -/
def Statement (i : Instr) : Prop := i.wf = true → ∀ o, i.origin = some o → Origin.wf o = true

/-- Of a row that names no way there is nothing to say. -/
theorem of_none {i : Instr} (h : i.origin = none) : Statement i := by
  intro _ o ho
  rw [h] at ho
  cases ho

/-- A row whose well-formedness asks it of its way. -/
theorem of_wf {i : Instr} {o : Origin} (h : i.origin = some o) (hw : i.wf = true → Origin.wf o = true) :
    Statement i := by
  intro hi p hp
  rw [h] at hp
  cases hp
  exact hw hi

theorem resetAsserted : Statement (.resetAsserted) := of_none rfl
theorem start : Statement (.start) := of_none rfl
theorem originateCycle : Statement (.originateCycle) := of_none rfl
theorem cycleTimerTick : Statement (.cycleTimerTick) := of_none rfl
theorem cycleArrivesWayside (x0 : PortId) (x1 : Cycle) (x2 : Bool) (x3 : Nat) : Statement (.cycleArrivesWayside x0 x1 x2 x3) :=
  of_none rfl
theorem cycleReturns (x0 : PortId) (x1 : Cycle) (x2 : Bool) (x3 : Nat) : Statement (.cycleReturns x0 x1 x2 x3) :=
  of_none rfl
theorem markerMissing (x0 : PortId) (x1 : Nat) : Statement (.markerMissing x0 x1) := of_none rfl
theorem recoverExpired (x0 : PortId) : Statement (.recoverExpired x0) := of_none rfl
theorem lightLost (x0 : PortId) : Statement (.lightLost x0) := of_none rfl
theorem lightSeen (x0 : PortId) : Statement (.lightSeen x0) := of_none rfl
theorem probeReceived (x0 : PortId) (x1 : Probe) : Statement (.probeReceived x0 x1) := of_none rfl
theorem partnerMovedOn (x0 : PortId) : Statement (.partnerMovedOn x0) := of_none rfl
theorem noGoodMarkerTimeout : Statement (.noGoodMarkerTimeout) := of_none rfl
theorem waitToRestoreExpiry : Statement (.waitToRestoreExpiry) := of_none rfl
theorem headEndRestoreExpiry : Statement (.headEndRestoreExpiry) := of_none rfl
theorem returnTimeout : Statement (.returnTimeout) := of_none rfl
theorem surveyTimeout : Statement (.surveyTimeout) := of_none rfl
theorem portEnable (x0 : Origin) (x1 : Nat) : Statement (.portEnable x0 x1) := of_wf rfl id
theorem portDisable (x0 : Origin) (x1 : Nat) : Statement (.portDisable x0 x1) := of_wf rfl id
theorem portReset (x0 : Origin) (x1 : Nat) : Statement (.portReset x0 x1) := of_wf rfl id
theorem portLoopback (x0 : Origin) (x1 : Nat) : Statement (.portLoopback x0 x1) := of_wf rfl id
theorem portStatus (x0 : Origin) (x1 : Nat) : Statement (.portStatus x0 x1) := of_wf rfl id
theorem timeSet (x0 : Origin) (x1 : Nat) : Statement (.timeSet x0 x1) := of_wf rfl id
theorem timeRead (x0 : Origin) : Statement (.timeRead x0) := of_wf rfl id
theorem surveyStart (x0 : Origin) : Statement (.surveyStart x0) := of_wf rfl id
theorem stationMapRead (x0 : Origin) (x1 : Nat) : Statement (.stationMapRead x0 x1) := of_wf rfl id
theorem ringStatus (x0 : Origin) : Statement (.ringStatus x0) := of_wf rfl id
theorem tokenLossExpiry (x0 : Loop) : Statement (.tokenLossExpiry x0) := of_none rfl
theorem loopCeases (x0 : Loop) : Statement (.loopCeases x0) := of_none rfl
theorem windowStatus (x0 : Origin) : Statement (.windowStatus x0) := of_wf rfl id
theorem forward (x0 : Nat) (x1 : Nat) (x2 : Parsed) : Statement (.forward x0 x1 x2) :=
  of_wf (o := .link x0) rfl fun h => (Bool.and_eq_true _ _ ▸ h).1
theorem commandFwd (x0 : Nat) (x1 : Nat) (x2 : Parsed) : Statement (.commandFwd x0 x1 x2) := of_none rfl
theorem replyFwd (x0 : Nat) (x1 : Nat) (x2 : Status) (x3 : Value) : Statement (.replyFwd x0 x1 x2 x3) := of_none rfl
theorem forwardTimeout (x0 : Nat) : Statement (.forwardTimeout x0) := of_none rfl
theorem hookContactChange (x0 : Nat) (x1 : Bool) : Statement (.hookContactChange x0 x1) := of_none rfl
theorem hookDebounceExpiry (x0 : Nat) : Statement (.hookDebounceExpiry x0) := of_none rfl
theorem repeatTimerExpiry (x0 : Nat) : Statement (.repeatTimerExpiry x0) := of_none rfl
theorem callQueued (x0 : Nat) (x1 : Nat) (x2 : Nat) : Statement (.callQueued x0 x1 x2) := of_none rfl
theorem callAssign (x0 : Nat) (x1 : Nat) (x2 : Nat) : Statement (.callAssign x0 x1 x2) := of_none rfl
theorem callBusy (x0 : Nat) : Statement (.callBusy x0) := of_none rfl
theorem callRingAtWayside (x0 : Nat) (x1 : Nat) (x2 : Nat) : Statement (.callRingAtWayside x0 x1 x2) := of_none rfl
theorem callAnsweredAtWayside (x0 : Nat) (x1 : Nat) : Statement (.callAnsweredAtWayside x0 x1) := of_none rfl
theorem callClearAtWayside (x0 : Nat) (x1 : Nat) : Statement (.callClearAtWayside x0 x1) := of_none rfl
theorem callClearedAtWayside (x0 : Nat) (x1 : Nat) : Statement (.callClearedAtWayside x0 x1) := of_none rfl
theorem labelRunLimit (x0 : Nat) : Statement (.labelRunLimit x0) := of_none rfl
theorem phoneStatus (x0 : Origin) : Statement (.phoneStatus x0) := of_wf rfl id
theorem callRequest (x0 : Nat) (x1 : Nat) (x2 : NodeTime) : Statement (.callRequest x0 x1 x2) := of_none rfl
theorem callAnswer (x0 : Origin) (x1 : Nat) (x2 : Nat) : Statement (.callAnswer x0 x1 x2) := of_wf rfl id
theorem callEnd (x0 : Origin) (x1 : Nat) : Statement (.callEnd x0 x1) := of_wf rfl id
theorem callRing (x0 : Origin) (x1 : Nat) (x2 : Nat) (x3 : Nat) : Statement (.callRing x0 x1 x2 x3) := of_wf rfl id
theorem ringTimerExpiry (x0 : Nat) : Statement (.ringTimerExpiry x0) := of_none rfl
theorem callAnsweredAtHeadEnd (x0 : Nat) (x1 : Nat) (x2 : Nat) : Statement (.callAnsweredAtHeadEnd x0 x1 x2) :=
  of_none rfl
theorem callClearAtHeadEnd (x0 : Nat) (x1 : Nat) (x2 : Option Nat) : Statement (.callClearAtHeadEnd x0 x1 x2) :=
  of_none rfl
theorem callClearedAtHeadEnd (x0 : Nat) (x1 : Nat) (x2 : Nat) : Statement (.callClearedAtHeadEnd x0 x1 x2) :=
  of_none rfl
theorem drainTimerExpiry (x0 : Nat) : Statement (.drainTimerExpiry x0) := of_none rfl
theorem voiceCapSet (x0 : Origin) (x1 : Nat) : Statement (.voiceCapSet x0 x1) := of_wf rfl id
theorem callList (x0 : Origin) (x1 : Nat) : Statement (.callList x0 x1) := of_wf rfl id
theorem zoneStart (x0 : Origin) (x1 : Nat) : Statement (.zoneStart x0 x1) := of_wf rfl id
theorem zoneClear (x0 : Origin) (x1 : Nat) (x2 : List (Option Cause)) : Statement (.zoneClear x0 x1 x2) :=
  of_wf rfl id
theorem signShow (x0 : Origin) (x1 : Nat) (x2 : Page) : Statement (.signShow x0 x1 x2) := of_wf rfl id
theorem signStage (x0 : Origin) (x1 : Nat) (x2 : Page) (x3 : Nat) : Statement (.signStage x0 x1 x2 x3) := of_wf rfl id
theorem signUnstage (x0 : Origin) (x1 : Nat) : Statement (.signUnstage x0 x1) := of_wf rfl id
theorem signStatus (x0 : Origin) (x1 : Nat) : Statement (.signStatus x0 x1) := of_wf rfl id
theorem release (x0 : Origin) (x1 : Nat) : Statement (.release x0 x1) := of_wf rfl id
theorem releaseDelayExpiry : Statement (.releaseDelayExpiry) := of_none rfl
theorem beaconPhaseExpiry (x0 : Nat) : Statement (.beaconPhaseExpiry x0) := of_none rfl
theorem beaconSetSingle (x0 : Origin) (x1 : Nat) (x2 : Nat) (x3 : Nat) : Statement (.beaconSetSingle x0 x1 x2 x3) :=
  of_wf rfl id
theorem beaconSetCancel (x0 : Origin) (x1 : Nat) : Statement (.beaconSetCancel x0 x1) := of_wf rfl id
theorem zoneStatus (x0 : Origin) : Statement (.zoneStatus x0) := of_wf rfl id
theorem exchangeReply (x0 : Nat) (x1 : LineReply) : Statement (.exchangeReply x0 x1) := of_none rfl
theorem replyTimeout (x0 : Nat) : Statement (.replyTimeout x0) := of_none rfl
theorem joinDue (x0 : Nat) : Statement (.joinDue x0) := of_none rfl
theorem rosterDue (x0 : Nat) : Statement (.rosterDue x0) := of_none rfl
theorem rosterSet (x0 : Origin) (x1 : Nat) (x2 : RosterArg) : Statement (.rosterSet x0 x1 x2) := of_wf rfl id
theorem rosterRead (x0 : Origin) : Statement (.rosterRead x0) := of_wf rfl id
theorem lineReset (x0 : Origin) (x1 : Nat) : Statement (.lineReset x0 x1) := of_wf rfl id
theorem holdTimerExpiry (x0 : Nat) : Statement (.holdTimerExpiry x0) := of_none rfl
theorem pulseTimerExpiry (x0 : Nat) : Statement (.pulseTimerExpiry x0) := of_none rfl
theorem restartEnd (x0 : Nat) : Statement (.restartEnd x0) := of_none rfl
theorem restartPulse (x0 : Origin) (x1 : Nat) : Statement (.restartPulse x0 x1) := of_wf rfl id
theorem inputContactChange (x0 : Nat) (x1 : Bool) : Statement (.inputContactChange x0 x1) := of_none rfl
theorem inputDebounceExpiry (x0 : Nat) : Statement (.inputDebounceExpiry x0) := of_none rfl
theorem inputStatus (x0 : Origin) : Statement (.inputStatus x0) := of_wf rfl id
theorem deviceList (x0 : Origin) : Statement (.deviceList x0) := of_wf rfl id
theorem deviceStatus (x0 : Origin) (x1 : Nat) : Statement (.deviceStatus x0 x1) := of_wf rfl id
theorem deviceStatusPoll (x0 : Origin) (x1 : Nat) (x2 : Option PollKind) : Statement (.deviceStatusPoll x0 x1 x2) :=
  of_wf rfl id
theorem poolStatus (x0 : Origin) : Statement (.poolStatus x0) := of_wf rfl id
theorem tollStatus (x0 : Origin) (x1 : Nat) : Statement (.tollStatus x0 x1) := of_wf rfl id
theorem ruleSet (x0 : Origin) (x1 : Nat) (x2 : RuleArg) : Statement (.ruleSet x0 x1 x2) := of_wf rfl id
theorem ruleStatus (x0 : Origin) : Statement (.ruleStatus x0) := of_wf rfl id
theorem wxStatus (x0 : Origin) (x1 : Nat) : Statement (.wxStatus x0 x1) := of_wf rfl id
theorem collect (x0 : Origin) (x1 : Nat) (x2 : Option CollKind) (x3 : Nat) : Statement (.collect x0 x1 x2 x3) :=
  of_wf rfl id
theorem collectAsk (x0 : Nat) (x1 : CollKind) (x2 : Nat) : Statement (.collectAsk x0 x1 x2) := of_none rfl
theorem batchHead (x0 : Nat) (x1 : Nat) (x2 : CollKind) (x3 : Nat) : Statement (.batchHead x0 x1 x2 x3) := of_none rfl
theorem batchItem (x0 : Nat) (x1 : Nat) (x2 : CollKind) (x3 : Nat) (x4 : Nat) (x5 : Item) : Statement (.batchItem x0 x1 x2 x3 x4 x5) :=
  of_none rfl
theorem batchEnd (x0 : Nat) (x1 : Nat) (x2 : CollKind) (x3 : Nat) : Statement (.batchEnd x0 x1 x2 x3) := of_none rfl
theorem batchTimerExpiry (x0 : Nat) : Statement (.batchTimerExpiry x0) := of_none rfl
theorem collectConfirm (x0 : Origin) (x1 : Nat) : Statement (.collectConfirm x0 x1) := of_wf rfl id
theorem collectDrop (x0 : Origin) (x1 : Nat) : Statement (.collectDrop x0 x1) := of_wf rfl id
theorem collectAck (x0 : Nat) (x1 : AckList) : Statement (.collectAck x0 x1) := of_none rfl
theorem collectStatus (x0 : Origin) : Statement (.collectStatus x0) := of_wf rfl id
theorem noticeFwd (x0 : Nat) (x1 : List Notice) : Statement (.noticeFwd x0 x1) := of_none rfl
theorem noticeRead (x0 : Origin) (x1 : Nat) : Statement (.noticeRead x0 x1) := of_wf rfl id
theorem noticeClear (x0 : Origin) : Statement (.noticeClear x0) := of_wf rfl id
theorem noticeRouteSet (x0 : Origin) (x1 : Option NoticeCode) (x2 : Bool) (x3 : Bool) : Statement (.noticeRouteSet x0 x1 x2 x3) :=
  of_wf rfl id
theorem attentionPauseExpiry : Statement (.attentionPauseExpiry) := of_none rfl
theorem hostFrameReceived (x0 : List Byte) : Statement (.hostFrameReceived x0) := of_none rfl
theorem frameGapTimeout : Statement (.frameGapTimeout) := of_none rfl
theorem frameSent : Statement (.frameSent) := of_none rfl
theorem maintHold (x0 : Origin) : Statement (.maintHold x0) := of_wf rfl id
theorem maintEnd (x0 : Origin) : Statement (.maintEnd x0) := of_wf rfl id
theorem holdLapseExpiry : Statement (.holdLapseExpiry) := of_none rfl
theorem holdReleaseAsk (x0 : Origin) : Statement (.holdReleaseAsk x0) := of_wf rfl id
theorem identify (x0 : Origin) : Statement (.identify x0) := of_wf rfl id
theorem settingWriteSet (x0 : Origin) (x1 : Nat) (x2 : SettingValue) : Statement (.settingWriteSet x0 x1 x2) :=
  of_wf rfl id
theorem settingWriteAdd (x0 : Origin) (x1 : Nat) (x2 : SettingValue) : Statement (.settingWriteAdd x0 x1 x2) :=
  of_wf rfl id
theorem settingWriteRemove (x0 : Origin) (x1 : Nat) (x2 : SettingValue) : Statement (.settingWriteRemove x0 x1 x2) :=
  of_wf rfl id
theorem settingRead (x0 : Origin) (x1 : Nat) (x2 : Option SettingKey) : Statement (.settingRead x0 x1 x2) :=
  of_wf rfl id
theorem storeAppend (x0 : Origin) (x1 : List Byte) : Statement (.storeAppend x0 x1) :=
  of_wf rfl fun h => (Bool.and_eq_true _ _ ▸ h).1
theorem storeWriteDone : Statement (.storeWriteDone) := of_none rfl
theorem storeRead (x0 : Origin) (x1 : Nat) : Statement (.storeRead x0 x1) := of_wf rfl id
theorem restart (x0 : Origin) : Statement (.restart x0) := of_wf rfl id
theorem badLength : Statement (.badLength) := of_none rfl
theorem linkReplyGapEnds : Statement (.linkReplyGapEnds) := of_none rfl

end Sys2Proof.Laws.Origins
end

