-- ==== Sys2Proof/Laws/Ports.lean ====
section
/-! SUPPORT. What a change of port state does (R4, R5, R11), by whether the port leaves or reaches RUN, and what a port that has counted comes to (R8, R9). -/

namespace Sys2Proof.Machine

@[simp] theorem Node.port_onPort (n : Node) (p : PortId) (f : Port → Port) : (n.onPort p f).port p = f (n.port p) := by
  cases p <;> rfl

theorem Node.port_onPort_other (n : Node) (p : PortId) (f : Port → Port) :
    (n.onPort p f).port (otherPort p) = n.port (otherPort p) := by
  cases p <;> rfl

theorem Node.port_post (n : Node) (p : PortId) (c : NoticeCode) (b : Subject) (d : List Value) :
    (n.post c b d).port p = n.port p := by
  cases p <;> rfl

theorem Node.onPort_onPort (n : Node) (p : PortId) (f g : Port → Port) :
    (n.onPort p f).onPort p g = n.onPort p fun r => g (f r) := by
  cases p <;> rfl

theorem Node.svc_onPort (n : Node) (p : PortId) (f : Port → Port) : (n.onPort p f).svc = n.svc := by
  cases p <;> rfl

theorem Node.isHead_onPort (n : Node) (p : PortId) (f : Port → Port) : (n.onPort p f).isHead = n.isHead := by
  cases p <;> rfl

theorem Node.onPort_post (n : Node) (p : PortId) (f : Port → Port) (c : NoticeCode) (b : Subject) (d : List Value) :
    (n.post c b d).onPort p f = (n.onPort p f).post c b d := by
  cases p <;> rfl

/-- R11: a change that neither leaves nor reaches RUN is posted, and RING is told nothing. -/
theorem Node.changePort_posted (n : Node) (p : PortId) (new : PortState) (c : PortCause)
    (hne : (n.port p).state ≠ new) (hp : ¬(PortState.isProbe (n.port p).state = true ∧ PortState.isProbe new = true))
    (hr : (n.port p).state = .run ↔ new = .run) :
    n.changePort p new c =
      (n.onPort p fun r => r.enter n.svc.now new).post .portState (.linePort p)
        [.portState (n.port p).state, .portState new, .portCause c] := by
  unfold Node.changePort
  have h1 : ¬((n.port p).state = new ∨
      PortState.isProbe (n.port p).state = true ∧ PortState.isProbe new = true) := by
    rintro (h | h)
    · exact hne h
    · exact hp h
  have h2 : decide ((n.port p).state = .run) = decide (new = .run) := decide_eq_decide.2 hr
  simp only [h1, if_false, h2, if_true]

/-- R11: between the sub-states of PROBE nothing is posted. -/
theorem Node.changePort_probe (n : Node) (p : PortId) (new : PortState) (c : PortCause)
    (hp : PortState.isProbe (n.port p).state = true) (hn : PortState.isProbe new = true) :
    n.changePort p new c = n.onPort p fun r => r.enter n.svc.now new := by
  unfold Node.changePort
  have h2 : decide ((n.port p).state = .run) = decide (new = .run) := by
    cases h : (n.port p).state <;> cases new <;> simp_all [PortState.isProbe]
  simp only [hp, hn, and_self, or_true, if_true, h2]

/-- R11: a port that leaves or reaches RUN is posted and told to RING. -/
theorem Node.changePort_told (n : Node) (p : PortId) (new : PortState) (c : PortCause)
    (hr : decide ((n.port p).state = .run) ≠ decide (new = .run)) :
    n.changePort p new c =
      let m := (n.onPort p fun r => r.enter n.svc.now new).post .portState (.linePort p)
        [.portState (n.port p).state, .portState new, .portCause c]
      if m.isHead then m.headPort p (decide (new = .run)) else m.waysidePort p (decide (new = .run)) := by
  unfold Node.changePort
  have h1 : ¬((n.port p).state = new ∨
      PortState.isProbe (n.port p).state = true ∧ PortState.isProbe new = true) := by
    rintro (h | ⟨h, k⟩)
    · rw [h] at hr; exact hr rfl
    · cases h1 : (n.port p).state <;> cases new <;> simp_all [PortState.isProbe]
  simp only [h1, if_false, if_neg hr]

/-- R8, R9: what a port, having counted, comes to. -/
theorem Node.judgePort_onPort (n : Node) (p : PortId) (q : Port) (errors : Nat) :
    let m := n.onPort p fun _ => q
    m.judgePort p errors =
      if (q.state = .align ∨ q.state = .recover) ∧ 8 ≤ q.good then m.changePort p .run .markersGood
      else if q.state = .run ∧ 3 ≤ q.missing then m.changePort p .recover .markersMissing
      else if q.state = .run ∧ 0 < errors ∧ n.set.errorThreshold < q.errNow then m.changePort p .recover .errors
      else m := by
  have hs : (n.onPort p fun _ => q).set = n.set := by cases p <;> rfl
  simp only [Node.judgePort, Node.port_onPort, hs, Config.alignRun, Config.missLimit]
  cases q.state <;> simp

end Sys2Proof.Machine
end

