-- ==== Sys2Proof/Laws/Survey.lean ====
section
/-! SUPPORT. What a survey's end (R24) does to one entry of the station map, said once for each operation over the map. -/

namespace Sys2Proof.Machine

/-- Two nodes that are one station at one time. -/
structure Node.SameStation (n m : Node) : Prop where
  me : m.me = n.me
  time : m.svc.time = n.svc.time

theorem Node.SameStation.trans {a b c : Node} (h : Node.SameStation a b) (g : Node.SameStation b c) :
    Node.SameStation a c := ⟨g.me.trans h.me, g.time.trans h.time⟩

theorem Node.sameStation_post (n : Node) (c : NoticeCode) (b : Subject) (d : List Value) :
    Node.SameStation n (n.post c b d) :=
  ⟨congrArg Settings.station (Svc.keeps_post n.svc c b d).settings, (Svc.keeps_post n.svc c b d).time⟩

theorem Node.sameStation_onHead (n : Node) (f : Head → Head) : Node.SameStation n (n.onHead f) := ⟨rfl, rfl⟩

/-- An entry put in its place is found under its number, and every other number as before. -/
theorem find_insertEntry (e : MapEntry) (k : Nat) (l : List MapEntry)
    (h : l.find? (·.station = e.station) = none) :
    (insertEntry e l).find? (·.station = k) = if e.station = k then some e else l.find? (·.station = k) := by
  induction l with
  | nil => by_cases q : e.station = k <;> simp [insertEntry, q]
  | cons x l ih =>
    have hx : ¬x.station = e.station := by intro q; simp [q] at h
    have ih := ih (by simpa [hx] using h)
    simp only [insertEntry]
    split
    · by_cases q : e.station = k <;> simp [q]
    · by_cases q : x.station = k
      · have : ¬e.station = k := fun r => hx (q.trans r.symm)
        simp [q, this]
      · simp [q, ih]

theorem length_insertEntry (e : MapEntry) (l : List MapEntry) : (insertEntry e l).length = l.length + 1 := by
  induction l with
  | nil => rfl
  | cons x l ih => simp only [insertEntry]; split <;> simp [ih]

/-- A change of the entries with one number changes what is found under that number alone. -/
theorem find_mapEntry (st k : Nat) (f : MapEntry → MapEntry) (hf : ∀ x, x.station = st → (f x).station = st)
    (l : List MapEntry) :
    (l.map fun x => if x.station = st then f x else x).find? (·.station = k) =
      if st = k then (l.find? (·.station = k)).map f else l.find? (·.station = k) := by
  induction l with
  | nil => by_cases q : st = k <;> simp [q]
  | cons x l ih =>
    rw [List.map_cons, List.find?_cons, ih, List.find?_cons]
    by_cases hx : x.station = st
    · rw [if_pos hx, hf x hx, hx]
      by_cases q : st = k <;> simp [q]
    · rw [if_neg hx]
      by_cases q : x.station = k
      · have q2 : ¬st = k := fun r => hx (q.trans r.symm)
        simp [q, q2]
      · simp [q]

/-- The entries with one number changed. -/
theorem Node.entry_onEntry (n : Node) (st : Nat) (f : MapEntry → MapEntry)
    (hf : ∀ x, x.station = st → (f x).station = st) :
    let m := n.onHead fun h => { h with map := h.map.map fun y => if y.station = st then f y else y }
    (∀ k, m.head.entry k = if st = k then (n.head.entry k).map f else n.head.entry k) ∧
    m.head.map.length = n.head.map.length :=
  ⟨fun k => find_mapEntry st k f hf _, by simp [Node.onHead]⟩

/-- R24: a map entry placed while there is room. -/
theorem Node.entry_placeEntry (n : Node) (e : MapEntry) (c : NoticeCode) (hr : n.head.map.length < 48) :
    let m := n.placeEntry e c
    (∀ k, m.head.entry k = if e.station = k then some e else n.head.entry k) ∧
    m.head.map.length ≤ n.head.map.length + 1 ∧ m.head.survey = n.head.survey ∧ Node.SameStation n m := by
  have hr' : n.head.map.length < Config.mapSize := hr
  unfold Node.placeEntry
  simp only [hr', if_true]
  split
  · rename_i hs
    refine ⟨fun k => ?_, ?_, rfl, (n.sameStation_onHead _).trans (Node.sameStation_post ..)⟩
    · show (n.head.map.map _).find? _ = _
      rw [find_mapEntry e.station k (fun _ => e) (fun _ _ => rfl)]
      split
      · rename_i q
        subst q
        simp only [Head.entry] at hs
        cases h : n.head.map.find? (fun x => x.station = e.station) with
        | none => simp [h] at hs
        | some _ => rfl
      · rfl
    · simp [Node.onHead]
  · rename_i hs
    refine ⟨fun k => ?_, ?_, rfl, (n.sameStation_onHead _).trans (Node.sameStation_post ..)⟩
    · show (insertEntry e n.head.map).find? _ = _
      rw [find_insertEntry]
      · rfl
      · simpa [Head.entry] using hs
    · simp [Node.onHead, length_insertEntry]

/-- R24: a number that is DUPLICATE in a survey: it appears again, or it is the head-end's own. -/
def Survey.Repeats (sv : Survey) (n : Node) (e : SurveyEntry) : Prop :=
  1 < (sv.entries.filter fun y => y.station = e.station).length ∨ e.station = n.me

/-- R24: what the map tells of a number that appears once, as entry `i` of the message. -/
def Survey.found (sv : Survey) (n : Node) (i : Nat) (e : SurveyEntry) : MapEntry :=
  { station := e.station, presence := .present, attach := e.attach, heard := n.svc.time
    position := if sv.kind = .closed then some i else (n.head.entry e.station).bind MapEntry.position
    via := if e.attach = .foldEast ∨ e.attach = .foldWest then .fold
      else if e.foldSeen = 0 then .outer else .inner }

/-- R24: one entry of a survey message, treated while there is room in the map: other numbers stay, a number that
appears once is PRESENT as `Survey.found` tells, a DUPLICATE one stays so, and the first of a repeated number makes it. -/
theorem Node.entry_surveyEntry (sv : Survey) (n : Node) (i : Nat) (e : SurveyEntry)
    (hr : n.head.map.length < 48) :
    let m := Node.surveyEntry sv n (i, e)
    (∀ k, k ≠ e.station → m.head.entry k = n.head.entry k) ∧
    m.head.map.length ≤ n.head.map.length + 1 ∧ m.head.survey = n.head.survey ∧ Node.SameStation n m ∧
    (¬sv.Repeats n e → m.head.entry e.station = some (sv.found n i e)) ∧
    (sv.Repeats n e →
      (∀ o, n.head.entry e.station = some o → o.presence = .duplicate →
        ∃ d, m.head.entry e.station = some d ∧ d.presence = .duplicate ∧ d.position = o.position) ∧
      ((sv.entries.map SurveyEntry.station).idxOf e.station + 1 = i →
        (n.head.entry e.station).map MapEntry.presence ≠ some .duplicate →
        ∃ d, m.head.entry e.station = some d ∧ d.presence = .duplicate ∧ d.position = none)) := by
  unfold Node.surveyEntry
  simp only []
  by_cases hrep : sv.Repeats n e
  · have h1 : (decide (1 < (sv.entries.filter fun y => y.station = e.station).length) ||
        decide (e.station = n.me)) = true := by simpa [Survey.Repeats] using hrep
    rw [if_pos h1]
    split
    · rename_i hc
      simp at hc
      obtain ⟨p1, p2, p3, p4⟩ := n.entry_placeEntry
        { station := e.station, position := none, presence := .duplicate,
          via := ((n.head.entry e.station).map MapEntry.via).getD (viaOf e),
          attach := ((n.head.entry e.station).map MapEntry.attach).getD e.attach, heard := n.svc.time }
        .stationDuplicate hr
      refine ⟨fun k hk => ?_, p2, p3, p4, fun h => absurd hrep h, fun _ => ⟨fun o ho hd => ?_, fun _ _ => ?_⟩⟩
      · rw [p1, if_neg]
        exact fun h => hk h.symm
      · exact absurd hd (hc.2 o ho)
      · exact ⟨_, by rw [p1, if_pos rfl], rfl, rfl⟩
    · rename_i hc
      obtain ⟨u1, u2⟩ := n.entry_onEntry e.station (fun y => { y with heard := n.svc.time }) (fun _ h => h)
      refine ⟨fun k hk => ?_, by rw [u2]; omega, rfl, n.sameStation_onHead _, fun h => absurd hrep h,
        fun _ => ⟨fun o ho hd => ?_, fun h2 h3 => ?_⟩⟩
      · rw [u1, if_neg]
        exact fun h => hk h.symm
      · exact ⟨{ o with heard := n.svc.time }, by rw [u1, if_pos rfl, ho]; rfl, hd, rfl⟩
      · exact absurd (by simp [h2]; simpa using h3) hc
  · have h1 : ¬(decide (1 < (sv.entries.filter fun y => y.station = e.station).length) ||
        decide (e.station = n.me)) = true := by simpa [Survey.Repeats] using hrep
    rw [if_neg h1]
    generalize hw : ({ station := e.station, position := _, presence := .present, via := viaOf e,
                       attach := e.attach, heard := n.svc.time } : MapEntry) = w
    have hf : w = sv.found n i e := by
      rw [← hw]
      unfold Survey.found viaOf
      cases sv.kind <;> cases e.attach <;> rfl
    clear hw
    subst hf
    split
    · rename_i hp
      obtain ⟨u1, u2⟩ := n.entry_onEntry e.station (fun _ => sv.found n i e) (fun _ _ => rfl)
      refine ⟨fun k hk => ?_, by rw [u2]; omega, rfl, n.sameStation_onHead _, fun _ => ?_, fun h => absurd h hrep⟩
      · rw [u1, if_neg]
        exact fun h => hk h.symm
      · rw [u1, if_pos rfl]
        cases h : n.head.entry e.station with
        | none => simp [h] at hp
        | some _ => rfl
    · obtain ⟨p1, p2, p3, p4⟩ := n.entry_placeEntry (sv.found n i e) .stationFound hr
      refine ⟨fun k hk => ?_, p2, p3, p4, fun _ => ?_, fun h => absurd h hrep⟩
      · rw [p1, if_neg]
        exact fun h => hk h.symm
      · rw [p1]
        exact if_pos rfl

/-- R24: a station missing from the survey becomes UNREACHABLE, and no other entry changes. -/
theorem Node.entry_loseStation (sv : Survey) (n : Node) (e : MapEntry) :
    let m := Node.loseStation sv n e
    let lost (x : MapEntry) : MapEntry :=
      { x with presence := .unreachable, position := if sv.kind = .closed then none else x.position }
    (∀ k, m.head.entry k = if e.station = k ∧ (∀ y ∈ sv.entries, y.station ≠ k) then (n.head.entry k).map lost
      else n.head.entry k) ∧
    m.head.map.length = n.head.map.length ∧ m.head.survey = n.head.survey ∧ Node.SameStation n m := by
  have same : ∀ f : Head → Head, Node.SameStation n
      (if decide (e.presence ≠ .unreachable) then (n.onHead f).post .stationLost .none [.nat e.station]
        else n.onHead f) := fun f => by
    split
    · exact (n.sameStation_onHead f).trans (Node.sameStation_post ..)
    · exact n.sameStation_onHead f
  unfold Node.loseStation
  simp only []
  split
  · rename_i h
    refine ⟨fun k => ?_, rfl, rfl, rfl, rfl⟩
    rw [if_neg]
    rintro ⟨rfl, hk⟩
    obtain ⟨y, hy, hs⟩ := List.any_eq_true.1 h
    exact hk y hy (by simpa using hs)
  · rename_i h
    have hno : ∀ y ∈ sv.entries, y.station ≠ e.station := fun y hy hs =>
      h (List.any_eq_true.2 ⟨y, hy, by simpa using hs⟩)
    obtain ⟨u1, u2⟩ := n.entry_onEntry e.station
      (fun y => { y with presence := .unreachable, position := if sv.kind = .closed then none else y.position })
      (fun _ h => h)
    have key : ∀ k, (if e.station = k ∧ (∀ y ∈ sv.entries, y.station ≠ k) then
        (n.head.entry k).map fun x : MapEntry =>
          { x with presence := .unreachable, position := if sv.kind = .closed then none else x.position }
        else n.head.entry k) = if e.station = k then (n.head.entry k).map fun x : MapEntry =>
          { x with presence := .unreachable, position := if sv.kind = .closed then none else x.position }
        else n.head.entry k := by
      intro k
      by_cases q : e.station = k
      · subst q
        simp only [true_and, if_true]
        rw [if_pos hno]
      · simp [q]
    refine ⟨fun k => ?_, ?_, ?_, same _⟩
    · rw [key]
      split
      · exact u1 k
      · exact u1 k
    · split <;> exact u2
    · split <;> rfl

end Sys2Proof.Machine
end

