-- ==== Sys2Proof/Laws/Taken.lean ====
section
/-! SUPPORT. What taking a list-valued item does besides (R190): the command channels it leaves, the roster (R108), restart
outputs (R117), cabinet inputs (R119), threshold rules (R159) and bindings (R78). -/

namespace Sys2Proof.Machine

/-! ## A value taken while its command is in progress (R186, R190) -/

/-- A chain of operations that each pass through a change of the command channels passes through it. -/
theorem foldl_onCmd {α : Type} (f : Cmd → Cmd) (g : Node → α → Node) (h : ∀ n a, g (n.onCmd f) a = (g n a).onCmd f) :
    ∀ (l : List α) (n : Node), l.foldl g (n.onCmd f) = (l.foldl g n).onCmd f
  | [], _ => rfl
  | a :: l, n => by simp only [List.foldl_cons, h]; exact foldl_onCmd f g h l _

theorem Node.onCmd_onDevice (n : Node) (f : Cmd → Cmd) (d : Nat) (g : Device → Device) :
    (n.onCmd f).onDevice d g = (n.onDevice d g).onCmd f := rfl

theorem Node.onCmd_detachElsewhere (n : Node) (f : Cmd → Cmd) (d : Nat) (a b : DeviceKind) :
    (n.onCmd f).detachElsewhere d a b = (n.detachElsewhere d a b).onCmd f := by
  unfold Node.detachElsewhere
  have hr : ∀ (b : Prop) [Decidable b] (x y : Node),
      (if b then x.onCmd f else y.onCmd f) = (if b then x else y).onCmd f := by
    intro b _ x y; split <;> rfl
  simp only [Node.onCmd_onZone, hr, Node.onCmd_onToll, Node.onCmd_onSvc, Node.onCmd_onRules, Node.onCmd_trib]

/-- R112: with no exchange in flight and no command waiting, detaching touches no command channel. -/
theorem Node.onCmd_detachOne {n : Node} (f : Cmd → Cmd) (old : Settings) (d : Nat)
    (h : ∀ v, n.device d = some v → v.exchange = none ∧ v.commands = []) :
    (n.onCmd f).detachOne old d = (n.detachOne old d).onCmd f := by
  have hd : ∀ k c, (n.onCmd f).detach d k c = (n.detach d k c).onCmd f := by
    intro k c
    cases hv : n.device d with
    | none => rw [Node.detach_missing k c hv, Node.detach_missing (n := n.onCmd f) k c hv]
    | some v =>
      rw [Node.detach_idle k c hv (h v hv).1 (h v hv).2,
        Node.detach_idle (n := n.onCmd f) k c hv (h v hv).1 (h v hv).2, ← Node.onCmd_detachElsewhere]
      rfl
  unfold Node.detachOne
  have hs : (n.onCmd f).set = n.set := rfl
  rw [hs]
  split
  · exact hd ..
  · split
    · exact hd ..
    · rfl

/-- R112: with no exchange in flight and no command waiting, detaching touches no command channel. -/
theorem Node.onCmd_detachChanged {n : Node} (f : Cmd → Cmd) (old : Settings)
    (h : ∀ d v, n.device d = some v → v.exchange = none ∧ v.commands = []) :
    (n.onCmd f).detachChanged old = (n.detachChanged old).onCmd f := by
  rw [Node.detachChanged_eq, Node.detachChanged_eq]
  generalize places 8 = l
  induction l generalizing n with
  | nil => rfl
  | cons d l ih =>
    rw [List.foldl_cons, List.foldl_cons, Node.onCmd_detachOne f old d (h d), ih]
    intro k v hk
    by_cases hkd : k = d
    · subst hkd
      by_cases hm : n.moved old k
      · rw [Node.detachOne_moved hm] at hk
        cases hv : n.device k with
        | none => rw [Node.detach_missing _ _ hv, hv] at hk; cases hk
        | some w =>
          rw [(Node.detach_spec _ _ hv).2] at hk
          cases hk; exact ⟨rfl, rfl⟩
      · rw [Node.detachOne_unmoved hm] at hk; exact h k v hk
    · rw [(n.detaches_detachOne old d).others k hkd] at hk
      exact h k v hk

theorem Node.onCmd_takeRoster (n : Node) (f : Cmd → Cmd) (l : List (Option RosterSpec)) :
    (n.onCmd f).takeRoster l = ((n.takeRoster l).1.onCmd f, (n.takeRoster l).2) := by
  unfold Node.takeRoster
  dsimp only
  have hs : (n.onCmd f).set = n.set := rfl
  rw [hs]
  split
  · rw [Node.onCmd_onSettings, foldl_onCmd f _ (fun _ _ => rfl)]
  · rfl

theorem Node.onCmd_takeOutputs (n : Node) (f : Cmd → Cmd) (l : List OutputSpec) :
    (n.onCmd f).takeOutputs l = ((n.takeOutputs l).1.onCmd f, (n.takeOutputs l).2) := by
  unfold Node.takeOutputs
  dsimp only
  have hs : (n.onCmd f).set = n.set := rfl
  rw [hs]
  split
  · rw [Node.onCmd_onSettings, foldl_onCmd f _ (fun n x => by split <;> rfl)]
  · rfl

theorem Node.onCmd_takeInputs (n : Node) (f : Cmd → Cmd) (l : List InputSpec) :
    (n.onCmd f).takeInputs l = ((n.takeInputs l).1.onCmd f, (n.takeInputs l).2) := by
  unfold Node.takeInputs
  dsimp only
  have hs : (n.onCmd f).set = n.set := rfl
  rw [hs]
  have ht : ∀ (n : Node) i, (n.onCmd f).timeInput i = (n.timeInput i).onCmd f := by
    intro n i
    unfold Node.timeInput
    have hs : (n.onCmd f).set = n.set := rfl
    have hp : (n.onCmd f).pins = n.pins := rfl
    rw [hs, hp]
    split <;> rfl
  split
  · rw [Node.onCmd_onSettings, foldl_onCmd f _ (fun n x => by
      have : (n.onCmd f).trib = n.trib := rfl
      simp only [this]
      split
      · exact ht n x
      · rfl)]
  · rfl

/-- R190: a list-valued candidate. -/
def Candidate.isList : Candidate → Bool
  | .number _ => false
  | _ => true

/-- Whether taking a candidate may take devices off their lines. -/
def Candidate.detaches : Candidate → Bool
  | .remap _ => true
  | .kinds _ => true
  | _ => false

/-- R190: taking a list value touches no command channel, unless it takes a device off its line whose exchange or waiting
commands a command asked for. -/
theorem Node.onCmd_takeValue {n : Node} (f : Cmd → Cmd) (item : Nat) {x : Candidate} (hx : x.isList = true)
    (h : x.detaches = false ∨ ∀ d v, n.device d = some v → v.exchange = none ∧ v.commands = []) :
    (n.onCmd f).takeValue item x = ((n.takeValue item x).1.onCmd f, (n.takeValue item x).2) := by
  cases x with
  | number v => cases hx
  | remap l =>
    have h := h.resolve_left (fun e => by cases e)
    show (n.onCmd f).takeRemap l = ((n.takeRemap l).1.onCmd f, (n.takeRemap l).2)
    unfold Node.takeRemap
    split
    · rw [Node.onCmd_onSettings]
      have := Node.onCmd_detachChanged (n := n.onSettings fun s => { s with remap := l }) f n.set h
      exact congrArg (·, Status.done) this
    · rfl
  | kinds l =>
    have h := h.resolve_left (fun e => by cases e)
    show (n.onCmd f).takeKinds l = ((n.takeKinds l).1.onCmd f, (n.takeKinds l).2)
    unfold Node.takeKinds
    rw [Node.onCmd_onSettings]
    have := Node.onCmd_detachChanged (n := n.onSettings fun s => { s with kinds := l }) f n.set h
    exact congrArg (·, Status.done) this
  | roster l => exact n.onCmd_takeRoster f l
  | outputs l => exact n.onCmd_takeOutputs f l
  | inputs l => exact n.onCmd_takeInputs f l
  | classes l =>
    show (match checkBounds n.svc.pool l with
      | .done => ((n.onCmd f).onSvc fun s => s.takeBounds l, Status.done)
      | st => (n.onCmd f, st)) = ((match checkBounds n.svc.pool l with
      | .done => (n.onSvc fun s => s.takeBounds l, Status.done)
      | st => (n, st)).1.onCmd f, (match checkBounds n.svc.pool l with
      | .done => (n.onSvc fun s => s.takeBounds l, Status.done)
      | st => (n, st)).2)
    cases checkBounds n.svc.pool l <;> rfl
  | rules l =>
    show (n.onCmd f).takeRules l = ((n.takeRules l).1.onCmd f, (n.takeRules l).2)
    unfold Node.takeRules
    rw [Node.onCmd_onRules]
  | bindings l =>
    simp only [Node.takeValue]
    rfl
  | _ => rfl

/-- R190: what the candidate of an item that is no number is. -/
theorem candidate_isList {w : Settings} {b : List ClassBounds} {item : Nat} {op : SettingOp} {v : SettingValue}
    {x : Candidate} (hn : numberRange item = none) (h : candidate w b item op v = some x) :
    x.isList = true ∧ (item ≠ 40 → item ≠ 41 → x.detaches = false) := by
  rw [candidate_list op v hn] at h
  unfold listCandidate at h
  dsimp only at h
  have hm : ∀ {α : Type} {y : Option α} {g : α → Candidate}, y.map g = some x → ∃ a, x = g a := by
    intro α y g h
    obtain ⟨a, -, rfl⟩ := Option.map_eq_some_iff.1 h
    exact ⟨a, rfl⟩
  split at h <;> first
    | (cases h; done)
    | (cases h; exact ⟨rfl, fun _ _ => rfl⟩)
    | (obtain ⟨y, rfl⟩ := hm h; exact ⟨rfl, fun _ _ => rfl⟩)
    | (obtain ⟨y, rfl⟩ := hm h; exact ⟨rfl, fun h1 _ => absurd rfl h1⟩)
    | (obtain ⟨y, rfl⟩ := hm h; exact ⟨rfl, fun _ h2 => absurd rfl h2⟩)
    | (split at h <;> first
        | (cases h; done)
        | (cases h; exact ⟨rfl, fun _ _ => rfl⟩))
    | (obtain ⟨z, -, h⟩ := Option.bind_eq_some_iff.1 h
       obtain ⟨y, rfl⟩ := hm h
       exact ⟨rfl, fun _ h2 => absurd rfl h2⟩)

/-- Taking a list value leaves the command channels as they are, under the same conditions. -/
theorem Node.cmd_takeValue {n : Node} (item : Nat) {x : Candidate} (hx : x.isList = true)
    (h : x.detaches = false ∨ ∀ d v, n.device d = some v → v.exchange = none ∧ v.commands = []) :
    (n.takeValue item x).1.cmd = n.cmd := by
  have := Node.onCmd_takeValue (fun _ => n.cmd) item hx h
  have he : (n.onCmd fun _ => n.cmd) = n := rfl
  rw [he] at this
  conv_lhs => rw [this]
  rfl

/-! ## Tables whose places are changed one by one -/

/-- Each place of a table changed once. -/
def changeAll {α : Type} (p : Nat → Bool) (f : Nat → α → α) (es : List Nat) (l : List α) : List α :=
  es.foldl (fun l e => if p e then change (f e) l e else l) l

theorem nth_changeAll {α : Type} (p : Nat → Bool) (f : Nat → α → α) : ∀ (es : List Nat) (l : List α) (k : Nat),
    es.Nodup → nth (changeAll p f es l) k = if k ∈ es ∧ p k = true then (nth l k).map (f k) else nth l k
  | [], l, k, _ => by simp [changeAll]
  | e :: es, l, k, h => by
    have hn := List.nodup_cons.1 h
    have ih := nth_changeAll p f es (if p e then change (f e) l e else l) k hn.2
    show nth (changeAll p f es _) k = _
    rw [ih]
    by_cases hk : k = e
    · subst hk
      by_cases hp : p k = true <;> simp [hn.1, hp]
    · have : nth (if p e then change (f e) l e else l) k = nth l k := by
        split
        · exact nth_change_other _ _ hk
        · rfl
      simp [this, hk]

/-- A chain of operations that each change one place of a table of the node. -/
theorem foldl_table {α : Type} (set : List α → Node) {g : Node → Nat → Node} {p : Nat → Bool}
    {f : Nat → α → α} (h : ∀ l e, g (set l) e = set (if p e then change (f e) l e else l)) :
    ∀ (es : List Nat) (l : List α), es.foldl g (set l) = set (changeAll p f es l)
  | [], _ => rfl
  | e :: es, l => by rw [List.foldl_cons, h]; exact foldl_table set h es _

/-! ## The services under other settings -/

/-- The services with other working settings. -/
def Svc.withSettings (s : Svc) (w : Settings) : Svc := { s with settings := w }

theorem Svc.withSettings_freeBuffers (s : Svc) (w : Settings) (c : PoolClass) (n : Nat) :
    (s.withSettings w).freeBuffers c n = (s.freeBuffers c n).withSettings w := by
  unfold Svc.freeBuffers
  by_cases h1 : n = 0
  · simp only [h1, if_true]
  · by_cases h2 : (s.pool.waiting || decide (c = .transit)) = true
    · have h2' : ((s.withSettings w).pool.waiting || decide (c = .transit)) = true := h2
      simp only [h1, if_false, h2, h2', if_true]; rfl
    · have h2' : ¬((s.withSettings w).pool.waiting || decide (c = .transit)) = true := h2
      simp only [h1, if_false, h2, h2']; rfl

theorem Svc.withSettings_evictOldest (s : Svc) (w : Settings) (b : Bool) :
    (s.withSettings w).evictOldest b = (s.evictOldest b).map fun x => (x.1.withSettings w, x.2) := by
  unfold Svc.evictOldest
  have h : (s.withSettings w).wx = s.wx := rfl
  rw [h]
  cases splitClosed s.wx.segments with
  | none => rfl
  | some x =>
    dsimp only
    rw [Option.map_some]
    congr 2
    exact Svc.withSettings_freeBuffers { s with wx := _ } w .weather x.2.1.samples.length

theorem Svc.withSettings_requestLoop (c : PoolClass) (n : Nat) (w : Settings) : ∀ (fuel : Nat) (s : Svc),
    Svc.requestLoop c n fuel (s.withSettings w) =
      ((Svc.requestLoop c n fuel s).1.withSettings w, (Svc.requestLoop c n fuel s).2)
  | 0, s => by
    unfold Svc.requestLoop
    have h : (s.withSettings w).pool = s.pool := rfl
    rw [h]
    cases s.pool.decide c n <;> rfl
  | fuel + 1, s => by
    unfold Svc.requestLoop
    have h : (s.withSettings w).pool = s.pool := rfl
    rw [h, Svc.withSettings_evictOldest]
    cases s.pool.decide c n with
    | none => rfl
    | some r =>
      dsimp only
      split
      · rfl
      · cases s.evictOldest true with
        | none => rfl
        | some x => exact Svc.withSettings_requestLoop c n w fuel { x.1 with pool := x.1.pool.countEviction c x.2 }

theorem Svc.withSettings_offerNormal (s : Svc) (w : Settings) (m : Message) :
    (s.withSettings w).offerNormal m = ((s.offerNormal m).1.withSettings w, (s.offerNormal m).2) := by
  have h := Svc.withSettings_requestLoop .transit (transitBuffers m.length) w s.wx.segments.length s
  unfold Svc.offerNormal
  have h1 : (s.withSettings w).queues = s.queues := rfl
  have h2 : (s.withSettings w).requestBuffers .transit (transitBuffers m.length) =
    ((s.requestBuffers .transit (transitBuffers m.length)).1.withSettings w,
      (s.requestBuffers .transit (transitBuffers m.length)).2) := h
  rw [h1, h2]
  split
  · rcases s.requestBuffers .transit (transitBuffers m.length) with ⟨t, _ | r⟩ <;> rfl
  · rfl

/-- R180: centre delivery knows the settings by the role and the station alone. -/
theorem Svc.withSettings_lookCentre {w : Settings} : ∀ (fuel : Nat) (s : Svc), w.role = s.settings.role →
    w.station = s.settings.station →
    Svc.lookCentre fuel (s.withSettings w) = (Svc.lookCentre fuel s).withSettings w
  | 0, s, _, _ => rfl
  | fuel + 1, s, hr, hs => by
    unfold Svc.lookCentre
    have h1 : (s.withSettings w).note = s.note := rfl
    have h2 : (s.withSettings w).queues = s.queues := rfl
    have h3 : (s.withSettings w).settings = w := rfl
    dsimp only
    rw [h1, h2, h3, hr, hs, Svc.withSettings_offerNormal]
    split
    · rfl
    · have hk := Svc.keeps_offerNormal s
        { source := s.settings.station, dest := Config.headEndNumber,
          length := messageSlots (.noticeFwd ((s.note.queue.filter (·.toCentre)).take 4)),
          payload := .noticeFwd ((s.note.queue.filter (·.toCentre)).take 4) }
      revert hk
      rcases s.offerNormal _ with ⟨t, _ | _⟩
      · exact fun _ => rfl
      · intro hk
        exact Svc.withSettings_lookCentre fuel
          { t with note := Note.setAttention { t.note with
              queue := serveCentre ((s.note.queue.filter (·.toCentre)).take 4).length t.note.queue } }
          (hr.trans (by rw [show t.settings = s.settings from hk.settings]))
          (hs.trans (by rw [show t.settings = s.settings from hk.settings]))

/-- R176: a post knows the settings by the role, the station and the routes alone. -/
theorem Svc.withSettings_post {w : Settings} {s : Svc} (hr : w.role = s.settings.role)
    (hs : w.station = s.settings.station) (hx : w.routes = s.settings.routes) (c : NoticeCode) (u : Subject)
    (d : List Value) : (s.withSettings w).post c u d = (s.post c u d).withSettings w := by
  have hroute : w.route c = s.settings.route c := by unfold Settings.route; rw [hx]
  unfold Svc.post
  have h1 : (s.withSettings w).note = s.note := rfl
  have h3 : (s.withSettings w).settings = w := rfl
  have h4 : (s.withSettings w).time = s.time := rfl
  dsimp only
  rw [h1, h3, h4, hroute, hr, hs]
  split
  · rfl
  · split
    · exact Svc.withSettings_lookCentre 2 { s with note := s.note.append _ } hr hs
    · rfl

/-! ## Threshold rules (R159) -/

/-- R159: one entry of a new THRESHOLD-RULES. -/
def takeRule (l : List (Option RuleSpec)) (y : RuleSt) (k : Nat) : RuleSt :=
  if nth y.1.settings.rules k = nth l k then y else replaceRule y k ((nth l k).getD none)

theorem Node.takeRules_eq (n : Node) (l : List (Option RuleSpec)) :
    n.takeRules l = (n.onRules fun x => (places 8).foldl (takeRule l) x, .done) := rfl

/-- The working settings with one rule replaced. -/
def Settings.withRule (w : Settings) (k : Nat) (r : Option RuleSpec) : Settings := { w with rules := put w.rules k r }

/-- R159: whether an entry's old rule is tripped, and its zone. -/
def tripsRule (x : RuleSt) (k : Nat) (spec : RuleSpec) : Prop :=
  nth x.1.settings.rules k = some (some spec) ∧ ∃ rec, nth x.2 k = some rec ∧ isTripped rec.state = true

theorem replaceRule_tripped {x : RuleSt} {k : Nat} {spec : RuleSpec} (new : Option RuleSpec) (h : tripsRule x k spec) :
    replaceRule x k new =
      ((x.1.post .ruleClear (.rule k) [.nat spec.zone, .absent, .ruleClear .changed]).withSettings
        (x.1.settings.withRule k new), put x.2 k { state := .clear, last := none, since := x.1.time }) := by
  obtain ⟨h1, rec, h2, h3⟩ := h
  have hk := Svc.keeps_post x.1 .ruleClear (.rule k) [.nat spec.zone, .absent, .ruleClear .changed]
  unfold replaceRule
  simp only [h1, h2, Option.getD_some, h3, if_true]
  unfold Svc.withSettings Settings.withRule
  simp only [hk.settings, hk.time]

theorem replaceRule_quiet {x : RuleSt} {k : Nat} (new : Option RuleSpec) (h : ∀ spec, ¬tripsRule x k spec) :
    replaceRule x k new =
      (x.1.withSettings (x.1.settings.withRule k new), put x.2 k { state := .clear, last := none, since := x.1.time }) := by
  unfold replaceRule
  rcases hs : nth x.1.settings.rules k with _ | _ | spec
  · simp only [Option.getD_none]; rfl
  · simp only [Option.getD_some]; rfl
  · rcases hr : nth x.2 k with _ | rec
    · rfl
    · have ht : ¬isTripped rec.state = true := fun ht => h spec ⟨hs, rec, hr, ht⟩
      simp only [Option.getD_some, if_neg ht]; rfl

/-- R159: what one entry leaves: the times, and every entry but its own. -/
theorem takeRule_spec (l : List (Option RuleSpec)) (x : RuleSt) (k : Nat) :
    let y := takeRule l x k
    y.1.time = x.1.time ∧ y.1.settings.role = x.1.settings.role ∧ y.1.settings.station = x.1.settings.station ∧
    y.1.settings.routes = x.1.settings.routes ∧
    (∀ j, j ≠ k → nth y.2 j = nth x.2 j ∧ nth y.1.settings.rules j = nth x.1.settings.rules j) ∧
    (nth x.1.settings.rules k = nth l k → y = x) ∧
    (nth x.1.settings.rules k ≠ nth l k →
      nth y.2 k = (nth x.2 k).map (fun _ => { state := .clear, last := none, since := x.1.time }) ∧
      nth y.1.settings.rules k = (nth x.1.settings.rules k).map fun _ => (nth l k).getD none) := by
  intro y
  by_cases he : nth x.1.settings.rules k = nth l k
  · have hy : y = x := if_pos he
    rw [hy]
    exact ⟨rfl, rfl, rfl, rfl, fun _ _ => ⟨rfl, rfl⟩, fun _ => rfl, fun h => absurd he h⟩
  · have hy : y = replaceRule x k ((nth l k).getD none) := if_neg he
    have hx : ∃ s, y = (Svc.withSettings s (x.1.settings.withRule k ((nth l k).getD none)),
        put x.2 k { state := .clear, last := none, since := x.1.time }) ∧ Svc.Keeps x.1 s := by
      rw [hy]
      by_cases h : ∃ spec, tripsRule x k spec
      · obtain ⟨spec, h⟩ := h
        exact ⟨_, replaceRule_tripped _ h, Svc.keeps_post ..⟩
      · exact ⟨_, replaceRule_quiet _ fun spec e => h ⟨spec, e⟩, .refl _⟩
    obtain ⟨s, hs, hk⟩ := hx
    rw [hs]
    exact ⟨hk.time, rfl, rfl, rfl, fun j hj => ⟨nth_put_other _ _ hj, nth_put_other _ _ hj⟩, fun h => absurd h he,
      fun _ => ⟨nth_put_same _ _ _, nth_put_same _ _ _⟩⟩

/-- R159: what several entries, each once, leave and write. -/
theorem foldl_takeRule (l : List (Option RuleSpec)) : ∀ (es : List Nat) (x : RuleSt), es.Nodup →
    let y := es.foldl (takeRule l) x
    y.1.time = x.1.time ∧
    (∀ k, (k ∉ es ∨ nth x.1.settings.rules k = nth l k) →
      nth y.2 k = nth x.2 k ∧ nth y.1.settings.rules k = nth x.1.settings.rules k) ∧
    (∀ k, k ∈ es → nth x.1.settings.rules k ≠ nth l k →
      nth y.2 k = (nth x.2 k).map (fun _ => { state := .clear, last := none, since := x.1.time }) ∧
      nth y.1.settings.rules k = (nth x.1.settings.rules k).map fun _ => (nth l k).getD none)
  | [], x, _ => ⟨rfl, fun _ _ => ⟨rfl, rfl⟩, fun _ h => (by cases h)⟩
  | e :: es, x, h => by
    intro y
    have hn := List.nodup_cons.1 h
    obtain ⟨a1, -, -, -, a2, a3, a4⟩ := takeRule_spec l x e
    obtain ⟨b1, b2, b3⟩ := foldl_takeRule l es (takeRule l x e) hn.2
    refine ⟨b1.trans a1, ?_, ?_⟩
    · intro k hk
      by_cases hke : k = e
      · subst hke
        have := a3 (hk.resolve_left (by simp))
        have hb := b2 k (Or.inl hn.1)
        rw [this] at hb
        simp only [y, List.foldl_cons, this]
        exact hb
      · have ha := a2 k hke
        have hb := b2 k (hk.imp (fun h c => h (List.mem_cons_of_mem _ c)) (fun h => ha.2.trans h))
        exact ⟨hb.1.trans ha.1, hb.2.trans ha.2⟩
    · intro k hk hc
      by_cases hke : k = e
      · subst hke
        have hb := b2 k (Or.inl hn.1)
        have ha := a4 hc
        exact ⟨hb.1.trans ha.1, hb.2.trans ha.2⟩
      · have ha := a2 k hke
        have hb := b3 k ((List.mem_cons.1 hk).resolve_left hke) (by rw [ha.2]; exact hc)
        rw [ha.1, ha.2, a1] at hb
        exact hb

/-- R159: with no tripped rule replaced nothing is posted. -/
theorem foldl_takeRule_quiet (l : List (Option RuleSpec)) : ∀ (es : List Nat) (x : RuleSt), es.Nodup →
    (∀ k spec, k ∈ es → nth x.1.settings.rules k ≠ nth l k → ¬tripsRule x k spec) →
    let y := es.foldl (takeRule l) x
    y.1 = x.1.withSettings y.1.settings ∧ y.1.settings.role = x.1.settings.role ∧
      y.1.settings.station = x.1.settings.station ∧ y.1.settings.routes = x.1.settings.routes
  | [], _, _, _ => ⟨rfl, rfl, rfl, rfl⟩
  | e :: es, x, h, hq => by
    intro y
    have hn := List.nodup_cons.1 h
    obtain ⟨-, c1, c2, c3, a2, -, -⟩ := takeRule_spec l x e
    have h1 : (takeRule l x e).1 = x.1.withSettings (takeRule l x e).1.settings := by
      unfold takeRule
      split
      · rfl
      · rename_i hc
        rw [replaceRule_quiet _ fun spec => hq e spec (by simp) hc]; rfl
    obtain ⟨b1, b2, b3, b4⟩ := foldl_takeRule_quiet l es (takeRule l x e) hn.2 (by
      intro k spec hk hc ht
      have hke : k ≠ e := fun c => hn.1 (c ▸ hk)
      refine hq k spec (List.mem_cons_of_mem _ hk) (by rw [← (a2 k hke).2]; exact hc) ?_
      unfold tripsRule at *
      rw [← (a2 k hke).1, ← (a2 k hke).2]; exact ht)
    refine ⟨?_, b2.trans c1, b3.trans c2, b4.trans c3⟩
    show (List.foldl (takeRule l) (takeRule l x e) es).1 = _
    rw [b1, h1]; rfl

/-- R159: one tripped rule replaced: RULE-CLEAR is posted for it. -/
theorem foldl_takeRule_one {l : List (Option RuleSpec)} {x : RuleSt} {k : Nat} {spec : RuleSpec} (h1 : 1 ≤ k) (h8 : k ≤ 8)
    (hc : nth x.1.settings.rules k ≠ nth l k) (ht : tripsRule x k spec)
    (hu : ∀ j sp, 1 ≤ j → j ≤ 8 → j ≠ k → nth x.1.settings.rules j ≠ nth l j → ¬tripsRule x j sp) :
    let y := (places 8).foldl (takeRule l) x
    y.1 = (x.1.post .ruleClear (.rule k) [.nat spec.zone, .absent, .ruleClear .changed]).withSettings y.1.settings := by
  obtain ⟨a, b, hab⟩ := List.append_of_mem (mem_places.2 ⟨h1, h8⟩ : k ∈ places 8)
  have hn : (a ++ k :: b).Nodup := hab ▸ (by decide : (places 8).Nodup)
  have ha : k ∉ a := fun h => (List.nodup_append.1 hn).2.2 k h k (by simp) rfl
  have hnb := List.nodup_cons.1 (List.nodup_append.1 hn).2.1
  have hna : a.Nodup := (List.nodup_append.1 hn).1
  have hdis : ∀ j ∈ b, j ∉ a := fun j hj hja => (List.nodup_append.1 hn).2.2 j hja j (by simp [hj]) rfl
  intro y
  have hy : y = b.foldl (takeRule l) (takeRule l (a.foldl (takeRule l) x) k) := by
    simp only [y, hab, List.foldl_append, List.foldl_cons]
  obtain ⟨q1, q2, q3, q4⟩ := foldl_takeRule_quiet l a x hna (fun j sp hj => by
    have := mem_places.1 (hab ▸ List.mem_append_left _ hj : j ∈ places 8)
    exact hu j sp this.1 this.2 (fun e => ha (e ▸ hj)))
  obtain ⟨-, f2, -⟩ := foldl_takeRule l a x hna
  revert hy q1 q2 q3 q4 f2
  generalize a.foldl (takeRule l) x = z
  intro hy q1 q2 q3 q4 f2
  have hzk := f2 k (Or.inl ha)
  have hz : tripsRule z k spec := by unfold tripsRule at *; rw [hzk.1, hzk.2]; exact ht
  have hzc : nth z.1.settings.rules k ≠ nth l k := by rw [hzk.2]; exact hc
  have hone : takeRule l z k =
      ((z.1.post .ruleClear (.rule k) [.nat spec.zone, .absent, .ruleClear .changed]).withSettings
        (z.1.settings.withRule k ((nth l k).getD none)),
        put z.2 k { state := .clear, last := none, since := z.1.time }) :=
    (if_neg hzc).trans (replaceRule_tripped _ hz)
  obtain ⟨-, -, -, -, t2, -, -⟩ := takeRule_spec l z k
  obtain ⟨r1, -, -, -⟩ := foldl_takeRule_quiet l b (takeRule l z k) hnb.2 (fun j sp hj hcj htj => by
    have hjk : j ≠ k := fun e => hnb.1 (e ▸ hj)
    have hj8 := mem_places.1 (hab ▸ List.mem_append_right a (List.mem_cons_of_mem k hj) : j ∈ places 8)
    have hfj := f2 j (Or.inl (hdis j hj))
    have e2 : nth (takeRule l z k).1.settings.rules j = nth x.1.settings.rules j := (t2 j hjk).2.trans hfj.2
    have e1 : nth (takeRule l z k).2 j = nth x.2 j := (t2 j hjk).1.trans hfj.1
    refine hu j sp hj8.1 hj8.2 hjk (by rw [← e2]; exact hcj) ?_
    unfold tripsRule at *
    rw [← e1, ← e2]; exact htj)
  rw [hy, r1, hone]
  have hp : z.1.post .ruleClear (.rule k) [.nat spec.zone, .absent, .ruleClear .changed] =
      (x.1.post .ruleClear (.rule k) [.nat spec.zone, .absent, .ruleClear .changed]).withSettings z.1.settings := by
    rw [q1]; exact Svc.withSettings_post q2 q3 q4 _ _ _
  rw [hp]; rfl

/-- R158: what follows a change of the rules. -/
theorem Node.onRules_eq (n : Node) (f : RuleSt → RuleSt) :
    n.onRules f = Node.onZone { n with svc := (f (n.svc, n.rules)).1, rules := (f (n.svc, n.rules)).2 }
      (handWeather n.set.rules n.rules (f (n.svc, n.rules)).1.settings.rules (f (n.svc, n.rules)).2) := rfl

/-! ## Bindings (R78) -/

/-- R123: a TRANSIT request leaves the SIGN class as it was, whatever it evicts. -/
theorem Svc.sign_requestLoop (n fuel : Nat) (s : Svc) :
    (Svc.requestLoop .transit n fuel s).1.pool.cls .sign = s.pool.cls .sign := by
  induction fuel generalizing s with
  | zero =>
    unfold Svc.requestLoop
    cases s.pool.decide .transit n <;> rfl
  | succ fuel ih =>
    unfold Svc.requestLoop
    cases s.pool.decide .transit n with
    | none => rfl
    | some r =>
      dsimp only
      split
      · rfl
      · cases he : s.evictOldest true with
        | none => rfl
        | some x =>
          refine (ih _).trans ?_
          unfold Svc.evictOldest at he
          cases hs : splitClosed s.wx.segments with
          | none => rw [hs] at he; cases he
          | some y =>
            rw [hs] at he
            dsimp only at he
            cases he
            dsimp only
            unfold Svc.freeBuffers
            split
            · rfl
            · dsimp only
              split <;> rfl

theorem Svc.sign_offerNormal (s : Svc) (m : Message) : (s.offerNormal m).1.pool.cls .sign = s.pool.cls .sign := by
  have h := Svc.sign_requestLoop (transitBuffers m.length) s.wx.segments.length s
  unfold Svc.offerNormal Svc.requestBuffers
  revert h
  rcases Svc.requestLoop .transit (transitBuffers m.length) s.wx.segments.length s with ⟨t, _ | r⟩ <;> intro h <;>
    dsimp only <;> split <;> first | exact h | rfl

theorem Svc.sign_lookCentre : ∀ (fuel : Nat) (s : Svc), (Svc.lookCentre fuel s).pool.cls .sign = s.pool.cls .sign
  | 0, _ => rfl
  | fuel + 1, s => by
    unfold Svc.lookCentre
    dsimp only
    split
    · rfl
    · have hk := Svc.sign_offerNormal s
        { source := s.settings.station, dest := Config.headEndNumber,
          length := messageSlots (.noticeFwd ((s.note.queue.filter (·.toCentre)).take 4)),
          payload := .noticeFwd ((s.note.queue.filter (·.toCentre)).take 4) }
      revert hk
      rcases s.offerNormal _ with ⟨t, _ | _⟩
      · exact id
      · intro hk; exact (Svc.sign_lookCentre fuel _).trans hk

/-- R176: a post may borrow TRANSIT buffers (R180), and never a SIGN buffer. -/
theorem Svc.sign_post (s : Svc) (c : NoticeCode) (u : Subject) (d : List Value) :
    (s.post c u d).pool.cls .sign = s.pool.cls .sign := by
  unfold Svc.post
  dsimp only
  split
  · rfl
  · split
    · exact Svc.sign_lookCentre 2 _
    · rfl

theorem Zone.sign_changeSign_other (z : Zone) {d k : Nat} (f : Sign → Sign) (h : k ≠ d) :
    (z.changeSign d f).sign k = z.sign k := by rw [sign_changeSign, if_neg h]

/-- R80: working out looks at the zones and the sign's own record. -/
theorem workedOut_zones {s : Settings} {z y : Zone} (h : y.zones = z.zones) (d : Nat) (g : Sign) :
    workedOut s y d g = workedOut s z d g := by
  have ha : y.active = z.active := by funext k; unfold Zone.active; rw [h]
  have hs : signZone s y d = signZone s z d := by unfold signZone; rw [ha]
  unfold workedOut wantedOf
  rw [hs]

/-- R80: what working out several signs does, each once. -/
theorem foldl_workOutSign : ∀ (l : List Nat) (x : ZoneSt), l.Nodup →
    let y := l.foldl (fun y d => workOutSign d y) x
    Svc.Keeps x.1 y.1 ∧ y.1.pool.cls .sign = x.1.pool.cls .sign ∧ y.2.zones = x.2.zones ∧ y.2.beacons = x.2.beacons ∧
    (∀ d, y.2.sign d = if d ∈ l then (x.2.sign d).map (workedOut x.1.settings x.2 d) else x.2.sign d) ∧
    ((∀ d g, d ∈ l → x.2.sign d = some g → (workedOut x.1.settings x.2 d g).state = g.state) → y.1 = x.1)
  | [], x, _ => ⟨.refl _, rfl, rfl, rfl, fun _ => rfl, fun _ => rfl⟩
  | k :: l, x, h => by
    intro y
    have hn := List.nodup_cons.1 h
    have h1 : Svc.Keeps x.1 (workOutSign k x).1 ∧ (workOutSign k x).1.pool.cls .sign = x.1.pool.cls .sign ∧
        (workOutSign k x).2.zones = x.2.zones ∧ (workOutSign k x).2.beacons = x.2.beacons ∧
        (∀ d, (workOutSign k x).2.sign d =
          if d = k then (x.2.sign d).map (workedOut x.1.settings x.2 d) else x.2.sign d) ∧
        ((∀ g, x.2.sign k = some g → (workedOut x.1.settings x.2 k g).state = g.state) → (workOutSign k x).1 = x.1) := by
      unfold workOutSign
      cases hg : x.2.sign k with
      | none =>
        refine ⟨.refl _, rfl, rfl, rfl, fun d => ?_, fun _ => rfl⟩
        by_cases e : d = k
        · subst e; rw [if_pos rfl, hg]; rfl
        · rw [if_neg e]
      | some g =>
        have hsg : ∀ d, (x.2.changeSign k fun _ => workedOut x.1.settings x.2 k g).sign d =
            if d = k then (x.2.sign d).map (workedOut x.1.settings x.2 d) else x.2.sign d := by
          intro d
          rw [sign_changeSign]
          by_cases e : d = k
          · subst e; rw [if_pos rfl, if_pos rfl, hg]; rfl
          · rw [if_neg e, if_neg e]
        dsimp only
        split
        · exact ⟨.refl _, rfl, rfl, rfl, hsg, fun _ => rfl⟩
        · rename_i hne
          exact ⟨Svc.keeps_post .., Svc.sign_post .., rfl, rfl, hsg, fun e => absurd (e g rfl) hne⟩
    obtain ⟨a1, a2, a3, a4, a5, a6⟩ := h1
    obtain ⟨b1, b2, b3, b4, b5, b6⟩ := foldl_workOutSign l (workOutSign k x) hn.2
    refine ⟨a1.trans b1, b2.trans a2, b3.trans a3, b4.trans a4, ?_, ?_⟩
    · intro d
      refine (b5 d).trans ?_
      have hw : workedOut (workOutSign k x).1.settings (workOutSign k x).2 d = workedOut x.1.settings x.2 d := by
        funext g; rw [a1.settings]; exact workedOut_zones a3 d g
      rw [hw, a5]
      by_cases e : d = k
      · subst e; simp [hn.1]
      · simp [e]
    · intro hq
      have hk := a6 fun g hg => hq k g (by simp) hg
      refine (b6 ?_).trans hk
      intro d g hd hg
      have e : d ≠ k := fun c => hn.1 (c ▸ hd)
      rw [a5, if_neg e] at hg
      rw [a1.settings, workedOut_zones a3]
      exact hq d g (List.mem_cons_of_mem _ hd) hg

/-- R95: what working out several beacons does, each once. -/
theorem foldl_workOutBeacon : ∀ (l : List Nat) (x : ZoneSt), l.Nodup →
    let y := l.foldl (fun y b => workOutBeacon b y) x
    y.1 = x.1 ∧ y.2.zones = x.2.zones ∧ y.2.signs = x.2.signs ∧
    (∀ b, nth y.2.beacons b = if b ∈ l then (nth x.2.beacons b).map (fun r =>
      if r.mode = .single then r else r.workedOut x.1.settings x.2 x.1.now b) else nth x.2.beacons b)
  | [], _, _ => ⟨rfl, rfl, rfl, fun _ => rfl⟩
  | k :: l, x, h => by
    intro y
    have hn := List.nodup_cons.1 h
    obtain ⟨b1, b2, b3, b4⟩ := foldl_workOutBeacon l (workOutBeacon k x) hn.2
    have hz : ∀ b (r : Beacon), r.workedOut x.1.settings (workOutBeacon k x).2 x.1.now b =
        r.workedOut x.1.settings x.2 x.1.now b := fun _ _ => rfl
    refine ⟨b1, b2, b3, fun b => (b4 b).trans ?_⟩
    by_cases e : b = k
    · subst e
      rw [if_neg hn.1, if_pos (by simp)]
      exact nth_change_same _ _ _
    · have : nth (workOutBeacon k x).2.beacons b = nth x.2.beacons b := nth_change_other _ _ e
      rw [this]
      simp only [List.mem_cons, e, false_or]
      rfl

/-- R85: a page given up leaves the zones, the beacons and, but for its load and deferred buffers, the signs. -/
theorem giveUpPage_spec (d : Nat) (src : PageSrc) (x : ZoneSt) :
    Svc.Keeps x.1 (giveUpPage d src x).1 ∧ (giveUpPage d src x).2.zones = x.2.zones ∧
      (giveUpPage d src x).2.beacons = x.2.beacons ∧ ∀ k, k ≠ d → (giveUpPage d src x).2.sign k = x.2.sign k := by
  unfold giveUpPage
  split
  · split
    · exact ⟨.refl _, rfl, rfl, fun k hk => Zone.sign_changeSign_other _ _ hk⟩
    · exact ⟨x.1.keeps_freeBuffers .sign 1, rfl, rfl, fun _ _ => rfl⟩
  · exact ⟨x.1.keeps_freeBuffers .sign 1, rfl, rfl, fun _ _ => rfl⟩

end Sys2Proof.Machine
end

