-- ==== Sys2Proof/Tests/Slice0.lean ====
section
/-! SUPPORT. Our own tests: ill-formed terms that the checks refuse, a state that meets the hypotheses of each statement, and a few steps. -/

-- One declaration at a time: a build with a thread for each theorem can ask for more stacks than it may have.
set_option Elab.async false

namespace Sys2Proof.Tests

open Sys2Proof.Machine

/-! ## Small nodes and states -/

/-- A wayside that has started. -/
def way : Node :=
  { Node.fullReset Pins.rest 0 with phase := .started, trib := { Trib.reset with started := true } }

/-- Act on the working settings. -/
def withSet (n : Node) (f : Settings → Settings) : Node := n.onSettings f

/-- A head-end that has started. -/
def hd : Node :=
  { withSet way fun s => { s with role := .headEnd, station := 1 } with head := { Head.reset with started := true } }

/-- A state with this node, a blank store and an empty queue. -/
def st (n : Node) : State := { pending := [], store := [], node := n }

/-- The node some cycle periods later. -/
def later (n : Node) (k : Nat) : Node := n.onSvc fun s => { s with now := k }

/-- A record of gantry 5 with this sequence. -/
def passage (seq : Nat) : TollRecord :=
  { gantry := 5, seq := seq, lane := 1, cls := 1, seconds := 0, millis := 0, confidence := 50, presence := 0,
    tag := List.replicate 8 0, plateLength := 0, plate := List.replicate 10 0 }

/-- An OPEN segment of device 2 with one sample. -/
def seg : Segment :=
  { number := 1, device := 2, state := .opened, batch := none, first := zeroTime, gap := 0, cause := none,
    samples := [{ device := 2, time := zeroTime, quantities := [{ code := 4, value := 10 }] }] }

/-- R186: whether a command can come by a way. -/
def reachesB (s : State) (o : Origin) : Bool :=
  decide (s.node.phase = .started) && (!(Origin.isCentre o) || !s.node.isHead)

/-- R186, R188: whether a command is taken; `takes_of` below gives `Takes` of it. -/
def takesB (s : State) (o : Origin) (c : Command) : Bool :=
  let r := Command.listing c
  reachesB s o && decide (s.node.cmd.channel o = none) &&
    (match r.role with
      | none => true
      | some q => decide (s.node.set.role = q)) &&
    r.takenFrom o && (!(Origin.isCentre o) || !s.node.cmd.held || !(HoldClass.held r.hold)) &&
    (!(Command.needsHold c) || s.node.cmd.held)

theorem reaches_of {s : State} {o : Origin} (h : reachesB s o = true) : Reaches s o := by
  simp only [reachesB, Bool.and_eq_true, decide_eq_true_eq] at h
  exact ⟨h.1, fun c => by simpa [c] using h.2⟩

theorem takes_of {s : State} {o : Origin} {c : Command} (h : takesB s o c = true) : Takes s o c := by
  simp only [takesB, Bool.and_eq_true, decide_eq_true_eq] at h
  obtain ⟨⟨⟨⟨⟨a, b⟩, d⟩, e⟩, f⟩, g⟩ := h
  refine ⟨reaches_of a, b, ?_, e, ?_, ?_⟩
  · intro r hr
    simp only [hr] at d
    simpa using d
  · intro x y
    simpa [x, y] using f
  · intro x
    simpa [x] using g

/-! ## Ill-formed terms are refused -/

/-- 10 section 10.7: a tag above one byte, a forward number of 0. -/
theorem test_illFormed_origin :
    [Instr.portEnable (.link 256) 1, .timeRead (.centre 0), .restart (.link 300),
     .storeAppend (.link 1) (List.replicate 241 0), .forward 256 5 .unknown].map Instr.wf =
      List.replicate 5 false := by decide +kernel

/-- A marker's number, time, voice cap and fold count, and a cycle without its 62 slots. -/
theorem test_illFormed_cycle :
    ([{ number := 65536, time := zeroTime, voiceCap := 16, foldCount := 0, releaseTag := none },
      { number := 0, time := { zeroTime with cycle := 4000 }, voiceCap := 16, foldCount := 0, releaseTag := none },
      { number := 0, time := zeroTime, voiceCap := 3, foldCount := 0, releaseTag := none },
      { number := 0, time := zeroTime, voiceCap := 16, foldCount := 256, releaseTag := none },
      { number := 0, time := zeroTime, voiceCap := 16, foldCount := 0, releaseTag := some 0 }].map fun m =>
        (Instr.cycleArrivesWayside .east { marker := m, content := none } true 0).wf) = List.replicate 5 false ∧
    (Instr.cycleReturns .west
      { marker := { number := 0, time := zeroTime, voiceCap := 16, foldCount := 0, releaseTag := none },
        content := some { mgmt := { token := .free, clearWay := none, lap := 0 }, voice := [], data := [] } }
      true 0).wf = false := by decide +kernel

/-- A management slot and a data slot out of their ranges. -/
theorem test_illFormed_slots :
    [Mgmt.wf { token := .directed 0, clearWay := none, lap := 0 },
     Mgmt.wf { token := .free, clearWay := some 1000, lap := 0 },
     Mgmt.wf { token := .free, clearWay := none, lap := 256 },
     Slot.wf { source := 0, dest := 1, length := 1, seq := 1, body := .message (.callBusy 1) },
     Slot.wf { source := 1, dest := 1000, length := 1, seq := 1, body := .message (.callBusy 1) },
     Slot.wf { source := 1, dest := 1, length := 9, seq := 1, body := .message (.callBusy 1) },
     Slot.wf { source := 1, dest := 1, length := 2, seq := 3, body := .message (.callBusy 1) }] =
      List.replicate 7 false := by decide +kernel

/-- Station, call, port, slot, place and forward numbers out of their ranges. -/
theorem test_illFormed_calls :
    [Instr.commandFwd 0 1 .unknown, .commandFwd 1 0 .unknown, .replyFwd 1000 1 .done .nil, .forwardTimeout 256,
     .probeReceived .east { station := 0, role := .wayside, echo := false }, .forward 1 1000 .unknown,
     .hookContactChange 9 true, .hookDebounceExpiry 0, .repeatTimerExpiry 9, .callQueued 1 1 17,
     .callAssign 1 1 25, .callBusy 0, .callRingAtWayside 1 0 1, .callAnsweredAtWayside 9 1,
     .callClearAtWayside 1 256, .callClearedAtWayside 0 1, .labelRunLimit 9, .callRequest 0 1 zeroTime,
     .callRequest 1 1 { zeroTime with seconds := 4294967296 }, .ringTimerExpiry 0, .callAnsweredAtHeadEnd 1 9 1,
     .callClearAtHeadEnd 1 1 (some 0), .callClearedAtHeadEnd 1000 1 1, .drainTimerExpiry 256].map Instr.wf =
      List.replicate 24 false := by decide +kernel

/-- Beacons, lines, devices, entries, outputs and inputs out of their ranges. -/
theorem test_illFormed_devices :
    [Instr.beaconPhaseExpiry 5, .exchangeReply 9 .corrupt, .exchangeReply 1 (.whole 256 .noSample),
     .replyTimeout 0, .joinDue 9, .rosterDue 17, .holdTimerExpiry 5, .pulseTimerExpiry 0, .restartEnd 9,
     .inputContactChange 5 true, .inputDebounceExpiry 0].map Instr.wf = List.replicate 11 false := by decide +kernel

/-- A toll record without its tag, batch numbers, counts, indices, entries and frame bytes out of their ranges. -/
theorem test_illFormed_batches :
    [Instr.exchangeReply 1 (.whole 1 (.records [{ passage 1 with tag := [] }])),
     .collectAsk 0 .toll 1, .collectAsk 1 .toll 65, .batchHead 1 1 .toll 65,
     .batchItem 1 1 .toll 1 2 (.void (.toll 1 1)), .batchItem 1 1 .weather 1 1 (.segment { seg with number := 0 }),
     .batchEnd 0 1 .toll 1, .batchTimerExpiry 0, .collectAck 256 (.toll []), .noticeFwd 1 [],
     .hostFrameReceived (List.replicate 250 0)].map Instr.wf = List.replicate 11 false := by decide +kernel

/-- Well-formed rows are taken. -/
theorem test_wellFormed :
    [Instr.resetAsserted, .start, .timeRead (.link 255), .forward 0 999 .unknown, .callQueued 8 255 16,
     .batchItem 1 1 .toll 64 64 (.void (.toll 1 1)), .markerMissing .west 70000].map Instr.wf =
      List.replicate 7 true := by decide +kernel

/-! ## Layouts the manual spells out -/

/-- 10 section 10.7: the CRC-16 of the nine digits 1 to 9 from the value 65535. -/
theorem test_crc : crc16 [0x31, 0x32, 0x33, 0x34, 0x35, 0x36, 0x37, 0x38, 0x39] = 0x29B1#16 := by decide +kernel

/-- 10 section 10.7: a frame written out byte by byte is received whole. -/
theorem test_frame :
    frameBytes 1 7 0 9#8 [1#8] =
      [165#8, 1#8, 1#8, 7#8, 0#8, 0#8, 9#8, 1#8] ++ bigEndian 2 (crc16 [1, 1, 7, 0, 0, 9, 1]).toNat ∧
    receive (frameBytes 1 7 0 9#8 [1#8]) =
      .frame { kind := 1, tag := 7, station := 0, code := 9, body := [1], good := true } [] := by decide +kernel

/-- 08 section 8.1.1: a sample record: device 2, time 1 s and cycle 256 with the sync flag, one quantity of −2. -/
theorem test_sampleRecord :
    sampleRecord { device := 2, time := { seconds := 1, cycle := 256, sync := true },
                   quantities := [{ code := 4, value := -2 }] } =
      [2, 0, 0, 0, 1, 1, 0, 129, 4, 255, 254] := by decide +kernel

/-- 07 section 7.5: a toll record is 35 bytes. -/
theorem test_tollRecord :
    (tollBytes { gantry := 258, seq := 1, lane := 3, cls := 4, seconds := 5, millis := 6, confidence := 7,
                 presence := 3, tag := List.replicate 8 9, plateLength := 2, plate := List.replicate 10 32 }) =
      [1, 2, 0, 0, 0, 1, 3, 4, 0, 0, 0, 5, 0, 6, 7, 3, 9, 9, 9, 9, 9, 9, 9, 9, 2,
       32, 32, 32, 32, 32, 32, 32, 32, 32, 32] := by decide +kernel

/-! ## The queue and the machine as a whole: states that meet the hypotheses of the statements -/

/-- A state that takes a record of six bytes: the hold is HELD, and the record is being written. -/
def writingState : State :=
  { st { way with writing := some [0, 6, 0, 11, 1, 18],
                  cmd := { Cmd.reset with held := true,
                                          chanL := some { origin := .link 3, cmd := .storeAppend [0, 6, 0, 11, 1, 18] } } }
    with store := [(0, 0), (1, 6), (2, 0), (3, 10), (4, 1), (5, 17)] }

theorem witness_StepRunsFrontCommand :
    ({ st way with pending := [.frameSent, .timeRead (.link 1)] }).pending = .frameSent :: [.timeRead (.link 1)] := rfl

theorem witness_IdleOrHeldMachineStays :
    State.reset.pending = [] ∧ State.reset.node.phase = .held ∧ State.reset.node.writing = none ∧
    Instr.frameSent ≠ .resetAsserted ∧ Instr.frameSent ≠ .start := by decide +kernel

/-- A RESTART from L while the reset input is held: the channel free and taken, the link not started and started. -/
theorem witness_IdleOrHeldMachineStays_restart :
    (State.reset.node.phase = .held ∧ State.reset.node.link.running = false ∧ State.reset.node.cmd.chanL = none) ∧
    (let n := { way with phase := .held, cmd := writingState.node.cmd };
      (st n).node.phase = .held ∧ (st n).node.link.running = false ∧ (st n).node.cmd.chanL ≠ none) ∧
    { Link.reset with running := true }.running = true := by decide +kernel

theorem witness_RowsLeaveQueueAndStore :
    (∃ t, exec (.zoneStart (.link 1) 1) (st way) = .next t) ∧ Instr.zoneStart (.link 1) 1 ≠ .storeWriteDone ∧
    Instr.zoneStart (.link 1) 1 ≠ .resetAsserted ∧ Instr.zoneStart (.link 1) 1 ≠ .start :=
  ⟨⟨_, rfl⟩, by decide, by decide, by decide⟩

/-- A store with a record in it, and the step that ends the writing of the next one. -/
theorem witness_StepKeepsStoreSound :
    StoreOk { writingState with pending := [.storeWriteDone] } ∧
    ∃ t, step { writingState with pending := [.storeWriteDone] } = .next t := by
  unfold StoreOk
  exact ⟨by decide +kernel, _, rfl⟩

theorem witness_WrittenBytesNeverChange :
    (StoreOk { writingState with pending := [.resetAsserted] } ∧
      ∃ t, step { writingState with pending := [.resetAsserted] } = .next t) ∧
    readByte writingState.store 3 = some 10#8 := by
  unfold StoreOk
  exact ⟨⟨by decide +kernel, _, rfl⟩, by decide +kernel⟩

theorem witness_ResetStateAndItsValues : StoreOk writingState ∧ (st way).node.writing = none := by
  unfold StoreOk
  decide +kernel

theorem witness_StartRunsTheNode :
    State.reset.node.phase = .held ∧ (st { way with restartDue := true }).node.restartDue = true := by decide +kernel

theorem witness_StartOnBlankStore :
    State.reset.node.phase = .held ∧ State.reset.store = [] ∧ State.reset.node.writing = none := by decide +kernel

theorem witness_BusyAndRefusedCommandsAreAnswered :
    (rowCommand (.timeRead (.link 1)) = some (.link 1, .timeRead) ∧ reachesB writingState (.link 1) = true ∧
      writingState.node.cmd.channel (.link 1) ≠ none) ∧
    (reachesB (st way) (.link 1) = true ∧ reachesB (st hd) (.link 1) = true ∧ reachesB (st way) (.centre 1) = true ∧
      (st way).node.cmd.channel (.centre 1) = none ∧ (st hd).node.cmd.channel (.link 1) = none) ∧
    ((Command.listing .surveyStart).role = some .headEnd ∧ (st way).node.set.role = .wayside) ∧
    ((Command.listing .zoneStatus).role = some .wayside ∧ (st hd).node.set.role = .headEnd) ∧
    (rowCommand (.surveyStart (.link 1)) = some (.link 1, .surveyStart) ∧
      rowCommand (.zoneStatus (.link 1)) = some (.link 1, .zoneStatus) ∧
      rowCommand (.maintHold (.centre 1)) = some (.centre 1, .maintHold) ∧
      rowCommand (.lineReset (.centre 1) 1) = some (.centre 1, .lineReset 1) ∧
      rowCommand (.storeAppend (.link 1) []) = some (.link 1, .storeAppend [])) ∧
    (Command.listing .maintHold).takenFrom (.centre 1) = false ∧
    (HoldClass.held (Command.listing (.lineReset 1)).hold = true ∧
      (Command.listing (.lineReset 1)).takenFrom (.centre 1) = true ∧ writingState.node.cmd.held = true) ∧
    (Command.needsHold (.storeAppend []) = true ∧ (st way).node.cmd.held = false ∧
      (Command.listing (.storeAppend [])).takenFrom (.link 1) = true) := by decide +kernel

/-! ## Line ports, cycles and the ring -/

/-- Both ports in a state, with a marker seen. -/
def ports (e w : PortState) (n : Node) : Node :=
  { n with east := { Port.reset with state := e, transmit := true, markerSeen := true }
           west := { Port.reset with state := w, transmit := true, markerSeen := true } }

theorem witness_PortEventsMovePorts :
    (st (ports .run .run way)).node.phase = .started ∧
    (∀ x ∈ [PortState.probeSend, .probeEcho, .align, .recover, .disabled, .dark, .loopback, .run],
      ((st (ports x .run way)).node.port .east).state = x) ∧
    ((st (ports .dark .dark way)).node.port .west).transmit = true ∧
    Config.recoverLimit ≤ (st (later (ports .recover .run way) 200)).node.svc.now -
      ((st (later (ports .recover .run way) 200)).node.port .east).entered ∧
    ((st (ports .probeEcho .run hd)).node.port .east).conflict = false ∧
    (∀ n ∈ [way, hd], ∀ k ∈ [false, true],
      let r := (st ((ports .probeEcho .run n).onPort .east fun r => { r with conflict := k })).node.port .east;
      r.state = .probeEcho ∧ r.conflict = k) ∧
    (∀ x ∈ [Role.headEnd, .wayside], ({ station := 7, role := x, echo := true } : Probe).role = x) ∧
    (st way).node.isHead = false ∧ (st hd).node.isHead = true ∧ (st hd).node.head.origin = .east ∧
    ({ way with ring := { Ring.reset with attach := .through } }).ring.attach = .through ∧
    ({ way with ring := { Ring.reset with attach := .foldWest } }).ring.attach = foldTo (otherPort .east) := by
  decide +kernel

theorem witness_MissingMarkers :
    (∀ m ∈ [0, 1, 2, 254], (st { ports .run .run way with
        east := { (ports .run .run way).east with missing := m } }).node.phase = .started ∧
      PortState.classifies (ports .run .run way).east.state = true ∧ m < 255) ∧
    PortState.classifies (ports .align .run way).east.state = true ∧
    (ports .run .run way).east.errNow ≤ way.set.errorThreshold ∧ (ports .run .run way).east.markerSeen = true := by
  decide +kernel

theorem witness_PortCommands :
    (portOf 0 = none ∧ portOf 3 = none ∧ portOf 1 = some .east ∧ portOf 2 = some .west) ∧
    (∀ x ∈ [PortState.disabled, .dark, .loopback, .run], ∀ c ∈ [Command.portEnable 1, .portDisable 1, .portReset 1,
      .portLoopback 1, .portEnable 0, .portDisable 0, .portReset 3, .portLoopback 3],
      takesB (st (ports x .run way)) (.link 1) c = true ∧ takesB (st (ports x .run way)) (.centre 1) c = true ∧
      takesB (st (ports x .run hd)) (.link 1) c = true ∧ ((st (ports x .run way)).node.port .east).state = x) := by
  decide +kernel

theorem witness_PortCommands_sends :
    (∀ x ∈ [PortState.disabled, .dark, .probeSend, .probeEcho, .loopback, .align, .run, .recover],
      ((ports x .run way).port .east).state = x ∧ ((ports x .run way).port .east).sent = none) ∧
    ({ Port.reset with transmit := false }).state = .dark ∧
    (ports .probeEcho .dark way).sends .east = .probe { station := 999, role := .wayside, echo := true } ∧
    (ports .probeEcho .dark way).sends .west = .probe { station := 999, role := .wayside, echo := false } := by
  decide +kernel

/-- A bare and a full outer cycle. -/
def bareCycle : Cycle :=
  { marker := { number := 9, time := { seconds := 5, cycle := 6, sync := true }, voiceCap := 16, foldCount := 0,
                releaseTag := none }, content := none }

/-- The content of an empty cycle. -/
def emptyContent : Content :=
  { mgmt := { token := .empty, clearWay := none, lap := 0 },
    voice := List.replicate 16 { label := 0, connected := false, down := .filler, up := .filler },
    data := List.replicate 46 none }

theorem witness_WaysideTimeAdvances :
    (st way).node.phase = .started ∧ (st way).node.isHead = false ∧ (st way).node.svc.time.seconds < 4294967296 ∧
    (way.setTime { seconds := 4294967295, cycle := 3999, sync := true }).svc.time.seconds < 4294967296 := by
  decide +kernel

/-- A normal holding with nothing begun. -/
def holding : Holding :=
  { directed := false, quota := 0, burst := 8, started := false, begun := none, handOver := none }

/-- A wayside with this holding of the outer loop and this lap lock. -/
def holdingNode (h : Option Holding) (k : Option Nat) : Node :=
  way.onLoop .outer fun w => { w with present := true, holding := h, lapLock := k }

/-- A full cycle at each of a THROUGH and an ORPHAN wayside; first passages and later ones; and what a wayside may hold
or see in the management slot. -/
theorem witness_WaysideTimeAdvances_cycles :
    (∀ a ∈ [Attach.through, .orphan], ∀ x ∈ [PortState.align, .run],
      let s := st { ports x .run way with ring := { Ring.reset with attach := a } }
      s.node.phase = .started ∧ s.node.isHead = false ∧ (s.node.port .east).state = x ∧ s.node.ring.attach = a) ∧
    { bareCycle with content := some emptyContent }.content = some emptyContent ∧
    (let inner : Cycle := { bareCycle with marker := { bareCycle.marker with voiceCap := 0 } };
      inner.loop = .inner ∧ bareCycle.loop = .outer ∧ way.firstPassage inner = true ∧
      (∀ x ∈ [none, some 7], ∀ a ∈ [Attach.through, .orphan],
        let c : Cycle := { bareCycle with marker := { bareCycle.marker with releaseTag := x } };
        let n : Node := { way with ring := { Ring.reset with attach := a } };
        c.loop = .outer ∧ n.firstPassage c = true ∧ c.marker.releaseTag = x ∧ n.ring.attach = a) ∧
      (∀ k ∈ [9, 10, 4008], ∀ n ∈ [way, holdingNode none none],
        ({ n with ring := { Ring.reset with lastOuter := some k } }).firstPassage bareCycle = false) ∧
      (∀ k ∈ [8, 4009, 65535], ({ way with ring := { Ring.reset with lastOuter := some k } }).firstPassage
        bareCycle = true)) ∧
    (∀ h ∈ [none, some holding], ∀ k ∈ [none, some 3],
      ((holdingNode h k).win.loop .outer).holding = h ∧ ((holdingNode h k).win.loop .outer).lapLock = k) ∧
    (∀ t ∈ [TokenField.free, .empty, .directed 999, .directed 7], ∀ c ∈ [none, some 999, some 7],
      let m : Mgmt := { token := t, clearWay := c, lap := 3 };
      m.token = t ∧ m.clearWay = c) ∧
    (way.me = 999 ∧ way.svc.queues.emergency = [] ∧ way.svc.queues.normal = [] ∧ way.win.survey = none) := by
  decide +kernel

/-- A cycle at a folded wayside, at its good and at its failed port, restoring or not; and at a port that carries none. -/
theorem witness_WaysideTimeAdvances_arrivals :
    (∀ a ∈ [Attach.foldEast, .foldWest], ∀ b ∈ [true, false], ∀ x ∈ [PortState.align, .run, .recover, .dark],
      let s := st { ports x .run way with ring := { Ring.reset with attach := a, restoring := b } }
      s.node.phase = .started ∧ s.node.isHead = false ∧ (s.node.port .east).state = x ∧ s.node.ring.attach = a ∧
      s.node.ring.restoring = b) ∧
    Attach.foldEast = foldTo .east ∧ Attach.foldWest = foldTo (otherPort .east) ∧
    PortState.carries .dark = false ∧ PortState.carries .recover = true ∧ bareCycle.content = none ∧
    { bareCycle with content := some emptyContent }.content ≠ none ∧ (ports .loopback .run way).east.state = .loopback ∧
    bareCycle.marker.time.seconds ≠ way.svc.time.seconds := by decide +kernel

/-- A waiting message, begun or not. -/
def waitingMsg (b : Option Loop) : QMsg :=
  { id := 4, begun := b, msg := { source := 999, dest := 1, length := 2, payload := .callBusy 1 } }

/-- A wayside with these queues. -/
def queued (e : List QMsg) (l : List NEntry) : Node :=
  way.onSvc fun s => { s with queues := { s.queues with emergency := e, normal := l } }

/-- What a holding may have begun and what it may choose: an emergency message, a normal one that fits and one that does
not, or nothing. -/
theorem witness_WaysideTimeAdvances_placing :
    (∀ h ∈ [holding, { holding with directed := true }, { holding with started := true, quota := 6 },
        { holding with started := true, quota := 7 }, { holding with handOver := some 7 }],
      ((holdingNode (some h) none).win.loop .outer).holding = some h) ∧
    (queued [waitingMsg (some .inner), waitingMsg none] []).svc.queues.emergency.find? (fun m => m.begun.isNone) =
      some (waitingMsg none) ∧
    (queued [waitingMsg (some .inner)] []).svc.queues.emergency.find? (fun m => m.begun.isNone) = none ∧
    holding.begun = none ∧ holding.directed = false ∧ holding.handOver = none ∧ way.win.survey = none ∧
    (hd.onWin fun w => { w with survey := some 1 }).win.survey = some 1 ∧
    (waitingMsg none).begun = none ∧ (waitingMsg (some .inner)).begun ≠ none ∧
    (slotsOf (waitingMsg none).msg).length = 2 ∧ (way.choose .outer holding) = (way, none) ∧
    ((queued [waitingMsg none] []).choose .outer { holding with directed := true }).2 =
      some { src := .emergency 4, slots := slotsOf (waitingMsg none).msg } ∧
    ((queued [] [.msg (waitingMsg none)]).choose .outer { holding with started := true, quota := 6 }).2 =
      some { src := .normal 4, slots := slotsOf (waitingMsg none).msg } ∧
    ((queued [] [.msg (waitingMsg none)]).choose .outer { holding with started := true, quota := 7 }).2 = none := by
  decide +kernel

/-- Both ports of a head-end running in a CLOSED ring, with its origin here. -/
def origin (p : PortId) : Node :=
  { ports .run .run hd with head := { hd.head with state := .closed, origin := p } }

/-- Ports about to change state, seen by RING at either role; and how a wayside and a head-end may stand to them. -/
theorem witness_MissingMarkers_changes :
    (∀ x ∈ [PortState.disabled, .dark, .probeSend, .align, .run, .recover, .loopback], ∀ b ∈ [true, false],
      let n := (ports x .run way).onPort .east fun r => { r with markerSeen := b, good := 7, missing := 2, errNow := 40 };
      (st n).node.phase = .started ∧ (n.port .east).state = x ∧ (n.port .east).markerSeen = b ∧
      n.set.errorThreshold < (n.port .east).errNow + 1) ∧
    (PortState.isProbe .align = false ∧ PortState.isProbe .run = false) ∧
    (∀ a ∈ [Attach.through, foldTo .east, foldTo (otherPort .east), .orphan], ∀ x ∈ [PortState.run, .dark],
      let n := { ports .run x way with ring := { Ring.reset with attach := a } };
      n.ring.attach = a ∧ (n.port (otherPort .east)).state = x) ∧
    (∀ p ∈ [PortId.east, .west], (origin p).head.origin = p) ∧ Attach.through ≠ .orphan ∧
    (let n := (ports .align .run way).onPort .east fun r => { r with good := 7 };
      ((n.classify .east true 0).port .east).state = .run) := by decide +kernel

theorem witness_HeadEndOriginates :
    ∀ p ∈ [PortId.east, .west],
      let s := st (origin p)
      s.node.phase = .started ∧ s.node.isHead = true ∧ s.node.head.started = true ∧ s.node.head.origin = p ∧
      s.node.head.state = .closed ∧ PortState.carries (s.node.port s.node.head.origin).state = true ∧
      PortState.carries s.node.east.state = true ∧ PortState.carries s.node.west.state = true ∧
      s.node.set.voiceCap ≤ 24 := by decide +kernel

/-- What the head-end may carry, know or have recorded for a loop, and a cycle that returns at EAST. -/
theorem witness_HeadEndOriginates_tokens :
    (∀ c ∈ [none, some TokenField.empty, some .free, some (.directed 1), some (.directed 7)],
      ∀ w ∈ [none, some 1, some 7], ∀ b ∈ [true, false],
      let n := hd.onLoop .outer fun l => { l with carried := c, clearWay := w, opening := b, record := w };
      let l := n.win.loop .outer;
      l.carried = c ∧ l.clearWay = w ∧ l.opening = b ∧ l.record = w ∧ l.holding = none ∧ l.lap = 0 ∧ n.me = 1 ∧
      n.svc.queues.emergency = [] ∧ n.svc.queues.normal = [] ∧ n.win.survey = none) ∧
    ((hd.onWin fun w => { w with survey := some 1 }).win.survey.isSome = true ∧
      ((hd.onLoop .outer fun l => { l with holding := some holding }).win.loop .outer).holding ≠ none) ∧
    ((hd.onLoop .outer fun l => { l with clearWay := some 7, cwFirst := some 8 }).win.loop .outer).cwFirst = some 8 ∧
    notBefore 9 8 = true ∧ notBefore 8 9 = false ∧
    (∀ f ∈ [0, 1], let c : Cycle := { bareCycle with content := some emptyContent,
                                                     marker := { bareCycle.marker with foldCount := f } };
      c.content = some emptyContent ∧ c.marker.foldCount = f) := by decide +kernel

theorem witness_BareCycleAtWayside :
    (∀ a ∈ [Attach.through, .orphan, .foldWest, .foldEast],
      let s := st { ports .run .run way with ring := { Ring.reset with attach := a } }
      s.node.phase = .started ∧ s.node.isHead = false ∧ PortState.carries (s.node.port .east).state = true ∧
      (s.node.port .east).state ≠ .align ∧ (s.node.port .east).state ≠ .recover ∧
      (s.node.port .east).errNow ≤ s.node.set.errorThreshold ∧ s.node.ring.attach = a) ∧
    bareCycle.content = none ∧ Attach.foldWest = foldTo (otherPort .east) := by decide +kernel

/-- A head-end of a CLOSED ring that waits to restore, with a survey in progress. -/
def restoringHead : Head :=
  { hd.head with
    restoring := true, timer := some 9, state := .closed, origin := .west,
    survey := some { number := 1, kind := .closed, start := 0, entries := [], overflow := false } }

theorem witness_RingTimersExpire :
    (let s := st (later { way with ring := { Ring.reset with attach := .through } } 3);
      s.node.phase = .started ∧ s.node.isHead = false ∧ s.node.ring.attach ≠ .orphan ∧
      3 ≤ s.node.svc.now - s.node.ring.lastGood) ∧
    (let s := st (later { way with ring := { Ring.reset with attach := .foldEast, restoring := true,
                                                             timer := some 5 } } 5);
      s.node.ring.restoring = true ∧ due s.node.svc.now s.node.ring.timer = true) ∧
    (let s := st (later { hd with head := restoringHead } 4000);
      s.node.phase = .started ∧ s.node.isHead = true ∧ s.node.head.restoring = true ∧
      due s.node.svc.now s.node.head.timer = true ∧ 3 ≤ s.node.svc.now - s.node.head.lastReturn ∧
      s.node.head.state ≠ .opened ∧ (s.node.head.survey.map fun o => decide (4000 ≤ s.node.svc.now - o.start)) =
        some true) ∧
    { restoringHead with state := .opened }.state = .opened := by decide +kernel

theorem witness_ReturnsMakeTheRingState :
    (st (ports .run .run hd)).node.phase = .started ∧ (st (ports .run .run hd)).node.isHead = true ∧
    PortState.carries (st (ports .run .run hd)).node.west.state = true ∧
    ({ bareCycle with content := some emptyContent }).content = some emptyContent ∧
    ({ bareCycle with marker := { bareCycle.marker with foldCount := 1 } }).marker.foldCount ≠ 0 := by decide +kernel

/-- The map entry of a station. -/
def entry (n : Nat) (p : Presence) : MapEntry :=
  { station := n, position := some 1, presence := p, via := .outer, attach := .through, heard := zeroTime }

/-- A head-end that knows stations 2, 3 and 4. -/
def hdMap : Node :=
  { hd with head := { hd.head with state := .closed, map := [entry 2 .present, entry 3 .duplicate,
                                                             entry 4 .unreachable] } }

theorem witness_TimeSetAndSurveyStart :
    takesB (st hd) (.link 1) (.timeSet 4294967295) = true ∧ takesB (st hd) (.link 1) (.timeSet 4294967296) = true ∧
    takesB (st hd) (.link 1) .surveyStart = true := by decide +kernel

/-- Slot `q` of 8 of survey 5, with room for two entries and `l` in it. -/
def surveySlot (q : Nat) (l : List SurveyEntry) : Slot :=
  { source := 1, dest := 0, length := 8, seq := q, body := .survey 5 2 l false }

/-- A station's entry. -/
def surveyed (k : Nat) : SurveyEntry := { station := k, attach := .through, foldSeen := 0 }

/-- Survey 5 answered or not; slots full but for the first empty place, or full with the last slot there or not. -/
theorem witness_TimeSetAndSurveyStart_survey :
    way.ring.lastSurvey ≠ some 5 ∧ ({ Ring.reset with lastSurvey := some 5 }).lastSurvey = some 5 ∧
    (let full := some (surveySlot 1 [surveyed 2, surveyed 3]);
      [full, some (surveySlot 2 [surveyed 4]), none] = [full] ++ some (surveySlot 2 [surveyed 4]) :: [none] ∧
      [surveyed 4].length < 2 ∧ 2 ≤ [surveyed 2, surveyed 3].length ∧ [full].any (isLastOf 5) = false ∧
      [some (surveySlot 8 [surveyed 2, surveyed 3])].any (isLastOf 5) = true) := by decide +kernel

/-- A survey in progress, with a number that appears once, one that appears twice, the head-end's own, and none of 2. -/
theorem witness_TimeSetAndSurveyStart_end :
    let es := [surveyed 7, surveyed 9, surveyed 9, surveyed 1]
    let sv (k : SurveyKind) : Survey := { number := 5, kind := k, start := 0, entries := es, overflow := false }
    (∀ k ∈ [SurveyKind.closed, .presence],
      let n := hdMap.onHead fun h => { h with survey := some (sv k) };
      n.head.survey = some (sv k) ∧ (sv k).kind = k ∧ n.head.map.length + (sv k).entries.length ≤ 48) ∧
    (surveySlot 7 []).body = .survey 5 2 [] false ∧ (surveySlot 7 []).seq < (surveySlot 7 []).length ∧
    (surveySlot 8 []).length ≤ (surveySlot 8 []).seq ∧
    es = [] ++ surveyed 7 :: [surveyed 9, surveyed 9, surveyed 1] ∧
    (∀ x ∈ ([] ++ [surveyed 9, surveyed 9, surveyed 1] : List SurveyEntry), x.station ≠ 7) ∧ hdMap.me = 1 ∧
    1 < (es.filter fun x => x.station = 9).length ∧ hdMap.head.entry 2 = some (entry 2 .present) ∧
    (∀ x ∈ es, x.station ≠ 2) := by decide +kernel

/-- A message of one slot and of two, and the partial message that the second slot extends. -/
theorem witness_TimeSetAndSurveyStart_reassembly :
    let slot (q n : Nat) : Slot :=
      { source := 1, dest := 999, length := n, seq := q, body := .message (.callBusy 1) }
    let q : Partial := { source := 1, loop := .outer, dest := 999, length := 2, next := 2, shares := [.callBusy 1] }
    (slot 1 1).seq = 1 ∧ (slot 1 1).length = 1 ∧ 1 < (slot 1 2).length ∧ (slot 2 3).seq < (slot 2 3).length ∧
    [q].find? (fun x => x.source = (slot 2 3).source && x.loop = .outer) = some q ∧ q.next = (slot 2 3).seq ∧
    [q].find? (fun x => x.source = (slot 2 2).source && x.loop = .outer) = some q ∧ (slot 2 2).length ≤ (slot 2 2).seq ∧
    (∀ x ∈ q.shares, x = .callBusy 1) ∧ takesKind .wayside (.callBusy 1) = true ∧
    takesKind .headEnd (.callBusy 1) = false ∧
    ([q].find? (fun x => x.source = (slot 3 3).source && x.loop = .outer)).map Partial.next ≠ some (slot 3 3).seq := by
  decide +kernel

/-! ## The data window and forwarding -/

/-- An entry of the forward table. -/
def fwd (k : Nat) : Forward :=
  { number := k, station := 2, tag := 7, startCycle := 0, start := 0, cmd := .command .timeRead }

theorem witness_LoopTimers :
    (let s := st (later { hd with win := { Win.reset with outer := { LoopSt.reset with timer := some 0 } } } 2000);
      s.node.phase = .started ∧ s.node.isHead = true ∧ (s.node.win.loop .outer).timer = some 0 ∧
      s.node.set.tokenLossLimit ≤ s.node.svc.now - 0) ∧
    (let s := st (later { way with win := { Win.reset with inner := { LoopSt.reset with present := true } } } 3);
      s.node.phase = .started ∧ s.node.isHead = false ∧ (s.node.win.loop .inner).present = true ∧
      3 ≤ s.node.svc.now - (s.node.win.loop .inner).lastSeen) := by decide +kernel

theorem witness_ForwardIsTaken :
    (st hdMap).node.phase = .started ∧ (st hdMap).node.cmd.chanL = none ∧ Parsed.command .timeRead ≠ .unknown ∧
    writingState.node.phase = .started ∧ writingState.node.cmd.chanL ≠ none ∧
    (st way).node.isHead = false ∧ (st hdMap).node.isHead = true ∧ (st hdMap).node.cmd.forwards.length < 4 ∧
    4 ≤ (st { hdMap with cmd := { Cmd.reset with forwards := [fwd 1, fwd 2, fwd 3, fwd 4] } }).node.cmd.forwards.length ∧
    ([5, 4, 3, 2].map fun k => ((st hdMap).node.head.entry k).map MapEntry.presence) =
      [none, some .unreachable, some .duplicate, some .present] := by decide +kernel

theorem witness_CommandFwdActsOnChannelC :
    (st way).node.phase = .started ∧ (st way).node.isHead = false ∧ (st way).node.cmd.chanC = none ∧
    rowCommand (.timeRead (.centre 4)) = some (.centre 4, .timeRead) := by decide +kernel

theorem witness_ForwardsEnd :
    (let s := st (later { hdMap with cmd := { Cmd.reset with forwards := [fwd 1] } } 8000);
      s.node.phase = .started ∧ s.node.isHead = true ∧
      s.node.cmd.forwards.find? (fun e => e.number = 1 && e.station = 2) = some (fwd 1) ∧
      s.node.cmd.forwards.find? (fun e => e.number = 2 && e.station = 2) = none ∧
      s.node.cmd.forwards.find? (fun e => e.number = 1) = some (fwd 1) ∧
      s.node.set.forwardTimeout * 4 ≤ s.node.svc.now - (fwd 1).start) ∧
    (let s := st { hdMap with cmd := { Cmd.reset with forwards := [fwd 1] } };
      s.node.svc.now - (fwd 1).start < s.node.set.forwardTimeout * 4 ∧
      s.node.cmd.forwards.find? (fun e => e.number = 2) = none) ∧
    ((st way).node.phase = .started ∧ (st way).node.isHead = false ∧ (st way).node.cmd.chanC = none ∧
      (st { way with cmd := { Cmd.reset with chanC := some { origin := .centre 3, cmd := .timeRead } } }).node.cmd.chanC
        ≠ none ∧ rowCommand (.timeRead (.centre 4)) = some (.centre 4, .timeRead)) := by decide +kernel

/-! ## Emergency calls -/

/-- A wayside whose port 1 has this record. -/
def phoneAt (r : Phone) (n : Node) : Node := { n with call := { n.call with phones := put n.call.phones 1 r } }

/-- A record in a state, its contact timed and its timer run out, with call 9 and slot 3. -/
def record (x : PhoneState) (off : Bool) : Phone :=
  { Phone.reset with state := x, offHook := off, timing := some 0, timer := some 0, call := some 9, slot := some 3,
                     requested := some zeroTime }

theorem witness_HookActsOnTheRecord :
    (∀ x ∈ [PhoneState.idle, .requesting, .hung, .queued, .alerting, .connected, .ringing], ∀ b ∈ [true, false],
      let s := st (phoneAt (record x b) way)
      s.node.phase = .started ∧ s.node.isHead = false ∧ s.node.phone 1 = some (record x b) ∧
      due s.node.svc.now (record x b).timing = true ∧ (record x b).heldOff = false) ∧
    (let s := st (phoneAt (record .idle false) (withSet way fun w => { w with portZones := [2, 0, 0, 0, 0, 0, 0, 0] }));
      s.node.portZone 1 = 2 ∧ nth s.node.zone.zones 2 = some { causes := [], since := none }) := by decide +kernel

theorem witness_HookActsOnTheRecord_heldOff :
    ∀ x ∈ [PhoneState.clearing, .hung, .requesting], ∀ b ∈ [true, false],
      let r := { record x b with heldOff := true }
      let s := st (phoneAt r way)
      s.node.phase = .started ∧ s.node.isHead = false ∧ s.node.phone 1 = some r ∧
      due s.node.svc.now r.timing = true ∧ r.heldOff = true := by decide +kernel

theorem witness_RepeatTimerExpires :
    ∀ x ∈ [PhoneState.requesting, .queued, .clearing], ∀ c ∈ [0, 2, 3],
      let r := { record x false with count := c }
      let s := st (phoneAt r way)
      s.node.phase = .started ∧ s.node.isHead = false ∧ s.node.phone 1 = some r ∧
      due s.node.svc.now r.timer = true ∧ r.requested = some zeroTime ∧ r.count ≤ 3 ∧ r.heldOff = false ∧
      r.offHook = false := by decide +kernel

theorem witness_RepeatTimerExpires_again :
    (∀ b ∈ [true, false], ∀ k ∈ [true, false], ∀ a ∈ [Attach.orphan, .through],
      let r := { record .clearing b with heldOff := k, count := 3 }
      let n := { phoneAt r way with ring := { Ring.reset with attach := a } }
      n.phone 1 = some r ∧ r.offHook = b ∧ r.heldOff = k ∧ 3 ≤ r.count ∧ n.ring.attach = a ∧
      due n.svc.now r.timer = true ∧ n.portZone 1 = 0) ∧
    (withSet way fun w => { w with portZones := [2, 0, 0, 0, 0, 0, 0, 0] }).portZone 1 ≠ 0 := by decide +kernel

theorem witness_CallMessagesAtWayside :
    ∀ x ∈ [PhoneState.idle, .requesting, .queued, .alerting, .connected, .ringing, .clearing, .hung],
      let s := st (phoneAt (record x false) way)
      s.node.phase = .started ∧ s.node.isHead = false ∧ s.node.phone 1 = some (record x false) ∧
      (record x false).call = some 9 ∧ (record x false).call ≠ some 8 := by decide +kernel

theorem witness_CallMessagesAtWayside_outputs :
    (∀ x ∈ [PhoneState.idle, .requesting, .queued, .alerting, .connected, .ringing, .clearing, .hung],
      (phoneAt (record x true) way).phone 1 = some (record x true) ∧ (record x true).state = x) ∧
    (let n := { phoneAt { record .alerting true with hears := .filler } (holdingNode none none) with
      ring := { Ring.reset with attach := .through } };
      n.handset 1 = .filler ∧ (later n 2).handset 1 = .silence) := by decide +kernel

theorem witness_CallsClearAtWayside :
    (∀ x ∈ [PhoneState.idle, .requesting, .queued, .alerting, .connected, .ringing, .clearing, .hung],
      let r := { record x false with labelRun := 8 }
      let s := st (phoneAt r way)
      s.node.phase = .started ∧ s.node.isHead = false ∧ s.node.phone 1 = some r ∧ r.call = some 9 ∧
      r.call ≠ some 8 ∧ r.offHook = false ∧ r.heldOff = false ∧ r.labelRun = 8) ∧
    (∀ x ∈ [PhoneState.alerting, .connected, .ringing],
      (phoneAt (record x true) way).phone 1 = some (record x true) ∧ (record x true).slot = some 3 ∧
      (record x true).labelRun ≠ 8) ∧
    (∀ c ∈ [true, false], ∀ k ∈ [8, 9],
      let u : VoiceSlot := { label := k, connected := c, down := .filler, up := .filler };
      nth [u, u, u] 3 = some u ∧ nth [u, u] 3 = none ∧ ((record .alerting true).call = some u.label ↔ k = 9)) := by
  decide +kernel

theorem witness_CallsClearAtWayside_timed :
    ∀ x ∈ [PhoneState.queued, .alerting, .connected, .ringing, .clearing],
      let r := { record x true with labelRun := 8, heldOff := true }
      (st (phoneAt r way)).node.phone 1 = some r ∧ r.call = some 9 ∧ r.offHook = true ∧ r.timing ≠ none ∧
      r.labelRun = 8 := by decide +kernel

/-- A call table entry of station 2, port 1, number 9 and slot 3. -/
def callIn (x : CallState) : CallEntry :=
  { number := 9, station := 2, port := 1, state := x, slot := some 3, console := none, arrival := zeroTime,
    ring := some 0, drain := some 0, cause := none }

/-- A head-end with these calls. -/
def calls (l : List CallEntry) : Node := { hdMap with call := { Call.reset with table := l } }

/-- A head-end with every slot within the cap of 4 held, and this many calls waiting. -/
def fullCalls (k : Nat) : Node :=
  let l := (places 4).map fun j => { callIn .connected with number := 100 + j, port := j + 1, slot := some j }
  let n := withSet (calls l) fun s => { s with voiceCap := 4 }
  { n with call := { n.call with waiting := List.replicate k 200 } }

theorem witness_CallRequestIsTaken :
    ((st (calls [])).node.phase = .started ∧ (st (calls [])).node.isHead = true ∧
      (st (calls [])).node.call.pair 2 1 = none ∧
      (st (calls [])).node.call.freeSlot (st (calls [])).node.set.voiceCap = some 1) ∧
    (∀ k ∈ [0, 15, 16], (st (fullCalls k)).node.call.pair 2 1 = none ∧
      (st (fullCalls k)).node.call.freeSlot (st (fullCalls k)).node.set.voiceCap = none ∧
      (st (fullCalls k)).node.call.waiting.length = k) ∧
    (∀ x ∈ [CallState.clearing, .queued, .alerting, .connected, .ringing],
      (st (calls [callIn x])).node.call.pair 2 1 = some (callIn x) ∧ (callIn x).slot = some 3) := by decide +kernel

theorem witness_CallAnswerAndEnd :
    (∀ x ∈ [CallState.clearing, .queued, .alerting, .connected, .ringing], ∀ c ∈ [0, 1, 9, 255, 256],
      takesB (st (calls [callIn x])) (.link 1) (.callAnswer c 1) = true ∧
      takesB (st (calls [callIn x])) (.link 1) (.callEnd c) = true ∧
      (st (calls [callIn x])).node.call.entry 9 = some (callIn x) ∧
      (st (calls [callIn x])).node.call.entry 255 = none) ∧
    (st (calls [callIn .alerting])).node.call.consoleCall 1 = none ∧
    ((st (calls [callIn .alerting, { callIn .connected with number := 8, console := some 1 }])).node.call.consoleCall
      1).isSome = true := by decide +kernel

/-- A CLEARING call drained, with none, one or 16 calls waiting; and a call that waits for the slot that is free. -/
theorem witness_CallAnswerAndEnd_drain :
    (let s := st (calls [callIn .clearing]);
      s.node.phase = .started ∧ s.node.isHead = true ∧ s.node.call.entry 9 = some (callIn .clearing) ∧
      due s.node.svc.now (callIn .clearing).drain = true ∧ s.node.call.waiting = []) ∧
    (fullCalls 1).call.freeSlot (fullCalls 1).set.voiceCap = none ∧
    (let n := calls [{ callIn .queued with slot := none }];
      let n := { n with call := { n.call with waiting := [9] } };
      n.call.freeSlot n.set.voiceCap = some 1 ∧ n.call.waiting = 9 :: [] ∧
      n.call.entry 9 = some { callIn .queued with slot := none }) := by decide +kernel

theorem witness_CallRingAndVoiceCap :
    takesB (st (calls [])) (.link 1) (.callRing 2 1 1) = true ∧ takesB (st (calls [])) (.link 1) (.callRing 0 1 1) = true ∧
    ([2, 3, 4, 5].map fun k => ((st (calls [])).node.head.entry k).map MapEntry.presence) =
      [some .present, some .duplicate, some .unreachable, none] ∧
    ((st (calls [callIn .ringing])).node.call.pair 2 1).isSome = true ∧
    ((st (calls [])).node.call.pair 2 1 = none ∧ (st (calls [])).node.call.consoleCall 1 = none ∧
      (st (calls [])).node.call.freeSlot (st (calls [])).node.set.voiceCap = some 1) ∧
    (st (fullCalls 0)).node.call.freeSlot (st (fullCalls 0)).node.set.voiceCap = none ∧
    (∀ c ∈ [3, 4, 24, 25], takesB (st (calls [callIn .ringing])) (.link 1) (.voiceCapSet c) = true) ∧
    ((places 24).any fun k => decide (4 < k) && ((st (fullCalls 0)).node.call.holder k).isSome) = false ∧
    ((places 24).any fun k => decide (2 < k) && ((st (calls [callIn .ringing])).node.call.holder k).isSome) = true ∧
    (st (calls [])).node.call.waiting = [] := by decide +kernel

theorem witness_HeadEndCallsGoOn :
    ∀ x ∈ [CallState.clearing, .queued, .alerting, .connected, .ringing],
      let s := st (calls [callIn x])
      s.node.phase = .started ∧ s.node.isHead = true ∧ s.node.call.entry 9 = some (callIn x) ∧
      s.node.call.pair (callIn x).station (callIn x).port = some (callIn x) ∧ s.node.call.waiting = [] ∧
      due s.node.svc.now (callIn x).ring = true ∧ due s.node.svc.now (callIn x).drain = true := by decide +kernel

/-- Slots of an originated cycle: FREE, and held by an entry in each state; a head-end that originates. -/
theorem witness_HeadEndCallsGoOn_slots :
    (∀ x ∈ [CallState.clearing, .queued, .alerting, .connected, .ringing],
      let e : CallEntry := { callIn x with console := some 2 };
      (calls [e]).call.table = [] ++ e :: [] ∧ e.slot = some 3 ∧ e.state = x ∧ e.console = some 2 ∧
      ∀ y ∈ (calls [e]).call.table, y.slot ≠ some 4) ∧
    (let s := st { ports .run .run hd with call := (calls [callIn .connected]).call };
      s.node.phase = .started ∧ s.node.isHead = true ∧ s.node.head.started = true ∧
      PortState.carries (s.node.port s.node.head.origin).state = true) := by decide +kernel

/-- The voice slots that the head-end writes: call 9 holds slot 3 from console 2, and slot 1 is FREE. -/
theorem test_writeSlots :
    nth ((calls [{ callIn .connected with console := some 2 }]).call.writeSlots 4) 3 =
      some { label := 9, connected := true, down := .console 2, up := .filler } ∧
    nth ((calls [callIn .alerting]).call.writeSlots 4) 1 =
      some { label := 0, connected := false, down := .silence, up := .filler } := by decide +kernel

/-! ## Zones, signs, releases, beacons, devices and contacts -/

/-- A wayside whose zone 1 holds these causes. -/
def zoned (l : List Cause) : Node :=
  { way with zone := { Zone.reset with zones := put Zone.reset.zones 1 { causes := l, since := some zeroTime } } }

theorem witness_ZoneCommandsMoveCauses :
    (∀ z ∈ [0, 1, 8, 9], takesB (st (zoned [])) (.link 1) (.zoneStart z) = true ∧
      takesB (st (zoned [])) (.centre 1) (.zoneClear z [some .phone, none]) = true) ∧
    (∀ l ∈ [[], [Cause.command], [.phone, .weather]],
      nth (st (zoned l)).node.zone.zones 1 = some { causes := l, since := some zeroTime }) ∧
    takesB (st (zoned [.phone])) (.link 1) (.zoneClear 1 [some .phone]) = true ∧
    decide (1 < 1 ∨ 8 < 1 ∨ [some Cause.phone] = [] ∨ none ∈ [some Cause.phone] ∨
      some Cause.weather ∈ [some Cause.phone]) = false := by decide +kernel

/-- A page of one line. -/
def page (k : Nat) : Page := { id := k, lines := [[65, 66]] }

/-- A wayside whose device 1 is a sign with this record. -/
def signAt (g : Sign) : Node := { way with zone := { Zone.reset with signs := put Zone.reset.signs 1 (some g) } }

/-- A record with a page staged under a tag. -/
def stagedSign (tag : Nat) : Sign := { Sign.made with normal := some (page 1), staged := some (page 2, tag) }

/-- The wayside with no free buffer. -/
def noBuffers (n : Node) : Node :=
  n.onSvc fun s => { s with pool := { s.pool with free := 0, toll := { s.pool.toll with holding := 1536 } } }

theorem witness_SignCommands :
    (∀ d ∈ [0, 1, 2, 8, 9], takesB (st (signAt (stagedSign 5))) (.link 1) (.signShow d (page 3)) = true ∧
      takesB (st (signAt (stagedSign 5))) (.link 1) (.signStage d (page 3) 255) = true ∧
      takesB (st (signAt (stagedSign 5))) (.link 1) (.signUnstage d) = true) ∧
    (st (signAt (stagedSign 5))).node.zone.sign 1 = some (stagedSign 5) ∧
    (st (signAt (stagedSign 5))).node.zone.sign 2 = none ∧ (stagedSign 5).staged.isSome = true ∧
    Sign.made.staged = none ∧ pageOk (page 3) = true ∧ pageOk (page 0) = false ∧
    ((st (signAt (stagedSign 5))).node.svc.requestBuffers .sign 1).2 = none ∧
    ((st (noBuffers (signAt (stagedSign 5)))).node.svc.requestBuffers .sign 1).2 ≠ none := by decide +kernel

theorem witness_ReleaseWaitsForItsMarker :
    (∀ t ∈ [0, 1, 255, 256], takesB (st hd) (.link 4) (.release t) = true) ∧
    (let s := st { hd with head := { hd.head with tag := some 9 },
                           cmd := { Cmd.reset with chanL := some { origin := .link 4, cmd := .release 9 } } };
      s.node.phase = .started ∧ s.node.isHead = true ∧ s.node.head.started = true ∧ s.node.head.tag = some 9 ∧
      s.node.cmd.chanL = some { origin := .link 4, cmd := .release 9 }) := by decide +kernel

theorem witness_DueReleaseIsPerformed :
    ∀ k ∈ [0, 5, 6],
      let n := signAt (stagedSign k)
      let s := st { n with zone := { n.zone with pending := some { tag := 5, due := 0 } } }
      s.node.phase = .started ∧ s.node.isHead = false ∧ s.node.zone.pending = some { tag := 5, due := 0 } ∧
      0 ≤ s.node.svc.now ∧ ReleaseAction.applyStaged ∈ s.node.set.releaseActions ∧
      s.node.zone.sign 1 = some (stagedSign k) ∧ (stagedSign k).staged = some (page 2, k) := by decide +kernel

/-- A beacon in a mode whose phase time has run out. -/
def beaconIn (m : BeaconMode) (lit : Bool) : Beacon :=
  { mode := m, onTime := 5, offTime := 7, lit := lit, phaseEnd := some 0 }

theorem witness_BeaconsRun :
    (∀ m ∈ [BeaconMode.off, .continuous 1, .single], ∀ b ∈ [true, false],
      let s := st { way with zone := { Zone.reset with beacons := put Zone.reset.beacons 1 (beaconIn m b) } }
      nth s.node.zone.beacons 1 = some (beaconIn m b) ∧ s.node.phase = .started ∧ s.node.isHead = false ∧
      due s.node.svc.now (beaconIn m b).phaseEnd = true ∧ beaconZone s.node.set s.node.zone 1 = none ∧
      takesB s (.link 1) (.beaconSetCancel 1) = true ∧ takesB s (.link 1) (.beaconSetSingle 1 255 255) = true) ∧
    (∀ b ∈ [0, 5], nth (st way).node.zone.beacons b = none ∧ takesB (st way) (.link 1) (.beaconSetCancel b) = true ∧
      takesB (st way) (.link 1) (.beaconSetSingle b 1 1) = true) ∧
    takesB (st way) (.link 1) (.beaconSetSingle 4 0 256) = true := by decide +kernel

/-- A wayside whose zones 2 and 3 are bound to beacon 1, and zone 3 to the sign 1. -/
def boundNode : Node :=
  withSet (signAt (stagedSign 5)) fun s =>
    { s with bindings := [.beacon 2 1 5 7, .beacon 3 1 6 8, .sign 3 1 (page 9)] }

/-- Zone 3 becomes ACTIVE in a node where it is bound, with its beacon OFF, in its rhythm already, or in zone 2's. -/
theorem witness_BeaconsRun_zones :
    (∀ m ∈ [BeaconMode.off, .continuous 3, .continuous 2],
      let s := st { boundNode with
        zone := { boundNode.zone with beacons := put Zone.reset.beacons 1 (beaconIn m true) } }
      takesB s (.link 1) (.zoneStart 3) = true ∧ nth s.node.zone.zones 3 = some { causes := [], since := none } ∧
      nth s.node.zone.beacons 1 = some (beaconIn m true) ∧ s.node.set.boundPattern 3 1 = some (6, 8) ∧
      (∀ k, k < 3 → s.node.zone.active k = false)) ∧
    (let z := { boundNode.zone with zones := put Zone.reset.zones 3 { causes := [.phone], since := none }
                                    beacons := put Zone.reset.beacons 1 (beaconIn .single false) };
      beaconZone boundNode.set z 1 = some 3 ∧ signZone boundNode.set z 1 = some 3 ∧
      boundNode.set.boundPage 3 1 = some (page 9) ∧ z.sign 1 = some (stagedSign 5)) ∧
    signZone boundNode.set boundNode.zone 1 = none := by decide +kernel

/-- A rule of zone 1 that trips or clears, and the ways of a release tag. -/
theorem witness_BeaconsRun_causes :
    (let spec : RuleSpec :=
        { device := 2, quantity := 4, level := 10, direction := .above, hysteresis := 2, hold := 2, zone := 1 };
      let rec_ (x : RuleState) : RuleRec := { state := x, last := none, since := zeroTime };
      zoneTripped [some spec] [rec_ .clear] 1 = false ∧ zoneTripped [some spec] [rec_ .tripped] 1 = true ∧
      nth Zone.reset.zones 1 = some { causes := [], since := none }) ∧
    (∀ d ∈ [0, 8], (withSet way fun s => { s with releaseDelay := d }).zone.pending = none) ∧
    ({ way with zone := { Zone.reset with pending := some { tag := 5, due := 9 } } }).zone.pending =
      some { tag := 5, due := 9 } ∧
    (∀ l ∈ [[ReleaseAction.timeMark], [.rosterSweep], [.beaconPulse]],
      let spec : RosterSpec := { device := 1, kind := .sample, period := 100 };
      let n := withSet way fun s => { s with
        releaseActions := l, pulseBeacons := [1], roster := put s.roster 3 (some spec) };
      n.set.releaseActions = l ∧ 1 ∈ n.set.pulseBeacons ∧ nth n.zone.beacons 1 = some .reset ∧
      (n.set.rosterEntry 3 = some spec ∧ nth n.trib.roster 3 = some { nextDue := none, since := none })) := by
  decide +kernel

/-- A wayside whose device 1, of a kind, has this entry. -/
def deviceAt (k : DeviceKind) (v : Device) : Node :=
  withSet { way with trib := { way.trib with devices := put way.trib.devices 1 v } }
    fun s => { s with kinds := put s.kinds 1 k }

/-- An exchange of a kind with device 1 that has run out its attempts so far. -/
def exchange (k : ExchKind) (asker : Asker) (attempt : Nat) : Exchange :=
  { kind := k, number := 7, attempt := attempt, asker := asker, request := .plain, timeout := 200, retries := 2,
    deadline := 0 }

/-- A device in a state with this exchange in flight. -/
def inFlight (x : DevState) (e : Option Exchange) : Device :=
  { Device.reset with state := x, exchange := e, joinOrigin := some .absent }

theorem witness_RepliesOnLines :
    (let e := exchange .status .attach 1;
      let v := inFlight .present (some e);
      let s := st (deviceAt .weather v);
      s.node.phase = .started ∧ s.node.isHead = false ∧ s.node.set.deviceOn 1 = some 1 ∧
      s.node.device 1 = some v ∧ v.exchange = some e ∧ e.kind = .status ∧ v.state = .present ∧
      s.node.set.kindOf 1 = .weather ∧ (e.number ≠ 8 ∨ e.kind ≠ .sample) ∧ ReplyContent.kind .noSample ≠ .tollOffer) ∧
    (∀ o, (exchange .status .attach 1).asker ≠ .command o) :=
  ⟨by decide +kernel, fun _ => by simp [exchange]⟩

/-- A station that is SILENT, and one in each state where no count moves; an exchange that a command asked for. -/
theorem witness_RepliesOnLines_command :
    ∀ x ∈ [DevState.silent, .present, .restarting, .joining, .absent],
      let o : Origin := .link 3
      let e := exchange .status (.command o) 1
      let p : InProgress := { origin := o, cmd := .deviceStatusPoll 1 (some .status) }
      let n := deviceAt .weather (inFlight x (some e))
      let m := { n with cmd := { n.cmd with chanL := some p } }
      m.set.deviceOn 1 = some 1 ∧ m.device 1 = some (inFlight x (some e)) ∧ m.set.kindOf 1 = .weather ∧
      m.cmd.channel o = some p ∧
      (m.answered 1 (inFlight x (some e)) { e with asker := .join } (.status (.weather [] false false))).cmd.channel o =
        some p := by decide +kernel

theorem witness_ReplyTimerExpires :
    (∀ x ∈ [(DevState.joining, ExchKind.identify, Asker.join), (.present, .status, .attach)], ∀ a ∈ [1, 2, 3],
      let e := exchange x.2.1 x.2.2 a
      let v := inFlight x.1 (some e)
      let s := st (deviceAt .weather v)
      s.node.phase = .started ∧ s.node.isHead = false ∧ s.node.set.deviceOn 1 = some 1 ∧
      s.node.device 1 = some v ∧ v.exchange = some e ∧ e.deadline ≤ s.node.svc.now ∧ v.miss < 2 ∧
      e.asker = x.2.2 ∧ (e.attempt ≤ e.retries ∨ e.retries < e.attempt)) ∧
    (∀ o, (exchange .status .attach 3).asker ≠ .command o) :=
  ⟨by decide +kernel, fun _ => by simp [exchange]⟩

/-- Misses up to the limits of R107, a deadline not reached, a line without a device, and a sign with a load. -/
theorem witness_ReplyTimerExpires_limits :
    (∀ x ∈ [(DevState.present, 0), (.present, 2), (.present, 8), (.silent, 2), (.silent, 8), (.silent, 9)],
      ∀ k ∈ [ExchKind.status, .pageLoad],
      let e := exchange k .attach 3
      let v := { inFlight x.1 (some e) with miss := x.2 }
      let s := st (deviceAt .weather v)
      s.node.set.deviceOn 1 = some 1 ∧ s.node.device 1 = some v ∧ e.deadline ≤ s.node.svc.now ∧
      e.retries < e.attempt ∧ e.kind ≠ .identify ∧ v.commands = []) ∧
    (let e := { exchange .status .attach 3 with deadline := 1 };
      (st (deviceAt .weather (inFlight .present (some e)))).node.svc.now < e.deadline) ∧
    (st (withSet way fun w => { w with remap := List.replicate 8 none })).node.set.deviceOn 1 = none ∧
    (∀ k ∈ [0, 2], ∀ w ∈ [some (3, 0), some (4, 0), none],
      let l : Load := { id := 3, src := .normal };
      let g := { stagedSign 5 with load := some l, attempts := k, wanted := w };
      (signAt g).zone.sign 1 = some g ∧ g.load = some l ∧ (g.wanted.map Prod.fst = some l.id ↔ w = some (3, 0))) := by
  decide +kernel

/-- Exchanges and waiting polls that a command asked for, at the end of their attempts and when they are turned away. -/
theorem witness_ReplyTimerExpires_commands :
    ∀ x ∈ [(DevState.silent, 9), (.present, 2), (.present, 0), (.restarting, 0)],
      let o : Origin := .link 3
      let w : Waiting := { origin := o, poll := .sample }
      let e := exchange .sample (.command o) 3
      let p : InProgress := { origin := o, cmd := .deviceStatusPoll 1 (some .sample) }
      let v := { inFlight x.1 (some e) with miss := x.2 }
      let n := deviceAt .weather v
      let m := { n with cmd := { n.cmd with chanL := some p } }
      m.device 1 = some v ∧ e.asker = .command o ∧ e.kind ≠ .pageLoad ∧ e.retries < e.attempt ∧
      m.cmd.channel o = some p ∧ { v with commands := [w] }.commands = [w] ∧ w.origin = o ∧
      (m.unanswered 1 { e with asker := .join }).cmd.channel o = some p ∧ DevState.absent ≠ .silent := by decide +kernel

theorem witness_DeviceExchangesBegin :
    (∀ x ∈ [DevState.absent, .failed],
      let v := { inFlight x none with joinDue := some 0 }
      let s := st (deviceAt .sign v)
      s.node.phase = .started ∧ s.node.isHead = false ∧ s.node.trib.started = true ∧ s.node.device 1 = some v ∧
      v.exchange = none ∧ v.commands = [] ∧ s.node.set.lineOf 1 = some 1 ∧
      nth s.node.trib.lines 1 = some { number := 0, corrupt := 0, stray := 0, repeats := 0, unanswered := 0 } ∧
      due s.node.svc.now v.joinDue = true ∧ s.node.trib.roster.all (fun r => r.since.isNone) = true) ∧
    (∀ x ∈ [DevState.present, .silent, .absent], ∀ d ∈ [0, 1, 8, 9],
      takesB (st (deviceAt .weather (inFlight x none))) (.link 1) (.deviceStatusPoll d (some .sample)) = true ∧
      takesB (st (deviceAt .weather (inFlight x none))) (.link 1) (.deviceStatusPoll d none) = true ∧
      (st (deviceAt .weather (inFlight x none))).node.device 1 = some (inFlight x none)) ∧
    PollKind.suits .sample .weather = true ∧ PollKind.suits .tollOffer .weather = false ∧
    (∀ x ∈ [DevState.present, .silent],
      let v := { inFlight x none with attachWaiting := true }
      let n := deviceAt .sign v
      n.trib.started = true ∧ n.device 1 = some v ∧ v.exchange = none ∧ v.commands = [] ∧ v.state = x ∧
      n.set.lineOf 1 = some 1 ∧ (nth n.trib.lines 1).isSome = true ∧
      n.trib.roster.all (fun r => r.since.isNone) = true ∧ wantsLoad n.zone 1 = false ∧
      (((n.lookForWork 1).device 1).bind Device.exchange).isSome = decide (x = .present)) := by decide +kernel

/-- Roster entries of device 1: a SAMPLE and a STATUS, and a TOLL-OFFER that no weather station answers. -/
def rosterSpecs : List (Option RosterSpec) :=
  [some { device := 1, kind := .sample, period := 100 }, some { device := 1, kind := .status, period := 50 },
    some { device := 1, kind := .tollOffer, period := 20 }]

/-- A weather station in a state whose roster entries have been due since these moments. -/
def rostered (x : DevState) (since : List (Option Nat)) (w : List Waiting) : Node :=
  let n := deviceAt .weather { inFlight x none with commands := w }
  let n := withSet n fun s => { s with roster := rosterSpecs ++ s.roster.drop 3 }
  { n with trib := { n.trib with
      roster := (since.map fun t => { nextDue := none, since := t }) ++ n.trib.roster.drop since.length } }

/-- R103 on a free line: a page that is wanted, a waiting poll, the entry due longest and the lower at a tie, an entry that
is skipped, and nothing; a device that is polled and one that is not. -/
theorem witness_DeviceExchangesBegin_order :
    (let g := { stagedSign 5 with wanted := some (1, 0) };
      let n := { deviceAt .sign (inFlight .present none) with zone := (signAt g).zone };
      n.trib.started = true ∧ n.device 1 = some (inFlight .present none) ∧ n.set.lineOf 1 = some 1 ∧
      (nth n.trib.lines 1).isSome = true ∧ wantsLoad n.zone 1 = true ∧ n.zone.sign 1 = some g ∧
      wantedPage n.set g 1 = some (page 1, .normal)) ∧
    (∀ x ∈ [DevState.present, .silent, .restarting, .wrongKind, .unused], ∀ t ∈ [[some 7, some 7, none],
        [some 7, some 5, none], [none, none, none], [none, none, some 1]],
      let n := rostered x t []
      let m := n.skipRoster 1 (inFlight x none)
      let polled := x = .present ∨ x = .silent
      n.trib.started = true ∧ n.device 1 = some (inFlight x none) ∧ (inFlight x none).exchange = none ∧
      n.set.lineOf 1 = some 1 ∧ (nth n.trib.lines 1).isSome = true ∧ wantsLoad n.zone 1 = false ∧
      (m.duePoll 1).map Prod.fst = (if ¬polled then none else if t = [some 7, some 7, none] then some 1
        else if t = [some 7, some 5, none] then some 2 else none)) ∧
    (let w : Waiting := { origin := .link 3, poll := .sample };
      (rostered .present [some 7] [w]).device 1 = some { inFlight .present none with commands := [w] }) := by
  decide +kernel

theorem witness_RosterIsKept :
    (let spec : RosterSpec := { device := 1, kind := .sample, period := 100 };
      let n := withSet (deviceAt .weather (inFlight .present none)) fun s => { s with roster := put s.roster 3 (some spec) };
      let s := st { n with trib := { n.trib with roster := put n.trib.roster 3 { nextDue := some 0, since := none } } };
      s.node.phase = .started ∧ s.node.isHead = false ∧ s.node.set.rosterEntry 3 = some spec ∧
      nth s.node.trib.roster 3 = some { nextDue := some 0, since := none } ∧ due s.node.svc.now (some 0) = true) ∧
    (∀ e ∈ [0, 1, 16, 17], ∀ a ∈ [RosterArg.empty, .entry 1 none 1, .entry 1 (some .sample) 36000,
      .entry 1 (some .sample) 36001], takesB (st way) (.link 1) (.rosterSet e a) = true) := by decide +kernel

/-- A POLL-ROSTER whose changed entry suits its device, does not suit it or is out of range, and an entry left as it is. -/
theorem witness_RosterIsKept_written :
    let n := rostered .present [some 7] []
    let first : List (Option RosterSpec) := [some { device := 1, kind := .sample, period := 36000 }]
    let suited (l : List (Option RosterSpec)) : Bool := (places 16).all fun e =>
      decide (nth n.set.roster e = nth l e) ||
        (((nth l e).getD none).map fun r => rosterInRange r && PollKind.suits r.kind (n.set.kindOf r.device)).getD true
    (suited (first ++ n.set.roster.drop 1) = true ∧ nth n.set.roster 1 ≠ nth first 1 ∧
      nth n.trib.roster 1 = some { nextDue := none, since := some 7 } ∧
      nth n.set.roster 16 = nth (first ++ n.set.roster.drop 1) 16) ∧
    suited [some { device := 1, kind := .tollOffer, period := 1 }] = false ∧
    Candidate.inRange 44 (.roster first) = true ∧
    Candidate.inRange 44 (.roster [some { device := 9, kind := .status, period := 1 }]) = false := by decide +kernel

theorem witness_LineResetDetaches :
    (∀ l ∈ [0, 1, 8, 9], takesB (st way) (.link 1) (.lineReset l) = true) ∧
    (let s := st (withSet way fun w => { w with remap := List.replicate 8 none });
      takesB s (.link 1) (.lineReset 1) = true ∧ s.node.set.deviceOn 1 = none) ∧
    (let s := st way;
      takesB s (.link 1) (.lineReset 1) = true ∧ s.node.set.lineOf 1 = some 1 ∧ s.node.set.kindOf 1 = .unused ∧
      s.node.set.deviceOn 1 = none) ∧
    (let v := inFlight .present none;
      let s := st (deviceAt .sign v);
      takesB s (.link 1) (.lineReset 1) = true ∧
      s.node.set.deviceOn 1 = some 1 ∧ s.node.device 1 = some v ∧ v.exchange = none ∧ v.commands = []) := by
  decide +kernel

/-- A wayside whose device 1 has been given line 7 or another kind, from the settings `way` has. -/
def rewired (line : Bool) (k : DeviceKind) (v : Device) : Node :=
  withSet (deviceAt k v) fun s => if line then { s with remap := put s.remap 1 (some 7) } else s

/-- A device moved to another line, one whose kind changed, one untouched; an exchange, commands, and neither. -/
theorem witness_LineResetDetaches_moves :
    (let w : Waiting := { origin := .link 3, poll := .sample };
      ∀ v ∈ [inFlight .present (some (exchange .status .attach 1)), { inFlight .present none with commands := [w] },
        inFlight .absent none],
      (rewired true .unused v).device 1 = some v ∧ way.set.lineOf 1 ≠ (rewired true .unused v).set.lineOf 1 ∧
      way.set.kindOf 1 = (rewired true .unused v).set.kindOf 1 ∧ way.set.lineOf 1 = (rewired false .sign v).set.lineOf 1 ∧
      way.set.kindOf 1 ≠ (rewired false .sign v).set.kindOf 1 ∧
      (rewired true .sign v).device 2 = some Device.reset ∧
      (∀ k ∈ places 8, k ≠ 1 → way.set.lineOf k = (rewired true .sign v).set.lineOf k ∧
        way.set.kindOf k = (rewired true .sign v).set.kindOf k)) ∧
    ((∀ k ∈ [some 1, none, some 8].filterMap id, 1 ≤ k ∧ k ≤ 8) ∧ ([some 1, none, some 8].filterMap id).Nodup ∧
      ¬([some 8, some 8].filterMap id).Nodup) ∧
    ((signAt (stagedSign 5)).zone.sign 1 = some (stagedSign 5) ∧ way.zone.sign 1 = none) := by decide +kernel

/-- A restart output in a state whose timers have run out. -/
def outputIn (x : OutState) : Output := { state := x, hold := some 0, pulse := some 0 }

theorem witness_RestartOutputsAndTheirTargets :
    (∀ x ∈ [OutState.armed, .holding, .pulsing, .spent],
      let s := st { way with trib := { way.trib with outputs := put way.trib.outputs 2 (outputIn x) } }
      nth s.node.set.outputs 2 = some OutputSpec.default ∧ nth s.node.trib.outputs 2 = some (outputIn x) ∧
      OutputSpec.default.target = none ∧ s.node.phase = .started ∧ s.node.isHead = false ∧
      due s.node.svc.now (outputIn x).hold = true ∧ due s.node.svc.now (outputIn x).pulse = true ∧
      takesB s (.link 1) (.restartPulse 2) = true) ∧
    takesB (st way) (.link 1) (.restartPulse 0) = true ∧ takesB (st way) (.link 1) (.restartPulse 5) = true ∧
    (let v := { inFlight .restarting none with restartEnd := some 0 };
      let s := st (deviceAt .weather v);
      s.node.phase = .started ∧ s.node.isHead = false ∧ s.node.device 1 = some v ∧ v.state = .restarting ∧
      due s.node.svc.now v.restartEnd = true ∧ s.node.svc.wx.segments = [] ∧ v.commands = []) := by decide +kernel

/-- Output 2 with device 1 as its target. -/
def targetSpec : OutputSpec := { OutputSpec.default with target := some 1 }

/-- A target in each state that R116 tells apart, a timer not yet due, and a restart that goes on. -/
theorem witness_RestartOutputsAndTheirTargets_targets :
    (∀ x ∈ [DevState.unused, .wrongKind, .restarting, .present, .absent],
      let n := deviceAt .weather (inFlight x none)
      let n := withSet { n with trib := { n.trib with outputs := put n.trib.outputs 2 (outputIn .holding) } }
        fun s => { s with outputs := put s.outputs 2 targetSpec }
      let s := st n
      nth s.node.set.outputs 2 = some targetSpec ∧ nth s.node.trib.outputs 2 = some (outputIn .holding) ∧
      targetSpec.target = some 1 ∧ s.node.device 1 = some (inFlight x none) ∧ (inFlight x none).commands = [] ∧
      takesB s (.link 1) (.restartPulse 2) = true ∧ s.node.phase = .started ∧ s.node.isHead = false) ∧
    (let r := { outputIn .holding with hold := some 1 };
      let s := st { way with trib := { way.trib with outputs := put way.trib.outputs 2 r } };
      nth s.node.trib.outputs 2 = some r ∧ due s.node.svc.now r.hold = false) ∧
    (let v := { inFlight .restarting none with restartEnd := some 1 };
      due (st way).node.svc.now v.restartEnd = false) := by decide +kernel

/-- Outputs whose conditions are all true, that one is false, and without conditions; a hold time of 0 and one above. -/
theorem witness_RestartOutputsAndTheirTargets_conditions :
    (∀ x ∈ [OutState.armed, .holding, .pulsing, .spent], ∀ h ∈ [0, 5],
      ∀ c ∈ [[], [RestartCond.device 1 .silent], [.device 1 .silent, .input 1]],
      let spec := { targetSpec with conds := c, hold := h }
      let n := deviceAt .weather (inFlight .silent none)
      let n := withSet { n with trib := { n.trib with outputs := put n.trib.outputs 2 (outputIn x) } }
        fun s => { s with outputs := put s.outputs 2 spec }
      nth n.set.outputs 2 = some spec ∧ nth n.trib.outputs 2 = some (outputIn x) ∧
      (n.allTrue spec = true ↔ c = [.device 1 .silent])) ∧
    (∀ b ∈ [true, false], (way.onTrib fun t => { t with started := b }).trib.started = b) ∧
    (∀ v ∈ [inFlight .silent none, inFlight .joining none,
        { inFlight .restarting none with restartOrigin := some .failed }],
      (deviceAt .weather v).device 1 = some v) ∧
    (∀ b ∈ [true, false],
      let r : Input := { active := b, timing := none }
      nth { way.trib with inputs := put way.trib.inputs 4 r }.inputs 4 = some r) := by decide +kernel

/-- New RESTART-OUTPUTS for an output in each state: its record changed, the same, and out of range. -/
theorem witness_RestartOutputsAndTheirTargets_written :
    (∀ x ∈ [OutState.armed, .holding, .pulsing, .spent],
      let n := { way with trib := { way.trib with outputs := put way.trib.outputs 4 (outputIn x) } }
      nth n.trib.outputs 4 = some (outputIn x) ∧ nth n.set.outputs 4 ≠ nth (put n.set.outputs 4 targetSpec) 4 ∧
      nth n.set.outputs 1 = nth (put n.set.outputs 4 targetSpec) 1) ∧
    Candidate.inRange 45 (.outputs (put way.set.outputs 4
      { targetSpec with conds := [.device 8 .absent, .input 4, .orphan], hold := 600, width := 10, settle := 120 })) = true ∧
    (∀ s ∈ [{ targetSpec with conds := [.device 9 .absent] }, { targetSpec with conds := [.input 0] },
        { targetSpec with hold := 601 }, { targetSpec with width := 3 }, { targetSpec with target := some 9 },
        { targetSpec with settle := 121 }, { targetSpec with conds := List.replicate 4 .orphan }],
      Candidate.inRange 45 (.outputs [s]) = false) := by decide +kernel

/-- What a device that joins says of itself: gantry `g`, with `oldest` its oldest sequence. -/
def said (g oldest : Nat) : Identity :=
  { kind := .toll, maker := 1, serial := 2, level := 3, gantry := g, oldest := oldest }

/-- A gantry entry accepted through 10 and acknowledged through 8, bound to a device or to none. -/
def gantryOf (g : Nat) (d : Option Nat) : Gantry :=
  { number := g, a := 10, c := 8, reported := none, device := d, lastBad := none, lastGap := none }

/-- The gantry table with these entries, 16 of them in all where `full`. -/
def table (full : Bool) (l : List Gantry) : Toll :=
  { Toll.reset with gantries := l ++ if full then (List.range 16).map fun k => gantryOf (100 + k) none else [] }

/-- A joining device of the right and of the wrong kind, with a serial number known and not; and the cases of R134. -/
theorem witness_RestartOutputsAndTheirTargets_joins :
    (∀ k ∈ [DeviceKind.toll, .weather, .sign],
      let n := deviceAt k { inFlight .joining none with identity := some { said 5 9 with kind := k } }
      n.device 1 = some { inFlight .joining none with identity := some { said 5 9 with kind := k } } ∧
      n.set.kindOf 1 = k) ∧
    ((table true []).entry 5 = none ∧ 16 ≤ (table true []).gantries.length ∧
      (table false []).entry 5 = none ∧ (table false []).gantries.length < 16) ∧
    ((table false [gantryOf 5 (some 2)]).entry 5 = some (gantryOf 5 (some 2)) ∧
      nth (put Trib.reset.devices 2 (inFlight .present none)) 2 = some (inFlight .present none)) ∧
    ((table false [gantryOf 5 none]).entry 5 = some (gantryOf 5 none) ∧ (said 5 8).oldest - 1 < (gantryOf 5 none).c ∧
      (gantryOf 5 none).c ≤ (said 5 9).oldest - 1 ∧ (said 5 11).oldest - 1 ≤ (gantryOf 5 none).a ∧
      (gantryOf 5 none).a < (said 5 12).oldest - 1) ∧
    ((table false [gantryOf 6 (some 1)]).gantries.any fun e => e.device = some 1 && e.number ≠ 5) = true := by
  decide +kernel

theorem witness_CabinetInputsAreTimed :
    let r : Input := { active := false, timing := some 0 }
    let s := st { way with trib := { way.trib with inputs := put way.trib.inputs 4 r } }
    s.node.phase = .started ∧ s.node.isHead = false ∧ nth s.node.set.inputs 4 = some InputSpec.default ∧
    nth s.node.trib.inputs 4 = some r ∧ nth s.node.pins.inputHigh 4 = some true ∧ due s.node.svc.now r.timing = true := by
  decide +kernel

/-- New CABINET-INPUTS that turn input 4's active level or leave it, before and after TRIB's start, and one out of range. -/
theorem witness_CabinetInputsAreTimed_written :
    (∀ b ∈ [true, false],
      let n := way.onTrib fun t => { t with started := b }
      let x : InputSpec := { InputSpec.default with activeHigh := !InputSpec.default.activeHigh, debounce := 2000 }
      n.trib.started = b ∧ nth (put n.set.inputs 4 x) 4 = some x ∧ (nth n.trib.inputs 4).isSome = true ∧
      nth n.pins.inputHigh 4 = some true ∧
      (nth n.set.inputs 4).map InputSpec.activeHigh ≠ some x.activeHigh ∧
      Candidate.inRange 46 (.inputs (put n.set.inputs 4 x)) = true) ∧
    (∀ k ∈ [9, 2001], Candidate.inRange 46 (.inputs [{ InputSpec.default with debounce := k }]) = false) := by
  decide +kernel

/-! ## Reads, the pool, toll records and weather -/

theorem witness_ReadsTellAndChangeNothing :
    (∀ c ∈ [Command.timeRead, .poolStatus, .identify, .ringStatus, .windowStatus, .collectStatus],
      takesB (st way) (.centre 1) c = true ∧ takesB (st hd) (.link 1) c = true) ∧
    (∀ c ∈ [Command.phoneStatus, .zoneStatus, .rosterRead, .inputStatus, .deviceList, .ruleStatus],
      takesB (st way) (.centre 1) c = true) := by decide +kernel

theorem witness_ReadsWithAnArgument :
    (∀ a ∈ [0, 1, 8, 9, 48, 49, 255, 256, 999, 1000, 4095, 4096, 65535, 65536],
      (∀ c ∈ [Command.portStatus a, .deviceStatus a, .tollStatus a, .wxStatus a, .signStatus a, .settingRead a none,
        .storeRead a], takesB (st (signAt (stagedSign 5))) (.centre 1) c = true) ∧
      takesB (st hd) (.link 1) (.stationMapRead a) = true ∧ takesB (st hd) (.link 1) (.callList a) = true) ∧
    portOf 0 = none ∧ portOf 2 = some .west ∧ (st (signAt (stagedSign 5))).node.zone.sign 1 = some (stagedSign 5) ∧
    (st (signAt (stagedSign 5))).node.zone.sign 8 = none ∧ isItem 0 = false ∧ isItem 31 = true ∧
    (numberRange 13).isSome = true ∧ nextStart 13 = false ∧ (numberRange 3).isSome = true ∧ nextStart 3 = true ∧
    (∀ a ∈ [21, 33, 34, 40, 41, 44, 45, 46, 50, 71, 90], isItem a = true ∧ (numberRange a).isSome = false ∧
      takesB (st way) (.centre 1) (.settingRead a (some (.num 3))) = true) := by decide +kernel

/-- A device, a port and a record that a read with an argument tells of. -/
theorem witness_ReadsWithAnArgument_device :
    let s := st (deviceAt .weather (inFlight .present (some (exchange .status .attach 1))))
    takesB s (.centre 1) (.deviceStatus 1) = true ∧
    s.node.device 1 = some (inFlight .present (some (exchange .status .attach 1))) := by decide +kernel

theorem witness_PoolDecidesByThreeConditions :
    let p := way.svc.pool
    (p.toll.holding + 1024 ≤ p.toll.ceiling ∧ 1024 ≤ p.free ∧
      (p.weather.floor - p.weather.holding) + (p.sign.floor - p.sign.holding) +
        (p.transit.floor - p.transit.holding) ≤ p.free - 1024) ∧
    way.svc.wx.segments = [] ∧ p.toll.ceiling < p.toll.holding + 1025 ∧
    (noBuffers way).svc.pool.free < 1 ∧
    (let q := { p with free := 224, toll := { p.toll with holding := 1000 }, transit := { p.transit with holding := 312 } };
      q.toll.holding + 1 ≤ q.toll.ceiling ∧ 1 ≤ q.free ∧
      q.free - 1 < (q.weather.floor - q.weather.holding) + (q.sign.floor - q.sign.holding) +
        (q.transit.floor - q.transit.holding)) ∧ p.total = Config.poolSize := by decide +kernel

/-- WX with one OPEN segment of device 2. -/
def weatheredWx : Wx := { Wx.reset with segments := [seg], lastNumber := 1 }

/-- A segment in a state. -/
def segIn (d k : Nat) (x : SegState) : Segment := { seg with number := k, device := d, state := x }

/-- New bounds that pass, that are bad, and that the holdings do not meet; what an eviction may find; an open segment
or none, with the loss mark set or clear; and a log with as many records as TOLL holds buffers. -/
theorem witness_PoolDecidesByThreeConditions_law :
    (PoolSafe way.svc.pool ∧ PoolOk way.svc.pool) ∧
    (checkBounds way.svc.pool way.svc.pool.bounds = .done ∧
      boundsFor (way.svc.pool.bounds.take 3) .transit = none ∧
      checkBounds way.svc.pool (way.svc.pool.bounds.map fun b => { b with ceiling := 0 }) = .badArgument ∧
      (let p := { way.svc.pool with free := 0 };
        checkBounds p p.bounds = .wrongState)) ∧
    (let w := { Wx.reset with segments := [segIn 2 1 .loaned, segIn 2 2 .closed, segIn 3 3 .closed, segIn 2 4 .closed] };
      w.segments = [segIn 2 1 .loaned] ++ segIn 2 2 .closed :: ([segIn 3 3 .closed] ++ [segIn 2 4 .closed]) ∧
      (∀ g ∈ [segIn 2 1 .loaned], g.state ≠ .closed) ∧ (segIn 2 2 .closed).state = .closed ∧
      (∀ x ∈ [segIn 3 3 .closed], x.device ≠ 2) ∧ (segIn 2 4 .closed).device = 2) ∧
    (weatheredWx.openOf 2 = some seg ∧ weatheredWx.openOf 3 = none) ∧
    (∀ b ∈ [true, false], { weatheredWx with lossMark := b }.lossMark = b) ∧
    way.svc.pool.toll.holding = way.toll.log.length := by
  refine ⟨⟨?_, rfl⟩, ?_⟩
  · exact ⟨by decide +kernel, fun c => by cases c <;> decide +kernel⟩
  · decide +kernel

/-- A SIGN request refused for FREE with a CLOSED segment standing above the floor, and with none. -/
theorem witness_PoolDecidesByThreeConditions_evicts :
    (∀ l ∈ [[segIn 2 1 .closed], [segIn 2 1 .opened]],
      let n := noBuffers way;
      let s := { n.svc with wx := { n.svc.wx with segments := l }
                            pool := { n.svc.pool with weather := { n.svc.pool.weather with holding := 200, floor := 1 } } };
      s.pool.sign.holding + 1 ≤ s.pool.sign.ceiling ∧ s.pool.free < 1 ∧
      s.pool.weather.floor < s.pool.weather.holding ∧
      (s.evictOldest true).isSome = (l.any fun g => decide (g.state = .closed))) ∧
    PoolReason.free ≠ .ceiling := by decide +kernel

/-- The waiting mark clear and set, a TRANSIT request that is refused, and a free of no buffer and of one. -/
theorem witness_PoolDecidesByThreeConditions_waiting :
    (∀ b ∈ [true, false], { way.svc.pool with waiting := b }.waiting = b) ∧
    ((noBuffers way).svc.requestBuffers .transit 1).2 ≠ none ∧ (1 : Nat) ≠ 0 := by decide +kernel

theorem callsOk_of {c : Call} {cap : Nat}
    (h : (4 ≤ cap ∧ cap ≤ 24) ∧ (c.table.map CallEntry.number).Nodup ∧ (∀ e ∈ c.table, 1 ≤ e.number ∧ e.number ≤ 255) ∧
      (c.table.map fun e => (e.station, e.port)).Nodup ∧ (c.table.filterMap CallEntry.slot).Nodup ∧
      (∀ e ∈ c.table, ∀ k ∈ e.slot, 1 ≤ k ∧ k ≤ cap) ∧ (∀ e ∈ c.table, e.slot = none ↔ e.state = .queued) ∧
      c.waiting = (c.table.filter fun e => e.state = .queued).map CallEntry.number ∧ c.waiting.length ≤ 16 ∧
      (c.waiting ≠ [] → c.freeSlot cap = none)) : CallsOk c cap := by
  obtain ⟨a, b, d, e, f, g, i, j, k, l⟩ := h
  exact ⟨a, b, d, e, f, fun x hx k hk => g x hx k hk, i, j, k, l⟩

/-- A head-end whose four slots are held while call 200 waits. -/
def waitingCalls : Node :=
  let n := fullCalls 1
  { n with call := { n.call with
      table := n.call.table ++ [{ callIn .queued with number := 200, port := 8, slot := none }] } }

theorem witness_StepKeepsPoolSum :
    let s : State := { st way with pending := [.zoneStart (.link 1) 1] }
    let u : State := { st waitingCalls with pending := [.callEnd (.link 1) 101] }
    (SvcOk s.node.svc ∧ ∃ t, step s = .next t) ∧
    (CallsOk u.node.call u.node.set.voiceCap ∧ u.node.call.waiting ≠ [] ∧ ∃ t, step u = .next t) :=
  ⟨⟨⟨by unfold PoolOk; decide +kernel, ⟨by decide +kernel, fun c => by cases c <;> decide +kernel⟩,
     by unfold NotesOk; decide +kernel⟩, _, rfl⟩,
   callsOk_of (by decide +kernel), by decide +kernel, _, rfl⟩

/-- A rule: device 2, quantity 4 above 10 by 2, hold count 2, zone 1. -/
def warm : RuleSpec :=
  { device := 2, quantity := 4, level := 10, direction := .above, hysteresis := 2, hold := 2, zone := 1 }

/-- A sample of device 2 with this value of quantity 4. -/
def reading (v : Int) : Sample := { device := 2, time := zeroTime, quantities := [{ code := 4, value := v }] }

/-- A wayside whose rule 1 is `warm` in this state. -/
def ruled (x : RuleState) : Node :=
  { withSet way fun s => { s with rules := put s.rules 1 (some warm) } with
    rules := put way.rules 1 { state := x, last := none, since := zeroTime } }

theorem witness_RulesTripAndClear :
    (∀ x ∈ [RuleState.clear, .arming 1, .tripped, .easing 1],
      nth (ruled x).svc.settings.rules 1 = some (some warm) ∧
      nth (ruled x).rules 1 = some { state := x, last := none, since := zeroTime } ∧
      takesB (st (ruled x)) (.link 1) (.ruleSet 1 .empty) = true) ∧
    (∀ k ∈ [0, 1, 8, 9], takesB (st way) (.link 1) (.ruleSet k (.rule 2 4 10 none 2 2 1)) = true ∧
      takesB (st way) (.link 1) (.ruleSet k (.rule 2 4 10 (some .above) 2 2 1)) = true) ∧
    ruleOk warm = true ∧ ruleOk { warm with hold := 9 } = false ∧ isTripped .clear = false ∧
    warm.device = (reading 11).device ∧ warm.device ≠ (Sample.mk 3 zeroTime []).device ∧
    (∀ v ∈ [(11 : Int), 10, 9, 8], (reading v).quantities.find? (fun q => q.code = warm.quantity) =
      some { code := 4, value := v }) ∧
    (Sample.mk 2 zeroTime []).quantities.find? (fun q => q.code = warm.quantity) = none := by
  decide +kernel

/-- Gantry 5 accepted through 10, on device 1. -/
def gantry : Gantry :=
  { number := 5, a := 10, c := 8, reported := none, device := some 1, lastBad := none, lastGap := none }

/-- A toll offer in flight with device 1. -/
def offer : Exchange := { exchange .tollOffer (.roster 1) 1 with request := .toll 10 8 }

/-- A wayside whose device 1 is attached to gantry 5. -/
def tolled : Node :=
  { deviceAt .toll (inFlight .present (some offer)) with
    toll := { Toll.reset with gantries := [gantry], attachments := put Toll.reset.attachments 1 (some (.attached 5)),
                              log := [{ record := passage 9, receipt := zeroTime, loan := some 3 },
                                      { record := passage 10, receipt := zeroTime, loan := none }] } }

/-- A wayside with an OPEN segment of device 2. -/
def weathered : Node := way.onSvc fun s => { s with wx := { s.wx with segments := [seg], lastNumber := 1 } }

/-- A bound entry with and without records, a device bound to none, and an UNATTACHED device that is tried again or not. -/
theorem witness_LineResetDetaches_gantries :
    (tolled.toll.gantries.filter (fun g => g.device = some 1) = [gantry] ∧
      (tolled.toll.gantries.map Gantry.number).Nodup ∧ tolled.toll.recordsOf 5 ≠ [] ∧
      ({ tolled.toll with log := [] } : Toll).recordsOf 5 = [] ∧ (∀ e ∈ way.toll.gantries, e.device ≠ some 1)) ∧
    (let v := { inFlight .silent none with identity := some (said 5 9) };
      nth (put Trib.reset.devices 2 v) 2 = some v ∧ v.state = .silent ∧ v.identity = some (said 5 9) ∧
      nth (put Toll.reset.attachments 2 (some (.unattached .full true))) 2 = some (some (.unattached .full true)) ∧
      (∀ k ∈ places 8, nth Toll.reset.attachments k = some none)) := by decide +kernel

/-- Rules of the device that are tripped, arming and CLEAR, and one of another device. -/
theorem witness_LineResetDetaches_rules :
    ∀ x ∈ [RuleState.tripped, .easing 1, .arming 1, .clear],
      nth (ruled x).set.rules 1 = some (some warm) ∧ warm.device = 2 ∧
      nth (ruled x).rules 1 = some { state := x, last := none, since := zeroTime } ∧
      (x ≠ .clear ∨ isTripped x = false) ∧ (∀ k ∈ places 8, k ≠ 1 → nth (ruled x).set.rules k = some none) := by
  decide +kernel

theorem witness_RecordsAndSamplesAreTaken :
    (let s := st tolled;
      s.node.phase = .started ∧ s.node.isHead = false ∧ s.node.set.deviceOn 1 = some 1 ∧
      s.node.device 1 = some (inFlight .present (some offer)) ∧ offer.kind = .tollOffer ∧ offer.request = .toll 10 8 ∧
      nth s.node.toll.attachments 1 = some (some (.attached 5)) ∧ s.node.toll.entry 5 = some gantry ∧
      (s.node.svc.requestBuffers .toll 1).2 = none ∧ ((noBuffers tolled).svc.requestBuffers .toll 1).2 ≠ none ∧
      (passage 10).seq ≤ gantry.a ∧ (passage 11).seq = gantry.a + 1 ∧ gantry.a + 1 < (passage 12).seq ∧
      malformedRecord 5 (passage 11) = false ∧ malformedRecord 5 { passage 11 with lane := 9 } = true) ∧
    (let s := weathered.svc;
      s.wx.openOf (reading 5).device = some seg ∧ segmentBytes (seg.samples ++ [reading 5]) ≤ 360 ∧
      (s.requestBuffers .weather 1).2 = none ∧ seg.samples.length + 1 < s.settings.segmentLength) := by decide +kernel

/-- Replies of several records; a device without an OPEN segment; a segment that becomes full or would become too long. -/
theorem witness_RecordsAndSamplesAreTaken_more :
    ([passage 10, passage 11, passage 13, passage 14].length ≤ 4 ∧ tolled.toll.entry 5 = some gantry ∧
      ([passage 10, passage 11, passage 13, passage 14].foldl (takeRecord 1 5)
        ((tolled.svc, tolled.toll), false)).1.2.counts.deferred = 1) ∧
    (let s := way.svc;
      s.wx.openOf (reading 5).device = none ∧ s.wx.segments.length < 48 ∧ (s.requestBuffers .weather 1).2 = none ∧
      1 < s.settings.segmentLength) ∧
    (let s := (withSet weathered fun s => { s with segmentLength := 2 }).svc;
      s.wx.openOf (reading 5).device = some seg ∧ segmentBytes (seg.samples ++ [reading 5]) ≤ 360 ∧
      (s.requestBuffers .weather 1).2 = none ∧ s.settings.segmentLength ≤ seg.samples.length + 1) ∧
    (let g : Segment := { seg with samples := List.replicate 33 (reading 5) };
      let s := { way.svc with wx := { way.svc.wx with segments := [g] } };
      s.wx.openOf 2 = some g ∧ 360 < segmentBytes (g.samples ++ [reading 5]) ∧
      (s.closeSegment g .size).wx.openOf 2 = none) := by decide +kernel

/-- The reply of a SAMPLE exchange, and quantities that make a well-formed sample and that do not. -/
theorem witness_RecordsAndSamplesAreTaken_samples :
    (∀ x ∈ [DevState.present, .restarting],
      let e := exchange .sample (.roster 1) 1;
      let v := inFlight x (some e);
      let s := st (deviceAt .weather v);
      s.node.phase = .started ∧ s.node.isHead = false ∧ s.node.set.deviceOn 1 = some 1 ∧ s.node.device 1 = some v ∧
      v.exchange = some e ∧ e.kind = .sample ∧ v.state = x) ∧
    (∀ o, (exchange .sample (.roster 1) 1).asker ≠ .command o) ∧
    (sampleOk [{ code := 4, value := 600 }] = true ∧ sampleOk [] = false ∧ sampleOk [{ code := 4, value := 601 }] = false ∧
      sampleOk [{ code := 4, value := 1 }, { code := 4, value := 1 }] = false ∧
      sampleOk [{ code := 13, value := 1 }] = false) :=
  ⟨by decide +kernel, fun _ => by simp [exchange], by decide +kernel⟩

/-! ## Collection -/

/-- A TOLL batch of station 2 in a state, with this many items of 3 received. -/
def batchIn (x : BatchState) (got : Nat) (fin : Bool) : BatchEntry :=
  { station := 2, kind := .toll, state := x, number := 6, max := 8, n := some 3, received := got, endSeen := fin,
    cause := none, placed := true, timer := some 0, acks := .toll [] }

/-- A head-end with these batches. -/
def batches (l : List BatchEntry) : Node := { hdMap with coll := { Coll.reset with batches := l, last := 6 } }

theorem witness_CollectCommands :
    (∀ k ∈ [none, some CollKind.toll], ∀ x ∈ [0, 2, 3, 999, 1000], ∀ m ∈ [0, 1, 64, 65],
      takesB (st hdMap) (.link 1) (.collect x k m) = true) ∧
    (st hd).node.head.state = .opened ∧ (st hdMap).node.head.state ≠ .opened ∧
    (let n := (st hdMap).node;
      (n.coll.batches.any (fun e => e.station = 2 && e.kind = .toll) ||
        decide (n.set.batchLimit ≤ n.coll.batches.length ∨ 8 ≤ n.coll.heldH.length ∨ 516 < n.coll.delivery.length +
          129 * (n.coll.batches.filter fun e => e.state ≠ .held).length + 129)) = false ∧
      decide ((n.head.entry 2).map MapEntry.presence = some .present) = true ∧
      decide ((n.head.entry 3).map MapEntry.presence = some .present) = false) ∧
    ((batches [batchIn .asked 0 false]).coll.batches.any (fun e => e.station = 2 && e.kind = .toll)) = true ∧
    (∀ x ∈ [BatchState.asked, .held], ∀ g ∈ [0, 3], ∀ b ∈ [0, 6, 7, 256],
      takesB (st (batches [batchIn x g true])) (.link 1) (.collectConfirm b) = true ∧
      takesB (st (batches [batchIn x g true])) (.link 1) (.collectDrop b) = true ∧
      (batches [batchIn x g true]).coll.batches.find? (fun e => e.number = 6) = some (batchIn x g true) ∧
      (batches [batchIn x g true]).coll.batches.find? (fun e => e.number = 7) = none) ∧
    (batches []).coll.heldH.length < 8 := by decide +kernel

theorem witness_AskLoansTheOldest :
    (st tolled).node.phase = .started ∧ (st tolled).node.isHead = false ∧ (st tolled).node.coll.toll = none ∧
    (st weathered).node.phase = .started ∧ (st weathered).node.isHead = false ∧
    (let b : WBatch := { number := 6, next := 1, bound := none, items := [] };
      ({ way with coll := { Coll.reset with toll := some b, weather := some b } }).coll.toll ≠ none ∧
      ({ way with coll := { Coll.reset with toll := some b, weather := some b } }).coll.weather ≠ none) := by
  decide +kernel

/-- A batch bound to a loop or to none, with its next item there, REMOVED or none left. -/
theorem witness_AskLoansTheOldest_items :
    (∀ x ∈ [none, some Loop.outer, some .inner], ∀ k ∈ [1, 2, 3],
      let b : WBatch := { number := 6, next := k, bound := x,
                          items := [(.toll 5 9, .unsent), (.toll 5 10, .removed)] };
      let n := { tolled with coll := { Coll.reset with toll := some b } };
      n.coll.record .toll = some b ∧ (b.bound.getD .outer = .outer ↔ x ≠ some .inner) ∧
      (nth b.items b.next = none ↔ k = 3) ∧ (b.items.length ≤ b.next ↔ k ≠ 1)) ∧
    (let b : WBatch := { number := 6, next := 1, bound := none, items := [(.toll 5 9, .unsent)] };
      let n := { tolled with coll := { Coll.reset with toll := some b } };
      ((slotsOf { source := 999, dest := 1, length := 1,
                  payload := .batchItem 6 .toll 1 1 (.void (.toll 5 9)) }).map Slot.body) =
        [.message (.batchItem 6 .toll 1 1 (.void (.toll 5 9)))] ∧
      (n.itemContents (.toll 5 9)).isSome = true ∧ (n.itemContents (.toll 5 8)).isSome = false) := by decide +kernel

theorem witness_AckRemovesWhatItNames :
    (st tolled).node.phase = .started ∧ (st tolled).node.isHead = false ∧ (st tolled).node.toll.entry 5 ≠ none ∧
    (st tolled).node.toll.entry 6 = none ∧
    weathered.svc.wx.segments.find? (fun g => g.number = 1 && g.state ≠ .opened) = none ∧
    ([{ seg with state := .loaned }].find? (fun g => g.number = 1 && g.state ≠ .opened)).isSome = true ∧
    gantry.device.isSome = true ∧ (tolled.toll.log.any fun r => r.record.gantry = 5 && decide (9 < r.record.seq)) = true := by
  decide +kernel

/-- A list of several pairs: one of an entry that stays, one of an entry without a device or a later record, and one of
no entry. -/
theorem witness_AckRemovesWhatItNames_pairs :
    let x : TollSt := (way.svc, { table false [gantryOf 5 (some 1), gantryOf 6 none] with
      log := [{ record := passage 9, receipt := zeroTime, loan := some 6 },
        { record := { passage 10 with gantry := 6 }, receipt := zeroTime, loan := none }] })
    [(5, 9), (6, 10), (7, 1)] ≠ [] ∧ x.2.entry 7 = none ∧ x.2.entry 5 = some (gantryOf 5 (some 1)) ∧
    x.2.entry 6 = some (gantryOf 6 none) ∧ (gantryOf 6 none).device = none ∧
    (∀ r ∈ x.2.log, r.record.gantry = 6 → r.record.seq ≤ 10) ∧ (x.2.gantries.map Gantry.number).Nodup ∧
    (∀ a ∈ x.2.attachments, a = none) ∧
    ((ackPair way.trib.devices x (6, 10)).1.2.entry 6).isSome = false ∧
    ((ackPair way.trib.devices x (6, 9)).1.2.entry 6).isSome = true := by decide +kernel

theorem witness_BatchMessagesGather :
    (∀ g ∈ [0, 2, 3], ∀ b ∈ [true, false],
      let s := st (batches [batchIn .receiving g b])
      s.node.phase = .started ∧ s.node.isHead = true ∧
      s.node.coll.entryOf 2 6 .toll = some (batchIn .receiving g b) ∧ s.node.coll.entryOf 3 6 .toll = none ∧
      (batchIn .receiving g b).n.getD 3 = 3 ∧
      s.node.coll.batches.find? (fun e => e.number = 6) = some (batchIn .receiving g b) ∧
      due s.node.svc.now (batchIn .receiving g b).timer = true) := by decide +kernel

/-! ## Notices, the host link, the hold and the settings -/

/-- A notice that waits for the host, and for the centre if told so. -/
def noticeFor (centre : Bool) : Notice :=
  { code := .zoneStart, source := 999, received := false, subject := .zone 1, time := zeroTime,
    details := [.causes [.phone]], toHost := true, toCentre := centre }

/-- The node with these notices waiting. -/
def noticed (l : List Notice) (n : Node) : Node :=
  n.onSvc fun s => { s with note := { s.note with queue := l, keep := true } }

theorem witness_NoticesAreKeptAndRead :
    (let s := st (noticed [noticeFor false] hd);
      s.node.phase = .started ∧ s.node.isHead = true ∧ [noticeFor true] ≠ [] ∧
      s.node.svc.note.queue.length + [noticeFor true].length ≤ 256) ∧
    (∀ k ∈ [0, 1, 8, 9], takesB (st (noticed [noticeFor true, noticeFor false] way)) (.link 1) (.noticeRead k) = true ∧
      takesB (st (noticed [noticeFor true] way)) (.centre 1) (.noticeRead k) = true) ∧
    takesB (st way) (.link 1) .noticeClear = true ∧ takesB (st way) (.link 1) (.noticeRouteSet none true true) = true ∧
    takesB (st way) (.link 1) (.noticeRouteSet (some .zoneStart) false true) = true ∧
    due 200 (some 200) = true ∧ due 199 (some 200) = false := by decide +kernel

/-- A queue with room and a full one; a route to the centre, to the host and to neither; what CMD may look at. -/
theorem witness_NoticesAreKeptAndRead_posting :
    (∀ k ∈ [0, 4, 255, 256], (noticed (List.replicate k (noticeFor true)) way).svc.note.queue.length = k ∧
      (noticed (List.replicate k (noticeFor true)) way).svc.note.keep = true) ∧
    ((Note.reset.keep = false) ∧ NotesOk Note.reset ∧ NotesOk (noticed [noticeFor true] way).svc.note) ∧
    (∀ h ∈ [true, false], ∀ c ∈ [true, false],
      (withSet way fun s => { s with routes := [{ code := .zoneStart, host := h, centre := c }] }).set.route .zoneStart =
        { code := .zoneStart, host := h, centre := c }) ∧
    (way.set.role ≠ .headEnd ∧ hd.set.role = .headEnd) ∧
    (let e : NEntry := .msg { id := 1, begun := none,
                              msg := { source := 999, dest := 1, length := 1, payload := .noticeFwd [noticeFor true] } };
      2 ≤ ([e, e].filter NEntry.isNoticeFwd).length ∧ ([e].filter NEntry.isNoticeFwd).length < 2) ∧
    (∀ b ∈ [true, false],
      let n := noticed [noticeFor true] (withSet { way with link := { Link.reset with running := true } } fun s =>
        { s with noticePush := b });
      n.link.running = true ∧ n.link.sending = none ∧ n.restartDue = false ∧ n.link.replies = [] ∧
      n.coll.delivery = [] ∧ n.set.noticePush = b ∧ n.svc.note.queue.find? (·.toHost) = some (noticeFor true)) := by
  unfold NotesOk
  decide +kernel

/-- A call message for the head-end. -/
def ringing : Message := { source := 999, dest := 1, length := 4, payload := .callRequest 1 zeroTime }

/-- A node with messages that WIN refused, at each of its producers. -/
def refusedAt (n : Node) : Node :=
  { n with call := { n.call with held := [ringing, ringing] }
           cmd := { n.cmd with refused := [ringing, ringing] }
           coll := { n.coll with heldH := [ringing, ringing], heldW := [.msg .toll ringing, .batch .weather 6] } }

/-- A freeing to be told and none, to four producers, to one and to none; held messages of both roles. -/
theorem witness_EndOfStepFrame :
    (∀ b ∈ [true, false], (way.onSvc fun s => { s with freed := b }).svc.freed = b) ∧
    (let n := noticed [noticeFor true] (refusedAt way);
      [Producer.call, .cmd, .note, .coll].filter n.waits = [.call, .cmd, .note, .coll] ∧ n.isHead = false) ∧
    [Producer.call, .cmd, .note, .coll].filter (noticed [noticeFor true] way).waits = [.note] ∧
    [Producer.call, .cmd, .note, .coll].filter way.waits = [] ∧
    ((refusedAt hd).isHead = true ∧ (refusedAt hd).call.held = [ringing, ringing] ∧
      (refusedAt hd).cmd.refused = [ringing, ringing] ∧ (refusedAt hd).coll.heldH = [ringing, ringing] ∧
      (refusedAt way).coll.heldW = [.msg .toll ringing, .batch .weather 6]) ∧
    (way.svc.offerNormal ringing).2 = true ∧ ((noBuffers way).svc.offerNormal ringing).2 = false := by decide +kernel

theorem witness_HostFramesComeAndGo :
    (1 < 256 ∧ 255 < 256 ∧ 65535 < 65536 ∧ (List.replicate 240 0#8).length ≤ 240) ∧ (st way).node.phase = .started ∧
    receive ([] ++ [7#8, 1#8]) = .hunting [1#8] ∧ receive ([165#8] ++ [1#8]) = .gathering ∧
    receive ([165#8] ++ [241#8, 1#8]) = .wrongLength [241#8, 1#8] ∧
    (let f : RawFrame := { kind := 1, tag := 7, station := 2, code := 9, body := [1], good := true };
      receive (frameBytes 1 7 2 9#8 [1#8]) = .frame f [] ∧ receive (frameBytes 1 7 0 9#8 [1#8]) =
        .frame { f with station := 0 } [] ∧ receive (frameBytes 2 7 0 9#8 [1#8] ++ [165#8]) =
        .frame { f with station := 0, kind := 2 } [165#8] ∧
      receive [165#8, 1#8, 1#8, 7#8, 0#8, 2#8, 9#8, 1#8, 0#8, 0#8, 9#8] = .frame { f with good := false } [9#8]) ∧
    rowCommand (.timeRead (.link 7)) = some (.link 7, .timeRead) ∧ (st way).node.link.sending = none ∧
    (st way).node.cmd.chanL = none ∧ writingState.node.cmd.chanL ≠ none ∧
    (∀ f ∈ [Frame.notice 0 0 (noticeFor false) false,
        .reply { tag := 1, station := 0, cmd := .command .restart, status := .done, result := .nil, restart := true },
        .data 0 (.result 2 6 .toll (some 3) 3 (some 0) .complete)],
      (st { way with link := { Link.reset with sending := some f } }).node.link.sending = some f) := by decide +kernel

/-- Half a frame, gathered 40 cycle periods ago. -/
theorem witness_HostFramesComeAndGo_gap :
    let s := st (later { way with link := { Link.reset with gather := [165#8], gatherAt := 0 } } 40)
    s.node.phase = .started ∧ s.node.link.gather ≠ [] ∧ 40 ≤ s.node.svc.now - s.node.link.gatherAt := by decide +kernel

/-- A free sender with replies, one of them in its gap, with a NOTICE, with a DATA frame, with both and with neither; and
a sender that is not free. -/
theorem witness_HostFramesComeAndGo_order :
    let r : Reply := { tag := 7, station := 0, cmd := .command .timeRead, status := .done, result := .nil, restart := false }
    let f : DataFrame := .result 2 6 .toll (some 3) 3 (some 0) .complete
    (∀ l ∈ [[], [r]], ∀ g ∈ [[], [7]], ∀ q ∈ [[], [noticeFor false]], ∀ d ∈ [[], [f]], ∀ b ∈ [none, some true, some false],
      let n := withSet (noticed q { way with
          link := { Link.reset with running := true, replies := l, gaps := g, lastNotice := b }
          coll := { Coll.reset with delivery := d } }) fun s => { s with noticePush := true }
      n.link.running = true ∧ n.link.sending = none ∧ n.restartDue = false ∧ n.link.replies = l ∧
      n.coll.delivery = d ∧ n.link.lastNotice = b ∧
      (if n.set.noticePush then n.svc.note.queue.find? (·.toHost) else none) = q.head? ∧ (r.tag ∈ n.link.gaps ↔ g = [7])) ∧
    Link.reset.running = false ∧ ({ Link.reset with sending := some (.reply r) }).sending ≠ none := by decide +kernel

theorem witness_MaintenanceHoldBeginsAndEnds :
    (∀ h ∈ [true, false],
      let s := st { way with cmd := { Cmd.reset with held := h, lapse := some 0 } }
      takesB s (.link 1) .maintHold = true ∧ takesB s (.link 1) .maintEnd = true ∧
      takesB s (.centre 1) .holdReleaseAsk = true ∧ s.node.phase = .started ∧ s.node.cmd.held = h ∧
      due s.node.svc.now s.node.cmd.lapse = true) := by decide +kernel

theorem witness_SettingWritesAndRestart :
    (∀ op ∈ [SettingOp.set, .add, .remove], ∀ i ∈ [0, 1, 2, 13, 32, 94],
      takesB (st way) (.link 1) (.settingWrite op i (.number 5)) = true ∧
      takesB (st way) (.link 1) (.settingWrite op i (.beacons [4])) = true) ∧
    isItem 0 = false ∧ isItem 2 = true ∧ (numberRange 2).isSome = true ∧ numberRange 2 = some (1, 999) ∧
    2 ∉ [11, 13, 60, 70, 80] ∧ otherRole (st way).node.set.role 13 = true ∧ otherRole (st way).node.set.role 2 = false ∧
    nextStart 1 = true ∧ nextStart 2 = false ∧ isItem 32 = true ∧ otherRole (st way).node.set.role 32 = false ∧
    nextStart 32 = false ∧ (st way).node.set.pulseBeacons = [] ∧ takesB (st way) (.link 1) .restart = true := by
  decide +kernel

/-- The items that act besides, at the node of their role, with every value at its bounds. -/
theorem witness_SettingWritesAndRestart_items :
    (∀ x ∈ [(11, 0), (11, 300), (60, 1), (60, 1024), (70, 4), (70, 64)],
      takesB (st weathered) (.link 1) (.settingWrite .set x.1 (.number x.2)) = true ∧
      otherRole weathered.set.role x.1 = false ∧ nextStart x.1 = false ∧
      ((numberRange x.1).map fun r => decide (r.1 ≤ x.2 ∧ x.2 ≤ r.2)) = some true) ∧
    (∀ x ∈ [(13, 4), (13, 24), (80, 1), (80, 4)],
      takesB (st hdMap) (.link 1) (.settingWrite .set x.1 (.number x.2)) = true ∧ otherRole hdMap.set.role x.1 = false ∧
      ((numberRange x.1).map fun r => decide (r.1 ≤ x.2 ∧ x.2 ≤ r.2)) = some true) ∧
    (∀ b ∈ [true, false],
      ({ way with ring := { Ring.reset with restoring := b } }).ring.restoring = b ∧
      (hd.onHead fun h => { h with restoring := b }).head.restoring = b ∧
      ((calls [{ callIn .connected with slot := some (if b then 5 else 4) }]).call.table.any fun e =>
        e.slot.any fun k => 4 < k && k ≤ 24) = b) ∧
    (st hdMap).node.call.waiting = [] ∧
    (∀ op ∈ [SettingOp.set, .add, .remove],
      takesB (st way) (.link 1) (.settingWrite op 31 (.actions [.timeMark])) = true) ∧
    (1 < (batches [batchIn .asked 0 false, batchIn .held 3 true]).coll.batches.length ∧
      (batches [batchIn .asked 0 false]).coll.batches.length ≤ 1) ∧
    (weathered.svc.wx.segments = [seg] ∧ seg.state = .opened ∧ seg.samples.length < 4) := by decide +kernel

/-- Values of the list items that no candidate comes of, that are out of range, and that are taken; one of another form. -/
theorem witness_SettingWritesAndRestart_lists :
    (∀ op ∈ [SettingOp.set, .add, .remove], ∀ i ∈ [21, 33, 34, 40, 41, 44, 45, 46, 50, 71, 90],
      takesB (st way) (.link 1) (.settingWrite op i (.keys [])) = true ∧
      takesB (st way) (.link 1) (.settingWrite op i (.number 1)) = true ∧ isItem i = true ∧ numberRange i = none ∧
      otherRole (st way).node.set.role i = false ∧ nextStart i = false ∧
      SettingValue.fits i op (.number 1) = false) ∧
    (let made := candidate way.set way.svc.pool.bounds;
      made 21 .set (.portZones [(1, 2), (1, 3)]) = none ∧ made 21 .add (.portZones [(9, 2)]) = none ∧
      made 21 .remove (.keys [.cls .toll]) = none ∧
      ((made 21 .set (.portZones [(8, 9)])).map fun x => x.inRange 21) = some false ∧
      ((made 21 .add (.portZones [(8, 8), (8, 7)])).map fun x => x.inRange 21) = some true ∧
      ((made 33 .set (.pattern [(1, 256)])).map fun x => x.inRange 33) = some false ∧
      ((made 40 .set (.remap [(1, some 2), (2, some 2)])).map fun x => x.inRange 40) = some false ∧
      made 41 .add (.kinds [(1, none)]) = none ∧ made 90 .remove (.keys [.num 1]) = none ∧
      made 90 .set (.routes [defaultRoute .deviceState, defaultRoute .deviceState]) = none ∧
      made 50 .remove (.keys [.num 1]) = none) ∧
    (let v := inFlight .present (some (exchange .status .attach 1));
      (deviceAt .sign v).device 1 = some v ∧ v.exchange ≠ none) ∧
    (∀ d ∈ places 8, (way.device d).map (fun w => (w.exchange, w.commands)) = some (none, [])) := by decide +kernel

/-- The state in which the record has not yet been taken. -/
def beforeAppend : State :=
  { writingState with node := { writingState.node with writing := none, cmd := { Cmd.reset with held := true } } }

theorem witness_StoredRecordsAreWritten :
    (takesB beforeAppend (.link 3) (.storeAppend [0, 6, 0, 11, 1, 18]) = true ∧
      recordOk [0, 6, 0, 11, 1, 18] = true ∧ recordOk [0, 6, 0, 11, 1, 19] = false ∧
      storeEnd beforeAppend.store + 6 ≤ 4096 ∧
      takesB { beforeAppend with store := [(0, 15), (1, 252)] } (.link 3) (.storeAppend [0, 6, 0, 11, 1, 18]) = true ∧
      4096 < storeEnd [(0, 15), (1, 252)] + 6) ∧
    writingState.node.writing = some [0, 6, 0, 11, 1, 18] ∧ storeEnd writingState.store = 6 ∧
    Memory.wf writingState.store = true ∧ (writingState.store.all fun c => decide (c.1 < 6)) = true ∧
    writingState.node.cmd.chanL = some { origin := .link 3, cmd := .storeAppend [0, 6, 0, 11, 1, 18] } := by
  decide +kernel

/-- Records in the store: a sound one of this role, one of the other role, one with a wrong check, and one cut short;
and list values that pass and that do not. -/
theorem witness_StoredRecordsAreWritten_lists :
    (soundRecord [(0, 0), (1, 6), (2, 0), (3, 10), (4, 1), (5, 17)] (0, 6) = some [0, 6, 0, 10, 1, 17] ∧
      soundRecord [(0, 0), (1, 6), (2, 0), (3, 10), (4, 1), (5, 18)] (0, 6) = none ∧
      recordFields [0, 6, 0, 10, 1, 17] = some (10, 1, []) ∧ otherRole Role.wayside 13 = true ∧
      otherRole Role.wayside 10 = false ∧ nextStart 10 = false ∧ nextStart 13 = false) ∧
    ((∀ k ∈ [some 1, none, some 8].filterMap id, 1 ≤ k ∧ k ≤ 8) ∧ ([some 1, none, some 8].filterMap id).Nodup ∧
      ¬([some 1, some 1].filterMap id).Nodup) ∧
    (let ok : List Binding := [.sign 3 1 (page 9), .beacon 3 1 6 8];
      (ok.map bindingKey).Nodup ∧ (∀ b ∈ ok, bindingOk b = true) ∧ bindingOk (.beacon 9 1 6 8) = false ∧
      (ok.filter fun b => (bindingSign b).isSome && !way.set.bindings.contains b).length = 1 ∧
      (askSigns 1 way.svc).2 = 1 ∧ (askSigns 1 (noBuffers way).svc).2 = 0) ∧
    (nth (ruled .clear).set.rules 1 ≠ none ∧ nth [some { warm with level := 11 }] 1 = some (some { warm with level := 11 }) ∧
      Candidate.inRange 71 (.rules [some warm]) = true ∧
      Candidate.inRange 71 (.rules [some { warm with hold := 9 }]) = false) := by decide +kernel

/-- Bindings kept and lost, with the lost one's page in a load, another in one, and none; signs and beacons named or not;
and a rule changed while tripped and while CLEAR. -/
theorem witness_StoredRecordsAreWritten_taken :
    (∀ k ∈ [none, some (PageSrc.binding 3), some .normal],
      let g := { stagedSign 5 with load := k.map (Load.mk 9) }
      let n := withSet (signAt g) fun s => { s with bindings := boundNode.set.bindings }
      n.zone.sign 1 = some g ∧ n.zone.sign 2 = none ∧ n.set.bindings.length = 3 ∧
      (n.set.bindings.filter fun b => (bindingSign b).isSome && !([.beacon 2 1 5 7] : List Binding).contains b) =
        [.sign 3 1 (page 9)] ∧
      (nth n.zone.beacons 1).isSome = true ∧ (nth n.zone.beacons 4).isSome = true) ∧
    (∀ x ∈ [RuleState.tripped, .clear],
      nth (ruled x).set.rules 1 = some (some warm) ∧ nth (ruled x).set.rules 1 ≠ nth (ruled x).set.rules 2 ∧
      ((nth (ruled x).rules 1).map fun r => isTripped r.state) = some (decide (x = .tripped)) ∧
      nth (ruled x).rules 8 = some { state := .clear, last := none, since := zeroTime }) := by decide +kernel

/-- Records of next-start items whose operation is REMOVE or unknown, and one of another item with an unknown operation. -/
theorem witness_StoredRecordsAreWritten_records :
    recordFields [0, 6, 0, 1, 3, 10] = some (1, 3, []) ∧ recordFields [0, 6, 0, 1, 9, 16] = some (1, 9, []) ∧
    recordFields [0, 6, 0, 10, 9, 25] = some (10, 9, []) ∧ nextStart 1 = true ∧ nextStart 3 = true ∧
    nextStart 4 = true ∧ recordOp 1 = some .set ∧ recordOp 3 = some .remove ∧ recordOp 0 = none ∧ recordOp 9 = none ∧
    soundRecord [(0, 0), (1, 6), (2, 0), (3, 1), (4, 9), (5, 16)] (0, 6) = some [0, 6, 0, 1, 9, 16] := by decide +kernel

/-! ## A few steps -/

/-- A reset begins with the blank store, and a start leaves the wayside 999. -/
theorem test_start :
    (match exec .start State.reset with
      | .next t => decide (t.node.me = 999 ∧ t.node.isHead = false ∧ t.node.phase = .started)
      | _ => false) = true := by decide +kernel

/-- The record being written stands in the store after the next one. -/
theorem test_written :
    (match exec .storeWriteDone writingState with
      | .next t => decide (storeEnd t.store = 12 ∧ readByte t.store 9 = some 11#8 ∧ t.node.writing = none)
      | _ => false) = true := by decide +kernel

/-- Two past the level trip a rule of hold count 2. -/
theorem test_trip :
    (let x := evaluateRule (reading 11) ((ruled .clear).svc, (ruled .clear).rules) 1
     (nth (evaluateRule (reading 12) x 1).2 1).map RuleRec.state) = some .tripped := by decide +kernel

/-- ZONE-START makes zone 3 ACTIVE. -/
theorem test_zoneStart :
    (match exec (.zoneStart (.link 1) 3) (st way) with
      | .next t => decide ((nth t.node.zone.zones 3).map ZoneRec.causes = some [.command] ∧
          t.node.link.replies.map Reply.status = [.done])
      | _ => false) = true := by decide +kernel

/-- COLLECT-ASK lends the older of two records. -/
theorem test_collectAsk :
    (match exec (.collectAsk 7 .toll 1) (st tolled) with
      | .next t => decide (t.node.toll.log.map LogRecord.loan = [some 7, none] ∧
          (t.node.coll.toll.map WBatch.items) = some [(.toll 5 9, .unsent)])
      | _ => false) = true := by decide +kernel

end Sys2Proof.Tests
end

/-! SUPPORT. The sign commands (04 section 4.3.1): what each does to the node, case by case, and the statement
about them. -/

namespace Sys2Proof.Machine

/-! ## Commands that end at once (R186) -/

/-- R186: a command that ends as soon as it is taken, and that has no part in the command channels, leaves what its
action leaves and is replied to with what its action answers. -/
theorem State.command_atOnce {s : State} {o : Origin} {c : Command} (h : Takes s o c)
    {act : Node → Node × Status × Value} (hperform : ∀ n : Node, n.perform s.store o c = atOnce (act n))
    (honCmd : ∀ (n : Node) f, act (n.onCmd f) = ((act n).1.onCmd f, (act n).2))
    (hcmd : ∀ n, (act n).1.cmd = n.cmd) {m : Node} {st : Status} {v : Value} (hact : act s.node = (m, st, v)) :
    s.command o c = .next (s.replied m o c st v) := by
  refine State.command_replied h m st v ?_ ?_
  · have hm : m.cmd = s.node.cmd := by rw [← hcmd s.node, hact]
    rw [hm]
    exact h.free
  · rw [hperform, honCmd, hact]
    rfl

/-! ## The checks of a sign command -/

theorem Node.signCommand_outside (n : Node) {d : Nat} (act : Sign → Node × Status × Value) (h : d < 1 ∨ 8 < d) :
    n.signCommand d act = (n, .badArgument, .nil) := if_pos h

theorem Node.signCommand_unknown (n : Node) {d : Nat} (act : Sign → Node × Status × Value) (h : ¬(d < 1 ∨ 8 < d))
    (hg : n.zone.sign d = none) : n.signCommand d act = (n, .notFound, .nil) := by
  simp only [Node.signCommand, if_neg h, hg]

theorem Node.signCommand_known (n : Node) {d : Nat} (act : Sign → Node × Status × Value) {g : Sign}
    (h : ¬(d < 1 ∨ 8 < d)) (hg : n.zone.sign d = some g) : n.signCommand d act = act g := by
  simp only [Node.signCommand, if_neg h, hg]

/-- A sign command whose action has no part in the command channels has none itself. -/
theorem Node.signCommand_onCmd (n : Node) (f : Cmd → Cmd) (d : Nat) {act act' : Sign → Node × Status × Value}
    (hact : ∀ g, act' g = ((act g).1.onCmd f, (act g).2)) :
    (n.onCmd f).signCommand d act' = ((n.signCommand d act).1.onCmd f, (n.signCommand d act).2) := by
  unfold Node.signCommand
  rw [Node.onCmd_zone]
  split
  · rfl
  · cases n.zone.sign d with
    | none => rfl
    | some g => exact hact g

theorem Node.signCommand_cmd (n : Node) (d : Nat) {act : Sign → Node × Status × Value}
    (hact : ∀ g, (act g).1.cmd = n.cmd) : (n.signCommand d act).1.cmd = n.cmd := by
  unfold Node.signCommand
  split
  · rfl
  · cases n.zone.sign d with
    | none => rfl
    | some g => exact hact g

/-! ## The request for a SIGN buffer (R85) -/

/-- The node after its request for one SIGN buffer, granted or refused. -/
def Node.askedSign (n : Node) : Node := { n with svc := (n.svc.requestBuffers .sign 1).1 }

@[simp] theorem Node.askedSign_zone (n : Node) : n.askedSign.zone = n.zone := rfl

/-- What SIGN-SHOW and SIGN-STAGE have in common once their sign is known: bad arguments are refused, then a SIGN buffer
is asked for, and only with it does `f` act and `v` answer. -/
def Node.withSignBuffer (n : Node) (bad : Prop) [Decidable bad] (f : ZoneSt → ZoneSt) (v : Zone → Value) :
    Node × Status × Value :=
  if bad then (n, .badArgument, .nil)
  else match n.svc.requestBuffers .sign 1 with
    | (s, some _) => ({ n with svc := s }, .noRoom, .nil)
    | (s, none) => ({ n with svc := s }.onZone f, .done, v ({ n with svc := s }.onZone f).zone)

section
variable (n : Node) {bad : Prop} [Decidable bad] (f : ZoneSt → ZoneSt) (v : Zone → Value)

theorem Node.withSignBuffer_bad (h : bad) : n.withSignBuffer bad f v = (n, .badArgument, .nil) := if_pos h

theorem Node.withSignBuffer_noRoom (h : ¬bad) (hr : (n.svc.requestBuffers .sign 1).2 ≠ none) :
    n.withSignBuffer bad f v = (n.askedSign, .noRoom, .nil) := by
  obtain ⟨r, hr⟩ := Option.ne_none_iff_exists'.1 hr
  have hrefused : n.svc.requestBuffers .sign 1 = (n.askedSign.svc, some r) := Prod.ext rfl hr
  rw [Node.withSignBuffer, if_neg h, hrefused]
  rfl

theorem Node.withSignBuffer_granted (h : ¬bad) (hr : (n.svc.requestBuffers .sign 1).2 = none) :
    n.withSignBuffer bad f v = (n.askedSign.onZone f, .done, v (n.askedSign.onZone f).zone) := by
  have hgranted : n.svc.requestBuffers .sign 1 = (n.askedSign.svc, none) := Prod.ext rfl hr
  rw [Node.withSignBuffer, if_neg h, hgranted]
  rfl

theorem Node.withSignBuffer_onCmd (k : Cmd → Cmd) :
    (n.onCmd k).withSignBuffer bad f v = ((n.withSignBuffer bad f v).1.onCmd k, (n.withSignBuffer bad f v).2) := by
  unfold Node.withSignBuffer
  rw [Node.onCmd_svc]
  split
  · rfl
  · rcases n.svc.requestBuffers .sign 1 with ⟨t, _ | r⟩ <;> rfl

theorem Node.withSignBuffer_cmd : (n.withSignBuffer bad f v).1.cmd = n.cmd := by
  unfold Node.withSignBuffer
  split
  · rfl
  · rcases n.svc.requestBuffers .sign 1 with ⟨t, _ | r⟩ <;> rfl

end

/-- R86: what SIGN-SHOW tells of a sign: its wanted page and its state. -/
def Zone.shownReport (d : Nat) (z : Zone) : Value :=
  Value.opt (fun g : Sign => .list [Value.opt (fun w : Nat × Nat => .nat w.1) g.wanted, .sign g.state]) (z.sign d)

/-- R86: SIGN-SHOW by its parts. -/
theorem Node.signShow_eq (n : Node) (d : Nat) (p : Page) :
    n.signShow d p =
      n.signCommand d fun _ => n.withSignBuffer (pageOk p = false) (showPage d p) (Zone.shownReport d) := rfl

/-- R87: SIGN-STAGE by its parts. -/
theorem Node.signStage_eq (n : Node) (d : Nat) (p : Page) (tag : Nat) :
    n.signStage d p tag =
      n.signCommand d fun _ =>
        n.withSignBuffer (pageOk p = false ∨ 255 < tag) (setStaged d (some (p, tag))) fun _ => .nil := rfl

theorem Node.signShow_known (n : Node) {d : Nat} (p : Page) {g : Sign} (h : ¬(d < 1 ∨ 8 < d))
    (hg : n.zone.sign d = some g) :
    n.signShow d p = n.withSignBuffer (pageOk p = false) (showPage d p) (Zone.shownReport d) :=
  (n.signShow_eq d p).trans (n.signCommand_known _ h hg)

theorem Node.signStage_known (n : Node) {d : Nat} (p : Page) (tag : Nat) {g : Sign} (h : ¬(d < 1 ∨ 8 < d))
    (hg : n.zone.sign d = some g) :
    n.signStage d p tag =
      n.withSignBuffer (pageOk p = false ∨ 255 < tag) (setStaged d (some (p, tag))) fun _ => .nil :=
  (n.signStage_eq d p tag).trans (n.signCommand_known _ h hg)

/-! ## The rows -/

/-- R86: SIGN-SHOW leaves what its action leaves. -/
theorem exec_signShow {s : State} {o : Origin} {d : Nat} {p : Page} (h : Takes s o (.signShow d p))
    {m : Node} {st : Status} {v : Value} (hm : s.node.signShow d p = (m, st, v)) :
    exec (.signShow o d p) s = .next (s.replied m o (.signShow d p) st v) :=
  State.command_atOnce h
    (act := fun n => n.signCommand d fun _ =>
      n.withSignBuffer (pageOk p = false) (showPage d p) (Zone.shownReport d)) (fun _ => rfl)
    (fun n f => n.signCommand_onCmd f d fun _ => n.withSignBuffer_onCmd _ _ f)
    (fun n => n.signCommand_cmd d fun _ => n.withSignBuffer_cmd _ _) ((Node.signShow_eq ..).symm.trans hm)

/-- R87: SIGN-STAGE leaves what its action leaves. -/
theorem exec_signStage {s : State} {o : Origin} {d tag : Nat} {p : Page} (h : Takes s o (.signStage d p tag))
    {m : Node} {st : Status} {v : Value} (hm : s.node.signStage d p tag = (m, st, v)) :
    exec (.signStage o d p tag) s = .next (s.replied m o (.signStage d p tag) st v) :=
  State.command_atOnce h
    (act := fun n => n.signCommand d fun _ =>
      n.withSignBuffer (pageOk p = false ∨ 255 < tag) (setStaged d (some (p, tag))) fun _ => .nil) (fun _ => rfl)
    (fun n f => n.signCommand_onCmd f d fun _ => n.withSignBuffer_onCmd _ _ f)
    (fun n => n.signCommand_cmd d fun _ => n.withSignBuffer_cmd _ _) ((Node.signStage_eq ..).symm.trans hm)

/-- R88: SIGN-UNSTAGE leaves what its action leaves. -/
theorem exec_signUnstage {s : State} {o : Origin} {d : Nat} (h : Takes s o (.signUnstage d))
    {m : Node} {st : Status} {v : Value} (hm : s.node.signUnstage d = (m, st, v)) :
    exec (.signUnstage o d) s = .next (s.replied m o (.signUnstage d) st v) :=
  State.command_atOnce h (act := fun n => n.signUnstage d) (fun _ => rfl)
    (fun n f => n.signCommand_onCmd f d fun _ => rfl) (fun n => n.signCommand_cmd d fun _ => rfl) hm

/-! ## Pages shown and staged -/

theorem Zone.sign_changeSign_same (z : Zone) {d : Nat} (f : Sign → Sign) :
    (z.changeSign d f).sign d = (z.sign d).map f := by rw [sign_changeSign, if_pos rfl]

/-- R80: what working out one sign does. -/
theorem workOutSign_spec (d : Nat) (x : ZoneSt) :
    (workOutSign d x).2.zones = x.2.zones ∧
    (workOutSign d x).2.sign d = (x.2.sign d).map (workedOut x.1.settings x.2 d) ∧
    ∀ k, k ≠ d → (workOutSign d x).2.sign k = x.2.sign k := by
  obtain ⟨-, -, hzones, -, hsign, -⟩ := foldl_workOutSign [d] x (List.nodup_singleton d)
  exact ⟨hzones, (hsign d).trans (if_pos (by simp)), fun k hk => (hsign k).trans (if_neg (by simpa using hk))⟩

/-- R80, R83: a sign worked out from a record that is not in FAULT is not in FAULT. -/
theorem workedOut_noFault (s : Settings) (z : Zone) (d : Nat) {g : Sign} (h : g.fault = false) :
    (workedOut s z d g).fault = false ∧ (workedOut s z d g).state ≠ .fault := by
  simp only [workedOut, h, Bool.false_and, Bool.false_eq_true, if_false, true_and]
  split <;> simp

/-- R83: a record with FAULT ended and its failures counted afresh. -/
def Sign.clearFault (g : Sign) : Sign := if g.fault then { g with fault := false, attempts := 0 } else g

theorem Sign.clearFault_spec (g : Sign) :
    g.clearFault.normal = g.normal ∧ g.clearFault.staged = g.staged ∧ g.clearFault.fault = false := by
  unfold Sign.clearFault
  cases hf : g.fault with
  | true => exact ⟨rfl, rfl, rfl⟩
  | false => exact ⟨rfl, rfl, hf⟩

theorem endFault_eq (d : Nat) (x : ZoneSt) :
    endFault d x = workOutSign d (x.1, x.2.changeSign d Sign.clearFault) := rfl

/-- R83: after the end of FAULT the sign is not in FAULT; its pages, the other signs and the zones stay. -/
theorem endFault_spec {d : Nat} {g : Sign} {x : ZoneSt} (hg : x.2.sign d = some g) :
    (endFault d x).2.zones = x.2.zones ∧
    (∃ g', (endFault d x).2.sign d = some g' ∧ g'.normal = g.normal ∧ g'.staged = g.staged ∧ g'.fault = false ∧
      g'.state ≠ .fault) ∧
    ∀ k, k ≠ d → (endFault d x).2.sign k = x.2.sign k := by
  rw [endFault_eq]
  obtain ⟨hzones, hsign, hothers⟩ := workOutSign_spec d (x.1, x.2.changeSign d Sign.clearFault)
  obtain ⟨hnormal, hstaged, hfault⟩ := g.clearFault_spec
  rw [Zone.sign_changeSign_same, hg] at hsign
  exact ⟨hzones, ⟨_, hsign, hnormal, hstaged, workedOut_noFault _ _ d hfault⟩,
    fun k hk => (hothers k hk).trans (Zone.sign_changeSign_other _ _ hk)⟩

/-- R85: a page given up leaves its sign's staged page. -/
theorem giveUpPage_staged {d : Nat} (src : PageSrc) {g : Sign} {x : ZoneSt} (hg : x.2.sign d = some g) :
    ∃ g', (giveUpPage d src x).2.sign d = some g' ∧ g'.staged = g.staged := by
  unfold giveUpPage
  split
  · split
    · rw [Zone.sign_changeSign_same, hg]
      exact ⟨_, rfl, rfl⟩
    · exact ⟨g, hg, rfl⟩
  · exact ⟨g, hg, rfl⟩

/-- R86: the page shown is the normal page and FAULT has ended; the staged page, the other signs and the zones stay. -/
theorem showPage_spec {d : Nat} (p : Page) {g : Sign} {x : ZoneSt} (hg : x.2.sign d = some g) :
    (showPage d p x).2.zones = x.2.zones ∧
    (∃ g', (showPage d p x).2.sign d = some g' ∧ g'.normal = some p ∧ g'.staged = g.staged ∧ g'.fault = false ∧
      g'.state ≠ .fault) ∧
    ∀ k, k ≠ d → (showPage d p x).2.sign k = x.2.sign k := by
  have hgiven : ∃ y : ZoneSt, showPage d p x =
        endFault d (y.1, y.2.changeSign d fun g => { g with normal := some p }) ∧
      y.2.zones = x.2.zones ∧ (∃ g₁, y.2.sign d = some g₁ ∧ g₁.staged = g.staged) ∧
      ∀ k, k ≠ d → y.2.sign k = x.2.sign k := by
    refine ⟨if g.normal.isSome = true then giveUpPage d .normal x else x, by simp only [showPage, hg], ?_⟩
    split
    · obtain ⟨-, hzones, -, hothers⟩ := giveUpPage_spec d .normal x
      exact ⟨hzones, giveUpPage_staged .normal hg, hothers⟩
    · exact ⟨rfl, ⟨g, hg, rfl⟩, fun _ _ => rfl⟩
  obtain ⟨y, hy, hyzones, ⟨g₁, hg₁, hstaged₁⟩, hyothers⟩ := hgiven
  have hnew : (y.2.changeSign d fun g => { g with normal := some p }).sign d = some { g₁ with normal := some p } := by
    rw [Zone.sign_changeSign_same, hg₁]; rfl
  obtain ⟨hzones, ⟨g', hg', hnormal, hstaged, hfault, hstate⟩, hothers⟩ :=
    endFault_spec (x := (y.1, y.2.changeSign d fun g => { g with normal := some p })) hnew
  rw [hy]
  exact ⟨hzones.trans hyzones, ⟨g', hg', hnormal, hstaged.trans hstaged₁, hfault, hstate⟩,
    fun k hk => (hothers k hk).trans ((Zone.sign_changeSign_other _ _ hk).trans (hyothers k hk))⟩

/-- R87, R88: the staged page set, and nothing else of the record; the other signs and the zones stay. A page that stood
there gives up its buffer. -/
theorem setStaged_spec {d : Nat} (staged : Option (Page × Nat)) {g : Sign} {x : ZoneSt} (hg : x.2.sign d = some g) :
    (setStaged d staged x).1 = (if g.staged.isSome = true then x.1.freeBuffers .sign 1 else x.1) ∧
    (setStaged d staged x).2.zones = x.2.zones ∧
    (setStaged d staged x).2.sign d = some { g with staged := staged } ∧
    ∀ k, k ≠ d → (setStaged d staged x).2.sign k = x.2.sign k := by
  refine ⟨by simp only [setStaged, hg], rfl, ?_, fun k hk => Zone.sign_changeSign_other _ _ hk⟩
  exact (Zone.sign_changeSign_same _ _).trans (by rw [hg]; rfl)

/-! ## The statement -/

/-- R86: SIGN-SHOW of a page in range, for a sign with a record and a buffer granted. -/
theorem exec_signShow_granted {s : State} {o : Origin} {d : Nat} {p : Page} {g : Sign}
    (h : Takes s o (.signShow d p)) (hd : ¬(d < 1 ∨ 8 < d)) (hg : s.node.zone.sign d = some g)
    (hp : ¬pageOk p = false) (hr : (s.node.svc.requestBuffers .sign 1).2 = none) :
    ∃ m g' v, exec (.signShow o d p) s = .next (s.replied m o (.signShow d p) .done v) ∧
      m.zone.sign d = some g' ∧ g'.normal = some p ∧ g'.staged = g.staged ∧ g'.fault = false ∧ g'.state ≠ .fault ∧
      (∀ k, k ≠ d → m.zone.sign k = s.node.zone.sign k) ∧ m.zone.zones = s.node.zone.zones := by
  have hdone := (s.node.signShow_known p hd hg).trans (s.node.withSignBuffer_granted _ _ hp hr)
  obtain ⟨hzones, ⟨g', hg', hnormal, hstaged, hfault, hstate⟩, hothers⟩ :=
    showPage_spec (x := (s.node.askedSign.svc, s.node.askedSign.zone)) p hg
  exact ⟨_, g', _, exec_signShow h hdone, hg', hnormal, hstaged, hfault, hstate, hothers, hzones⟩

/-- R87: SIGN-STAGE of a page and tag in range, for a sign with a record and a buffer granted. -/
theorem exec_signStage_granted {s : State} {o : Origin} {d tag : Nat} {p : Page} {g : Sign}
    (h : Takes s o (.signStage d p tag)) (hd : ¬(d < 1 ∨ 8 < d)) (hg : s.node.zone.sign d = some g)
    (hp : ¬(pageOk p = false ∨ 255 < tag)) (hr : (s.node.svc.requestBuffers .sign 1).2 = none) :
    ∃ m, exec (.signStage o d p tag) s = .next (s.replied m o (.signStage d p tag) .done .nil) ∧
      m.zone.sign d = some { g with staged := some (p, tag) } ∧
      (∀ k, k ≠ d → m.zone.sign k = s.node.zone.sign k) ∧ m.zone.zones = s.node.zone.zones := by
  have hdone := (s.node.signStage_known p tag hd hg).trans (s.node.withSignBuffer_granted _ _ hp hr)
  obtain ⟨-, hzones, hsign, hothers⟩ :=
    setStaged_spec (x := (s.node.askedSign.svc, s.node.askedSign.zone)) (some (p, tag)) hg
  exact ⟨_, exec_signStage h hdone, hsign, hothers, hzones⟩

/-- R88: SIGN-UNSTAGE of a sign with a record. -/
theorem exec_signUnstage_known {s : State} {o : Origin} {d : Nat} {g : Sign} (h : Takes s o (.signUnstage d))
    (hd : ¬(d < 1 ∨ 8 < d)) (hg : s.node.zone.sign d = some g) :
    ∃ m, exec (.signUnstage o d) s = .next (s.replied m o (.signUnstage d) .done .nil) ∧
      m.zone.sign d = some { g with staged := none } ∧ (∀ k, k ≠ d → m.zone.sign k = s.node.zone.sign k) ∧
      (g.staged = none → m.svc = s.node.svc) ∧
      (g.staged.isSome = true → m.svc = s.node.svc.freeBuffers .sign 1) := by
  obtain ⟨hsvc, -, hsign, hothers⟩ := setStaged_spec (x := (s.node.svc, s.node.zone)) none hg
  exact ⟨_, exec_signUnstage h (s.node.signCommand_known _ hd hg), hsign, hothers,
    fun hn => hsvc.trans (if_neg (by simp [hn])), fun hs => hsvc.trans (if_pos hs)⟩

/-- Settles O35: each command by the case of its device, its sign record, its arguments and its SIGN buffer. -/
theorem signCommands : Obligations.SignCommands := by
  intro o d p tag s n bad room others
  have outside : bad = true → d < 1 ∨ 8 < d := of_decide_eq_true
  have inside : bad = false → ¬(d < 1 ∨ 8 < d) := of_decide_eq_false
  refine ⟨fun h => ⟨?showOutside, ?showUnknown, fun g hb hg => ⟨?showBadPage, ?showNoRoom, ?showGranted⟩⟩,
    fun h => ⟨?stageOutside, ?stageUnknown, fun g hb hg => ⟨?stageBad, ?stageNoRoom, ?stageGranted⟩⟩,
    fun h => ⟨?unstageOutside, ?unstageUnknown, fun g hb hg => exec_signUnstage_known h (inside hb) hg⟩⟩
  case showOutside => exact fun hb => exec_signShow h (n.signCommand_outside _ (outside hb))
  case showUnknown => exact fun hb hg => exec_signShow h (n.signCommand_unknown _ (inside hb) hg)
  case showBadPage =>
    exact fun hp => exec_signShow h ((n.signShow_known p (inside hb) hg).trans (n.withSignBuffer_bad _ _ hp))
  case showNoRoom =>
    exact fun hp hr => ⟨_, exec_signShow h ((n.signShow_known p (inside hb) hg).trans
      (n.withSignBuffer_noRoom _ _ (by simp [hp]) hr)), n.askedSign_zone⟩
  case showGranted => exact fun hp hr => exec_signShow_granted h (inside hb) hg (by simp [hp]) hr
  case stageOutside => exact fun hb => exec_signStage h (n.signCommand_outside _ (outside hb))
  case stageUnknown => exact fun hb hg => exec_signStage h (n.signCommand_unknown _ (inside hb) hg)
  case stageBad =>
    exact fun hp => exec_signStage h ((n.signStage_known p tag (inside hb) hg).trans (n.withSignBuffer_bad _ _ hp))
  case stageNoRoom =>
    exact fun hp ht hr => ⟨_, exec_signStage h ((n.signStage_known p tag (inside hb) hg).trans
      (n.withSignBuffer_noRoom _ _ (by simp [hp, ht]) hr)), n.askedSign_zone⟩
  case stageGranted => exact fun hp ht hr => exec_signStage_granted h (inside hb) hg (by simp [hp, ht]) hr
  case unstageOutside => exact fun hb => exec_signUnstage h (n.signCommand_outside _ (outside hb))
  case unstageUnknown => exact fun hb hg => exec_signUnstage h (n.signCommand_unknown _ (inside hb) hg)

end Sys2Proof.Machine

/-! SUPPORT. POOL (06): what a request, a free, an eviction (R152) and new bounds (R127) do to the pool, case by case,
that TOLL's holding goes on counting its log (R138, R143), and the statement about them. -/

namespace Sys2Proof.Machine

/-! ## The record of a class after each operation (R122, R128) -/

/-- A field that a change of one class's record keeps is as it was in every class. -/
theorem Pool.field_change {α : Type} (field : ClassRec → α) (p : Pool) {c : PoolClass} {f : ClassRec → ClassRec}
    (h : field (f (p.cls c)) = field (p.cls c)) (x : PoolClass) : field ((p.change c f).cls x) = field (p.cls x) := by
  by_cases hx : x = c
  · subst hx
    rw [Pool.cls_change, h]
  · rw [p.cls_change_other f hx]

theorem Pool.waiting_change (p : Pool) (c : PoolClass) (f : ClassRec → ClassRec) :
    (p.change c f).waiting = p.waiting := by
  cases c <;> rfl

theorem Pool.cls_grant (p : Pool) (c : PoolClass) (n : Nat) :
    (p.grant c n).cls c = { p.cls c with
      holding := (p.cls c).holding + n
      high := max (p.cls c).high ((p.cls c).holding + n)
      granted := bump Config.wordMax (p.cls c).granted } := by
  cases c <;> rfl

theorem Pool.cls_grant_other (p : Pool) {c x : PoolClass} (n : Nat) (h : x ≠ c) : (p.grant c n).cls x = p.cls x :=
  p.cls_change_other _ h

theorem Pool.cls_release (p : Pool) (c : PoolClass) (n : Nat) :
    (p.release c n).cls c = { p.cls c with holding := (p.cls c).holding - min n (p.cls c).holding } := by
  cases c <;> rfl

theorem Pool.cls_release_other (p : Pool) {c x : PoolClass} (n : Nat) (h : x ≠ c) :
    (p.release c n).cls x = p.cls x :=
  p.cls_change_other _ h

/-- R123: a refusal moves no buffer. -/
theorem Pool.holding_refuse (p : Pool) (c : PoolClass) (r : PoolReason) (x : PoolClass) :
    ((p.refuse c r).cls x).holding = (p.cls x).holding :=
  p.field_change ClassRec.holding (by cases r <;> rfl) x

theorem Pool.holding_countEviction (p : Pool) (c : PoolClass) (k : Nat) (x : PoolClass) :
    ((p.countEviction c k).cls x).holding = (p.cls x).holding :=
  p.field_change ClassRec.holding rfl x

/-- R128: the high marks and the least free count are the same in two pools. -/
def Pool.SameMarks (p q : Pool) : Prop := (∀ x, (q.cls x).high = (p.cls x).high) ∧ q.leastFree = p.leastFree

theorem Pool.sameMarks_change (p : Pool) {c : PoolClass} {f : ClassRec → ClassRec}
    (h : (f (p.cls c)).high = (p.cls c).high) : p.SameMarks (p.change c f) :=
  ⟨p.field_change ClassRec.high h, p.leastFree_change c f⟩

theorem Pool.sameMarks_release (p : Pool) (c : PoolClass) (n : Nat) : p.SameMarks (p.release c n) :=
  p.sameMarks_change (c := c) (f := fun r => { r with holding := r.holding - min n (p.cls c).holding }) rfl

theorem Pool.sameMarks_refuse (p : Pool) (c : PoolClass) (r : PoolReason) : p.SameMarks (p.refuse c r) :=
  p.sameMarks_change (by cases r <;> rfl)

theorem Pool.sameMarks_countEviction (p : Pool) (c : PoolClass) (k : Nat) : p.SameMarks (p.countEviction c k) :=
  p.sameMarks_change rfl

theorem Pool.sameMarks_withBounds (p : Pool) (b : ClassBounds) : p.SameMarks (p.withBounds b) :=
  p.sameMarks_change rfl

/-! ## Buffers given back (R126) -/

theorem Svc.freeBuffers_zero (s : Svc) (c : PoolClass) : s.freeBuffers c 0 = s := rfl

/-- R126: a free of one buffer or more, by whether WIN is told. -/
theorem Svc.freeBuffers_pos (s : Svc) (c : PoolClass) {n : Nat} (h : n ≠ 0) :
    s.freeBuffers c n =
      if s.pool.waiting = true ∨ c = .transit then { s with pool := s.pool.release c n }.reportFreeing
      else { s with pool := s.pool.release c n } := by
  simp [Svc.freeBuffers, h]

/-- R126: a free is a release in the pool, and at most a report to WIN beside it. -/
theorem Svc.freeBuffers_eq (s : Svc) (c : PoolClass) (n : Nat) :
    ∃ b f, s.freeBuffers c n = { s with pool := { s.pool.release c n with waiting := b }, freed := f } := by
  by_cases h : n = 0
  · subst h
    refine ⟨s.pool.waiting, s.freed, ?_⟩
    have hrelease : s.pool.release c 0 = s.pool := by cases c <;> simp [Pool.release, Pool.change]
    rw [hrelease, s.freeBuffers_zero c]
  · rw [s.freeBuffers_pos c h]
    split
    · exact ⟨_, _, rfl⟩
    · exact ⟨(s.pool.release c n).waiting, s.freed, rfl⟩

@[simp] theorem Svc.freeBuffers_wx (s : Svc) (c : PoolClass) (n : Nat) : (s.freeBuffers c n).wx = s.wx := by
  obtain ⟨b, f, h⟩ := s.freeBuffers_eq c n
  rw [h]

@[simp] theorem Svc.freeBuffers_note (s : Svc) (c : PoolClass) (n : Nat) : (s.freeBuffers c n).note = s.note := by
  obtain ⟨b, f, h⟩ := s.freeBuffers_eq c n
  rw [h]

@[simp] theorem Svc.freeBuffers_queues (s : Svc) (c : PoolClass) (n : Nat) :
    (s.freeBuffers c n).queues = s.queues := by
  obtain ⟨b, f, h⟩ := s.freeBuffers_eq c n
  rw [h]

@[simp] theorem Svc.freeBuffers_cls (s : Svc) (c : PoolClass) (n : Nat) (x : PoolClass) :
    (s.freeBuffers c n).pool.cls x = (s.pool.release c n).cls x := by
  obtain ⟨b, f, h⟩ := s.freeBuffers_eq c n
  rw [h]
  rfl

/-- What a free does to the pool does not depend on the weather store. -/
theorem Svc.freeBuffers_pool_withWx (s : Svc) (w : Wx) (c : PoolClass) (n : Nat) :
    ({ s with wx := w }.freeBuffers c n).pool = (s.freeBuffers c n).pool := by
  unfold Svc.freeBuffers
  dsimp only
  split
  · rfl
  · split <;> rfl

theorem PoolSafe.freeBuffers {s : Svc} (h : PoolSafe s.pool) (c : PoolClass) (n : Nat) :
    PoolSafe (s.freeBuffers c n).pool := by
  obtain ⟨b, f, e⟩ := s.freeBuffers_eq c n
  rw [e]
  exact h.release c n

/-! ## Evictions (R152) -/

theorem splitClosed_none {l : List Segment} (h : ∀ g ∈ l, g.state ≠ .closed) : splitClosed l = none := by
  induction l with
  | nil => rfl
  | cons g l ih =>
    obtain ⟨hg, hl⟩ := List.forall_mem_cons.1 h
    simp only [splitClosed, if_neg hg, ih hl]

/-- R152: the oldest CLOSED segment is the one with none CLOSED before it. -/
theorem splitClosed_append {before after : List Segment} {e : Segment} (he : e.state = .closed)
    (h : ∀ g ∈ before, g.state ≠ .closed) : splitClosed (before ++ e :: after) = some (before, e, after) := by
  induction before with
  | nil => simp only [List.nil_append, splitClosed, if_pos he]
  | cons g before ih =>
    obtain ⟨hg, hbefore⟩ := List.forall_mem_cons.1 h
    simp only [List.cons_append, splitClosed, if_neg hg, ih hbefore]

theorem eq_of_splitClosed {l before after : List Segment} {e : Segment}
    (h : splitClosed l = some (before, e, after)) : l = before ++ e :: after := by
  induction l generalizing before with
  | nil => cases h
  | cons g l ih =>
    simp only [splitClosed] at h
    split at h
    · cases h
      rfl
    · split at h
      · cases h
      · rename_i hrest
        cases h
        rw [ih hrest, List.cons_append]

theorem carryGap_none {d lost : Nat} {l : List Segment} (h : ∀ g ∈ l, g.device ≠ d) : carryGap d lost l = none := by
  induction l with
  | nil => rfl
  | cons g l ih =>
    obtain ⟨hg, hl⟩ := List.forall_mem_cons.1 h
    simp only [carryGap, if_neg hg, ih hl]

/-- R152: the first segment of the device takes the lost samples. -/
theorem carryGap_append {d lost : Nat} {mid rest : List Segment} {g : Segment} (hg : g.device = d)
    (h : ∀ x ∈ mid, x.device ≠ d) :
    carryGap d lost (mid ++ g :: rest) =
      some (mid ++ { g with gap := bumpBy Config.wordMax lost g.gap } :: rest) := by
  induction mid with
  | nil => simp only [List.nil_append, carryGap, if_pos hg]
  | cons x mid ih =>
    obtain ⟨hx, hmid⟩ := List.forall_mem_cons.1 h
    simp only [List.cons_append, carryGap, if_neg hx, ih hmid]

theorem length_of_carryGap {d lost : Nat} {l l' : List Segment} (h : carryGap d lost l = some l') :
    l'.length = l.length := by
  induction l generalizing l' with
  | nil => cases h
  | cons g l ih =>
    simp only [carryGap] at h
    split at h
    · cases h
      rfl
    · split at h
      · cases h
      · rename_i hrest
        cases h
        simp only [List.length_cons, ih hrest]

theorem Svc.evictOldest_none {s : Svc} (h : splitClosed s.wx.segments = none) (b : Bool) : s.evictOldest b = none := by
  unfold Svc.evictOldest
  rw [h]

/-- R152: an eviction takes the segment out, hands its loss on, and frees its buffers. -/
theorem Svc.evictOldest_spec {s : Svc} {before after : List Segment} {e : Segment}
    (h : splitClosed s.wx.segments = some (before, e, after)) (b : Bool) :
    let lost := e.samples.length + e.gap
    ∃ w : Wx, s.evictOldest b =
        some ({ s with wx := w }.freeBuffers .weather e.samples.length, e.samples.length) ∧
      (carryGap e.device lost after = none →
        w.segments = before ++ after ∧ w.gaps = change (bumpBy Config.wordMax lost) s.wx.gaps e.device) ∧
      (∀ after', carryGap e.device lost after = some after' →
        w.segments = before ++ after' ∧ w.gaps = s.wx.gaps) := by
  intro lost
  unfold Svc.evictOldest
  rw [h]
  refine ⟨_, rfl, fun hnone => ?_, fun after' hsome => ?_⟩
  · rw [hnone]
    exact ⟨rfl, rfl⟩
  · rw [hsome]
    exact ⟨rfl, rfl⟩

/-- R152: what an eviction leaves: a shorter store, and the buffers freed. -/
theorem Svc.evictOldest_some {s t : Svc} {b : Bool} {k : Nat} (h : s.evictOldest b = some (t, k)) :
    ∃ w : Wx, t = { s with wx := w }.freeBuffers .weather k ∧ w.segments.length + 1 = s.wx.segments.length := by
  cases hsplit : splitClosed s.wx.segments with
  | none =>
    rw [s.evictOldest_none hsplit b] at h
    cases h
  | some parts =>
    obtain ⟨before, e, after⟩ := parts
    obtain ⟨w, hevict, hpending, hcarried⟩ := s.evictOldest_spec hsplit b
    rw [hevict] at h
    cases h
    refine ⟨w, rfl, ?_⟩
    rw [eq_of_splitClosed hsplit]
    cases hcarry : carryGap e.device (e.samples.length + e.gap) after with
    | none =>
      rw [(hpending hcarry).1]
      simp only [List.length_append, List.length_cons]
      omega
    | some after' =>
      rw [(hcarried after' hcarry).1]
      simp only [List.length_append, List.length_cons, length_of_carryGap hcarry]
      omega

theorem PoolSafe.evictOldest {s t : Svc} (h : PoolSafe s.pool) {b : Bool} {k : Nat}
    (e : s.evictOldest b = some (t, k)) : PoolSafe t.pool := by
  obtain ⟨w, rfl, -⟩ := Svc.evictOldest_some e
  exact PoolSafe.freeBuffers (s := { s with wx := w }) h .weather k

theorem Svc.evictOldest_cls {s t : Svc} {b : Bool} {k : Nat} (e : s.evictOldest b = some (t, k)) {x : PoolClass}
    (hx : x ≠ .weather) : t.pool.cls x = s.pool.cls x := by
  obtain ⟨w, rfl, -⟩ := Svc.evictOldest_some e
  rw [Svc.freeBuffers_cls]
  exact s.pool.cls_release_other k hx

/-! ## Requests (R123, R124) -/

/-- R123: the unheld floors of the other three classes, as a sum over all four. -/
theorem Pool.othersUnheld_eq (p : Pool) (c : PoolClass) :
    let unheld (x : PoolClass) : Nat := if x = c then 0 else (p.cls x).floor - (p.cls x).holding
    p.othersUnheld c = unheld .toll + unheld .weather + unheld .sign + unheld .transit := by
  cases c <;> simp [Pool.othersUnheld, ClassRec.unheld, Pool.cls]

/-- R123: the decision by the three conditions as the manual orders them. -/
theorem Pool.decide_eq (p : Pool) (c : PoolClass) (k : Nat) :
    let unheld (x : PoolClass) : Nat := if x = c then 0 else (p.cls x).floor - (p.cls x).holding
    p.decide c k =
      if (p.cls c).ceiling < (p.cls c).holding + k then some .ceiling else if p.free < k then some .free
      else if p.free - k < unheld .toll + unheld .weather + unheld .sign + unheld .transit then some .guarantee
      else none := by
  intro unheld
  unfold Pool.decide
  rw [p.othersUnheld_eq c]

theorem Svc.requestBuffers_granted {s : Svc} {c : PoolClass} {n : Nat} (h : s.pool.decide c n = none) :
    s.requestBuffers c n = ({ s with pool := s.pool.grant c n }, none) := by
  unfold Svc.requestBuffers
  cases s.wx.segments.length <;> simp only [Svc.requestLoop, h]

/-- R124: a refusal with nothing to evict, or that evicts nothing, stands. -/
theorem Svc.requestBuffers_refused {s : Svc} {c : PoolClass} {n : Nat} {r : PoolReason}
    (h : s.pool.decide c n = some r)
    (hstands : r = .ceiling ∨ c = .weather ∨ s.pool.weather.holding ≤ s.pool.weather.floor ∨
      s.evictOldest true = none) : s.requestBuffers c n = (s.refuseBuffers c r, some r) := by
  unfold Svc.requestBuffers
  cases s.wx.segments.length with
  | zero => simp only [Svc.requestLoop, h]
  | succ fuel =>
    simp only [Svc.requestLoop, h]
    split
    · rfl
    · rename_i hno
      have hevict : s.evictOldest true = none := by tauto
      rw [hevict]

/-- R124: with no segment in the store every refusal stands. -/
theorem Svc.requestBuffers_noSegments {s : Svc} (hsegments : s.wx.segments = []) {c : PoolClass} {n : Nat}
    {r : PoolReason} (h : s.pool.decide c n = some r) : s.requestBuffers c n = (s.refuseBuffers c r, some r) :=
  have hevict : s.evictOldest true = none := s.evictOldest_none (by rw [hsegments]; rfl) true
  Svc.requestBuffers_refused h (Or.inr (Or.inr (Or.inr hevict)))

/-- R124: a refusal that evicts is decided again after the eviction. -/
theorem Svc.requestBuffers_evicts {s u : Svc} {c : PoolClass} {n j : Nat} {r : PoolReason}
    (h : s.pool.decide c n = some r) (hr : r ≠ .ceiling) (hc : c ≠ .weather)
    (hfloor : s.pool.weather.floor < s.pool.weather.holding) (hevict : s.evictOldest true = some (u, j)) :
    s.requestBuffers c n = Svc.requestBuffers { u with pool := u.pool.countEviction c j } c n := by
  obtain ⟨w, hu, hlength⟩ := Svc.evictOldest_some hevict
  have hsegments : u.wx.segments.length = w.segments.length := by rw [hu, Svc.freeBuffers_wx]
  have hgo : ¬(r = .ceiling ∨ c = .weather ∨ s.pool.weather.holding ≤ s.pool.weather.floor) := by
    simp [hr, hc, hfloor]
  unfold Svc.requestBuffers
  rw [← hlength, ← hsegments]
  simp only [Svc.requestLoop, h, if_neg hgo, hevict]

/-- R123, R124: what a request comes to is shown by its grant, its final refusal, and the evictions before them. -/
theorem Svc.requestBuffers_induction (c : PoolClass) (n : Nat) {P : Svc → Svc × Option PoolReason → Prop}
    (granted : ∀ s, s.pool.decide c n = none → P s ({ s with pool := s.pool.grant c n }, none))
    (refused : ∀ s r, P s (s.refuseBuffers c r, some r))
    (evicted : ∀ s u j y, s.evictOldest true = some (u, j) → P { u with pool := u.pool.countEviction c j } y → P s y)
    (s : Svc) : P s (s.requestBuffers c n) := by
  induction hk : s.wx.segments.length using Nat.strong_induction_on generalizing s with
  | _ k ih =>
    cases hdecide : s.pool.decide c n with
    | none =>
      rw [Svc.requestBuffers_granted hdecide]
      exact granted s hdecide
    | some r =>
      by_cases hstands : r = .ceiling ∨ c = .weather ∨ s.pool.weather.holding ≤ s.pool.weather.floor ∨
          s.evictOldest true = none
      · rw [Svc.requestBuffers_refused hdecide hstands]
        exact refused s r
      · obtain ⟨hr, hc, hfloor, hsome⟩ : r ≠ .ceiling ∧ c ≠ .weather ∧
            s.pool.weather.floor < s.pool.weather.holding ∧ s.evictOldest true ≠ none := by
          simpa only [not_or, Nat.not_le] using hstands
        obtain ⟨⟨u, j⟩, hevict⟩ := Option.ne_none_iff_exists'.1 hsome
        obtain ⟨w, hu, hlength⟩ := Svc.evictOldest_some hevict
        rw [Svc.requestBuffers_evicts hdecide hr hc hfloor hevict]
        refine evicted s u j _ hevict (ih u.wx.segments.length ?_ _ rfl)
        rw [hu, Svc.freeBuffers_wx]
        dsimp only
        omega

theorem Svc.refuseBuffers_cls (s : Svc) (c : PoolClass) (r : PoolReason) (x : PoolClass) :
    (s.refuseBuffers c r).pool.cls x = (s.pool.refuse c r).cls x := by
  unfold Svc.refuseBuffers
  dsimp only
  split <;> rfl

theorem Svc.refuseBuffers_free (s : Svc) (c : PoolClass) (r : PoolReason) :
    (s.refuseBuffers c r).pool.free = s.pool.free := by
  unfold Svc.refuseBuffers Pool.refuse
  dsimp only
  split <;> exact s.pool.free_change c _

/-- R125: a refused TRANSIT request sets the waiting mark, and no other refusal moves it. -/
theorem Svc.refuseBuffers_waiting (s : Svc) (c : PoolClass) (r : PoolReason) :
    (s.refuseBuffers c r).pool.waiting = (s.pool.waiting || decide (c = .transit)) := by
  unfold Svc.refuseBuffers Pool.refuse
  by_cases h : c = .transit
  · simp [h]
  · simp [h, Pool.waiting_change]

theorem PoolSafe.refuseBuffers {s : Svc} (h : PoolSafe s.pool) (c : PoolClass) (r : PoolReason) :
    PoolSafe (s.refuseBuffers c r).pool := by
  unfold Svc.refuseBuffers
  dsimp only
  split
  · exact h.refuse c r
  · exact h.refuse c r

/-- R123: a request, granted or refused, keeps the guarantee covered and the ceilings kept. -/
theorem PoolSafe.requestBuffers {s : Svc} (h : PoolSafe s.pool) (c : PoolClass) (n : Nat) :
    PoolSafe (s.requestBuffers c n).1.pool := by
  revert h
  refine Svc.requestBuffers_induction c n (P := fun s y => PoolSafe s.pool → PoolSafe y.1.pool) ?granted ?refused ?evicted s
  case granted => exact fun s hdecide h => h.grant hdecide
  case refused => exact fun s r h => h.refuseBuffers c r
  case evicted => exact fun s u j y hevict ih h => ih ((h.evictOldest hevict).countEviction c j)

/-- R123, R124: of the classes that no eviction touches, a request moves the asking one's holding alone, by a grant. -/
theorem Svc.holding_requestBuffers (c : PoolClass) (n : Nat) (s : Svc) {x : PoolClass} (hx : x ≠ .weather) :
    ((s.requestBuffers c n).1.pool.cls x).holding =
      (s.pool.cls x).holding + if x = c ∧ (s.requestBuffers c n).2 = none then n else 0 := by
  refine Svc.requestBuffers_induction c n (P := fun s y =>
    (y.1.pool.cls x).holding = (s.pool.cls x).holding + if x = c ∧ y.2 = none then n else 0) ?granted ?refused ?evicted s
  case granted =>
    intro s _
    by_cases hc : x = c
    · subst hc
      simp [Pool.cls_grant]
    · simp [s.pool.cls_grant_other n hc, hc]
  case refused =>
    intro s r
    simp [Svc.refuseBuffers_cls, Pool.holding_refuse]
  case evicted =>
    intro s u j y hevict ih
    rw [ih, Pool.holding_countEviction, Svc.evictOldest_cls hevict hx]

/-- R125: a TRANSIT request that is refused, at once or after evictions, leaves the waiting mark set. -/
theorem Svc.waiting_of_transit_refused (n : Nat) (s : Svc) (h : (s.requestBuffers .transit n).2 ≠ none) :
    (s.requestBuffers .transit n).1.pool.waiting = true := by
  revert h
  refine Svc.requestBuffers_induction .transit n (P := fun _ y => y.2 ≠ none → y.1.pool.waiting = true) ?granted ?refused ?evicted s
  case granted => exact fun s _ h => absurd rfl h
  case refused => exact fun s r _ => by simp [s.refuseBuffers_waiting]
  case evicted => exact fun s u j y _ ih => ih

/-! ## Lost samples (R151) -/

/-- R151: a lost sample, by what has become of the device's OPEN segment. -/
theorem Svc.loseSample_eq (s : Svc) (d : Nat) (r : LossReason) :
    s.loseSample d r =
      let u := s.closeOpen d .early
      let v : Svc := { u with wx := { u.wx with
        gaps := change (bump 65535) u.wx.gaps d
        counts := { u.wx.counts with lost := bump 4294967295 u.wx.counts.lost } } }
      if u.wx.lossMark then v
      else Svc.post { v with wx := { v.wx with lossMark := true } } .weatherLoss (.device d) [.loss r] := rfl

theorem Svc.closeOpen_none {s : Svc} {d : Nat} (h : s.wx.openOf d = none) (c : CloseCause) : s.closeOpen d c = s := by
  unfold Svc.closeOpen
  rw [h]

theorem Svc.closeOpen_some {s : Svc} {d : Nat} {g : Segment} (h : s.wx.openOf d = some g) (c : CloseCause) :
    s.closeOpen d c = s.closeSegment g c := by
  unfold Svc.closeOpen
  rw [h]

/-! ## New bounds (R127) -/

/-- R127: a floor and a ceiling are in their ranges exactly if the ceiling is, and covers the floor. -/
theorem ClassBounds.inRange_eq_false (b : ClassBounds) : ClassBounds.inRange b = false ↔
    b.ceiling < 1 ∨ b.ceiling < b.floor ∨ (if b.cls = .toll then 1024 else 1536) < b.ceiling := by
  refine decide_eq_false_iff_not.trans ?_
  simp only [Config.poolSize]
  omega

theorem checkBounds_missing {p : Pool} {l : List ClassBounds} {c : PoolClass} (h : boundsFor l c = none) :
    checkBounds p l = .badArgument := by
  unfold checkBounds
  split
  · rename_i ht hw hg hr
    cases c <;> simp_all
  · rfl

theorem all_inRange_eq_false (l : List ClassBounds) : l.all ClassBounds.inRange = false ↔
    ∃ b ∈ l, b.ceiling < 1 ∨ b.ceiling < b.floor ∨ (if b.cls = .toll then 1024 else 1536) < b.ceiling := by
  simp only [List.all_eq_false, Bool.not_eq_true, ClassBounds.inRange_eq_false]

/-- R127: a new value that names every class, by its checks in order. -/
theorem checkBounds_named (p : Pool) {l : List ClassBounds} {t w g r : ClassBounds}
    (ht : boundsFor l .toll = some t) (hw : boundsFor l .weather = some w) (hg : boundsFor l .sign = some g)
    (hr : boundsFor l .transit = some r) :
    checkBounds p l =
      if l.length ≠ 4 ∨ l.all ClassBounds.inRange = false ∨ 1536 < t.floor + w.floor + g.floor + r.floor then
        .badArgument
      else if t.ceiling < p.toll.holding ∨ w.ceiling < p.weather.holding ∨ g.ceiling < p.sign.holding ∨
          r.ceiling < p.transit.holding ∨ p.free < (t.floor - p.toll.holding) + (w.floor - p.weather.holding) +
            (g.floor - p.sign.holding) + (r.floor - p.transit.holding) then .wrongState
      else .done := by
  unfold checkBounds
  rw [ht, hw, hg, hr]
  simp only [ite_or, Config.poolSize]

theorem Pool.waiting_foldl_withBounds (l : List ClassBounds) (p : Pool) :
    (l.foldl Pool.withBounds p).waiting = p.waiting := by
  induction l generalizing p with
  | nil => rfl
  | cons b l ih => rw [List.foldl_cons, ih, Pool.withBounds, Pool.waiting_change]

theorem Pool.total_foldl_withBounds (l : List ClassBounds) (p : Pool) :
    (l.foldl Pool.withBounds p).total = p.total := by
  induction l generalizing p with
  | nil => rfl
  | cons b l ih => rw [List.foldl_cons, ih, Pool.total_withBounds]

/-- R126, R127: new bounds, and the report to WIN of a set waiting mark. -/
theorem Svc.takeBounds_eq (s : Svc) (l : List ClassBounds) :
    s.takeBounds l = { s with
      pool := { l.foldl Pool.withBounds s.pool with waiting := false }
      freed := s.pool.waiting || s.freed } := by
  have hwaiting := Pool.waiting_foldl_withBounds l s.pool
  unfold Svc.takeBounds Svc.reportFreeing
  cases h : s.pool.waiting with
  | true => rfl
  | false =>
    rw [h] at hwaiting
    simp only [Bool.false_eq_true, if_false, Bool.false_or]
    rw [← hwaiting]

/-! ## What notices leave of the holdings (R176, R180) -/

theorem Svc.holding_offerNormal (s : Svc) (m : Message) {x : PoolClass} (hw : x ≠ .weather) (ht : x ≠ .transit) :
    ((s.offerNormal m).1.pool.cls x).holding = (s.pool.cls x).holding := by
  have h := Svc.holding_requestBuffers .transit (transitBuffers m.length) s hw
  rw [if_neg (fun e => ht e.1)] at h
  unfold Svc.offerNormal
  split
  · split <;> rename_i heq <;> rw [heq] at h <;> exact h
  · rfl

theorem Svc.holding_lookCentre (fuel : Nat) (s : Svc) {x : PoolClass} (hw : x ≠ .weather) (ht : x ≠ .transit) :
    ((Svc.lookCentre fuel s).pool.cls x).holding = (s.pool.cls x).holding := by
  induction fuel generalizing s with
  | zero => rfl
  | succ fuel ih =>
    unfold Svc.lookCentre
    dsimp only
    split
    · rfl
    · split <;> rename_i heq
      · exact (ih _).trans (by rw [← Svc.holding_offerNormal s _ hw ht, heq])
      · rw [← Svc.holding_offerNormal s _ hw ht, heq]

/-- R180: a notice may take TRANSIT buffers, for which WEATHER buffers may be freed; the other holdings stand. -/
theorem Svc.holding_post (s : Svc) (c : NoticeCode) (b : Subject) (d : List Value) {x : PoolClass} (hw : x ≠ .weather)
    (ht : x ≠ .transit) : ((s.post c b d).pool.cls x).holding = (s.pool.cls x).holding := by
  unfold Svc.post
  dsimp only
  split
  · rfl
  · split
    · exact Svc.holding_lookCentre 2 _ hw ht
    · rfl

/-! ## TOLL's holding and its log (R138, R143) -/

/-- TOLL holds the same number of buffers, and the same records. -/
structure TollSt.KeepsRecords (x y : TollSt) : Prop where
  holding : y.1.pool.toll.holding = x.1.pool.toll.holding
  log : y.2.log = x.2.log

namespace TollSt.KeepsRecords

theorem refl (x : TollSt) : TollSt.KeepsRecords x x := ⟨rfl, rfl⟩

theorem trans {x y z : TollSt} (h : TollSt.KeepsRecords x y) (k : TollSt.KeepsRecords y z) :
    TollSt.KeepsRecords x z :=
  ⟨k.holding.trans h.holding, k.log.trans h.log⟩

theorem foldl {α : Type} {f : TollSt → α → TollSt} (h : ∀ y a, TollSt.KeepsRecords y (f y a)) (l : List α)
    (x : TollSt) : TollSt.KeepsRecords x (l.foldl f x) := by
  induction l generalizing x with
  | nil => exact refl x
  | cons a l ih => exact (h x a).trans (ih (f x a))

/-- A change of TOLL beside its log, posted or not. -/
theorem of_log {s : Svc} {t u : Toll} (h : u.log = t.log) : TollSt.KeepsRecords (s, t) (s, u) := ⟨rfl, h⟩

theorem of_post {s : Svc} {t u : Toll} {c : NoticeCode} {b : Subject} {d : List Value} (h : u.log = t.log) :
    TollSt.KeepsRecords (s, t) (s.post c b d, u) :=
  ⟨s.holding_post c b d (x := .toll) (by decide) (by decide), h⟩

end TollSt.KeepsRecords

theorem keepsRecords_raiseHigh (x : TollSt) : TollSt.KeepsRecords x (raiseHigh x) := by
  unfold raiseHigh
  split
  · exact .of_post rfl
  · exact .refl x

theorem keepsRecords_lowerHigh (x : TollSt) : TollSt.KeepsRecords x (lowerHigh x) := by
  unfold lowerHigh
  split
  · exact .of_log rfl
  · exact .refl x

theorem keepsRecords_holdRecord (d g seq : Nat) (r : PoolReason) (x : TollSt) :
    TollSt.KeepsRecords x (holdRecord d g seq r x) := by
  unfold holdRecord
  extract_lets t
  have hlog : t.log = x.2.log := rfl
  split
  · exact .of_log rfl
  · exact .of_post rfl

theorem keepsRecords_stopMalformed (d g seq : Nat) (x : TollSt) :
    TollSt.KeepsRecords x (stopMalformed d g seq x) := by
  unfold stopMalformed
  dsimp only
  split
  · exact .of_log rfl
  · split
    · exact .of_log rfl
    · exact .of_post rfl

theorem keepsRecords_stopGap (d g a seq : Nat) (x : TollSt) : TollSt.KeepsRecords x (stopGap d g a seq x) := by
  unfold stopGap
  dsimp only
  split
  · exact .of_log rfl
  · split
    · exact .of_log rfl
    · exact .of_post rfl

theorem keepsRecords_attachGantry (devices : List Device) (d : Nat) (i : Identity) (r : Bool) (x : TollSt) :
    TollSt.KeepsRecords x (attachGantry devices d i r x) := by
  unfold attachGantry
  extract_lets g u t refuse
  split
  · split
    · exact .of_post rfl
    · exact .of_log rfl
  · extract_lets clash
    split
    · exact .of_post rfl
    · split
      · exact .of_post rfl
      · split
        · exact .of_post rfl
        · exact .of_log rfl

theorem keepsRecords_retryOne (devices : List Device) (x : TollSt) (d : Nat) :
    TollSt.KeepsRecords x (retryOne devices x d) := by
  unfold retryOne
  split
  · split
    · split
      · exact keepsRecords_attachGantry ..
      · exact .refl x
    · exact .refl x
  · exact .refl x

theorem keepsRecords_dropIdleEntry (devices : List Device) (g : Nat) (x : TollSt) :
    TollSt.KeepsRecords x (dropIdleEntry devices g x) := by
  unfold dropIdleEntry
  split
  · exact .refl x
  · split
    · have hdropped : TollSt.KeepsRecords x
          (x.1, { x.2 with gantries := dropFirst (fun e => e.number = g) x.2.gantries }) := .of_log rfl
      rw [retryUnattached_eq]
      exact hdropped.trans (.foldl (keepsRecords_retryOne devices) _ _)
    · exact .refl x

/-- R138, R143: TOLL's holding is the number of records in the log. -/
def TollSt.Counted (x : TollSt) : Prop := x.1.pool.toll.holding = x.2.log.length

theorem TollSt.Counted.of_keeps {x y : TollSt} (h : x.Counted) (k : TollSt.KeepsRecords x y) : y.Counted := by
  unfold TollSt.Counted
  rw [k.holding, k.log]
  exact h

/-- R138: a record is appended for the buffer just granted. -/
theorem TollSt.Counted.acceptRecord {s : Svc} {t : Toll} (h : s.pool.toll.holding = t.log.length + 1) (g : Nat)
    (r : TollRecord) : TollSt.Counted (acceptRecord g r (s, t)) := by
  refine TollSt.Counted.of_keeps ?_ (keepsRecords_raiseHigh _)
  simpa [TollSt.Counted, Toll.count, Toll.changeEntry] using h

/-- R137, R138, R139: one record offered, whatever becomes of it. -/
theorem TollSt.Counted.takeRecord {x : TollSt} (h : x.Counted) (d g : Nat) (stopped : Bool) (r : TollRecord) :
    TollSt.Counted (takeRecord d g (x, stopped) r).1 := by
  have hrequest := Svc.holding_requestBuffers .toll 1 x.1 (x := .toll) (by decide)
  unfold Machine.takeRecord
  dsimp only
  split
  · exact h
  · split
    · exact h
    · split
      · exact h
      · split
        · exact h.of_keeps (keepsRecords_stopMalformed ..)
        · split
          · split <;> rename_i heq <;> rw [heq] at hrequest
            · refine TollSt.Counted.acceptRecord ?_ g r
              rw [← show x.1.pool.toll.holding = x.2.log.length from h]
              exact hrequest
            · refine TollSt.Counted.of_keeps ?_ (keepsRecords_holdRecord ..)
              exact hrequest.trans h
          · exact h.of_keeps (keepsRecords_stopGap ..)

/-- R143: the records that a pair acknowledges give back a buffer each. -/
theorem TollSt.Counted.ackPair {x : TollSt} (h : x.Counted) (devices : List Device) (q : Nat × Nat) :
    TollSt.Counted (ackPair devices x q).1 := by
  unfold Machine.ackPair
  split
  · exact h
  · extract_lets gone t t₁ t₂ t₃ y₁ y₂ y₃
    have hlog : x.2.log.length = gone.length + y₁.2.log.length :=
      List.length_eq_length_filter_add _
    have hholding : y₁.1.pool.toll.holding = x.1.pool.toll.holding - min gone.length x.1.pool.toll.holding := by
      have hcls := x.1.freeBuffers_cls .toll gone.length .toll
      rw [Pool.cls_release] at hcls
      exact congrArg ClassRec.holding hcls
    have hfreed : TollSt.Counted y₁ := by
      unfold TollSt.Counted at h ⊢
      omega
    have hmark : TollSt.KeepsRecords y₁ y₂ := by
      unfold y₂
      split
      · exact .refl _
      · exact keepsRecords_lowerHigh _
    have hentry : TollSt.KeepsRecords y₂ y₃ := by
      unfold y₃
      split
      · exact .refl _
      · exact keepsRecords_dropIdleEntry ..
    exact hfreed.of_keeps (hmark.trans hentry)

/-! ## The statement -/

/-- Settles O48: requests by the decision of the pool, new bounds by their checks, evictions by where the oldest CLOSED
segment stands, and the marks by what each operation leaves of a class's record. -/
theorem poolDecidesByThreeConditions : Obligations.PoolDecidesByThreeConditions := by
  refine ⟨?requests, ?bounds, ?evictions, ?losses, ?log, ?waiting, ?resetHigh, rfl, ?marks⟩
  case requests =>
    intro c k s p r unheld others t reason
    have hdecide : p.decide c k = if r.ceiling < r.holding + k then some .ceiling else if p.free < k then some .free
        else if p.free - k < others then some .guarantee else none := p.decide_eq c k
    refine ⟨?granted, ?noSegments, ?refusedFor, ?sum, ?law⟩
    case granted =>
      intro hceiling hfree hothers
      have hgrant := Svc.requestBuffers_granted
        (Pool.decide_none.2 ⟨hceiling, hfree, (p.othersUnheld_eq c).trans_le hothers⟩)
      have hpool : t.pool = p.grant c k := by rw [show t = _ from congrArg Prod.fst hgrant]
      refine ⟨congrArg Prod.snd hgrant, ?_, ?_, ?_, ?_, fun x hx => ?_⟩
      · rw [hpool]
        exact congrArg Prod.fst hgrant
      · rw [hpool]
        rfl
      · rw [hpool, Pool.cls_grant]
      · rw [hpool, Pool.cls_grant]
      · rw [hpool, p.cls_grant_other k hx]
    case noSegments =>
      intro hsegments
      have hreasonIs {x : PoolReason} (hx : p.decide c k = some x) : reason = some x :=
        congrArg Prod.snd (Svc.requestBuffers_noSegments hsegments hx)
      refine ⟨fun hceiling => ?_, fun hceiling hfree => ?_, fun hceiling hfree hothers => ?_, fun hreason => ?_⟩
      · exact hreasonIs (hdecide.trans (if_pos hceiling))
      · exact hreasonIs (hdecide.trans (by rw [if_neg (by omega), if_pos hfree]))
      · exact hreasonIs (hdecide.trans (by rw [if_neg (by omega), if_neg (by omega), if_pos hothers]))
      · cases hd : p.decide c k with
        | none => exact absurd (congrArg Prod.snd (Svc.requestBuffers_granted hd)) hreason
        | some x =>
          have ht : t = s.refuseBuffers c x := congrArg Prod.fst (Svc.requestBuffers_noSegments hsegments hd)
          rw [ht]
          exact ⟨rfl, s.refuseBuffers_free c x, fun y => by rw [Svc.refuseBuffers_cls, Pool.holding_refuse]⟩
    case refusedFor =>
      intro first x hfirst
      have hrefused : p.decide c k = some x := hdecide.trans hfirst
      exact ⟨Svc.requestBuffers_refused hrefused, fun hx hc hfloor u j hevict =>
        Svc.requestBuffers_evicts hrefused hx hc hfloor hevict⟩
    case sum =>
      exact fun h => ⟨(s.keeps_requestBuffers c k).total.trans h, (s.keeps_freeBuffers c k).total.trans h⟩
    case law =>
      exact fun h => ⟨h.requestBuffers c k, h.freeBuffers c k⟩
  case bounds =>
    intro l s p
    refine ⟨fun ⟨c, hc⟩ => checkBounds_missing hc, ?named, ?taken⟩
    case named =>
      intro t w g r ht hw hg hr bad full
      have hcheck := checkBounds_named p ht hw hg hr
      have hbad : (l.length ≠ 4 ∨ l.all ClassBounds.inRange = false ∨ 1536 < t.floor + w.floor + g.floor + r.floor) ↔
          bad := by
        rw [all_inRange_eq_false]
        exact or_congr_right or_comm
      refine ⟨fun hb => ?_, fun hb hf => ?_, fun hb hf => ?_⟩
      · rw [hcheck, if_pos (hbad.2 hb)]
      · rw [hcheck, if_neg (mt hbad.1 hb), if_pos hf]
      · rw [hcheck, if_neg (mt hbad.1 hb), if_neg hf]
    case taken =>
      intro hdone
      have hsafe := PoolSafe.withBounds hdone
      have htotal := Pool.total_foldl_withBounds l p
      rw [s.takeBounds_eq l]
      exact ⟨hsafe, htotal.trans⟩
  case evictions =>
    intro s forPool
    refine ⟨fun h => s.evictOldest_none (splitClosed_none h) forPool, ?_⟩
    intro before e after hsegments he hbefore lost
    have hsplit := splitClosed_append (after := after) he hbefore
    rw [← hsegments] at hsplit
    obtain ⟨w, hevict, hpending, hcarried⟩ := s.evictOldest_spec hsplit forPool
    refine ⟨_, hevict, s.freeBuffers_pool_withWx w .weather _, Svc.freeBuffers_note .., Svc.freeBuffers_queues ..,
      fun hnone => ?_, fun mid g rest hafter hg hmid => ?_⟩
    · rw [Svc.freeBuffers_wx]
      exact hpending (carryGap_none hnone)
    · rw [Svc.freeBuffers_wx]
      obtain ⟨hsegs, hgaps⟩ := hcarried _ (hafter ▸ carryGap_append hg hmid)
      exact ⟨by rw [hsegs, List.append_assoc]; rfl, hgaps⟩
  case losses =>
    intro s u d r hu v
    have hclosed : s.closeOpen d .early = u := by
      rcases hu with ⟨hnone, rfl⟩ | ⟨g, hsome, rfl⟩
      · exact Svc.closeOpen_none hnone .early
      · exact Svc.closeOpen_some hsome .early
    rw [s.loseSample_eq, hclosed]
    exact ⟨fun hmark => if_pos hmark, fun hmark => if_neg (by simp [hmark])⟩
  case log =>
    exact fun devices d g r stopped x q h =>
      ⟨TollSt.Counted.takeRecord h d g stopped r, TollSt.Counted.ackPair h devices q⟩
  case waiting =>
    intro s c k r l gone told
    refine ⟨s.refuseBuffers_waiting c r, s.waiting_of_transit_refused k, s.freeBuffers_zero c, s.freeBuffers_pos c,
      fun hset => ?_, fun hclear => ?_⟩
    · rw [s.takeBounds_eq, hset]
      exact ⟨rfl, rfl⟩
    · rw [s.takeBounds_eq, hclear]
      exact ⟨rfl, rfl⟩
  case resetHigh => intro c; cases c <;> rfl
  case marks =>
    intro p c k marks q
    refine ⟨?_, ?_, fun x hx => ?_, rfl, p.sameMarks_release c k, p.sameMarks_refuse c, p.sameMarks_countEviction c k,
      p.sameMarks_withBounds⟩
    · rw [p.cls_grant]
    · rw [p.cls_grant]
    · rw [p.cls_grant_other k hx]

end Sys2Proof.Machine

/-! SUPPORT. The threshold rules (08 section 8.3): what RULE-SET does to the node (R158, R159), how a rule moves on a
sample (R156, R157), and the statement about them. -/

namespace Sys2Proof.Machine

/-! ## RULE-SET: what is taken (R159) -/

/-- R159: the entry that a RULE-SET puts, if its rule number, its direction and its ranges pass. -/
def ruleToPut (k : Nat) (arg : RuleArg) : Option (Option RuleSpec) :=
  if k < 1 ∨ 8 < k then none else (ruleArgSpec arg).filter ruleEntryOk

section
variable {k : Nat} {arg : RuleArg}

theorem ruleToPut_outside (h : k < 1 ∨ 8 < k) : ruleToPut k arg = none := if_pos h

theorem ruleToPut_unknown (h : ruleArgSpec arg = none) : ruleToPut k arg = none := by
  unfold ruleToPut
  rw [h]
  split <;> rfl

theorem ruleToPut_known {x : Option RuleSpec} (h1 : 1 ≤ k) (h8 : k ≤ 8) (harg : ruleArgSpec arg = some x) :
    ruleToPut k arg = if ruleEntryOk x then some x else none := by
  have hk : ¬(k < 1 ∨ 8 < k) := by omega
  rw [ruleToPut, if_neg hk, harg, Option.filter_some]

theorem Node.ruleSet_bad (n : Node) (h : ruleToPut k arg = none) : n.ruleSet k arg = (n, .badArgument, .nil) := by
  unfold Node.ruleSet
  by_cases hk : k < 1 ∨ 8 < k
  · exact if_pos hk
  · rw [ruleToPut, if_neg hk] at h
    rw [if_neg hk]
    cases harg : ruleArgSpec arg with
    | none => rfl
    | some x =>
      rw [harg, Option.filter_eq_none_iff] at h
      exact if_neg (h x rfl)

theorem Node.ruleSet_put (n : Node) {x : Option RuleSpec} (h : ruleToPut k arg = some x) :
    n.ruleSet k arg = (n.onRules fun y => replaceRule y k x, .done, .nil) := by
  have hk : ¬(k < 1 ∨ 8 < k) := fun hk => by rw [ruleToPut_outside hk] at h; cases h
  rw [ruleToPut, if_neg hk, Option.filter_eq_some_iff] at h
  obtain ⟨harg, hok⟩ := h
  simp only [Node.ruleSet, if_neg hk, harg, if_pos hok]

theorem Node.ruleSet_onCmd (n : Node) (f : Cmd → Cmd) :
    (n.onCmd f).ruleSet k arg = ((n.ruleSet k arg).1.onCmd f, (n.ruleSet k arg).2) := by
  cases h : ruleToPut k arg with
  | none => rw [(n.onCmd f).ruleSet_bad h, n.ruleSet_bad h]
  | some x => rw [(n.onCmd f).ruleSet_put h, n.ruleSet_put h, Node.onCmd_onRules]

theorem Node.ruleSet_cmd (n : Node) : (n.ruleSet k arg).1.cmd = n.cmd := by
  cases h : ruleToPut k arg with
  | none => rw [n.ruleSet_bad h]
  | some x => rw [n.ruleSet_put h]; rfl

/-- R159: RULE-SET leaves what its action leaves. -/
theorem exec_ruleSet {s : State} {o : Origin} (h : Takes s o (.ruleSet k arg)) {m : Node} {st : Status} {v : Value}
    (hm : s.node.ruleSet k arg = (m, st, v)) :
    exec (.ruleSet o k arg) s = .next (s.replied m o (.ruleSet k arg) st v) :=
  State.command_atOnce h (act := fun n => n.ruleSet k arg) (fun _ => rfl) (fun n f => n.ruleSet_onCmd f)
    (fun n => n.ruleSet_cmd) hm

theorem exec_ruleSet_bad {s : State} {o : Origin} (h : Takes s o (.ruleSet k arg)) (hput : ruleToPut k arg = none) :
    exec (.ruleSet o k arg) s = .next (s.replied s.node o (.ruleSet k arg) .badArgument .nil) :=
  exec_ruleSet h (s.node.ruleSet_bad hput)

end

/-! ## What a change of the rules hands to ZONE (R158) -/

/-- R158: whether a zone has a tripped rule, entry by entry. -/
theorem zoneTripped_cons (spec : Option RuleSpec) (specs : List (Option RuleSpec)) (rec : RuleRec)
    (recs : List RuleRec) (z : Nat) :
    zoneTripped (spec :: specs) (rec :: recs) z =
      (spec.any (fun r => r.zone = z) && isTripped rec.state || zoneTripped specs recs z) := by
  cases spec <;> rfl

/-- R158: an entry that was not tripped and is not tripped afterwards counts for no zone. -/
theorem zoneTripped_put {new : RuleRec} (hnew : isTripped new.state = false) (x : Option RuleSpec) (z : Nat)
    (specs : List (Option RuleSpec)) (recs : List RuleRec) (k : Nat)
    (hold : ∀ rec, nth recs k = some rec → isTripped rec.state = false) :
    zoneTripped (put specs k x) (put recs k new) z = zoneTripped specs recs z := by
  induction specs generalizing recs k with
  | nil => cases k <;> rfl
  | cons spec specs ih =>
    cases recs with
    | nil =>
      have hnil : put ([] : List RuleRec) k new = [] := by cases k <;> rfl
      simp only [hnil, zoneTripped, List.zip_nil_right]
    | cons rec recs =>
      match k with
      | 0 => rfl
      | 1 =>
        show zoneTripped (x :: specs) (new :: recs) z = _
        simp only [zoneTripped_cons, hnew, hold rec rfl, Bool.and_false]
      | k + 2 =>
        show zoneTripped (spec :: put specs (k + 1) x) (rec :: put recs (k + 1) new) z = _
        rw [zoneTripped_cons, zoneTripped_cons, ih recs (k + 1) hold]

/-- R158: with every zone as it was, ZONE is handed nothing. -/
theorem handWeather_unchanged {specs specs' : List (Option RuleSpec)} {recs recs' : List RuleRec}
    (h : ∀ z, zoneTripped specs' recs' z = zoneTripped specs recs z) (x : ZoneSt) :
    handWeather specs recs specs' recs' x = x := by
  refine List.foldl_fixed' (fun z => ?_) _
  rw [h z]
  cases zoneTripped specs recs z <;> rfl

/-! ## One entry replaced (R159) -/

/-- R159: the state of a rule that is put in place at a time. -/
def RuleRec.fresh (t : NodeTime) : RuleRec := { state := .clear, last := none, since := t }

/-- R159: the entry is replaced and its state is CLEAR, whether RULE-CLEAR is posted for the old rule or not. -/
theorem replaceRule_spec (x : RuleSt) (k : Nat) (new : Option RuleSpec) :
    (replaceRule x k new).1.settings.rules = put x.1.settings.rules k new ∧
      (replaceRule x k new).2 = put x.2 k (RuleRec.fresh x.1.time) := by
  by_cases h : ∃ spec, tripsRule x k spec
  · obtain ⟨spec, h⟩ := h
    rw [replaceRule_tripped new h]
    exact ⟨rfl, rfl⟩
  · rw [replaceRule_quiet new fun spec hs => h ⟨spec, hs⟩]
    exact ⟨rfl, rfl⟩

theorem Node.replaceRule_rules (n : Node) (k : Nat) (new : Option RuleSpec) :
    (n.onRules fun y => replaceRule y k new).set.rules = put n.set.rules k new ∧
      (n.onRules fun y => replaceRule y k new).rules = put n.rules k (RuleRec.fresh n.svc.time) := by
  obtain ⟨hsettings, hrecs⟩ := replaceRule_spec (n.svc, n.rules) k new
  refine ⟨?_, hrecs⟩
  rw [Node.onRules_eq]
  exact (congrArg Settings.rules (keeps_handWeather ..).settings).trans hsettings

/-- R159: a rule that is not tripped is replaced with nothing posted and nothing handed to ZONE. -/
theorem Node.replaceRule_untripped (n : Node) (k : Nat) (new : Option RuleSpec) {rec : RuleRec}
    (hrec : nth n.rules k = some rec) (hquiet : isTripped rec.state = false) :
    n.onRules (fun y => replaceRule y k new) =
      { n with svc := n.svc.withSettings (n.svc.settings.withRule k new)
               rules := put n.rules k (RuleRec.fresh n.svc.time) } := by
  have hold : ∀ r, nth n.rules k = some r → isTripped r.state = false := fun r hr => by
    rw [hrec] at hr
    cases hr
    exact hquiet
  have hput : replaceRule (n.svc, n.rules) k new =
      (n.svc.withSettings (n.svc.settings.withRule k new), put n.rules k (RuleRec.fresh n.svc.time)) :=
    replaceRule_quiet (x := (n.svc, n.rules)) new fun _ ⟨_, r, hr, ht⟩ => by simp [hold r hr] at ht
  have hsame : ∀ z, zoneTripped (put n.set.rules k new) (put n.rules k (RuleRec.fresh n.svc.time)) z =
      zoneTripped n.set.rules n.rules z := fun z => zoneTripped_put rfl new z _ _ _ hold
  rw [Node.onRules_eq, hput, Node.onZone]
  exact congrArg (fun x : ZoneSt => { n with
    svc := x.1, zone := x.2, rules := put n.rules k (RuleRec.fresh n.svc.time) }) (handWeather_unchanged hsame _)

/-- R159: what RULE-SET of an entry that passes does. -/
theorem exec_ruleSet_put {s : State} {o : Origin} {k : Nat} {arg : RuleArg} {x : Option RuleSpec}
    (h : Takes s o (.ruleSet k arg)) (hput : ruleToPut k arg = some x) :
    (∃ m, exec (.ruleSet o k arg) s = .next (s.replied m o (.ruleSet k arg) .done .nil) ∧
      m.set.rules = put s.node.set.rules k x ∧ m.rules = put s.node.rules k (RuleRec.fresh s.node.svc.time) ∧
      m.call = s.node.call ∧ m.toll = s.node.toll) ∧
    (∀ rec, nth s.node.rules k = some rec → isTripped rec.state = false →
      exec (.ruleSet o k arg) s = .next (s.replied { s.node with
        svc := s.node.svc.withSettings (s.node.svc.settings.withRule k x)
        rules := put s.node.rules k (RuleRec.fresh s.node.svc.time) } o (.ruleSet k arg) .done .nil)) := by
  have hrun := exec_ruleSet h (s.node.ruleSet_put hput)
  obtain ⟨hspecs, hrecs⟩ := s.node.replaceRule_rules k x
  refine ⟨⟨_, hrun, hspecs, hrecs, rfl, rfl⟩, fun rec hrec hquiet => ?_⟩
  rw [hrun, s.node.replaceRule_untripped k x hrec hquiet]

/-! ## How a value stands, and the table of states (R156, R157) -/

/-- R156: a value past the level. -/
def isPast (r : RuleSpec) (v : Int) : Bool :=
  match r.direction with
  | .above => decide (r.level < v)
  | .below => decide (v < r.level)

/-- R156: a value at or beyond the level less the hysteresis. -/
def reachesBack (r : RuleSpec) (v : Int) : Bool :=
  match r.direction with
  | .above => decide (v ≤ r.level - r.hysteresis)
  | .below => decide (r.level + r.hysteresis ≤ v)

/-- R156: the three cases; a value past the level is never back. -/
theorem classify_eq (r : RuleSpec) (v : Int) :
    classify r v = if isPast r v then .past else if reachesBack r v then .back else .between := by
  unfold classify isPast reachesBack
  cases r.direction <;> simp only [decide_eq_true_eq]

theorem classify_eq_past (r : RuleSpec) (v : Int) : classify r v = .past ↔ isPast r v = true := by
  rw [classify_eq]
  cases isPast r v <;> cases reachesBack r v <;> decide

theorem classify_eq_back (r : RuleSpec) (v : Int) :
    classify r v = .back ↔ (!isPast r v && reachesBack r v) = true := by
  rw [classify_eq]
  cases isPast r v <;> cases reachesBack r v <;> decide

section
variable (h m : Nat) (c : Standing)

theorem nextRuleState_clear :
    nextRuleState h .clear c = if c = .past then (if h = 1 then .tripped else .arming 1) else .clear := by
  cases c <;> rfl

theorem nextRuleState_arming :
    nextRuleState h (.arming m) c =
      if c = .past then (if m + 1 = h then .tripped else .arming (m + 1)) else .clear := by
  cases c <;> rfl

theorem nextRuleState_tripped :
    nextRuleState h .tripped c = if c = .back then (if h = 1 then .clear else .easing 1) else .tripped := by
  cases c <;> rfl

theorem nextRuleState_easing :
    nextRuleState h (.easing m) c =
      if c = .back then (if m + 1 = h then .clear else .easing (m + 1)) else .tripped := by
  cases c <;> rfl

end

/-! ## One rule on one sample (R157) -/

/-- R157: a rule's record after a value of its quantity at a time. -/
def RuleRec.seen (rec : RuleRec) (spec : RuleSpec) (v : Int) (t : NodeTime) : RuleRec :=
  let state := nextRuleState spec.hold rec.state (classify spec v)
  { state := state, last := some v, since := if state = rec.state then rec.since else t }

section
variable {k : Nat} {spec : RuleSpec} {rec : RuleRec} {r : Sample} {s : Svc} {l : List RuleRec}
  (hspec : nth s.settings.rules k = some (some spec)) (hrec : nth l k = some rec)
include hspec hrec

theorem evaluateRule_otherDevice (h : spec.device ≠ r.device) : evaluateRule r (s, l) k = (s, l) := by
  simp only [evaluateRule, hspec, hrec, Option.getD_some, if_pos h]

theorem evaluateRule_noQuantity (h : r.quantities.find? (fun q => q.code = spec.quantity) = none) :
    evaluateRule r (s, l) k = (s, l) := by
  simp only [evaluateRule, hspec, hrec, Option.getD_some, h, ite_self]

theorem evaluateRule_value {q : Quantity} (hdevice : spec.device = r.device)
    (hq : r.quantities.find? (fun q => q.code = spec.quantity) = some q) :
    (evaluateRule r (s, l) k).2 = put l k (rec.seen spec q.value s.time) := by
  simp only [evaluateRule, hspec, hrec, Option.getD_some, hdevice, ne_eq, not_true_eq_false, if_false, hq]
  rfl

end

/-! ## The statement -/

/-- Settles O50: RULE-SET by whether its argument passes, a sample by the rule's state and how its value stands. -/
theorem rulesTripAndClear : Obligations.RulesTripAndClear := by
  refine ⟨?ruleSet, ?sample⟩
  case ruleSet =>
    intro o k arg s h n run bad now take
    have refused : ruleToPut k arg = none → run = bad := exec_ruleSet_bad h
    have taken {x : Option RuleSpec} : ruleToPut k arg = some x → take x := exec_ruleSet_put h
    refine ⟨?outside, ?unknown, ?empty, fun r h1 h8 harg => ⟨?outOfRange, ?inRange⟩⟩
    case outside => exact fun hk => refused (ruleToPut_outside hk)
    case unknown => exact fun _ _ _ _ _ _ harg => refused (ruleToPut_unknown (by rw [harg]; rfl))
    case empty => exact fun h1 h8 harg => taken (ruleToPut_known (x := none) h1 h8 (by rw [harg]; rfl))
    case outOfRange =>
      exact fun hbad => refused ((ruleToPut_known (x := some r) h1 h8 (by rw [harg]; rfl)).trans
        (if_neg (by simp [ruleEntryOk, hbad])))
    case inRange =>
      exact fun hok => taken ((ruleToPut_known (x := some r) h1 h8 (by rw [harg]; rfl)).trans (if_pos hok))
  case sample =>
    intro k spec rec r s l hspec hrec
    refine ⟨evaluateRule_otherDevice hspec hrec, evaluateRule_noQuantity hspec hrec, ?_⟩
    intro q hdevice hq past back
    have hpast : classify spec q.value = .past ↔ past = true := classify_eq_past spec q.value
    have hback : classify spec q.value = .back ↔ back = true := classify_eq_back spec q.value
    have hrecs := evaluateRule_value hspec hrec hdevice hq
    have hnew : nth (evaluateRule r (s, l) k).2 k = some (rec.seen spec q.value s.time) := by
      rw [hrecs, nth_put_same, hrec]
      rfl
    have hstate : (rec.seen spec q.value s.time).state =
        nextRuleState spec.hold rec.state (classify spec q.value) := rfl
    refine ⟨_, hnew, rfl, rfl, fun j hj => by rw [hrecs, nth_put_other _ _ hj], ?_⟩
    rw [hstate]
    refine ⟨?clear, ?clear', fun m => ?arming, fun m => ?arming', ?tripped, ?tripped', fun m => ?easing,
      fun m => ?easing'⟩ <;> intro hs hc <;> rw [hs]
    case clear => rw [nextRuleState_clear, if_pos (hpast.2 hc)]
    case clear' => rw [nextRuleState_clear, if_neg (by simp [hpast, hc])]
    case arming => rw [nextRuleState_arming, if_pos (hpast.2 hc)]
    case arming' => rw [nextRuleState_arming, if_neg (by simp [hpast, hc])]
    case tripped => rw [nextRuleState_tripped, if_pos (hback.2 hc)]
    case tripped' => rw [nextRuleState_tripped, if_neg (by simp [hback, hc])]
    case easing => rw [nextRuleState_easing, if_pos (hback.2 hc)]
    case easing' => rw [nextRuleState_easing, if_neg (by simp [hback, hc])]

end Sys2Proof.Machine


/-! SUPPORT. The machine as a whole: which rows touch the queue and the store, what an idle or a held machine does, and
that no step spoils the settings store (11 section 11.2), with the statements about them. -/

namespace Sys2Proof.Machine

/-! ## The store after the rows that touch it (R192, R194) -/

/-- R192: a full reset leaves the store in its form. -/
theorem State.storeAfterReset_wf {s : State} (h : Memory.wf s.store = true) : Memory.wf s.storeAfterReset = true := by
  unfold State.storeAfterReset
  split
  · exact h
  · exact wf_writePartly h

/-- R192: a full reset changes no byte that was written. -/
theorem State.storeAfterReset_keeps {s : State} (h : Memory.wf s.store = true) :
    KeepsWritten s.store s.storeAfterReset := by
  unfold State.storeAfterReset
  split
  · exact KeepsWritten.refl _
  · exact keeps_writePartly h

/-- R192: the end of a record's writing adds the record's bytes, or nothing where no record is being written. -/
theorem State.writeDone_store (s : State) :
    s.writeDone.store = s.store ∨ ∃ r, s.writeDone.store = writeBytes s.store (storeEnd s.store) r := by
  unfold State.writeDone
  split
  · exact .inl rfl
  · exact .inr ⟨_, rfl⟩

theorem State.start_pending (s : State) : s.start.pending = s.pending := by
  unfold State.start
  split <;> rfl

theorem State.writeDone_pending (s : State) : s.writeDone.pending = s.pending := by
  unfold State.writeDone
  split <;> rfl

/-- The store after any row: as it was, as a full reset leaves it, or with a record's bytes written. -/
theorem exec_store {c : Instr} {s t : State} (h : exec c s = .next t) :
    t.store = s.store ∨ t.store = s.storeAfterReset ∨ ∃ r, t.store = writeBytes s.store (storeEnd s.store) r := by
  by_cases hreset : c = .resetAsserted
  · subst hreset
    cases h
    exact .inr (.inl rfl)
  by_cases hstart : c = .start
  · subst hstart
    cases h
    exact s.start_store.imp_right .inl
  by_cases hdone : c = .storeWriteDone
  · subst hdone
    cases h
    exact s.writeDone_store.imp_right .inr
  · obtain ⟨n, hn⟩ := exec_acts c s hreset hstart hdone
    cases hn.symm.trans h
    exact .inl rfl

/-- No row touches the queue of waiting commands. -/
theorem exec_pending {c : Instr} {s t : State} (h : exec c s = .next t) : t.pending = s.pending := by
  by_cases hreset : c = .resetAsserted
  · subst hreset
    cases h
    rfl
  by_cases hstart : c = .start
  · subst hstart
    cases h
    exact s.start_pending
  by_cases hdone : c = .storeWriteDone
  · subst hdone
    cases h
    exact s.writeDone_pending
  · obtain ⟨n, hn⟩ := exec_acts c s hreset hstart hdone
    cases hn.symm.trans h
    rfl

/-- A step idles, or runs the front command on the machine with the queue's rest. -/
theorem step_cases {s t : State} (h : step s = .next t) :
    t = s ∨ ∃ c rest, s.pending = c :: rest ∧ exec c { s with pending := rest } = .next t := by
  unfold step at h
  split at h
  · cases h
    exact .inl rfl
  · next c rest hp => exact .inr ⟨c, rest, hp, h⟩

/-- The store after any step, as after a row. -/
theorem step_store {s t : State} (h : step s = .next t) :
    t.store = s.store ∨ t.store = s.storeAfterReset ∨ ∃ r, t.store = writeBytes s.store (storeEnd s.store) r := by
  rcases step_cases h with rfl | ⟨c, rest, -, hc⟩
  · exact .inl rfl
  · exact (exec_store hc : _)

/-! ## A held machine (log entry 5) -/

theorem Node.onEvent_held {n : Node} (f : Node → Node) (h : n.phase = .held) : Node.onEvent f n = n := by
  simp [Node.onEvent, h]

theorem Node.onRole_held {n : Node} (b : Bool) (f : Node → Node) (h : n.phase = .held) : Node.onRole b f n = n := by
  simp [Node.onRole, h]

theorem Node.onMessage_held {n : Node} (b : Bool) (st : Option Nat) (p : Payload) (f : Node → Node)
    (h : n.phase = .held) : Node.onMessage b st p f n = n := by
  simp [Node.onMessage, h]

theorem Node.tick_held {n : Node} (h : n.phase = .held) : n.tick = n := by
  simp [Node.tick, h]

/-- R195: while the reset input is held no command but a RESTART from L acts. -/
theorem Node.onCommand_held {n : Node} {mem : Memory} {o : Origin} {c : Command} (h : n.phase = .held)
    (hc : ∀ tag, o = .link tag → c ≠ .restart) : Node.onCommand mem o c n = n := by
  rw [Node.onCommand, if_pos h]
  unfold Node.beforeLink
  split
  · next tag => exact absurd rfl (hc tag rfl)
  · rfl

theorem Node.setLight_pins (n : Node) (p : PortId) (b : Bool) : ∃ q, n.setLight p b = { n with pins := q } := by
  cases p <;> exact ⟨_, rfl⟩

/-- A machine whose node changes its pins alone. -/
theorem State.act_pins {s : State} {f : Node → Node} (h : ∃ q, f s.node = { s.node with pins := q }) :
    ∃ q, s.act f = .next { s with node := { s.node with pins := q } } := by
  obtain ⟨q, hq⟩ := h
  exact ⟨q, by rw [State.act, hq]⟩

theorem State.act_idle {s : State} {f : Node → Node} (h : f s.node = s.node) :
    ∃ q, s.act f = .next { s with node := { s.node with pins := q } } := State.act_pins ⟨_, h⟩

theorem State.writeDone_idle {s : State} (h : s.node.writing = none) : s.writeDone = s := by
  unfold State.writeDone
  rw [h]

/-- Log entry 5: a row at a held machine that writes no record changes what stands at the inputs, at most. -/
theorem exec_held {i : Instr} {s : State} (h : s.node.phase = .held) (hw : s.node.writing = none)
    (hreset : i ≠ .resetAsserted) (hstart : i ≠ .start) (hrestart : ∀ tag, i ≠ .restart (.link tag)) :
    ∃ p, exec i s = .next { s with node := { s.node with pins := p } } := by
  have event (f : Node → Node) := State.act_idle (s := s) (Node.onEvent_held f h)
  have role (b : Bool) (f : Node → Node) := State.act_idle (s := s) (Node.onRole_held b f h)
  have message (b : Bool) (st : Option Nat) (p : Payload) (f : Node → Node) :=
    State.act_idle (s := s) (Node.onMessage_held b st p f h)
  have command (o : Origin) (c : Command) (hc : ∀ tag, o = .link tag → c ≠ .restart) :=
    State.act_idle (s := s) (Node.onCommand_held (mem := s.store) h hc)
  have light (p : PortId) (b : Bool) (f : Node → Node) :
      ∃ q, (s.act fun n => Node.onEvent f (n.setLight p b)) = .next { s with node := { s.node with pins := q } } := by
    refine State.act_pins ?_
    obtain ⟨q, hq⟩ := s.node.setLight_pins p b
    exact ⟨q, by rw [hq]; exact Node.onEvent_held f h⟩
  cases i
  case resetAsserted => exact absurd rfl hreset
  case start => exact absurd rfl hstart
  case restart o => exact command o _ fun tag ho => absurd (by rw [ho]) (hrestart tag)
  case storeWriteDone => exact ⟨s.node.pins, congrArg _ (State.writeDone_idle hw)⟩
  case cycleTimerTick => exact State.act_idle (Node.tick_held h)
  case lightLost p => exact light p _ _
  case lightSeen p => exact light p _ _
  case hookContactChange p b =>
    exact State.act_pins (f := fun n => Node.onRole false (fun n => n.timeHook p b) (n.setHook p b))
      ⟨_, Node.onRole_held (n := s.node.setHook p b) _ _ h⟩
  case inputContactChange i b =>
    exact State.act_pins (f := fun n => Node.onRole false (fun n => n.timeInput i) (n.setInput i b))
      ⟨_, Node.onRole_held (n := s.node.setInput i b) _ _ h⟩
  case markerMissing | recoverExpired | probeReceived | partnerMovedOn | forward | attentionPauseExpiry |
      hostFrameReceived | frameGapTimeout | frameSent | holdLapseExpiry | badLength | linkReplyGapEnds =>
    exact event _
  case originateCycle | cycleArrivesWayside | cycleReturns | noGoodMarkerTimeout | waitToRestoreExpiry |
      headEndRestoreExpiry | returnTimeout | surveyTimeout | tokenLossExpiry | loopCeases | forwardTimeout |
      hookDebounceExpiry | repeatTimerExpiry | labelRunLimit | ringTimerExpiry | drainTimerExpiry |
      releaseDelayExpiry | beaconPhaseExpiry | exchangeReply | replyTimeout | joinDue | rosterDue |
      holdTimerExpiry | pulseTimerExpiry | restartEnd | inputDebounceExpiry | batchTimerExpiry =>
    exact role _ _
  case commandFwd | replyFwd | callQueued | callAssign | callBusy | callRingAtWayside | callAnsweredAtWayside |
      callClearAtWayside | callClearedAtWayside | callRequest | callAnsweredAtHeadEnd | callClearAtHeadEnd |
      callClearedAtHeadEnd | collectAsk | batchHead | batchItem | batchEnd | collectAck | noticeFwd =>
    exact message _ _ _ _
  all_goals exact command _ _ fun _ _ => by simp

/-- R195: a RESTART from L at a held machine is refused with BUSY where a command is in progress on L. -/
theorem State.restart_busy {s : State} (tag : Nat) (hp : s.node.phase = .held) (hr : s.node.link.running = false)
    (hl : s.node.cmd.chanL ≠ none) :
    s.command (.link tag) .restart =
      .next { s with node := s.node.replyTo (.link tag) (.command .restart) .busy .nil } := by
  have hsome : s.node.cmd.chanL.isSome = true := Option.isSome_iff_ne_none.2 hl
  simp [State.command, State.act, Node.onCommand, hp, Node.beforeLink, hr, Node.takeCommand, Node.preCheck,
    Cmd.channel, hsome]

/-- R195: with the host link running a held machine leaves a RESTART alone. -/
theorem State.restart_running {s : State} (tag : Nat) (hp : s.node.phase = .held) (hr : s.node.link.running = true) :
    s.command (.link tag) .restart = .next s := by
  simp [State.command, State.act, Node.onCommand, hp, Node.beforeLink, hr]

/-! ## The statements -/

/-- Settles O1: it is the second case of `step`. -/
theorem stepRunsFrontCommand : Obligations.StepRunsFrontCommand := by
  intro c rest s h
  unfold step
  rw [h]

/-- Settles O2: no command is no step; a held machine by the kind of the row. -/
theorem idleOrHeldMachineStays : Obligations.IdleOrHeldMachineStays := by
  refine ⟨fun s h => ?_, fun _ _ hp hw hreset hstart hrestart => exec_held hp hw hreset hstart hrestart,
    fun tag s hp => ⟨State.restart_beforeLink tag hp, State.restart_busy tag hp, State.restart_running tag hp⟩⟩
  unfold step
  rw [h]

/-- Settles O3: but for the three rows named, every row acts on the node alone. -/
theorem rowsLeaveQueueAndStore : Obligations.RowsLeaveQueueAndStore := by
  refine ⟨fun _ _ _ => exec_pending, fun c s t hdone hreset hstart h => ?_⟩
  obtain ⟨n, hn⟩ := exec_acts c s hreset hstart hdone
  cases hn.symm.trans h
  rfl

/-- Settles O4: the store after reset is empty. -/
theorem resetStoreIsSound : Obligations.ResetStoreIsSound := ⟨rfl, fun _ => rfl⟩

/-- Settles O5, by what a step can do to the store. -/
theorem stepKeepsStoreSound : Obligations.StepKeepsStoreSound := by
  intro s t hs h
  unfold StoreOk
  rcases step_store h with e | e | ⟨r, e⟩ <;> rw [e]
  · exact hs
  · exact State.storeAfterReset_wf hs
  · exact wf_writeBytes hs

/-- Settles O6, by what a step can do to the store. -/
theorem writtenBytesNeverChange : Obligations.WrittenBytesNeverChange := by
  intro s t hs h
  rcases step_store h with e | e | ⟨r, e⟩ <;> rw [e]
  · exact KeepsWritten.refl _
  · exact State.storeAfterReset_keeps hs
  · exact keeps_writeBytes hs

end Sys2Proof.Machine


/-! SUPPORT. How every command is taken and answered (R186, R188), where its reply goes, and what the end of a step does
(R31, R59, R165, R166, R180), with the statements about them. -/

namespace Sys2Proof.Machine

/-! ## Refused commands -/

/-- A row that gives a command of the catalogue is that command. -/
theorem exec_of_rowCommand {i : Instr} {o : Origin} {c : Command} (h : rowCommand i = some (o, c)) (s : State) :
    exec i s = s.command o c := by
  cases i <;> cases h <;> rfl

/-- R186 step 1: a command whose channel has one in progress. -/
theorem State.command_busy {s : State} {o : Origin} {c : Command} (h : Reaches s o) (hb : s.node.cmd.channel o ≠ none) :
    s.command o c = .next (s.replied s.node o c .busy .nil) := by
  have hpre : s.node.preCheck o (.command c) = some .busy := if_pos (Option.isSome_iff_ne_none.2 hb)
  rw [State.command_reaches h, Node.takeCommand, hpre]
  rfl

/-- R186 steps 3 and 4, R188: a command that comes to a free channel and is refused. -/
theorem State.command_refused {s : State} {o : Origin} {c : Command} {st : Status} (h : Reaches s o)
    (hf : s.node.cmd.channel o = none) (hr : s.node.refusal o c = some st) :
    s.command o c = .next (s.replied s.node o c st .nil) := by
  have hpre : s.node.preCheck o (.command c) = none := if_neg (by simp [hf])
  rw [State.command_reaches h, Node.takeCommand, hpre]
  simp only [hr, State.replied]

section
variable {n : Node} {o : Origin} {c : Command}

theorem Node.refusal_wrongRole
    (h : (Command.listing c).role = some .headEnd ∧ n.set.role = .wayside ∨
      (Command.listing c).role = some .wayside ∧ n.set.role = .headEnd) :
    n.refusal o c = some .wrongRole := by
  refine if_pos (h.imp (And.imp_right fun hr => ?_) (And.imp_right fun hr => ?_)) <;>
    simp [Node.isHead, Node.set] at hr ⊢ <;> simp [hr]

/-- The role of a command that a node of its own role looks at. -/
theorem Node.ownRole (h : ∀ q, (Command.listing c).role = some q → n.set.role = q) :
    ¬((Command.listing c).role = some .headEnd ∧ n.isHead = false ∨
      (Command.listing c).role = some .wayside ∧ n.isHead = true) := by
  rintro (⟨hr, hh⟩ | ⟨hr, hh⟩) <;> have := h _ hr <;> simp_all [Node.isHead, Node.set]

theorem Node.refusal_channel (hr : ∀ q, (Command.listing c).role = some q → n.set.role = q)
    (h : (Command.listing c).takenFrom o = false) : n.refusal o c = some .wrongState := by
  simp only [Node.refusal, if_neg (Node.ownRole hr), if_pos h]

theorem Node.refusal_held (hr : ∀ q, (Command.listing c).role = some q → n.set.role = q)
    (ht : (Command.listing c).takenFrom o = true)
    (h : Origin.isCentre o = true ∧ n.cmd.held = true ∧ HoldClass.held (Command.listing c).hold = true) :
    n.refusal o c = some .held := by
  simp only [Node.refusal, if_neg (Node.ownRole hr), ht, Bool.true_eq_false, if_false, if_pos h]

theorem Node.refusal_noHold (hr : ∀ q, (Command.listing c).role = some q → n.set.role = q)
    (ht : (Command.listing c).takenFrom o = true) (hc : Origin.isCentre o = false)
    (h : Command.needsHold c = true ∧ n.cmd.held = false) : n.refusal o c = some .wrongState := by
  simp only [Node.refusal, if_neg (Node.ownRole hr), ht, hc, Bool.true_eq_false, Bool.false_eq_true, if_false,
    false_and, if_pos h]

end

/-- Settles O10: a busy channel first, then the four checks of `Node.refusal` in their order. -/
theorem busyAndRefusedCommandsAreAnswered : Obligations.BusyAndRefusedCommandsAreAnswered := by
  refine ⟨fun i o c s hi h hb => ?_, fun i o c s hi h hf => ?_⟩
  · rw [exec_of_rowCommand hi, State.command_busy h hb]
  · rw [exec_of_rowCommand hi]
    exact ⟨fun hr => State.command_refused h hf (Node.refusal_wrongRole hr), fun hr =>
      ⟨fun ht => State.command_refused h hf (Node.refusal_channel hr ht),
        fun ht hc hh hl => State.command_refused h hf (Node.refusal_held hr ht ⟨hc, hh, hl⟩),
        fun ht hc hn hh => State.command_refused h hf (Node.refusal_noHold hr ht hc ⟨hn, hh⟩)⟩⟩

/-! ## Replies -/

/-- A reply pushed on the link waits there. -/
theorem Node.replying_pushReply (n : Node) (r : Reply) : (n.pushReply r).replying r :=
  .inl (List.mem_append_right _ (List.mem_singleton_self r))

/-- R48: a message that CMD offers stands in the normal queue or is kept. -/
theorem Node.carrying_offerCmd (n : Node) (m : Message) : (n.offerCmd m).carrying m := by
  unfold Node.offerCmd
  dsimp only
  split
  · next h => exact .inr (Svc.queued_of_offerNormal h)
  · exact .inl (List.mem_append_right _ (List.mem_singleton_self m))

theorem isRestart_command (c : Command) : isRestart (.command c) = decide (c = .restart) := by
  cases c <;> rfl

/-- Settles O11: the reply stands where `Node.replyTo` puts it, and the end of the step keeps it. -/
theorem repliesGoTheirWay : Obligations.RepliesGoTheirWay := by
  refine fun n c st v => ⟨fun tag => (Node.keeps_settle _).replying _ ?_, fun fwd =>
    ⟨messageSlots (.replyFwd fwd st v), (messageSlots_bounds _).1, (messageSlots_bounds _).2,
      (Node.keeps_settle _).carrying _ (n.carrying_offerCmd _)⟩⟩
  have hrestart : (isRestart (.command c) && decide (st = .done)) = decide (c = .restart ∧ st = .done) := by
    rw [isRestart_command, Bool.decide_and]
  rw [← hrestart]
  exact n.replying_pushReply _

/-! ## Those told of a freeing (R31, R180) -/

theorem Node.tellFreed_idle {n : Node} (h : n.svc.freed = false) (fuel : Nat) : Node.tellFreed fuel n = n := by
  cases fuel with
  | zero => rfl
  | succ fuel => simp [Node.tellFreed, h]

theorem Node.tellFreed_freed {n : Node} (h : n.svc.freed = true) (fuel : Nat) :
    Node.tellFreed (fuel + 1) n = Node.tellFreed fuel (Node.tellEach 4
      ([Producer.call, .cmd, .note, .coll].filter n.waits) { n with svc := { n.svc with freed := false } }) := by
  simp only [Node.tellFreed, h, if_true]
  rfl

theorem Node.waits_call (n : Node) : n.waits .call = true ↔ n.call.held ≠ [] := by simp [Node.waits]

theorem Node.waits_cmd (n : Node) : n.waits .cmd = true ↔ n.cmd.refused ≠ [] := by simp [Node.waits]

theorem Node.waits_note (n : Node) :
    n.waits .note = true ↔ n.isHead = false ∧ ∃ e ∈ n.svc.note.queue, e.toCentre = true := by simp [Node.waits]

theorem Node.waits_coll (n : Node) : n.waits .coll = true ↔ n.coll.heldH ≠ [] ∨ n.coll.heldW ≠ [] := by
  simp [Node.waits]

theorem Node.tellEach_nil (fuel : Nat) (n : Node) : Node.tellEach fuel [] n = n := by cases fuel <;> rfl

/-- R31: of two producers or more, one is told before the rest. -/
theorem Node.tellEach_several (fuel : Nat) {l : List Producer} (n : Node) (h : 2 ≤ l.length) :
    ∃ p ∈ l, ∃ k, Node.tellEach (fuel + 1) l n = Node.tellEach fuel (l.filter fun q => q ≠ p)
      (Node.offerAgain { n with svc := { n.svc with free := k } } p) := by
  match l, h with
  | p :: q :: l, _ =>
    have hk : Config.producerChoice n.svc.free % (p :: q :: l).length < (p :: q :: l).length :=
      Nat.mod_lt _ (by simp)
    refine ⟨(p :: q :: l)[Config.producerChoice n.svc.free % (p :: q :: l).length], List.getElem_mem hk,
      n.svc.fresh.free, ?_⟩
    simp only [Node.tellEach, List.getElem?_eq_getElem hk, Option.getD_some]
    rfl

/-! ## Held messages offered again (R59, R165, R166) -/

theorem Node.retryCalls_cons (m : Message) (l : List Message) (n : Node) :
    n.retryCalls (m :: l) = if (n.svc.offerEmergency m).2 then
        Node.retryCalls l ({ n with svc := (n.svc.offerEmergency m).1 }.onCall fun c => { c with held := c.held.drop 1 })
      else { n with svc := (n.svc.offerEmergency m).1 } := rfl

theorem Node.offerAgain_call {n : Node} {m : Message} {rest : List Message} (h : n.call.held = m :: rest) :
    n.offerAgain .call = if (n.svc.offerEmergency m).2 then
        Node.offerAgain { n with svc := (n.svc.offerEmergency m).1, call := { n.call with held := rest } } .call
      else { n with svc := (n.svc.offerEmergency m).1 } := by
  have hnext : ({ n with svc := (n.svc.offerEmergency m).1 }.onCall fun c => { c with held := c.held.drop 1 }) =
      { n with svc := (n.svc.offerEmergency m).1, call := { n.call with held := rest } } := by
    simp [Node.onCall, h]
  show n.retryCalls n.call.held = _
  rw [h, Node.retryCalls_cons, hnext]
  rfl

theorem Node.offerAgain_cmd {n : Node} {m : Message} {rest : List Message} (h : n.cmd.refused = m :: rest) :
    n.offerAgain .cmd = if (n.svc.offerNormal m).2 then
        Node.offerAgain { n with svc := (n.svc.offerNormal m).1, cmd := { n.cmd with refused := rest } } .cmd
      else { n with svc := (n.svc.offerNormal m).1 } := by
  have hnext : ({ n with svc := (n.svc.offerNormal m).1 }.onCmd fun c => { c with refused := c.refused.drop 1 }) =
      { n with svc := (n.svc.offerNormal m).1, cmd := { n.cmd with refused := rest } } := by
    simp [Node.onCmd, h]
  show Node.retryCmd n.cmd.refused n = _
  rw [h, Node.retryCmd, hnext]
  rfl

theorem Node.offerAgain_collHead {n : Node} (hh : n.isHead = true) :
    n.offerAgain .coll = Node.retryHeldH n.coll.heldH n := if_pos hh

theorem Node.offerAgain_collWayside {n : Node} (hh : n.isHead = false) :
    n.offerAgain .coll = Node.retryHeldW n.coll.heldW n := if_neg (by simp [hh])

/-- Offers leave the settings, and so the role. -/
theorem Node.isHead_offered {n : Node} {t : Svc} (h : Svc.Keeps n.svc t) (c : Coll) :
    ({ n with svc := t, coll := c } : Node).isHead = n.isHead := by
  simp only [Node.isHead, h.settings]

theorem Node.offerAgain_heldH {n : Node} {m : Message} {rest : List Message} (hh : n.isHead = true)
    (h : n.coll.heldH = m :: rest) :
    n.offerAgain .coll = if (n.svc.offerNormal m).2 then
        Node.offerAgain { n with svc := (n.svc.offerNormal m).1, coll := { n.coll with heldH := rest } } .coll
      else { n with svc := (n.svc.offerNormal m).1 } := by
  have hnext : ({ n with svc := (n.svc.offerNormal m).1 }.onColl fun c => { c with heldH := c.heldH.drop 1 }) =
      { n with svc := (n.svc.offerNormal m).1, coll := { n.coll with heldH := rest } } := by
    simp [Node.onColl, h]
  rw [Node.offerAgain_collHead hh, h, Node.retryHeldH, hnext,
    Node.offerAgain_collHead ((Node.isHead_offered (Svc.keeps_offerNormal n.svc m) _).trans hh)]

/-- R166: one held entry offered: the message, or the placeholder of a batch. -/
def HeldEntry.offer (e : HeldEntry) (s : Svc) : Svc × Bool :=
  match e with
  | .msg _ m => s.offerNormal m
  | .batch k b => s.offerPlaceholder k b

theorem HeldEntry.keeps_offer (e : HeldEntry) (s : Svc) : Svc.Keeps s (e.offer s).1 := by
  cases e with
  | msg k m => exact Svc.keeps_offerNormal s m
  | batch k b => exact Svc.keeps_offerPlaceholder s k b

theorem Node.tryEntry_eq (n : Node) (e : HeldEntry) :
    n.tryEntry e = ({ n with svc := (e.offer n.svc).1 }, (e.offer n.svc).2) := by cases e <;> rfl

theorem Node.offerAgain_heldW {n : Node} {e : HeldEntry} {rest : List HeldEntry} (hh : n.isHead = false)
    (h : n.coll.heldW = e :: rest) :
    n.offerAgain .coll = if (e.offer n.svc).2 then
        Node.offerAgain { n with svc := (e.offer n.svc).1, coll := { n.coll with heldW := rest } } .coll
      else { n with svc := (e.offer n.svc).1 } := by
  have hnext : ({ n with svc := (e.offer n.svc).1 }.onColl fun c => { c with heldW := c.heldW.drop 1 }) =
      { n with svc := (e.offer n.svc).1, coll := { n.coll with heldW := rest } } := by
    simp [Node.onColl, h]
  rw [Node.offerAgain_collWayside hh, h, Node.retryHeldW, Node.tryEntry_eq]
  dsimp only
  rw [hnext, Node.offerAgain_collWayside ((Node.isHead_offered (e.keeps_offer n.svc) _).trans hh)]

theorem State.settled_node (s : State) (n : Node) : (s.settled n).node = n.settle := by rw [State.settled]

theorem State.settled_store (s : State) (n : Node) : (s.settled n).store = s.store := by rw [State.settled]

theorem State.settled_pending (s : State) (n : Node) : (s.settled n).pending = s.pending := by rw [State.settled]

/-- Settles O12: `Node.keeps_settle` for the frame, and for the order of what is told the equations of `Node.tellFreed`,
`Node.tellEach` and `Node.offerAgain`. -/
theorem endOfStepFrame : Obligations.EndOfStepFrame := by
  refine ⟨fun s n => ⟨by rw [State.settled_node]; exact n.keeps_settle, s.settled_store n, s.settled_pending n,
      by rw [State.settled_node, Node.settle]⟩, fun n fuel => ⟨fun h => Node.tellFreed_idle h fuel,
    fun h => Node.tellFreed_freed h fuel, n.waits_call, n.waits_cmd, n.waits_note, n.waits_coll⟩,
    fun n l fuel => ⟨Node.tellEach_nil fuel n, fun p => rfl, fun h => Node.tellEach_several fuel n h⟩,
    fun n m rest => ⟨Node.offerAgain_call, Node.offerAgain_cmd, Node.offerAgain_heldH, ?_, ?_, ?_, rfl⟩,
    fun n e rest hh => ?_⟩
  · intro h
    simp [Node.offerAgain, h, Node.retryCalls]
  · intro h
    simp [Node.offerAgain, h, Node.retryCmd]
  · intro hh h
    simp [Node.offerAgain, h, hh, Node.retryHeldH]
  · refine ⟨fun h => by simp [Node.offerAgain, h, hh, Node.retryHeldW], fun h => ?_⟩
    have he := Node.offerAgain_heldW hh h
    cases e with
    | msg k m => exact he
    | batch k b => exact he

end Sys2Proof.Machine


/-! SUPPORT. The full reset and a start (R194), with the statements about them. -/

namespace Sys2Proof.Machine

/-! ## The reset state -/

theorem exec_resetAsserted (s : State) : exec .resetAsserted s = .next s.fullReset := rfl

/-- R192: with no record being written a full reset leaves the store. -/
theorem State.storeAfterReset_idle {s : State} (h : s.node.writing = none) : s.storeAfterReset = s.store := by
  simp only [State.storeAfterReset, h]

/-- R123: the pool as a full reset leaves it. -/
theorem poolSafe_reset : PoolSafe Pool.reset := by
  refine ⟨by decide, fun c => ?_⟩
  cases c <;> decide

/-- R122, R123, R176: the services as a full reset leaves them. -/
theorem svcOk_reset (free : Nat) : SvcOk (Svc.reset free) where
  sum := rfl
  safe := poolSafe_reset
  notes := ⟨Nat.zero_le _, fun _ h => absurd h List.not_mem_nil⟩

/-- R62, R63: the call table as a full reset leaves it. -/
theorem callsOk_reset : CallsOk Call.reset Settings.default.voiceCap where
  inRange := by decide
  numbers := List.nodup_nil
  range := fun _ h => absurd h List.not_mem_nil
  pairs := List.nodup_nil
  slots := List.nodup_nil
  within := fun _ h => absurd h List.not_mem_nil
  queued := fun _ h => absurd h List.not_mem_nil
  waiting := rfl
  places := Nat.zero_le _
  busy := fun h => absurd rfl h

/-- Settles O7: every block of a fully reset node is its reset state, whose values are looked up place by place. -/
theorem resetStateAndItsValues : Obligations.ResetStateAndItsValues := by
  refine ⟨fun s => ⟨s.fullReset, exec_resetAsserted s, rfl, rfl, rfl, rfl, rfl, rfl, rfl, rfl, rfl, rfl, rfl, rfl, rfl,
    rfl, rfl, rfl, rfl, rfl, rfl, rfl, rfl, rfl, rfl, rfl, State.storeAfterReset_keeps, State.storeAfterReset_idle⟩,
    ⟨rfl, rfl, rfl, rfl, rfl⟩, ?ports, ⟨rfl, rfl, rfl, rfl, rfl⟩, ⟨rfl, svcOk_reset 0, callsOk_reset⟩, ?phones,
    ?devices, ?beacons, ?outputs, rfl, rfl, rfl, rfl, rfl, rfl, rfl, rfl⟩
  case ports => exact fun p => by cases p <;> exact ⟨rfl, rfl, rfl, rfl, rfl, rfl⟩
  case phones => exact fun p h h' => by interval_cases p <;> rfl
  case devices => exact fun p h h' => by interval_cases p <;> rfl
  case beacons => exact fun p h h' => by interval_cases p <;> rfl
  case outputs => exact fun p h h' => by interval_cases p <;> rfl

/-! ## A start -/

theorem State.start_runs {s : State} (h : s.node.phase = .held ∨ s.node.restartDue = true) :
    exec .start s = .next { s.fullReset with node := s.fullReset.node.start s.storeAfterReset } := by
  show Host.Outcome.next s.start = _
  rw [State.start, if_pos h]
  rfl

/-- R194 steps 5 and 6: the host link runs, notices are kept and both transmitters are on. -/
structure Node.Serving (n : Node) : Prop where
  running : n.link.running = true
  keep : n.svc.note.keep = true
  east : n.east.transmit = true
  west : n.west.transmit = true

namespace Node.Serving

theorem of_eq {n m : Node} (h : n.Serving) (hl : m.link = n.link) (hs : m.svc = n.svc) (he : m.east = n.east)
    (hw : m.west = n.west) : m.Serving :=
  ⟨hl ▸ h.running, hs ▸ h.keep, he ▸ h.east, hw ▸ h.west⟩

theorem of_keeps {n m : Node} (h : n.Serving) (k : Node.Keeps n m) : m.Serving :=
  ⟨k.running.trans h.running, k.svc.noteKeep.trans h.keep, k.east ▸ h.east, k.west ▸ h.west⟩

theorem post {n : Node} (h : n.Serving) (c : NoticeCode) (b : Subject) (d : List Value) : (n.post c b d).Serving :=
  h.of_keeps (n.keeps_post c b d)

theorem onPort_enter {n : Node} (h : n.Serving) (p : PortId) (now : Nat) (new : PortState) :
    (n.onPort p fun r => r.enter now new).Serving := by
  obtain ⟨hl, hk, he, hw⟩ := h
  cases p <;> exact ⟨hl, hk, he, hw⟩

theorem onLoop {n : Node} (h : n.Serving) (l : Loop) (f : LoopSt → LoopSt) : (n.onLoop l f).Serving := by
  cases l <;> exact h.of_eq rfl rfl rfl rfl

/-- R5: a port that leaves DARK in the light keeps its transmitter. -/
theorem seeLight {n : Node} (h : n.Serving) (p : PortId) : (n.seeLight p).Serving := by
  unfold Node.seeLight
  dsimp only
  split
  · next hd =>
    rw [n.changePort_posted p .probeSend .lightSeen (by simp [hd.1]) (by simp [hd.1, PortState.isProbe]) (by simp [hd.1])]
    exact (h.onPort_enter ..).post ..
  · exact h

theorem startHead {n : Node} (h : n.Serving) : n.startHead.Serving := by
  have hs : (n.onHead fun h => { h with started := true }).startSurvey.Serving := h.of_eq rfl rfl rfl rfl
  exact (hs.onLoop ..).onLoop ..

theorem timeInput {n : Node} (h : n.Serving) (i : Nat) : (n.timeInput i).Serving := by
  unfold Node.timeInput
  split
  · exact h.of_eq rfl rfl rfl rfl
  · exact h

theorem startWayside {n : Node} (h : n.Serving) : n.startWayside.Serving := by
  unfold Node.startWayside
  refine List.foldlRecOn _ _ ?_ fun m hm i _ => hm.timeInput i
  refine List.foldlRecOn _ _ ?_ fun m hm p _ => hm.of_eq rfl rfl rfl rfl
  refine List.foldlRecOn _ _ ?_ fun m hm e _ => hm.of_eq rfl rfl rfl rfl
  refine List.foldlRecOn _ _ ?_ fun m hm d _ => hm.of_eq rfl rfl rfl rfl
  exact h.of_eq rfl rfl rfl rfl

end Node.Serving

/-- R194 step 5: the link runs and notices are kept from START on; step 6: then the transmitters. -/
theorem Node.serving_startPorts (n : Node) : n.startLink.startPorts.Serving := by
  have hlink : n.startLink.link.running = true ∧ n.startLink.svc.note.keep = true :=
    ⟨rfl, (Svc.keeps_post _ .start _ _).noteKeep⟩
  have hon : Node.Serving { n.startLink with
      east := { n.startLink.east with transmit := true }, west := { n.startLink.west with transmit := true } } :=
    ⟨hlink.1, hlink.2, rfl, rfl⟩
  exact (hon.seeLight .east).seeLight .west

theorem Node.startHead_phase (n : Node) : n.startHead.phase = n.phase := rfl

theorem Node.timeInput_phase (n : Node) (i : Nat) : (n.timeInput i).phase = n.phase := by
  unfold Node.timeInput
  split <;> rfl

theorem Node.startWayside_phase (n : Node) : n.startWayside.phase = n.phase := by
  unfold Node.startWayside
  refine List.foldlRecOn (motive := fun m : Node => m.phase = n.phase) _ _ ?_ fun m hm i _ => (m.timeInput_phase i).trans hm
  refine List.foldlRecOn (motive := fun m : Node => m.phase = n.phase) _ _ ?_ fun m hm _ _ => hm
  refine List.foldlRecOn (motive := fun m : Node => m.phase = n.phase) _ _ ?_ fun m hm _ _ => hm
  refine List.foldlRecOn (motive := fun m : Node => m.phase = n.phase) _ _ ?_ fun m hm _ _ => hm
  rfl

/-- The node at the end of R194 step 6, from a fully reset node and the store. -/
def Node.startReady (n : Node) (m : Memory) : Node :=
  { ((n.takeNextStart m).applyStore m).startLink.startPorts with phase := .started }

/-- The node at the end of R194 step 7, before the step ends. -/
def Node.startWorks (n : Node) : Node :=
  if n.isHead then n.startHead else n.startWayside

theorem Node.start_eq (n : Node) (m : Memory) : n.start m = (n.startReady m).startWorks.settle := rfl

theorem Node.serving_startReady (n : Node) (m : Memory) : (n.startReady m).Serving :=
  (Node.serving_startPorts _).of_eq rfl rfl rfl rfl

theorem Node.Serving.startWorks {n : Node} (h : n.Serving) : n.startWorks.Serving := by
  unfold Node.startWorks
  split
  · exact h.startHead
  · exact h.startWayside

theorem Node.startWorks_phase (n : Node) : n.startWorks.phase = n.phase := by
  unfold Node.startWorks
  split
  · exact n.startHead_phase
  · exact n.startWayside_phase

/-- R194: a start, in whatever store, ends with the machine serving. -/
theorem Node.serving_start (n : Node) (m : Memory) : (n.start m).Serving ∧ (n.start m).phase = .started := by
  rw [Node.start_eq]
  have hk := (n.startReady m).startWorks.keeps_settle
  exact ⟨(n.serving_startReady m).startWorks.of_keeps hk, hk.phase.trans (Node.startWorks_phase _)⟩

/-- Settles O8: from step 6 on nothing stops the link, the notices or the transmitters. -/
theorem startRunsTheNode : Obligations.StartRunsTheNode := by
  intro s h
  have hruns := State.start_runs h
  have hserving := s.fullReset.node.serving_start s.storeAfterReset
  generalize s.fullReset.node.start s.storeAfterReset = n at hruns hserving
  obtain ⟨⟨hrunning, hkeep, heast, hwest⟩, hphase⟩ := hserving
  exact ⟨_, hruns, hphase, hrunning, hkeep, heast, hwest, rfl, rfl⟩

end Sys2Proof.Machine


/-! SUPPORT. A start from a blank store (R194): every item at its default, START the first notice and the first frame, and
nothing else to do, with the statement about it. -/

namespace Sys2Proof.Machine

/-! ## The blank store -/

theorem storeRecords_blank : storeRecords [] = ([], 0) := by decide

theorem storedValue_blank (item : Nat) : storedValue [] item = Settings.default.number item := by
  simp [storedValue, storeRecords_blank]

/-- R194 steps 3 and 4: a blank store leaves a fully reset node as it is. -/
theorem Node.takeBlank (pins : Pins) (free : Nat) :
    ((Node.fullReset pins free).takeNextStart []).applyStore [] = Node.fullReset pins free := by
  simp only [Node.applyStore, storeRecords_blank, List.foldl_nil, Node.takeNextStart, storedValue_blank]
  rfl

/-! ## Notices at a node whose first notice is START -/

/-- R176: what is told first is told first after CENTRE was taken from some entries. -/
theorem find_serveCentre (k : Nat) (l : List Notice) :
    ((serveCentre k l).find? (·.toHost)).map (fun e => (e.code, e.details, e.received)) =
      (l.find? (·.toHost)).map fun e => (e.code, e.details, e.received) := by
  induction l generalizing k with
  | nil => cases k <;> rfl
  | cons e l ih =>
    cases k with
    | zero => rfl
    | succ k =>
      unfold serveCentre
      split
      · split
        · next h => simp [h]
        · next h => simp [h, ih]
      · cases h : e.toHost <;> simp [h, ih]

theorem length_serveCentre (k : Nat) (l : List Notice) : (serveCentre k l).length ≤ l.length := by
  induction l generalizing k with
  | nil => cases k <;> exact Nat.le_refl _
  | cons e l ih =>
    cases k with
    | zero => exact Nat.le_refl _
    | succ k =>
      unfold serveCentre
      have := ih k
      have := ih (k + 1)
      split
      · split <;> simp <;> omega
      · simp; omega

/-- The first notice for the host: its code, its details and whether it was received. -/
def Note.firstTold (n : Note) : Option (NoticeCode × List Value × Bool) :=
  (n.queue.find? (·.toHost)).map fun e => (e.code, e.details, e.received)

/-- The services of a node that has just started from a blank store: items at their defaults, no freeing to tell, no
segment, and at most `k` notices, of which one told as `x` is the first for the host. -/
structure Svc.Started (x : NoticeCode × List Value × Bool) (k : Nat) (s : Svc) : Prop where
  settings : s.settings = .default
  freed : s.freed = false
  segments : s.wx.segments = []
  overflow : s.note.overflow = false
  few : s.note.queue.length ≤ k
  first : s.note.firstTold = some x

/-- R123, R124: with no segment to evict a request changes the pool alone. -/
theorem Svc.requestBuffers_poolOnly {s : Svc} (h : s.wx.segments = []) (c : PoolClass) (n : Nat) :
    ∃ p r, s.requestBuffers c n = ({ s with pool := p }, r) := by
  cases hd : s.pool.decide c n with
  | none => exact ⟨_, _, Svc.requestBuffers_granted hd⟩
  | some r => exact ⟨_, _, Svc.requestBuffers_noSegments h hd⟩

theorem Svc.offerNormal_noSegments {s : Svc} (h : s.wx.segments = []) (m : Message) :
    ∃ p q b, s.offerNormal m = ({ s with pool := p, queues := q }, b) := by
  unfold Svc.offerNormal
  split
  · obtain ⟨p, r, hr⟩ := Svc.requestBuffers_poolOnly h .transit (transitBuffers m.length)
    rw [hr]
    cases r <;> exact ⟨_, _, _, rfl⟩
  · exact ⟨_, _, _, rfl⟩

@[simp] theorem Note.setAttention_overflow (n : Note) : n.setAttention.overflow = n.overflow := by
  unfold Note.setAttention
  split <;> rfl

/-- R176: the entry that a posted notice becomes. -/
def Svc.entryFor (s : Svc) (c : NoticeCode) (b : Subject) (d : List Value) : Notice where
  code := c
  source := s.settings.station
  received := false
  subject := b
  time := s.time
  details := d
  toHost := (s.settings.route c).host || (decide (s.settings.role = .headEnd) && (s.settings.route c).centre)
  toCentre := (s.settings.route c).centre && !decide (s.settings.role = .headEnd)

/-- R176, R180: a notice that is kept is appended, and a place taken by one for the centre makes NOTE look. -/
theorem Svc.post_eq (s : Svc) (c : NoticeCode) (b : Subject) (d : List Value) :
    s.post c b d =
      if s.note.keep = false ∨ noticeWaits (s.entryFor c b d) = false then s
      else if (s.entryFor c b d).toCentre && decide (s.note.queue.length < Config.noticePlaces) then
        Svc.lookCentre 2 { s with note := s.note.append (s.entryFor c b d) }
      else { s with note := s.note.append (s.entryFor c b d) } := rfl

namespace Svc.Started

variable {x : NoticeCode × List Value × Bool} {k : Nat}

theorem lookCentre (fuel : Nat) {s : Svc} (h : s.Started x k) : (Svc.lookCentre fuel s).Started x k := by
  induction fuel generalizing s with
  | zero => exact h
  | succ fuel ih =>
    unfold Svc.lookCentre
    dsimp only
    split
    · exact h
    · obtain ⟨p, q, b, hb⟩ := Svc.offerNormal_noSegments h.segments
        { source := s.settings.station, dest := Config.headEndNumber,
          length := messageSlots (.noticeFwd ((s.note.queue.filter (·.toCentre)).take 4)),
          payload := .noticeFwd ((s.note.queue.filter (·.toCentre)).take 4) }
      rw [hb]
      cases b with
      | false => exact ⟨h.settings, h.freed, h.segments, h.overflow, h.few, h.first⟩
      | true =>
        refine ih ⟨h.settings, h.freed, h.segments, ?_, ?_, ?_⟩
        · exact (Note.setAttention_overflow _).trans h.overflow
        · show (Note.setAttention _).queue.length ≤ k
          rw [Note.setAttention_queue]
          exact (length_serveCentre _ _).trans h.few
        · show (Note.setAttention _).firstTold = _
          rw [Note.firstTold, Note.setAttention_queue, find_serveCentre]
          exact h.first

/-- R176: a notice added behind the first. -/
theorem append {s : Svc} (h : s.Started x k) (hk : k < 256) (e : Notice) :
    Svc.Started x (k + 1) { s with note := s.note.append e } := by
  have happend : s.note.append e = { s.note with queue := s.note.queue ++ [e] }.setAttention :=
    if_pos (Nat.lt_of_le_of_lt h.few hk)
  rw [happend]
  refine ⟨h.settings, h.freed, h.segments, (Note.setAttention_overflow _).trans h.overflow, ?_, ?_⟩
  · have := h.few
    show (Note.setAttention _).queue.length ≤ k + 1
    rw [Note.setAttention_queue]
    simp
    omega
  · have hfirst := h.first
    unfold Note.firstTold at hfirst ⊢
    obtain ⟨e', he', hx⟩ := Option.map_eq_some_iff.1 hfirst
    show Option.map _ (List.find? _ (Note.setAttention _).queue) = _
    rw [Note.setAttention_queue, List.find?_append, he']
    exact congrArg some hx

theorem post {s : Svc} (h : s.Started x k) (hk : k < 256) (c : NoticeCode) (b : Subject) (d : List Value) :
    (s.post c b d).Started x (k + 1) := by
  have happend := h.append hk (s.entryFor c b d)
  rw [Svc.post_eq]
  split
  · exact ⟨h.settings, h.freed, h.segments, h.overflow, h.few.trans (Nat.le_succ k), h.first⟩
  · split
    · exact happend.lookCentre 2
    · exact happend

end Svc.Started

/-- What START tells at a start from a blank store. -/
def blankStartTold : NoticeCode × List Value × Bool := (.start, [.role .wayside, .nat 999, .nat 0, .nat 0], false)

/-- R194 step 5: START is the first notice. -/
theorem Svc.started_startLink (pins : Pins) (free : Nat) :
    (Node.fullReset pins free).startLink.svc.Started blankStartTold 1 := by
  have hfirst : ({ Svc.reset free with
      note := { Note.reset with keep := true, queue := [(Svc.reset free).entryFor .start .none blankStartTold.2.1],
                                attention := true } } : Svc).Started blankStartTold 1 :=
    ⟨rfl, rfl, rfl, rfl, Nat.le_refl 1, rfl⟩
  exact hfirst.lookCentre 2

theorem Node.startWayside_started (n : Node) : n.startWayside.trib.started = true := by
  unfold Node.startWayside
  refine List.foldlRecOn (motive := fun m : Node => m.trib.started = true) _ _ ?_ fun m hm i _ => ?_
  · refine List.foldlRecOn (motive := fun m : Node => m.trib.started = true) _ _ ?_ fun m hm _ _ => hm
    refine List.foldlRecOn (motive := fun m : Node => m.trib.started = true) _ _ ?_ fun m hm _ _ => hm
    exact List.foldlRecOn (motive := fun m : Node => m.trib.started = true) _ _ rfl fun m hm _ _ => hm
  · unfold Node.timeInput
    split <;> exact hm

/-! ## A node with nothing to do but send START -/

/-- A node that has just started from a blank store: its devices and outputs as a full reset leaves them, its host link
free, and nothing to send but notices. -/
structure Node.Blank (k : Nat) (n : Node) : Prop where
  svc : n.svc.Started blankStartTold k
  link : ∃ r, n.link = { Link.reset with running := true, rate := r }
  restartDue : n.restartDue = false
  delivery : n.coll.delivery = []
  devices : n.trib.devices = Trib.reset.devices
  outputs : n.trib.outputs = Trib.reset.outputs

namespace Node.Blank

variable {k : Nat}

theorem of_eq {n m : Node} (h : n.Blank k) (hs : m.svc = n.svc) (hl : m.link = n.link)
    (hd : m.restartDue = n.restartDue) (hc : m.coll = n.coll) (hv : m.trib.devices = n.trib.devices)
    (ho : m.trib.outputs = n.trib.outputs) : m.Blank k :=
  ⟨hs ▸ h.svc, hl ▸ h.link, hd ▸ h.restartDue, hc ▸ h.delivery, hv.trans h.devices, ho.trans h.outputs⟩

theorem post {n : Node} (h : n.Blank k) (hk : k < 256) (c : NoticeCode) (b : Subject) (d : List Value) :
    (n.post c b d).Blank (k + 1) :=
  ⟨h.svc.post hk c b d, h.link, h.restartDue, h.delivery, h.devices, h.outputs⟩

theorem startLink (pins : Pins) (free : Nat) : (Node.fullReset pins free).startLink.Blank 1 :=
  ⟨Svc.started_startLink pins free, ⟨_, rfl⟩, rfl, rfl, rfl, rfl⟩

theorem succ {n : Node} (h : n.Blank k) : n.Blank (k + 1) :=
  ⟨{ h.svc with few := h.svc.few.trans (Nat.le_succ k) }, h.link, h.restartDue, h.delivery, h.devices, h.outputs⟩

theorem seeLight {n : Node} (h : n.Blank k) (hk : k < 256) (p : PortId) : (n.seeLight p).Blank (k + 1) := by
  unfold Node.seeLight
  dsimp only
  split
  · next hd =>
    rw [n.changePort_posted p .probeSend .lightSeen (by simp [hd.1]) (by simp [hd.1, PortState.isProbe]) (by simp [hd.1])]
    exact (h.of_eq (by simp) (by simp) (by simp) (by simp) (by simp) (by simp)).post hk ..
  · exact h.succ

theorem startPorts {n : Node} (h : n.Blank 1) : n.startPorts.Blank 3 := by
  have hon : Node.Blank 1 { n with east := { n.east with transmit := true }, west := { n.west with transmit := true } } :=
    h.of_eq rfl rfl rfl rfl rfl rfl
  exact (hon.seeLight (by decide) .east).seeLight (by decide) .west

theorem timeInput {n : Node} (h : n.Blank k) (i : Nat) : (n.timeInput i).Blank k := by
  unfold Node.timeInput
  split
  · exact h.of_eq rfl rfl rfl rfl rfl rfl
  · exact h

/-- R100: with every kind UNUSED a start leaves a device record as it is. -/
theorem startDevice {n : Node} (h : n.Blank k) {d : Nat} (hd : d ∈ places 8) : (n.startDevice d).Blank k := by
  have hkind : ∀ d ∈ places 8, Settings.default.kindOf d = .unused := by decide
  have hreset : ∀ d ∈ places 8, change (fun _ => Device.reset) Trib.reset.devices d = Trib.reset.devices := by decide
  have hunused : n.set.kindOf d = .unused := by
    rw [Node.set, h.svc.settings]
    exact hkind d hd
  refine h.of_eq rfl rfl rfl rfl ?_ rfl
  show change _ n.trib.devices d = n.trib.devices
  simp only [hunused, if_true, h.devices]
  exact hreset d hd

theorem startWayside {n : Node} (h : n.Blank k) : n.startWayside.Blank k := by
  unfold Node.startWayside
  refine List.foldlRecOn _ _ ?_ fun m hm i _ => hm.timeInput i
  refine List.foldlRecOn _ _ ?_ fun m hm p _ => hm.of_eq rfl rfl rfl rfl rfl rfl
  refine List.foldlRecOn _ _ ?_ fun m hm e _ => hm.of_eq rfl rfl rfl rfl rfl rfl
  refine List.foldlRecOn _ _ ?_ fun m hm d hd => hm.startDevice hd
  exact h.of_eq rfl rfl rfl rfl rfl rfl

/-- R115: an output without conditions stays ARMED. -/
theorem evaluateOutput {n : Node} (h : n.Blank k) {x : Nat} (hx : x ∈ places 4) : n.evaluateOutput x = n := by
  have hspec : ∀ x ∈ places 4, nth Settings.default.outputs x = some OutputSpec.default := by decide
  have harmed : ∀ x ∈ places 4, nth Trib.reset.outputs x = some { state := .armed, hold := none, pulse := none } := by
    decide
  have hnever : n.allTrue OutputSpec.default = false := rfl
  unfold Node.evaluateOutput
  rw [Node.set, h.svc.settings, h.outputs, hspec x hx, harmed x hx]
  simp only [hnever]

theorem evaluateOutputs {n : Node} (h : n.Blank k) : n.evaluateOutputs = n := by
  have hround : (places 4).foldl Node.evaluateOutput n = n :=
    List.foldlRecOn (motive := fun m => m = n) _ _ rfl fun m hm x hx => by rw [hm]; exact h.evaluateOutput hx
  unfold Node.evaluateOutputs
  split
  · exact List.foldlRecOn (motive := fun m => m = n) _ _ rfl fun m hm x _ => by rw [hm]; exact hround
  · rfl

theorem rosterEntry {n : Node} (h : n.Blank k) (e : Nat) : n.set.rosterEntry e = none := by
  rw [Node.set, h.svc.settings]
  cases e with
  | zero => rfl
  | succ e =>
    show ((List.replicate 16 none)[e]?).getD none = none
    rw [List.getElem?_replicate]
    split <;> rfl

theorem skipRoster {n : Node} (h : n.Blank k) (d : Nat) (v : Device) : n.skipRoster d v = n :=
  List.foldlRecOn (motive := fun m => m = n) _ _ rfl fun m hm e _ => by rw [hm, h.rosterEntry e]

/-- R103: a device that is UNUSED has no work. -/
theorem lookForWork {n : Node} (h : n.Blank k) {d : Nat} (hd : d ∈ places 8) : n.lookForWork d = n := by
  have hunused : ∀ d ∈ places 8, nth Trib.reset.devices d = some Device.reset := by decide
  unfold Node.lookForWork
  rw [Node.device, h.devices, hunused d hd]
  dsimp only
  split
  · rfl
  · rw [h.skipRoster]
    split <;> rfl

theorem lookAll {n : Node} (h : n.Blank k) : n.lookAll = n :=
  List.foldlRecOn (motive := fun m => m = n) _ _ rfl fun m hm d hd => by rw [hm]; exact h.lookForWork hd

/-- R185: START is the first frame. -/
theorem settle {n : Node} (h : n.Blank k) :
    ∃ e, n.settle = n.takeNotice e ∧ (e.code, e.details, e.received) = blankStartTold := by
  obtain ⟨e, he, hx⟩ := Option.map_eq_some_iff.1 h.svc.first
  obtain ⟨r, hr⟩ := h.link
  refine ⟨e, ?_, hx⟩
  have hoffered : n.offeredNotice = some e := by
    rw [Node.offeredNotice, Node.set, h.svc.settings]
    exact he
  have hother : n.sendOther = n.takeNotice e := by
    rw [Node.sendOther, hoffered, h.delivery]
  rw [Node.settle, h.evaluateOutputs, h.lookAll, Node.tellFreed_idle h.svc.freed, Node.sendNext, hr, h.restartDue]
  exact hother

theorem takeNotice_sending {n : Node} (h : n.Blank k) {e : Notice} (he : e.received = false) :
    (n.takeNotice e).link.sending = some (.notice 0 0 e false) := by
  obtain ⟨r, hr⟩ := h.link
  show some (Frame.notice n.link.noticeNo (if e.received then e.source else 0) e n.svc.note.overflow) = _
  rw [hr, he, h.svc.overflow]
  rfl

end Node.Blank

/-! ## The statement -/

/-- R194: a start from a blank store comes, with nothing else, to the sending of START. -/
theorem Node.start_blank (pins : Pins) (free : Nat) :
    ∃ n e, (Node.fullReset pins free).start [] = Node.takeNotice n e ∧ n.Blank 3 ∧
      n.trib.started = true ∧ (e.code, e.details, e.received) = blankStartTold := by
  have hports : ((Node.fullReset pins free).startReady []).Blank 3 := by
    rw [Node.startReady, Node.takeBlank]
    exact (Node.Blank.startLink pins free).startPorts.of_eq rfl rfl rfl rfl rfl rfl
  have hwayside : ((Node.fullReset pins free).startReady []).isHead = false := by
    rw [Node.isHead, hports.svc.settings]
    rfl
  have hworks : ((Node.fullReset pins free).startReady []).startWorks =
      ((Node.fullReset pins free).startReady []).startWayside := by rw [Node.startWorks, hwayside]; rfl
  obtain ⟨e, he, hx⟩ := hports.startWayside.settle
  exact ⟨_, e, by rw [Node.start_eq, hworks, he], hports.startWayside, Node.startWayside_started _, hx⟩

/-- Settles O9: a blank store changes no item, so the start ends with the sending of its own notice. -/
theorem startOnBlankStore : Obligations.StartOnBlankStore := by
  intro s hheld hstore hwriting
  have hblank : s.storeAfterReset = [] := (State.storeAfterReset_idle hwriting).trans hstore
  have hruns := State.start_runs (s := s) (.inl hheld)
  obtain ⟨n, e, hstart, hn, hstarted, hx⟩ := Node.start_blank s.node.pins
    (s.node.svc.free + if s.node.writing.isSome then 1 else 0)
  obtain ⟨hcode, hdetails, hreceived⟩ : e.code = .start ∧ e.details = blankStartTold.2.1 ∧ e.received = false := by
    simpa [blankStartTold] using hx
  have hset : n.svc.settings = .default := hn.svc.settings
  rw [hblank] at hruns
  have hnode : s.fullReset.node.start [] = n.takeNotice e := hstart
  rw [hnode] at hruns
  refine ⟨_, e, hruns, hset, ?_, ?_, hn.takeNotice_sending hreceived, hcode, hdetails, hstarted, hn.restartDue, hblank⟩
  · show decide (n.svc.settings.role = .headEnd) = false
    rw [hset]
    rfl
  · show n.svc.settings.station = 999
    rw [hset]
    rfl

end Sys2Proof.Machine


/-! SUPPORT. What an event or a message leaves of a started node, and with it forwards (R47, R48, R49), the maintenance hold
(R187, R188) and the reply to RELEASE (R90), with the statements about them. -/

namespace Sys2Proof.Machine

/-! ## Events, messages and ended commands -/

section
variable {s : State} {f : Node → Node}

theorem State.act_onEvent (h : s.node.phase = .started) :
    s.act (Node.onEvent f) = .next (s.settled (f s.node)) := by
  rw [State.act, Node.onEvent, if_pos h, State.settled]

theorem State.act_onRole {b : Bool} (h : s.node.phase = .started) (hb : s.node.isHead = b) :
    s.act (Node.onRole b f) = .next (s.settled (f s.node)) := by
  rw [State.act, Node.onRole, if_pos ⟨h, hb⟩, State.settled]

/-- R30: a message that reaches a taker of its role waits no more. -/
theorem State.act_onMessage {b : Bool} (h : s.node.phase = .started) (hb : s.node.isHead = b) (src : Option Nat)
    (p : Payload) :
    s.act (Node.onMessage b src p f) = .next (s.settled (f (s.node.handOver (isMessage src p)))) := by
  rw [State.act, Node.onMessage, if_neg (by simp [h]), if_pos hb, State.settled]

end

/-- R186: a command that comes on channel C of a wayside. -/
theorem State.command_centre {s : State} (h : s.node.phase = .started) (hw : s.node.isHead = false) (fwd : Nat)
    (c : Command) :
    s.command (.centre fwd) c = .next (s.settled (s.node.takeCommand s.store (.centre fwd) (.command c))) :=
  State.command_reaches ⟨h, fun _ => hw⟩

/-! ## Forwards at the head-end (R47, R49) -/

theorem exec_forward {s : State} (h : s.node.phase = .started) (tag st : Nat) (p : Parsed) :
    exec (.forward tag st p) s = .next (s.settled (s.node.forward tag st p)) := State.act_onEvent h

section
variable {n : Node} {tag st : Nat} {p : Parsed}

theorem Node.forward_busy (h : n.cmd.chanL ≠ none) : n.forward tag st p = n.replyTo (.link tag) p .busy .nil := by
  have hpre : n.preCheck (.link tag) p = some .busy := if_pos (Option.isSome_iff_ne_none.2 h)
  simp only [Node.forward, hpre]

theorem Node.forward_unknown (h : n.cmd.chanL = none) :
    n.forward tag st .unknown = n.replyTo (.link tag) .unknown .unknownCommand .nil := by
  have hpre : n.preCheck (.link tag) .unknown = some .unknownCommand := if_neg (by simp [Cmd.channel, h])
  simp only [Node.forward, hpre]

/-- R186 steps 1 and 2: a command that can be forwarded. -/
theorem Node.preCheck_known (h : n.cmd.chanL = none) (hp : p ≠ .unknown) : n.preCheck (.link tag) p = none := by
  unfold Node.preCheck
  rw [if_neg (by simp [Cmd.channel, h])]
  cases p <;> first | rfl | exact absurd rfl hp

theorem Node.forward_wayside (h : n.cmd.chanL = none) (hp : p ≠ .unknown) (hh : n.isHead = false) :
    n.forward tag st p = n.replyTo (.link tag) p .wrongRole .nil := by
  simp only [Node.forward, Node.preCheck_known h hp, hh, Bool.false_eq_true, if_false]

theorem Node.forward_refused (h : n.cmd.chanL = none) (hp : p ≠ .unknown) (hh : n.isHead = true) {r : Status}
    (hr : n.forwardRefusal st = some r) : n.forward tag st p = n.replyTo (.link tag) p r .nil := by
  simp only [Node.forward, Node.preCheck_known h hp, hh, if_true, hr]

theorem Node.forward_made (h : n.cmd.chanL = none) (hp : p ≠ .unknown) (hh : n.isHead = true)
    (hr : n.forwardRefusal st = none) : n.forward tag st p = n.makeForward tag st p := by
  simp only [Node.forward, Node.preCheck_known h hp, hh, if_true, hr]

theorem Node.forwardRefusal_busy (h : 4 ≤ n.cmd.forwards.length) : n.forwardRefusal st = some .busy := if_pos h

/-- R47: with a free place the map entry of the station decides. -/
theorem Node.forwardRefusal_free (h : n.cmd.forwards.length < 4) :
    n.forwardRefusal st = match (n.head.entry st).map MapEntry.presence with
      | none => some .notFound
      | some .unreachable => some .notFound
      | some .duplicate => some .duplicate
      | some .present => none := by
  rw [Node.forwardRefusal, if_neg (by omega)]
  cases n.head.entry st with
  | none => rfl
  | some e => cases he : e.presence <;> simp [he]

end

/-- R47: the number that the next forward takes. -/
def Cmd.nextForward (c : Cmd) : Nat := nextNumber 255 (c.forwards.map (·.number)) 4 c.lastForward

theorem Cmd.nextForward_range (c : Cmd) : 1 ≤ c.nextForward ∧ c.nextForward ≤ 255 := nextNumber_range _ _ _ (by decide)

theorem Cmd.nextForward_fresh {c : Cmd} (h : c.forwards.length < 4) : ∀ e ∈ c.forwards, e.number ≠ c.nextForward := by
  intro e he hk
  refine nextNumber_fresh (max := 255) (used := c.forwards.map (·.number)) (fuel := 4) c.lastForward (by decide)
    (by simpa using h.le) ?_
  exact List.mem_map.2 ⟨e, he, hk⟩

/-- R47: the numbers passed over are those in use. -/
theorem Cmd.nextForward_counts_on (c : Cmd) :
    let after (k : Nat) : Nat := if k < 255 then k + 1 else 1
    ∃ i ≤ 4, c.nextForward = Nat.repeat after (i + 1) c.lastForward ∧
      ∀ j, j < i → ∃ e ∈ c.forwards, e.number = Nat.repeat after (j + 1) c.lastForward := by
  obtain ⟨i, hi, hk, hused⟩ := nextNumber_counts_on 255 (c.forwards.map (·.number)) 4 c.lastForward
  exact ⟨i, hi, hk, fun j hj => List.mem_map.1 (hused j hj)⟩

/-- Settles O23: the channel, the role and the map entry of the station decide in this order. -/
theorem forwardIsTaken : Obligations.ForwardIsTaken := by
  intro tag st p s h
  rw [exec_forward h]
  refine ⟨fun hb => by rw [Node.forward_busy hb], fun hf hp => by rw [hp, Node.forward_unknown hf], fun hf hp =>
    ⟨fun hw => by rw [Node.forward_wayside hf hp hw],
      fun hh hfull => by rw [Node.forward_refused hf hp hh (Node.forwardRefusal_busy hfull)],
      fun hh hroom => ⟨fun hx => ?notFound, fun hx => ?duplicate, fun hx => ?present⟩⟩⟩
  case notFound =>
    rw [Node.forward_refused hf hp hh (r := .notFound)]
    rw [Node.forwardRefusal_free hroom]
    rcases hx with hx | hx <;> simp [hx]
  case duplicate =>
    rw [Node.forward_refused hf hp hh (r := .duplicate)]
    rw [Node.forwardRefusal_free hroom, hx]
  case present =>
    rw [Node.forward_made hf hp hh (by rw [Node.forwardRefusal_free hroom, hx])]
    exact ⟨s.node.cmd.nextForward, _, s.node.cmd.nextForward_range.1, s.node.cmd.nextForward_range.2,
      Cmd.nextForward_fresh hroom, (messageSlots_bounds _).1, (messageSlots_bounds _).2,
      s.node.cmd.nextForward_counts_on, rfl⟩

/-! ## Enclosed commands and the ends of forwards (R48, R49) -/

theorem exec_commandFwd {s : State} (h : s.node.phase = .started) (hw : s.node.isHead = false) (src fwd : Nat)
    (p : Parsed) :
    exec (.commandFwd src fwd p) s = .next (s.settled
      ((s.node.handOver (isMessage (some src) (.commandFwd fwd p))).takeCommand s.store (.centre fwd) p)) :=
  State.act_onMessage h hw _ _

/-- R48: an enclosed command acts as it does when it comes on channel C. -/
theorem exec_commandFwd_command {s : State} (h : s.node.phase = .started) (hw : s.node.isHead = false) (src fwd : Nat)
    (c : Command) :
    exec (.commandFwd src fwd (.command c)) s = State.command
      { s with node := s.node.handOver (isMessage (some src) (.commandFwd fwd (.command c))) } (.centre fwd) c := by
  rw [exec_commandFwd h hw]
  exact (State.command_centre (s := { s with node := s.node.handOver _ }) h hw fwd c).symm

section
variable {n : Node} {fwd : Nat} {m : Memory}

theorem Node.takeCommand_busy {p : Parsed} (h : n.cmd.chanC ≠ none) :
    n.takeCommand m (.centre fwd) p = n.replyTo (.centre fwd) p .busy .nil := by
  have hpre : n.preCheck (.centre fwd) p = some .busy := if_pos (Option.isSome_iff_ne_none.2 h)
  simp only [Node.takeCommand, hpre]

theorem Node.takeCommand_unknown (h : n.cmd.chanC = none) :
    n.takeCommand m (.centre fwd) .unknown = n.replyTo (.centre fwd) .unknown .unknownCommand .nil := by
  have hpre : n.preCheck (.centre fwd) .unknown = some .unknownCommand := if_neg (by simp [Cmd.channel, h])
  simp only [Node.takeCommand, hpre]

theorem Node.takeCommand_garbled (h : n.cmd.chanC = none) (c : Command) :
    n.takeCommand m (.centre fwd) (.garbled c) =
      n.replyTo (.centre fwd) (.garbled c) ((n.refusal (.centre fwd) c).getD .badArgument) .nil := by
  have hpre : n.preCheck (.centre fwd) (.garbled c) = none := if_neg (by simp [Cmd.channel, h])
  simp only [Node.takeCommand, hpre]

end

/-- R20: TIME-READ is taken on every channel, in every state of the hold. -/
theorem takes_timeRead {s : State} {o : Origin} (h : Reaches s o) (hf : s.node.cmd.channel o = none) :
    Takes s o .timeRead where
  reaches := h
  free := hf
  role := fun _ hr => nomatch hr
  channel := by cases o <;> rfl
  notHeld := fun _ _ => rfl
  inHold := fun hn => nomatch hn

theorem State.command_timeRead {s : State} {o : Origin} (h : Takes s o .timeRead) :
    s.command o .timeRead = .next (s.replied s.node o .timeRead .done (.time s.node.svc.time)) :=
  State.command_replied h s.node _ _ h.free rfl

/-- Settles O24: both rows come to `Node.takeCommand` on channel C. -/
theorem commandFwdActsOnChannelC : Obligations.CommandFwdActsOnChannelC := by
  intro src fwd s h hw
  refine ⟨fun i c hi => ?_, fun hc => ?_⟩
  · rw [exec_commandFwd_command h hw, exec_of_rowCommand hi]
  · rw [exec_commandFwd h hw, Node.takeCommand_unknown (by exact hc)]

theorem exec_replyFwd {s : State} (h : s.node.phase = .started) (hh : s.node.isHead = true) (src fwd : Nat) (st : Status)
    (v : Value) :
    exec (.replyFwd src fwd st v) s = .next (s.settled
      ((s.node.handOver (isMessage (some src) (.replyFwd fwd st v))).takeReplyFwd src fwd st v)) :=
  State.act_onMessage h hh _ _

theorem Node.takeReplyFwd_found {n : Node} {src fwd : Nat} (st : Status) (v : Value) {e : Forward}
    (h : n.cmd.forwards.find? (fun e => e.number = fwd && e.station = src) = some e) :
    n.takeReplyFwd src fwd st v = (n.onCmd fun c =>
      { c with forwards := c.forwards.filter fun f => f.number ≠ fwd }).pushReply
        { tag := e.tag, station := src, cmd := e.cmd, status := st, result := v, restart := false } := by
  obtain ⟨rfl, rfl⟩ : e.number = fwd ∧ e.station = src := by simpa using List.find?_some h
  simp only [Node.takeReplyFwd, h, Node.endForward]

theorem Node.takeReplyFwd_none {n : Node} {src fwd : Nat} (st : Status) (v : Value)
    (h : n.cmd.forwards.find? (fun e => e.number = fwd && e.station = src) = none) :
    n.takeReplyFwd src fwd st v = { n with win := { n.win with undelivered := bump 65535 n.win.undelivered } } := by
  simp only [Node.takeReplyFwd, h, Config.wordMax]

theorem exec_forwardTimeout {s : State} (h : s.node.phase = .started) (hh : s.node.isHead = true) (fwd : Nat) :
    exec (.forwardTimeout fwd) s = .next (s.settled (s.node.forwardTimeout fwd)) := State.act_onRole h hh

section
variable {n : Node} {fwd : Nat}

theorem Node.forwardTimeout_none (h : n.cmd.forwards.find? (fun e => e.number = fwd) = none) :
    n.forwardTimeout fwd = n := by
  simp only [Node.forwardTimeout, h]

theorem Node.forwardTimeout_early {e : Forward} (h : n.cmd.forwards.find? (fun e => e.number = fwd) = some e)
    (ht : n.svc.now - e.start < n.set.forwardTimeout * 4) : n.forwardTimeout fwd = n := by
  rw [Node.forwardTimeout, h]
  exact if_neg (Nat.not_le.2 ht)

/-- R49: at its timeout a forward's message is withdrawn, unsent or refused, and its reply is TIMEOUT. -/
theorem Node.forwardTimeout_due {e : Forward} (h : n.cmd.forwards.find? (fun e => e.number = fwd) = some e)
    (ht : n.set.forwardTimeout * 4 ≤ n.svc.now - e.start) :
    n.forwardTimeout fwd = Node.pushReply
      { n with
        svc := n.svc.withdrawNormal (isForwardOf fwd)
        cmd := { n.cmd with forwards := n.cmd.forwards.filter fun f => f.number ≠ fwd
                            refused := n.cmd.refused.filter fun m => !isForwardOf fwd m } }
      { tag := e.tag, station := e.station, cmd := e.cmd, status := .timeout, result := .nil, restart := false } := by
  obtain rfl : e.number = fwd := by simpa using List.find?_some h
  rw [Node.forwardTimeout, h]
  exact if_pos ht

end

/-- Settles O25: each message by what channel C or the table of forwards holds. -/
theorem forwardsEnd : Obligations.ForwardsEnd := by
  refine ⟨fun src fwd s h hw => ⟨fun p hb => ?busy, fun hf => ⟨?unknown, fun c => ?garbled, ?timeRead⟩,
      fun i c hi => ?command⟩,
    fun fwd src st v s h hh => ⟨fun e he => ?found, fun he => ?notFound⟩,
    fun fwd s h hh => ⟨fun e he ht => ?due, fun e he ht => ?early, fun he => ?noEntry⟩⟩
  case busy => rw [exec_commandFwd h hw, Node.takeCommand_busy (by exact hb)]
  case unknown => rw [exec_commandFwd h hw, Node.takeCommand_unknown (by exact hf)]
  case garbled =>
    rw [exec_commandFwd h hw, Node.takeCommand_garbled (by exact hf)]
    rfl
  case timeRead =>
    rw [exec_commandFwd_command h hw]
    exact State.command_timeRead (takes_timeRead ⟨h, fun _ => hw⟩ hf)
  case command =>
    refine ⟨_, exec_commandFwd h hw src fwd (.command c), ?_⟩
    rw [← exec_commandFwd h hw, exec_commandFwd_command h hw, exec_of_rowCommand hi]
  case found => rw [exec_replyFwd h hh, Node.takeReplyFwd_found st v (by exact he)]
  case notFound => rw [exec_replyFwd h hh, Node.takeReplyFwd_none st v (by exact he)]
  case due =>
    obtain ⟨hn, he', hp, hs, hw, hq⟩ := s.node.svc.withdrawNormal_spec (isForwardOf fwd)
    exact ⟨_, hn, he', hp, hs, hw, hq, by rw [exec_forwardTimeout h hh, Node.forwardTimeout_due he ht]; rfl⟩
  case early => rw [exec_forwardTimeout h hh, Node.forwardTimeout_early he ht]
  case noEntry => rw [exec_forwardTimeout h hh, Node.forwardTimeout_none he]

end Sys2Proof.Machine


/-! SUPPORT. The maintenance hold (R187, R188) and the cabinet inputs (R119), with the statements about them. -/

namespace Sys2Proof.Machine

/-! ## The maintenance hold -/

/-- R187: the node with its hold set, or ended, and its lapse timer. -/
def Node.withHold (n : Node) (held : Bool) (lapse : Option Nat) : Node :=
  { n with cmd := { n.cmd with held := held, lapse := lapse } }

/-- R187: the hold that already stands, with its lapse timer restarted. -/
theorem Node.restartLapse_held {n : Node} (h : n.cmd.held = true) : n.restartLapse = n.withHold true n.lapseFromNow := by
  rw [Node.restartLapse, if_pos h, Node.withHold, ← h]
  rfl

theorem Node.maintHold_eq (n : Node) :
    n.maintHold = (if n.cmd.held then n.withHold true n.lapseFromNow
      else (n.withHold true n.lapseFromNow).post .holdState .none [.hold true, .byCommand], .done, .nil) := by
  unfold Node.maintHold
  split
  · next h => rw [Node.restartLapse_held h]
  · rfl

theorem Node.maintEnd_eq (n : Node) :
    n.maintEnd = (if n.cmd.held then (n.withHold false none).post .holdState .none [.hold false, .byCommand] else n,
      .done, .nil) := by
  unfold Node.maintEnd
  split <;> rfl

/-- The hold and the command channels are apart. -/
theorem Node.withHold_setChannel (n : Node) (o : Origin) (p : Option InProgress) (b : Bool) (x : Option Nat) :
    (n.onCmd fun k => k.setChannel o p).withHold b x = (n.withHold b x).onCmd fun k => k.setChannel o p := by
  cases o <;> rfl

theorem Cmd.setChannel_held (k : Cmd) (o : Origin) (p : Option InProgress) : (k.setChannel o p).held = k.held := by
  cases o <;> rfl

theorem Node.withHold_channel (n : Node) (o : Origin) (b : Bool) (x : Option Nat) :
    (n.withHold b x).cmd.channel o = n.cmd.channel o := by
  cases o <;> rfl

theorem Node.onCmd_ite (c : Prop) [Decidable c] (a b : Node) (f : Cmd → Cmd) :
    (if c then a.onCmd f else b.onCmd f) = (if c then a else b).onCmd f := by
  split <;> rfl

/-- R187: MAINT-HOLD. -/
theorem exec_maintHold {s : State} {o : Origin} (h : Takes s o .maintHold) :
    exec (.maintHold o) s = .next (s.replied s.node.maintHold.1 o .maintHold .done .nil) := by
  refine State.command_replied h _ _ _ ?_ ?_
  · rw [Node.maintHold_eq]
    dsimp only
    split
    · exact (Node.withHold_channel ..).trans h.free
    · exact (Node.withHold_channel ..).trans h.free
  · show atOnce (Node.maintHold _) = _
    have hlapse (m : Node) (f : Cmd → Cmd) : (m.onCmd f).lapseFromNow = m.lapseFromNow := rfl
    rw [Node.maintHold_eq, Node.maintHold_eq, Node.onCmd_cmd, Cmd.setChannel_held, hlapse, Node.withHold_setChannel,
      Node.onCmd_post, Node.onCmd_ite]
    rfl

/-- R187: MAINT-END. -/
theorem exec_maintEnd {s : State} {o : Origin} (h : Takes s o .maintEnd) :
    exec (.maintEnd o) s = .next (s.replied s.node.maintEnd.1 o .maintEnd .done .nil) := by
  refine State.command_replied h _ _ _ ?_ ?_
  · rw [Node.maintEnd_eq]
    dsimp only
    split
    · exact (Node.withHold_channel ..).trans h.free
    · exact h.free
  · show atOnce (Node.maintEnd _) = _
    rw [Node.maintEnd_eq, Node.maintEnd_eq, Node.onCmd_cmd, Cmd.setChannel_held, Node.withHold_setChannel,
      Node.onCmd_post, Node.onCmd_ite]
    rfl

/-- R188: HOLD-RELEASE-ASK. -/
theorem exec_holdReleaseAsk {s : State} {o : Origin} (h : Takes s o .holdReleaseAsk) :
    exec (.holdReleaseAsk o) s = .next (s.replied s.node.holdReleaseAsk.1 o .holdReleaseAsk .done
      (.hold s.node.cmd.held)) := by
  refine State.command_replied h _ _ _ ?_ ?_
  · show (if s.node.cmd.held then _ else _ : Node).cmd.channel o = none
    split
    · exact h.free
    · exact h.free
  · show atOnce (Node.holdReleaseAsk _) = _
    unfold Node.holdReleaseAsk
    rw [Node.onCmd_cmd, Cmd.setChannel_held, Node.onCmd_post, Node.onCmd_ite]
    rfl

/-- Settles O58: the three commands and the expiry, each by whether the hold is HELD. -/
theorem maintenanceHoldBeginsAndEnds : Obligations.MaintenanceHoldBeginsAndEnds := by
  refine fun o s => ⟨fun h => ?_, fun h => ?_, fun hp hh hd => ?_, fun h => exec_holdReleaseAsk h⟩
  · rw [exec_maintHold h, Node.maintHold_eq]
    rfl
  · rw [exec_maintEnd h, Node.maintEnd_eq]
    rfl
  · have hlapses : s.node.holdLapses = (s.node.withHold false none).post .holdLapsed .none [] := by
      rw [Node.holdLapses, hh, hd]
      rfl
    have hrun : exec .holdLapseExpiry s = .next (s.settled s.node.holdLapses) := State.act_onEvent hp
    rw [hrun, hlapses]
    rfl

/-! ## Cabinet inputs (R119) -/

/-- R119: an input's record when the contact's active state is timed against it. -/
def Input.timed (now : Nat) (spec : InputSpec) (high : Bool) (r : Input) : Input :=
  if r.active = decide (high = spec.activeHigh) then { r with timing := none }
  else if r.timing.isSome then r else { r with timing := some (now + spec.debounce * 4) }

theorem Node.timeInput_eq {n : Node} {i : Nat} {spec : InputSpec} {high : Bool} (hs : nth n.set.inputs i = some spec)
    (hp : nth n.pins.inputHigh i = some high) : n.timeInput i = n.onInput i (Input.timed n.svc.now spec high) := by
  unfold Node.timeInput
  rw [hs, hp]
  dsimp only
  refine congrArg (n.onInput i) (funext fun r => ?_)
  rw [Input.timed]
  simp only [ms, Config.cyclesPerMs, eq_comm (a := r.active)]

theorem Node.inputSettled_due {n : Node} {i : Nat} {spec : InputSpec} {r : Input} (hs : nth n.set.inputs i = some spec)
    (hr : nth n.trib.inputs i = some r) (hd : due n.svc.now r.timing = true) :
    n.inputSettled i = if spec.notice then
        (n.onInput i fun r => { active := !r.active, timing := none }).post .inputChange (.input i) [.flag (!r.active)]
      else n.onInput i fun r => { active := !r.active, timing := none } := by
  simp only [Node.inputSettled, hs, hr, hd, if_true]

theorem exec_inputContactChange {s : State} (h : s.node.phase = .started) (hw : s.node.isHead = false) (i : Nat)
    (high : Bool) :
    exec (.inputContactChange i high) s = .next (s.settled ((s.node.setInput i high).timeInput i)) := by
  have hrole : (s.node.setInput i high).phase = .started ∧ (s.node.setInput i high).isHead = false := ⟨h, hw⟩
  show execInputContactChange i high s = _
  rw [execInputContactChange, State.act, Node.onRole, if_pos hrole, State.settled]

/-- R119: a contact's new level stands at its input. -/
theorem Node.setInput_same {n : Node} {i : Nat} {old : Bool} (h : nth n.pins.inputHigh i = some old) (high : Bool) :
    nth (n.setInput i high).pins.inputHigh i = some high := by
  show nth (put n.pins.inputHigh i high) i = some high
  rw [nth_put_same, h]
  rfl

theorem change_id {α : Type} (l : List α) (k : Nat) : change id l k = l := by
  induction l generalizing k with
  | nil => cases k <;> rfl
  | cons a l ih =>
    match k with
    | 0 => rfl
    | 1 => rfl
    | k + 2 => exact congrArg (a :: ·) (ih (k + 1))

theorem Node.onInput_id (n : Node) (i : Nat) : n.onInput i id = n := by
  simp only [Node.onInput, change_id]
  rfl

/-- R119: what looking at its contact does to an input's record, as the specifications `l` have it. -/
def Node.retimed (n : Node) (l : List InputSpec) (i : Nat) : Input → Input :=
  match nth l i, nth n.pins.inputHigh i with
  | some spec, some high => Input.timed n.svc.now spec high
  | _, _ => id

theorem Node.timeInput_retimed (n : Node) (i : Nat) : n.timeInput i = n.onInput i (n.retimed n.set.inputs i) := by
  cases hs : nth n.set.inputs i with
  | none =>
    have hid : n.retimed n.set.inputs i = id := by rw [Node.retimed, hs]
    rw [hid, Node.onInput_id, Node.timeInput, hs]
  | some spec =>
    cases hp : nth n.pins.inputHigh i with
    | none =>
      have hid : n.retimed n.set.inputs i = id := by rw [Node.retimed, hs, hp]
      rw [hid, Node.onInput_id, Node.timeInput, hs, hp]
    | some high => rw [Node.timeInput_eq hs hp, Node.retimed, hs, hp]

/-- The node with other specifications and records of its inputs. -/
def Node.withInputs (n : Node) (l : List InputSpec) (q : List Input) : Node :=
  (n.onSettings fun w => { w with inputs := l }).onTrib fun x => { x with inputs := q }

/-- R119: whether a new value turns an input's active level at a wayside that has begun its work. -/
def Node.turnsInput (n : Node) (l : List InputSpec) (i : Nat) : Bool :=
  decide ((nth n.set.inputs i).map InputSpec.activeHigh ≠ (nth l i).map InputSpec.activeHigh ∧ n.trib.started = true)

/-- R119: a new value of CABINET-INPUTS in range; the contacts whose active level it turns are looked at. -/
theorem Node.takeInputs_ok (n : Node) {l : List InputSpec} (h : l.all inputOk = true) :
    n.takeInputs l =
      (n.withInputs l (changeAll (n.turnsInput l) (n.retimed l) (places 4) n.trib.inputs), .done) := by
  rw [Node.takeInputs, if_pos h]
  refine congrArg (·, Status.done) (foldl_table (n.withInputs l) (fun q i => ?_) (places 4) n.trib.inputs)
  have hstarted : (n.withInputs l q).trib.started = n.trib.started := rfl
  rw [hstarted, Node.timeInput_retimed]
  by_cases hc : (nth n.set.inputs i).map InputSpec.activeHigh ≠ (nth l i).map InputSpec.activeHigh ∧
      n.trib.started = true
  · have hturns : n.turnsInput l i = true := decide_eq_true hc
    rw [if_pos hc, hturns]
    rfl
  · have hturns : n.turnsInput l i = false := decide_eq_false hc
    rw [if_neg hc, hturns]
    rfl

theorem Node.takeInputs_bad (n : Node) {l : List InputSpec} (h : ¬l.all inputOk = true) :
    n.takeInputs l = (n, .badArgument) := if_neg h

theorem inputs_inRange (l : List InputSpec) :
    l.all inputOk = true ↔ ∀ x ∈ l, 10 ≤ x.debounce ∧ x.debounce ≤ 2000 := by
  simp [inputOk]

theorem nodup_places (k : Nat) : (places k).Nodup :=
  List.Nodup.map (fun _ _ h => Nat.succ.inj h) List.nodup_range

/-- Settles O45: the contact and the debounce of one input, then a new value of the item, place by place. -/
theorem cabinetInputsAreTimed : Obligations.CabinetInputsAreTimed := by
  refine ⟨fun i spec r s h hw hs hr => ⟨fun high old hold => ?_, fun hd => ?_⟩, fun n l => ?_⟩
  · rw [exec_inputContactChange h hw, Node.timeInput_eq (n := s.node.setInput i high) hs (Node.setInput_same hold high)]
    rfl
  · have hrun : exec (.inputDebounceExpiry i) s = .next (s.settled (s.node.inputSettled i)) := State.act_onRole h hw
    rw [hrun, Node.inputSettled_due hs hr hd]
  · refine ⟨inputs_inRange l, fun hbad => n.takeInputs_bad fun hok => hbad ((inputs_inRange l).1 hok), fun hok =>
      ⟨_, n.takeInputs_ok ((inputs_inRange l).2 hok), fun i r hr => ⟨fun hturned => ?_, fun x high hturned hx hhigh => ?_⟩⟩⟩
    · rw [nth_changeAll _ _ _ _ _ (nodup_places 4), if_neg, hr]
      rintro ⟨hi, hturns⟩
      obtain ⟨hne, hstarted⟩ := of_decide_eq_true hturns
      exact hturned ⟨hstarted, (mem_places.1 hi).1, (mem_places.1 hi).2, hne⟩
    · obtain ⟨hstarted, hi, hi', hne⟩ := hturned
      have htimed : n.retimed l i = Input.timed n.svc.now x high := by rw [Node.retimed, hx, hhigh]
      rw [nth_changeAll _ _ _ _ _ (nodup_places 4), if_pos ⟨mem_places.2 ⟨hi, hi'⟩, decide_eq_true ⟨hne, hstarted⟩⟩, hr,
        htimed]
      rfl

end Sys2Proof.Machine


/-! SUPPORT. What the services' operations do to the invariants of the pool and of the notice queue (R122, R123, R176),
each for itself: `Svc.Upholds s t` says that `t` meets those that `s` meets. One lemma for each shared operation of the
services, of ZONE, TOLL and WX. -/

namespace Sys2Proof.Machine

/-- What stands of the invariants of the services, each for itself, and the voice cap, which only a write moves. -/
structure Svc.Upholds (s t : Svc) : Prop where
  sum : t.pool.total = s.pool.total
  safe : PoolSafe s.pool → PoolSafe t.pool
  notes : NotesOk s.note → NotesOk t.note
  cap : t.settings.voiceCap = s.settings.voiceCap

namespace Svc.Upholds

variable {a s t : Svc}

theorem refl (s : Svc) : Svc.Upholds s s := ⟨rfl, id, id, rfl⟩

theorem trans (h : Svc.Upholds a s) (k : Svc.Upholds s t) : Svc.Upholds a t :=
  ⟨k.sum.trans h.sum, k.safe ∘ h.safe, k.notes ∘ h.notes, k.cap.trans h.cap⟩

/-- The invariants speak of the pool and the notice queue alone. -/
theorem of_eq (h : Svc.Upholds a s) (hp : t.pool = s.pool) (hq : t.note.queue = s.note.queue)
    (hc : t.settings.voiceCap = s.settings.voiceCap) : Svc.Upholds a t :=
  ⟨by rw [hp]; exact h.sum, by rw [hp]; exact h.safe, fun k => (h.notes k).of_queue hq, hc.trans h.cap⟩

theorem withPool (h : Svc.Upholds a s) {p : Pool} (hs : p.total = s.pool.total) (hp : PoolSafe s.pool → PoolSafe p) :
    Svc.Upholds a { s with pool := p } :=
  ⟨hs.trans h.sum, hp ∘ h.safe, h.notes, h.cap⟩

theorem withNote (h : Svc.Upholds a s) {n : Note} (hn : NotesOk s.note → NotesOk n) :
    Svc.Upholds a { s with note := n } :=
  ⟨h.sum, h.safe, hn ∘ h.notes, h.cap⟩

theorem withWx (h : Svc.Upholds a s) (w : Wx) : Svc.Upholds a { s with wx := w } := ⟨h.sum, h.safe, h.notes, h.cap⟩

/-- A branch that is taken on either side of a condition. -/
theorem ite {c : Prop} [Decidable c] (h : Svc.Upholds a s) (k : Svc.Upholds a t) :
    Svc.Upholds a (if c then s else t) := by
  split
  · exact h
  · exact k

theorem fst_ite {α : Type} {c : Prop} [Decidable c] {x y : Svc × α} (h : Svc.Upholds a x.1) (k : Svc.Upholds a y.1) :
    Svc.Upholds a (if c then x else y).1 := by
  split
  · exact h
  · exact k

theorem foldl {α β : Type} {f : β → α → β} {g : β → Svc} (hf : ∀ y x, Svc.Upholds a (g y) → Svc.Upholds a (g (f y x)))
    (l : List α) {y : β} (h : Svc.Upholds a (g y)) : Svc.Upholds a (g (l.foldl f y)) := by
  induction l generalizing y with
  | nil => exact h
  | cons x l ih => exact ih (hf y x h)

/-! ## Requests and frees (R123, R126) -/

theorem reportFreeing (h : Svc.Upholds a s) : Svc.Upholds a s.reportFreeing := 
  ⟨h.sum, h.safe, h.notes, h.cap⟩

theorem freeBuffers (h : Svc.Upholds a s) (c : PoolClass) (n : Nat) : Svc.Upholds a (s.freeBuffers c n) := by
  have k := h.withPool (Pool.total_release s.pool c n) fun hs => hs.release c n
  unfold Svc.freeBuffers
  split
  · exact h
  · dsimp only
    split
    · exact k.reportFreeing
    · exact k

theorem refuseBuffers (h : Svc.Upholds a s) (c : PoolClass) (r : PoolReason) : Svc.Upholds a (s.refuseBuffers c r) := by
  unfold Svc.refuseBuffers
  refine h.withPool ?_ fun hs => ?_
  · split <;> simp
  · have k := hs.refuse c r
    split
    · exact k
    · exact k

theorem evictOldest (h : Svc.Upholds a s) {b : Bool} {k : Nat} (e : s.evictOldest b = some (t, k)) :
    Svc.Upholds a t := by
  unfold Svc.evictOldest at e
  split at e
  · cases e
  · simp only [Option.some.injEq, Prod.mk.injEq] at e
    obtain ⟨rfl, _⟩ := e
    exact (h.withWx _).freeBuffers ..

theorem grant (h : Svc.Upholds a s) {c : PoolClass} {n : Nat} (d : s.pool.decide c n = none) :
    Svc.Upholds a { s with pool := s.pool.grant c n } :=
  h.withPool (Pool.total_grant (Pool.free_of_decide d)) fun hs => hs.grant d

theorem requestLoop (c : PoolClass) (n fuel : Nat) {s : Svc} (h : Svc.Upholds a s) :
    Svc.Upholds a (Svc.requestLoop c n fuel s).1 := by
  induction fuel generalizing s with
  | zero =>
    unfold Svc.requestLoop
    split
    · next d => exact h.grant d
    · exact h.refuseBuffers ..
  | succ fuel ih =>
    unfold Svc.requestLoop
    split
    · next d => exact h.grant d
    · split
      · exact h.refuseBuffers ..
      · split
        · exact h.refuseBuffers ..
        · next e => exact ih ((h.evictOldest e).withPool (Pool.total_countEviction ..) fun hs => hs.countEviction ..)

theorem requestBuffers (h : Svc.Upholds a s) (c : PoolClass) (n : Nat) : Svc.Upholds a (s.requestBuffers c n).1 :=
  h.requestLoop ..

theorem of_request (h : Svc.Upholds a s) {c : PoolClass} {n : Nat} {r : Option PoolReason}
    (e : s.requestBuffers c n = (t, r)) : Svc.Upholds a t := by
  have k := h.requestBuffers c n
  rwa [e] at k

/-! ## Offers (R31, R32) -/

theorem offerEmergency (h : Svc.Upholds a s) (m : Message) : Svc.Upholds a (s.offerEmergency m).1 := by
  unfold Svc.offerEmergency
  split
  · split
    · next e => exact (h.of_request e).of_eq rfl rfl rfl
    · next e => exact h.of_request e
  · exact h

theorem offerNormal (h : Svc.Upholds a s) (m : Message) : Svc.Upholds a (s.offerNormal m).1 := by
  unfold Svc.offerNormal
  split
  · split
    · next e => exact (h.of_request e).of_eq rfl rfl rfl
    · next e => exact h.of_request e
  · exact h

theorem offerPlaceholder (h : Svc.Upholds a s) (k : CollKind) (b : Nat) :
    Svc.Upholds a (s.offerPlaceholder k b).1 := by
  unfold Svc.offerPlaceholder
  split
  · exact h.of_eq rfl rfl rfl
  · exact h

/-- A message that leaves a queue gives its buffers back. -/
theorem withQueues (h : Svc.Upholds a s) (q : Queues) (b : Bool) :
    Svc.Upholds a { s with queues := q, freed := b } := h.of_eq rfl rfl rfl

theorem leave (h : Svc.Upholds a s) (b : BegunSrc) : Svc.Upholds a (s.leave b) := by
  unfold Svc.leave
  split
  · split
    · exact (h.withQueues _ _).freeBuffers ..
    · exact h
  · split
    · exact (h.withQueues _ _).freeBuffers ..
    · exact h
  · exact h
  · exact h

theorem withdrawEmergency (h : Svc.Upholds a s) (p : Message → Bool) : Svc.Upholds a (s.withdrawEmergency p) := by
  unfold Svc.withdrawEmergency
  dsimp only
  split
  · exact h
  · exact (h.withQueues _ _).freeBuffers ..

theorem withdrawNormal (h : Svc.Upholds a s) (p : Message → Bool) : Svc.Upholds a (s.withdrawNormal p) := by
  unfold Svc.withdrawNormal
  dsimp only
  split
  · exact h
  · exact (h.withQueues _ _).freeBuffers ..

theorem dropEntry (h : Svc.Upholds a s) (p : NEntry → Bool) : Svc.Upholds a (s.dropEntry p) := by
  unfold Svc.dropEntry
  split
  · exact h.withQueues _ _
  · exact h

theorem markLeaving (h : Svc.Upholds a s) (id : Nat) : Svc.Upholds a (s.markLeaving id) := h.of_eq rfl rfl rfl

/-! ## Notices (R176) -/

theorem lookCentre (fuel : Nat) {s : Svc} (h : Svc.Upholds a s) : Svc.Upholds a (Svc.lookCentre fuel s) := by
  induction fuel generalizing s with
  | zero => exact h
  | succ fuel ih =>
    unfold Svc.lookCentre
    dsimp only
    split
    · exact h
    · have k := h.offerNormal
        { source := s.settings.station, dest := Config.headEndNumber,
          length := messageSlots (.noticeFwd ((s.note.queue.filter (·.toCentre)).take 4)),
          payload := .noticeFwd ((s.note.queue.filter (·.toCentre)).take 4) }
      split
      · next e =>
        rw [e] at k
        exact ih (k.withNote fun hn => hn.centred (by rw [Note.setAttention_queue]))
      · next e =>
        rw [e] at k
        exact k

theorem post (h : Svc.Upholds a s) (c : NoticeCode) (b : Subject) (d : List Value) : Svc.Upholds a (s.post c b d) := by
  unfold Svc.post
  dsimp only
  split
  · exact h
  · next hc =>
    have w := h.withNote fun hn => hn.append (Bool.of_not_eq_false fun e => hc (.inr e))
    split
    · exact w.lookCentre 2
    · exact w

theorem readFromL (h : Svc.Upholds a s) (k : Nat) : Svc.Upholds a (s.readFromL k) := by
  unfold Svc.readFromL
  dsimp only
  refine h.withNote fun hn => hn.served (k := k) ?_
  rw [Note.setAttention_queue]
  split <;> rfl

/-! ## Segments (R149, R150, R151, R155) -/

theorem closeSegment (h : Svc.Upholds a s) (g : Segment) (c : CloseCause) : Svc.Upholds a (s.closeSegment g c) :=
  (h.withWx _).post ..

theorem closeNumbered (h : Svc.Upholds a s) (k : Nat) (c : CloseCause) : Svc.Upholds a (s.closeNumbered k c) := by
  unfold Svc.closeNumbered
  split
  · exact h
  · exact h.closeSegment ..

theorem closeOpen (h : Svc.Upholds a s) (d : Nat) (c : CloseCause) : Svc.Upholds a (s.closeOpen d c) := by
  unfold Svc.closeOpen
  split
  · exact h
  · exact h.closeSegment ..

theorem loseSample (h : Svc.Upholds a s) (d : Nat) (r : LossReason) : Svc.Upholds a (s.loseSample d r) := by
  unfold Svc.loseSample
  extract_lets t₁ w t₂ t₃
  have k : Svc.Upholds a t₃ := (h.closeOpen d .early).of_eq (by rfl) (by rfl) (by rfl)
  exact .ite k ((k.withWx _).post ..)

theorem weatherBuffer (fuel : Nat) {s : Svc} (h : Svc.Upholds a s) : Svc.Upholds a (Svc.weatherBuffer fuel s).1 := by
  induction fuel generalizing s with
  | zero => exact h.requestBuffers ..
  | succ fuel ih =>
    unfold Svc.weatherBuffer
    split
    · next e => exact h.of_request e
    · next e =>
      have k := h.of_request e
      split
      · exact k
      · next e' => exact ih (k.evictOldest e')

theorem fileSample (h : Svc.Upholds a s) (r : Sample) : Svc.Upholds a (s.fileSample r) := by
  unfold Svc.fileSample
  extract_lets t
  have k : Svc.Upholds a t := .ite h (h.withWx _)
  split
  · exact k
  · dsimp only
    exact .ite (Svc.Upholds.closeSegment (k.of_eq (by rfl) (by rfl) (by rfl)) ..) (k.of_eq (by rfl) (by rfl) (by rfl))

theorem storeSample (h : Svc.Upholds a s) (r : Sample) : Svc.Upholds a (s.storeSample r) := by
  unfold Svc.storeSample
  extract_lets t room
  have k : Svc.Upholds a t := by
    unfold t
    split
    · split
      · exact h.closeSegment ..
      · exact h
    · exact h
  have k2 : Svc.Upholds a room.1 := by
    unfold room
    split
    · split
      · exact k
      · next e => exact k.evictOldest e
    · exact k
  split
  · have k3 := Svc.Upholds.weatherBuffer room.1.wx.segments.length k2
    split
    · next e =>
      rw [e] at k3
      exact k3.fileSample r
    · next e =>
      rw [e] at k3
      exact k3.loseSample ..
  · exact k2.loseSample ..

theorem takeSegmentLength (h : Svc.Upholds a s) (n : Nat) : Svc.Upholds a (s.takeSegmentLength n) :=
  Svc.Upholds.foldl (g := id) (fun _ k hy => hy.closeNumbered k .length) _ (h.of_eq rfl rfl rfl)

theorem ackSegment (h : Svc.Upholds a s) (n : Nat) : Svc.Upholds a (s.ackSegment n).1 := by
  unfold Svc.ackSegment
  split
  · exact h.withWx _
  · exact ((h.withWx _).withWx _).freeBuffers ..

theorem ackSegments (h : Svc.Upholds a s) (l : List Nat) : Svc.Upholds a (s.ackSegments l).1 :=
  Svc.Upholds.foldl (g := Prod.fst) (f := fun (x : Svc × List Nat) n => ((x.1.ackSegment n).1, x.2 ++ (x.1.ackSegment n).2)) (y := (s, []))
    (fun _ k hy => hy.ackSegment k) l h

/-- R127: bounds that passed their checks. -/
theorem takeBounds (h : Svc.Upholds a s) {l : List ClassBounds} (ok : checkBounds s.pool l = .done) :
    Svc.Upholds a (s.takeBounds l) := by
  have total (p : Pool) : (l.foldl Pool.withBounds p).total = p.total := by
    clear ok
    induction l generalizing p with
    | nil => rfl
    | cons b l ih => rw [List.foldl_cons, ih, Pool.total_withBounds]
  have k := h.withPool (total s.pool) fun _ => PoolSafe.withBounds ok
  unfold Svc.takeBounds
  dsimp only
  split
  · exact k.reportFreeing
  · exact k

/-! ## ZONE (04) -/

theorem workOutSign (d : Nat) {x : ZoneSt} (h : Svc.Upholds a x.1) : Svc.Upholds a (workOutSign d x).1 := by
  unfold Machine.workOutSign
  split
  · exact h
  · dsimp only
    split
    · exact h
    · exact h.post ..

theorem handZone (k : Nat) {x : ZoneSt} (h : Svc.Upholds a x.1) : Svc.Upholds a (handZone k x).1 :=
  Svc.Upholds.foldl (g := Prod.fst) (f := fun y b => workOutBeacon b y) (fun _ _ hy => hy) _
    (Svc.Upholds.foldl (g := Prod.fst) (fun _ d hy => hy.workOutSign d) _ h)

theorem addCause (k : Nat) (c : Cause) {x : ZoneSt} (h : Svc.Upholds a x.1) : Svc.Upholds a (addCause k c x).1 := by
  unfold Machine.addCause
  split
  · exact h
  · split
    · exact h
    · dsimp only
      split
      · exact handZone k (h.post ..)
      · exact h

theorem removeCause (k : Nat) (c : Cause) {x : ZoneSt} (h : Svc.Upholds a x.1) :
    Svc.Upholds a (removeCause k c x).1 := by
  unfold Machine.removeCause
  split
  · exact h
  · split
    · dsimp only
      split
      · exact handZone k (h.post ..)
      · exact h
    · exact h

theorem giveUpPage (d : Nat) (p : PageSrc) {x : ZoneSt} (h : Svc.Upholds a x.1) :
    Svc.Upholds a (giveUpPage d p x).1 := by
  have k : Svc.Upholds a (x.1.freeBuffers .sign 1) := h.freeBuffers ..
  unfold Machine.giveUpPage
  split
  · exact .fst_ite h k
  · exact k

theorem showPage (d : Nat) (p : Page) {x : ZoneSt} (h : Svc.Upholds a x.1) : Svc.Upholds a (showPage d p x).1 :=
  workOutSign d (x := (_, _)) (.fst_ite (h.giveUpPage d .normal) h)

theorem setStaged (d : Nat) (p : Option (Page × Nat)) {x : ZoneSt} (h : Svc.Upholds a x.1) :
    Svc.Upholds a (setStaged d p x).1 :=
  .ite (h.freeBuffers ..) h

theorem applyStagedAt (tag : Nat) {x : ZoneSt × Nat} (h : Svc.Upholds a x.1.1) (d : Nat) :
    Svc.Upholds a (applyStagedAt tag x d).1.1 := by
  unfold Machine.applyStagedAt
  split
  · exact h
  · split
    · dsimp only
      split
      · exact workOutSign d (x := (_, _)) (h.giveUpPage d .normal)
      · exact workOutSign d (x := (_, _)) h
    · exact h

theorem applyStaged (tag : Nat) {x : ZoneSt} (h : Svc.Upholds a x.1) : Svc.Upholds a (applyStaged tag x).1.1 := by
  unfold Machine.applyStaged
  exact Svc.Upholds.foldl (f := Machine.applyStagedAt tag) (g := fun y : ZoneSt × Nat => y.1.1) (y := (x, 0))
    (fun _ d hy => hy.applyStagedAt tag d) (places 8) h

theorem askSigns (n : Nat) {s : Svc} (h : Svc.Upholds a s) : Svc.Upholds a (askSigns n s).1 := by
  induction n generalizing s with
  | zero => exact h
  | succ n ih =>
    unfold Machine.askSigns
    split
    · next e => exact h.of_request e
    · next e => exact ih (h.of_request e)

/-- The pages of bindings that go. -/
theorem giveUpBindings (l : List Binding) {x : ZoneSt} (h : Svc.Upholds a x.1) :
    Svc.Upholds a (l.foldl (fun y b => match bindingSign b with
      | some (z, d) => Machine.giveUpPage d (.binding z) y
      | none => y) x).1 := by
  refine Svc.Upholds.foldl (g := Prod.fst) (fun y b hy => ?_) l h
  split
  · exact hy.giveUpPage ..
  · exact hy

/-- The signs, and after them the beacons, work out. -/
theorem workOut (signs beacons : List Nat) {x : ZoneSt} (h : Svc.Upholds a x.1) :
    Svc.Upholds a (beacons.foldl (fun y b => workOutBeacon b y) (signs.foldl (fun y d => Machine.workOutSign d y) x)).1 :=
  Svc.Upholds.foldl (g := Prod.fst) (f := fun y b => workOutBeacon b y) (fun _ _ hu => hu) beacons
    (Svc.Upholds.foldl (g := Prod.fst) (fun _ d hu => hu.workOutSign d) signs h)

theorem takeBindings (new : List Binding) {x : ZoneSt} (h : Svc.Upholds a x.1) :
    Svc.Upholds a (takeBindings new x).1.1 := by
  have k (n : Nat) : Svc.Upholds a (Machine.askSigns n x.1).1 := h.askSigns n
  unfold Machine.takeBindings
  dsimp only
  split
  · exact h
  · split
    · exact (k _).freeBuffers ..
    · exact workOut _ _ (x := (_, _)) (Svc.Upholds.of_eq (giveUpBindings _ (x := (_, _)) (k _)) rfl rfl rfl)

theorem removeSign (d : Nat) {x : ZoneSt} (h : Svc.Upholds a x.1) : Svc.Upholds a (removeSign d x).1 := by
  have k (n : Nat) : Svc.Upholds a (x.1.freeBuffers .sign n) := h.freeBuffers ..
  unfold Machine.removeSign
  split
  · exact h
  · exact k _

theorem loadEnds (d : Nat) (o : LoadOutcome) {x : ZoneSt} (h : Svc.Upholds a x.1) :
    Svc.Upholds a (loadEnds d o x).1 := by
  unfold Machine.loadEnds
  split
  · split
    · exact h
    · extract_lets isWanted shown attempts fault s s'
      have hs : Svc.Upholds a s := .ite (h.post ..) h
      have hs' : Svc.Upholds a s' := .ite (hs.post ..) hs
      exact hs'.freeBuffers ..
  · exact h

theorem beaconPhaseEnds (b : Nat) {x : ZoneSt} (h : Svc.Upholds a x.1) : Svc.Upholds a (beaconPhaseEnds b x).1 := by
  unfold Machine.beaconPhaseEnds
  split
  · exact h
  · split
    · exact h
    · split
      · exact h
      · exact h
      · split <;> exact h

/-! ## TOLL (07) -/

theorem attachGantry (devices : List Device) (d : Nat) (i : Identity) (b : Bool) {x : TollSt}
    (h : Svc.Upholds a x.1) : Svc.Upholds a (attachGantry devices d i b x).1 := by
  unfold Machine.attachGantry
  dsimp only
  split
  · exact .fst_ite (h.post ..) h
  · exact .fst_ite (h.post ..) (.fst_ite (h.post ..) (.fst_ite (h.post ..) h))

theorem retryUnattached (devices : List Device) {x : TollSt} (h : Svc.Upholds a x.1) :
    Svc.Upholds a (retryUnattached devices x).1 := by
  refine Svc.Upholds.foldl (g := Prod.fst) (fun y d hy => ?_) (places 8) h
  split
  · split
    · split
      · exact hy.attachGantry ..
      · exact hy
    · exact hy
  · exact hy

theorem dropIdleEntry (devices : List Device) (g : Nat) {x : TollSt} (h : Svc.Upholds a x.1) :
    Svc.Upholds a (dropIdleEntry devices g x).1 := by
  unfold Machine.dropIdleEntry
  split
  · exact h
  · split
    · exact retryUnattached devices (x := (x.1, _)) h
    · exact h

theorem unbindDevice (devices : List Device) (d : Nat) {x : TollSt} (h : Svc.Upholds a x.1) :
    Svc.Upholds a (unbindDevice devices d x).1 :=
  Svc.Upholds.foldl (g := Prod.fst) (fun _ g hy => hy.dropIdleEntry devices g) _ h

theorem joinGantry (devices : List Device) (d : Nat) (i : Identity) (b : Bool) {x : TollSt}
    (h : Svc.Upholds a x.1) : Svc.Upholds a (joinGantry devices d i b x).1 := by
  unfold Machine.joinGantry
  dsimp only
  split
  · exact (h.unbindDevice devices d).attachGantry ..
  · exact h.attachGantry ..

theorem raiseHigh {x : TollSt} (h : Svc.Upholds a x.1) : Svc.Upholds a (raiseHigh x).1 := .fst_ite (h.post ..) h

theorem lowerHigh {x : TollSt} (h : Svc.Upholds a x.1) : Svc.Upholds a (lowerHigh x).1 := .fst_ite h h

theorem holdRecord (d g k : Nat) (r : PoolReason) {x : TollSt} (h : Svc.Upholds a x.1) :
    Svc.Upholds a (holdRecord d g k r x).1 :=
  .fst_ite h (h.post ..)

theorem stopMalformed (d g k : Nat) {x : TollSt} (h : Svc.Upholds a x.1) : Svc.Upholds a (stopMalformed d g k x).1 := by
  unfold Machine.stopMalformed
  dsimp only
  split
  · exact h
  · exact .fst_ite h (h.post ..)

theorem stopGap (d g k l : Nat) {x : TollSt} (h : Svc.Upholds a x.1) : Svc.Upholds a (stopGap d g k l x).1 := by
  unfold Machine.stopGap
  dsimp only
  split
  · exact h
  · exact .fst_ite h (h.post ..)

theorem takeRecord (d g : Nat) {x : TollSt × Bool} (h : Svc.Upholds a x.1.1) (r : TollRecord) :
    Svc.Upholds a (takeRecord d g x r).1.1 := by
  unfold Machine.takeRecord
  split
  · exact h
  · split
    · exact h
    · split
      · exact h
      · split
        · exact h.stopMalformed ..
        · split
          · split
            · next e => exact raiseHigh (x := (_, _)) (h.of_request e)
            · next e => exact holdRecord d g _ _ (x := (_, _)) (h.of_request e)
          · exact h.stopGap ..

theorem takeOffer (d c : Nat) (l : List TollRecord) {x : TollSt} (h : Svc.Upholds a x.1) :
    Svc.Upholds a (takeOffer d c l x).1 := by
  unfold Machine.takeOffer
  split
  · exact Svc.Upholds.foldl (g := fun y : TollSt × Bool => y.1.1) (fun _ r hy => hy.takeRecord d _ r) l h
  · exact h

theorem ackPair (devices : List Device) (p : Nat × Nat) {x : TollSt} (h : Svc.Upholds a x.1) :
    Svc.Upholds a (ackPair devices x p).1.1 := by
  have k (n : Nat) : Svc.Upholds a (x.1.freeBuffers .toll n) := h.freeBuffers ..
  unfold Machine.ackPair
  split
  · exact h
  · have lower (n : Nat) (t : Toll) (c : Prop) [Decidable c] :
        Svc.Upholds a (if c then (x.1.freeBuffers .toll n, t) else Machine.lowerHigh (x.1.freeBuffers .toll n, t)).1 :=
      .fst_ite (k n) (Svc.Upholds.lowerHigh (x := (_, t)) (k n))
    exact .fst_ite (lower ..) (dropIdleEntry devices _ (lower ..))

theorem ackPairs (devices : List Device) (l : List (Nat × Nat)) {x : TollSt} (h : Svc.Upholds a x.1) :
    Svc.Upholds a (ackPairs devices l x).1.1 :=
  Svc.Upholds.foldl (g := fun y : TollSt × List (Nat × Nat) => y.1.1)
    (f := fun y p => ((Machine.ackPair devices y.1 p).1, y.2 ++ (Machine.ackPair devices y.1 p).2)) (y := (x, []))
    (fun _ p hy => hy.ackPair devices p) l h

theorem takeTollHigh (n : Nat) {x : TollSt} (h : Svc.Upholds a x.1) : Svc.Upholds a (takeTollHigh n x).1 :=
  lowerHigh (raiseHigh (x := (_, _)) (h.of_eq (by rfl) (by rfl) (by rfl)))

/-! ## Threshold rules (08 section 8.3) -/

theorem evaluateRule (r : Sample) {x : RuleSt} (h : Svc.Upholds a x.1) (k : Nat) :
    Svc.Upholds a (evaluateRule r x k).1 := by
  unfold Machine.evaluateRule
  split
  · split
    · exact h
    · split
      · exact h
      · dsimp only
        split
        · exact h.post ..
        · split
          · exact h.post ..
          · exact h
  · exact h

theorem evaluateRules (r : Sample) {x : RuleSt} (h : Svc.Upholds a x.1) : Svc.Upholds a (evaluateRules r x).1 :=
  Svc.Upholds.foldl (g := Prod.fst) (fun _ k hy => hy.evaluateRule r k) _ h

theorem handWeather (specs : List (Option RuleSpec)) (before : List RuleRec) (specs' : List (Option RuleSpec))
    (after : List RuleRec) {x : ZoneSt} (h : Svc.Upholds a x.1) :
    Svc.Upholds a (handWeather specs before specs' after x).1 := by
  refine Svc.Upholds.foldl (g := Prod.fst) (fun y z hy => ?_) (places 8) h
  split
  · exact hy.addCause ..
  · exact hy.removeCause ..
  · exact hy

theorem replaceRule (k : Nat) (new : Option RuleSpec) {x : RuleSt} (h : Svc.Upholds a x.1) :
    Svc.Upholds a (replaceRule x k new).1 := by
  unfold Machine.replaceRule
  extract_lets s
  have hs : Svc.Upholds a s := by
    unfold s
    split
    · split
      · exact h.post ..
      · exact h
    · exact h
  exact hs.of_eq rfl rfl rfl

theorem clearRulesOf (d : Nat) {x : RuleSt} (h : Svc.Upholds a x.1) : Svc.Upholds a (clearRulesOf d x).1 := by
  refine Svc.Upholds.foldl (g := Prod.fst) (fun y k hy => ?_) (places 8) h
  split
  · exact .fst_ite hy (.ite (hy.post ..) hy)
  · exact hy

end Svc.Upholds

end Sys2Proof.Machine


/-! SUPPORT. What WIN's operations leave of the node (R30 to R44): they touch the services' queues and pool, WIN and the
batch records, and nothing else. -/

namespace Sys2Proof.Machine

/-- The services meet the invariants as before, at the same time and under the same settings. -/
structure Svc.Steady (s t : Svc) : Prop where
  upholds : Svc.Upholds s t
  now : t.now = s.now
  time : t.time = s.time
  settings : t.settings = s.settings

namespace Svc.Steady

variable {s t u : Svc}

theorem refl (s : Svc) : Svc.Steady s s := ⟨.refl s, rfl, rfl, rfl⟩

theorem trans (h : Svc.Steady s t) (k : Svc.Steady t u) : Svc.Steady s u :=
  ⟨h.upholds.trans k.upholds, k.now.trans h.now, k.time.trans h.time, k.settings.trans h.settings⟩

theorem of_keeps (h : Svc.Keeps s t) (k : Svc.Upholds s t) : Svc.Steady s t := ⟨k, h.now, h.time, h.settings⟩

theorem withQueues (s : Svc) (q : Queues) (b : Bool) : Svc.Steady s { s with queues := q, freed := b } :=
  ⟨(Svc.Upholds.refl s).withQueues q b, rfl, rfl, rfl⟩

theorem freeBuffers (s : Svc) (c : PoolClass) (n : Nat) : Svc.Steady s (s.freeBuffers c n) :=
  .of_keeps (s.keeps_freeBuffers c n) ((Svc.Upholds.refl s).freeBuffers c n)

theorem offerNormal (s : Svc) (m : Message) : Svc.Steady s (s.offerNormal m).1 :=
  .of_keeps (s.keeps_offerNormal m) ((Svc.Upholds.refl s).offerNormal m)

theorem offerPlaceholder (s : Svc) (k : CollKind) (b : Nat) : Svc.Steady s (s.offerPlaceholder k b).1 :=
  .of_keeps (s.keeps_offerPlaceholder k b) ((Svc.Upholds.refl s).offerPlaceholder k b)

theorem post (s : Svc) (c : NoticeCode) (b : Subject) (d : List Value) : Svc.Steady s (s.post c b d) :=
  .of_keeps (s.keeps_post c b d) ((Svc.Upholds.refl s).post c b d)

theorem leave (s : Svc) (b : BegunSrc) : Svc.Steady s (s.leave b) := by
  unfold Svc.leave
  split
  · split
    · exact (withQueues s _ true).trans (freeBuffers ..)
    · exact refl s
  · split
    · exact (withQueues s _ true).trans (freeBuffers ..)
    · exact refl s
  · exact refl s
  · exact refl s

theorem dropEntry (s : Svc) (p : NEntry → Bool) : Svc.Steady s (s.dropEntry p) := by
  unfold Svc.dropEntry
  split
  · exact withQueues s _ true
  · exact refl s

theorem markLeaving (s : Svc) (id : Nat) : Svc.Steady s (s.markLeaving id) := withQueues s _ s.freed

theorem withdrawNormal (s : Svc) (p : Message → Bool) : Svc.Steady s (s.withdrawNormal p) := by
  unfold Svc.withdrawNormal
  dsimp only
  split
  · exact refl s
  · exact (withQueues s _ true).trans (freeBuffers ..)

theorem withdrawEmergency (s : Svc) (p : Message → Bool) : Svc.Steady s (s.withdrawEmergency p) := by
  unfold Svc.withdrawEmergency
  dsimp only
  split
  · exact refl s
  · exact (withQueues s _ true).trans (freeBuffers ..)

end Svc.Steady

/-- WIN's part in a step: the services stay steady, and besides them WIN and COLL alone are touched. -/
structure Node.WinStep (n m : Node) : Prop where
  rest : m = { n with svc := m.svc, win := m.win, coll := m.coll }
  svc : Svc.Steady n.svc m.svc

namespace Node.WinStep

theorem refl (n : Node) : Node.WinStep n n := ⟨rfl, .refl _⟩

theorem trans {a b c : Node} (h : Node.WinStep a b) (k : Node.WinStep b c) : Node.WinStep a c := by
  refine ⟨?_, h.svc.trans k.svc⟩
  rw [k.rest, h.rest]

theorem foldl {α : Type} {f : Node → α → Node} (h : ∀ n a, Node.WinStep n (f n a)) (l : List α) (n : Node) :
    Node.WinStep n (l.foldl f n) := by
  induction l generalizing n with
  | nil => exact refl n
  | cons a l ih => exact (h n a).trans (ih _)

section
variable {n m : Node} (h : Node.WinStep n m)
include h

theorem call : m.call = n.call := by rw [h.rest]
theorem ring : m.ring = n.ring := by rw [h.rest]
theorem head : m.head = n.head := by rw [h.rest]
theorem east : m.east = n.east := by rw [h.rest]
theorem west : m.west = n.west := by rw [h.rest]
theorem cmd : m.cmd = n.cmd := by rw [h.rest]
theorem link : m.link = n.link := by rw [h.rest]
theorem toll : m.toll = n.toll := by rw [h.rest]
theorem rules : m.rules = n.rules := by rw [h.rest]
theorem zone : m.zone = n.zone := by rw [h.rest]
theorem phase : m.phase = n.phase := by rw [h.rest]
theorem set : m.set = n.set := h.svc.settings
theorem isHead : m.isHead = n.isHead := by rw [Node.isHead, Node.isHead, h.svc.settings]
theorem me : m.me = n.me := by rw [Node.me, Node.me, h.svc.settings]
theorem port (p : PortId) : m.port p = n.port p := by
  cases p
  · exact h.east
  · exact h.west

end

theorem onWin (n : Node) (f : Win → Win) : Node.WinStep n (n.onWin f) := ⟨rfl, .refl _⟩

theorem onLoop (n : Node) (l : Loop) (f : LoopSt → LoopSt) : Node.WinStep n (n.onLoop l f) := ⟨rfl, .refl _⟩

theorem onColl (n : Node) (f : Coll → Coll) : Node.WinStep n (n.onColl f) := ⟨rfl, .refl _⟩

theorem onSvc (n : Node) {f : Svc → Svc} (h : Svc.Steady n.svc (f n.svc)) : Node.WinStep n (n.onSvc f) := ⟨rfl, h⟩

theorem post (n : Node) (c : NoticeCode) (b : Subject) (d : List Value) : Node.WinStep n (n.post c b d) :=
  ⟨rfl, .post ..⟩

/-! ## Reassembly and placing (R30, R35) -/

theorem takeData (n : Node) (l : Loop) (data : List (Option Slot)) : Node.WinStep n (n.takeData l data).1 :=
  ⟨rfl, .refl _⟩

theorem chooseNormal (l : Loop) (h : Holding) (es : List NEntry) (n : Node) :
    Node.WinStep n (Node.chooseNormal l h es n).1 := by
  induction es generalizing n with
  | nil => exact refl n
  | cons e es ih =>
    cases e with
    | msg m =>
      unfold Node.chooseNormal
      split
      · exact ih n
      · split
        · exact refl n
        · exact refl n
    | batch id k b leaving =>
      unfold Node.chooseNormal
      have hb : Node.WinStep n (n.bindLoop k l) := onColl ..
      split
      · exact ih n
      · dsimp only
        split
        · split
          · exact (hb.trans (onSvc _ (.dropEntry ..))).trans (ih _)
          · split
            · exact hb
            · exact hb
        · exact hb

theorem choose (n : Node) (l : Loop) (h : Holding) : Node.WinStep n (n.choose l h).1 := by
  unfold Node.choose
  split
  · exact refl n
  · split
    · exact refl n
    · split
      · exact refl n
      · split
        · split
          · exact refl n
          · exact refl n
        · exact chooseNormal ..

theorem of_choose {n m : Node} {l : Loop} {h : Holding} {b : Option Begun} (e : n.choose l h = (m, b)) :
    Node.WinStep n m := by
  have hc := choose n l h
  rwa [e] at hc

theorem itemSent (n : Node) (id : Nat) (k : CollKind) (void : Bool) : Node.WinStep n (n.itemSent id k void) := by
  unfold Node.itemSent
  extract_lets m
  have hm : Node.WinStep n m := onColl ..
  split
  · exact hm.trans (onSvc _ (.dropEntry ..))
  · exact hm

theorem firstPlaced (n : Node) (l : Loop) (b : Begun) : Node.WinStep n (n.firstPlaced l b) := by
  have hs : Node.WinStep n (n.onSvc fun s => { s with queues := s.queues.begin b.src l }) :=
    onSvc n (.withQueues n.svc _ n.svc.freed)
  unfold Node.firstPlaced
  dsimp only
  split
  · exact hs.trans (onWin ..)
  · exact hs.trans (itemSent ..)
  · exact hs.trans (itemSent ..)
  · exact hs.trans (onColl ..)
  · exact hs

theorem messageOver (n : Node) (src : BegunSrc) : Node.WinStep n (n.messageOver src) := by
  cases src with
  | item id k => exact onSvc n (.dropEntry ..)
  | emergency id => exact onSvc n (f := fun s => s.leave (.emergency id)) (.leave ..)
  | normal id => exact onSvc n (f := fun s => s.leave (.normal id)) (.leave ..)
  | survey => exact refl n

theorem setHolding (n : Node) (l : Loop) (h : Option Holding) : Node.WinStep n (n.setHolding l h) := onLoop ..

theorem placeNext (n : Node) (l : Loop) (h : Holding) (b : Begun) : Node.WinStep n (n.placeNext l h b).1 := by
  unfold Node.placeNext
  split
  · exact (setHolding ..).trans (messageOver ..)
  · exact (setHolding ..).trans (messageOver ..)
  · exact setHolding ..

theorem place (l : Loop) (room : Nat) (data : List (Option Slot)) (n : Node) :
    Node.WinStep n (Node.place l room data n).1 := by
  induction data generalizing room n with
  | nil => cases room <;> exact refl n
  | cons s rest ih =>
    cases room with
    | zero => exact refl n
    | succ room =>
      cases s with
      | some s => exact ih (room + 1) n
      | none =>
        unfold Node.place
        split
        · exact refl n
        · next h _ =>
          split
          · exact (placeNext ..).trans (ih ..)
          · split
            · next e => exact of_choose e
            · next e => exact (((of_choose e).trans (firstPlaced ..)).trans (placeNext ..)).trans (ih ..)

theorem placeData (n : Node) (l : Loop) (data : List (Option Slot)) : Node.WinStep n (n.placeData l data).1 :=
  place ..

/-! ## Tokens (R33 to R44) -/

theorem endHolding (n : Node) (l : Loop) : Node.WinStep n (n.endHolding l) := by
  unfold Node.endHolding
  split
  · exact refl n
  · dsimp only
    split
    · exact setHolding ..
    · exact (setHolding ..).trans (messageOver ..)

theorem discardToken (n : Node) (l : Loop) : Node.WinStep n (n.discardToken l) := (endHolding n l).trans (onWin ..)

theorem passToken (n : Node) (l : Loop) (m : Mgmt) : Node.WinStep n (n.passToken l m).1 := by
  have directed : Node.WinStep n (n.takeDirected l) := onLoop ..
  unfold Node.passToken
  dsimp only
  split
  · exact refl n
  · split
    · exact directed
    · exact refl n
  · split
    · split
      · exact directed
      · exact refl n
    · split
      · split
        · exact onLoop ..
        · exact refl n
      · split
        · exact directed
        · exact refl n

theorem passLock (n : Node) (l : Loop) (m : Mgmt) : Node.WinStep n (n.passLock l m).1 := by
  unfold Node.passLock
  dsimp only
  split
  · exact (passToken n l m).trans (onLoop ..)
  · exact (passToken n l m).trans (onLoop ..)

theorem holderPassage (n : Node) (l : Loop) (h : Holding) (m : Mgmt) : Node.WinStep n (n.holderPassage l h m).1 := by
  unfold Node.holderPassage
  split
  · exact discardToken n l
  · dsimp only
    split
    · exact setHolding ..
    · exact (setHolding ..).trans (setHolding ..)
    · split
      · next e => exact (setHolding ..).trans (of_choose e)
      · next e => exact ((setHolding ..).trans (of_choose e)).trans (setHolding ..)

theorem mgmtPassage (n : Node) (l : Loop) (m : Mgmt) : Node.WinStep n (n.mgmtPassage l m).1 := by
  unfold Node.mgmtPassage
  dsimp only
  split
  · exact (onLoop ..).trans (holderPassage ..)
  · exact (onLoop ..).trans (passLock ..)

theorem loopEnds (n : Node) (l : Loop) : Node.WinStep n (n.loopEnds l) := by
  unfold Node.loopEnds
  exact (((endHolding n l).trans (onLoop ..)).trans (onWin ..)).trans (onColl ..)

theorem restartLoss (n : Node) (l : Loop) : Node.WinStep n (n.restartLoss l) := onLoop ..

theorem beginLoop (n : Node) (l : Loop) : Node.WinStep n (n.beginLoop l) := (onLoop ..).trans (restartLoss ..)

theorem endInner (n : Node) : Node.WinStep n n.endInner := (endHolding n .inner).trans (onLoop ..)

theorem acceptToken (n : Node) (l : Loop) (m : Mgmt) : Node.WinStep n (n.acceptToken l m) := by
  unfold Node.acceptToken
  split
  · exact refl n
  · dsimp only
    split
    · refine Node.WinStep.trans ?_ (restartLoss ..)
      split
      · exact onLoop ..
      · exact (onLoop ..).trans (post ..)
    · exact onWin ..

theorem stripMgmt (n : Node) (l : Loop) (k : Nat) (m : Mgmt) : Node.WinStep n (n.stripMgmt l k m) :=
  ((onLoop ..).trans (onLoop ..)).trans (acceptToken ..)

theorem stripData (n : Node) (l : Loop) (data : List (Option Slot)) : Node.WinStep n (n.stripData l data).1 := by
  unfold Node.stripData
  dsimp only
  exact (takeData n l data).trans (onWin ..)

theorem headRequests (n : Node) (l : Loop) : Node.WinStep n (n.headRequests l) := by
  unfold Node.headRequests
  split
  · exact onLoop ..
  · exact refl n

theorem headTakes (n : Node) (l : Loop) (b : Bool) : Node.WinStep n (n.headTakes l b) := by
  cases b <;> exact (onLoop ..).trans (onLoop ..)

theorem carryToken (n : Node) (l : Loop) (t : TokenField) : Node.WinStep n (n.carryToken l t).1 := by
  unfold Node.carryToken
  split
  · exact refl n
  · split
    · exact headTakes ..
    · exact refl n
  · split
    · exact refl n
    · split
      · exact headTakes ..
      · exact refl n

theorem headHolding (n : Node) (l : Loop) (h : Holding) : Node.WinStep n (n.headHolding l h).1 := by
  unfold Node.headHolding
  dsimp only
  split
  · exact setHolding ..
  · exact ((setHolding ..).trans (setHolding ..)).trans (restartLoss ..)
  · split
    · next e => exact (setHolding ..).trans (of_choose e)
    · next e => exact (((setHolding ..).trans (of_choose e)).trans (setHolding ..)).trans (restartLoss ..)

theorem tokenField (n : Node) (l : Loop) : Node.WinStep n (n.tokenField l).1 := by
  unfold Node.tokenField
  dsimp only
  split
  · exact onLoop ..
  · split
    · exact headHolding ..
    · split
      · exact onLoop ..
      · exact (onLoop ..).trans (carryToken ..)

theorem originateMgmt (n : Node) (l : Loop) (k : Nat) : Node.WinStep n (n.originateMgmt l k).1 :=
  ((headRequests n l).trans (tokenField ..)).trans (onLoop ..)

theorem originateWindow (n : Node) (l : Loop) (k : Nat) : Node.WinStep n (n.originateWindow l k).1 :=
  (originateMgmt ..).trans (placeData ..)

theorem tokenLost (n : Node) (l : Loop) : Node.WinStep n (n.tokenLost l) := by
  unfold Node.tokenLost
  split
  · exact refl n
  · split
    · exact (onLoop ..).trans (post ..)
    · exact refl n

end Node.WinStep

end Sys2Proof.Machine


/-! SUPPORT. What keeps the invariants of the node's services and call table (R62, R63, R122, R123, R176): the calm
operations, which leave the call table and wait queue alone. CALL at a wayside, TRIB, the release unit and the rules. -/

namespace Sys2Proof.Machine

/-- The services meet the invariants that they met, and the call table and the wait queue stay. -/
structure Node.Calm (n m : Node) : Prop where
  svc : Svc.Upholds n.svc m.svc
  table : m.call.table = n.call.table
  waiting : m.call.waiting = n.call.waiting

namespace Svc.Upholds

theorem endFault {a : Svc} (d : Nat) {x : ZoneSt} (h : Svc.Upholds a x.1) : Svc.Upholds a (endFault d x).1 :=
  workOutSign d h

theorem signRejoins {a : Svc} (d : Nat) {x : ZoneSt} (h : Svc.Upholds a x.1) : Svc.Upholds a (signRejoins d x).1 :=
  endFault d h

end Svc.Upholds

namespace Node.Calm

theorem refl (n : Node) : Node.Calm n n := ⟨.refl _, rfl, rfl⟩

theorem trans {a b c : Node} (h : Node.Calm a b) (k : Node.Calm b c) : Node.Calm a c :=
  ⟨h.svc.trans k.svc, k.table.trans h.table, k.waiting.trans h.waiting⟩

/-- What changes neither the services nor CALL. -/
theorem other {n m : Node} (hs : m.svc = n.svc) (hc : m.call = n.call) : Node.Calm n m :=
  ⟨by rw [hs]; exact .refl _, by rw [hc], by rw [hc]⟩

theorem ite {n a b : Node} {c : Prop} [Decidable c] (h : Node.Calm n a) (k : Node.Calm n b) :
    Node.Calm n (if c then a else b) := by
  split
  · exact h
  · exact k

theorem fst_ite {α : Type} {n : Node} {a b : Node × α} {c : Prop} [Decidable c] (h : Node.Calm n a.1)
    (k : Node.Calm n b.1) : Node.Calm n (if c then a else b).1 := by
  split
  · exact h
  · exact k

theorem foldl {α : Type} {f : Node → α → Node} (h : ∀ n a, Node.Calm n (f n a)) (l : List α) (n : Node) :
    Node.Calm n (l.foldl f n) := by
  induction l generalizing n with
  | nil => exact refl n
  | cons a l ih => exact (h n a).trans (ih _)

theorem of_win {n m : Node} (h : Node.WinStep n m) : Node.Calm n m :=
  ⟨h.svc.upholds, by rw [h.call], by rw [h.call]⟩

theorem onSvc (n : Node) {f : Svc → Svc} (h : Svc.Upholds n.svc (f n.svc)) : Node.Calm n (n.onSvc f) := ⟨h, rfl, rfl⟩

theorem withSvc (n : Node) {s : Svc} (h : Svc.Upholds n.svc s) : Node.Calm n { n with svc := s } := ⟨h, rfl, rfl⟩

theorem onCall (n : Node) {f : Call → Call} (ht : (f n.call).table = n.call.table)
    (hw : (f n.call).waiting = n.call.waiting) : Node.Calm n (n.onCall f) := ⟨.refl _, ht, hw⟩

theorem onPhone (n : Node) (p : Nat) (f : Phone → Phone) : Node.Calm n (n.onPhone p f) := onCall n rfl rfl

theorem onZone (n : Node) {f : ZoneSt → ZoneSt} (h : Svc.Upholds n.svc (f (n.svc, n.zone)).1) :
    Node.Calm n (n.onZone f) := ⟨h, rfl, rfl⟩

theorem onToll (n : Node) {f : TollSt → TollSt} (h : Svc.Upholds n.svc (f (n.svc, n.toll)).1) :
    Node.Calm n (n.onToll f) := ⟨h, rfl, rfl⟩

theorem post (n : Node) (c : NoticeCode) (b : Subject) (d : List Value) : Node.Calm n (n.post c b d) :=
  onSvc n ((Svc.Upholds.refl _).post c b d)

theorem onTrib (n : Node) (f : Trib → Trib) : Node.Calm n (n.onTrib f) := other rfl rfl
theorem onDevice (n : Node) (d : Nat) (f : Device → Device) : Node.Calm n (n.onDevice d f) := other rfl rfl
theorem onLine (n : Node) (l : Nat) (f : Line → Line) : Node.Calm n (n.onLine l f) := other rfl rfl
theorem onRoster (n : Node) (e : Nat) (f : RosterRec → RosterRec) : Node.Calm n (n.onRoster e f) := other rfl rfl
theorem onOutput (n : Node) (x : Nat) (f : Output → Output) : Node.Calm n (n.onOutput x f) := other rfl rfl
theorem onCmd (n : Node) (f : Cmd → Cmd) : Node.Calm n (n.onCmd f) := other rfl rfl
theorem onLink (n : Node) (f : Link → Link) : Node.Calm n (n.onLink f) := other rfl rfl
theorem onHead (n : Node) (f : Head → Head) : Node.Calm n (n.onHead f) := other rfl rfl
theorem onColl (n : Node) (f : Coll → Coll) : Node.Calm n (n.onColl f) := other rfl rfl
theorem onPort (n : Node) (p : PortId) (f : Port → Port) : Node.Calm n (n.onPort p f) := other (by simp) (by simp)

theorem onSettings (n : Node) {f : Settings → Settings} (h : (f n.svc.settings).voiceCap = n.svc.settings.voiceCap) :
    Node.Calm n (n.onSettings f) := onSvc n ((Svc.Upholds.refl _).of_eq rfl rfl h)

/-! ## CALL at a wayside (R51 to R60) -/

theorem offerCall (n : Node) (m : Message) : Node.Calm n (n.offerCall m) := by
  have hs : Node.Calm n { n with svc := (n.svc.offerEmergency m).1 } := withSvc n ((Svc.Upholds.refl _).offerEmergency m)
  unfold Node.offerCall
  dsimp only
  split
  · exact hs
  · refine hs.trans (onCall _ ?_ ?_)
    · split <;> rfl
    · split <;> rfl

theorem movePhone (n : Node) (p : Nat) (new : PhoneState) (f : Phone → Phone) : Node.Calm n (n.movePhone p new f) := by
  unfold Node.movePhone
  split
  · exact refl n
  · exact .ite (onPhone ..) ((onPhone ..).trans (post ..))

theorem enterRequesting (n : Node) (p : Nat) : Node.Calm n (n.enterRequesting p) := by
  unfold Node.enterRequesting
  extract_lets m z m'
  have hm : Node.Calm n m := movePhone ..
  have hm' : Node.Calm n m' := .ite hm (hm.trans (onZone _ (Svc.Upholds.addCause z .phone (.refl _))))
  split
  · exact hm'
  · exact .ite (hm'.trans ((onPhone ..).trans (post ..))) (hm'.trans ((offerCall ..).trans (onPhone ..)))

theorem enterIdle (n : Node) (p : Nat) : Node.Calm n (n.enterIdle p) := by
  unfold Node.enterIdle
  dsimp only
  split
  · exact movePhone ..
  · exact .ite ((movePhone ..).trans (enterRequesting ..)) (movePhone ..)

theorem enterClearing (n : Node) (p : Nat) : Node.Calm n (n.enterClearing p) := by
  unfold Node.enterClearing
  split
  · exact refl n
  · exact ((offerCall ..).trans (movePhone ..)).trans (onPhone ..)

theorem answerRing (n : Node) (p call slot : Nat) : Node.Calm n (n.answerRing p call slot) :=
  (offerCall ..).trans (movePhone ..)

theorem lifted (n : Node) (p : Nat) (r : Phone) : Node.Calm n (n.lifted p r) := by
  unfold Node.lifted
  split
  · exact enterRequesting ..
  · split
    · exact answerRing ..
    · exact refl n
  · exact onPhone ..
  · exact refl n

theorem hungUp (n : Node) (p : Nat) (r : Phone) : Node.Calm n (n.hungUp p r) := by
  unfold Node.hungUp
  split
  · exact (offerCall ..).trans (enterIdle ..)
  · exact enterClearing ..
  · exact enterClearing ..
  · exact enterClearing ..
  · exact onPhone ..
  · exact enterIdle ..
  · exact refl n
  · exact refl n

theorem hookSettled (n : Node) (p : Nat) : Node.Calm n (n.hookSettled p) := by
  unfold Node.hookSettled
  split
  · exact refl n
  · split
    · exact (onPhone ..).trans (.ite (hungUp ..) (lifted ..))
    · exact refl n

theorem withdrawCall (n : Node) (is : Message → Bool) : Node.Calm n (n.withdrawCall is) :=
  (onCall n rfl rfl).trans (onSvc _ ((Svc.Upholds.refl _).withdrawEmergency is))

theorem offerRequest (n : Node) (p : Nat) (r : Phone) : Node.Calm n (n.offerRequest p r) := offerCall ..

theorem startRepeat (n : Node) (p : Nat) : Node.Calm n (n.startRepeat p) := onPhone ..

theorem repeatExpires (n : Node) (p : Nat) : Node.Calm n (n.repeatExpires p) := by
  unfold Node.repeatExpires
  split
  · exact refl n
  · split
    · split
      · exact ((withdrawCall ..).trans (offerRequest ..)).trans (startRepeat ..)
      · exact ((withdrawCall ..).trans (offerRequest ..)).trans (startRepeat ..)
      · exact .ite ((((onPhone ..).trans (withdrawCall ..)).trans (offerCall ..)).trans (startRepeat ..)) (enterIdle ..)
      · exact refl n
    · exact refl n

theorem stray (n : Node) (p call : Nat) : Node.Calm n (n.stray p call) := offerCall ..

theorem ignoreOwn (n : Node) (p call : Nat) (r : Phone) : Node.Calm n (n.ignoreOwn p call r) := .ite (refl n) (stray ..)

theorem takeQueued (n : Node) (p call : Nat) : Node.Calm n (n.takeQueued p call) := by
  unfold Node.takeQueued
  split
  · exact refl n
  · split
    · exact movePhone ..
    · exact onPhone ..
    · exact stray ..
    · exact stray ..
    · exact ignoreOwn ..

theorem takeAssign (n : Node) (p call slot : Nat) : Node.Calm n (n.takeAssign p call slot) := by
  unfold Node.takeAssign
  split
  · exact refl n
  · dsimp only
    split
    · exact movePhone ..
    · exact movePhone ..
    · exact stray ..
    · exact stray ..
    · exact ignoreOwn ..

theorem takeRing (n : Node) (p call slot : Nat) : Node.Calm n (n.takeRing p call slot) := by
  unfold Node.takeRing
  split
  · exact refl n
  · split
    · exact answerRing ..
    · exact stray ..
    · exact movePhone ..
    · exact stray ..
    · exact ignoreOwn ..

theorem takeAnswered (n : Node) (p call : Nat) : Node.Calm n (n.takeAnswered p call) := by
  unfold Node.takeAnswered
  split
  · exact refl n
  · split
    · exact .ite (movePhone ..) (stray ..)
    · exact ignoreOwn ..
    · exact ignoreOwn ..
    · exact ignoreOwn ..
    · exact stray ..

theorem offerCleared (n : Node) (p call : Nat) : Node.Calm n (n.offerCleared p call) := offerCall ..

theorem takeClear (n : Node) (p call : Nat) : Node.Calm n (n.takeClear p call) := by
  unfold Node.takeClear
  split
  · exact refl n
  · refine (offerCleared n p call).trans (.ite (movePhone ..) (.ite ?_ (refl _)))
    split
    · exact enterIdle ..
    · exact enterIdle ..
    · exact refl _
    · exact refl _
    · exact .ite (enterIdle ..) (movePhone ..)

theorem takeCleared (n : Node) (p call : Nat) : Node.Calm n (n.takeCleared p call) := by
  unfold Node.takeCleared
  split
  · exact refl n
  · exact .ite (enterIdle ..) (refl n)

theorem labelLimit (n : Node) (p : Nat) : Node.Calm n (n.labelLimit p) := by
  unfold Node.labelLimit
  split
  · exact refl n
  · split
    · exact refl n
    · exact .ite ((takeClear ..).trans (post ..)) (refl n)

theorem labelCheck (cap : Nat) (x : Node × List VoiceSlot) (p : Nat) : Node.Calm x.1 (Node.labelCheck cap x p).1 := by
  unfold Node.labelCheck
  split
  · exact refl _
  · split
    · split
      · exact refl _
      · split
        · exact onPhone ..
        · exact (onPhone ..).trans (.ite (movePhone ..) (refl _))
    · exact refl _

theorem voicePassage (n : Node) (cap : Nat) (v : List VoiceSlot) : Node.Calm n (n.voicePassage cap v).1 := by
  unfold Node.voicePassage
  exact List.foldlRecOn (motive := fun x : Node × List VoiceSlot => Node.Calm n x.1) _ _ (refl n)
    fun x hx p _ => hx.trans (labelCheck cap x p)

theorem callOrphan (n : Node) : Node.Calm n n.callOrphan := by
  refine foldl (fun m p => ?_) _ n
  split
  · exact .ite ((onPhone ..).trans (post ..)) (refl m)
  · exact refl m

theorem callRejoin (n : Node) : Node.Calm n n.callRejoin := by
  refine foldl (fun m p => ?_) _ n
  split
  · exact .ite ((offerRequest ..).trans (startRepeat ..)) (refl m)
  · exact refl m

/-! ## How commands end (R48, R186) -/

theorem offerCmd (n : Node) (m : Message) : Node.Calm n (n.offerCmd m) := by
  have hs : Node.Calm n { n with svc := (n.svc.offerNormal m).1 } := withSvc n ((Svc.Upholds.refl _).offerNormal m)
  unfold Node.offerCmd
  exact .ite hs (hs.trans (onCmd ..))

theorem pushReply (n : Node) (r : Reply) : Node.Calm n (n.pushReply r) := onLink ..

theorem replyTo (n : Node) (o : Origin) (p : Parsed) (st : Status) (v : Value) : Node.Calm n (n.replyTo o p st v) := by
  cases o
  · exact pushReply ..
  · exact offerCmd ..

theorem endCommand (n : Node) (o : Origin) (st : Status) (v : Value) : Node.Calm n (n.endCommand o st v) := by
  unfold Node.endCommand
  split
  · exact refl n
  · exact (onCmd ..).trans (replyTo ..)

/-! ## TRIB (05) and the rules (R158) -/

theorem emptyCommands (n : Node) (d : Nat) : Node.Calm n (n.emptyCommands d) := by
  unfold Node.emptyCommands
  split
  · exact refl n
  · exact (onDevice ..).trans (foldl (fun m w => endCommand ..) _ _)

theorem moveDevice (n : Node) (d : Nat) (old new : DevState) (c : DevCause) (f : Device → Device) :
    Node.Calm n (n.moveDevice d old new c f) := by
  unfold Node.moveDevice
  extract_lets m m' m''
  have hm : Node.Calm n m' := (onDevice ..).trans (post ..)
  have hm'' : Node.Calm n m'' := .ite (hm.trans (onSvc _ ((Svc.Upholds.refl _).closeOpen d .device))) hm
  exact .ite hm'' (hm''.trans (emptyCommands ..))

theorem onRules (n : Node) {f : RuleSt → RuleSt} (h : Svc.Upholds n.svc (f (n.svc, n.rules)).1) :
    Node.Calm n (n.onRules f) :=
  Node.Calm.trans (b := { n with svc := (f (n.svc, n.rules)).1, rules := (f (n.svc, n.rules)).2 }) ⟨h, rfl, rfl⟩
    (onZone _ (Svc.Upholds.handWeather _ _ _ _ (.refl _)))

theorem takeSample (n : Node) (d : Nat) (l : List Quantity) : Node.Calm n (n.takeSample d l) := by
  unfold Node.takeSample
  split
  · exact (onSvc n ((Svc.Upholds.refl _).storeSample _)).trans (onRules _ (Svc.Upholds.evaluateRules _ (.refl _)))
  · exact onSvc n (((Svc.Upholds.refl _).withWx _).loseSample ..)

theorem takeIdentity (n : Node) (d : Nat) (v : Device) (i : Identity) : Node.Calm n (n.takeIdentity d v i) := by
  unfold Node.takeIdentity
  extract_lets old kind isNew m m'
  split
  · exact moveDevice ..
  · have hm : Node.Calm n m := moveDevice ..
    have hm' : Node.Calm n m' := .ite (hm.trans (post ..)) hm
    clear_value m' kind
    cases kind
    case sign => exact (hm'.trans (onZone _ (f := signRejoins d) (Svc.Upholds.signRejoins d (.refl _)))).trans (onDevice ..)
    case toll => exact hm'.trans (onToll _ (Svc.Upholds.joinGantry _ d i _ (.refl _)))
    case unused => exact hm'
    case weather => exact hm'

theorem missAnswered (n : Node) (d : Nat) : Node.Calm n (n.missAnswered d) := by
  unfold Node.missAnswered
  split
  · exact refl n
  · exact .ite (refl n) (.ite ((onDevice ..).trans (moveDevice ..)) (onDevice ..))

theorem missUnanswered (n : Node) (d : Nat) : Node.Calm n (n.missUnanswered d) := by
  unfold Node.missUnanswered
  split
  · exact refl n
  · exact .ite (refl n) (.ite ((onDevice ..).trans (moveDevice ..))
      (.ite ((onDevice ..).trans (moveDevice ..)) (onDevice ..)))

theorem handReply (n : Node) (d : Nat) (v : Device) (e : Exchange) (c : ReplyContent) :
    Node.Calm n (n.handReply d v e c) := by
  unfold Node.handReply
  split
  · exact .ite (refl n) (takeIdentity ..)
  · exact .ite ((onDevice ..).trans (onZone _ (.refl _))) (onDevice ..)
  · split
    · exact onZone _ (Svc.Upholds.loadEnds d _ (.refl _))
    · exact refl n
  · exact onZone _ (Svc.Upholds.loadEnds d _ (.refl _))
  · exact takeSample ..
  · exact refl n
  · split
    · exact onToll _ (Svc.Upholds.takeOffer d _ _ (.refl _))
    · exact refl n

theorem endPoll (n : Node) (d : Nat) (e : Exchange) (st : Status) : Node.Calm n (n.endPoll d e st) := by
  unfold Node.endPoll
  split
  · exact endCommand ..
  · exact refl n

theorem answered (n : Node) (d : Nat) (v : Device) (e : Exchange) (c : ReplyContent) :
    Node.Calm n (n.answered d v e c) := by
  have hr : Node.Calm n ((n.freeLine d).handReply d v e c) := (onDevice ..).trans (handReply ..)
  exact Node.Calm.trans (.ite hr (hr.trans (missAnswered ..))) (endPoll ..)

theorem identifyUnanswered (n : Node) (d : Nat) : Node.Calm n (n.identifyUnanswered d) := by
  unfold Node.identifyUnanswered
  split
  · exact refl n
  · exact .ite (refl n) (.ite ((onDevice ..).trans (onSvc _ ((Svc.Upholds.refl _).closeOpen d .device))) (onDevice ..))

theorem unanswered (n : Node) (d : Nat) (e : Exchange) : Node.Calm n (n.unanswered d e) := by
  have hf : Node.Calm n (n.freeLine d) := onDevice ..
  unfold Node.unanswered
  refine Node.Calm.trans ?_ (endPoll ..)
  split
  · exact hf.trans (identifyUnanswered ..)
  · exact (hf.trans (onZone _ (Svc.Upholds.loadEnds d _ (.refl _)))).trans (missUnanswered ..)
  · exact hf.trans (missUnanswered ..)

theorem abandon (n : Node) (d : Nat) (e : Exchange) : Node.Calm n (n.abandon d e) := by
  have hf : Node.Calm n (n.freeLine d) := onDevice ..
  exact Node.Calm.trans (.ite (hf.trans (onZone _ (Svc.Upholds.loadEnds d _ (.refl _)))) hf) (endPoll ..)

theorem lineReply (n : Node) (l : Nat) (r : LineReply) : Node.Calm n (n.lineReply l r) := by
  unfold Node.lineReply
  dsimp only
  split
  · exact onLine ..
  · refine .ite (onLine ..) ?_
    split
    · exact onLine ..
    · split
      · exact .ite (answered ..) (onLine ..)
      · exact onLine ..

theorem replyTimeout (n : Node) (l : Nat) : Node.Calm n (n.replyTimeout l) := by
  unfold Node.replyTimeout
  split
  · exact refl n
  · split
    · exact refl n
    · split
      · exact refl n
      · exact .ite (refl n) (.ite ((onDevice ..).trans (onLine ..)) ((onLine ..).trans (unanswered ..)))

theorem beginExchange (n : Node) (l d : Nat) (k : ExchKind) (a : Asker) (r : Request) :
    Node.Calm n (n.beginExchange l d k a r) := (onLine ..).trans (onDevice ..)

theorem withZone (n : Node) (z : Zone) : Node.Calm n { n with zone := z } := other rfl rfl

theorem skipRoster (n : Node) (d : Nat) (v : Device) : Node.Calm n (n.skipRoster d v) := by
  refine foldl (fun m e => ?_) _ n
  split
  · exact .ite (onRoster ..) (refl m)
  · exact refl m

theorem lookForWork (n : Node) (d : Nat) : Node.Calm n (n.lookForWork d) := by
  unfold Node.lookForWork
  split
  · exact refl n
  · refine .ite (refl n) ?_
    have hs := skipRoster n d
    dsimp only
    split
    · exact hs _
    · split
      · exact ((hs _).trans (beginExchange ..)).trans (withZone ..)
      · split
        · exact ((hs _).trans (beginExchange ..)).trans (onDevice ..)
        · split
          · exact ((hs _).trans (beginExchange ..)).trans (onRoster ..)
          · split
            · exact ((hs _).trans (beginExchange ..)).trans (onDevice ..)
            · split
              · exact ((hs _).trans (beginExchange ..)).trans (onDevice ..)
              · exact hs _

theorem lookAll (n : Node) : Node.Calm n n.lookAll := foldl lookForWork _ n

theorem restartTarget (n : Node) (d k : Nat) : Node.Calm n (n.restartTarget d k) := by
  unfold Node.restartTarget
  split
  · exact refl n
  · split
    · exact refl n
    · exact refl n
    · exact onDevice ..
    · exact moveDevice ..

theorem firePulse (n : Node) (x : Nat) (c : FireCause) : Node.Calm n (n.firePulse x c) := by
  unfold Node.firePulse
  split
  · exact refl n
  · dsimp only
    split
    · exact (onOutput ..).trans (post ..)
    · exact ((onOutput ..).trans (post ..)).trans (restartTarget ..)

theorem evaluateOutput (n : Node) (x : Nat) : Node.Calm n (n.evaluateOutput x) := by
  unfold Node.evaluateOutput
  split
  · split
    · exact .ite (firePulse ..) (onOutput ..)
    · exact onOutput ..
    · exact onOutput ..
    · exact refl n
  · exact refl n

theorem evaluateOutputs (n : Node) : Node.Calm n n.evaluateOutputs :=
  .ite (foldl (fun m _ => foldl evaluateOutput _ m) _ n) (refl n)

theorem rosterDue (n : Node) (e : Nat) : Node.Calm n (n.rosterDue e) := by
  unfold Node.rosterDue
  split
  · exact .ite (onRoster ..) (refl n)
  · exact refl n

theorem rosterSweep (n : Node) : Node.Calm n n.rosterSweep := by
  refine foldl (fun m e => ?_) _ n
  split
  · exact onRoster ..
  · exact refl m

theorem writeRoster (n : Node) (e : Nat) (r : Option RosterSpec) : Node.Calm n (n.writeRoster e r) :=
  (onSettings n rfl).trans (onRoster ..)

theorem rosterSet (n : Node) (e : Nat) (a : RosterArg) : Node.Calm n (n.rosterSet e a).1 := by
  unfold Node.rosterSet
  refine .fst_ite (refl n) ?_
  split
  · exact writeRoster ..
  · exact refl n
  · exact .fst_ite (writeRoster ..) (refl n)

theorem detachElsewhere (n : Node) (d : Nat) (a b : DeviceKind) : Node.Calm n (n.detachElsewhere d a b) := by
  unfold Node.detachElsewhere
  extract_lets m m'
  have hm : Node.Calm n m :=
    .ite (.ite (onZone n (.refl _)) (onZone n (Svc.Upholds.removeSign d (.refl _)))) (.ite (onZone n (.refl _)) (refl n))
  have hm' : Node.Calm n m' := hm.trans (onToll _ (Svc.Upholds.unbindDevice _ d (.refl _)))
  exact .ite ((hm'.trans (onSvc _ ((Svc.Upholds.refl _).withWx _))).trans
    (onRules _ (Svc.Upholds.clearRulesOf d (.refl _)))) hm'

theorem detach (n : Node) (d : Nat) (k : DeviceKind) (c : DevCause) : Node.Calm n (n.detach d k c) := by
  unfold Node.detach
  split
  · exact refl n
  · refine (Node.Calm.trans (Node.Calm.trans ?_ (emptyCommands ..)) (moveDevice ..)).trans (detachElsewhere ..)
    split
    · exact abandon ..
    · exact refl n

theorem detachChanged (n : Node) (old : Settings) : Node.Calm n (n.detachChanged old) :=
  foldl (fun m _ => .ite (detach ..) (.ite (detach ..) (refl m))) _ n

theorem lineReset (n : Node) (l : Nat) : Node.Calm n (n.lineReset l).1 := by
  unfold Node.lineReset
  refine .fst_ite (refl n) ?_
  split
  · exact refl n
  · exact detach ..

theorem holdExpires (n : Node) (x : Nat) : Node.Calm n (n.holdExpires x) := by
  unfold Node.holdExpires
  split
  · exact refl n
  · exact .ite (firePulse ..) (refl n)

theorem restartEnds (n : Node) (d : Nat) : Node.Calm n (n.restartEnds d) := by
  unfold Node.restartEnds
  split
  · exact refl n
  · exact .ite (moveDevice ..) (refl n)

theorem restartPulse (n : Node) (x : Nat) : Node.Calm n (n.restartPulse x).1 := by
  unfold Node.restartPulse
  refine .fst_ite (refl n) ?_
  split
  · exact refl n
  · exact .fst_ite (refl n) (firePulse ..)

theorem timeInput (n : Node) (i : Nat) : Node.Calm n (n.timeInput i) := by
  unfold Node.timeInput
  split
  · exact onTrib ..
  · exact refl n

theorem inputSettled (n : Node) (i : Nat) : Node.Calm n (n.inputSettled i) := by
  unfold Node.inputSettled
  split
  · exact .ite (.ite ((onTrib ..).trans (post ..)) (onTrib ..)) (refl n)
  · exact refl n

theorem devicePoll (n : Node) (o : Origin) (d : Nat) (k : Option PollKind) : Node.Calm n (n.devicePoll o d k).1 := by
  unfold Node.devicePoll
  split
  · exact refl n
  · refine .fst_ite (refl n) ?_
    split
    · exact refl n
    · exact .fst_ite (onDevice ..) (refl n)

/-! ## The release unit and ZONE's commands (R74 to R98) -/

theorem pulseBeacons (n : Node) : Node.Calm n n.pulseBeacons := by
  unfold Node.pulseBeacons
  exact foldl (fun _ _ => withZone ..) _ n

theorem performRelease (n : Node) (tag : Nat) (forced : Bool) : Node.Calm n (n.performRelease tag forced) := by
  have hx := Svc.Upholds.applyStaged tag (x := (n.svc, n.zone)) (.refl n.svc)
  unfold Node.performRelease
  generalize applyStaged tag (n.svc, n.zone) = x at hx ⊢
  extract_lets acts y m0 m1 m2 m3 m4
  have h1 : Node.Calm n m1 := .fst_ite ⟨hx, rfl, rfl⟩ (refl n)
  have h2 : Node.Calm n m2 := .ite (h1.trans (pulseBeacons ..)) h1
  have h3 : Node.Calm n m3 := .ite (h2.trans (rosterSweep ..)) h2
  have h4 : Node.Calm n m4 := .ite (h3.trans (post ..)) h3
  exact h4.trans (withZone ..)

end Node.Calm

end Sys2Proof.Machine


/-! SUPPORT. The calm operations of ZONE, COLL and of RING at either role: they uphold the node's services and leave the
call table and the wait queue alone (R1 to R29, R74 to R98, R161 to R175). -/

namespace Sys2Proof.Machine

namespace Node.Calm

/-! ## ZONE's commands and the release unit -/

theorem receiveTag (n : Node) (tag : Nat) : Node.Calm n (n.receiveTag tag) := by
  unfold Node.receiveTag
  extract_lets z m p
  have hm : Node.Calm n m := by
    unfold m
    split
    · exact (withZone ..).trans (performRelease ..)
    · exact refl n
  exact .ite (hm.trans (performRelease ..)) (hm.trans (withZone ..))

theorem releaseDue (n : Node) : Node.Calm n n.releaseDue := by
  unfold Node.releaseDue
  split
  · exact refl n
  · exact .ite ((withZone ..).trans (performRelease ..)) (refl n)

theorem zoneStart (n : Node) (z : Nat) : Node.Calm n (n.zoneStart z).1 :=
  .fst_ite (refl n) (onZone _ (Svc.Upholds.addCause z _ (.refl _)))

theorem zoneClear (n : Node) (z : Nat) (l : List (Option Cause)) : Node.Calm n (n.zoneClear z l).1 :=
  .fst_ite (refl n) (foldl (fun _ c => onZone _ (Svc.Upholds.removeCause z c (.refl _))) _ n)

theorem signCommand {n : Node} (d : Nat) {act : Sign → Node × Status × Value} (h : ∀ g, Node.Calm n (act g).1) :
    Node.Calm n (n.signCommand d act).1 := by
  unfold Node.signCommand
  refine .fst_ite (refl n) ?_
  split
  · exact refl n
  · exact h _

theorem withSignBuffer (n : Node) (bad : Prop) [Decidable bad] {f : ZoneSt → ZoneSt} (v : Zone → Value)
    (h : ∀ x : ZoneSt, Svc.Upholds x.1 (f x).1) : Node.Calm n (n.withSignBuffer bad f v).1 := by
  have hr := (Svc.Upholds.refl n.svc).requestBuffers .sign 1
  unfold Node.withSignBuffer
  refine .fst_ite (refl n) ?_
  generalize n.svc.requestBuffers .sign 1 = r at hr ⊢
  obtain ⟨s, _ | r⟩ := r
  · exact (withSvc n hr).trans (onZone _ (h (s, n.zone)))
  · exact withSvc n hr

theorem signShow (n : Node) (d : Nat) (p : Page) : Node.Calm n (n.signShow d p).1 := by
  rw [Node.signShow_eq]
  exact signCommand d fun _ => withSignBuffer n _ _ fun _ => Svc.Upholds.showPage d p (.refl _)

theorem signStage (n : Node) (d : Nat) (p : Page) (tag : Nat) : Node.Calm n (n.signStage d p tag).1 := by
  rw [Node.signStage_eq]
  exact signCommand d fun _ => withSignBuffer n _ (fun _ => .nil) fun _ => Svc.Upholds.setStaged d _ (.refl _)

theorem signUnstage (n : Node) (d : Nat) : Node.Calm n (n.signUnstage d).1 :=
  signCommand d fun _ => onZone n (Svc.Upholds.setStaged d none (.refl _))

theorem beaconSingle (n : Node) (b on off : Nat) : Node.Calm n (n.beaconSingle b on off).1 :=
  .fst_ite (refl n) (withZone ..)

theorem beaconCancel (n : Node) (b : Nat) : Node.Calm n (n.beaconCancel b).1 :=
  .fst_ite (refl n) (.ite (onZone n (.refl _)) (refl n))

/-! ## COLL at a wayside (R166 to R174) -/

theorem tryEntry (n : Node) (e : HeldEntry) : Node.Calm n (n.tryEntry e).1 := by
  cases e with
  | msg k m => exact withSvc n ((Svc.Upholds.refl _).offerNormal m)
  | batch k b => exact withSvc n ((Svc.Upholds.refl _).offerPlaceholder k b)

theorem offerEntry (n : Node) (e : HeldEntry) : Node.Calm n (n.offerEntry e) :=
  .ite (.ite (tryEntry ..) ((tryEntry ..).trans (onColl ..))) (onColl ..)

theorem retryHeldW (l : List HeldEntry) (n : Node) : Node.Calm n (Node.retryHeldW l n) := by
  induction l generalizing n with
  | nil => exact refl n
  | cons e l ih => exact .ite (((tryEntry ..).trans (onColl ..)).trans (ih _)) (tryEntry ..)

theorem withdrawPlaceholder (n : Node) (k : CollKind) : Node.Calm n (n.withdrawPlaceholder k) := by
  unfold Node.withdrawPlaceholder
  split
  · exact refl n
  · exact .ite (onSvc n ((Svc.Upholds.refl _).markLeaving _)) (onSvc n ((Svc.Upholds.refl _).dropEntry _))

theorem forgetBatch (n : Node) (k : CollKind) : Node.Calm n (n.forgetBatch k) := by
  unfold Node.forgetBatch
  split
  · exact refl n
  · exact (((onColl ..).trans (onSvc _ ((Svc.Upholds.refl _).withdrawNormal _))).trans
      (withdrawPlaceholder ..)).trans (onColl ..)

theorem cancelLoans (n : Node) (k : CollKind) : Node.Calm n (n.cancelLoans k) := by
  cases k with
  | toll => exact other rfl rfl
  | weather => exact ⟨(Svc.Upholds.refl _).withWx _, rfl, rfl⟩

theorem selectItems (n : Node) (k : CollKind) (batch max : Nat) : Node.Calm n (n.selectItems k batch max).1 := by
  cases k with
  | toll => exact other rfl rfl
  | weather => exact ⟨(Svc.Upholds.refl _).withWx _, rfl, rfl⟩

theorem takeAsk (n : Node) (batch : Nat) (k : CollKind) (max : Nat) : Node.Calm n (n.takeAsk batch k max) := by
  unfold Node.takeAsk
  extract_lets m r items m' msg m1 m2
  have hm : Node.Calm n m := (forgetBatch ..).trans (cancelLoans ..)
  have hm' : Node.Calm n m' := (hm.trans (selectItems ..)).trans (onColl ..)
  exact ((hm'.trans (offerEntry ..)).trans (offerEntry ..)).trans (offerEntry ..)

theorem takeAck (n : Node) (l : AckList) : Node.Calm n (n.takeAck l) := by
  unfold Node.takeAck
  split
  case h_1 ps =>
    have h := Svc.Upholds.ackPairs n.trib.devices ps (x := (n.svc, n.toll)) (.refl n.svc)
    generalize Machine.ackPairs n.trib.devices ps (n.svc, n.toll) = r at h ⊢
    exact ⟨h, rfl, rfl⟩
  case h_2 ks => exact ⟨(Svc.Upholds.refl _).ackSegments ks, rfl, rfl⟩

/-! ## COLL at the head-end (R161 to R173) -/

theorem offerColl (n : Node) (m : Message) : Node.Calm n (n.offerColl m) :=
  have hs : Node.Calm n { n with svc := (n.svc.offerNormal m).1 } := withSvc n ((Svc.Upholds.refl _).offerNormal m)
  .ite (.ite hs (hs.trans (onColl ..))) (onColl ..)

theorem retryHeldH (l : List Message) (n : Node) : Node.Calm n (Node.retryHeldH l n) := by
  induction l generalizing n with
  | nil => exact refl n
  | cons m l ih =>
    have hs : Node.Calm n { n with svc := (n.svc.offerNormal m).1 } := withSvc n ((Svc.Upholds.refl _).offerNormal m)
    exact .ite ((hs.trans (onColl ..)).trans (ih _)) hs

theorem removeAsk (n : Node) (b : Nat) : Node.Calm n (n.removeAsk b) := by
  unfold Node.removeAsk
  exact (onColl ..).trans (onSvc _ ((Svc.Upholds.refl _).withdrawNormal _))

theorem endBatch (n : Node) (e : BatchEntry) (c : BatchCause) : Node.Calm n (n.endBatch e c) := by
  unfold Node.endBatch
  exact (Node.Calm.ite (refl n) (removeAsk ..)).trans (onColl ..)

theorem checkComplete (n : Node) (b : Nat) : Node.Calm n (n.checkComplete b) := by
  unfold Node.checkComplete
  split
  · exact refl n
  · exact .ite (endBatch ..) (refl n)

theorem takeBatchMessage (n : Node) (source batch : Nat) (k : CollKind) (count : Nat)
    {act : BatchEntry → Node → Node} (h : ∀ e m, Node.Calm m (act e m)) :
    Node.Calm n (n.takeBatchMessage source batch k count act) := by
  unfold Node.takeBatchMessage
  split
  · exact onColl ..
  · exact ((onColl ..).trans (h _ _)).trans (checkComplete ..)

theorem takeItem (index count : Nat) (i : Item) (e : BatchEntry) (n : Node) :
    Node.Calm n (Node.takeItem index count i e n) :=
  .ite (onColl ..) (.ite (onColl ..) (endBatch ..))

theorem takeEnd (e : BatchEntry) (n : Node) : Node.Calm n (Node.takeEnd e n) := onColl ..

theorem collect (n : Node) (station : Nat) (kind : Option CollKind) (max : Nat) :
    Node.Calm n (n.collect station kind max).1 := by
  unfold Node.collect
  split
  · exact refl n
  · refine .fst_ite (refl n) (.fst_ite (refl n) (.fst_ite (refl n) ?_))
    exact .fst_ite ((onColl ..).trans (offerColl ..)) (refl n)

theorem collectConfirm (n : Node) (b : Nat) : Node.Calm n (n.collectConfirm b).1 := by
  unfold Node.collectConfirm
  split
  · exact refl n
  · refine .fst_ite (refl n) ?_
    dsimp only
    exact (Node.Calm.ite (offerColl ..) (refl n)).trans (onColl ..)

theorem collectDrop (n : Node) (b : Nat) : Node.Calm n (n.collectDrop b).1 := by
  unfold Node.collectDrop
  split
  · exact refl n
  · dsimp only
    exact onColl ..

end Node.Calm

end Sys2Proof.Machine


/-! SUPPORT. The calm operations of LINK and of RING at either role (R1 to R29). -/

namespace Sys2Proof.Machine

/-- R50: reading the voice slots leaves the call table and the wait queue alone. -/
theorem Call.readSlots_calls (c : Call) (now : Nat) (v : List VoiceSlot) :
    (c.readSlots now v).table = c.table ∧ (c.readSlots now v).waiting = c.waiting := by
  unfold Call.readSlots
  refine List.foldlRecOn (motive := fun b : Call => b.table = c.table ∧ b.waiting = c.waiting) _ _ ⟨rfl, rfl⟩ ?_
  intro b hb e _
  split
  · split
    · exact hb
    · exact hb
  · exact hb

namespace Node.Calm

theorem withPorts (n : Node) (e w : Port) : Node.Calm n { n with east := e, west := w } := other rfl rfl
theorem withHead (n : Node) (h : Head) : Node.Calm n { n with head := h } := other rfl rfl
theorem withRing (n : Node) (r : Ring) : Node.Calm n { n with ring := r } := other rfl rfl
theorem onWin (n : Node) (f : Win → Win) : Node.Calm n (n.onWin f) := other rfl rfl
theorem onLoop (n : Node) (l : Loop) (f : LoopSt → LoopSt) : Node.Calm n (n.onLoop l f) := other rfl rfl

/-! ## Node time (R4, R20, R21) -/

theorem setTime (n : Node) (t : NodeTime) : Node.Calm n (n.setTime t) := by
  unfold Node.setTime
  have hs : Node.Calm n (n.onSvc fun s => { s with time := t }) := onSvc n ((Svc.Upholds.refl _).of_eq rfl rfl rfl)
  exact .ite (hs.trans (withPorts ..)) hs

theorem passPeriod (n : Node) : Node.Calm n n.passPeriod := by
  unfold Node.passPeriod
  have hs : Node.Calm n (n.onSvc fun s => { s with now := s.now + 1 }) :=
    onSvc n ((Svc.Upholds.refl _).of_eq rfl rfl rfl)
  exact (hs.trans (withPorts ..)).trans (setTime ..)

/-! ## Port states (R5 to R17) -/

theorem originWest (n : Node) : Node.Calm n n.originWest := other rfl rfl

theorem originEast (n : Node) : Node.Calm n n.originEast :=
  .ite ((withHead ..).trans (of_win (.restartLoss ..))) (withHead ..)

theorem headPort (n : Node) (p : PortId) (run : Bool) : Node.Calm n (n.headPort p run) := by
  unfold Node.headPort
  split
  · exact originWest ..
  · exact withHead ..
  · exact withHead ..
  · exact refl n

theorem setAttach (n : Node) (new : Attach) : Node.Calm n (n.setAttach new) := by
  unfold Node.setAttach
  extract_lets old r m1 m2 p q m3 m4 r' m5 m6
  have h2 : Node.Calm n m2 := (withRing ..).trans (post ..)
  have h4 : Node.Calm n m4 := (h2.trans (withPorts ..)).trans (onWin ..)
  have h6 : Node.Calm n m6 :=
    (h4.trans (withRing ..)).trans (onSvc _ ((Svc.Upholds.refl _).of_eq rfl rfl rfl))
  refine .ite ?_ (.ite (h4.trans (callRejoin ..)) h4)
  exact ((h6.trans (of_win (.loopEnds ..))).trans (of_win (.loopEnds ..))).trans (callOrphan ..)

theorem openOut (n : Node) : Node.Calm n n.openOut := (withRing ..).trans (setAttach ..)

theorem failedPort (n : Node) (run : Bool) : Node.Calm n (n.failedPort run) := .ite (withRing ..) (withRing ..)

theorem goodPortLost (n : Node) (p : PortId) : Node.Calm n (n.goodPortLost p) :=
  .ite ((withRing ..).trans (setAttach ..)) (setAttach ..)

theorem waysidePort (n : Node) (p : PortId) (run : Bool) : Node.Calm n (n.waysidePort p run) := by
  unfold Node.waysidePort
  split
  · exact .ite (refl n) (setAttach ..)
  · split
    · exact failedPort ..
    · exact .ite (refl n) (goodPortLost ..)
  · split
    · exact failedPort ..
    · exact .ite (refl n) (goodPortLost ..)
  · exact .ite (setAttach ..) (refl n)

theorem changePort (n : Node) (p : PortId) (new : PortState) (c : PortCause) : Node.Calm n (n.changePort p new c) := by
  unfold Node.changePort
  extract_lets old m1 m2 wasRun isRun
  have h2 : Node.Calm n m2 := .ite (onPort ..) ((onPort ..).trans (post ..))
  exact .ite h2 (.ite (h2.trans (headPort ..)) (h2.trans (waysidePort ..)))

theorem seeLight (n : Node) (p : PortId) : Node.Calm n (n.seeLight p) := .ite (changePort ..) (refl n)

theorem loseLight (n : Node) (p : PortId) : Node.Calm n (n.loseLight p) := .ite (changePort ..) (refl n)

theorem learnPartner (n : Node) (p : PortId) (b : Probe) : Node.Calm n (n.learnPartner p b) :=
  .ite (((onPort ..).trans (onPort ..)).trans (post ..)) (onPort ..)

theorem probe (n : Node) (p : PortId) (b : Probe) : Node.Calm n (n.probe p b) := by
  have entered : Node.Calm n ((n.changePort p .probeEcho .probeSeen).learnPartner p b) :=
    (changePort ..).trans (learnPartner ..)
  unfold Node.probe
  split
  · exact .ite (entered.trans (changePort ..)) entered
  · exact .ite (.ite (refl n) (.ite ((onPort ..).trans (changePort ..)) (onPort ..))) (.ite (changePort ..) (refl n))
  · exact entered
  · exact entered
  · exact entered
  · exact refl n

theorem partnerMovedOn (n : Node) (p : PortId) : Node.Calm n (n.partnerMovedOn p) := .ite (changePort ..) (refl n)

theorem judgePort (n : Node) (p : PortId) (errors : Nat) : Node.Calm n (n.judgePort p errors) := by
  unfold Node.judgePort
  dsimp only
  split
  · exact .ite (changePort ..) (refl n)
  · exact .ite (changePort ..) (refl n)
  · exact .ite (changePort ..) (.ite (changePort ..) (refl n))
  · exact refl n

theorem classify (n : Node) (p : PortId) (good : Bool) (errors : Nat) : Node.Calm n (n.classify p good errors) :=
  (onPort ..).trans (judgePort ..)

theorem markerMissing (n : Node) (p : PortId) (errors : Nat) : Node.Calm n (n.markerMissing p errors) :=
  (onPort ..).trans (judgePort ..)

theorem recoverExpired (n : Node) (p : PortId) : Node.Calm n (n.recoverExpired p) := .ite (changePort ..) (refl n)

/-! ## The passage of a cycle through a wayside (R3, R13, R15) -/

theorem answerSurvey (fold : Nat) (x : Node × List (Option Slot)) (k : Nat) :
    Node.Calm x.1 (Node.answerSurvey fold x k).1 :=
  .fst_ite (refl _) (.fst_ite (withRing ..) (.fst_ite (withRing ..) (refl _)))

theorem answerSurveys (n : Node) (fold : Nat) (data : List (Option Slot)) :
    Node.Calm n (n.answerSurveys fold data).1 := by
  unfold Node.answerSurveys
  refine List.foldlRecOn (motive := fun x : Node × List (Option Slot) => Node.Calm n x.1) _ _ (refl n) ?_
  exact fun x hx k _ => hx.trans (answerSurvey ..)

theorem winPassage (n : Node) (c : Cycle) (k : Content) : Node.Calm n (n.winPassage c k).1 := by
  unfold Node.winPassage
  exact (((of_win (.takeData ..)).trans (answerSurveys ..)).trans (of_win (.mgmtPassage ..))).trans
    (of_win (.placeData ..))

theorem passage (n : Node) (c : Cycle) (k : Content) : Node.Calm n (n.passage c k).1 := by
  unfold Node.passage
  split
  · extract_lets m x v m'
    have hx : Node.Calm n x.1 := (withRing n (n.ring.remember c)).trans (winPassage m c k)
    have hv : Node.Calm n v.1 := .fst_ite hx (hx.trans (voicePassage ..))
    have hm : Node.Calm n m' := by
      unfold m'
      split
      · exact hv.trans (receiveTag ..)
      · exact hv
    split
    · exact hx
    · exact hm
  · exact (of_win (.takeData ..)).trans (onLoop ..)

theorem passCycle (n : Node) (c : Cycle) : Node.Calm n (n.passCycle c).1 := by
  unfold Node.passCycle
  split
  · exact refl n
  · exact passage ..

theorem direct (n : Node) (p : PortId) (c : Cycle) : Node.Calm n (n.direct p c) := onPort ..

theorem turn (n : Node) (p : PortId) (c : Cycle) : Node.Calm n (n.turn p c) := by
  unfold Node.turn
  exact ((passCycle ..).trans (direct ..)).trans (direct ..)

theorem relay (n : Node) (p : PortId) (c : Cycle) : Node.Calm n (n.relay p c) := by
  unfold Node.relay
  exact .ite ((passCycle ..).trans (direct ..)) (refl n)

theorem earlyEnd (n : Node) (c : Cycle) : Node.Calm n (n.earlyEnd c) := .ite (openOut ..) (refl n)

theorem directArrival (n : Node) (p : PortId) (c : Cycle) : Node.Calm n (n.directArrival p c) := by
  unfold Node.directArrival
  split
  · exact relay ..
  · exact relay ..
  · exact turn ..
  · exact earlyEnd ..
  · exact turn ..
  · exact earlyEnd ..

theorem adoptTime (n : Node) (m : Marker) : Node.Calm n (n.adoptTime m) := by
  unfold Node.adoptTime
  exact (setTime ..).trans (withRing ..)

theorem arrives (n : Node) (p : PortId) (c : Cycle) (good : Bool) (errors : Nat) :
    Node.Calm n (n.arrives p c good errors) := by
  unfold Node.arrives
  refine Node.Calm.trans (.ite ?_ (refl n)) (classify ..)
  exact (Node.Calm.ite (adoptTime ..) (refl n)).trans (directArrival ..)

theorem noGoodMarker (n : Node) : Node.Calm n n.noGoodMarker := .ite (setAttach ..) (refl n)

theorem restoreExpires (n : Node) : Node.Calm n n.restoreExpires := .ite (openOut ..) (refl n)

theorem loopCeases (n : Node) (l : Loop) : Node.Calm n (n.loopCeases l) := .ite (of_win (.loopEnds ..)) (refl n)

/-! ## Port commands (R12) -/

theorem portEnable (n : Node) (a : Nat) : Node.Calm n (n.portEnable a).1 := by
  unfold Node.portEnable
  split
  · exact refl n
  · exact .fst_ite ((changePort ..).trans (seeLight ..)) (refl n)

theorem portDisable (n : Node) (a : Nat) : Node.Calm n (n.portDisable a).1 := by
  unfold Node.portDisable
  split
  · exact refl n
  · exact .fst_ite (refl n) (changePort ..)

theorem portReset (n : Node) (a : Nat) : Node.Calm n (n.portReset a).1 := by
  unfold Node.portReset
  split
  · exact refl n
  · refine .fst_ite (refl n) ?_
    dsimp only
    exact (changePort ..).trans (onPort ..)

theorem portLoopback (n : Node) (a : Nat) : Node.Calm n (n.portLoopback a).1 := by
  unfold Node.portLoopback
  split
  · exact refl n
  · split
    · exact refl n
    · exact refl n
    · exact changePort ..

/-! ## Surveys and the station map (R22 to R26) -/

theorem startSurvey (n : Node) : Node.Calm n n.startSurvey := other rfl rfl

theorem placeEntry (n : Node) (e : MapEntry) (c : NoticeCode) : Node.Calm n (n.placeEntry e c) := by
  unfold Node.placeEntry
  refine .ite ((onHead ..).trans (post ..)) (.ite ((onHead ..).trans (post ..)) ?_)
  split
  · exact (onHead ..).trans (post ..)
  · exact post ..

theorem surveyEntry (sv : Survey) (n : Node) (x : Nat × SurveyEntry) : Node.Calm n (Node.surveyEntry sv n x) := by
  unfold Node.surveyEntry
  exact .ite (.ite (placeEntry ..) (onHead ..)) (.ite (onHead ..) (placeEntry ..))

theorem loseStation (sv : Survey) (n : Node) (e : MapEntry) : Node.Calm n (Node.loseStation sv n e) := by
  unfold Node.loseStation
  exact .ite (refl n) (.ite ((onHead ..).trans (post ..)) (onHead ..))

theorem endSurvey (n : Node) (sv : Survey) : Node.Calm n (n.endSurvey sv) := by
  unfold Node.endSurvey
  extract_lets m1 m2 m3 m4 present
  have h1 : Node.Calm n m1 := onHead ..
  have h2 : Node.Calm n m2 := h1.trans (foldl (loseStation sv) _ _)
  have h3 : Node.Calm n m3 := h2.trans (foldl (surveyEntry sv) _ _)
  have h4 : Node.Calm n m4 := .ite (h3.trans (post ..)) h3
  exact h4.trans (post ..)

theorem gatherSurvey (n : Node) (s : Slot) : Node.Calm n (n.gatherSurvey s) := by
  unfold Node.gatherSurvey
  split
  · exact .ite (.ite (endSurvey ..) (onHead ..)) (refl n)
  · exact refl n

theorem surveyTimeout (n : Node) : Node.Calm n n.surveyTimeout := by
  unfold Node.surveyTimeout
  split
  · exact refl n
  · exact .ite (refl n) (.ite ((endSurvey ..).trans (startSurvey ..)) (startSurvey ..))

/-! ## The ring state and returns (R18, R19) -/

theorem setRing (n : Node) (new : RingState) : Node.Calm n (n.setRing new) := by
  unfold Node.setRing
  extract_lets old m1 m2 m3 m4 m5 m6
  have h3 : Node.Calm n m3 := ((onHead ..).trans (post ..)).trans (onWin ..)
  have h4 : Node.Calm n m4 := .ite (h3.trans (of_win (.endInner ..))) h3
  have h5 : Node.Calm n m5 := .ite (h4.trans (onLoop ..)) (.ite (h4.trans (of_win (.restartLoss ..))) h4)
  have h6 : Node.Calm n m6 := .ite (h5.trans (of_win (.beginLoop ..))) h5
  exact h6.trans (startSurvey ..)

theorem foldedReturn (n : Node) : Node.Calm n n.foldedReturn := by
  unfold Node.foldedReturn
  exact .ite (onHead ..) ((onHead ..).trans (setRing ..))

theorem unfoldedReturn (n : Node) : Node.Calm n n.unfoldedReturn := by
  unfold Node.unfoldedReturn
  exact .ite ((onHead ..).trans (setRing ..)) (onHead ..)

theorem returnTimeout (n : Node) : Node.Calm n n.returnTimeout := by
  unfold Node.returnTimeout
  exact .ite (.ite (onHead ..) ((onHead ..).trans (setRing ..))) (refl n)

theorem readSlots (n : Node) (now : Nat) (v : List VoiceSlot) : Node.Calm n (n.onCall fun t => t.readSlots now v) :=
  onCall n (n.call.readSlots_calls now v).1 (n.call.readSlots_calls now v).2

theorem strip (n : Node) (p : PortId) (c : Cycle) (k : Content) : Node.Calm n (n.strip p c k) := by
  unfold Node.strip
  extract_lets x m m'
  have hm : Node.Calm n m := (of_win (.stripData ..)).trans (foldl gatherSurvey _ _)
  have hm' : Node.Calm n m' := hm.trans (of_win (.stripMgmt ..))
  split
  · exact hm'
  · exact hm'
  · exact hm'.trans (readSlots ..)

theorem relayReturn (n : Node) (c : Cycle) (k : Content) : Node.Calm n (n.relayReturn c k) := by
  unfold Node.relayReturn
  exact (of_win (.takeData ..)).trans (direct ..)

theorem headEarlyEnd (n : Node) : Node.Calm n n.headEarlyEnd := .ite (originEast ..) (refl n)

theorem fullReturn (n : Node) (p : PortId) (c : Cycle) (k : Content) : Node.Calm n (n.fullReturn p c k) := by
  unfold Node.fullReturn
  extract_lets m m'
  have hm : Node.Calm n m := onHead ..
  have stripped (q : PortId) : Node.Calm n (m.strip q c k) := hm.trans (strip ..)
  split
  · exact .ite ((stripped _).trans (unfoldedReturn ..)) ((stripped _).trans (foldedReturn ..))
  · exact (stripped _).trans (headEarlyEnd ..)
  · exact .ite (stripped _) (.ite ((hm.trans (relayReturn ..)).trans (foldedReturn ..))
      ((stripped _).trans (foldedReturn ..)))

theorem returns (n : Node) (p : PortId) (c : Cycle) (good : Bool) (errors : Nat) :
    Node.Calm n (n.returns p c good errors) := by
  unfold Node.returns
  refine Node.Calm.trans (.ite ?_ (refl n)) (classify ..)
  split
  · exact refl n
  · exact fullReturn ..

theorem headRestoreExpires (n : Node) : Node.Calm n n.headRestoreExpires := .ite (originEast ..) (refl n)

/-! ## Origination (R1, R17, R90) -/

theorem releaseWritten (n : Node) : Node.Calm n n.releaseWritten := by
  unfold Node.releaseWritten
  split
  · exact refl n
  · dsimp only
    split
    · exact (onHead ..).trans (endCommand ..)
    · exact onHead ..

theorem sendBare (n : Node) (c : Cycle) : Node.Calm n (n.sendBare c) := .ite (direct ..) (refl n)

theorem originateOuter (n : Node) : Node.Calm n n.originateOuter := by
  unfold Node.originateOuter
  extract_lets west cap marker voice w c m
  have hm : Node.Calm n m := (of_win (.originateWindow ..)).trans (releaseWritten ..)
  exact .ite ((hm.trans (direct ..)).trans (sendBare ..)) (hm.trans (direct ..))

theorem originateInner (n : Node) : Node.Calm n n.originateInner := by
  unfold Node.originateInner
  exact .ite ((of_win (.originateWindow ..)).trans (direct ..)) (refl n)

theorem originate (n : Node) : Node.Calm n n.originate := by
  unfold Node.originate
  extract_lets m1 m2
  have hm : Node.Calm n m2 := (passPeriod ..).trans (onHead ..)
  exact .ite ((hm.trans (originateOuter ..)).trans (originateInner ..)) hm

theorem timeSet (n : Node) (seconds : Nat) : Node.Calm n (n.timeSet seconds).1 := .fst_ite (refl n) (setTime ..)

end Node.Calm

end Sys2Proof.Machine


/-! SUPPORT. The calm operations of the host link, NOTE's commands, forwarding and the end of a step (R31, R47 to R49,
R177 to R188). -/

namespace Sys2Proof.Machine

namespace Node.Calm

/-- A change of the notices that keeps their law. -/
theorem onNote (n : Node) {f : Note → Note} (h : NotesOk n.svc.note → NotesOk (f n.svc.note)) :
    Node.Calm n (n.onSvc fun s => { s with note := f s.note }) := onSvc n ((Svc.Upholds.refl _).withNote h)

theorem onNoteQueue (n : Node) {f : Note → Note} (h : (f n.svc.note).queue = n.svc.note.queue) :
    Node.Calm n (n.onSvc fun s => { s with note := f s.note }) := onNote n fun hn => hn.of_queue h

/-! ## The host link (R184, R185) -/

theorem takeNotice (n : Node) (e : Notice) : Node.Calm n (n.takeNotice e) := by
  unfold Node.takeNotice
  have hs : Node.Calm n
      (n.onSvc fun s => { s with note := { s.note with queue := serveHost 1 s.note.queue }.setAttention }) :=
    onNote n (f := fun t => { t with queue := serveHost 1 t.queue }.setAttention)
      fun hn => hn.served (k := 1) (by rw [Note.setAttention_queue])
  exact hs.trans (other rfl rfl)

theorem takeDataFrame (n : Node) (f : DataFrame) : Node.Calm n (n.takeDataFrame f) := other rfl rfl

theorem sendOther (n : Node) : Node.Calm n n.sendOther := by
  unfold Node.sendOther
  split
  · exact refl n
  · exact takeNotice ..
  · exact takeDataFrame ..
  · exact .ite (takeNotice ..) (takeDataFrame ..)

theorem sendNext (n : Node) : Node.Calm n n.sendNext := by
  unfold Node.sendNext
  refine .ite (refl n) ?_
  split
  · exact sendOther ..
  · exact .ite (refl n) (onLink ..)

theorem frameSent (n : Node) : Node.Calm n n.frameSent := by
  unfold Node.frameSent
  split
  · exact refl n
  · dsimp only
    split
    · exact .ite (other rfl rfl) (onLink ..)
    · exact onLink ..
    · exact other rfl rfl

theorem discardFrame (n : Node) : Node.Calm n n.discardFrame := other rfl rfl

theorem frameGap (n : Node) : Node.Calm n n.frameGap := .ite (discardFrame ..) (refl n)

/-! ## The maintenance hold and NOTE's commands (R177 to R183, R187, R188) -/

theorem restartLapse (n : Node) : Node.Calm n n.restartLapse := .ite (onCmd ..) (refl n)

theorem maintHold (n : Node) : Node.Calm n n.maintHold.1 := .fst_ite (restartLapse ..) ((onCmd ..).trans (post ..))

theorem maintEnd (n : Node) : Node.Calm n n.maintEnd.1 := .fst_ite ((onCmd ..).trans (post ..)) (refl n)

theorem holdLapses (n : Node) : Node.Calm n n.holdLapses := .ite ((onCmd ..).trans (post ..)) (refl n)

theorem holdReleaseAsk (n : Node) : Node.Calm n n.holdReleaseAsk.1 := by
  unfold Node.holdReleaseAsk
  exact .ite (post ..) (refl n)

theorem noticeRead (n : Node) (o : Origin) (k : Nat) : Node.Calm n (n.noticeRead o k).1 := by
  unfold Node.noticeRead
  refine .fst_ite (refl n) ?_
  cases o with
  | link t => exact onSvc n (f := fun s => s.readFromL k) ((Svc.Upholds.refl _).readFromL k)
  | centre k => exact refl n

theorem noticeClear (n : Node) : Node.Calm n n.noticeClear.1 := by
  unfold Node.noticeClear
  exact onNoteQueue n (f := fun t => { t with overflow := false, lost := 0 }) rfl

theorem noticeRouteSet (n : Node) (code : Option NoticeCode) (h c : Bool) :
    Node.Calm n (n.noticeRouteSet code h c).1 := by
  unfold Node.noticeRouteSet
  split
  · exact refl n
  · exact ⟨(Svc.Upholds.refl _).of_eq rfl rfl rfl, rfl, rfl⟩

theorem pauseEnds (n : Node) : Node.Calm n n.pauseEnds := by
  unfold Node.pauseEnds
  exact .ite (onNoteQueue n (f := fun t => { t with pauseUntil := none }.setAttention)
    (by rw [Note.setAttention_queue])) (refl n)

theorem takeNotices (n : Node) (source : Nat) (l : List Notice) : Node.Calm n (n.takeNotices source l) := by
  refine onNote n (f := fun t => l.foldl (fun t e => t.receive source e) t) fun hn => ?_
  exact List.foldlRecOn (motive := NotesOk) _ _ hn fun _ ht e _ => ht.receive source e

/-! ## Forwarding (R47 to R49) -/

theorem makeForward (n : Node) (tag station : Nat) (p : Parsed) : Node.Calm n (n.makeForward tag station p) := by
  unfold Node.makeForward
  exact (onCmd ..).trans (offerCmd ..)

theorem forward (n : Node) (tag station : Nat) (p : Parsed) : Node.Calm n (n.forward tag station p) := by
  unfold Node.forward
  split
  · exact replyTo ..
  · refine .ite ?_ (replyTo ..)
    split
    · exact replyTo ..
    · exact makeForward ..

theorem endForward (n : Node) (e : Forward) (st : Status) (v : Value) : Node.Calm n (n.endForward e st v) :=
  (onCmd ..).trans (pushReply ..)

theorem takeReplyFwd (n : Node) (source fwd : Nat) (st : Status) (v : Value) :
    Node.Calm n (n.takeReplyFwd source fwd st v) := by
  unfold Node.takeReplyFwd
  split
  · exact endForward ..
  · exact other rfl rfl

theorem forwardTimeout (n : Node) (fwd : Nat) : Node.Calm n (n.forwardTimeout fwd) := by
  unfold Node.forwardTimeout
  split
  · exact refl n
  · refine .ite ?_ (refl n)
    exact ((onSvc n ((Svc.Upholds.refl _).withdrawNormal _)).trans (onCmd ..)).trans (endForward ..)

/-! ## The end of a step (R31) -/

theorem retryCalls (l : List Message) (n : Node) : Node.Calm n (n.retryCalls l) := by
  induction l generalizing n with
  | nil => exact refl n
  | cons m l ih =>
    have hs : Node.Calm n { n with svc := (n.svc.offerEmergency m).1 } :=
      withSvc n ((Svc.Upholds.refl _).offerEmergency m)
    exact .ite ((hs.trans (onCall _ rfl rfl)).trans (ih _)) hs

theorem retryCmd (l : List Message) (n : Node) : Node.Calm n (Node.retryCmd l n) := by
  induction l generalizing n with
  | nil => exact refl n
  | cons m l ih =>
    have hs : Node.Calm n { n with svc := (n.svc.offerNormal m).1 } := withSvc n ((Svc.Upholds.refl _).offerNormal m)
    exact .ite ((hs.trans (onCmd ..)).trans (ih _)) hs

theorem offerAgain (n : Node) (p : Producer) : Node.Calm n (n.offerAgain p) := by
  cases p with
  | call => exact retryCalls ..
  | cmd => exact retryCmd ..
  | note => exact onSvc n ((Svc.Upholds.refl _).lookCentre 2)
  | coll => exact .ite (retryHeldH ..) (retryHeldW ..)

theorem fresh (n : Node) : Node.Calm n n.fresh := onSvc n ((Svc.Upholds.refl _).of_eq rfl rfl rfl)

theorem tellEach (fuel : Nat) (l : List Producer) (n : Node) : Node.Calm n (Node.tellEach fuel l n) := by
  induction fuel generalizing l n with
  | zero => exact refl n
  | succ fuel ih =>
    rcases l with _ | ⟨p, _ | ⟨q, l⟩⟩
    · exact refl n
    · exact offerAgain ..
    · exact ((fresh n).trans (offerAgain ..)).trans (ih ..)

theorem tellFreed (fuel : Nat) (n : Node) : Node.Calm n (Node.tellFreed fuel n) := by
  induction fuel generalizing n with
  | zero => exact refl n
  | succ fuel ih =>
    unfold Node.tellFreed
    refine .ite ?_ (refl n)
    exact ((onSvc n ((Svc.Upholds.refl _).of_eq rfl rfl rfl)).trans (tellEach ..)).trans (ih _)

theorem settle (n : Node) : Node.Calm n n.settle := by
  unfold Node.settle
  exact (((evaluateOutputs n).trans (lookAll _)).trans (tellFreed ..)).trans (sendNext _)

/-! ## Commands that wait (R90, R192, R195) -/

theorem releaseCommand (n : Node) (tag : Nat) : Node.Calm n (n.releaseCommand tag).1 := by
  unfold Node.releaseCommand
  split
  · exact refl n
  · dsimp only
    exact onHead ..

theorem restartCommand (n : Node) : Node.Calm n n.restartCommand.1 := .fst_ite (refl n) (refl n)

theorem handOver (n : Node) (is : Message → Bool) : Node.Calm n (n.handOver is) := other rfl rfl

theorem writeDone (n : Node) (m : Memory) : Node.Calm n (n.writeDone m) := by
  have hw : Node.Calm n { n with writing := none } := other rfl rfl
  unfold Node.writeDone
  dsimp only
  split
  · exact hw.trans (endCommand ..)
  · exact hw

end Node.Calm

end Sys2Proof.Machine


/-! SUPPORT. The operations that move the call table, the voice cap or a setting keep the invariants of R62, R63, R122,
R123 and R176 (`Node.Sound`): the head-end's calls, settings, stored records and a start. -/

namespace Sys2Proof.Machine

/-- The invariants of the pool, the notices and the call table that stood go on standing, each for itself. -/
structure Node.Sound (n m : Node) : Prop where
  sum : PoolOk n.svc.pool → PoolOk m.svc.pool
  safe : PoolSafe n.svc.pool → PoolSafe m.svc.pool
  notes : NotesOk n.svc.note → NotesOk m.svc.note
  calls : n.callsOk → m.callsOk

/-! ## The services at the head-end's call operations (R62 to R71) -/

namespace Node

/-- The services meet the invariants that they met; of the call table nothing is said. -/
abbrev ServicesHold (n m : Node) : Prop := Svc.Upholds n.svc m.svc

namespace ServicesHold

theorem refl (n : Node) : ServicesHold n n := Svc.Upholds.refl _

theorem offerCall {n m : Node} (h : ServicesHold n m) (msg : Message) : ServicesHold n (m.offerCall msg) :=
  Svc.Upholds.trans h (Calm.offerCall m msg).svc

theorem post {n m : Node} (h : ServicesHold n m) (c : NoticeCode) (b : Subject) (d : List Value) :
    ServicesHold n (m.post c b d) := Svc.Upholds.post h c b d

theorem onCall {n m : Node} (h : ServicesHold n m) (f : Call → Call) : ServicesHold n (m.onCall f) := h

theorem promote (fuel : Nat) {n m : Node} (h : ServicesHold n m) : ServicesHold n (m.promote fuel) := by
  induction fuel generalizing m with
  | zero => exact h
  | succ fuel ih =>
    unfold Node.promote
    split
    · split
      · exact h
      · exact ih (((h.onCall _).offerCall _).post ..)
    · exact h

theorem ended {n m : Node} (h : ServicesHold n m) (e : CallEntry) (c : EndCause) (b : Bool) :
    ServicesHold n ((m.removeCall e).postEnded e c b) := (h.onCall _).post ..

theorem startDrain {n m : Node} (h : ServicesHold n m) (e : CallEntry) (c : EndCause) :
    ServicesHold n (m.startDrain e c) := (h.offerCall _).onCall _

theorem answerRequest (n : Node) (e : CallEntry) : ServicesHold n (n.answerRequest e) := by
  unfold Node.answerRequest
  split
  · exact (refl n).offerCall _
  · exact (refl n).offerCall _
  · exact (refl n).offerCall _
  · exact (refl n).offerCall _
  · exact refl n

theorem takeRequest (n : Node) (st p : Nat) : ServicesHold n (n.takeRequest st p) := by
  unfold Node.takeRequest
  split
  · exact answerRequest ..
  · dsimp only
    split
    · exact (((refl n).onCall _).offerCall _).post ..
    · split
      · exact (((refl n).onCall _).offerCall _).post ..
      · split
        · exact (refl n).offerCall _
        · exact (((refl n).offerCall _).post ..).onCall _

theorem callAnswer (n : Node) (call console : Nat) : ServicesHold n (n.callAnswer call console).1 := by
  unfold Node.callAnswer
  split
  · exact refl n
  · split
    · exact refl n
    · split
      · exact refl n
      · exact (((refl n).onCall _).offerCall _).post ..

theorem callEnd (n : Node) (call : Nat) : ServicesHold n (n.callEnd call).1 := by
  unfold Node.callEnd
  split
  · exact refl n
  · split
    · exact refl n
    · split
      · exact refl n
      · exact ((refl n).offerCall _).ended ..
      · exact (refl n).startDrain ..

theorem callRing (n : Node) (st p c : Nat) : ServicesHold n (n.callRing st p c).1 := by
  unfold Node.callRing
  split
  · exact refl n
  · split
    · exact refl n
    · exact refl n
    · exact refl n
    · split
      · exact refl n
      · split
        · exact refl n
        · exact ((refl n).onCall _).offerCall _

theorem ringExpires (n : Node) (call : Nat) : ServicesHold n (n.ringExpires call) := by
  unfold Node.ringExpires
  split
  · exact refl n
  · split
    · exact (refl n).startDrain ..
    · exact refl n

theorem takeAnsweredHead (n : Node) (st p call : Nat) : ServicesHold n (n.takeAnsweredHead st p call) := by
  unfold Node.takeAnsweredHead
  split
  · exact refl n
  · split
    · exact ((refl n).onCall _).post ..
    · exact refl n

theorem takeClearHead (n : Node) (st p : Nat) (call : Option Nat) : ServicesHold n (n.takeClearHead st p call) := by
  unfold Node.takeClearHead
  extract_lets found m
  have hm : ServicesHold n m := by
    unfold m
    clear m
    clear_value found
    split
    · exact refl n
    · exact ((refl n).ended ..).promote 24
  split
  · exact hm
  · exact hm.offerCall _

theorem takeClearedHead (n : Node) (st p call : Nat) : ServicesHold n (n.takeClearedHead st p call) := by
  unfold Node.takeClearedHead
  split
  · exact refl n
  · split
    · exact ((refl n).ended ..).promote 24
    · exact refl n

theorem drainExpires (n : Node) (call : Nat) : ServicesHold n (n.drainExpires call) := by
  unfold Node.drainExpires
  split
  · exact refl n
  · split
    · exact ((refl n).ended ..).promote 24
    · exact refl n

end ServicesHold

/-! ## Soundness (R62, R63, R122, R123, R176) -/

theorem Calm.timeHook (n : Node) (p : Nat) (b : Bool) : Node.Calm n (n.timeHook p b) := .onPhone ..

namespace Sound

theorem refl (n : Node) : Node.Sound n n := ⟨id, id, id, id⟩

theorem trans {a b c : Node} (h : Node.Sound a b) (k : Node.Sound b c) : Node.Sound a c :=
  ⟨k.sum ∘ h.sum, k.safe ∘ h.safe, k.notes ∘ h.notes, k.calls ∘ h.calls⟩

theorem of_calm {n m : Node} (h : Node.Calm n m) : Node.Sound n m :=
  ⟨fun k => h.svc.sum.trans k, h.svc.safe, h.svc.notes, fun k => Node.callsOk_of_eq k h.table h.waiting h.svc.cap⟩

theorem of_services {n m : Node} (h : ServicesHold n m) (k : n.callsOk → m.callsOk) : Node.Sound n m :=
  ⟨fun p => h.sum.trans p, h.safe, h.notes, k⟩

theorem then_calm {a b c : Node} (h : Node.Sound a b) (k : Node.Calm b c) : Node.Sound a c := h.trans (of_calm k)

theorem ite {n a b : Node} {c : Prop} [Decidable c] (h : Node.Sound n a) (k : Node.Sound n b) :
    Node.Sound n (if c then a else b) := by
  split
  · exact h
  · exact k

theorem fst_ite {α : Type} {n : Node} {a b : Node × α} {c : Prop} [Decidable c] (h : Node.Sound n a.1)
    (k : Node.Sound n b.1) : Node.Sound n (if c then a else b).1 := by
  split
  · exact h
  · exact k

theorem foldl {α : Type} {f : Node → α → Node} (h : ∀ n a, Node.Sound n (f n a)) (l : List α) (n : Node) :
    Node.Sound n (l.foldl f n) := by
  induction l generalizing n with
  | nil => exact refl n
  | cons a l ih => exact (h n a).trans (ih _)

/-! ### The head-end's calls -/

theorem takeRequest (n : Node) (st p : Nat) : Node.Sound n (n.takeRequest st p) :=
  of_services (.takeRequest ..) fun h => Node.callsOk_takeRequest h st p

theorem callAnswer (n : Node) (c p : Nat) : Node.Sound n (n.callAnswer c p).1 :=
  of_services (.callAnswer ..) fun h => Node.callsOk_callAnswer h c p

theorem callEnd (n : Node) (c : Nat) : Node.Sound n (n.callEnd c).1 :=
  of_services (.callEnd ..) fun h => Node.callsOk_callEnd h c

theorem callRing (n : Node) (st p c : Nat) : Node.Sound n (n.callRing st p c).1 :=
  of_services (.callRing ..) fun h => Node.callsOk_callRing h st p c

theorem ringExpires (n : Node) (c : Nat) : Node.Sound n (n.ringExpires c) :=
  of_services (.ringExpires ..) fun h => Node.callsOk_ringExpires h c

theorem takeAnsweredHead (n : Node) (st p c : Nat) : Node.Sound n (n.takeAnsweredHead st p c) :=
  of_services (.takeAnsweredHead ..) fun h => Node.callsOk_takeAnsweredHead h st p c

theorem takeClearHead (n : Node) (st p : Nat) (c : Option Nat) : Node.Sound n (n.takeClearHead st p c) :=
  of_services (.takeClearHead ..) fun h => Node.callsOk_takeClearHead h st p c

theorem takeClearedHead (n : Node) (st p c : Nat) : Node.Sound n (n.takeClearedHead st p c) :=
  of_services (.takeClearedHead ..) fun h => Node.callsOk_takeClearedHead h st p c

theorem drainExpires (n : Node) (c : Nat) : Node.Sound n (n.drainExpires c) :=
  of_services (.drainExpires ..) fun h => Node.callsOk_drainExpires h c

/-- R71: the voice cap moves, and with it what the call table has to meet. -/
theorem voiceCapSet (n : Node) (cap : Nat) : Node.Sound n (n.voiceCapSet cap).1 := by
  have hc : n.callsOk → (n.voiceCapSet cap).1.callsOk := fun h => Node.callsOk_voiceCapSet h cap
  unfold Node.voiceCapSet at hc ⊢
  split
  · exact refl n
  · next hrange =>
    split
    · exact refl n
    · next hheld =>
      rw [if_neg hrange, if_neg hheld] at hc
      have hs : ServicesHold (n.onSettings fun s => { s with voiceCap := cap })
          ((n.onSettings fun s => { s with voiceCap := cap }).promote 24) := (ServicesHold.refl _).promote 24
      exact ⟨fun p => hs.sum.trans p, hs.safe, hs.notes, hc⟩

/-! ### Settings (R190) -/

theorem withNumber (n : Node) (item v : Nat) (h : item ≠ 13) :
    Node.Calm n (n.onSettings fun s => s.withNumber item v) := by
  refine Calm.onSettings n ?_
  unfold Settings.withNumber
  split
  case h_8 => exact absurd rfl h
  all_goals rfl

theorem takeWaitToRestore (n : Node) (v : Nat) : Node.Calm n (n.takeWaitToRestore v) := by
  unfold Node.takeWaitToRestore
  have hs := withNumber n 11 v (by decide)
  refine .ite (.ite ?_ ?_) hs
  · exact .ite (hs.trans (.originEast ..)) hs
  · exact .ite (hs.trans (.openOut ..)) hs

theorem takeNumber (n : Node) (item v : Nat) : Node.Sound n (n.takeNumber item v).1 := by
  unfold Node.takeNumber
  split
  · exact of_calm (takeWaitToRestore ..)
  · exact voiceCapSet ..
  · exact of_calm (.onToll n (Svc.Upholds.takeTollHigh v (.refl _)))
  · exact of_calm (.onSvc n (f := fun s => s.takeSegmentLength v) ((Svc.Upholds.refl _).takeSegmentLength v))
  · unfold Node.takeBatchLimit
    exact .fst_ite (refl n) (of_calm (withNumber n 80 v (by decide)))
  · next h _ _ _ => exact of_calm (withNumber n item v h)

theorem takeRoster (n : Node) (l : List (Option RosterSpec)) : Node.Calm n (n.takeRoster l).1 := by
  unfold Node.takeRoster
  refine .fst_ite ?_ (.refl n)
  exact (Calm.onSettings n rfl).trans (.foldl (fun _ _ => .onRoster ..) _ _)

theorem takeOutputs (n : Node) (l : List OutputSpec) : Node.Calm n (n.takeOutputs l).1 := by
  unfold Node.takeOutputs
  refine .fst_ite ?_ (.refl n)
  exact (Calm.onSettings n rfl).trans (.foldl (fun m _ => .ite (.onOutput ..) (.refl m)) _ _)

theorem takeInputs (n : Node) (l : List InputSpec) : Node.Calm n (n.takeInputs l).1 := by
  unfold Node.takeInputs
  refine .fst_ite ?_ (.refl n)
  exact (Calm.onSettings n rfl).trans (.foldl (fun m _ => .ite (.timeInput ..) (.refl m)) _ _)

theorem takeRemap (n : Node) (l : List (Option Nat)) : Node.Calm n (n.takeRemap l).1 := by
  unfold Node.takeRemap
  exact .fst_ite ((Calm.onSettings n rfl).trans (.detachChanged ..)) (.refl n)

theorem takeKinds (n : Node) (l : List DeviceKind) : Node.Calm n (n.takeKinds l).1 := by
  unfold Node.takeKinds
  exact (Calm.onSettings n rfl).trans (.detachChanged ..)

theorem takeRules (n : Node) (l : List (Option RuleSpec)) : Node.Calm n (n.takeRules l).1 := by
  unfold Node.takeRules
  dsimp only
  refine Calm.onRules n ?_
  refine List.foldlRecOn (motive := fun y : RuleSt => Svc.Upholds n.svc y.1) _ _ (.refl n.svc) fun y hy k _ => ?_
  split
  · exact hy
  · exact Svc.Upholds.replaceRule k _ hy

theorem takeValue (n : Node) (item : Nat) (c : Candidate) : Node.Sound n (n.takeValue item c).1 := by
  unfold Node.takeValue
  split
  case h_1 => exact takeNumber ..
  case h_6 l =>
    have hb := Svc.Upholds.takeBindings l (x := (n.svc, n.zone)) (.refl n.svc)
    generalize takeBindings l (n.svc, n.zone) = r at hb ⊢
    exact of_calm ⟨hb, rfl, rfl⟩
  case h_7 => exact of_calm (takeRemap ..)
  case h_8 => exact of_calm (takeKinds ..)
  case h_9 => exact of_calm (takeRoster ..)
  case h_10 => exact of_calm (takeOutputs ..)
  case h_11 => exact of_calm (takeInputs ..)
  case h_12 =>
    split
    · next h => exact of_calm ⟨(Svc.Upholds.refl _).takeBounds h, rfl, rfl⟩
    · exact refl n
  case h_13 => exact of_calm (takeRules ..)
  all_goals exact of_calm ⟨(Svc.Upholds.refl _).of_eq rfl rfl rfl, rfl, rfl⟩

theorem writeItem (n : Node) (item : Nat) (op : SettingOp) (v : SettingValue) :
    Node.Sound n (n.writeItem item op v).1 := by
  unfold Node.writeItem
  split
  · exact refl n
  · exact .fst_ite (takeValue ..) (refl n)

theorem settingWrite (n : Node) (item : Nat) (op : SettingOp) (v : SettingValue) :
    Node.Sound n (n.settingWrite item op v).1 := by
  unfold Node.settingWrite
  exact .fst_ite (refl n) (.fst_ite (refl n) (.fst_ite (refl n) (writeItem ..)))

theorem ruleSet (n : Node) (k : Nat) (arg : RuleArg) : Node.Calm n (n.ruleSet k arg).1 := by
  unfold Node.ruleSet
  refine .fst_ite (.refl n) ?_
  split
  · exact .refl n
  · refine .fst_ite ?_ (.refl n)
    dsimp only
    exact .onRules n (Svc.Upholds.replaceRule _ _ (.refl _))

/-! ### Stored records and a start (R192, R194) -/

theorem applyRecord (n : Node) (item : Nat) (op : SettingOp) (v : SettingValue) :
    Node.Sound n (n.applyRecord item op v).1 := by
  unfold Node.applyRecord
  refine .fst_ite (refl n) ?_
  split
  · split
    · exact refl n
    · exact refl n
  · exact writeItem ..

theorem takeStored (n : Node) (r : List Byte) : Node.Sound n (n.takeStored r).1 := by
  unfold Node.takeStored
  split
  · exact refl n
  · refine .fst_ite (refl n) ?_
    split
    · exact refl n
    · exact applyRecord ..

theorem startRecord (m : Memory) (n : Node) (x : Nat × Nat) : Node.Sound n (Node.startRecord m n x) := by
  have skipped : Node.Sound n { n with skipped := n.skipped + 1 } := of_calm (.other rfl rfl)
  unfold Node.startRecord
  dsimp only
  split
  · exact skipped
  · next r _ =>
    have hr := takeStored n r
    generalize n.takeStored r = y at hr ⊢
    split
    · exact hr.trans (of_calm (.other rfl rfl))
    · exact skipped

theorem applyStore (n : Node) (m : Memory) : Node.Sound n (n.applyStore m) := foldl (startRecord m) _ n

theorem takeNextStart (n : Node) (m : Memory) : Node.Calm n (n.takeNextStart m) := .onSettings n rfl

theorem storeAppend (n : Node) (m : Memory) (r : List Byte) : Node.Sound n (n.storeAppend m r).1 := by
  have hr := takeStored n r
  unfold Node.storeAppend
  refine .fst_ite (refl n) (.fst_ite (refl n) ?_)
  generalize n.takeStored r = y at hr ⊢
  split
  · exact hr.trans (of_calm (.other rfl rfl))
  · exact hr

theorem startLink (n : Node) : Node.Calm n n.startLink := by
  unfold Node.startLink
  extract_lets rate m1 m2
  have h1 : Node.Calm n m1 := .onLink ..
  have h2 : Node.Calm n m2 := h1.trans ⟨(Svc.Upholds.refl _).withNote fun h => h.of_queue rfl, rfl, rfl⟩
  exact h2.trans (.post ..)

theorem startPorts (n : Node) : Node.Calm n n.startPorts := by
  unfold Node.startPorts
  exact ((Calm.withPorts n _ _).trans (.seeLight ..)).trans (.seeLight ..)

theorem startHead (n : Node) : Node.Calm n n.startHead :=
  ((Calm.onHead ..).trans (.startSurvey _)).trans (.of_win (.beginLoop ..))

theorem startWayside (n : Node) : Node.Calm n n.startWayside := by
  unfold Node.startWayside
  extract_lets m1 m2 m3 m4
  have h1 : Node.Calm n m1 := .onTrib ..
  have h2 : Node.Calm n m2 := h1.trans (.foldl (fun _ _ => .onDevice ..) _ _)
  have h3 : Node.Calm n m3 := h2.trans (.foldl (fun _ _ => .onRoster ..) _ _)
  have h4 : Node.Calm n m4 := h3.trans (.foldl (fun _ _ => Calm.timeHook ..) _ _)
  exact h4.trans (.foldl Calm.timeInput _ _)

theorem start (n : Node) (m : Memory) : Node.Sound n (n.start m) := by
  unfold Node.start
  extract_lets m1 m2 m3
  have h1 : Node.Sound n m1 := (of_calm (takeNextStart ..)).trans (applyStore ..)
  have h2 : Node.Sound n m2 := (h1.then_calm (startLink ..)).then_calm (startPorts ..)
  have h3 : Node.Sound n m3 := h2.then_calm (.other rfl rfl)
  exact Node.Sound.then_calm (.ite (h3.then_calm (startHead ..)) (h3.then_calm (startWayside ..))) (.settle _)

end Sound

end Node

end Sys2Proof.Machine


/-! The theorem that settles O49. SUPPORT for it: every row keeps the invariants of R62, R63, R122, R123 and R176. -/

namespace Sys2Proof.Machine

/-! ## The reads with an argument change nothing -/

namespace Node

theorem portStatus_node (n : Node) (a : Nat) : (n.portStatus a).1 = n := by
  unfold Node.portStatus
  split
  · rfl
  · rfl

theorem stationMapRead_node (n : Node) (k : Nat) : (n.stationMapRead k).1 = n := by
  unfold Node.stationMapRead
  split
  · rfl
  · rfl

theorem callList_node (n : Node) (k : Nat) : (n.callList k).1 = n := by
  unfold Node.callList
  split
  · rfl
  · rfl

theorem signStatus_node (n : Node) (d : Nat) : (n.signStatus d).1 = n := by
  unfold Node.signStatus Node.signCommand
  split
  · rfl
  · split
    · rfl
    · rfl

theorem deviceStatus_node (n : Node) (d : Nat) : (n.deviceStatus d).1 = n := by
  unfold Node.deviceStatus
  split
  · rfl
  · rfl

theorem tollStatus_node (n : Node) (k : Nat) : (n.tollStatus k).1 = n := by
  unfold Node.tollStatus
  split
  · rfl
  · rfl

theorem wxStatus_node (n : Node) (k : Nat) : (n.wxStatus k).1 = n := by
  unfold Node.wxStatus
  split
  · rfl
  · rfl

theorem settingRead_node (n : Node) (m : Memory) (item : Nat) (key : Option SettingKey) :
    (n.settingRead m item key).1 = n := by
  unfold Node.settingRead
  split
  · rfl
  · split
    · rfl
    · split
      · rfl
      · split
        · rfl
        · rfl

theorem storeRead_node (n : Node) (m : Memory) (off : Nat) : (n.storeRead m off).1 = n := by
  unfold Node.storeRead
  split
  · rfl
  · rfl

end Node

namespace Node.Calm

theorem batchExpires (n : Node) (b : Nat) : Node.Calm n (n.batchExpires b) := by
  unfold Node.batchExpires
  split
  · exact .refl n
  · exact .ite (.endBatch ..) (.refl n)

theorem pulseExpires (n : Node) (x : Nat) : Node.Calm n (n.pulseExpires x) := .onOutput ..

theorem setLight (n : Node) (p : PortId) (b : Bool) : Node.Calm n (n.setLight p b) := by
  obtain ⟨q, hq⟩ := n.setLight_pins p b
  rw [hq]
  exact .other rfl rfl

end Node.Calm

namespace Node.Sound

theorem of_eq {n m : Node} (h : m = n) : Node.Sound n m := h ▸ refl n

/-! ## Commands (R186) -/

theorem perform (n : Node) (mem : Memory) (o : Origin) (c : Command) : Node.Sound n (n.perform mem o c).1 := by
  cases c
  case portEnable => exact of_calm (.portEnable ..)
  case portDisable => exact of_calm (.portDisable ..)
  case portReset => exact of_calm (.portReset ..)
  case portLoopback => exact of_calm (.portLoopback ..)
  case timeSet => exact of_calm (.timeSet ..)
  case surveyStart => exact of_calm (.startSurvey n)
  case callAnswer => exact callAnswer ..
  case callEnd => exact callEnd ..
  case callRing => exact callRing ..
  case voiceCapSet => exact voiceCapSet ..
  case zoneStart => exact of_calm (.zoneStart ..)
  case zoneClear => exact of_calm (.zoneClear ..)
  case signShow => exact of_calm (.signShow ..)
  case signStage => exact of_calm (.signStage ..)
  case signUnstage => exact of_calm (.signUnstage ..)
  case release => exact of_calm (.releaseCommand ..)
  case beaconSetSingle => exact of_calm (.beaconSingle ..)
  case beaconSetCancel => exact of_calm (.beaconCancel ..)
  case rosterSet => exact of_calm (.rosterSet ..)
  case lineReset => exact of_calm (.lineReset ..)
  case restartPulse => exact of_calm (.restartPulse ..)
  case deviceStatusPoll => exact of_calm (.devicePoll ..)
  case ruleSet => exact of_calm (ruleSet ..)
  case collect => exact of_calm (.collect ..)
  case collectConfirm => exact of_calm (.collectConfirm ..)
  case collectDrop => exact of_calm (.collectDrop ..)
  case noticeRead => exact of_calm (.noticeRead ..)
  case noticeClear => exact of_calm (.noticeClear n)
  case noticeRouteSet => exact of_calm (.noticeRouteSet ..)
  case maintHold => exact of_calm (.maintHold n)
  case maintEnd => exact of_calm (.maintEnd n)
  case holdReleaseAsk => exact of_calm (.holdReleaseAsk n)
  case settingWrite => exact settingWrite ..
  case storeAppend => exact storeAppend ..
  case restart => exact of_calm (.restartCommand n)
  case portStatus => exact of_eq (Node.portStatus_node ..)
  case stationMapRead => exact of_eq (Node.stationMapRead_node ..)
  case callList => exact of_eq (Node.callList_node ..)
  case signStatus => exact of_eq (Node.signStatus_node ..)
  case deviceStatus => exact of_eq (Node.deviceStatus_node ..)
  case tollStatus => exact of_eq (Node.tollStatus_node ..)
  case wxStatus => exact of_eq (Node.wxStatus_node ..)
  case settingRead => exact of_eq (Node.settingRead_node ..)
  case storeRead => exact of_eq (Node.storeRead_node ..)
  all_goals exact refl n

theorem execute (n : Node) (mem : Memory) (o : Origin) (c : Command) : Node.Sound n (n.execute mem o c) := by
  unfold Node.execute
  extract_lets p r
  have hr : Node.Sound n r.1 := (of_calm (.onCmd ..)).trans (perform ..)
  split
  · exact hr.then_calm (.endCommand ..)
  · exact hr

theorem takeCommand (n : Node) (mem : Memory) (o : Origin) (p : Parsed) : Node.Sound n (n.takeCommand mem o p) := by
  unfold Node.takeCommand
  split
  · exact of_calm (.replyTo ..)
  · split
    · exact of_calm (.replyTo ..)
    · exact of_calm (.replyTo ..)
    · split
      · exact of_calm (.replyTo ..)
      · exact execute ..

theorem beforeLink (n : Node) (mem : Memory) (o : Origin) (c : Command) : Node.Sound n (n.beforeLink mem o c) := by
  unfold Node.beforeLink
  split
  · exact .ite (refl n) (takeCommand ..)
  · exact refl n

/-! ## The host link's receiver (R184) -/

theorem validFrame (n : Node) (mem : Memory) (f : RawFrame) : Node.Sound n (n.validFrame mem f) := by
  unfold Node.validFrame
  extract_lets m m' p
  have hm : Node.Calm n m := (Calm.onLink ..).trans (.restartLapse _)
  have hm' : Node.Calm n m' := .ite (hm.trans (.onLink ..)) hm
  refine .ite (of_calm (hm.trans (.onLink ..))) (.ite (of_calm (hm'.trans (.forward ..))) ?_)
  exact (of_calm hm').trans (takeCommand ..)

theorem takeFrame (n : Node) (mem : Memory) (f : RawFrame) : Node.Sound n (n.takeFrame mem f) :=
  .ite (validFrame ..) (of_calm (.onLink ..))

theorem receiveBytes (mem : Memory) (fuel : Nat) (l : List Byte) (n : Node) :
    Node.Sound n (Node.receiveBytes mem fuel l n) := by
  induction fuel generalizing l n with
  | zero => exact refl n
  | succ fuel ih =>
    unfold Node.receiveBytes
    split
    · exact refl n
    · exact ih ..
    · exact of_calm (.onLink ..)
    · exact (of_calm (.onLink ..)).trans (ih ..)
    · exact (takeFrame ..).trans (ih ..)

theorem receiveFrame (n : Node) (mem : Memory) (bytes : List Byte) : Node.Sound n (n.receiveFrame mem bytes) := by
  unfold Node.receiveFrame
  exact .ite (refl n) ((of_calm (.onLink ..)).trans (receiveBytes ..))

/-! ## What acts on the node -/

theorem onEvent {f : Node → Node} {n : Node} (h : Node.Sound n (f n)) : Node.Sound n (Node.onEvent f n) :=
  .ite (h.then_calm (.settle _)) (refl n)

theorem onRole {b : Bool} {f : Node → Node} {n : Node} (h : Node.Sound n (f n)) : Node.Sound n (Node.onRole b f n) :=
  .ite (h.then_calm (.settle _)) (refl n)

theorem onMessage {b : Bool} {source : Option Nat} {p : Payload} {f : Node → Node} {n : Node}
    (h : ∀ m, Node.Sound m (f m)) : Node.Sound n (Node.onMessage b source p f n) := by
  unfold Node.onMessage
  refine .ite (refl n) (.ite ?_ (.ite (refl n) (of_calm (.other rfl rfl))))
  exact ((of_calm (.handOver ..)).trans (h _)).then_calm (.settle _)

theorem onCommand (mem : Memory) (o : Origin) (c : Command) (n : Node) :
    Node.Sound n (Node.onCommand mem o c n) := by
  unfold Node.onCommand
  exact .ite (beforeLink ..) (.ite (refl n) ((takeCommand ..).then_calm (.settle _)))

/-- R194: a full reset's node meets every invariant. -/
theorem fullReset (n : Node) (pins : Pins) (free : Nat) : Node.Sound n (Node.fullReset pins free) :=
  ⟨fun _ => (svcOk_reset free).sum, fun _ => (svcOk_reset free).safe, fun _ => (svcOk_reset free).notes,
    fun _ => callsOk_reset⟩

end Node.Sound

/-! ## The rows -/

namespace State

/-- A row after which the node's invariants stand that stood. -/
def SoundAfter (s : State) (r : Host.Outcome State Fault Refusal) : Prop := ∃ t, r = .next t ∧ Node.Sound s.node t.node

theorem SoundAfter.act {s : State} {f : Node → Node} (h : Node.Sound s.node (f s.node)) : s.SoundAfter (s.act f) :=
  ⟨_, rfl, h⟩

theorem SoundAfter.event {s : State} {f : Node → Node} (h : Node.Sound s.node (f s.node)) :
    s.SoundAfter (s.act (Node.onEvent f)) := .act (.onEvent h)

theorem SoundAfter.role {s : State} (b : Bool) {f : Node → Node} (h : Node.Calm s.node (f s.node)) :
    s.SoundAfter (s.act (Node.onRole b f)) := .act (.onRole (.of_calm h))

theorem SoundAfter.headRole {s : State} {f : Node → Node} (h : Node.Sound s.node (f s.node)) :
    s.SoundAfter (s.act (Node.onRole true f)) := .act (.onRole h)

theorem SoundAfter.message {s : State} (b : Bool) (source : Option Nat) (p : Payload) {f : Node → Node}
    (h : ∀ m, Node.Calm m (f m)) : s.SoundAfter (s.act (Node.onMessage b source p f)) :=
  .act (.onMessage fun m => .of_calm (h m))

theorem SoundAfter.headMessage {s : State} (source : Option Nat) (p : Payload) {f : Node → Node}
    (h : ∀ m, Node.Sound m (f m)) : s.SoundAfter (s.act (Node.onMessage true source p f)) := .act (.onMessage h)

theorem SoundAfter.command (s : State) (o : Origin) (c : Command) : s.SoundAfter (s.command o c) :=
  .act (.onCommand ..)

theorem start_sound (s : State) : Node.Sound s.node s.start.node := by
  have hreset : Node.Sound s.node s.fullReset.node := .fullReset ..
  unfold State.start
  generalize s.fullReset = t at hreset ⊢
  split
  · dsimp only
    exact hreset.trans (.start t.node t.store)
  · exact .refl _

theorem writeDone_sound (s : State) : Node.Sound s.node s.writeDone.node := by
  unfold State.writeDone
  split
  · exact .refl _
  · next r _ =>
    have h := Node.Calm.writeDone s.node (s.written r)
    generalize s.node.writeDone (s.written r) = m at h ⊢
    dsimp only
    exact .of_calm (h.trans (.settle m))

end State

/-- Every row keeps the invariants. -/
theorem exec_sound (i : Instr) (s : State) : s.SoundAfter (exec i s) := by
  cases i
  case resetAsserted => exact ⟨_, rfl, .fullReset ..⟩
  case start => exact ⟨_, rfl, s.start_sound⟩
  case storeWriteDone => exact ⟨_, rfl, s.writeDone_sound⟩
  case cycleTimerTick => exact .act (.ite (.of_calm (.passPeriod _)) (.refl _))
  case lightLost p =>
    have h := (Node.Sound.of_calm (.setLight s.node p false)).trans
      (.onEvent (f := fun n => n.loseLight p) (.of_calm (.loseLight _ p)))
    exact .act (f := fun n => Node.onEvent (fun n => n.loseLight p) (n.setLight p false)) h
  case lightSeen p =>
    have h := (Node.Sound.of_calm (.setLight s.node p true)).trans
      (.onEvent (f := fun n => n.seeLight p) (.of_calm (.seeLight _ p)))
    exact .act (f := fun n => Node.onEvent (fun n => n.seeLight p) (n.setLight p true)) h
  case hookContactChange p b =>
    have hpins : Node.Calm s.node (s.node.setHook p b) := .other rfl rfl
    have h := (Node.Sound.of_calm hpins).trans
      (.onRole (b := false) (f := fun n => n.timeHook p b) (.of_calm (.timeHook _ p b)))
    exact .act (f := fun n => Node.onRole false (fun n => n.timeHook p b) (n.setHook p b)) h
  case inputContactChange i b =>
    have hpins : Node.Calm s.node (s.node.setInput i b) := .other rfl rfl
    have h := (Node.Sound.of_calm hpins).trans
      (.onRole (b := false) (f := fun n => n.timeInput i) (.of_calm (.timeInput _ i)))
    exact .act (f := fun n => Node.onRole false (fun n => n.timeInput i) (n.setInput i b)) h
  case hostFrameReceived => exact .event (.receiveFrame ..)
  case forward => exact .event (.of_calm (.forward ..))
  case markerMissing => exact .event (.of_calm (.markerMissing ..))
  case recoverExpired => exact .event (.of_calm (.recoverExpired ..))
  case probeReceived => exact .event (.of_calm (.probe ..))
  case partnerMovedOn => exact .event (.of_calm (.partnerMovedOn ..))
  case attentionPauseExpiry => exact .event (.of_calm (.pauseEnds _))
  case frameGapTimeout => exact .event (.of_calm (.frameGap _))
  case frameSent => exact .event (.of_calm (.frameSent _))
  case holdLapseExpiry => exact .event (.of_calm (.holdLapses _))
  case badLength => exact .event (.of_calm (.discardFrame _))
  case linkReplyGapEnds => exact .event (.of_calm (.onLink ..))
  case originateCycle => exact .role true (.originate _)
  case cycleArrivesWayside => exact .role false (.arrives ..)
  case cycleReturns => exact .role true (.returns ..)
  case noGoodMarkerTimeout => exact .role false (.noGoodMarker _)
  case waitToRestoreExpiry => exact .role false (.restoreExpires _)
  case headEndRestoreExpiry => exact .role true (.headRestoreExpires _)
  case returnTimeout => exact .role true (.returnTimeout _)
  case surveyTimeout => exact .role true (.surveyTimeout _)
  case tokenLossExpiry => exact .role true (.of_win (.tokenLost ..))
  case loopCeases => exact .role false (.loopCeases ..)
  case forwardTimeout => exact .role true (.forwardTimeout ..)
  case hookDebounceExpiry => exact .role false (.hookSettled ..)
  case repeatTimerExpiry => exact .role false (.repeatExpires ..)
  case labelRunLimit => exact .role false (.labelLimit ..)
  case ringTimerExpiry => exact .headRole (.ringExpires ..)
  case drainTimerExpiry => exact .headRole (.drainExpires ..)
  case releaseDelayExpiry => exact .role false (.releaseDue _)
  case beaconPhaseExpiry b => exact .role false (.onZone _ (Svc.Upholds.beaconPhaseEnds b (.refl _)))
  case exchangeReply => exact .role false (.lineReply ..)
  case replyTimeout => exact .role false (.replyTimeout ..)
  case joinDue => exact .role false (.lookForWork ..)
  case rosterDue => exact .role false (.rosterDue ..)
  case holdTimerExpiry => exact .role false (.holdExpires ..)
  case pulseTimerExpiry => exact .role false (.pulseExpires ..)
  case restartEnd => exact .role false (.restartEnds ..)
  case inputDebounceExpiry => exact .role false (.inputSettled ..)
  case batchTimerExpiry => exact .role true (.batchExpires ..)
  case commandFwd => exact .act (.onMessage fun _ => .takeCommand ..)
  case replyFwd => exact .message _ _ _ fun _ => .takeReplyFwd ..
  case callQueued => exact .message _ _ _ fun _ => .takeQueued ..
  case callAssign => exact .message _ _ _ fun _ => .takeAssign ..
  case callBusy => exact .message _ _ _ fun _ => .refl _
  case callRingAtWayside => exact .message _ _ _ fun _ => .takeRing ..
  case callAnsweredAtWayside => exact .message _ _ _ fun _ => .takeAnswered ..
  case callClearAtWayside => exact .message _ _ _ fun _ => .takeClear ..
  case callClearedAtWayside => exact .message _ _ _ fun _ => .takeCleared ..
  case callRequest => exact .headMessage _ _ fun _ => .takeRequest ..
  case callAnsweredAtHeadEnd => exact .headMessage _ _ fun _ => .takeAnsweredHead ..
  case callClearAtHeadEnd => exact .headMessage _ _ fun _ => .takeClearHead ..
  case callClearedAtHeadEnd => exact .headMessage _ _ fun _ => .takeClearedHead ..
  case collectAsk => exact .message _ _ _ fun _ => .takeAsk ..
  case batchHead => exact .message _ _ _ fun _ => .takeBatchMessage _ _ _ _ _ fun _ m => .refl m
  case batchItem => exact .message _ _ _ fun _ => .takeBatchMessage _ _ _ _ _ fun _ _ => .takeItem ..
  case batchEnd => exact .message _ _ _ fun _ => .takeBatchMessage _ _ _ _ _ fun _ _ => .takeEnd ..
  case collectAck => exact .message _ _ _ fun _ => .takeAck ..
  case noticeFwd => exact .message _ _ _ fun _ => .takeNotices ..
  all_goals exact .command ..

/-- Every step keeps the invariants. -/
theorem step_sound {s t : State} (h : step s = .next t) : Node.Sound s.node t.node := by
  rcases step_cases h with rfl | ⟨c, rest, -, hc⟩
  · exact .refl _
  · obtain ⟨u, hu, hs⟩ := exec_sound c { s with pending := rest }
    cases hu.symm.trans hc
    exact hs

/-- Settles O49: every step is sound, and the slots and the wait queue bound the call table. -/
theorem stepKeepsPoolSum : Obligations.StepKeepsPoolSum := by
  refine ⟨fun s t hs h => (step_sound h).sum hs, fun s t hs h => (step_sound h).safe hs,
    fun s t hs h => (step_sound h).notes hs, fun s t hs h => (step_sound h).calls hs, fun c cap h => ?_⟩
  have hlen := h.length_le
  have hcap := h.inRange
  have hwait := h.places
  omega

end Sys2Proof.Machine


/-! SUPPORT. What RING's operations leave of the node (R5 to R19): they touch the ports, RING at either role, WIN, COLL,
CALL and the services' queues, notices and time, and nothing else; and what they do to the attachment, the ports and the
loops of a wayside. With the statements on the ring timers and the loop timers. -/

namespace Sys2Proof.Machine

/-! ## The frame -/

/-- RING's part in a step: the ring, the ports, WIN, COLL, CALL and the services, which keep count and settings. -/
structure Node.RingStep (n m : Node) : Prop where
  rest : m = { n with
    svc := m.svc, win := m.win, coll := m.coll, call := m.call, ring := m.ring, head := m.head, east := m.east
    west := m.west }
  now : m.svc.now = n.svc.now
  set : m.set = n.set

namespace Node.RingStep

theorem refl (n : Node) : Node.RingStep n n := ⟨rfl, rfl, rfl⟩

theorem trans {a b c : Node} (h : Node.RingStep a b) (k : Node.RingStep b c) : Node.RingStep a c := by
  refine ⟨?_, k.now.trans h.now, k.set.trans h.set⟩
  rw [k.rest, h.rest]

theorem ite {n a b : Node} {c : Prop} [Decidable c] (h : Node.RingStep n a) (k : Node.RingStep n b) :
    Node.RingStep n (if c then a else b) := by
  split
  · exact h
  · exact k

section
variable {n m : Node} (h : Node.RingStep n m)
include h

theorem toll : m.toll = n.toll := by rw [h.rest]
theorem rules : m.rules = n.rules := by rw [h.rest]
theorem cmd : m.cmd = n.cmd := by rw [h.rest]
theorem link : m.link = n.link := by rw [h.rest]
theorem phase : m.phase = n.phase := by rw [h.rest]
theorem pins : m.pins = n.pins := by rw [h.rest]
theorem isHead : m.isHead = n.isHead := congrArg (fun s : Settings => decide (s.role = .headEnd)) h.set

end

theorem of_win {n m : Node} (h : Node.WinStep n m) : Node.RingStep n m := by
  refine ⟨?_, h.svc.now, h.set⟩
  rw [h.rest]

theorem onHead (n : Node) (f : Head → Head) : Node.RingStep n (n.onHead f) := ⟨rfl, rfl, rfl⟩

theorem onPort (n : Node) (p : PortId) (f : Port → Port) : Node.RingStep n (n.onPort p f) := by
  cases p <;> exact ⟨rfl, rfl, rfl⟩

theorem withRing (n : Node) (r : Ring) : Node.RingStep n { n with ring := r } := ⟨rfl, rfl, rfl⟩

theorem post (n : Node) (c : NoticeCode) (b : Subject) (d : List Value) : Node.RingStep n (n.post c b d) :=
  of_win (.post ..)

end Node.RingStep

/-- CALL's part at a wayside that becomes ORPHAN or rejoins: its records and the services' queues. -/
structure Node.CallStep (n m : Node) : Prop where
  rest : m = { n with svc := m.svc, call := m.call }
  svc : Svc.Steady n.svc m.svc

namespace Node.CallStep

theorem refl (n : Node) : Node.CallStep n n := ⟨rfl, .refl _⟩

theorem trans {a b c : Node} (h : Node.CallStep a b) (k : Node.CallStep b c) : Node.CallStep a c := by
  refine ⟨?_, h.svc.trans k.svc⟩
  rw [k.rest, h.rest]

theorem foldl {α : Type} {f : Node → α → Node} (h : ∀ n a, Node.CallStep n (f n a)) (l : List α) (n : Node) :
    Node.CallStep n (l.foldl f n) := by
  induction l generalizing n with
  | nil => exact refl n
  | cons a l ih => exact (h n a).trans (ih _)

theorem onPhone (n : Node) (p : Nat) (f : Phone → Phone) : Node.CallStep n (n.onPhone p f) := ⟨rfl, .refl _⟩

theorem post (n : Node) (c : NoticeCode) (b : Subject) (d : List Value) : Node.CallStep n (n.post c b d) :=
  ⟨rfl, .post ..⟩

theorem offerCall (n : Node) (m : Message) : Node.CallStep n (n.offerCall m) := by
  have hs : Svc.Steady n.svc (n.svc.offerEmergency m).1 :=
    .of_keeps (Svc.keeps_offerEmergency n.svc m) ((Svc.Upholds.refl _).offerEmergency m)
  unfold Node.offerCall
  dsimp only
  split
  · exact ⟨rfl, hs⟩
  · exact ⟨rfl, hs⟩

theorem callOrphan (n : Node) : Node.CallStep n n.callOrphan := by
  refine foldl (fun m p => ?_) _ n
  split
  · split
    · exact (onPhone ..).trans (post ..)
    · exact refl m
  · exact refl m

theorem callRejoin (n : Node) : Node.CallStep n n.callRejoin := by
  refine foldl (fun m p => ?_) _ n
  split
  · split
    · exact (offerCall ..).trans (onPhone ..)
    · exact refl m
  · exact refl m

section
variable {n m : Node} (h : Node.CallStep n m)
include h

theorem ringStep : Node.RingStep n m := by
  refine ⟨?_, h.svc.now, h.svc.settings⟩
  rw [h.rest]

theorem ring : m.ring = n.ring := by rw [h.rest]
theorem head : m.head = n.head := by rw [h.rest]
theorem win : m.win = n.win := by rw [h.rest]
theorem port (p : PortId) : m.port p = n.port p := by rw [h.rest]; rfl

end

end Node.CallStep

/-! ## A loop that ends (R36, R43) -/

theorem Node.messageOver_win (n : Node) (src : BegunSrc) : (n.messageOver src).win = n.win := by
  cases src <;> rfl

/-- R36: of WIN the end of a holding touches the holding alone. -/
theorem Node.endHolding_win (n : Node) (l : Loop) :
    (n.endHolding l).win = n.win.onLoop l fun s => { s with holding := none } := by
  unfold Node.endHolding
  split
  · next h =>
    symm
    exact congrArg Node.win (n.onLoop_self l (f := fun s => { s with holding := none }) (by rw [← h]))
  · dsimp only
    split
    · rfl
    · rw [Node.messageOver_win]
      rfl

/-- R43: a loop that is present no more. -/
def LoopSt.ended (s : LoopSt) : LoopSt := { s with holding := none, present := false, lapLock := none, cwLock := false }

theorem Node.loopEnds_win (n : Node) (l : Loop) :
    (n.loopEnds l).win = (n.win.onLoop l LoopSt.ended).discardPartials fun q => q.loop = l := by
  have h := n.endHolding_win l
  unfold Node.loopEnds
  show Win.discardPartials (Win.onLoop (n.endHolding l).win l _) _ = _
  rw [h]
  cases l <;> rfl

theorem Win.loop_discardPartials (w : Win) (p : Partial → Bool) (l : Loop) : (w.discardPartials p).loop l = w.loop l := by
  cases l <;> rfl

theorem Node.loop_loopEnds (n : Node) (l : Loop) : (n.loopEnds l).win.loop l = (n.win.loop l).ended := by
  rw [Node.loopEnds_win, Win.loop_discardPartials]
  cases l <;> rfl

theorem Node.inner_loopEnds_outer (n : Node) : (n.loopEnds .outer).win.inner = n.win.inner := by
  rw [Node.loopEnds_win]
  rfl

theorem Node.outer_loopEnds_inner (n : Node) : (n.loopEnds .inner).win.outer = n.win.outer := by
  rw [Node.loopEnds_win]
  rfl

theorem Node.partials_loopEnds (n : Node) (l : Loop) : ∀ q ∈ (n.loopEnds l).win.partials, q.loop ≠ l := by
  rw [Node.loopEnds_win]
  intro q hq
  have h := (List.mem_filter.1 hq).2
  simpa using h

theorem Node.duplicate_loopEnds (n : Node) (l : Loop) : (n.loopEnds l).win.duplicate = n.win.duplicate := by
  rw [Node.loopEnds_win]
  cases l <;> rfl

/-- R37: the count has reached the limit. -/
theorem Node.tokenLost_eq (n : Node) (l : Loop) {t : Nat} (ht : (n.win.loop l).timer = some t)
    (h : n.set.tokenLossLimit ≤ n.svc.now - t) :
    n.tokenLost l = (n.onLoop l fun w =>
        { w with lap := (w.lap + 1) % 256, carried := some .free, timer := some n.svc.now,
                 reissued := bump 65535 w.reissued }).post .tokenReissued .none
        [.loop l, .nat (((n.win.loop l).lap + 1) % 256)] := by
  unfold Node.tokenLost
  rw [ht]
  dsimp only
  rw [if_pos h, Node.loop_onLoop]
  rfl

/-- Settles O22: by the token-loss timer of the loop, and by the end of its presence. -/
theorem loopTimers : Obligations.LoopTimers := by
  intro l s hphase
  refine ⟨fun t hhead ht hlimit => ?_, fun hway hpresent hseen => ?_⟩
  · refine (State.act_onRole hphase hhead).trans ?_
    rw [s.node.tokenLost_eq l ht hlimit]
  · have hends : s.node.loopCeases l = s.node.loopEnds l := if_pos (by simp [hpresent, hseen, Config.missLimit])
    have hrun : exec (.loopCeases l) s = .next (s.settled (s.node.loopEnds l)) := by
      refine (State.act_onRole hphase hway).trans ?_
      rw [hends]
    refine ⟨_, hrun, ?_⟩
    rw [State.settled_node]
    have hk := Node.keeps_settle (s.node.loopEnds l)
    have hw := Node.WinStep.loopEnds s.node l
    have hloop := s.node.loop_loopEnds l
    rw [hk.win, hk.phones, hk.toll, hw.call, hw.toll, hloop]
    exact ⟨rfl, rfl, rfl, rfl, s.node.partials_loopEnds l, s.node.duplicate_loopEnds l, rfl, rfl⟩

end Sys2Proof.Machine


/-! SUPPORT. What becomes of the attachment, the origin and the ring state (R14 to R19, R25), with the statement on the ring
timers. -/

namespace Sys2Proof.Machine

theorem Node.WinStep.ite {n a b : Node} {c : Prop} [Decidable c] (h : Node.WinStep n a) (k : Node.WinStep n b) :
    Node.WinStep n (if c then a else b) := by
  split
  · exact h
  · exact k

/-! ## The attachment (R14 to R16) -/

/-- R16: the attachment is told, and what stands in the relay path is lost. -/
def Node.attachTold (n : Node) (new : Attach) : Node :=
  let told := Node.post { n with ring := { n.ring with attach := new } } .attachState .none
    [.attach n.ring.attach, .attach new]
  { told with
    east := { n.east with sent := none }, west := { n.west with sent := none }
    win := n.win.discardPartials fun _ => true }

/-- R16: a node that was ORPHAN is one no more. -/
def Node.asOrphan (n : Node) : Node :=
  let t := n.attachTold .orphan
  { t with
    ring := { n.ring with attach := .orphan, restoring := false, timer := none, lastSurvey := none }
    svc := { t.svc with time := { t.svc.time with sync := false } } }

theorem Node.setAttach_linked (n : Node) {new : Attach} (ho : n.ring.attach ≠ .orphan) (hn : new ≠ .orphan) :
    n.setAttach new = n.attachTold new := (if_neg hn).trans (if_neg ho)

theorem Node.setAttach_rejoin (n : Node) {new : Attach} (ho : n.ring.attach = .orphan) (hn : new ≠ .orphan) :
    n.setAttach new = (n.attachTold new).callRejoin := (if_neg hn).trans (if_pos ho)

theorem Node.setAttach_orphan (n : Node) :
    n.setAttach .orphan = ((n.asOrphan.loopEnds .outer).loopEnds .inner).callOrphan := by
  unfold Node.setAttach
  exact if_pos rfl

theorem Node.RingStep.attachTold (n : Node) (new : Attach) : Node.RingStep n (n.attachTold new) :=
  ⟨rfl, (Svc.keeps_post n.svc _ _ _).now, (Svc.keeps_post n.svc _ _ _).settings⟩

theorem Node.attachTold_time (n : Node) (new : Attach) : (n.attachTold new).svc.time = n.svc.time :=
  (Svc.keeps_post n.svc _ _ _).time

theorem Node.RingStep.asOrphan (n : Node) : Node.RingStep n n.asOrphan :=
  ⟨rfl, (attachTold n .orphan).now, (attachTold n .orphan).set⟩

/-- A port of a node whose relay path was lost. -/
theorem Node.port_attachTold (n : Node) (new : Attach) (p : PortId) :
    (n.attachTold new).port p = { n.port p with sent := none } := by cases p <;> rfl

/-- R14, R16: what has become of a node that became ORPHAN. -/
structure Node.Orphaned (n m : Node) : Prop where
  step : Node.RingStep n m
  ring : m.ring = { n.ring with attach := .orphan, restoring := false, timer := none, lastSurvey := none }
  head : m.head = n.head
  port : ∀ p, m.port p = { n.port p with sent := none }
  sync : m.svc.time.sync = false
  loop : ∀ l, (m.win.loop l).present = false

theorem Node.orphaned_setAttach (n : Node) : Node.Orphaned n (n.setAttach .orphan) := by
  have hc := Node.CallStep.callOrphan ((n.asOrphan.loopEnds .outer).loopEnds .inner)
  have hi := Node.WinStep.loopEnds (n.asOrphan.loopEnds .outer) .inner
  have ho := Node.WinStep.loopEnds n.asOrphan .outer
  have hw := ho.trans hi
  rw [Node.setAttach_orphan]
  refine ⟨?_, ?_, ?_, fun p => ?_, ?_, fun l => ?_⟩
  · exact ((Node.RingStep.asOrphan n).trans (.of_win hw)).trans hc.ringStep
  · rw [hc.ring, hw.ring]
    rfl
  · rw [hc.head, hw.head]
    rfl
  · rw [hc.port, hw.port]
    cases p <;> rfl
  · rw [hc.svc.time, hw.svc.time]
    rfl
  · rw [hc.win]
    cases l with
    | inner => exact congrArg LoopSt.present (Node.loop_loopEnds _ .inner)
    | outer =>
      show ((n.asOrphan.loopEnds .outer).loopEnds .inner).win.outer.present = false
      rw [Node.outer_loopEnds_inner]
      exact congrArg LoopSt.present (Node.loop_loopEnds _ .outer)

/-- R16: what has become of a node whose attachment changed to one that is not ORPHAN. -/
structure Node.Attached (n m : Node) (new : Attach) : Prop where
  step : Node.RingStep n m
  ring : m.ring = { n.ring with attach := new }
  head : m.head = n.head
  port : ∀ p, m.port p = { n.port p with sent := none }
  time : m.svc.time = n.svc.time
  phones : n.ring.attach ≠ .orphan → m.call = n.call

theorem Node.attached_attachTold (n : Node) (new : Attach) : Node.Attached n (n.attachTold new) new :=
  ⟨.attachTold .., rfl, rfl, n.port_attachTold new, n.attachTold_time new, fun _ => rfl⟩

theorem Node.attached_setAttach (n : Node) {new : Attach} (hn : new ≠ .orphan) :
    Node.Attached n (n.setAttach new) new := by
  have ht := n.attached_attachTold new
  by_cases ho : n.ring.attach = .orphan
  · rw [n.setAttach_rejoin ho hn]
    have hc := Node.CallStep.callRejoin (n.attachTold new)
    exact ⟨ht.step.trans hc.ringStep, hc.ring.trans ht.ring, hc.head.trans ht.head, fun p => (hc.port p).trans (ht.port p),
      hc.svc.time.trans ht.time, fun h => absurd ho h⟩
  · rw [n.setAttach_linked ho hn]
    exact ht

theorem Node.RingStep.setAttach (n : Node) (new : Attach) : Node.RingStep n (n.setAttach new) := by
  by_cases hn : new = .orphan
  · subst hn
    exact n.orphaned_setAttach.step
  · exact (n.attached_setAttach hn).step

/-! ## The ring state at the head-end (R17, R19, R22) -/

/-- R22: the number of the next survey. -/
def Head.nextSurvey (h : Head) : Nat := if h.lastSurvey < 255 then h.lastSurvey + 1 else 1

/-- R22: a survey as it starts. -/
def Node.newSurvey (n : Node) : Survey :=
  { number := n.head.nextSurvey, kind := if n.head.state = .closed then .closed else .presence, start := n.svc.now,
    entries := [], overflow := false }

theorem Node.startSurvey_eq (n : Node) :
    n.startSurvey =
      { n with head := { n.head with lastSurvey := n.head.nextSurvey, survey := some n.newSurvey }
               win := { n.win with survey := some n.head.nextSurvey } } := rfl

theorem Node.RingStep.startSurvey (n : Node) : Node.RingStep n n.startSurvey := ⟨rfl, rfl, rfl⟩

/-- R19, R44: a change of the ring state acts on the state, on WIN and at last starts a survey. -/
theorem Node.setRing_step (n : Node) (new : RingState) :
    ∃ m, n.setRing new = m.startSurvey ∧ Node.WinStep (n.onHead fun h => { h with state := new }) m := by
  unfold Node.setRing
  extract_lets old m1 m2 m3 m4 m5 m6
  refine ⟨m6, rfl, ?_⟩
  have h3 : Node.WinStep m1 m3 := (Node.WinStep.post ..).trans (.onWin ..)
  have h4 : Node.WinStep m1 m4 := .ite (h3.trans (.endInner _)) h3
  have h5 : Node.WinStep m1 m5 := .ite (h4.trans (.onLoop ..)) (.ite (h4.trans (.restartLoss ..)) h4)
  exact .ite (h5.trans (.beginLoop ..)) h5

/-- R19: what has become of a head-end whose ring state changed. -/
structure Node.RingSet (n m : Node) (new : RingState) : Prop where
  head : ∃ k sv, m.head = { n.head with state := new, lastSurvey := k, survey := some sv } ∧ sv.start = n.svc.now ∧
    sv.kind = (if new = .closed then .closed else .presence) ∧ sv.entries = []
  call : m.call = n.call
  step : Node.RingStep n m
  port : ∀ p, m.port p = n.port p

theorem Node.ringSet_setRing (n : Node) (new : RingState) : Node.RingSet n (n.setRing new) new := by
  obtain ⟨m, hm, hw⟩ := n.setRing_step new
  rw [hm]
  refine ⟨⟨m.head.nextSurvey, m.newSurvey, ?_, ?_, ?_, rfl⟩, hw.call, ?_, hw.port⟩
  · rw [Node.startSurvey_eq]
    dsimp only
    rw [hw.head]
    rfl
  · exact hw.svc.now
  · show (if m.head.state = .closed then SurveyKind.closed else .presence) = _
    rw [hw.head]
    rfl
  · exact ((Node.RingStep.onHead ..).trans (.of_win hw)).trans (.startSurvey m)

/-- R17: the origin is EAST again. -/
theorem Node.originEast_step (n : Node) :
    Node.WinStep (n.onHead fun h => { h with origin := .east, restoring := false, timer := none }) n.originEast := by
  unfold Node.originEast
  exact .ite (.restartLoss ..) (.refl _)

/-! ## A survey that nobody answered (R24, R25) -/

/-- R24: a map entry of a station that did not answer. -/
def MapEntry.lost (k : SurveyKind) (e : MapEntry) : MapEntry :=
  { e with presence := .unreachable, position := if k = .closed then none else e.position }

theorem MapEntry.lost_lost (k : SurveyKind) (e : MapEntry) : (e.lost k).lost k = e.lost k := by
  unfold MapEntry.lost
  split
  · rfl
  · rfl

/-- R24: a station is lost where no entry answered. -/
theorem Node.loseStation_unanswered {sv : Survey} (h : sv.entries = []) (n : Node) (e : MapEntry) :
    Node.WinStep (n.onHead fun h =>
      { h with map := h.map.map fun y => if y.station = e.station then y.lost sv.kind else y })
      (Node.loseStation sv n e) := by
  unfold Node.loseStation
  have hnone : ¬ (sv.entries.any fun y => decide (y.station = e.station)) = true := by simp [h]
  rw [if_neg hnone]
  exact .ite (.post ..) (.refl _)

/-- R24: the map after the entries `l` were lost one by one. -/
def loseAll (k : SurveyKind) (l : List MapEntry) (map : List MapEntry) : List MapEntry :=
  l.foldl (fun map e => map.map fun y => if y.station = e.station then y.lost k else y) map

theorem loseAll_eq (k : SurveyKind) (l map : List MapEntry) :
    loseAll k l map = map.map fun y => if l.any (fun e => y.station = e.station) then y.lost k else y := by
  induction l generalizing map with
  | nil => simp [loseAll]
  | cons e l ih =>
    unfold loseAll at ih ⊢
    rw [List.foldl_cons, ih, List.map_map]
    refine List.map_congr_left fun y _ => ?_
    simp only [Function.comp_apply, List.any_cons]
    by_cases he : y.station = e.station
    · simp only [he, decide_true, if_true, Bool.true_or]
      split
      · exact MapEntry.lost_lost k y
      · rfl
    · simp only [he, decide_false, if_false, Bool.false_or]

theorem loseAll_self (k : SurveyKind) (map : List MapEntry) : loseAll k map map = map.map (MapEntry.lost k) := by
  rw [loseAll_eq]
  refine List.map_congr_left fun y hy => ?_
  rw [if_pos (List.any_eq_true.2 ⟨y, hy, by simp⟩)]

theorem Node.loseStations_unanswered {sv : Survey} (h : sv.entries = []) (l : List MapEntry) (n : Node) :
    Node.WinStep (n.onHead fun h => { h with map := loseAll sv.kind l h.map }) (l.foldl (Node.loseStation sv) n) := by
  induction l generalizing n with
  | nil => exact .refl _
  | cons e l ih =>
    have hstep := Node.loseStation_unanswered h n e
    have hrest := ih (Node.loseStation sv n e)
    refine Node.WinStep.trans ?_ hrest
    refine ⟨?_, hstep.svc⟩
    rw [hstep.rest]
    rfl

/-- R24, R25: a survey that ends as though no station had answered. -/
theorem Node.endSurvey_unanswered (n : Node) {sv : Survey} (h : sv.entries = []) (ho : sv.overflow = false) :
    Node.WinStep (n.onHead fun h => { h with survey := none, map := n.head.map.map (MapEntry.lost sv.kind) })
      (n.endSurvey sv) := by
  have hlost := Node.loseStations_unanswered h n.head.map (n.onHead fun h => { h with survey := none })
  unfold Node.endSurvey
  rw [h, ho]
  refine Node.WinStep.trans ?_ (.post ..)
  refine Node.WinStep.trans (b := n.head.map.foldl (Node.loseStation sv) (n.onHead fun h => { h with survey := none })) ?_
    (.refl _)
  rw [← loseAll_self]
  exact hlost

/-! ## The statement -/

/-- Settles O19: by what has become of the attachment, the origin, the ring state and the map. -/
theorem ringTimersExpire : Obligations.RingTimersExpire := by
  refine ⟨fun s hphase hway => ⟨fun hattach hmarker => ?_, fun hrest hdue hfold => ?_⟩,
    fun s hphase hhead => ⟨fun hrest hdue => ?_, fun hreturn hstate => ?_, fun old hold hlimit => ?_⟩⟩
  · have hrun : exec .noGoodMarkerTimeout s = .next (s.settled (s.node.setAttach .orphan)) := by
      refine (State.act_onRole hphase hway).trans ?_
      rw [Node.noGoodMarker, if_pos ⟨hattach, hmarker⟩]
    have ho := s.node.orphaned_setAttach
    generalize s.node.setAttach .orphan = m at hrun ho
    refine ⟨_, hrun, ?_⟩
    rw [State.settled_node]
    have hk := Node.keeps_settle m
    rw [hk.ring, hk.svc.time, hk.win, hk.toll, hk.rules, ho.ring, ho.step.toll, ho.step.rules]
    exact ⟨rfl, rfl, rfl, ho.sync, ho.loop .outer, ho.loop .inner, rfl, rfl⟩
  · have hne : s.node.ring.attach ≠ .orphan := by rcases hfold with h | h <;> simp [h]
    have hrun : exec .waitToRestoreExpiry s = .next (s.settled s.node.openOut) := by
      refine (State.act_onRole hphase hway).trans ?_
      rw [Node.restoreExpires, if_pos (by simp [hrest, hdue])]
    have ha := s.node.stopRestoring.attached_setAttach (new := .through) (by decide)
    refine ⟨_, hrun, ?_⟩
    rw [State.settled_node]
    have hk := Node.keeps_settle s.node.openOut
    rw [hk.ring, hk.toll, hk.phones, Node.openOut, ha.ring, ha.step.toll, ha.phones hne]
    exact ⟨rfl, rfl, rfl, rfl, rfl⟩
  · have hrun : exec .headEndRestoreExpiry s = .next (s.settled s.node.originEast) := by
      refine (State.act_onRole hphase hhead).trans ?_
      rw [Node.headRestoreExpires, if_pos (by simp [hrest, hdue])]
    have he := s.node.originEast_step
    refine ⟨_, hrun, ?_⟩
    rw [State.settled_node]
    have hk := Node.keeps_settle s.node.originEast
    rw [hk.head, hk.table, he.head, he.call]
    exact ⟨rfl, rfl, rfl, rfl, rfl⟩
  · have hrun : exec .returnTimeout s =
        .next (s.settled ((s.node.onHead fun h => { h with closing := 0 }).setRing .opened)) := by
      refine (State.act_onRole hphase hhead).trans ?_
      rw [Node.returnTimeout, if_pos (show Config.missLimit ≤ _ from hreturn)]
      exact congrArg (fun m => Host.Outcome.next (s.settled m)) (if_neg hstate)
    have hr := (s.node.onHead fun h => { h with closing := 0 }).ringSet_setRing .opened
    obtain ⟨k, sv, hh, hstart, hkind, -⟩ := hr.head
    refine ⟨_, sv, hrun, ?_⟩
    rw [State.settled_node]
    have hk := Node.keeps_settle ((s.node.onHead fun h => { h with closing := 0 }).setRing .opened)
    rw [hk.head, hk.table, hh, hr.call]
    exact ⟨rfl, rfl, rfl, hkind, hstart, rfl, rfl⟩
  · have hlim : ¬ s.node.svc.now - old.start < Config.surveyLimit := Nat.not_lt.2 hlimit
    by_cases ho : s.node.head.state = .opened
    · have hrun : exec .surveyTimeout s =
          .next (s.settled (s.node.endSurvey { old with entries := [], overflow := false }).startSurvey) := by
        refine (State.act_onRole hphase hhead).trans ?_
        rw [Node.surveyTimeout, hold]
        dsimp only
        rw [if_neg hlim, if_pos ho]
      have he := s.node.endSurvey_unanswered (sv := { old with entries := [], overflow := false }) rfl rfl
      generalize s.node.endSurvey { old with entries := [], overflow := false } = m at hrun he
      refine ⟨_, m.newSurvey, hrun, ?_⟩
      rw [State.settled_node]
      have hk := Node.keeps_settle m.startSurvey
      rw [hk.head, hk.table, Node.startSurvey_eq]
      dsimp only
      rw [he.head, he.call]
      exact ⟨rfl, he.svc.now, rfl, rfl, fun h => absurd ho h, fun _ => rfl, rfl⟩
    · have hrun : exec .surveyTimeout s = .next (s.settled s.node.startSurvey) := by
        refine (State.act_onRole hphase hhead).trans ?_
        rw [Node.surveyTimeout, hold]
        dsimp only
        rw [if_neg hlim, if_neg ho]
      refine ⟨_, s.node.newSurvey, hrun, ?_⟩
      rw [State.settled_node]
      have hk := Node.keeps_settle s.node.startSurvey
      rw [hk.head, hk.table, Node.startSurvey_eq]
      exact ⟨rfl, rfl, rfl, rfl, fun _ => rfl, fun h => absurd h ho, rfl⟩

end Sys2Proof.Machine


/-! SUPPORT. A cycle that comes back to the head-end (R18, R19) and a bare cycle at a wayside (R13, R21), with the
statements on them. -/

namespace Sys2Proof.Machine

/-! ## Ports of the head-end (R17) -/

theorem Node.headPort_west (n : Node) (run : Bool) : n.headPort .west run = n := by
  unfold Node.headPort
  cases run <;> cases n.head.origin <;> rfl

/-- R17: RING goes by the head-end's EAST port alone. -/
theorem Node.changePort_west {n : Node} (h : n.isHead = true) (new : PortState) (c : PortCause) :
    (n.changePort .west new c).head = n.head := by
  unfold Node.changePort
  extract_lets old m1 m2 wasRun isRun
  have h2 : m2.head = n.head ∧ m2.isHead = true := by
    unfold m2
    split
    · exact ⟨rfl, h⟩
    · exact ⟨rfl, (Node.WinStep.post m1 _ _ _).isHead.trans h⟩
  split
  · exact h2.1
  · rw [if_pos h2.2, Node.headPort_west]
    exact h2.1

theorem Node.judgePort_west {n : Node} (h : n.isHead = true) (errors : Nat) :
    (n.judgePort .west errors).head = n.head := by
  unfold Node.judgePort
  extract_lets r
  split
  · split
    · exact Node.changePort_west h ..
    · rfl
  · split
    · exact Node.changePort_west h ..
    · rfl
  · split
    · exact Node.changePort_west h ..
    · split
      · exact Node.changePort_west h ..
      · rfl
  · rfl

theorem Node.classify_west {n : Node} (h : n.isHead = true) (good : Bool) (errors : Nat) :
    (n.classify .west good errors).head = n.head :=
  (Node.judgePort_west (by rw [Node.isHead_onPort]; exact h) errors).trans rfl

/-! ## Surveys leave the ring state alone (R24) -/

/-- What a survey in progress may touch: the head-end's map and survey, and the notices. -/
structure Node.SurveyStep (n m : Node) : Prop where
  rest : m = { n with svc := m.svc, head := { n.head with map := m.head.map, survey := m.head.survey } }
  svc : Svc.Steady n.svc m.svc

namespace Node.SurveyStep

theorem refl (n : Node) : Node.SurveyStep n n := ⟨rfl, .refl _⟩

theorem trans {a b c : Node} (h : Node.SurveyStep a b) (k : Node.SurveyStep b c) : Node.SurveyStep a c := by
  refine ⟨?_, h.svc.trans k.svc⟩
  rw [k.rest, h.rest]

theorem ite {n a b : Node} {c : Prop} [Decidable c] (h : Node.SurveyStep n a) (k : Node.SurveyStep n b) :
    Node.SurveyStep n (if c then a else b) := by
  split
  · exact h
  · exact k

theorem foldl {α : Type} {f : Node → α → Node} (h : ∀ n a, Node.SurveyStep n (f n a)) (l : List α) (n : Node) :
    Node.SurveyStep n (l.foldl f n) := by
  induction l generalizing n with
  | nil => exact refl n
  | cons a l ih => exact (h n a).trans (ih _)

theorem post (n : Node) (c : NoticeCode) (b : Subject) (d : List Value) : Node.SurveyStep n (n.post c b d) :=
  ⟨rfl, .post ..⟩

theorem withMap (n : Node) (l : List MapEntry) : Node.SurveyStep n (n.onHead fun h => { h with map := l }) :=
  ⟨rfl, .refl _⟩

theorem withSurvey (n : Node) (s : Option Survey) : Node.SurveyStep n (n.onHead fun h => { h with survey := s }) :=
  ⟨rfl, .refl _⟩

theorem placeEntry (n : Node) (e : MapEntry) (c : NoticeCode) : Node.SurveyStep n (n.placeEntry e c) := by
  unfold Node.placeEntry
  refine .ite ((withMap ..).trans (post ..)) (.ite ((withMap ..).trans (post ..)) ?_)
  split
  · exact (withMap ..).trans (post ..)
  · exact post ..

theorem surveyEntry (sv : Survey) (n : Node) (x : Nat × SurveyEntry) :
    Node.SurveyStep n (Node.surveyEntry sv n x) := by
  unfold Node.surveyEntry
  exact .ite (.ite (placeEntry ..) (withMap ..)) (.ite (withMap ..) (placeEntry ..))

theorem loseStation (sv : Survey) (n : Node) (e : MapEntry) : Node.SurveyStep n (Node.loseStation sv n e) := by
  unfold Node.loseStation
  exact .ite (refl n) (.ite ((withMap ..).trans (post ..)) (withMap ..))

theorem endSurvey (n : Node) (sv : Survey) : Node.SurveyStep n (n.endSurvey sv) := by
  unfold Node.endSurvey
  extract_lets m1 m2 m3 m4 present
  have h1 : Node.SurveyStep n m1 := withSurvey ..
  have h2 : Node.SurveyStep n m2 := h1.trans (foldl (loseStation sv) _ _)
  have h3 : Node.SurveyStep n m3 := h2.trans (foldl (surveyEntry sv) _ _)
  have h4 : Node.SurveyStep n m4 := .ite (h3.trans (post ..)) h3
  exact h4.trans (post ..)

theorem gatherSurvey (n : Node) (s : Slot) : Node.SurveyStep n (n.gatherSurvey s) := by
  unfold Node.gatherSurvey
  split
  · exact .ite (.ite (endSurvey ..) (withSurvey ..)) (refl n)
  · exact refl n

end Node.SurveyStep

/-! ## Returns (R18, R19) -/

/-- R18: what a strip leaves of the head-end: the map and the survey are RING's, the rest WIN's, CALL's and the services'. -/
structure Node.Stripped (n m : Node) : Prop where
  head : m.head = { n.head with map := m.head.map, survey := m.head.survey }
  isHead : m.isHead = n.isHead
  port : ∀ p, m.port p = n.port p
  now : m.svc.now = n.svc.now

theorem Node.Stripped.of_parts {n a b c : Node} (h : Node.WinStep n a) (hs : Node.SurveyStep a b)
    (hw : Node.WinStep b c) : Node.Stripped n c := by
  refine ⟨?_, ?_, fun p => ?_, ?_⟩
  · rw [hw.head, hs.rest, h.head]
  · rw [hw.isHead, Node.isHead, hs.svc.settings]
    exact h.isHead
  · rw [hw.port, hs.rest]
    exact h.port p
  · rw [hw.svc.now, hs.svc.now, h.svc.now]

theorem Node.stripped_strip (n : Node) (p : PortId) (c : Cycle) (k : Content) : Node.Stripped n (n.strip p c k) := by
  unfold Node.strip
  extract_lets x m m'
  have hm : Node.Stripped n m' :=
    .of_parts (.stripData n c.loop k.data) (.foldl .gatherSurvey x.2 x.1) (.stripMgmt ..)
  split
  · exact hm
  · exact hm
  · exact ⟨hm.head, hm.isHead, hm.port, hm.now⟩

/-- R19: an unfolded return at the head-end. -/
theorem Node.unfoldedReturn_head (n : Node) :
    ∃ k sv, n.unfoldedReturn.head =
      { n.head with closing := n.head.closing + 1, lastSurvey := k, survey := sv
                    state := if 8 ≤ n.head.closing + 1 then .closed else n.head.state } := by
  unfold Node.unfoldedReturn
  extract_lets m
  split
  · next h =>
    obtain ⟨k, sv, hh, -⟩ := (m.ringSet_setRing .closed).head
    refine ⟨k, some sv, hh.trans ?_⟩
    rw [if_pos (show 8 ≤ n.head.closing + 1 from h.2)]
    rfl
  · next h =>
    refine ⟨n.head.lastSurvey, n.head.survey, ?_⟩
    by_cases hrun : 8 ≤ n.head.closing + 1
    · have hclosed : n.head.state = .closed := Classical.byContradiction fun hne => h ⟨hne, hrun⟩
      rw [if_pos hrun, ← hclosed]
      rfl
    · rw [if_neg hrun]
      rfl

/-- R19: a folded return at the head-end. -/
theorem Node.foldedReturn_head (n : Node) :
    ∃ k sv, n.foldedReturn.head = { n.head with closing := 0, lastSurvey := k, survey := sv, state := .wrapped } := by
  unfold Node.foldedReturn
  extract_lets m
  split
  · next h =>
    refine ⟨n.head.lastSurvey, n.head.survey, ?_⟩
    rw [← show n.head.state = .wrapped from h]
    rfl
  · obtain ⟨k, sv, hh, -⟩ := (m.ringSet_setRing .wrapped).head
    exact ⟨k, some sv, hh⟩

theorem Node.unfoldedReturn_isHead (n : Node) : n.unfoldedReturn.isHead = n.isHead := by
  unfold Node.unfoldedReturn
  extract_lets m
  split
  · exact (m.ringSet_setRing .closed).step.isHead
  · rfl

theorem Node.foldedReturn_isHead (n : Node) : n.foldedReturn.isHead = n.isHead := by
  unfold Node.foldedReturn
  extract_lets m
  split
  · rfl
  · exact (m.ringSet_setRing .wrapped).step.isHead

/-- R18: a full cycle at the head-end's WEST. -/
theorem Node.fullReturn_west (n : Node) (c : Cycle) (k : Content) :
    n.fullReturn .west c k =
      let m := (n.onHead fun h => { h with lastReturn := n.svc.now }).strip .west c k
      if c.marker.foldCount = 0 then m.unfoldedReturn else m.foldedReturn := by
  unfold Node.fullReturn
  cases n.head.origin <;> rfl

/-- R18, R4: a full cycle with a good marker at the head-end's WEST. -/
theorem Node.returns_west {n : Node} (hc : PortState.carries n.west.state = true) {c : Cycle} {k : Content}
    (hk : c.content = some k) (good : Bool) (errors : Nat) :
    n.returns .west c good errors = (n.fullReturn .west c k).classify .west good errors := by
  unfold Node.returns
  rw [if_pos (show PortState.carries (n.port .west).state = true from hc), hk]

/-- Settles O20: by the strip, which leaves the ring state alone, and by the fold count. -/
theorem returnsMakeTheRingState : Obligations.ReturnsMakeTheRingState := by
  intro c k s hphase hhead hcarries hcontent
  have hrun : exec (.cycleReturns .west c true 0) s = .next (s.settled (s.node.returns .west c true 0)) :=
    State.act_onRole hphase hhead
  have htable := (Node.Calm.returns s.node .west c true 0).table
  have hs := (s.node.onHead fun h => { h with lastReturn := s.node.svc.now }).stripped_strip .west c k
  have hreturns := Node.returns_west hcarries hcontent true 0
  rw [Node.fullReturn_west] at hreturns
  generalize (s.node.onHead fun h => { h with lastReturn := s.node.svc.now }).strip .west c k = m at hs hreturns
  have hm : m.isHead = true := hs.isHead.trans hhead
  refine ⟨_, hrun, ?_⟩
  rw [State.settled_node]
  have hk := Node.keeps_settle (s.node.returns .west c true 0)
  rw [hk.head, hk.table, htable, hreturns]
  dsimp only
  by_cases hfold : c.marker.foldCount = 0
  · obtain ⟨j, sv, hhead'⟩ := m.unfoldedReturn_head
    rw [if_pos hfold, Node.classify_west (m.unfoldedReturn_isHead.trans hm), hhead', hs.head]
    exact ⟨rfl, rfl, fun _ => ⟨rfl, rfl⟩, fun h => absurd hfold h, rfl⟩
  · obtain ⟨j, sv, hhead'⟩ := m.foldedReturn_head
    rw [if_neg hfold, Node.classify_west (m.foldedReturn_isHead.trans hm), hhead', hs.head]
    exact ⟨rfl, rfl, fun h => absurd h hfold, fun _ => ⟨rfl, rfl⟩, rfl⟩

/-! ## A bare cycle at a wayside (R13, R21) -/

theorem Node.passCycle_bare (n : Node) {c : Cycle} (h : c.content = none) : n.passCycle c = (n, c) := by
  unfold Node.passCycle
  rw [h]

/-- R13: a copy of a bare cycle is the cycle itself. -/
theorem Cycle.bare_bare {c : Cycle} (h : c.content = none) : Cycle.bare c = c := by
  unfold Cycle.bare
  rw [← h]

theorem Node.direct_carries (n : Node) (p : PortId) (c : Cycle) (h : PortState.carries (n.port p).state = true) :
    n.direct p c = n.onPort p fun r => { r with sent := some c } := by
  cases p <;> (unfold Node.direct; simp only [Node.onPort, Node.port] at h ⊢; rw [Port.direct, if_pos h])

/-- What of the node the passing on of a bare cycle leaves: all but the ports' cycles and markers. -/
structure Node.PortsStep (n m : Node) : Prop where
  rest : m = { n with east := m.east, west := m.west }
  kept : ∀ p, (m.port p).state = (n.port p).state
  good : ∀ p, PortState.carries (n.port p).state = true → (m.port p).good = (n.port p).good

namespace Node.PortsStep

theorem refl (n : Node) : Node.PortsStep n n := ⟨rfl, fun _ => rfl, fun _ _ => rfl⟩

theorem trans {a b c : Node} (h : Node.PortsStep a b) (k : Node.PortsStep b c) : Node.PortsStep a c := by
  refine ⟨?_, fun p => (k.kept p).trans (h.kept p), fun p hc => ?_⟩
  · rw [k.rest, h.rest]
  · exact (k.good p (by rw [h.kept]; exact hc)).trans (h.good p hc)

theorem onPort (n : Node) (p : PortId) {f : Port → Port} (h : (f (n.port p)).state = (n.port p).state)
    (hg : PortState.carries (n.port p).state = true → (f (n.port p)).good = (n.port p).good) :
    Node.PortsStep n (n.onPort p f) := by
  refine ⟨?_, fun q => ?_, fun q hc => ?_⟩
  · cases p <;> rfl
  · cases p <;> cases q <;> first | exact h | rfl
  · cases p <;> cases q <;> first | exact hg hc | rfl

end Node.PortsStep

theorem Port.direct_state (r : Port) (c : Cycle) : (r.direct c).state = r.state := by
  unfold Port.direct
  split
  · rfl
  · split
    · rfl
    · rfl

theorem Node.PortsStep.direct (n : Node) (p : PortId) (c : Cycle) : Node.PortsStep n (n.direct p c) := by
  refine .onPort n p (Port.direct_state ..) fun hc => ?_
  rw [Port.direct, if_pos hc]

/-- R13: a bare cycle passes a wayside without leaving a trace but in the ports. -/
theorem Node.portsStep_directArrival (n : Node) (p : PortId) {c : Cycle} (h : c.content = none) :
    Node.PortsStep n (n.directArrival p c) := by
  have relay : Node.PortsStep n (n.relay p c) := by
    unfold Node.relay
    rw [n.passCycle_bare h]
    split
    · exact .direct ..
    · exact .refl n
  have turn (q : PortId) : Node.PortsStep n (n.turn q c) := by
    unfold Node.turn
    rw [n.passCycle_bare h]
    exact (Node.PortsStep.direct ..).trans (.direct ..)
  have early : Node.PortsStep n (n.earlyEnd c) := by
    rw [Node.earlyEnd, if_neg (by simp [h])]
    exact .refl n
  unfold Node.directArrival
  split
  · exact relay
  · exact relay
  · exact turn .west
  · exact early
  · exact turn .east
  · exact early

/-- R13: a THROUGH or ORPHAN node relays a bare cycle. -/
theorem Node.directArrival_relayed (n : Node) (p : PortId) {c : Cycle} (h : c.content = none)
    (ha : n.ring.attach = .through ∨ n.ring.attach = .orphan) (hp : PortState.carries (n.port p).state = true)
    (hr : (n.port p).state ≠ .recover) : n.directArrival p c = n.direct (otherPort p) c := by
  have hrun : (n.port p).state = .align ∨ (n.port p).state = .run := by
    cases hst : (n.port p).state <;> simp_all [PortState.carries]
  have hrelay : n.relay p c = n.direct (otherPort p) c := by
    unfold Node.relay
    rw [if_pos hrun, n.passCycle_bare h]
  unfold Node.directArrival
  rcases ha with ha | ha <;> rw [ha] <;> exact hrelay

/-- R13: a folded node turns a bare cycle that comes to the port it relies on. -/
theorem Node.directArrival_turned (n : Node) (p : PortId) {c : Cycle} (h : c.content = none)
    (ha : n.ring.attach = foldTo (otherPort p)) :
    n.directArrival p c = (n.direct p (Cycle.turned c)).direct (otherPort p) (Cycle.turned c) := by
  have hturn : n.turn p c = (n.direct p (Cycle.turned c)).direct (otherPort p) (Cycle.turned c) := by
    unfold Node.turn
    rw [n.passCycle_bare h]
    dsimp only
    rw [Cycle.bare_bare (c := Cycle.turned c) h]
  unfold Node.directArrival
  rw [ha]
  cases p <;> exact hturn

/-- R4: a port as a good marker without coding errors leaves it. -/
def Port.marked (r : Port) : Port :=
  if PortState.classifies (r.addErrors 0).state then
    { (r.addErrors 0).countMarker true with markerSeen := true } else r.addErrors 0

theorem Port.addErrors_zero (r : Port) : r.addErrors 0 = r := by
  unfold Port.addErrors
  split
  · rfl
  · rfl
  · rfl

theorem Port.marked_sent (r : Port) : r.marked.sent = r.sent := by
  unfold Port.marked
  rw [Port.addErrors_zero]
  split
  · rfl
  · rfl

theorem Port.marked_carries {r : Port} (h : PortState.carries r.state = true) :
    r.marked = { r with good := bump 255 r.good, missing := 0, markerSeen := true } := by
  have hc : PortState.classifies r.state = true := by
    cases hst : r.state <;> simp_all [PortState.carries, PortState.classifies]
  rw [Port.marked, Port.addErrors_zero, if_pos hc]
  rfl

/-- R8: one more good marker is not the eighth in a row. -/
theorem bump_good {k : Nat} (h : k < 7) : ¬ 8 ≤ bump 255 k := by
  rw [bump, if_pos (by omega)]
  omega

/-- R4, R8, R9: a good marker that is not the eighth in a row brings no change of state. -/
theorem Node.classify_kept (n : Node) (p : PortId) (hc : PortState.carries (n.port p).state = true)
    (ha : (n.port p).state ≠ .align ∨ (n.port p).good < 7) (hr : (n.port p).state ≠ .recover ∨ (n.port p).good < 7) :
    n.classify p true 0 = n.onPort p fun _ => (n.port p).marked := by
  have hj := n.judgePort_onPort p (n.port p).marked 0
  have hon : n.classify p true 0 = (n.onPort p fun _ => (n.port p).marked).judgePort p 0 := by
    cases p <;> rfl
  rw [hon, hj, Port.marked_carries hc]
  dsimp only
  rw [if_neg, if_neg, if_neg]
  · exact fun h => absurd h.2.1 (Nat.lt_irrefl 0)
  · exact fun h => absurd h.2 (by decide)
  · rintro ⟨hst, hgood⟩
    have hlow : (n.port p).good < 7 := by
      rcases hst with hst | hst
      · exact ha.resolve_left (fun hne => hne hst)
      · exact hr.resolve_left (fun hne => hne hst)
    exact bump_good hlow hgood

/-- R4: a port whose error window turns over where `b` says so. -/
def Port.turnedIf (b : Bool) (r : Port) : Port := if b then turnWindow r else r

theorem Port.turnedIf_state (b : Bool) (r : Port) : (r.turnedIf b).state = r.state := by cases b <;> rfl

theorem Port.turnedIf_good (b : Bool) (r : Port) : (r.turnedIf b).good = r.good := by cases b <;> rfl

/-- R4, R20, R21: node time takes a value. -/
theorem Node.setTime_eq (n : Node) (t : NodeTime) :
    n.setTime t = { n with
      svc := { n.svc with time := t }
      east := n.east.turnedIf (decide (t.seconds ≠ n.svc.time.seconds))
      west := n.west.turnedIf (decide (t.seconds ≠ n.svc.time.seconds)) } := by
  unfold Node.setTime
  generalize decide (t.seconds ≠ n.svc.time.seconds) = b
  cases b <;> rfl

/-- R14, R21: node time as a good marker gives it. -/
def Marker.told (m : Marker) : NodeTime := { seconds := m.time.seconds, cycle := m.time.cycle, sync := true }

/-- R14, R21: a good marker's time is adopted; the ports' error windows may turn. -/
theorem Node.adoptTime_spec (n : Node) (m : Marker) :
    (n.adoptTime m).ring = { n.ring with lastGood := n.svc.now } ∧ (n.adoptTime m).svc.time = Marker.told m ∧
      (n.adoptTime m).win = n.win ∧ (n.adoptTime m).call = n.call ∧
      ∀ p, ((n.adoptTime m).port p).state = (n.port p).state ∧ ((n.adoptTime m).port p).good = (n.port p).good := by
  unfold Node.adoptTime
  rw [Node.setTime_eq]
  refine ⟨rfl, rfl, rfl, rfl, fun p => ?_⟩
  cases p
  · exact ⟨Port.turnedIf_state .., Port.turnedIf_good ..⟩
  · exact ⟨Port.turnedIf_state .., Port.turnedIf_good ..⟩

/-- R4, R13, R21: a cycle with a good marker, without coding errors, at a port that carries. -/
theorem Node.arrives_good (n : Node) {p : PortId} (c : Cycle) (hc : PortState.carries (n.port p).state = true) :
    n.arrives p c true 0 = ((n.adoptTime c.marker).directArrival p c).classify p true 0 := by
  unfold Node.arrives
  rw [if_pos hc]
  rfl

/-- Acting on a port touches the ports alone. -/
theorem Node.onPort_rest (n : Node) (p : PortId) (f : Port → Port) :
    n.onPort p f = { n with east := (n.onPort p f).east, west := (n.onPort p f).west } := by cases p <;> rfl

theorem Node.port_direct_other (n : Node) (p : PortId) (c : Cycle) :
    (n.direct (otherPort p) c).port p = n.port p := by cases p <;> rfl

theorem Node.sent_direct (n : Node) (p : PortId) (c : Cycle) (h : PortState.carries (n.port p).state = true) :
    ((n.direct p c).port p).sent = some c := by
  rw [n.direct_carries p c h, Node.port_onPort]

/-- Settles O18: time is adopted, the ports pass the cycle on, and the marker is counted. -/
theorem bareCycleAtWayside : Obligations.BareCycleAtWayside := by
  intro p c s hphase hway hcarries halign hrecover herrors hbare
  have hrun : exec (.cycleArrivesWayside p c true 0) s = .next (s.settled (s.node.arrives p c true 0)) :=
    State.act_onRole hphase hway
  obtain ⟨hring, htime, hwin, hcall, hports⟩ := s.node.adoptTime_spec c.marker
  rw [Node.arrives_good _ c hcarries] at hrun
  have relayed := (s.node.adoptTime c.marker).directArrival_relayed p hbare
  have turned := (s.node.adoptTime c.marker).directArrival_turned p hbare
  have hstep := (s.node.adoptTime c.marker).portsStep_directArrival p hbare
  generalize s.node.adoptTime c.marker = a at *
  rw [hring] at relayed turned
  have hcarries' : PortState.carries (a.port p).state = true := by rw [(hports p).1]; exact hcarries
  generalize a.directArrival p c = b at hrun relayed turned hstep
  have hstate : (b.port p).state = (s.node.port p).state := (hstep.kept p).trans (hports p).1
  have hgood : (b.port p).good = (s.node.port p).good := (hstep.good p hcarries').trans (hports p).2
  rw [b.classify_kept p (by rw [hstate]; exact hcarries) (by rw [hstate, hgood]; exact halign)
    (by rw [hstate, hgood]; exact hrecover)] at hrun
  refine ⟨_, hrun, ?_⟩
  rw [State.settled_node]
  have hk := Node.keeps_settle (b.onPort p fun _ => (b.port p).marked)
  have hrest := b.onPort_rest p fun _ => (b.port p).marked
  have hport (q : PortId) : (b.onPort p fun _ => (b.port p).marked).settle.port q =
      (b.onPort p fun _ => (b.port p).marked).port q := by
    cases q
    · exact hk.east
    · exact hk.west
  have hother : (b.onPort p fun _ => (b.port p).marked).port (otherPort p) = b.port (otherPort p) :=
    b.port_onPort_other p _
  have hsvc : (b.onPort p fun _ => (b.port p).marked).svc = a.svc := by rw [hrest, hstep.rest]
  have hr : (b.onPort p fun _ => (b.port p).marked).ring = a.ring := by rw [hrest, hstep.rest]
  have hw : (b.onPort p fun _ => (b.port p).marked).win = a.win := by rw [hrest, hstep.rest]
  have hc : (b.onPort p fun _ => (b.port p).marked).call = a.call := by rw [hrest, hstep.rest]
  rw [hk.svc.time, hk.ring, hk.win, hk.phones, hport, hport, hother, Node.port_onPort, Port.marked_sent, hsvc, hr, hw,
    hc, htime, hring, hwin, hcall]
  have hcarriesOther (ho : PortState.carries (s.node.port (otherPort p)).state = true) :
      PortState.carries (a.port (otherPort p)).state = true := by rw [(hports _).1]; exact ho
  refine ⟨rfl, rfl, rfl, rfl, rfl, fun ha hne ho => ?_, fun ha => ⟨?_, fun ho => ?_⟩⟩
  · rw [relayed ha hcarries' (by rw [(hports p).1]; exact hne)]
    exact a.sent_direct _ c (hcarriesOther ho)
  · rw [turned ha, Node.port_direct_other]
    exact a.sent_direct p _ hcarries'
  · rw [turned ha]
    refine (a.direct p (Cycle.turned c)).sent_direct _ _ ?_
    rw [(Node.PortsStep.direct a p _).kept]
    exact hcarriesOther ho

end Sys2Proof.Machine


/-! SUPPORT. The line ports (R4 to R17): a change of port state, what RING does at it, and markers counted and judged, with
the statement on markers. -/

namespace Sys2Proof.Machine

/-! ## A port enters a state (R4, R5, R11) -/

theorem Port.enter_eq (r : Port) (now : Nat) (new : PortState) :
    r.enter now new =
      { r with
        state := new, good := 0, missing := 0, errNow := 0, markerSeen := false, entered := now, sent := none
        neighbour := if new = .dark ∨ new = .disabled then none else r.neighbour
        conflict := r.conflict && !decide (new = .dark ∨ new = .disabled) } := by
  unfold Port.enter
  by_cases h : new = .dark ∨ new = .disabled
  · simp only [h, decide_true, if_true]
  · simp only [h, decide_false, if_false, Bool.false_eq_true]

theorem Node.portTo_eq (n : Node) (p : PortId) (new : PortState) (c : PortCause) :
    n.portTo p new c =
      (n.onPort p fun r => r.enter n.svc.now new).post .portState (.linePort p)
        [.portState (n.port p).state, .portState new, .portCause c] := by
  unfold Node.portTo
  congr 2
  funext r
  exact (r.enter_eq n.svc.now new).symm

theorem Node.changePort_portTo (n : Node) (p : PortId) (new : PortState) (c : PortCause)
    (hne : (n.port p).state ≠ new) (hp : ¬(PortState.isProbe (n.port p).state = true ∧ PortState.isProbe new = true))
    (hr : (n.port p).state = .run ↔ new = .run) : n.changePort p new c = n.portTo p new c :=
  (n.changePort_posted p new c hne hp hr).trans (n.portTo_eq p new c).symm

theorem Node.isHead_portTo (n : Node) (p : PortId) (new : PortState) (c : PortCause) :
    (n.portTo p new c).isHead = n.isHead := by
  rw [Node.portTo_eq, (Node.WinStep.post ..).isHead, Node.isHead_onPort]

/-- R11, R14 to R17: a port that leaves or reaches RUN is told to RING. -/
theorem Node.changePort_rung (n : Node) (p : PortId) (new : PortState) (c : PortCause)
    (hr : decide ((n.port p).state = .run) ≠ decide (new = .run)) :
    n.changePort p new c =
      if n.isHead then (n.portTo p new c).headPort p (decide (new = .run))
      else (n.portTo p new c).waysidePort p (decide (new = .run)) := by
  rw [n.changePort_told p new c hr, ← n.portTo_eq]
  dsimp only
  rw [n.isHead_portTo]

theorem Node.port_portTo (n : Node) (p : PortId) (new : PortState) (c : PortCause) :
    (n.portTo p new c).port p = (n.port p).enter n.svc.now new := by
  rw [Node.portTo_eq, Node.port_post, Node.port_onPort]

theorem Node.port_portTo_other (n : Node) (p : PortId) (new : PortState) (c : PortCause) :
    (n.portTo p new c).port (otherPort p) = n.port (otherPort p) := by
  rw [Node.portTo_eq, Node.port_post, Node.port_onPort_other]

theorem Node.RingStep.portTo (n : Node) (p : PortId) (new : PortState) (c : PortCause) :
    Node.RingStep n (n.portTo p new c) := by
  rw [Node.portTo_eq]
  exact (onPort ..).trans (post ..)

theorem Node.ring_portTo (n : Node) (p : PortId) (new : PortState) (c : PortCause) :
    (n.portTo p new c).ring = n.ring ∧ (n.portTo p new c).head = n.head := by
  rw [Node.portTo_eq]
  cases p <;> exact ⟨rfl, rfl⟩

/-! ## What RING does (R14 to R17) -/

/-- R15: the wait-to-restore timer of a wayside runs or not. -/
def Node.ringWaits (n : Node) (b : Bool) : Node :=
  { n with ring := { n.ring with
    restoring := b, timer := if b then some (n.svc.now + 4000 * n.set.waitToRestore) else none } }

theorem Node.failedPort_eq (n : Node) (b : Bool) : n.failedPort b = n.ringWaits b := by
  cases b
  · rfl
  · show n.startRestoring = _
    unfold Node.startRestoring Node.ringWaits secs
    rw [if_pos rfl, Nat.mul_comm]
    rfl

theorem Node.stopRestoring_eq (n : Node) : n.stopRestoring = n.ringWaits false := rfl

theorem foldTo_ne_orphan (p : PortId) : foldTo p ≠ .orphan := by cases p <;> decide

section
variable {n : Node} {p : PortId}

theorem Node.waysidePort_through (h : n.ring.attach = .through) (b : Bool) :
    n.waysidePort p b = if b then n else n.setAttach (foldTo p) := by
  unfold Node.waysidePort
  rw [h]

theorem Node.waysidePort_failed (h : n.ring.attach = foldTo p) (b : Bool) : n.waysidePort p b = n.ringWaits b := by
  rw [← n.failedPort_eq b]
  unfold Node.waysidePort
  cases p <;> (unfold foldTo at h; rw [h])

theorem Node.waysidePort_good (h : n.ring.attach = foldTo (otherPort p)) (b : Bool) :
    n.waysidePort p b = if b then n else
      if (n.port (otherPort p)).state = .run then (n.ringWaits false).setAttach (foldTo p) else n.setAttach .orphan := by
  unfold Node.waysidePort
  cases p <;> (simp only [foldTo, otherPort] at h ⊢; rw [h]; rfl)

theorem Node.waysidePort_orphan (h : n.ring.attach = .orphan) (b : Bool) :
    n.waysidePort p b =
      if b then (if (n.port (otherPort p)).state = .run then n else n.setAttach (foldTo (otherPort p))) else n := by
  unfold Node.waysidePort
  rw [h]
  cases b
  · rfl
  · by_cases hr : (n.port (otherPort p)).state = .run <;> simp [hr]

/-- R17: the head-end's wait-to-restore timer runs or not. -/
def Node.headWaits (n : Node) (b : Bool) : Node :=
  { n with head := { n.head with
    restoring := b, timer := if b then some (n.svc.now + 4000 * n.set.waitToRestore) else none } }

theorem Node.headPort_east (h : n.head.origin = .east) (b : Bool) :
    n.headPort .east b = if b then n else
      { n with head := { n.head with origin := .west }
               win := { n.win with inner := { n.win.inner with timer := none } } } := by
  unfold Node.headPort
  rw [h]
  cases b <;> rfl

theorem Node.headPort_restores (h : n.head.origin = .west) (b : Bool) : n.headPort .east b = n.headWaits b := by
  unfold Node.headPort
  rw [h]
  cases b
  · rfl
  · unfold Node.headWaits secs
    rw [if_pos rfl, Nat.mul_comm]
    rfl

end

/-! ## Markers (R4, R8, R9) -/

/-- R4: coding errors are counted but in DARK and DISABLED. -/
theorem Port.addErrors_eq (r : Port) (errors : Nat) :
    r.addErrors errors =
      if r.state = .dark ∨ r.state = .disabled then r else { r with errNow := r.errNow + errors } := by
  unfold Port.addErrors
  split <;> simp_all

theorem Port.addErrors_state (r : Port) (errors : Nat) : (r.addErrors errors).state = r.state := by
  rw [Port.addErrors_eq]
  split <;> rfl

theorem Port.addErrors_runs (r : Port) (errors : Nat) :
    (r.addErrors errors).good = r.good ∧ (r.addErrors errors).missing = r.missing ∧
      (r.addErrors errors).markerSeen = r.markerSeen := by
  rw [Port.addErrors_eq]
  split <;> exact ⟨rfl, rfl, rfl⟩

theorem PortState.classifies_iff (s : PortState) :
    PortState.classifies s = true ↔ s = .align ∨ s = .run ∨ s = .recover ∨ s = .loopback := by
  cases s <;> simp [PortState.classifies]

theorem Port.countMarker_good (r : Port) : r.countMarker true = { r with good := bump 255 r.good, missing := 0 } := rfl

theorem Port.countMarker_missed (r : Port) :
    r.countMarker false = { r with good := 0, missing := bump 255 r.missing } := rfl

/-- A port that is set to what it becomes of. -/
theorem Node.onPort_const (n : Node) (p : PortId) (f : Port → Port) : n.onPort p f = n.onPort p fun _ => f (n.port p) := by
  cases p <;> rfl

/-- R8, R9: what a port that has counted comes to. -/
def Node.judged (n : Node) (p : PortId) (errors : Nat) (q : Port) : Node :=
  let m := n.onPort p fun _ => q
  if ((n.port p).state = .align ∨ (n.port p).state = .recover) ∧ 8 ≤ q.good then m.changePort p .run .markersGood
  else if (n.port p).state = .run ∧ 3 ≤ q.missing then m.changePort p .recover .markersMissing
  else if (n.port p).state = .run ∧ 0 < errors ∧ n.set.errorThreshold < q.errNow then m.changePort p .recover .errors
  else m

theorem Node.judged_eq (n : Node) (p : PortId) (errors : Nat) {q : Port} (hq : q.state = (n.port p).state) :
    (n.onPort p fun _ => q).judgePort p errors = n.judged p errors q := by
  rw [n.judgePort_onPort p q errors, hq]
  rfl

/-- R4: a port as a marker, good or not, leaves it. -/
def Port.counted (r : Port) (good : Bool) (errors : Nat) : Port :=
  if PortState.classifies r.state then { (r.addErrors errors).countMarker good with markerSeen := true }
  else r.addErrors errors

/-- R4: a port as a missing marker leaves it. -/
def Port.missed (r : Port) (errors : Nat) : Port :=
  if PortState.classifies r.state && r.markerSeen then (r.addErrors errors).countMarker false
  else r.addErrors errors

theorem Port.countMarker_state (r : Port) (good : Bool) : (r.countMarker good).state = r.state := by
  cases good <;> rfl

theorem Port.counted_state (r : Port) (good : Bool) (errors : Nat) : (r.counted good errors).state = r.state := by
  unfold Port.counted
  split
  · exact (Port.countMarker_state ..).trans (Port.addErrors_state ..)
  · exact Port.addErrors_state ..

theorem Port.missed_state (r : Port) (errors : Nat) : (r.missed errors).state = r.state := by
  unfold Port.missed
  split
  · exact (Port.countMarker_state ..).trans (Port.addErrors_state ..)
  · exact Port.addErrors_state ..

theorem Node.classify_eq (n : Node) (p : PortId) (good : Bool) (errors : Nat) :
    n.classify p good errors = n.judged p errors ((n.port p).counted good errors) := by
  rw [← n.judged_eq p errors (Port.counted_state ..)]
  unfold Node.classify
  dsimp only
  rw [Node.onPort_const, Port.addErrors_state]
  rfl

theorem Node.markerMissing_eq (n : Node) (p : PortId) (errors : Nat) :
    n.markerMissing p errors = n.judged p errors ((n.port p).missed errors) := by
  rw [← n.judged_eq p errors (Port.missed_state ..)]
  unfold Node.markerMissing
  dsimp only
  rw [Node.onPort_const, Port.addErrors_state, (Port.addErrors_runs ..).2.2]
  rfl

/-! ## What is left of the ports when RING was told -/

/-- RING was told: of the ports it loses, at most, what they were to send. -/
structure Node.Rung (n m : Node) : Prop where
  step : Node.RingStep n m
  port : ∀ p, m.port p = n.port p ∨ m.port p = { n.port p with sent := none }

theorem Node.Rung.refl (n : Node) : Node.Rung n n := ⟨.refl n, fun _ => .inl rfl⟩

theorem Node.Rung.setAttach (n : Node) (new : Attach) : Node.Rung n (n.setAttach new) := by
  by_cases hn : new = .orphan
  · subst hn
    exact ⟨n.orphaned_setAttach.step, fun p => .inr (n.orphaned_setAttach.port p)⟩
  · exact ⟨(n.attached_setAttach hn).step, fun p => .inr ((n.attached_setAttach hn).port p)⟩

theorem Node.Rung.ringWaits (n : Node) (b : Bool) : Node.Rung n (n.ringWaits b) := ⟨.withRing .., fun _ => .inl rfl⟩

/-- Every attachment is THROUGH, ORPHAN or a fold toward one of two ports. -/
theorem attach_cases (a : Attach) (p : PortId) :
    a = .through ∨ a = .orphan ∨ a = foldTo p ∨ a = foldTo (otherPort p) := by
  cases a <;> cases p <;> simp [foldTo, otherPort]

theorem Node.Rung.waysidePort (n : Node) (p : PortId) (b : Bool) : Node.Rung n (n.waysidePort p b) := by
  rcases attach_cases n.ring.attach p with h | h | h | h
  · rw [Node.waysidePort_through h]
    split
    · exact .refl n
    · exact .setAttach ..
  · rw [Node.waysidePort_orphan h]
    split
    · split
      · exact .refl n
      · exact .setAttach ..
    · exact .refl n
  · rw [Node.waysidePort_failed h]
    exact .ringWaits ..
  · rw [Node.waysidePort_good h]
    split
    · exact .refl n
    · split
      · have hs := Node.Rung.setAttach (n.ringWaits false) (foldTo p)
        exact ⟨(Node.Rung.ringWaits n false).step.trans hs.step, hs.port⟩
      · exact .setAttach ..

theorem Node.Rung.headPort (n : Node) (p : PortId) (b : Bool) : Node.Rung n (n.headPort p b) := by
  cases p with
  | west => rw [Node.headPort_west]; exact .refl n
  | east =>
    cases h : n.head.origin with
    | west =>
      rw [Node.headPort_restores h]
      exact ⟨⟨rfl, rfl, rfl⟩, fun _ => .inl rfl⟩
    | east =>
      rw [Node.headPort_east h]
      split
      · exact .refl n
      · exact ⟨⟨rfl, rfl, rfl⟩, fun _ => .inl rfl⟩

/-- R11: the ports at a change that leaves or reaches RUN. -/
theorem Node.changePort_ports (n : Node) (p : PortId) (new : PortState) (c : PortCause)
    (hr : decide ((n.port p).state = .run) ≠ decide (new = .run)) :
    (n.changePort p new c).port p = (n.port p).enter n.svc.now new ∧
      ((n.changePort p new c).port (otherPort p)).state = (n.port (otherPort p)).state ∧
      Node.RingStep n (n.changePort p new c) := by
  have rung : Node.Rung (n.portTo p new c) (n.changePort p new c) := by
    rw [n.changePort_rung p new c hr]
    split
    · exact .headPort ..
    · exact .waysidePort ..
  have hp : (n.changePort p new c).port p = (n.port p).enter n.svc.now new := by
    rcases rung.port p with h | h <;> rw [h, Node.port_portTo]
    rfl
  have hq : ((n.changePort p new c).port (otherPort p)).state = (n.port (otherPort p)).state := by
    rcases rung.port (otherPort p) with h | h <;> rw [h, Node.port_portTo_other]
  exact ⟨hp, hq, (Node.RingStep.portTo ..).trans rung.step⟩

theorem Node.settle_port (n : Node) (p : PortId) : n.settle.port p = n.port p := by
  have hk := n.keeps_settle
  cases p
  · exact hk.east
  · exact hk.west

/-! ## The statement -/

/-- R4, R9: a missing marker without coding errors. -/
theorem Node.markerMissing_ports (n : Node) (p : PortId) (hc : PortState.classifies (n.port p).state = true)
    (hseen : (n.port p).markerSeen = true) (hmiss : (n.port p).missing < 255) :
    let m := n.markerMissing p 0
    let r := n.port p
    (m.port (otherPort p)).state = (n.port (otherPort p)).state ∧
      (r.state = .run → 2 ≤ r.missing → (m.port p).state = .recover ∧ (m.port p).missing = 0) ∧
      (r.state = .run → r.missing < 2 → (m.port p).state = .run ∧ (m.port p).good = 0 ∧
        (m.port p).missing = r.missing + 1) ∧
      (r.state ≠ .run → (m.port p).state = r.state ∧ (m.port p).good = 0 ∧ (m.port p).missing = r.missing + 1) := by
  have hq : (n.port p).missed 0 = { n.port p with good := 0, missing := (n.port p).missing + 1 } := by
    rw [Port.missed, hc, hseen, Bool.and_self, if_pos rfl, Port.addErrors_zero, Port.countMarker_missed, bump,
      if_pos hmiss]
  intro m r
  have hm : m = n.judged p 0 { n.port p with good := 0, missing := (n.port p).missing + 1 } := by
    rw [← hq]
    exact n.markerMissing_eq p 0
  by_cases hrun : r.state = .run ∧ 3 ≤ r.missing + 1
  · have hj : m = (n.onPort p fun _ => { n.port p with good := 0, missing := (n.port p).missing + 1 }).changePort p
        .recover .markersMissing := by
      rw [hm, Node.judged, if_neg (by simp), if_pos hrun]
    obtain ⟨hp, ho, -⟩ := (n.onPort p fun _ => { n.port p with good := 0, missing := (n.port p).missing + 1 }).changePort_ports
      p .recover .markersMissing (by rw [Node.port_onPort]; simp [show (n.port p).state = .run from hrun.1])
    rw [← hj] at hp ho
    rw [Node.port_onPort_other] at ho
    rw [hp]
    exact ⟨ho, fun _ _ => ⟨rfl, rfl⟩, fun _ h => absurd hrun.2 (by omega), fun h => absurd hrun.1 h⟩
  · have hj : m = n.onPort p fun _ => { n.port p with good := 0, missing := (n.port p).missing + 1 } := by
      rw [hm, Node.judged, if_neg (by simp), if_neg hrun, if_neg (by simp)]
    rw [hj, Node.port_onPort, Node.port_onPort_other]
    exact ⟨rfl, fun h k => absurd ⟨h, by omega⟩ hrun, fun h _ => ⟨h, rfl, rfl⟩, fun _ => ⟨rfl, rfl, rfl⟩⟩

/-- Settles O14: a marker is counted, the port is judged, and RING is told. -/
theorem missingMarkers : Obligations.MissingMarkers := by
  refine ⟨fun p s hphase hc hseen hmiss => ?_, fun n p errors => ?_, fun n p new why => ?_, fun n p => ?_,
    fun n new ho hn => n.setAttach_linked ho hn, fun n => ?_⟩
  · refine ⟨_, State.act_onEvent hphase, ?_⟩
    rw [State.settled_node, Node.settle_port, Node.settle_port]
    obtain ⟨hother, hleft, hkept, helse⟩ := s.node.markerMissing_ports p hc hseen hmiss
    exact ⟨hother, hleft, fun hr hm _ => hkept hr hm, helse⟩
  · have htold := (n.port p).addErrors_eq errors
    have hcounts := PortState.classifies_iff (n.port p).state
    obtain ⟨hgood, hmissing, -⟩ := (n.port p).addErrors_runs errors
    refine ⟨?_, ?_, fun s hs hphase => ?_⟩
    · rw [n.classify_eq p true errors, Port.counted, Port.countMarker_good, hgood, htold]
      simp only [hcounts]
      rfl
    · rw [n.classify_eq p false errors, Port.counted, Port.countMarker_missed, hmissing, htold]
      simp only [hcounts]
      rfl
    · subst hs
      refine (State.act_onEvent hphase).trans ?_
      dsimp only
      rw [s.node.markerMissing_eq p errors, Port.missed, Port.countMarker_missed, hmissing, htold]
      simp only [Bool.and_eq_true, hcounts]
      rfl
  · refine ⟨fun hprobe hold hnew hne => ?_, fun hold hnew => ?_, fun hold hnew => ?_⟩
    · exact n.changePort_portTo p new why (Ne.symm hne) (by simp [hprobe]) (by simp [hold, hnew])
    · subst hnew
      exact n.changePort_rung p .run why (by simp [hold])
    · have h := n.changePort_rung p new why (by simp [hold, hnew])
      rw [decide_eq_false hnew] at h
      exact h
  · exact ⟨fun h => ⟨Node.waysidePort_through h false, Node.waysidePort_through h true⟩, Node.waysidePort_failed,
      fun h => ⟨Node.waysidePort_good h true, Node.waysidePort_good h false⟩,
      fun h => ⟨Node.waysidePort_orphan h false, Node.waysidePort_orphan h true⟩⟩
  · exact ⟨n.headPort_west, fun h => ⟨Node.headPort_east h true, Node.headPort_east h false⟩, Node.headPort_restores⟩

end Sys2Proof.Machine


/-! SUPPORT. Light, probes and expiries at a line port (R5 to R9), with the statement on them. -/

namespace Sys2Proof.Machine

/-! ## Light (R5) -/

/-- A change of what stands at a port's receiver, and what comes of it. -/
theorem State.act_light {s : State} (h : s.node.phase = .started) (f : Node → Node) (p : PortId) (b : Bool) :
    (s.act fun n => Node.onEvent f (n.setLight p b)) = .next (s.settled (f (s.node.setLight p b))) := by
  have hp : (s.node.setLight p b).phase = .started := by cases p <;> exact h
  rw [State.act, Node.onEvent, if_pos hp, State.settled]

theorem Node.port_setLight (n : Node) (p q : PortId) (b : Bool) : (n.setLight p b).port q = n.port q := by
  cases p <;> cases q <;> rfl

theorem Node.light_setLight (n : Node) (p : PortId) (b : Bool) : (n.setLight p b).pins.light p = b := by
  cases p <;> rfl

theorem Node.isHead_setLight (n : Node) (p : PortId) (b : Bool) : (n.setLight p b).isHead = n.isHead := by
  cases p <;> rfl

theorem Node.setLight_rest (n : Node) (p : PortId) (b : Bool) :
    (n.setLight p b).ring = n.ring ∧ (n.setLight p b).head = n.head ∧ (n.setLight p b).toll = n.toll ∧
      (n.setLight p b).rules = n.rules ∧ (n.setLight p b).cmd = n.cmd := by
  cases p <;> exact ⟨rfl, rfl, rfl, rfl, rfl⟩

theorem Node.loseLight_eq (n : Node) (p : PortId)
    (h : PortState.isProbe (n.port p).state = true ∨ PortState.carries (n.port p).state = true) :
    n.loseLight p = n.changePort p .dark .lightLost := if_pos (by simpa using h)

theorem Node.loseLight_stays (n : Node) (p : PortId)
    (h : (n.port p).state = .disabled ∨ (n.port p).state = .dark ∨ (n.port p).state = .loopback) :
    n.loseLight p = n := by
  refine if_neg ?_
  rcases h with h | h | h <;> simp [h, PortState.isProbe, PortState.carries]

/-- R6, R7: what a port learns of its partner. -/
def Node.learned (n : Node) (p : PortId) (b : Probe) (clash : Bool) : Node :=
  let m := n.onPort p fun r => { r with neighbour := some (b.station, b.role), conflict := r.conflict || clash }
  if clash then m.post .roleConflict (.linePort p) [.nat b.station] else m

theorem Node.learnPartner_eq (n : Node) (p : PortId) (b : Probe) :
    n.learnPartner p b = n.learned p b (n.isHead && decide (b.role = .headEnd)) := by
  unfold Node.learnPartner Node.learned
  dsimp only
  rw [Node.isHead_onPort]
  split
  · next h => rw [h, Node.onPort_onPort]; simp only [Bool.or_true]
  · next h => rw [Bool.eq_false_of_not_eq_true h]; simp only [Bool.or_false]

section
variable (n : Node) (p : PortId) (b : Probe) (clash : Bool)

theorem Node.port_learned :
    (n.learned p b clash).port p =
      { n.port p with neighbour := some (b.station, b.role), conflict := (n.port p).conflict || clash } := by
  unfold Node.learned
  split
  · rw [Node.port_post, Node.port_onPort]
  · rw [Node.port_onPort]

theorem Node.port_learned_other : (n.learned p b clash).port (otherPort p) = n.port (otherPort p) := by
  unfold Node.learned
  split
  · rw [Node.port_post, Node.port_onPort_other]
  · rw [Node.port_onPort_other]

theorem Node.learned_rest :
    Node.RingStep n (n.learned p b clash) ∧ (n.learned p b clash).ring = n.ring ∧
      (n.learned p b clash).head = n.head := by
  unfold Node.learned
  split
  · exact ⟨(Node.RingStep.onPort ..).trans (.post ..), by cases p <;> rfl, by cases p <;> rfl⟩
  · exact ⟨.onPort .., by cases p <;> rfl, by cases p <;> rfl⟩

end

/-! ## Probes (R6, R7) -/

section
variable {n : Node} {p : PortId} {b : Probe}

theorem Node.probe_send (h : (n.port p).state = .probeSend) :
    n.probe p b =
      let m := (n.changePort p .probeEcho .probeSeen).learnPartner p b
      if b.echo && !(m.port p).conflict then m.changePort p .align .probeSeen else m := by
  unfold Node.probe
  rw [h]

theorem Node.probe_echo (h : (n.port p).state = .probeEcho) (hc : (n.port p).conflict = false) :
    n.probe p b = if b.echo then n.changePort p .align .probeSeen else n := by
  unfold Node.probe
  rw [h]
  dsimp only
  rw [hc, if_neg Bool.false_ne_true]

theorem Node.probe_conflict (h : (n.port p).state = .probeEcho) (hc : (n.port p).conflict = true) :
    n.probe p b =
      if b.role = .headEnd then n
      else
        let m := n.onPort p fun r => { r with conflict := false, neighbour := some (b.station, b.role) }
        if b.echo then m.changePort p .align .probeSeen else m := by
  unfold Node.probe
  rw [h]
  dsimp only
  rw [hc, if_pos rfl]

theorem Node.probe_past (h : (n.port p).state = .align ∨ (n.port p).state = .run ∨ (n.port p).state = .recover) :
    n.probe p b = (n.changePort p .probeEcho .probeSeen).learnPartner p b := by
  unfold Node.probe
  rcases h with h | h | h <;> rw [h]

theorem Node.probe_stays (h : (n.port p).state = .disabled ∨ (n.port p).state = .dark ∨ (n.port p).state = .loopback) :
    n.probe p b = n := by
  unfold Node.probe
  rcases h with h | h | h <;> rw [h]

/-- R6: a port in PROBE.ECHO goes on to ALIGN. -/
theorem Node.changePort_align (h : (n.port p).state = .probeEcho) (c : PortCause) :
    n.changePort p .align c = n.portTo p .align c :=
  n.changePort_portTo p .align c (by simp [h]) (by simp [PortState.isProbe]) (by simp [h])

end

/-- R6: a port enters PROBE.ECHO from PROBE.SEND; its partner and its conflict flag stay. -/
def Port.echoing (r : Port) (now : Nat) : Port :=
  { r with
    state := .probeEcho, good := 0, missing := 0, errNow := 0, markerSeen := false, entered := now, sent := none }

theorem Port.enter_echo (r : Port) (now : Nat) : r.enter now .probeEcho = r.echoing now := by
  rw [Port.enter_eq]
  simp [Port.echoing]

/-- R6, R7: a probe at a port in PROBE.SEND. -/
theorem Node.probe_entered (n : Node) (p : PortId) (b : Probe) (h : (n.port p).state = .probeSend) :
    let clash := n.isHead && decide (b.role = .headEnd)
    let m := (n.onPort p fun r => r.echoing n.svc.now).learned p b clash
    n.probe p b =
      if (n.port p).conflict || clash then m else if b.echo then m.portTo p .align .probeSeen else m := by
  intro clash m
  have hm : (n.changePort p .probeEcho .probeSeen).learnPartner p b = m := by
    rw [n.changePort_probe p _ _ (by simp [h, PortState.isProbe]) rfl, Node.learnPartner_eq, Node.isHead_onPort]
    simp only [Port.enter_echo]
    rfl
  have hport : m.port p = { (n.port p).echoing n.svc.now with
      neighbour := some (b.station, b.role), conflict := (n.port p).conflict || clash } := by
    rw [Node.port_learned, Node.port_onPort]
    rfl
  rw [Node.probe_send h, hm]
  dsimp only
  rw [hport]
  cases (n.port p).conflict || clash
  · rw [if_neg Bool.false_ne_true, Node.changePort_align (by rw [hport]; rfl)]
    cases b.echo <;> rfl
  · rw [if_pos rfl, Bool.not_true, Bool.and_false, if_neg Bool.false_ne_true]

/-! ## A port that leaves RUN (R14, R17) -/

/-- R14, R17: what becomes of the attachment and the origin when the port `p` has left RUN. -/
structure Node.LeftRun (n m : Node) (p : PortId) : Prop where
  step : Node.RingStep n m
  other : (m.port (otherPort p)).state = (n.port (otherPort p)).state
  through : n.isHead = false → n.ring.attach = .through → m.ring.attach = foldTo p
  folded : n.isHead = false → n.ring.attach = foldTo (otherPort p) →
    m.ring.attach = if (n.port (otherPort p)).state = .run then foldTo p else .orphan
  origin : n.isHead = true → n.head.origin = .east → m.head.origin = .west ∨ p = .west
  head : n.isHead = true → p = .west → m.head = n.head

theorem Node.changePort_leaves (n : Node) (p : PortId) {new : PortState} (c : PortCause)
    (hs : (n.port p).state = .run) (hn : new ≠ .run) : Node.LeftRun n (n.changePort p new c) p := by
  have hr : decide ((n.port p).state = .run) ≠ decide (new = .run) := by simp [hs, hn]
  obtain ⟨-, hother, hstep⟩ := n.changePort_ports p new c hr
  have hrung := n.changePort_rung p new c hr
  obtain ⟨hring, hhead⟩ := n.ring_portTo p new c
  rw [decide_eq_false hn] at hrung
  refine ⟨hstep, hother, fun hw ha => ?_, fun hw ha => ?_, fun hh ho => ?_, fun hh hp => ?_⟩
  · rw [hrung, hw, if_neg Bool.false_ne_true, Node.waysidePort_through (by rw [hring]; exact ha)]
    exact congrArg Ring.attach (Node.attached_setAttach _ (foldTo_ne_orphan p)).ring
  · rw [hrung, hw, if_neg Bool.false_ne_true, Node.waysidePort_good (by rw [hring]; exact ha), if_neg Bool.false_ne_true,
      Node.port_portTo_other]
    split
    · exact congrArg Ring.attach (Node.attached_setAttach _ (foldTo_ne_orphan p)).ring
    · exact congrArg Ring.attach (Node.orphaned_setAttach _).ring
  · cases p with
    | west => exact .inr rfl
    | east =>
      rw [hrung, hh, if_pos rfl, Node.headPort_east (by rw [hhead]; exact ho)]
      exact .inl rfl
  · subst hp
    exact Node.changePort_west hh new c

theorem Node.LeftRun.trans {n m k : Node} {p : PortId} (h : Node.LeftRun n m p) (hs : Node.RingStep m k)
    (hring : k.ring = m.ring) (hhead : k.head = m.head) (hq : k.port (otherPort p) = m.port (otherPort p)) :
    Node.LeftRun n k p := by
  refine ⟨h.step.trans hs, by rw [hq]; exact h.other, ?_, ?_, ?_, ?_⟩
  · rw [hring]; exact h.through
  · rw [hring]; exact h.folded
  · rw [hhead]; exact h.origin
  · rw [hhead]; exact h.head

/-- The end of a step leaves what stands of a port that left RUN. -/
theorem Node.LeftRun.settle {n m : Node} {p : PortId} (h : Node.LeftRun n m p) :
    (m.settle.port (otherPort p)).state = (n.port (otherPort p)).state ∧
      (n.isHead = false → n.ring.attach = .through → m.settle.ring.attach = foldTo p) ∧
      (n.isHead = false → n.ring.attach = foldTo (otherPort p) →
        m.settle.ring.attach = if (n.port (otherPort p)).state = .run then foldTo p else .orphan) ∧
      (n.isHead = true → n.head.origin = .east → m.settle.head.origin = .west ∨ p = .west) ∧
      (n.isHead = true → p = .west → m.settle.head = n.head) ∧
      m.settle.toll = n.toll ∧ m.settle.rules = n.rules ∧ m.settle.cmd.held = n.cmd.held := by
  have hk := m.keeps_settle
  rw [Node.settle_port, hk.ring, hk.head, hk.toll, hk.rules, hk.held, h.step.toll, h.step.rules, h.step.cmd]
  exact ⟨h.other, h.through, h.folded, h.origin, h.head, rfl, rfl, rfl⟩

/-! ## The statement -/

/-- Settles O13: by the state of the port; one that leaves RUN is told to RING. -/
theorem portEventsMovePorts : Obligations.PortEventsMovePorts := by
  refine ⟨fun p s hphase => ?_, fun p b s hphase => ?_, fun p s hphase hrun => ?_⟩
  · have lost : exec (.lightLost p) s = .next (s.settled ((s.node.setLight p false).loseLight p)) :=
      State.act_light hphase (fun n => n.loseLight p) p false
    have seen : exec (.lightSeen p) s = .next (s.settled ((s.node.setLight p true).seeLight p)) :=
      State.act_light hphase (fun n => n.seeLight p) p true
    have hdark : (s.node.setLight p false).port p = s.node.port p := s.node.port_setLight p p false
    have hlit : (s.node.setLight p true).port p = s.node.port p := s.node.port_setLight p p true
    refine ⟨fun h => ?_, fun h => ?_, fun h ht => ?_, fun h => ?_, fun h hlimit => ?_, fun h hc => ?_⟩
    · rw [lost, Node.loseLight_eq, Node.changePort_portTo]
      · rw [hdark]; rcases h with h | h | h
        · intro e; rw [e] at h; cases h
        · simp [h]
        · simp [h]
      · simp [PortState.isProbe]
      · rw [hdark]; rcases h with h | h | h
        · constructor <;> intro e
          · rw [e] at h; cases h
          · cases e
        · simp [h]
        · simp [h]
      · rw [hdark]; rcases h with h | h | h
        · exact .inl h
        · exact .inr (by simp [h, PortState.carries])
        · exact .inr (by simp [h, PortState.carries])
    · rw [lost, Node.loseLight_stays _ _ (by rw [hdark]; exact h)]
    · have hs : ((s.node.setLight p true).port p).state = .dark := by rw [hlit]; exact h
      rw [seen, Node.seeLight, if_pos ⟨hs, by rw [hlit]; exact ht, Node.light_setLight ..⟩,
        Node.changePort_portTo _ _ _ _ (by simp [hs]) (by simp [hs, PortState.isProbe]) (by simp [hs])]
    · rw [seen, Node.seeLight, if_neg]
      rw [hlit]
      rintro ⟨hd, ht, -⟩
      rcases h with h | h
      · exact h hd
      · rw [h] at ht; cases ht
    · refine (State.act_onEvent hphase).trans ?_
      rw [Node.recoverExpired, if_pos ⟨h, hlimit⟩,
        Node.changePort_portTo _ _ _ _ (by simp [h]) (by simp [h, PortState.isProbe]) (by simp [h])]
    · refine (State.act_onEvent hphase).trans ?_
      rw [Node.partnerMovedOn, if_pos ⟨h, hc⟩, Node.changePort_align h]
  · have probed : exec (.probeReceived p b) s = .next (s.settled (s.node.probe p b)) := State.act_onEvent hphase
    refine ⟨fun h => ?_, fun h hc => ?_, fun h hc hb => ?_, fun h hc hb => ?_, fun h => ?_, fun h => ?_⟩
    · rw [probed, s.node.probe_entered p b h]
      dsimp only
      split
      · rfl
      · rfl
    · rw [probed, Node.probe_echo h hc, Node.changePort_align h]
    · rw [probed, Node.probe_conflict h hc, if_pos hb]
    · rw [probed, Node.probe_conflict h hc, if_neg (by simp [hb])]
      dsimp only
      rw [Node.changePort_align (by rw [Node.port_onPort]; exact h)]
    · rw [probed, Node.probe_past (by rcases h with h | h <;> simp [h]), Node.changePort_portTo, Node.learnPartner_eq,
        Node.isHead_portTo]
      · rfl
      · rcases h with h | h <;> simp [h]
      · rcases h with h | h <;> simp [h, PortState.isProbe]
      · rcases h with h | h <;> simp [h]
    · rw [probed, Node.probe_stays h]
  · have dark := (s.node.setLight p false).changePort_leaves p (new := .dark) .lightLost
      (by rw [Node.port_setLight]; exact hrun) (by decide)
    have echo := s.node.changePort_leaves p (new := .probeEcho) .probeSeen hrun (by decide)
    have hdark : (s.node.setLight p false).loseLight p = (s.node.setLight p false).changePort p .dark .lightLost :=
      Node.loseLight_eq _ _ (by rw [Node.port_setLight]; exact .inr (by simp [hrun, PortState.carries]))
    refine ⟨?_, fun b => ?_⟩
    · have hexec : exec (.lightLost p) s =
          .next (s.settled ((s.node.setLight p false).changePort p .dark .lightLost)) := by
        rw [← hdark]
        exact State.act_light hphase (fun n => n.loseLight p) p false
      obtain ⟨hport, -, -⟩ := (s.node.setLight p false).changePort_ports p .dark .lightLost
        (by rw [Node.port_setLight]; simp [hrun])
      have hleft := dark.settle
      obtain ⟨hring, hhead, htoll, hrules, hcmd⟩ := s.node.setLight_rest p false
      rw [Node.port_setLight, Node.isHead_setLight, hring, hhead, htoll, hrules, hcmd] at hleft
      generalize (s.node.setLight p false).changePort p .dark .lightLost = m at hexec hport hleft
      refine ⟨_, hexec, ?_⟩
      dsimp only
      rw [State.settled_node]
      refine ⟨hleft, ?_, ?_⟩
      · rw [Node.settle_port, hport]
        rfl
      · rw [Node.settle_port, hport]
        rfl
    · have hexec : exec (.probeReceived p b) s =
          .next (s.settled ((s.node.changePort p .probeEcho .probeSeen).learnPartner p b)) := by
        rw [← Node.probe_past (.inr (.inl hrun))]
        exact State.act_onEvent hphase
      obtain ⟨hport, -, hstep⟩ := s.node.changePort_ports p .probeEcho .probeSeen (by simp [hrun])
      generalize s.node.changePort p .probeEcho .probeSeen = m at hexec echo hport hstep
      rw [Node.learnPartner_eq] at hexec
      obtain ⟨hlearn, hring, hhead⟩ := m.learned_rest p b (m.isHead && decide (b.role = .headEnd))
      refine ⟨_, hexec, ?_⟩
      dsimp only
      rw [State.settled_node]
      refine ⟨(echo.trans hlearn hring hhead (Node.port_learned_other ..)).settle, ?_, ?_, ?_⟩
      · rw [Node.settle_port, Node.port_learned, hport]
        rfl
      · rw [Node.settle_port, Node.port_learned]
      · rw [Node.settle_port, Node.port_learned, hport, hstep.isHead]
        simp [Port.enter]

end Sys2Proof.Machine


/-! SUPPORT. The port commands pass a change of the command channels through (R186), with the statement on them (R2, R10,
R12). -/

namespace Sys2Proof.Machine

/-! ## A change of the command channels passes through RING's operations -/

section
variable (n : Node) (f : Cmd → Cmd)

/-- A choice between two operations that each let the change of the channels pass. -/
theorem Node.onCmd_ite_node {c : Prop} [Decidable c] {x y x' y' : Node} (hx : x' = x.onCmd f) (hy : y' = y.onCmd f) :
    (if c then x' else y') = (if c then x else y).onCmd f := by
  split
  · exact hx
  · exact hy

@[simp] theorem Node.onCmd_onPort (p : PortId) (g : Port → Port) :
    (n.onCmd f).onPort p g = (n.onPort p g).onCmd f := by cases p <;> rfl

@[simp] theorem Node.onCmd_onLoop (l : Loop) (g : LoopSt → LoopSt) :
    (n.onCmd f).onLoop l g = (n.onLoop l g).onCmd f := rfl

@[simp] theorem Node.onCmd_onPhone (p : Nat) (g : Phone → Phone) :
    (n.onCmd f).onPhone p g = (n.onPhone p g).onCmd f := rfl

@[simp] theorem Node.onCmd_messageOver (src : BegunSrc) :
    (n.onCmd f).messageOver src = (n.messageOver src).onCmd f := by cases src <;> rfl

@[simp] theorem Node.onCmd_endHolding (l : Loop) : (n.onCmd f).endHolding l = (n.endHolding l).onCmd f := by
  unfold Node.endHolding
  have hw : (n.onCmd f).win = n.win := rfl
  rw [hw]
  split
  · rfl
  · have hs : (n.onCmd f).setHolding l none = (n.setHolding l none).onCmd f := rfl
    dsimp only
    rw [hs]
    split
    · rfl
    · exact Node.onCmd_messageOver ..

@[simp] theorem Node.onCmd_loopEnds (l : Loop) : (n.onCmd f).loopEnds l = (n.loopEnds l).onCmd f := by
  unfold Node.loopEnds
  dsimp only
  rw [Node.onCmd_endHolding]
  rfl

@[simp] theorem Node.onCmd_callOrphan : (n.onCmd f).callOrphan = n.callOrphan.onCmd f := by
  refine foldl_onCmd f _ (fun m p => ?_) _ n
  have hp : (m.onCmd f).phone p = m.phone p := rfl
  rw [hp]
  split
  · exact Node.onCmd_ite_node f rfl rfl
  · rfl

@[simp] theorem Node.onCmd_callRejoin : (n.onCmd f).callRejoin = n.callRejoin.onCmd f := by
  refine foldl_onCmd f _ (fun m p => ?_) _ n
  have hp : (m.onCmd f).phone p = m.phone p := rfl
  rw [hp]
  split
  · next r _ =>
    have ho : (m.onCmd f).offerRequest p r = (m.offerRequest p r).onCmd f := Node.onCmd_offerCall m f _
    refine Node.onCmd_ite_node f ?_ rfl
    rw [ho]
    rfl
  · rfl

@[simp] theorem Node.onCmd_setAttach (new : Attach) : (n.onCmd f).setAttach new = (n.setAttach new).onCmd f := by
  have htold : (n.onCmd f).attachTold new = (n.attachTold new).onCmd f := rfl
  by_cases hn : new = .orphan
  · subst hn
    have hs : (n.onCmd f).asOrphan = n.asOrphan.onCmd f := rfl
    rw [Node.setAttach_orphan, Node.setAttach_orphan, hs, Node.onCmd_loopEnds, Node.onCmd_loopEnds, Node.onCmd_callOrphan]
  · by_cases ho : n.ring.attach = .orphan
    · rw [n.setAttach_rejoin ho hn, (n.onCmd f).setAttach_rejoin ho hn, htold, Node.onCmd_callRejoin]
    · rw [n.setAttach_linked ho hn, (n.onCmd f).setAttach_linked ho hn, htold]

@[simp] theorem Node.onCmd_waysidePort (p : PortId) (b : Bool) :
    (n.onCmd f).waysidePort p b = (n.waysidePort p b).onCmd f := by
  have hwaits (b : Bool) : (n.onCmd f).ringWaits b = (n.ringWaits b).onCmd f := rfl
  rcases attach_cases n.ring.attach p with h | h | h | h
  · rw [Node.waysidePort_through h, Node.waysidePort_through (n := n.onCmd f) h]
    exact Node.onCmd_ite_node f rfl (Node.onCmd_setAttach ..)
  · rw [Node.waysidePort_orphan h, Node.waysidePort_orphan (n := n.onCmd f) h]
    exact Node.onCmd_ite_node f (Node.onCmd_ite_node f rfl (Node.onCmd_setAttach ..)) rfl
  · rw [Node.waysidePort_failed h, Node.waysidePort_failed (n := n.onCmd f) h]
    exact hwaits b
  · rw [Node.waysidePort_good h, Node.waysidePort_good (n := n.onCmd f) h, hwaits]
    exact Node.onCmd_ite_node f rfl (Node.onCmd_ite_node f (Node.onCmd_setAttach ..) (Node.onCmd_setAttach ..))

@[simp] theorem Node.onCmd_headPort (p : PortId) (b : Bool) :
    (n.onCmd f).headPort p b = (n.headPort p b).onCmd f := by
  cases p with
  | west => rw [Node.headPort_west, Node.headPort_west]
  | east =>
    cases h : n.head.origin with
    | west =>
      rw [Node.headPort_restores h, Node.headPort_restores (n := n.onCmd f) h]
      rfl
    | east =>
      rw [Node.headPort_east h, Node.headPort_east (n := n.onCmd f) h]
      exact Node.onCmd_ite_node f rfl rfl

@[simp] theorem Node.onCmd_changePort (p : PortId) (new : PortState) (c : PortCause) :
    (n.onCmd f).changePort p new c = (n.changePort p new c).onCmd f := by
  unfold Node.changePort
  have hp : (n.onCmd f).port p = n.port p := rfl
  have hsvc : (n.onCmd f).svc = n.svc := rfl
  dsimp only
  rw [hp, hsvc, Node.onCmd_onPort, Node.onCmd_post]
  generalize n.onPort p _ = a
  have hm : (if (n.port p).state = new ∨ PortState.isProbe (n.port p).state = true ∧ PortState.isProbe new = true
      then a.onCmd f
      else (a.post .portState (.linePort p) [.portState (n.port p).state, .portState new, .portCause c]).onCmd f) =
      (if (n.port p).state = new ∨ PortState.isProbe (n.port p).state = true ∧ PortState.isProbe new = true then a
      else a.post .portState (.linePort p) [.portState (n.port p).state, .portState new, .portCause c]).onCmd f :=
    Node.onCmd_ite_node f rfl rfl
  rw [hm]
  exact Node.onCmd_ite_node f rfl (Node.onCmd_ite_node f (Node.onCmd_headPort ..) (Node.onCmd_waysidePort ..))

@[simp] theorem Node.onCmd_seeLight (p : PortId) : (n.onCmd f).seeLight p = (n.seeLight p).onCmd f :=
  Node.onCmd_ite_node f (Node.onCmd_changePort ..) rfl

/-- A command's action that lets the change of the channels pass on either side of a choice. -/
theorem Node.onCmd_ite_act {α : Type} {c : Prop} [Decidable c] {x y x' y' : Node × α} (hx : x' = (x.1.onCmd f, x.2))
    (hy : y' = (y.1.onCmd f, y.2)) :
    (if c then x' else y') = ((if c then x else y).1.onCmd f, (if c then x else y).2) := by
  split
  · exact hx
  · exact hy

theorem Node.onCmd_portEnable (a : Nat) :
    (n.onCmd f).portEnable a = ((n.portEnable a).1.onCmd f, (n.portEnable a).2) := by
  unfold Node.portEnable
  split
  · rfl
  · refine Node.onCmd_ite_act f ?_ rfl
    dsimp only
    rw [Node.onCmd_changePort, Node.onCmd_seeLight]

theorem Node.onCmd_portDisable (a : Nat) :
    (n.onCmd f).portDisable a = ((n.portDisable a).1.onCmd f, (n.portDisable a).2) := by
  unfold Node.portDisable
  split
  · rfl
  · refine Node.onCmd_ite_act f rfl ?_
    dsimp only
    rw [Node.onCmd_changePort]

theorem Node.onCmd_portReset (a : Nat) :
    (n.onCmd f).portReset a = ((n.portReset a).1.onCmd f, (n.portReset a).2) := by
  unfold Node.portReset
  split
  · rfl
  · refine Node.onCmd_ite_act f rfl ?_
    dsimp only
    rw [Node.onCmd_changePort, Node.onCmd_onPort]
    rfl

theorem Node.onCmd_portLoopback (a : Nat) :
    (n.onCmd f).portLoopback a = ((n.portLoopback a).1.onCmd f, (n.portLoopback a).2) := by
  unfold Node.portLoopback
  split
  · rfl
  · next p _ =>
    have hp : (n.onCmd f).port p = n.port p := rfl
    rw [hp]
    split
    · rfl
    · rfl
    · rw [Node.onCmd_changePort]

end

/-! ## What a change of state leaves -/

theorem Node.RingStep.changePort (n : Node) (p : PortId) (new : PortState) (c : PortCause) :
    Node.RingStep n (n.changePort p new c) := by
  unfold Node.changePort
  extract_lets old m1 m2 wasRun isRun
  have h2 : Node.RingStep n m2 := .ite (.onPort ..) ((onPort ..).trans (.post ..))
  exact .ite h2 (.ite (h2.trans (Node.Rung.headPort ..).step) (h2.trans (Node.Rung.waysidePort ..).step))

/-- R4, R5: the ports at any change of state. -/
theorem Node.changePort_entered (n : Node) (p : PortId) (new : PortState) (c : PortCause) :
    (n.changePort p new c).port p = (n.port p).enter n.svc.now new ∧
      ((n.changePort p new c).port (otherPort p)).state = (n.port (otherPort p)).state := by
  by_cases hr : decide ((n.port p).state = .run) = decide (new = .run)
  · unfold Node.changePort
    dsimp only
    rw [if_pos hr]
    split
    · exact ⟨Node.port_onPort .., by rw [Node.port_onPort_other]⟩
    · exact ⟨by rw [Node.port_post, Node.port_onPort], by rw [Node.port_post, Node.port_onPort_other]⟩
  · obtain ⟨hp, hq, -⟩ := n.changePort_ports p new c hr
    exact ⟨hp, hq⟩

theorem Node.RingStep.seeLight (n : Node) (p : PortId) : Node.RingStep n (n.seeLight p) :=
  .ite (.changePort ..) (.refl n)

section
variable (n : Node) (a : Nat)

theorem Node.portEnable_cmd : (n.portEnable a).1.cmd = n.cmd := by
  unfold Node.portEnable
  split
  · rfl
  · split
    · exact ((Node.RingStep.changePort ..).trans (.seeLight ..)).cmd
    · rfl

theorem Node.portDisable_cmd : (n.portDisable a).1.cmd = n.cmd := by
  unfold Node.portDisable
  split
  · rfl
  · split
    · rfl
    · exact (Node.RingStep.changePort ..).cmd

theorem Node.portReset_cmd : (n.portReset a).1.cmd = n.cmd := by
  unfold Node.portReset
  split
  · rfl
  · split
    · rfl
    · exact ((Node.RingStep.changePort ..).trans (.onPort ..)).cmd

theorem Node.portLoopback_cmd : (n.portLoopback a).1.cmd = n.cmd := by
  unfold Node.portLoopback
  split
  · rfl
  · split
    · rfl
    · rfl
    · exact (Node.RingStep.changePort ..).cmd

end

/-! ## The rows -/

section
variable {s : State} {o : Origin} {a : Nat} {m : Node} {st : Status} {v : Value}

theorem exec_portEnable (h : Takes s o (.portEnable a)) (hm : s.node.portEnable a = (m, st, v)) :
    exec (.portEnable o a) s = .next (s.replied m o (.portEnable a) st v) :=
  State.command_atOnce h (act := fun n => n.portEnable a) (fun _ => rfl) (fun n f => n.onCmd_portEnable f a)
    (fun n => n.portEnable_cmd a) hm

theorem exec_portDisable (h : Takes s o (.portDisable a)) (hm : s.node.portDisable a = (m, st, v)) :
    exec (.portDisable o a) s = .next (s.replied m o (.portDisable a) st v) :=
  State.command_atOnce h (act := fun n => n.portDisable a) (fun _ => rfl) (fun n f => n.onCmd_portDisable f a)
    (fun n => n.portDisable_cmd a) hm

theorem exec_portReset (h : Takes s o (.portReset a)) (hm : s.node.portReset a = (m, st, v)) :
    exec (.portReset o a) s = .next (s.replied m o (.portReset a) st v) :=
  State.command_atOnce h (act := fun n => n.portReset a) (fun _ => rfl) (fun n f => n.onCmd_portReset f a)
    (fun n => n.portReset_cmd a) hm

theorem exec_portLoopback (h : Takes s o (.portLoopback a)) (hm : s.node.portLoopback a = (m, st, v)) :
    exec (.portLoopback o a) s = .next (s.replied m o (.portLoopback a) st v) :=
  State.command_atOnce h (act := fun n => n.portLoopback a) (fun _ => rfl) (fun n f => n.onCmd_portLoopback f a)
    (fun n => n.portLoopback_cmd a) hm

end

/-! ## What the commands do, by the state of the port -/

section
variable {n : Node} {a : Nat} {p : PortId} (hp : portOf a = some p)
include hp

theorem Node.portEnable_disabled (h : (n.port p).state = .disabled) :
    n.portEnable a = ((n.changePort p .dark .command).seeLight p, .done, .nil) := by
  unfold Node.portEnable
  rw [hp]
  exact if_pos h

theorem Node.portEnable_enabled (h : (n.port p).state ≠ .disabled) : n.portEnable a = (n, .wrongState, .nil) := by
  unfold Node.portEnable
  rw [hp]
  exact if_neg h

theorem Node.portDisable_disabled (h : (n.port p).state = .disabled) : n.portDisable a = (n, .done, .nil) := by
  unfold Node.portDisable
  rw [hp]
  exact if_pos h

theorem Node.portDisable_enabled (h : (n.port p).state ≠ .disabled) :
    n.portDisable a = (n.changePort p .disabled .command, .done, .nil) := by
  unfold Node.portDisable
  rw [hp]
  exact if_neg h

theorem Node.portReset_disabled (h : (n.port p).state = .disabled) : n.portReset a = (n, .wrongState, .nil) := by
  unfold Node.portReset
  rw [hp]
  exact if_pos h

theorem Node.portReset_enabled (h : (n.port p).state ≠ .disabled) :
    n.portReset a = ((n.changePort p (if n.pins.light p then .probeSend else .dark) .command).onPort p fun r =>
      { r with conflict := false }, .done, .nil) := by
  unfold Node.portReset
  rw [hp]
  exact if_neg h

theorem Node.portLoopback_disabled (h : (n.port p).state = .disabled) :
    n.portLoopback a = (n, .wrongState, .nil) := by
  unfold Node.portLoopback
  rw [hp]
  dsimp only
  rw [h]

theorem Node.portLoopback_already (h : (n.port p).state = .loopback) : n.portLoopback a = (n, .done, .nil) := by
  unfold Node.portLoopback
  rw [hp]
  dsimp only
  rw [h]

theorem Node.portLoopback_enters (h : (n.port p).state ≠ .disabled) (k : (n.port p).state ≠ .loopback) :
    n.portLoopback a = (n.changePort p .loopback .command, .done, .nil) := by
  unfold Node.portLoopback
  rw [hp]
  dsimp only
  split
  · next e => exact absurd e h
  · next e => exact absurd e k
  · rfl

end

/-- R5, R12: a port that PORT-ENABLE takes out of DISABLED. -/
theorem Node.enabled_spec (n : Node) (p : PortId) (h : (n.port p).state = .disabled) :
    let m := (n.changePort p .dark .command).seeLight p
    (m.port p).state = (if (n.port p).transmit && n.pins.light p then .probeSend else .dark) ∧
      (m.port p).neighbour = none ∧ (m.port p).conflict = false ∧ m.port (otherPort p) = n.port (otherPort p) ∧
      m.ring = n.ring ∧ m.head = n.head := by
  have hdark : n.changePort p .dark .command = n.portTo p .dark .command :=
    n.changePort_portTo p .dark .command (by simp [h]) (by simp [h, PortState.isProbe]) (by simp [h])
  have hport := n.port_portTo p .dark .command
  have hother := n.port_portTo_other p .dark .command
  obtain ⟨hring, hhead⟩ := n.ring_portTo p .dark .command
  have hpins := (Node.RingStep.portTo n p .dark .command).pins
  rw [hdark]
  generalize n.portTo p .dark .command = d at hport hother hring hhead hpins
  have hstate : (d.port p).state = .dark := by rw [hport]; rfl
  have htransmit : (d.port p).transmit = (n.port p).transmit := by rw [hport]; rfl
  intro m
  by_cases hl : (n.port p).transmit = true ∧ n.pins.light p = true
  · have hm : m = d.portTo p .probeSend .lightSeen := by
      have hsee : m = d.changePort p .probeSend .lightSeen :=
        if_pos ⟨hstate, by rw [htransmit]; exact hl.1, by rw [hpins]; exact hl.2⟩
      rw [hsee, d.changePort_portTo p .probeSend .lightSeen (by simp [hstate]) (by simp [hstate, PortState.isProbe])
        (by simp [hstate])]
    obtain ⟨hr, hh⟩ := d.ring_portTo p .probeSend .lightSeen
    rw [hm, d.port_portTo, d.port_portTo_other, hr, hh, hport, hother, hring, hhead, hl.1, hl.2]
    simp [Port.enter]
  · have hm : m = d := if_neg fun hc => hl ⟨htransmit ▸ hc.2.1, hpins ▸ hc.2.2⟩
    have hno : ((n.port p).transmit && n.pins.light p) = false := by
      simpa [Bool.and_eq_false_iff, Bool.and_eq_true] using hl
    rw [hm, hport, hother, hring, hhead, hno]
    simp [Port.enter]

/-- R2: what a port sends goes by its state. -/
theorem Node.sends_spec (n : Node) (p : PortId) :
    let r := n.port p
    let probe (echo : Bool) : Sent := .probe { station := n.me, role := n.set.role, echo := echo }
    (r.state = .disabled → n.sends p = .dark) ∧
    (r.state = .dark → n.sends p = if r.transmit then probe false else .dark) ∧
    (r.state = .probeSend → n.sends p = probe false) ∧
    (r.state = .probeEcho → n.sends p = probe true) ∧
    (r.state = .loopback → n.sends p = .idleFill) ∧
    (r.state = .align ∨ r.state = .run ∨ r.state = .recover →
      (r.sent = none → n.sends p = .idleFill) ∧ (∀ c, r.sent = some c → n.sends p = .cycle c)) := by
  unfold Node.sends
  dsimp only
  refine ⟨fun h => by rw [h], fun h => by rw [h]; rfl, fun h => by rw [h]; rfl, fun h => by rw [h]; rfl,
    fun h => by rw [h], fun h => ?_⟩
  have carried : ∀ x : Sent, (match (n.port p).sent with | some c => Sent.cycle c | none => .idleFill) = x →
      n.sends p = x := by
    intro x hx
    unfold Node.sends
    rcases h with h | h | h <;> (dsimp only; rw [h]; exact hx)
  exact ⟨fun hs => carried _ (by rw [hs]), fun c hs => carried _ (by rw [hs])⟩

/-- Settles O15: each command by the state of its port. -/
theorem portCommands : Obligations.PortCommands := by
  refine ⟨fun n p => n.sends_spec p, fun o s => ⟨fun a ha => ?_, fun a p ha => ?_⟩⟩
  · refine ⟨fun h => exec_portEnable h ?_, fun h => exec_portDisable h ?_, fun h => exec_portReset h ?_,
      fun h => exec_portLoopback h ?_⟩
    · rw [Node.portEnable, ha]
    · rw [Node.portDisable, ha]
    · rw [Node.portReset, ha]
    · rw [Node.portLoopback, ha]
  · refine ⟨fun h => ⟨fun hs => ?_, fun hs => ?_⟩, fun h => ⟨fun hs => ?_, fun hs => ?_⟩,
      fun h => ⟨fun hs => ?_, fun hs => ?_⟩, fun h => ⟨fun hs => ?_, fun hs => ?_, fun hs hl => ?_⟩⟩
    · exact ⟨_, exec_portEnable h (Node.portEnable_disabled ha hs), s.node.enabled_spec p hs⟩
    · exact exec_portEnable h (Node.portEnable_enabled ha hs)
    · exact exec_portDisable h (Node.portDisable_disabled ha hs)
    · obtain ⟨hport, hother⟩ := s.node.changePort_entered p .disabled .command
      refine ⟨_, exec_portDisable h (Node.portDisable_enabled ha hs), ?_⟩
      rw [hport]
      exact ⟨rfl, rfl, by simp [Port.enter], hother⟩
    · exact exec_portReset h (Node.portReset_disabled ha hs)
    · obtain ⟨hport, hother⟩ := s.node.changePort_entered p (if s.node.pins.light p then .probeSend else .dark) .command
      refine ⟨_, exec_portReset h (Node.portReset_enabled ha hs), ?_⟩
      rw [Node.port_onPort, Node.port_onPort_other, hport]
      exact ⟨rfl, rfl, fun hl => by simp [Port.enter, hl], hother⟩
    · exact exec_portLoopback h (Node.portLoopback_disabled ha hs)
    · exact exec_portLoopback h (Node.portLoopback_already ha hs)
    · obtain ⟨hport, hother⟩ := s.node.changePort_entered p .loopback .command
      refine ⟨_, exec_portLoopback h (Node.portLoopback_enters ha hs hl), ?_⟩
      rw [hport]
      exact ⟨rfl, hother⟩

end Sys2Proof.Machine

/-! SUPPORT. O36 (R90): RELEASE waits for the marker that carries its tag. -/

namespace Sys2Proof.Machine

/-- What sending a cycle leaves to the others: the head-end's record, the commands and the host link. -/
structure Node.SendStep (n m : Node) : Prop where
  head : m.head = n.head
  cmd : m.cmd = n.cmd
  link : m.link = n.link

namespace Node.SendStep

theorem refl (n : Node) : Node.SendStep n n := ⟨rfl, rfl, rfl⟩

theorem trans {a b c : Node} (h : Node.SendStep a b) (k : Node.SendStep b c) : Node.SendStep a c :=
  ⟨k.head.trans h.head, k.cmd.trans h.cmd, k.link.trans h.link⟩

theorem ite {n a b : Node} {c : Prop} [Decidable c] (h : Node.SendStep n a) (k : Node.SendStep n b) :
    Node.SendStep n (if c then a else b) := by
  split
  · exact h
  · exact k

theorem direct (n : Node) (p : PortId) (c : Cycle) : Node.SendStep n (n.direct p c) := by
  cases p <;> exact ⟨rfl, rfl, rfl⟩

theorem sendBare (n : Node) (c : Cycle) : Node.SendStep n (n.sendBare c) := ite (direct ..) (refl n)

theorem originateWindow (n : Node) (l : Loop) (k : Nat) : Node.SendStep n (n.originateWindow l k).1 :=
  let h := Node.WinStep.originateWindow n l k
  ⟨h.head, h.cmd, h.link⟩

theorem originateInner (n : Node) : Node.SendStep n n.originateInner :=
  ite ((originateWindow ..).trans (direct ..)) (refl n)

end Node.SendStep

/-- R90: the outer-schedule cycle carries the tag away; but for sending, that is all it does to commands and replies. -/
theorem Node.originateOuter_released (n : Node) :
    ∃ m, Node.SendStep n m ∧ Node.SendStep m.releaseWritten n.originateOuter := by
  refine ⟨(n.originateWindow .outer (62 - n.set.voiceCap)).1, .originateWindow .., ?_⟩
  unfold Node.originateOuter
  exact .ite ((Node.SendStep.direct ..).trans (.sendBare ..)) (.direct ..)

/-- R90: the tag is written and RELEASE is in progress: it ends with DONE. -/
theorem Node.releaseWritten_ends {n : Node} {tag k : Nat} {x : Nat} (ht : n.head.tag = some x)
    (hc : n.cmd.chanL = some { origin := .link k, cmd := .release tag }) :
    n.releaseWritten = ((n.onHead fun h => { h with tag := none }).onCmd fun c => { c with chanL := none }).pushReply
      { tag := k, station := 0, cmd := .command (.release tag), status := .done, result := .nil, restart := false } := by
  unfold Node.releaseWritten
  rw [ht]
  dsimp only
  have hc' : (n.onHead fun h => { h with tag := none }).cmd.chanL =
      some { origin := .link k, cmd := .release tag } := hc
  rw [hc']
  exact Node.endCommand_channel (o := .link k) hc' .done .nil

/-- R90: a cycle period at the head-end that originates. -/
theorem Node.originate_released {n : Node} {tag k : Nat} (hs : n.head.started = true) (ht : n.head.tag = some tag)
    (hc : n.cmd.chanL = some { origin := .link k, cmd := .release tag }) :
    n.originate.head.tag = none ∧ n.originate.cmd.chanL = none ∧
      n.originate.replying { tag := k, station := 0, cmd := .command (.release tag), status := .done, result := .nil,
                             restart := false } := by
  unfold Node.originate
  rw [Node.passPeriod, Node.setTime_eq]
  dsimp only
  rw [if_pos (by exact hs)]
  generalize hp : Node.onHead _ _ = p
  have hpt : p.head.tag = some tag := by rw [← hp]; exact ht
  have hpc : p.cmd.chanL = some { origin := .link k, cmd := .release tag } := by rw [← hp]; exact hc
  obtain ⟨m, hbefore, hafter⟩ := p.originateOuter_released
  have hstep := hafter.trans (.originateInner _)
  rw [Node.releaseWritten_ends (by rw [hbefore.head]; exact hpt) (by rw [hbefore.cmd]; exact hpc)] at hstep
  refine ⟨by rw [hstep.head]; rfl, by rw [hstep.cmd]; rfl, .inl ?_⟩
  rw [hstep.link]
  exact List.mem_append_right _ (List.mem_singleton.2 rfl)

/-- Settles O36: the command by its argument, the originated cycle by what its sending leaves. -/
theorem releaseWaitsForItsMarker : Obligations.ReleaseWaitsForItsMarker := by
  intro tag k s
  refine ⟨fun ht => ⟨fun hbad => ?_, fun h1 h2 => ?_⟩, fun hphase hhead hstarted htag hchan => ?_⟩
  · refine State.command_replied ht s.node .badArgument .nil ht.free ?_
    exact if_pos hbad
  · refine State.command_stays ht _ ?_
    exact if_neg (by omega)
  · refine ⟨_, State.act_onRole hphase hhead, ?_⟩
    rw [State.settled_node]
    have hk := Node.keeps_settle s.node.originate
    obtain ⟨hnone, hfree, hreply⟩ := Node.originate_released hstarted htag hchan
    exact ⟨by rw [hk.head]; exact hnone, hk.chanL hfree, hk.replying _ hreply⟩

end Sys2Proof.Machine

/-! SUPPORT. The release unit (R90–R94): what APPLY-STAGED, BEACON-PULSE and ROSTER-SWEEP do, and O37. -/

namespace Sys2Proof.Machine

/-! ## Operations on signs leave ZONE's other records -/

/-- What an operation on signs leaves: but for the sign records, ZONE; of the services, what a post or a freeing leaves. -/
structure SignStep (x y : ZoneSt) : Prop where
  rest : y.2 = { x.2 with signs := y.2.signs }
  svc : Svc.Keeps x.1 y.1

namespace SignStep

theorem refl (x : ZoneSt) : SignStep x x := ⟨rfl, .refl _⟩

theorem trans {x y z : ZoneSt} (h : SignStep x y) (k : SignStep y z) : SignStep x z :=
  ⟨by rw [k.rest, h.rest], h.svc.trans k.svc⟩

theorem changeSign (x : ZoneSt) (d : Nat) (f : Sign → Sign) : SignStep x (x.1, x.2.changeSign d f) := ⟨rfl, .refl _⟩

theorem workOutSign (d : Nat) (x : ZoneSt) : SignStep x (workOutSign d x) := by
  refine ⟨?_, keeps_workOutSign d x⟩
  unfold Machine.workOutSign
  split
  · rfl
  · dsimp only
    split <;> rfl

theorem giveUpPage (d : Nat) (src : PageSrc) (x : ZoneSt) : SignStep x (giveUpPage d src x) := by
  refine ⟨?_, (giveUpPage_spec d src x).1⟩
  unfold Machine.giveUpPage
  split
  · split <;> rfl
  · rfl

section
variable {x y : ZoneSt} (h : SignStep x y)
include h

theorem zones : y.2.zones = x.2.zones := by rw [h.rest]
theorem beacons : y.2.beacons = x.2.beacons := by rw [h.rest]
theorem pending : y.2.pending = x.2.pending := by rw [h.rest]
theorem performed : y.2.performed = x.2.performed := by rw [h.rest]
theorem forced : y.2.forced = x.2.forced := by rw [h.rest]

end

end SignStep

/-! ## APPLY-STAGED (R93) -/

/-- R93: a sign before the staged page's way into service, with the old normal page given up. -/
def withoutNormal (d : Nat) (g : Sign) (x : ZoneSt) : ZoneSt := if g.normal.isSome then giveUpPage d .normal x else x

theorem signStep_withoutNormal (d : Nat) (g : Sign) (x : ZoneSt) : SignStep x (withoutNormal d g x) := by
  unfold withoutNormal
  split
  · exact .giveUpPage ..
  · exact .refl x

theorem withoutNormal_staged {d : Nat} {g : Sign} {x : ZoneSt} (hg : x.2.sign d = some g) :
    ∃ g', (withoutNormal d g x).2.sign d = some g' ∧ g'.staged = g.staged := by
  unfold withoutNormal
  split
  · exact giveUpPage_staged .normal hg
  · exact ⟨g, hg, rfl⟩

theorem withoutNormal_other {d : Nat} {g : Sign} {x : ZoneSt} {k : Nat} (hk : k ≠ d) :
    (withoutNormal d g x).2.sign k = x.2.sign k := by
  unfold withoutNormal
  split
  · exact (giveUpPage_spec d .normal x).2.2.2 k hk
  · rfl

/-- R93: a staged page that takes the normal page's place. -/
def Sign.serveStaged (g : Sign) : Sign := { g with normal := g.staged.map Prod.fst, staged := none }

theorem applyStagedAt_matching {tag : Nat} {x : ZoneSt × Nat} {d : Nat} {g : Sign} (hg : x.1.2.sign d = some g)
    (hm : stagedMatches tag g.staged = true) :
    applyStagedAt tag x d = (workOutSign d ((withoutNormal d g x.1).1,
      (withoutNormal d g x.1).2.changeSign d Sign.serveStaged), x.2 + 1) := by
  simp only [applyStagedAt, hg, if_pos hm]
  rfl

theorem applyStagedAt_idle {tag : Nat} {x : ZoneSt × Nat} {d : Nat}
    (h : ∀ g, x.1.2.sign d = some g → stagedMatches tag g.staged = false) : applyStagedAt tag x d = x := by
  unfold applyStagedAt
  cases hg : x.1.2.sign d with
  | none => rfl
  | some g => exact if_neg (by simp [h g hg])

theorem signStep_applyStagedAt (tag : Nat) (x : ZoneSt × Nat) (d : Nat) : SignStep x.1 (applyStagedAt tag x d).1 := by
  by_cases hm : ∃ g, x.1.2.sign d = some g ∧ stagedMatches tag g.staged = true
  · obtain ⟨g, hg, hm⟩ := hm
    rw [applyStagedAt_matching hg hm]
    exact ((signStep_withoutNormal d g x.1).trans (.changeSign ..)).trans (.workOutSign ..)
  · rw [applyStagedAt_idle fun g hg => by simpa using fun hm' => hm ⟨g, hg, hm'⟩]
    exact .refl _

theorem applyStagedAt_other (tag : Nat) (x : ZoneSt × Nat) {d k : Nat} (hk : k ≠ d) :
    (applyStagedAt tag x d).1.2.sign k = x.1.2.sign k := by
  by_cases hm : ∃ g, x.1.2.sign d = some g ∧ stagedMatches tag g.staged = true
  · obtain ⟨g, hg, hm⟩ := hm
    rw [applyStagedAt_matching hg hm]
    dsimp only
    rw [(workOutSign_spec d _).2.2 k hk, Zone.sign_changeSign_other _ _ hk, withoutNormal_other hk]
  · rw [applyStagedAt_idle fun g hg => by simpa using fun hm' => hm ⟨g, hg, hm'⟩]

/-- R93: what APPLY-STAGED leaves in a sign: a matching staged page is its normal page, another one stays. -/
def Sign.AppliedFrom (g g' : Sign) (tag : Nat) : Prop :=
  if stagedMatches tag g.staged then g'.normal = g.staged.map Prod.fst ∧ g'.staged = none
  else g'.normal = g.normal ∧ g'.staged = g.staged

theorem applyStagedAt_same (tag : Nat) {x : ZoneSt × Nat} {d : Nat} {g : Sign} (hg : x.1.2.sign d = some g) :
    ∃ g', (applyStagedAt tag x d).1.2.sign d = some g' ∧ g.AppliedFrom g' tag := by
  unfold Sign.AppliedFrom
  cases hm : stagedMatches tag g.staged with
  | true =>
    obtain ⟨g₁, hg₁, hstaged⟩ := withoutNormal_staged hg
    rw [applyStagedAt_matching hg hm]
    dsimp only
    rw [(workOutSign_spec d _).2.1, Zone.sign_changeSign_same, hg₁]
    refine ⟨_, rfl, ?_⟩
    rw [if_pos rfl]
    exact ⟨congrArg (Option.map Prod.fst) hstaged, rfl⟩
  | false =>
    rw [applyStagedAt_idle fun k hk => by rw [← Option.some.inj (hg.symm.trans hk)]; exact hm]
    exact ⟨g, hg, by rw [if_neg (by simp)]; exact ⟨rfl, rfl⟩⟩

theorem foldl_applyStagedAt_other (tag : Nat) {k : Nat} : ∀ (l : List Nat) (x : ZoneSt × Nat), k ∉ l →
    (l.foldl (applyStagedAt tag) x).1.2.sign k = x.1.2.sign k
  | [], _, _ => rfl
  | d :: l, x, h => by
    rw [List.mem_cons, not_or] at h
    exact (foldl_applyStagedAt_other tag l _ h.2).trans (applyStagedAt_other tag x h.1)

theorem foldl_applyStagedAt_same (tag : Nat) {d : Nat} {g : Sign} : ∀ (l : List Nat) (x : ZoneSt × Nat), l.Nodup →
    d ∈ l → x.1.2.sign d = some g →
    ∃ g', (l.foldl (applyStagedAt tag) x).1.2.sign d = some g' ∧ g.AppliedFrom g' tag
  | [], _, _, hd, _ => absurd hd (List.not_mem_nil)
  | k :: l, x, hl, hd, hg => by
    obtain ⟨hk, hl⟩ := List.nodup_cons.1 hl
    rw [List.foldl_cons]
    by_cases e : d = k
    · subst e
      rw [foldl_applyStagedAt_other tag l _ hk]
      exact applyStagedAt_same tag hg
    · refine foldl_applyStagedAt_same tag l _ hl ((List.mem_cons.1 hd).resolve_left e) ?_
      rw [applyStagedAt_other tag x e, hg]

theorem signStep_applyStaged (tag : Nat) (x : ZoneSt) : SignStep x (applyStaged tag x).1 := by
  unfold applyStaged
  have hfold : ∀ (l : List Nat) (y : ZoneSt × Nat), SignStep y.1 (l.foldl (applyStagedAt tag) y).1 := by
    intro l
    induction l with
    | nil => exact fun y => .refl _
    | cons d l ih => exact fun y => (signStep_applyStagedAt tag y d).trans (ih _)
  exact hfold (places 8) (x, 0)

theorem applyStaged_sign (tag : Nat) {x : ZoneSt} {d : Nat} {g : Sign} (h1 : 1 ≤ d) (h8 : d ≤ 8)
    (hg : x.2.sign d = some g) : ∃ g', (applyStaged tag x).1.2.sign d = some g' ∧ g.AppliedFrom g' tag := by
  unfold applyStaged
  refine foldl_applyStagedAt_same tag (places 8) (x, 0) (nodup_places 8) ?_ hg
  show d ∈ List.range' 1 8
  exact List.mem_range'_1.2 ⟨h1, by omega⟩

/-! ## The actions of a release (R92–R94) -/

/-- R93: the node after the first action, and how many pages were put into service. -/
def Node.afterApply (n : Node) (tag : Nat) : Node × Nat :=
  if n.set.releaseActions.contains .applyStaged then
    let x := applyStaged tag (n.svc, n.zone)
    ({ n with svc := x.1.1, zone := x.1.2 }, x.2)
  else (n, 0)

theorem Node.afterApply_rest (n : Node) (tag : Nat) :
    (n.afterApply tag).1 = { n with svc := (n.afterApply tag).1.svc, zone := (n.afterApply tag).1.zone } ∧
    SignStep (n.svc, n.zone) ((n.afterApply tag).1.svc, (n.afterApply tag).1.zone) := by
  have hstep := signStep_applyStaged tag (n.svc, n.zone)
  unfold Node.afterApply
  generalize applyStaged tag (n.svc, n.zone) = x at hstep ⊢
  split
  · exact ⟨rfl, hstep⟩
  · exact ⟨rfl, .refl _⟩

theorem Node.afterApply_sign (n : Node) {tag d : Nat} {g : Sign} (hacts : .applyStaged ∈ n.set.releaseActions)
    (h1 : 1 ≤ d) (h8 : d ≤ 8) (hg : n.zone.sign d = some g) :
    ∃ g', (n.afterApply tag).1.zone.sign d = some g' ∧ g.AppliedFrom g' tag := by
  have happlied := applyStaged_sign tag (x := (n.svc, n.zone)) h1 h8 hg
  unfold Node.afterApply
  generalize applyStaged tag (n.svc, n.zone) = x at happlied ⊢
  rw [if_pos (List.contains_iff_mem.2 hacts)]
  exact happlied

/-- R94, R96: the single period that BEACON-PULSE begins. -/
def Node.pulseRecord (n : Node) : Beacon := .pulse n.svc.now n.set.pulsePattern.1 n.set.pulsePattern.2

/-- R94: BEACON-PULSE changes the beacon records alone. -/
theorem Node.pulseBeacons_eq (n : Node) : n.pulseBeacons = { n with zone := { n.zone with
    beacons := n.set.pulseBeacons.foldl (fun l b => change (fun _ => n.pulseRecord) l b) n.zone.beacons } } := by
  have hfold : ∀ (l : List Nat) (bs : List Beacon),
      l.foldl (fun (n : Node) b => { n with zone := n.zone.changeBeacon b fun _ => n.pulseRecord })
        { n with zone := { n.zone with beacons := bs } } =
      { n with zone := { n.zone with beacons := l.foldl (fun l b => change (fun _ => n.pulseRecord) l b) bs } } := by
    intro l
    induction l with
    | nil => exact fun _ => rfl
    | cons b l ih => exact fun bs => ih _
  exact hfold n.set.pulseBeacons n.zone.beacons

/-- R94: a record written at several places stands at each of them. -/
theorem nth_foldl_change {α : Type} (a : α) : ∀ (l : List Nat) (t : List α) (k : Nat) (r : α), nth t k = some r →
    nth (l.foldl (fun t b => change (fun _ => a) t b) t) k = some (if k ∈ l then a else r)
  | [], _, _, _, h => h
  | b :: l, t, k, r, h => by
    have hn : nth (change (fun _ => a) t b) k = some (if k = b then a else r) := by
      rw [nth_change, h]
      split <;> rfl
    rw [List.foldl_cons, nth_foldl_change a l _ k _ hn]
    by_cases hl : k ∈ l
    · simp [hl]
    · simp [hl]

/-- R110: ROSTER-SWEEP changes the roster records alone. -/
theorem Node.rosterSweep_eq (n : Node) : n.rosterSweep = { n with trib := { n.trib with
    roster := changeAll (fun e => (n.set.rosterEntry e).isSome)
      (fun _ r => { r with since := some (r.since.getD n.svc.now) }) (places 16) n.trib.roster } } := by
  refine foldl_table (fun l => { n with trib := { n.trib with roster := l } }) (fun l e => ?_) (places 16) n.trib.roster
  cases he : n.set.rosterEntry e with
  | none =>
    have he' : ({ n with trib := { n.trib with roster := l } } : Node).set.rosterEntry e = none := he
    rw [he']
    rfl
  | some spec =>
    have he' : ({ n with trib := { n.trib with roster := l } } : Node).set.rosterEntry e = some spec := he
    rw [he']
    rfl

/-- R94: the node after BEACON-PULSE, and after ROSTER-SWEEP, where the actions have them. -/
def Node.afterPulse (n : Node) (acts : List ReleaseAction) : Node :=
  if acts.contains .beaconPulse then n.pulseBeacons else n

def Node.afterSweep (n : Node) (acts : List ReleaseAction) : Node :=
  if acts.contains .rosterSweep then n.rosterSweep else n

theorem Node.afterPulse_rest (n : Node) (acts : List ReleaseAction) :
    n.afterPulse acts = { n with zone := { n.zone with beacons := (n.afterPulse acts).zone.beacons } } := by
  unfold Node.afterPulse
  split
  · rw [Node.pulseBeacons_eq]
  · rfl

theorem Node.afterSweep_rest (n : Node) (acts : List ReleaseAction) :
    n.afterSweep acts = { n with trib := (n.afterSweep acts).trib } := by
  unfold Node.afterSweep
  split
  · rw [Node.rosterSweep_eq]
  · rfl

/-- R92: a release, action by action. -/
theorem Node.performRelease_eq (n : Node) (tag : Nat) (forced : Bool) :
    let acts := n.set.releaseActions
    let a := n.afterApply tag
    let b := (a.1.afterPulse acts).afterSweep acts
    n.performRelease tag forced = { b with
      svc := if acts.contains .timeMark then b.svc.post .releaseDone .none [.nat tag, .nat a.2, .flag forced] else b.svc
      zone := { b.zone with
        performed := bump Config.wordMax b.zone.performed
        forced := if forced then bump Config.wordMax b.zone.forced else b.zone.forced } } := by
  intro acts a b
  have hexp : n.performRelease tag forced =
      let c := if acts.contains .timeMark then b.post .releaseDone .none [.nat tag, .nat a.2, .flag forced] else b
      { c with zone := { c.zone with
        performed := bump Config.wordMax c.zone.performed
        forced := if forced then bump Config.wordMax c.zone.forced else c.zone.forced } } := rfl
  rw [hexp]
  split
  · rfl
  · rfl

/-- R92: what a release leaves, and what its counts become. -/
theorem Node.performRelease_rest (n : Node) (tag : Nat) (forced : Bool) :
    let m := n.performRelease tag forced
    m = { n with svc := m.svc, zone := m.zone, trib := m.trib } ∧
    m.zone.zones = n.zone.zones ∧ m.zone.pending = n.zone.pending ∧
    m.zone.performed = bump Config.wordMax n.zone.performed ∧
    m.zone.forced = (if forced then bump Config.wordMax n.zone.forced else n.zone.forced) := by
  dsimp only
  obtain ⟨happly, hstep⟩ := n.afterApply_rest tag
  rw [Node.performRelease_eq]
  dsimp only
  generalize n.afterApply tag = a at happly hstep
  rw [Node.afterSweep_rest, Node.afterPulse_rest]
  dsimp only
  rw [happly]
  exact ⟨rfl, hstep.zones, hstep.pending, congrArg _ hstep.performed, by rw [← hstep.forced]⟩

/-- R93: the sign records of a release are those of APPLY-STAGED. -/
theorem Node.performRelease_signs (n : Node) (tag : Nat) (forced : Bool) (d : Nat) :
    (n.performRelease tag forced).zone.sign d = (n.afterApply tag).1.zone.sign d := by
  rw [Node.performRelease_eq]
  dsimp only
  rw [Node.afterSweep_rest, Node.afterPulse_rest]
  rfl

/-- A sign that is as it was but for its load in flight. -/
theorem sign_of_still {z y : Zone} {d : Nat} {g : Sign} (hk : (y.sign d).map Sign.still = (z.sign d).map Sign.still)
    (hg : z.sign d = some g) : ∃ g', y.sign d = some g' ∧ g'.normal = g.normal ∧ g'.staged = g.staged := by
  rw [hg] at hk
  obtain ⟨g', hg', he⟩ := Option.map_eq_some_iff.1 hk
  have hnormal : g'.still.normal = g.still.normal := congrArg Sign.normal he
  have hstaged : g'.still.staged = g.still.staged := congrArg Sign.staged he
  exact ⟨g', hg', hnormal, hstaged⟩

/-- R92: the release whose delay has run out. -/
theorem Node.releaseDue_performs {n : Node} {q : Pending} (hq : n.zone.pending = some q) (hd : q.due ≤ n.svc.now) :
    n.releaseDue = { n with zone := { n.zone with pending := none } }.performRelease q.tag false := by
  simp only [Node.releaseDue, hq, if_pos hd]

/-- Settles O37: the due release is performed; the end of the step keeps what it left. -/
theorem dueReleaseIsPerformed : Obligations.DueReleaseIsPerformed := by
  intro q s hphase hhead hq hdue
  refine ⟨s.settled s.node.releaseDue, State.act_onRole hphase hhead, ?_⟩
  rw [State.settled_node, Node.releaseDue_performs hq hdue]
  obtain ⟨hrest, hzones, hpending, hperformed, hforced⟩ :=
    ({ s.node with zone := { s.node.zone with pending := none } } : Node).performRelease_rest q.tag false
  have hsigns := ({ s.node with zone := { s.node.zone with pending := none } } : Node).performRelease_signs q.tag false
  generalize Node.performRelease _ _ _ = m at hrest hzones hpending hperformed hforced hsigns ⊢
  have hk := Node.keeps_settle m
  refine ⟨hk.pending.trans hpending, hk.performed.trans hperformed, hk.forced.trans hforced, hk.zones.trans hzones,
    hk.phones.trans (by rw [hrest]), hk.toll.trans (by rw [hrest]), fun hacts d g h1 h8 hg => ?_⟩
  have happlied := ({ s.node with zone := { s.node.zone with pending := none } } : Node).afterApply_sign (tag := q.tag)
    hacts h1 h8 hg
  obtain ⟨g₁, hg₁, happ⟩ := happlied
  obtain ⟨g', hg', hnormal, hstaged⟩ := sign_of_still (hk.signs d) ((hsigns d).trans hg₁)
  refine ⟨g', hg', fun p hp => ?_, fun p k hp h2 h3 => ?_⟩
  · have hm : stagedMatches q.tag g.staged = true ∧ g.staged.map Prod.fst = some p := by
      rcases hp with hp | hp <;> simp [hp, stagedMatches]
    unfold Sign.AppliedFrom at happ
    rw [if_pos hm.1, hm.2] at happ
    exact ⟨hnormal.trans happ.1, hstaged.trans happ.2⟩
  · have hm : ¬ stagedMatches q.tag g.staged = true := by simp [hp, stagedMatches, h2, h3]
    unfold Sign.AppliedFrom at happ
    rw [if_neg hm] at happ
    exact ⟨hnormal.trans happ.1, hstaged.trans happ.2⟩

end Sys2Proof.Machine

/-! SUPPORT. Zones and their causes (R74–R77), and O34. -/

namespace Sys2Proof.Machine

/-! ## What a cause added or removed makes of a zone's record (R74) -/

/-- R74: a zone's record with a cause more, at a time. -/
def ZoneRec.withCause (c : Cause) (t : NodeTime) (r : ZoneRec) : ZoneRec :=
  if r.causes.contains c then r
  else { causes := causeOrder.filter fun e => e = c || r.causes.contains e,
         since := if r.causes.isEmpty then some t else r.since }

/-- R74: a zone's record without the causes that are `gone`. -/
def ZoneRec.without (gone : Cause → Bool) (r : ZoneRec) : ZoneRec :=
  { causes := r.causes.filter fun c => !gone c,
    since := if r.causes ≠ [] ∧ (r.causes.filter fun c => !gone c) = [] then none else r.since }

theorem mem_causeOrder (c : Cause) : c ∈ causeOrder := by cases c <;> decide

theorem ZoneRec.mem_withCause (c : Cause) (t : NodeTime) (r : ZoneRec) (e : Cause) :
    e ∈ (r.withCause c t).causes ↔ e = c ∨ e ∈ r.causes := by
  unfold ZoneRec.withCause
  split
  · next h =>
    have hc : c ∈ r.causes := by simpa using h
    constructor
    · exact Or.inr
    · rintro (rfl | he)
      · exact hc
      · exact he
  · simp [List.mem_filter, mem_causeOrder]

theorem ZoneRec.withCause_of_mem {c : Cause} {r : ZoneRec} (h : c ∈ r.causes) (t : NodeTime) : r.withCause c t = r :=
  if_pos (by simpa using h)

theorem ZoneRec.withCause_idle {c : Cause} {r : ZoneRec} (h : r.causes = []) (t : NodeTime) :
    r.withCause c t = { causes := [c], since := some t } := by
  unfold ZoneRec.withCause
  rw [h]
  cases c <;> rfl

theorem ZoneRec.withCause_since (c : Cause) (t : NodeTime) {r : ZoneRec} (h : r.causes ≠ []) :
    (r.withCause c t).since = r.since := by
  unfold ZoneRec.withCause
  split
  · rfl
  · exact if_neg (by simpa using h)

theorem ZoneRec.without_none (r : ZoneRec) : r.without (fun _ => false) = r := by
  simp [ZoneRec.without]

theorem ZoneRec.without_without (p q : Cause → Bool) (r : ZoneRec) :
    (r.without p).without q = r.without fun c => p c || q c := by
  have hcauses : ((r.causes.filter fun c => !p c).filter fun c => !q c) = r.causes.filter fun c => !(p c || q c) := by
    rw [List.filter_filter]
    simp [Bool.and_comm]
  unfold ZoneRec.without
  dsimp only
  rw [hcauses]
  by_cases h1 : r.causes.filter (fun c => !p c) = []
  · have h2 : r.causes.filter (fun c => !(p c || q c)) = [] := by rw [← hcauses, h1]; rfl
    simp only [h1, h2, ne_eq, not_true_eq_false, if_false, and_true]
  · have h3 : r.causes ≠ [] := fun h => h1 (by rw [h]; rfl)
    simp only [h1, h3, ne_eq, not_false_eq_true, true_and, and_false, if_false]

/-! ## The zones after a cause is added or removed -/

theorem change_of_none {α : Type} (f : α → α) {l : List α} {n : Nat} (h : nth l n = none) : change f l n = l := by
  induction l generalizing n with
  | nil => cases n <;> rfl
  | cons a l ih => match n with
    | 0 => rfl
    | 1 => simp at h
    | n + 2 => exact congrArg (a :: ·) (ih (by simpa using h))

/-- R75: handing a zone's change on leaves the zones. -/
theorem handZone_zones (k : Nat) (x : ZoneSt) : (handZone k x).2.zones = x.2.zones := by
  have hsigns : ∀ (l : List Nat) (y : ZoneSt), SignStep y (l.foldl (fun y d => workOutSign d y) y) := by
    intro l
    induction l with
    | nil => exact fun y => .refl y
    | cons d l ih => exact fun y => (SignStep.workOutSign d y).trans (ih _)
  have hbeacons : ∀ (l : List Nat) (y : ZoneSt), (l.foldl (fun y b => workOutBeacon b y) y).2.zones = y.2.zones := by
    intro l
    induction l with
    | nil => exact fun _ => rfl
    | cons b l ih => exact fun y => ih _
  exact (hbeacons _ _).trans (hsigns _ x).zones

theorem addCause_zones (k : Nat) (c : Cause) (x : ZoneSt) :
    (addCause k c x).2.zones = change (ZoneRec.withCause c x.1.time) x.2.zones k := by
  unfold addCause
  cases hr : nth x.2.zones k with
  | none => exact (change_of_none _ hr).symm
  | some r =>
    dsimp only
    by_cases hc : r.causes.contains c = true
    · rw [if_pos hc]
      exact (change_self hr (r.withCause_of_mem (by simpa using hc) _)).symm
    · rw [if_neg hc]
      cases he : r.causes.isEmpty with
      | true =>
        rw [if_pos rfl, handZone_zones]
        exact change_congr hr (by rw [ZoneRec.withCause, if_neg hc, he, if_pos rfl])
      | false =>
        rw [if_neg (by simp)]
        exact change_congr hr (by rw [ZoneRec.withCause, if_neg hc, he, if_neg (by simp)])

theorem addCause_of_mem {k : Nat} {c : Cause} {x : ZoneSt} {r : ZoneRec} (hr : nth x.2.zones k = some r)
    (h : c ∈ r.causes) : addCause k c x = x := by
  simp only [addCause, hr, if_pos (List.contains_iff_mem.2 h)]

theorem removeCause_zones (k : Nat) (c : Cause) (x : ZoneSt) :
    (removeCause k c x).2.zones = change (ZoneRec.without fun e => e = c) x.2.zones k := by
  unfold removeCause
  cases hr : nth x.2.zones k with
  | none => exact (change_of_none _ hr).symm
  | some r =>
    have hfilter : (r.causes.filter fun e => !decide (e = c)) = r.causes.filter (· ≠ c) := by simp
    dsimp only
    by_cases hc : r.causes.contains c = true
    · have hne : r.causes ≠ [] := by rintro h; rw [h] at hc; cases hc
      rw [if_pos hc]
      by_cases he : (r.causes.filter (· ≠ c)).isEmpty = true
      · have he' : r.causes.filter (· ≠ c) = [] := by simpa using he
        rw [if_pos he, handZone_zones]
        exact change_congr hr (by rw [ZoneRec.without, hfilter, he', if_pos ⟨hne, rfl⟩])
      · have he' : ¬(r.causes ≠ [] ∧ r.causes.filter (· ≠ c) = []) := fun h => he (List.isEmpty_iff.2 h.2)
        rw [if_neg he]
        exact change_congr hr (by rw [ZoneRec.without, hfilter, if_neg he'])
    · have hself : r.causes.filter (· ≠ c) = r.causes := by
        refine List.filter_eq_self.2 fun e he => ?_
        simp only [decide_not, Bool.not_eq_true', decide_eq_false_iff_not]
        rintro rfl
        exact hc (by simpa using he)
      rw [if_neg hc]
      refine (change_self hr ?_).symm
      rw [ZoneRec.without, hfilter, hself, if_neg fun h => h.1 h.2]

/-! ## The zone commands (R76, R77) -/

/-- An operation on the services and ZONE alone, repeated, is one. -/
theorem foldl_onZone {α : Type} (f : α → ZoneSt → ZoneSt) : ∀ (l : List α) (n : Node),
    l.foldl (fun n a => n.onZone (f a)) n = n.onZone fun x => l.foldl (fun y a => f a y) x
  | [], _ => rfl
  | a :: l, n => (foldl_onZone f l (n.onZone (f a))).trans rfl

theorem foldl_removeCause_zones (k : Nat) : ∀ (l : List Cause) (x : ZoneSt),
    (l.foldl (fun y c => removeCause k c y) x).2.zones = change (ZoneRec.without fun e => l.contains e) x.2.zones k
  | [], x => by
    cases hr : nth x.2.zones k with
    | none => exact (change_of_none _ hr).symm
    | some r => exact (change_self hr r.without_none).symm
  | c :: l, x => by
    rw [List.foldl_cons, foldl_removeCause_zones k l, removeCause_zones, change_change]
    refine congrArg (fun f => change f x.2.zones k) (funext fun r => ?_)
    rw [Function.comp_apply, ZoneRec.without_without]
    refine congrArg (fun p => r.without p) (funext fun e => ?_)
    simp

theorem Node.zoneStart_bad (n : Node) {z : Nat} (h : z < 1 ∨ 8 < z) : n.zoneStart z = (n, .badArgument, .nil) := if_pos h

theorem Node.zoneStart_good (n : Node) {z : Nat} (h : ¬(z < 1 ∨ 8 < z)) :
    n.zoneStart z = (n.onZone (addCause z .command), .done,
      Value.opt ZoneRec.report (nth (n.onZone (addCause z .command)).zone.zones z)) := if_neg h

theorem exec_zoneStart {s : State} {o : Origin} {z : Nat} (h : Takes s o (.zoneStart z)) {m : Node} {st : Status}
    {v : Value} (hm : s.node.zoneStart z = (m, st, v)) :
    exec (.zoneStart o z) s = .next (s.replied m o (.zoneStart z) st v) := by
  refine State.command_atOnce h (act := fun n => n.zoneStart z) (fun _ => rfl) (fun n f => ?_) (fun n => ?_) hm
  · unfold Node.zoneStart
    split <;> rfl
  · unfold Node.zoneStart
    split <;> rfl

/-- R77: the causes that ZONE-CLEAR may not take. -/
def zoneClearBad (z : Nat) (l : List (Option Cause)) : Bool :=
  decide (z < 1 ∨ 8 < z ∨ l = [] ∨ none ∈ l ∨ some Cause.weather ∈ l)

theorem zoneClearBad_iff (z : Nat) (l : List (Option Cause)) :
    (z < 1 ∨ 8 < z ∨ l = [] ∨ l.contains none = true ∨ l.contains (some .weather) = true) ↔ zoneClearBad z l = true := by
  simp only [List.contains_iff_mem, zoneClearBad, decide_eq_true_eq]

theorem Node.zoneClear_bad (n : Node) {z : Nat} {l : List (Option Cause)} (h : zoneClearBad z l = true) :
    n.zoneClear z l = (n, .badArgument, .nil) := if_pos ((zoneClearBad_iff z l).2 h)

/-- R77: the node without the causes. -/
def Node.cleared (n : Node) (z : Nat) (l : List (Option Cause)) : Node :=
  n.onZone fun x => (l.filterMap id).foldl (fun y c => removeCause z c y) x

theorem Node.zoneClear_good (n : Node) {z : Nat} {l : List (Option Cause)} (h : zoneClearBad z l = false) :
    n.zoneClear z l = (n.cleared z l, .done, Value.opt ZoneRec.report (nth (n.cleared z l).zone.zones z)) := by
  rw [Node.zoneClear, if_neg fun hb => Bool.false_ne_true (h.symm.trans ((zoneClearBad_iff z l).1 hb)), foldl_onZone]
  rfl

theorem exec_zoneClear {s : State} {o : Origin} {z : Nat} {l : List (Option Cause)} (h : Takes s o (.zoneClear z l))
    {m : Node} {st : Status} {v : Value} (hm : s.node.zoneClear z l = (m, st, v)) :
    exec (.zoneClear o z l) s = .next (s.replied m o (.zoneClear z l) st v) := by
  refine State.command_atOnce h (act := fun n => n.zoneClear z l) (fun _ => rfl) (fun n f => ?_) (fun n => ?_) hm
  · cases hb : zoneClearBad z l with
    | true => rw [Node.zoneClear_bad _ hb, Node.zoneClear_bad _ hb]
    | false => rw [Node.zoneClear_good _ hb, Node.zoneClear_good _ hb]; rfl
  · cases hb : zoneClearBad z l with
    | true => rw [Node.zoneClear_bad _ hb]
    | false => rw [Node.zoneClear_good _ hb]; rfl

theorem Node.cleared_zones (n : Node) (z : Nat) (l : List (Option Cause)) :
    (n.cleared z l).zone.zones = change (ZoneRec.without fun e => l.contains (some e)) n.zone.zones z := by
  refine (foldl_removeCause_zones z (l.filterMap id) (n.svc, n.zone)).trans ?_
  refine congrArg (fun p => change (ZoneRec.without p) n.zone.zones z) (funext fun e => ?_)
  rw [Bool.eq_iff_iff, List.contains_iff_mem, List.contains_iff_mem, List.mem_filterMap]
  simp

/-- Settles O34: ZONE-START by what a cause added makes of the zone's record, ZONE-CLEAR by what the removed ones do. -/
theorem zoneCommandsMoveCauses : Obligations.ZoneCommandsMoveCauses := by
  refine ⟨fun o z s h => ⟨fun hbad => exec_zoneStart h (s.node.zoneStart_bad hbad), fun r h1 h8 hr => ?_⟩,
    fun o z l s h => ⟨fun hbad => exec_zoneClear h (s.node.zoneClear_bad hbad),
      fun r hgood hr => ?_⟩⟩
  · have hzones := addCause_zones z .command (s.node.svc, s.node.zone)
    have hz : nth (s.node.onZone (addCause z .command)).zone.zones z = some (r.withCause .command s.node.svc.time) := by
      refine (congrArg (fun l => nth l z) hzones).trans ?_
      rw [nth_change_same, hr]
      rfl
    have hmem : .command ∈ (r.withCause .command s.node.svc.time).causes := (r.mem_withCause ..).2 (.inl rfl)
    have hrun := exec_zoneStart h (s.node.zoneStart_good (z := z) (by omega))
    refine ⟨s.node.onZone (addCause z .command), r.withCause .command s.node.svc.time, hrun.trans ?_, hz, fun k hk => ?_,
      hmem, fun he => ?_, fun hc => ?_, fun hne => ⟨r.withCause_since _ _ hne, fun c hc => ?_⟩, rfl, rfl, rfl⟩
    · have hne : (r.withCause .command s.node.svc.time).causes.isEmpty = false := by
        rw [Bool.eq_false_iff]
        intro he
        rw [List.isEmpty_iff.1 he] at hmem
        cases hmem
      rw [hz, Value.opt, ZoneRec.report, hne]
      rfl
    · exact (congrArg (fun l => nth l k) hzones).trans (nth_change_other _ _ hk)
    · rw [ZoneRec.withCause_idle he]
      exact ⟨rfl, rfl⟩
    · rw [Node.onZone, addCause_of_mem (x := (s.node.svc, s.node.zone)) hr hc]
    · exact (r.mem_withCause ..).2 (.inr hc)
  · have hzones := s.node.cleared_zones z l
    have hz : nth (s.node.cleared z l).zone.zones z = some (r.without fun e => l.contains (some e)) := by
      rw [hzones, nth_change_same, hr]
      rfl
    have hrun := exec_zoneClear h (s.node.zoneClear_good hgood)
    refine ⟨s.node.cleared z l, r.without fun e => l.contains (some e), hrun.trans ?_, hz, fun k hk => ?_, rfl,
      fun he hne => if_pos ⟨hne, he⟩, fun hne => if_neg fun h => hne h.2, rfl, rfl, rfl⟩
    · rw [hz]
      rfl
    · rw [hzones, nth_change_other _ _ hk]

end Sys2Proof.Machine

/-! SUPPORT. Beacons, signs, weather causes and releases in detail (R74, R80, R91–R97, R158), and O38. -/

namespace Sys2Proof.Machine

/-! ## Beacons (R95–R97) -/

/-- One beacon's record changed, at the node. -/
def Node.withBeacon (n : Node) (b : Nat) (f : Beacon → Beacon) : Node :=
  { n with zone := { n.zone with beacons := change f n.zone.beacons b } }

/-- R95: a beacon that is OFF works out its output. -/
theorem Beacon.reset_workedOut (s : Settings) (z : Zone) (now b : Nat) :
    Beacon.reset.workedOut s z now b = match beaconZone s z b with
      | none => .reset
      | some k => match s.boundPattern k b with
        | none => .reset
        | some (on, off) => .run now k on off := by
  unfold Beacon.workedOut
  cases beaconZone s z b with
  | none => rfl
  | some k =>
    cases hp : s.boundPattern k b with
    | none => simp only [hp]
    | some p => simp only [hp, Beacon.reset, reduceCtorEq, false_and, if_false]

/-- R96: at the end of a single period the beacon's record is worked out from OFF. -/
theorem Node.onZone_endSingle (n : Node) (b : Nat) :
    n.onZone (endSingle b) = n.withBeacon b fun _ => Beacon.reset.workedOut n.set n.zone n.svc.now b := by
  unfold Node.onZone endSingle workOutBeacon Node.withBeacon
  dsimp only
  rw [Zone.changeBeacon, Zone.changeBeacon, change_change]
  rfl

section
variable {n : Node} {b : Nat} {r : Beacon}

theorem Node.beaconPhase_absent (h : nth n.zone.beacons b = none) : n.beaconPhase b = n := by
  simp only [Node.beaconPhase, Node.onZone, beaconPhaseEnds, h]

theorem Node.beaconPhase_idle (hr : nth n.zone.beacons b = some r)
    (h : due n.svc.now r.phaseEnd = false ∨ r.mode = .off) : n.beaconPhase b = n := by
  simp only [Node.beaconPhase, Node.onZone, beaconPhaseEnds, hr]
  cases hd : due n.svc.now r.phaseEnd with
  | false => rfl
  | true =>
    rw [hd] at h
    rw [h.resolve_left (by simp)]
    rfl

theorem Node.beaconPhase_continuous {z : Nat} (hr : nth n.zone.beacons b = some r)
    (hd : due n.svc.now r.phaseEnd = true) (hm : r.mode = .continuous z) :
    n.beaconPhase b = n.withBeacon b fun r =>
      { r with lit := !r.lit, phaseEnd := some (n.svc.now + (if r.lit then r.offTime else r.onTime) * 40) } := by
  simp only [Node.beaconPhase, Node.onZone, beaconPhaseEnds, hr, hd, hm]
  rfl

theorem Node.beaconPhase_single_lit (hr : nth n.zone.beacons b = some r) (hd : due n.svc.now r.phaseEnd = true)
    (hm : r.mode = .single) (hl : r.lit = true) :
    n.beaconPhase b = n.withBeacon b fun r =>
      { r with lit := false, phaseEnd := some (n.svc.now + r.offTime * 40) } := by
  simp only [Node.beaconPhase, Node.onZone, beaconPhaseEnds, hr, hd, hm, hl]
  rfl

theorem Node.beaconPhase_single_dark (hr : nth n.zone.beacons b = some r) (hd : due n.svc.now r.phaseEnd = true)
    (hm : r.mode = .single) (hl : r.lit = false) : n.beaconPhase b = n.onZone (endSingle b) := by
  simp only [Node.beaconPhase, Node.onZone, beaconPhaseEnds, hr, hd, hm, hl]
  rfl

end

theorem exec_beaconPhaseExpiry {s : State} (hp : s.node.phase = .started) (hw : s.node.isHead = false) {b : Nat}
    {m : Node} (hm : s.node.beaconPhase b = m) : exec (.beaconPhaseExpiry b) s = .next (s.settled m) := by
  rw [← hm]
  exact State.act_onRole hp hw

/-- R97: the arguments that BEACON-SET SINGLE refuses. -/
def beaconSingleBad (b x y : Nat) : Bool := decide (b < 1 ∨ 4 < b ∨ x < 1 ∨ 255 < x ∨ y < 1 ∨ 255 < y)

theorem Node.beaconSingle_bad (n : Node) {b x y : Nat} (h : beaconSingleBad b x y = true) :
    n.beaconSingle b x y = (n, .badArgument, .nil) := if_pos (of_decide_eq_true h)

theorem Node.beaconSingle_good (n : Node) {b x y : Nat} (h : beaconSingleBad b x y = false) :
    n.beaconSingle b x y = (n.withBeacon b fun _ => .pulse n.svc.now x y, .done,
      (n.withBeacon b fun _ => .pulse n.svc.now x y).beaconReply b) := if_neg (of_decide_eq_false h)

theorem Node.beaconReply_withBeacon {n : Node} {b : Nat} {r : Beacon} (hr : nth n.zone.beacons b = some r)
    (f : Beacon → Beacon) : (n.withBeacon b f).beaconReply b = BeaconMode.report (f r).mode := by
  unfold Node.beaconReply Node.withBeacon
  dsimp only
  rw [nth_change_same, hr]
  rfl

theorem exec_beaconSetSingle {s : State} {o : Origin} {b x y : Nat} (h : Takes s o (.beaconSetSingle b x y)) {m : Node}
    {st : Status} {v : Value} (hm : s.node.beaconSingle b x y = (m, st, v)) :
    exec (.beaconSetSingle o b x y) s = .next (s.replied m o (.beaconSetSingle b x y) st v) := by
  refine State.command_atOnce h (act := fun n => n.beaconSingle b x y) (fun _ => rfl) (fun n f => ?_) (fun n => ?_) hm
  · unfold Node.beaconSingle
    split <;> rfl
  · unfold Node.beaconSingle
    split <;> rfl

theorem Node.beaconCancel_bad (n : Node) {b : Nat} (h : b < 1 ∨ 4 < b) :
    n.beaconCancel b = (n, .badArgument, .nil) := if_pos h

/-- R97: whether a beacon runs a single period. -/
def Node.singleAt (n : Node) (b : Nat) : Bool :=
  ((nth n.zone.beacons b).map fun r => decide (r.mode = .single)).getD false

/-- R97: the node after CANCEL. -/
def Node.afterCancel (n : Node) (b : Nat) : Node := if n.singleAt b then n.onZone (endSingle b) else n

theorem Node.beaconCancel_good (n : Node) {b : Nat} (h : ¬(b < 1 ∨ 4 < b)) :
    n.beaconCancel b = (n.afterCancel b, .done, (n.afterCancel b).beaconReply b) := if_neg h

theorem Node.afterCancel_onCmd (n : Node) (f : Cmd → Cmd) (b : Nat) :
    (n.onCmd f).afterCancel b = (n.afterCancel b).onCmd f := by
  have h : (n.onCmd f).singleAt b = n.singleAt b := rfl
  unfold Node.afterCancel
  rw [h]
  cases n.singleAt b <;> rfl

theorem Node.singleAt_eq {n : Node} {b : Nat} {r : Beacon} (hr : nth n.zone.beacons b = some r) :
    n.singleAt b = decide (r.mode = .single) := by
  rw [Node.singleAt, hr]
  rfl

/-- R97: CANCEL where no single period runs. -/
theorem Node.beaconCancel_other {n : Node} {b : Nat} {r : Beacon} (h : ¬(b < 1 ∨ 4 < b))
    (hr : nth n.zone.beacons b = some r) (hm : r.mode ≠ .single) :
    n.beaconCancel b = (n, .done, BeaconMode.report r.mode) := by
  rw [Node.beaconCancel_good n h, Node.afterCancel, Node.singleAt_eq hr, if_neg (by simpa using hm), Node.beaconReply, hr]
  rfl

/-- R97: CANCEL of a single period. -/
theorem Node.beaconCancel_single {n : Node} {b : Nat} {r q : Beacon} (h : ¬(b < 1 ∨ 4 < b))
    (hr : nth n.zone.beacons b = some r) (hm : r.mode = .single)
    (hq : Beacon.reset.workedOut n.set n.zone n.svc.now b = q) :
    n.beaconCancel b = (n.withBeacon b fun _ => q, .done, BeaconMode.report q.mode) := by
  rw [Node.beaconCancel_good n h, Node.afterCancel, Node.singleAt_eq hr, if_pos (by simpa using hm),
    Node.onZone_endSingle, hq, Node.beaconReply_withBeacon hr]

theorem exec_beaconSetCancel {s : State} {o : Origin} {b : Nat} (h : Takes s o (.beaconSetCancel b)) {m : Node}
    {st : Status} {v : Value} (hm : s.node.beaconCancel b = (m, st, v)) :
    exec (.beaconSetCancel o b) s = .next (s.replied m o (.beaconSetCancel b) st v) := by
  refine State.command_atOnce h (act := fun n => n.beaconCancel b) (fun _ => rfl) (fun n f => ?_) (fun n => ?_) hm
  · by_cases hb : b < 1 ∨ 4 < b
    · simp only [Node.beaconCancel_bad _ hb]
    · simp only [Node.beaconCancel_good _ hb, Node.afterCancel_onCmd]
      rfl
  · by_cases hb : b < 1 ∨ 4 < b
    · simp only [Node.beaconCancel_bad _ hb]
    · simp only [Node.beaconCancel_good _ hb, Node.afterCancel]
      split <;> rfl

/-- R95: a beacon that is OFF and governed by a zone runs its pattern. -/
theorem Beacon.reset_workedOut_run {s : Settings} {z : Zone} {b k x y : Nat} (now : Nat)
    (hz : beaconZone s z b = some k) (hp : s.boundPattern k b = some (x, y)) :
    Beacon.reset.workedOut s z now b = .run now k x y := by
  simp only [Beacon.reset_workedOut, hz, hp]

theorem Beacon.reset_workedOut_off {s : Settings} {z : Zone} {b : Nat} (now : Nat) (hz : beaconZone s z b = none) :
    Beacon.reset.workedOut s z now b = .reset := by
  simp only [Beacon.reset_workedOut, hz]

/-! ## A zone that becomes ACTIVE hands its pattern on (R75, R95) -/

/-- R75, R95: a beacon that a zone binds works out its output when the zone's change is handed on. -/
theorem handZone_beacon {k b : Nat} {x : ZoneSt} {r : Beacon} (hr : nth x.2.beacons b = some r)
    (hb : b ∈ x.1.settings.boundBeacons k) (hm : r.mode ≠ .single) :
    nth (handZone k x).2.beacons b = some (r.workedOut x.1.settings x.2 x.1.now b) := by
  obtain ⟨hkeeps, -, hzones, hbeacons, -, -⟩ :=
    foldl_workOutSign (x.1.settings.boundSigns k) x ((nodup_places 8).filter _)
  unfold handZone
  dsimp only at hkeeps hzones hbeacons ⊢
  generalize (x.1.settings.boundSigns k).foldl (fun y d => workOutSign d y) x = y at hkeeps hzones hbeacons ⊢
  obtain ⟨-, -, -, hnth⟩ := foldl_workOutBeacon (y.1.settings.boundBeacons k) y ((nodup_places 4).filter _)
  have hactive : y.2.active = x.2.active := by
    funext j
    unfold Zone.active
    rw [hzones]
  have hzone : beaconZone x.1.settings y.2 b = beaconZone x.1.settings x.2 b := by
    unfold beaconZone
    rw [hactive]
  have hworked : r.workedOut y.1.settings y.2 y.1.now b = r.workedOut x.1.settings x.2 x.1.now b := by
    unfold Beacon.workedOut
    rw [hkeeps.settings, hkeeps.now, hzone]
  rw [hnth b, if_pos (by rw [hkeeps.settings]; exact hb), hbeacons, hr, Option.map_some, if_neg hm, hworked]

theorem mem_boundBeacons {s : Settings} {k b : Nat} (h1 : 1 ≤ b) (h4 : b ≤ 4) (h : (s.boundPattern k b).isSome = true) :
    b ∈ s.boundBeacons k :=
  List.mem_filter.2 ⟨by show b ∈ List.range' 1 4; exact List.mem_range'_1.2 ⟨h1, by omega⟩, h⟩

theorem places_eq (n : Nat) : places n = List.range' 1 n := by
  rw [places, List.range'_eq_map_range]
  exact List.map_congr_left fun a _ => Nat.add_comm a 1

/-- The first of the places that satisfies a condition. -/
theorem find?_places {n k : Nat} {p : Nat → Bool} (h1 : 1 ≤ k) (hn : k ≤ n) (hk : p k = true)
    (hlow : ∀ j, j < k → p j = false) : (places n).find? p = some k := by
  have hsplit : places n = List.range' 1 (k - 1) ++ List.range' k (n + 1 - k) := by
    rw [places_eq]
    have hlen : n = (k - 1) + (n + 1 - k) := by omega
    have hstart : 1 + (k - 1) = k := by omega
    conv_lhs => rw [hlen]
    rw [← List.range'_append_1, hstart]
  rw [hsplit, List.find?_append, List.find?_eq_none.2 fun j hj => by
    rw [List.mem_range'_1] at hj
    simp [hlow j (by omega)], Option.none_or]
  have hlen : n + 1 - k = (n - k) + 1 := by omega
  rw [hlen, List.range'_succ, List.find?_cons, hk]

/-- R74: the cause set of a zone that was IDLE. -/
def firstCauses (c : Cause) : List Cause := causeOrder.filter fun e => e = c || ([] : List Cause).contains e

/-- R74: a zone that becomes ACTIVE at a time. -/
def Zone.begun (z : Zone) (k : Nat) (causes : List Cause) (t : NodeTime) : Zone :=
  { z with zones := put z.zones k { causes := causes, since := some t } }

/-- R74, R75, R95: ZONE-START of an IDLE zone makes a beacon it governs run its pattern. -/
theorem addCause_beacon {z b x y : Nat} {r : Beacon} {zr : ZoneRec} {n : Node} (c : Cause) (h1 : 1 ≤ z) (h8 : z ≤ 8)
    (hb1 : 1 ≤ b) (hb4 : b ≤ 4) (hzr : nth n.zone.zones z = some zr) (hidle : zr.causes = [])
    (hr : nth n.zone.beacons b = some r) (hm : r.mode ≠ .single) (hp : n.set.boundPattern z b = some (x, y))
    (hlow : ∀ k, k < z → n.zone.active k = true → n.set.boundPattern k b = none) :
    nth (n.onZone (addCause z c)).zone.beacons b = some
      (if r.mode = .continuous z ∧ r.onTime = x ∧ r.offTime = y then r else .run n.svc.now z x y) := by
  have hadd : addCause z c (n.svc, n.zone) = handZone z
      (n.svc.post .zoneStart (.zone z) [.causes (firstCauses c)], n.zone.begun z (firstCauses c) n.svc.time) := by
    simp only [addCause, hzr, hidle]
    rfl
  have hpost := Svc.keeps_post n.svc .zoneStart (.zone z) [.causes (firstCauses c)]
  have hne : firstCauses c ≠ [] := by cases c <;> decide
  generalize firstCauses c = causes at hpost hadd hne
  generalize hzone : n.zone.begun z causes n.svc.time = zone at hadd
  have hactive : zone.active z = true := by
    rw [← hzone]
    unfold Zone.active Zone.begun
    dsimp only
    rw [nth_put_same, hzr]
    cases causes with
    | nil => exact absurd rfl hne
    | cons _ _ => rfl
  have hother : ∀ k, k ≠ z → zone.active k = n.zone.active k := by
    intro k hk
    rw [← hzone]
    unfold Zone.active Zone.begun
    dsimp only
    rw [nth_put_other _ _ hk]
  have hgov : beaconZone n.set zone b = some z := by
    refine find?_places h1 h8 (by rw [hactive, hp]; rfl) fun j hj => ?_
    rw [hother j (by omega)]
    cases ha : n.zone.active j with
    | false => rfl
    | true => rw [hlow j hj ha]; rfl
  have hbeacons : zone.beacons = n.zone.beacons := by rw [← hzone, Zone.begun]
  rw [Node.onZone_zone, hadd, handZone_beacon (by rw [hbeacons]; exact hr) ?_ hm]
  · have hworked : r.workedOut n.set zone n.svc.now b =
        if r.mode = .continuous z ∧ r.onTime = x ∧ r.offTime = y then r else .run n.svc.now z x y := by
      simp only [Beacon.workedOut, hgov, hp]
    dsimp only
    rw [hpost.settings, hpost.now]
    exact congrArg some hworked
  · dsimp only
    rw [hpost.settings]
    exact mem_boundBeacons hb1 hb4 (by
      have : n.svc.settings.boundPattern z b = some (x, y) := hp
      rw [this]; rfl)

/-! ## Weather causes (R158) -/

/-- R158: what a change of the tripped rules makes of a zone's record. -/
def ZoneRec.underWeather (was is : Bool) (t : NodeTime) (r : ZoneRec) : ZoneRec :=
  match was, is with
  | false, true => r.withCause .weather t
  | true, false => r.without fun c => c = .weather
  | _, _ => r

/-- R158: one zone told of its tripped rules. -/
def toldWeather (was is : Nat → Bool) (z : Nat) (y : ZoneSt) : ZoneSt :=
  match was z, is z with
  | false, true => addCause z .weather y
  | true, false => removeCause z .weather y
  | _, _ => y

theorem toldWeather_spec (was is : Nat → Bool) (z : Nat) (y : ZoneSt) :
    (toldWeather was is z y).1.time = y.1.time ∧
    (toldWeather was is z y).2.zones = change (ZoneRec.underWeather (was z) (is z) y.1.time) y.2.zones z := by
  have hself : y.2.zones = change (fun r => r) y.2.zones z := by
    cases hr : nth y.2.zones z with
    | none => exact (change_of_none _ hr).symm
    | some r => exact (change_self hr rfl).symm
  unfold toldWeather
  cases was z with
  | false => cases is z with
    | false => exact ⟨rfl, hself⟩
    | true => exact ⟨(keeps_addCause z .weather y).time, addCause_zones z .weather y⟩
  | true => cases is z with
    | false => exact ⟨(keeps_removeCause z .weather y).time, removeCause_zones z .weather y⟩
    | true => exact ⟨rfl, hself⟩

theorem foldl_toldWeather_zones (was is : Nat → Bool) (t : NodeTime) : ∀ (l : List Nat) (y : ZoneSt), y.1.time = t →
    (l.foldl (fun y z => toldWeather was is z y) y).2.zones =
      changeAll (fun _ => true) (fun z => ZoneRec.underWeather (was z) (is z) t) l y.2.zones
  | [], _, _ => rfl
  | z :: l, y, h => by
    obtain ⟨htime, hzones⟩ := toldWeather_spec was is z y
    rw [List.foldl_cons, foldl_toldWeather_zones was is t l _ (htime.trans h), hzones, h]
    rfl

theorem handWeather_zone (specs specs' : List (Option RuleSpec)) (recs recs' : List RuleRec) {z : Nat} {r : ZoneRec}
    {x : ZoneSt} (h1 : 1 ≤ z) (h8 : z ≤ 8) (hr : nth x.2.zones z = some r) :
    nth (handWeather specs recs specs' recs' x).2.zones z =
      some (r.underWeather (zoneTripped specs recs z) (zoneTripped specs' recs' z) x.1.time) := by
  have hfold : handWeather specs recs specs' recs' x =
      (places 8).foldl (fun y z => toldWeather (zoneTripped specs recs) (zoneTripped specs' recs') z y) x := rfl
  have hmem : z ∈ places 8 := by
    show z ∈ List.range' 1 8
    exact List.mem_range'_1.2 ⟨h1, by omega⟩
  rw [hfold, foldl_toldWeather_zones _ _ x.1.time _ _ rfl, nth_changeAll _ _ _ _ _ (nodup_places 8),
    if_pos ⟨hmem, rfl⟩, hr]
  rfl

/-! ## Releases (R91–R94) -/

theorem Node.receiveTag_empty {n : Node} (tag : Nat) (h : n.zone.pending = none) :
    n.receiveTag tag = if n.set.releaseDelay = 0 then n.performRelease tag false
      else { n with zone := { n.zone with pending := some { tag := tag, due := n.svc.now + n.set.releaseDelay } } } := by
  simp only [Node.receiveTag, h]

theorem Node.receiveTag_pending {n : Node} {p : Pending} (tag : Nat) (h : n.zone.pending = some p) :
    n.receiveTag tag =
      (({ n with zone := { n.zone with pending := none } } : Node).performRelease p.tag true).receiveTag tag := by
  obtain ⟨-, -, hnone, -, -⟩ :=
    ({ n with zone := { n.zone with pending := none } } : Node).performRelease_rest p.tag true
  rw [Node.receiveTag_empty tag hnone]
  simp only [Node.receiveTag, h]

theorem Node.afterPulse_beacons {n : Node} (acts : List ReleaseAction) {b : Nat} {r : Beacon}
    (hr : nth n.zone.beacons b = some r) : nth (n.afterPulse acts).zone.beacons b =
      some (if .beaconPulse ∈ acts ∧ b ∈ n.set.pulseBeacons then n.pulseRecord else r) := by
  unfold Node.afterPulse
  by_cases ha : .beaconPulse ∈ acts
  · rw [if_pos (List.contains_iff_mem.2 ha), Node.pulseBeacons_eq]
    dsimp only
    rw [nth_foldl_change _ _ _ _ _ hr]
    simp only [ha, true_and]
  · rw [if_neg fun h => ha (List.contains_iff_mem.1 h), if_neg fun h => ha h.1]
    exact hr

/-- R92, R94: the beacon records of a release. -/
theorem Node.performRelease_beacon (n : Node) (tag : Nat) (forced : Bool) {b : Nat} {r : Beacon}
    (hr : nth n.zone.beacons b = some r) : nth (n.performRelease tag forced).zone.beacons b =
      some (if .beaconPulse ∈ n.set.releaseActions ∧ b ∈ n.set.pulseBeacons then n.pulseRecord else r) := by
  obtain ⟨-, hstep⟩ := n.afterApply_rest tag
  rw [Node.performRelease_eq]
  dsimp only
  rw [Node.afterSweep_rest]
  generalize n.afterApply tag = a at hstep ⊢
  have hset : a.1.set = n.set := hstep.svc.settings
  have hnow : a.1.svc.now = n.svc.now := hstep.svc.now
  have hpulse : a.1.pulseRecord = n.pulseRecord := by unfold Node.pulseRecord; rw [hset, hnow]
  have hb : nth a.1.zone.beacons b = some r := (congrArg (fun l => nth l b) hstep.beacons).trans hr
  have h := a.1.afterPulse_beacons n.set.releaseActions hb
  rw [hset, hpulse] at h
  exact h

/-- R92, R110: the roster of a release. -/
theorem Node.performRelease_trib (n : Node) (tag : Nat) (forced : Bool) :
    (n.performRelease tag forced).trib = if .rosterSweep ∈ n.set.releaseActions then n.rosterSweep.trib else n.trib := by
  obtain ⟨happly, hstep⟩ := n.afterApply_rest tag
  rw [Node.performRelease_eq]
  dsimp only
  generalize n.afterApply tag = a at happly hstep ⊢
  have hpulse := a.1.afterPulse_rest n.set.releaseActions
  generalize a.1.afterPulse n.set.releaseActions = p at hpulse ⊢
  have htrib : p.trib = n.trib := by rw [hpulse, happly]
  have hset : p.set = n.set := by
    have h : p.svc = a.1.svc := by rw [hpulse]
    exact (congrArg Svc.settings h).trans hstep.svc.settings
  have hnow : p.svc.now = n.svc.now := by
    have h : p.svc = a.1.svc := by rw [hpulse]
    exact (congrArg Svc.now h).trans hstep.svc.now
  unfold Node.afterSweep
  by_cases hs : .rosterSweep ∈ n.set.releaseActions
  · rw [if_pos (List.contains_iff_mem.2 hs), if_pos hs, Node.rosterSweep_eq, Node.rosterSweep_eq]
    dsimp only
    rw [htrib, hset, hnow]
  · rw [if_neg fun h => hs (List.contains_iff_mem.1 h), if_neg hs]
    exact htrib

theorem Node.rosterSweep_entry {n : Node} {e : Nat} {spec : RosterSpec} {r : RosterRec} (h1 : 1 ≤ e) (h16 : e ≤ 16)
    (hs : n.set.rosterEntry e = some spec) (hr : nth n.trib.roster e = some r) :
    nth n.rosterSweep.trib.roster e = some { r with since := some (r.since.getD n.svc.now) } := by
  have hmem : e ∈ places 16 := by
    show e ∈ List.range' 1 16
    exact List.mem_range'_1.2 ⟨h1, by omega⟩
  rw [Node.rosterSweep_eq]
  dsimp only
  rw [nth_changeAll _ _ _ _ _ (nodup_places 16), if_pos ⟨hmem, by rw [hs]; rfl⟩, hr]
  rfl

/-- R94: a release whose one action is TIME-MARK posts it. -/
theorem Node.performRelease_timeMark {n : Node} (tag : Nat) (forced : Bool) (h : n.set.releaseActions = [.timeMark]) :
    (n.performRelease tag forced).svc = n.svc.post .releaseDone .none [.nat tag, .nat 0, .flag forced] := by
  rw [Node.performRelease_eq]
  unfold Node.afterApply Node.afterPulse Node.afterSweep
  rw [h]
  rfl

/-- R74, R75, R95: the beacon that ZONE-START of an IDLE zone leaves. -/
theorem exec_zoneStart_beacon {s : State} {o : Origin} {z b x y : Nat} {r : Beacon} {zr : ZoneRec}
    (h : Takes s o (.zoneStart z)) (h1 : 1 ≤ z) (h8 : z ≤ 8) (hb1 : 1 ≤ b) (hb4 : b ≤ 4)
    (hzr : nth s.node.zone.zones z = some zr) (hidle : zr.causes = []) (hr : nth s.node.zone.beacons b = some r)
    (hm : r.mode ≠ .single) (hp : s.node.set.boundPattern z b = some (x, y))
    (hlow : ∀ k, k < z → s.node.zone.active k = true → s.node.set.boundPattern k b = none) :
    ∃ t, exec (.zoneStart o z) s = .next t ∧ nth t.node.zone.beacons b = some
      (if r.mode = .continuous z ∧ r.onTime = x ∧ r.offTime = y then r else .run s.node.svc.now z x y) := by
  have hbeacon := addCause_beacon .command h1 h8 hb1 hb4 hzr hidle hr hm hp hlow
  have hrun := exec_zoneStart h (s.node.zoneStart_good (z := z) (by omega))
  generalize s.node.onZone (addCause z .command) = m at hbeacon hrun
  have hk := (Node.keeps_replyTo m o (.command (.zoneStart z)) .done
    (Value.opt ZoneRec.report (nth m.zone.zones z))).trans (Node.keeps_settle _)
  refine ⟨_, hrun, ?_⟩
  rw [State.replied, State.settled_node, hk.beacons]
  exact hbeacon

/-- R95: a beacon that runs a zone's pattern already goes on, another one begins it. -/
theorem Beacon.run_or_goOn (r : Beacon) (now z x y : Nat) :
    let r' := if r.mode = .continuous z ∧ r.onTime = x ∧ r.offTime = y then r else .run now z x y
    r'.mode = .continuous z ∧ r'.onTime = x ∧ r'.offTime = y ∧ (r.mode ≠ .continuous z → r' = .run now z x y) := by
  dsimp only
  split
  · next hsame => exact ⟨hsame.1, hsame.2.1, hsame.2.2, fun hne => absurd hsame.1 hne⟩
  · exact ⟨rfl, rfl, rfl, fun _ => rfl⟩

/-- R80, R83: the worked out record, by what governs the sign and by whether its wanted page changes. -/
theorem workedOut_record (s : Settings) (z : Zone) (d : Nat) (g : Sign) :
    (signZone s z d = none → (workedOut s z d g).wanted = g.normal.map fun p => (p.id, 0)) ∧
    (∀ k p, signZone s z d = some k → s.boundPage k d = some p → (workedOut s z d g).wanted = some (p.id, k)) ∧
    ((workedOut s z d g).wanted.map Prod.fst = g.wanted.map Prod.fst →
      (workedOut s z d g).fault = g.fault ∧ (workedOut s z d g).attempts = g.attempts) ∧
    ((workedOut s z d g).wanted.map Prod.fst ≠ g.wanted.map Prod.fst →
      (workedOut s z d g).fault = false ∧ (workedOut s z d g).attempts = 0) := by
  have hwanted : (workedOut s z d g).wanted = wantedOf s z d g := rfl
  rw [hwanted]
  refine ⟨fun hz => ?_, fun k p hz hpage => ?_, fun hsame => ?_, fun hdiff => ?_⟩
  · simp only [wantedOf, hz]
  · simp only [wantedOf, hz, hpage, Option.map_some]
  · simp [workedOut, hsame]
  · simp [workedOut, hdiff]

/-- R158: the three changes of a zone's tripped rules. -/
theorem ZoneRec.underWeather_spec (r : ZoneRec) (t : NodeTime) (was is : Bool) :
    (was = is → r.underWeather was is t = r) ∧
    (was = false → is = true → ∀ c, c ∈ (r.underWeather was is t).causes ↔ c = .weather ∨ c ∈ r.causes) ∧
    (was = true → is = false → (r.underWeather was is t).causes = r.causes.filter (· ≠ .weather)) := by
  refine ⟨fun hsame => ?_, fun hw hi c => ?_, fun hw hi => ?_⟩
  · rw [hsame]
    cases is <;> rfl
  · rw [hw, hi]
    exact r.mem_withCause ..
  · rw [hw, hi]
    simp [ZoneRec.underWeather, ZoneRec.without]

/-- Settles O38: its eight parts, each by the lemma about the operation it names. -/
theorem beaconsRun : Obligations.BeaconsRun := by
  refine ⟨fun b s hp hw => ?_, fun o b x y s h => ?_, fun o b s h => ?_, ?_, fun d g x hg => ?_, ?_, fun tag n => ?_,
    fun tag forced n => ?_⟩
  · refine ⟨fun habsent => exec_beaconPhaseExpiry hp hw (Node.beaconPhase_absent habsent), fun r hr =>
      ⟨fun hidle => exec_beaconPhaseExpiry hp hw (Node.beaconPhase_idle hr hidle),
       fun z hd hm => exec_beaconPhaseExpiry hp hw (Node.beaconPhase_continuous hr hd hm),
       fun hd hm hl => exec_beaconPhaseExpiry hp hw (Node.beaconPhase_single_lit hr hd hm hl), fun hd hm hl => ?_⟩⟩
    have hend := (Node.beaconPhase_single_dark hr hd hm hl).trans (s.node.onZone_endSingle b)
    refine ⟨fun hz => exec_beaconPhaseExpiry hp hw (hend.trans ?_),
      fun z x y hz hpat => exec_beaconPhaseExpiry hp hw (hend.trans ?_)⟩
    · rw [Beacon.reset_workedOut_off _ hz]
      rfl
    · rw [Beacon.reset_workedOut_run _ hz hpat]
      rfl
  · refine ⟨fun hbad => exec_beaconSetSingle h (s.node.beaconSingle_bad hbad),
      fun r hgood hr => exec_beaconSetSingle h ((s.node.beaconSingle_good hgood).trans ?_)⟩
    rw [Node.beaconReply_withBeacon hr]
    rfl
  · refine ⟨fun hbad => exec_beaconSetCancel h (s.node.beaconCancel_bad hbad), fun r h1 h4 hr => ?_⟩
    have hin : ¬(b < 1 ∨ 4 < b) := by omega
    refine ⟨fun hm => exec_beaconSetCancel h ((Node.beaconCancel_other hin hr (by rw [hm]; simp)).trans (by rw [hm]; rfl)),
      fun z hm => exec_beaconSetCancel h ((Node.beaconCancel_other hin hr (by rw [hm]; simp)).trans (by rw [hm]; rfl)),
      fun hm => ⟨fun hz => exec_beaconSetCancel h
          (Node.beaconCancel_single hin hr hm (Beacon.reset_workedOut_off _ hz)),
        fun z x y hz hpat => exec_beaconSetCancel h
          (Node.beaconCancel_single hin hr hm (Beacon.reset_workedOut_run _ hz hpat))⟩⟩
  · intro o z b x y r zr s h h1 h8 hb1 hb4 hzr hidle hr hm hpat hlow
    obtain ⟨t, hrun, hbeacon⟩ := exec_zoneStart_beacon h h1 h8 hb1 hb4 hzr hidle hr hm hpat hlow
    exact ⟨t, _, hrun, hbeacon, r.run_or_goOn s.node.svc.now z x y⟩
  · obtain ⟨hzones, hsign, hothers⟩ := workOutSign_spec d x
    obtain ⟨hnone, hsome, hsame, hdiff⟩ := workedOut_record x.1.settings x.2 d g
    rw [hg] at hsign
    exact ⟨_, hsign, hothers, hzones, (SignStep.workOutSign d x).beacons, rfl, rfl, rfl, rfl, hnone, hsome, hsame,
      hdiff, rfl⟩
  · intro specs specs' recs recs' z r x h1 h8 hr was is
    exact ⟨_, handWeather_zone specs specs' recs recs' h1 h8 hr, r.underWeather_spec x.1.time was is⟩
  · refine ⟨fun p hpend => Node.receiveTag_pending tag hpend, fun hnone hdelay => ?_, fun hnone hdelay => ?_⟩
    · rw [Node.receiveTag_empty tag hnone, if_pos hdelay]
    · rw [Node.receiveTag_empty tag hnone, if_neg (by omega)]
  · obtain ⟨-, -, -, hperformed, hforced⟩ := n.performRelease_rest tag forced
    refine ⟨hperformed, hforced, fun b r hr => n.performRelease_beacon tag forced hr, fun hno => ?_,
      fun hyes e spec r h1 h16 hs hr => ?_, Node.performRelease_timeMark tag forced⟩
    · exact (n.performRelease_trib tag forced).trans (if_neg hno)
    · have htrib := (n.performRelease_trib tag forced).trans (if_pos hyes)
      exact (congrArg (fun t : Trib => nth t.roster e) htrib).trans (Node.rosterSweep_entry h1 h16 hs hr)

end Sys2Proof.Machine

/-! SUPPORT. Emergency calls at the head-end: CALL-REQUEST (R64), CALL-ANSWER and CALL-END (R65, R66), with O30 and O31. -/

namespace Sys2Proof.Machine

/-! ## What an offer leaves -/

/-- R59: what an offered call message changes: the services, and of CALL the held and dropped messages. -/
structure Node.Offered (n m : Node) : Prop where
  rest : m = { n with svc := m.svc, call := { n.call with held := m.call.held, dropped := m.call.dropped } }
  svc : Svc.Keeps n.svc m.svc

theorem Node.offered (n : Node) (m : Message) : Node.Offered n (n.offerCall m) := by
  have hsvc := Svc.keeps_offerEmergency n.svc m
  unfold Node.offerCall
  dsimp only
  split
  · exact ⟨rfl, hsvc⟩
  · refine ⟨?_, hsvc⟩
    unfold Node.onCall
    dsimp only
    split <;> rfl

section
variable (n : Node) (m : Message)

@[simp] theorem Node.offerCall_now : (n.offerCall m).svc.now = n.svc.now := (n.offered m).svc.now
@[simp] theorem Node.offerCall_time : (n.offerCall m).svc.time = n.svc.time := (n.offered m).svc.time
@[simp] theorem Node.offerCall_set : (n.offerCall m).set = n.set := (n.offered m).svc.settings
@[simp] theorem Node.offerCall_cmd : (n.offerCall m).cmd = n.cmd := by rw [(n.offered m).rest]
@[simp] theorem Node.offerCall_head : (n.offerCall m).head = n.head := by rw [(n.offered m).rest]
@[simp] theorem Node.offerCall_ring : (n.offerCall m).ring = n.ring := by rw [(n.offered m).rest]
@[simp] theorem Node.offerCall_zone : (n.offerCall m).zone = n.zone := by rw [(n.offered m).rest]
@[simp] theorem Node.offerCall_toll : (n.offerCall m).toll = n.toll := by rw [(n.offered m).rest]
@[simp] theorem Node.offerCall_rules : (n.offerCall m).rules = n.rules := by rw [(n.offered m).rest]
@[simp] theorem Node.offerCall_phones : (n.offerCall m).call.phones = n.call.phones := by rw [(n.offered m).rest]
@[simp] theorem Node.offerCall_table : (n.offerCall m).call.table = n.call.table := by rw [(n.offered m).rest]
@[simp] theorem Node.offerCall_waiting : (n.offerCall m).call.waiting = n.call.waiting := by rw [(n.offered m).rest]

end

/-! ## CALL-REQUEST (R64) -/

section
variable {n : Node} {st p : Nat}

theorem Node.takeRequest_free {k : Nat} (hp : n.call.pair st p = none)
    (hk : n.call.freeSlot n.set.voiceCap = some k) :
    n.takeRequest st p = (((n.onCall fun t => t.add
        (newCall n.call.nextCall st p .alerting (some k) none n.svc.time none)).offerCall
      (n.toWayside st (.callAssign p n.call.nextCall k))).post .callArrived (.voicePort p)
      [.nat n.call.nextCall, .nat st, .nat k]) := by
  simp only [Node.takeRequest, hp, hk]
  rfl

/-- R64: the entry that joins the wait queue. -/
def Node.joinQueue (n : Node) (st p : Nat) : Node :=
  (n.onCall fun t => t.add (newCall n.call.nextCall st p .queued none none n.svc.time none)).onCall
    fun t => { t with waiting := t.waiting ++ [n.call.nextCall] }

theorem Node.takeRequest_waits (hp : n.call.pair st p = none) (hk : n.call.freeSlot n.set.voiceCap = none)
    (hw : n.call.waiting.length < 16) :
    n.takeRequest st p = (((n.joinQueue st p).offerCall
      (n.toWayside st (.callQueued p n.call.nextCall (n.call.waiting.length + 1)))).post .callWaiting (.voicePort p)
      [.nat n.call.nextCall, .nat st, .nat (n.call.waiting.length + 1)]) := by
  have hw' : n.call.waiting.length < Config.waitPlaces := hw
  have hlen : (n.call.waiting ++ [n.call.nextCall]).length = n.call.waiting.length + 1 := by simp
  simp only [Node.takeRequest, hp, hk, if_pos hw']
  rw [← hlen]
  rfl

theorem Node.takeRequest_busy (hp : n.call.pair st p = none) (hk : n.call.freeSlot n.set.voiceCap = none)
    (hw : 16 ≤ n.call.waiting.length) :
    n.takeRequest st p = if n.call.full then n.offerCall (n.toWayside st (.callBusy p))
      else ((n.offerCall (n.toWayside st (.callBusy p))).post .queueFull (.voicePort p) [.nat st]).onCall
        fun t => { t with full := true } := by
  have hw' : ¬ n.call.waiting.length < Config.waitPlaces := Nat.not_lt.2 hw
  simp only [Node.takeRequest, hp, hk, if_neg hw']

theorem Node.takeRequest_known {e : CallEntry} (hp : n.call.pair st p = some e) :
    n.takeRequest st p = n.answerRequest e := by
  simp only [Node.takeRequest, hp]

end

theorem Node.answerRequest_slot (n : Node) {e : CallEntry} {k : Nat} (hk : e.slot = some k) :
    (e.state = .alerting ∨ e.state = .connected →
      n.answerRequest e = n.offerCall (n.toWayside e.station (.callAssign e.port e.number k))) ∧
    (e.state = .ringing →
      n.answerRequest e = n.offerCall (n.toWayside e.station (.callRing e.port e.number k))) := by
  have hd : e.slot.getD 0 = k := by rw [hk]; rfl
  refine ⟨?_, fun h => ?_⟩
  · rintro (h | h) <;> simp only [Node.answerRequest, h, hd]
  · simp only [Node.answerRequest, h, hd]

/-- Settles O30: a request of a new pair by the slot plan and the wait queue, another by its entry's state. -/
theorem callRequestIsTaken : Obligations.CallRequestIsTaken := by
  intro st p time s hphase hhead n offer new add c run
  have hrun : run = .next (s.settled (n.takeRequest st p)) :=
    State.act_onMessage (f := fun n => n.takeRequest st p) hphase hhead (some st) (.callRequest p time)
  have htime : n.svc.time = s.node.svc.time := rfl
  clear_value n run
  rw [hrun]
  refine ⟨fun hp => ⟨fun k hk => ?_, fun hk hw => ?_, fun hk hw => ?_⟩, fun e he hst hport =>
    ⟨fun hs => ?_, fun hs => ?_, fun k hk => ⟨fun hs => ?_, fun hs => ?_⟩⟩⟩
  · rw [Node.takeRequest_free hp hk, htime]
    rfl
  · rw [Node.takeRequest_waits hp hk hw, Node.joinQueue, htime]
    rfl
  · rw [Node.takeRequest_busy hp hk hw]
    rfl
  · rw [Node.takeRequest_known he, Node.answerRequest, hs]
  · rw [Node.takeRequest_known he, Node.answerRequest, hs, hst, hport]
    rfl
  · rw [Node.takeRequest_known he, (n.answerRequest_slot hk).1 hs, hst, hport]
    rfl
  · rw [Node.takeRequest_known he, (n.answerRequest_slot hk).2 hs, hst, hport]
    rfl

/-! ## CALL-ANSWER (R65) -/

/-- R65: the node with an ALERTING call answered by a console. -/
def Node.answeredCall (n : Node) (call console : Nat) (e : CallEntry) : Node :=
  ((n.onCall fun c => c.changeEntry call fun e => { e with state := .connected, console := some console }).offerCall
    (n.toWayside e.station (.callAnswered e.port call))).post .callConnected .none [.nat call, .nat console]

section
variable (n : Node) {call console : Nat} {e : CallEntry}

theorem Node.callAnswer_bad (h : call < 1 ∨ 255 < call ∨ console < 1 ∨ 8 < console) :
    n.callAnswer call console = (n, .badArgument, .nil) := if_pos h

theorem Node.callAnswer_unknown (h : ¬(call < 1 ∨ 255 < call ∨ console < 1 ∨ 8 < console))
    (he : n.call.entry call = none) : n.callAnswer call console = (n, .notFound, .nil) := by
  simp only [Node.callAnswer, if_neg h, he]

theorem Node.callAnswer_known (h : ¬(call < 1 ∨ 255 < call ∨ console < 1 ∨ 8 < console))
    (he : n.call.entry call = some e) :
    n.callAnswer call console = if e.state ≠ .alerting ∨ (n.call.consoleCall console).isSome = true then
      (n, .wrongState, .nil) else (n.answeredCall call console e, .done, .nil) := by
  simp only [Node.callAnswer, if_neg h, he]
  rfl

end

theorem Node.answeredCall_onCmd (n : Node) (f : Cmd → Cmd) (call console : Nat) (e : CallEntry) :
    (n.onCmd f).answeredCall call console e = (n.answeredCall call console e).onCmd f := by
  unfold Node.answeredCall
  rw [Node.onCmd_onCall, Node.onCmd_offerCall, Node.onCmd_post]
  rfl

theorem Node.answeredCall_cmd (n : Node) (call console : Nat) (e : CallEntry) : (n.answeredCall call console e).cmd = n.cmd :=
  Node.offerCall_cmd ..

theorem exec_callAnswer {s : State} {o : Origin} {call console : Nat} (h : Takes s o (.callAnswer call console))
    {m : Node} {st : Status} {v : Value} (hm : s.node.callAnswer call console = (m, st, v)) :
    exec (.callAnswer o call console) s = .next (s.replied m o (.callAnswer call console) st v) := by
  refine State.command_atOnce h (act := fun n => n.callAnswer call console) (fun _ => rfl) (fun n f => ?_) (fun n => ?_) hm
  · by_cases hb : call < 1 ∨ 255 < call ∨ console < 1 ∨ 8 < console
    · simp only [Node.callAnswer_bad _ hb]
    · cases he : n.call.entry call with
      | none => simp only [Node.callAnswer_unknown n hb he, Node.callAnswer_unknown (n.onCmd f) hb he]
      | some e =>
        simp only [Node.callAnswer_known n hb he, Node.callAnswer_known (n.onCmd f) hb he, Node.onCmd_call,
          Node.answeredCall_onCmd]
        split <;> rfl
  · by_cases hb : call < 1 ∨ 255 < call ∨ console < 1 ∨ 8 < console
    · simp only [Node.callAnswer_bad _ hb]
    · cases he : n.call.entry call with
      | none => simp only [Node.callAnswer_unknown n hb he]
      | some e =>
        simp only [Node.callAnswer_known n hb he]
        split
        · rfl
        · exact Node.answeredCall_cmd ..

/-! ## CALL-END (R66) -/

section
variable (n : Node) {call : Nat} {e : CallEntry}

theorem Node.callEnd_bad (h : call < 1 ∨ 255 < call) : n.callEnd call = (n, .badArgument, .nil) := if_pos h

theorem Node.callEnd_unknown (h : ¬(call < 1 ∨ 255 < call)) (he : n.call.entry call = none) :
    n.callEnd call = (n, .notFound, .nil) := by
  simp only [Node.callEnd, if_neg h, he]

/-- R66: the node with a QUEUED call ended. -/
def Node.endedQueued (call : Nat) (e : CallEntry) : Node :=
  ((n.offerCall (n.toWayside e.station (.callClear e.port (some call)))).removeCall e).postEnded e .console
    Config.queuedEndConfirmed

theorem Node.callEnd_clearing (h : ¬(call < 1 ∨ 255 < call)) (he : n.call.entry call = some e)
    (hs : e.state = .clearing) : n.callEnd call = (n, .wrongState, .nil) := by
  simp only [Node.callEnd, if_neg h, he, hs]

theorem Node.callEnd_queued (h : ¬(call < 1 ∨ 255 < call)) (he : n.call.entry call = some e)
    (hs : e.state = .queued) : n.callEnd call = (n.endedQueued call e, .done, .nil) := by
  simp only [Node.callEnd, if_neg h, he, hs]
  rfl

theorem Node.callEnd_drains (h : ¬(call < 1 ∨ 255 < call)) (he : n.call.entry call = some e)
    (hs : e.state = .alerting ∨ e.state = .connected ∨ e.state = .ringing) :
    n.callEnd call = (n.startDrain e .console, .done, .nil) := by
  rcases hs with hs | hs | hs <;> simp only [Node.callEnd, if_neg h, he, hs]

end

/-- R66: an entry that starts to drain at a time. -/
def CallEntry.drains (now : Nat) (cause : EndCause) (e : CallEntry) : CallEntry :=
  { e with state := .clearing, ring := none, console := none, drain := some (now + Config.drainTime),
           cause := some cause }

/-- R66, R70: the consoles without an entry's call. -/
def silencedFor (e : CallEntry) (l : List Audio) : List Audio :=
  match e.console with
  | some p => put l p .silence
  | none => l

theorem Node.startDrain_eq (n : Node) (e : CallEntry) (cause : EndCause) :
    n.startDrain e cause = (n.offerCall (n.toWayside e.station (.callClear e.port (some e.number)))).onCall fun c =>
      { c with table := c.table.map fun x => if x.number = e.number then x.drains n.svc.now cause else x
               consoles := silencedFor e c.consoles } := by
  unfold Node.startDrain
  dsimp only
  rw [Node.offerCall_now]
  rfl

theorem Node.startDrain_onCmd (n : Node) (f : Cmd → Cmd) (e : CallEntry) (cause : EndCause) :
    (n.onCmd f).startDrain e cause = (n.startDrain e cause).onCmd f := by
  rw [Node.startDrain_eq, Node.startDrain_eq, Node.onCmd_offerCall, Node.onCmd_onCall]
  rfl

theorem Node.endedQueued_onCmd (n : Node) (f : Cmd → Cmd) (call : Nat) (e : CallEntry) :
    (n.onCmd f).endedQueued call e = (n.endedQueued call e).onCmd f := by
  unfold Node.endedQueued
  rw [Node.onCmd_offerCall]
  rfl

theorem exec_callEnd {s : State} {o : Origin} {call : Nat} (h : Takes s o (.callEnd call)) {m : Node} {st : Status}
    {v : Value} (hm : s.node.callEnd call = (m, st, v)) :
    exec (.callEnd o call) s = .next (s.replied m o (.callEnd call) st v) := by
  have hcases (n : Node) (f : Cmd → Cmd) :
      (n.onCmd f).callEnd call = ((n.callEnd call).1.onCmd f, (n.callEnd call).2) ∧
        (n.callEnd call).1.cmd = n.cmd := by
    by_cases hb : call < 1 ∨ 255 < call
    · simp only [Node.callEnd_bad _ hb, and_self]
    · cases he : n.call.entry call with
      | none => simp only [Node.callEnd_unknown n hb he, Node.callEnd_unknown (n.onCmd f) hb he, and_self]
      | some e =>
        have he' : (n.onCmd f).call.entry call = some e := he
        have hdrain (hs : e.state = .alerting ∨ e.state = .connected ∨ e.state = .ringing) :
            (n.onCmd f).callEnd call = ((n.callEnd call).1.onCmd f, (n.callEnd call).2) ∧
              (n.callEnd call).1.cmd = n.cmd := by
          rw [Node.callEnd_drains _ hb he hs, Node.callEnd_drains _ hb he' hs, Node.startDrain_onCmd]
          refine ⟨rfl, ?_⟩
          rw [Node.startDrain_eq]
          exact Node.offerCall_cmd ..
        cases hs : e.state with
        | clearing => simp only [Node.callEnd_clearing _ hb he hs, Node.callEnd_clearing _ hb he' hs, and_self]
        | queued =>
          rw [Node.callEnd_queued _ hb he hs, Node.callEnd_queued _ hb he' hs, Node.endedQueued_onCmd]
          exact ⟨rfl, Node.offerCall_cmd ..⟩
        | alerting => exact hdrain (.inl hs)
        | connected => exact hdrain (.inr (.inl hs))
        | ringing => exact hdrain (.inr (.inr hs))
  exact State.command_atOnce h (act := fun n => n.callEnd call) (fun _ => rfl) (fun n f => (hcases n f).1)
    (fun n => (hcases n id).2) hm

/-! ## The drain timer and the wait queue (R63, R70) -/

theorem Node.drainExpires_due {n : Node} {call : Nat} {e : CallEntry} (he : n.call.entry call = some e)
    (hs : e.state = .clearing) (hd : due n.svc.now e.drain = true) :
    n.drainExpires call = ((n.removeCall e).postEnded e (e.cause.getD .console) false).promote 24 := by
  simp only [Node.drainExpires, he, hs, hd, and_self, if_true]

theorem Node.promote_stops (fuel : Nat) {n : Node}
    (h : n.call.freeSlot n.set.voiceCap = none ∨ n.call.waiting = []) : n.promote (fuel + 1) = n := by
  unfold Node.promote
  rcases h with h | h
  · simp only [h]
  · rw [h]
    cases n.call.freeSlot n.set.voiceCap <;> rfl

/-- Settles O31: the two commands and the drain timer by the entry's state, and the promotions one by one. -/
theorem callAnswerAndEnd : Obligations.CallAnswerAndEnd := by
  refine ⟨fun o call console s => ⟨fun h => ⟨fun hbad => ?_, fun hgood he => ?_, fun e hgood he => ⟨fun hw => ?_,
      fun hs hc => ?_⟩⟩, fun h => ⟨fun hbad => ?_, fun hgood he => ?_, fun e hgood he => ⟨fun hs => ?_, fun hs => ?_,
      fun hs => ?_⟩⟩⟩, fun call e s hphase hhead he hs hd => ?_, fun fuel n => ⟨fun h => Node.promote_stops fuel h,
      fun k w rest e hk hw he => ?_⟩⟩
  · have hb : call < 1 ∨ 255 < call ∨ console < 1 ∨ 8 < console := by simpa [or_assoc] using hbad
    exact exec_callAnswer h (s.node.callAnswer_bad hb)
  · have hb : ¬(call < 1 ∨ 255 < call ∨ console < 1 ∨ 8 < console) := by simp at hgood; omega
    exact exec_callAnswer h (s.node.callAnswer_unknown hb he)
  · have hb : ¬(call < 1 ∨ 255 < call ∨ console < 1 ∨ 8 < console) := by simp at hgood; omega
    exact exec_callAnswer h ((s.node.callAnswer_known hb he).trans (if_pos hw))
  · have hb : ¬(call < 1 ∨ 255 < call ∨ console < 1 ∨ 8 < console) := by simp at hgood; omega
    exact exec_callAnswer h ((s.node.callAnswer_known hb he).trans (if_neg (by simp [hs, hc])))
  · exact exec_callEnd h (s.node.callEnd_bad (of_decide_eq_true hbad))
  · exact exec_callEnd h (s.node.callEnd_unknown (of_decide_eq_false hgood) he)
  · exact exec_callEnd h (s.node.callEnd_clearing (of_decide_eq_false hgood) he hs)
  · exact exec_callEnd h (s.node.callEnd_queued (of_decide_eq_false hgood) he hs)
  · have hnumber := (Call.of_entry he).2
    refine exec_callEnd h ((s.node.callEnd_drains (of_decide_eq_false hgood) he hs).trans ?_)
    rw [Node.startDrain_eq, hnumber]
    rfl
  · refine (State.act_onRole hphase hhead).trans ?_
    rw [Node.drainExpires_due he hs hd]
    rfl
  · rw [Node.promote]
    simp only [hk, hw, he]
    rfl

end Sys2Proof.Machine

/-! SUPPORT. CALL-RING and VOICE-CAP-SET (R67, R71), and how calls go on at the head-end (R50, R62, R67–R70): O32, O33. -/

namespace Sys2Proof.Machine

/-- R186: a command that ends as soon as it is taken, by what its action does to this one node. -/
theorem State.command_acting {s : State} {o : Origin} {c : Command} (h : Takes s o c)
    {act : Node → Node × Status × Value} (hperform : ∀ n : Node, n.perform s.store o c = atOnce (act n))
    {m : Node} {st : Status} {v : Value} (hcmd : m.cmd = s.node.cmd)
    (hact : ∀ f, act (s.node.onCmd f) = (m.onCmd f, st, v)) :
    s.command o c = .next (s.replied m o c st v) := by
  refine State.command_replied h m st v (by rw [hcmd]; exact h.free) ?_
  rw [hperform, hact]
  rfl

/-! ## CALL-RING (R67) -/

/-- R67: the arguments that CALL-RING refuses. -/
def callRingBad (st p k : Nat) : Bool := decide (st < 1 ∨ 999 < st ∨ p < 1 ∨ 8 < p ∨ k < 1 ∨ 8 < k)

/-- R67: the new RINGING entry. -/
def Node.ringEntry (n : Node) (st p k slot : Nat) : CallEntry :=
  newCall n.call.nextCall st p .ringing (some slot) (some k) n.svc.time (some (n.svc.now + Config.ringTime))

/-- R67: the node with the new RINGING entry. -/
def Node.rung (n : Node) (st p k slot : Nat) : Node :=
  (n.onCall fun t => t.add (n.ringEntry st p k slot)).offerCall
    (n.toWayside st (.callRing p n.call.nextCall slot))

section
variable (n : Node) {st p k : Nat}

theorem Node.callRing_bad (h : callRingBad st p k = true) : n.callRing st p k = (n, .badArgument, .nil) :=
  if_pos (of_decide_eq_true h)

section
variable (h : callRingBad st p k = false)
include h

theorem Node.callRing_absent (hp : (n.head.entry st).map MapEntry.presence = none ∨
    (n.head.entry st).map MapEntry.presence = some .unreachable) : n.callRing st p k = (n, .notFound, .nil) := by
  rw [Node.callRing, if_neg (of_decide_eq_false h)]
  rcases hp with hp | hp <;> rw [hp]

theorem Node.callRing_duplicate (hp : (n.head.entry st).map MapEntry.presence = some .duplicate) :
    n.callRing st p k = (n, .duplicate, .nil) := by
  rw [Node.callRing, if_neg (of_decide_eq_false h), hp]

theorem Node.callRing_present (hp : (n.head.entry st).map MapEntry.presence = some .present) :
    n.callRing st p k = if (n.call.pair st p).isSome = true ∨ (n.call.consoleCall k).isSome = true then
        (n, .wrongState, .nil)
      else match n.call.freeSlot n.set.voiceCap with
        | none => (n, .noRoom, .nil)
        | some slot => (n.rung st p k slot, .done, .nat n.call.nextCall) := by
  rw [Node.callRing, if_neg (of_decide_eq_false h), hp]
  rfl

theorem Node.callRing_noRoom (hp : (n.head.entry st).map MapEntry.presence = some .present)
    (hpair : n.call.pair st p = none) (hk : n.call.consoleCall k = none) (hf : n.call.freeSlot n.set.voiceCap = none) :
    n.callRing st p k = (n, .noRoom, .nil) := by
  rw [Node.callRing_present n h hp, if_neg (by simp [hpair, hk]), hf]

theorem Node.callRing_rings (hp : (n.head.entry st).map MapEntry.presence = some .present)
    (hpair : n.call.pair st p = none) (hk : n.call.consoleCall k = none) {slot : Nat}
    (hf : n.call.freeSlot n.set.voiceCap = some slot) :
    n.callRing st p k = (n.rung st p k slot, .done, .nat n.call.nextCall) := by
  rw [Node.callRing_present n h hp, if_neg (by simp [hpair, hk]), hf]

end

end

theorem Node.rung_onCmd (n : Node) (f : Cmd → Cmd) (st p k slot : Nat) :
    (n.onCmd f).rung st p k slot = (n.rung st p k slot).onCmd f := by
  unfold Node.rung
  rw [Node.onCmd_onCall, Node.onCmd_offerCall]
  rfl

section
variable {s : State} {o : Origin} {st p k : Nat} (h : Takes s o (.callRing st p k))
include h

/-- R67: a CALL-RING that changes nothing. -/
theorem exec_callRing_refused {r : Status} (hr : ∀ f, (s.node.onCmd f).callRing st p k = (s.node.onCmd f, r, .nil)) :
    exec (.callRing o st p k) s = .next (s.replied s.node o (.callRing st p k) r .nil) :=
  State.command_acting h (act := fun n => n.callRing st p k) (fun _ => rfl) rfl hr

theorem exec_callRing_rings {slot : Nat} (hgood : callRingBad st p k = false)
    (hp : (s.node.head.entry st).map MapEntry.presence = some .present) (hpair : s.node.call.pair st p = none)
    (hk : s.node.call.consoleCall k = none) (hf : s.node.call.freeSlot s.node.set.voiceCap = some slot) :
    exec (.callRing o st p k) s =
      .next (s.replied (s.node.rung st p k slot) o (.callRing st p k) .done (.nat s.node.call.nextCall)) := by
  refine State.command_acting h (act := fun n => n.callRing st p k) (fun _ => rfl) (Node.offerCall_cmd ..) fun f => ?_
  rw [Node.callRing_rings (s.node.onCmd f) hgood hp hpair hk hf, Node.rung_onCmd]
  rfl

end

/-! ## VOICE-CAP-SET (R71) -/

/-- R71: whether a slot above the new value is held. -/
def Node.holdsAbove (n : Node) (cap : Nat) : Bool :=
  (places 24).any fun k => decide (cap < k) && (n.call.holder k).isSome

section
variable (n : Node) {cap : Nat}

theorem Node.voiceCapSet_bad (h : cap < 4 ∨ 24 < cap) : n.voiceCapSet cap = (n, .badArgument, .nil) := if_pos h

theorem Node.voiceCapSet_held (h : ¬(cap < 4 ∨ 24 < cap)) (hh : n.holdsAbove cap = true) :
    n.voiceCapSet cap = (n, .wrongState, .nil) := by
  rw [Node.voiceCapSet, if_neg h]
  exact if_pos hh

theorem Node.voiceCapSet_quiet (h : ¬(cap < 4 ∨ 24 < cap)) (hh : n.holdsAbove cap = false)
    (hw : n.call.waiting = []) :
    n.voiceCapSet cap = (n.onSettings fun s => { s with voiceCap := cap }, .done, .nil) := by
  rw [Node.voiceCapSet, if_neg h]
  refine (if_neg (fun hb => Bool.false_ne_true (hh.symm.trans hb))).trans ?_
  have hquiet := Node.promote_stops 23 (n := n.onSettings fun s => { s with voiceCap := cap }) (.inr hw)
  rw [hquiet]

end

/-- Settles O32: the two commands, check by check. -/
theorem callRingAndVoiceCap : Obligations.CallRingAndVoiceCap := by
  refine ⟨fun o st p k s h => ⟨fun hbad => ?_, fun hgood hp => ?_, fun hgood hp => ?_, fun hgood hp =>
    ⟨fun hw => ?_, fun hpair hk => ⟨fun hf => ?_, fun slot hf => exec_callRing_rings h hgood hp hpair hk hf⟩⟩⟩,
    fun o cap s h => ⟨fun hbad => ?_, fun h4 h24 hh => ?_, fun h4 h24 hh hw => ?_⟩⟩
  · exact exec_callRing_refused h fun f => Node.callRing_bad _ hbad
  · exact exec_callRing_refused h fun f => Node.callRing_absent (s.node.onCmd f) hgood hp
  · exact exec_callRing_refused h fun f => Node.callRing_duplicate (s.node.onCmd f) hgood hp
  · exact exec_callRing_refused h fun f => (Node.callRing_present (s.node.onCmd f) hgood hp).trans (if_pos hw)
  · exact exec_callRing_refused h fun f => Node.callRing_noRoom (s.node.onCmd f) hgood hp hpair hk hf
  · exact State.command_acting h (act := fun n => n.voiceCapSet cap) (fun _ => rfl) rfl fun f =>
      Node.voiceCapSet_bad _ hbad
  · exact State.command_acting h (act := fun n => n.voiceCapSet cap) (fun _ => rfl) rfl fun f =>
      Node.voiceCapSet_held (s.node.onCmd f) (by omega) hh
  · exact State.command_acting h (act := fun n => n.voiceCapSet cap) (fun _ => rfl) (by rfl) fun f =>
      Node.voiceCapSet_quiet (s.node.onCmd f) (by omega) hh hw

/-! ## How an entry goes on and ends (R67–R70) -/

/-- R69, R70: an entry removed with its end posted, where no call waits. -/
theorem Node.removeCall_table {n : Node} (e : CallEntry) (cause : EndCause) (b : Bool) (hw : n.call.waiting = []) :
    let m := ((n.removeCall e).postEnded e cause b).promote 24
    m.call.table = n.call.table.filter (fun x => x.number ≠ e.number) ∧ m.head = n.head := by
  have hw' : ((n.removeCall e).postEnded e cause b).call.waiting = [] := by
    show n.call.waiting.filter _ = []
    rw [hw]
    rfl
  have hquiet : ((n.removeCall e).postEnded e cause b).promote 24 = (n.removeCall e).postEnded e cause b :=
    Node.promote_stops 23 (.inr hw')
  rw [hquiet]
  exact ⟨rfl, rfl⟩

section
variable {n : Node} {call : Nat} {e : CallEntry}

theorem Node.ringExpires_due (he : n.call.entry call = some e) (hs : e.state = .ringing)
    (hd : due n.svc.now e.ring = true) : n.ringExpires call = n.startDrain e .ringTimeout := by
  simp only [Node.ringExpires, he, hs, hd, and_self, if_true]

theorem Node.takeAnsweredHead_ringing (hp : n.call.pair e.station e.port = some e) (hs : e.state = .ringing)
    (hnum : e.number = call) : (n.takeAnsweredHead e.station e.port call).call.table =
      n.call.table.map fun x => if x.number = call then { x with state := .connected, ring := none } else x := by
  simp only [Node.takeAnsweredHead, hp, hs, hnum, and_self, if_true]
  rfl

theorem Node.takeAnsweredHead_other (hp : n.call.pair e.station e.port = some e) (hs : e.state ≠ .ringing) :
    n.takeAnsweredHead e.station e.port call = n := by
  simp only [Node.takeAnsweredHead, hp, hs, false_and, if_false]

/-- R69: CALL-CLEAR of the pair's own call, or without a number. -/
theorem Node.takeClearHead_own (hp : n.call.pair e.station e.port = some e) (hw : n.call.waiting = [])
    {c : Option Nat} (hc : c = none ∨ c = some e.number) :
    (n.takeClearHead e.station e.port c).call.table = n.call.table.filter (fun x => x.number ≠ e.number) ∧
      (n.takeClearHead e.station e.port c).head = n.head := by
  have hremoved := Node.removeCall_table (n := n) e (e.cause.getD .phone) true hw
  rcases hc with rfl | rfl
  · simp only [Node.takeClearHead, hp, Option.filter_some, Option.isNone_none, Bool.true_or, if_true]
    exact hremoved
  · simp only [Node.takeClearHead, hp, Option.filter_some, decide_true, Bool.or_true, if_true,
      Node.offerCall_table, Node.offerCall_head]
    exact hremoved

theorem Node.takeClearHead_other (hp : n.call.pair e.station e.port = some e) {k : Nat} (hk : k ≠ e.number) :
    (n.takeClearHead e.station e.port (some k)).call.table = n.call.table := by
  simp only [Node.takeClearHead, hp, Option.filter_some, Option.isNone_some, Option.some.injEq, hk, decide_false,
    Bool.or_self, Bool.false_eq_true, if_false, Node.offerCall_table]

theorem Node.takeClearedHead_clearing (hp : n.call.pair e.station e.port = some e) (hs : e.state = .clearing)
    (hw : n.call.waiting = []) : (n.takeClearedHead e.station e.port e.number).call.table =
      n.call.table.filter (fun x => x.number ≠ e.number) := by
  simp only [Node.takeClearedHead, hp, hs, and_self, if_true]
  exact (Node.removeCall_table e (e.cause.getD .console) true hw).1

theorem Node.takeClearedHead_other (hp : n.call.pair e.station e.port = some e) (hs : e.state ≠ .clearing) :
    n.takeClearedHead e.station e.port call = n := by
  simp only [Node.takeClearedHead, hp, hs, false_and, if_false]

end

/-- The call table and the head-end's record that a step leaves. -/
theorem State.settled_call (s : State) (m : Node) :
    (s.settled m).node.call.table = m.call.table ∧ (s.settled m).node.head = m.head := by
  rw [State.settled_node]
  exact ⟨(Node.keeps_settle m).table, (Node.keeps_settle m).head⟩

/-! ## The voice slots of an originated cycle (R50, R62) -/

theorem Call.length_writeSlots (c : Call) (cap : Nat) : (c.writeSlots cap).length = cap := by
  simp [Call.writeSlots, places]

theorem nth_eq_getElem? {α : Type} : ∀ (l : List α) (k : Nat), nth l (k + 1) = l[k]?
  | [], k => by simp
  | a :: l, 0 => rfl
  | a :: l, k + 1 => (nth_eq_getElem? l k).trans rfl

theorem nth_places {n k : Nat} (h1 : 1 ≤ k) (hn : k ≤ n) : nth (places n) k = some k := by
  obtain ⟨j, rfl⟩ : ∃ j, k = j + 1 := ⟨k - 1, by omega⟩
  rw [nth_eq_getElem?, places, List.getElem?_map, List.getElem?_range (by omega)]
  rfl

theorem Call.nth_writeSlots (c : Call) {cap k : Nat} (h1 : 1 ≤ k) (hn : k ≤ cap) :
    nth (c.writeSlots cap) k = some (c.writeSlot k) := by
  rw [Call.writeSlots, nth_map, nth_places h1 hn]
  rfl

theorem Call.holder_first {c : Call} {before after : List CallEntry} {e : CallEntry} {k : Nat}
    (ht : c.table = before ++ e :: after) (hb : ∀ x ∈ before, x.slot ≠ some k) (he : e.slot = some k) :
    c.holder k = some e := by
  rw [Call.holder, ht, List.find?_append, List.find?_eq_none.2 fun x hx => by simpa using hb x hx, Option.none_or,
    List.find?_cons_of_pos (by simpa using he)]

/-! ## The originated outer-schedule cycle (R1, R50) -/

/-- R90: writing the tag leaves the ports and the origin. -/
theorem Node.releaseWritten_rest (n : Node) :
    (∀ p, n.releaseWritten.port p = n.port p) ∧ n.releaseWritten.head.origin = n.head.origin := by
  unfold Node.releaseWritten
  split
  · exact ⟨fun _ => rfl, rfl⟩
  · dsimp only
    split
    · next o _ _ =>
      have hk := Node.keeps_endCommand (n.onHead fun h => { h with tag := none }) o .done .nil
      generalize Node.endCommand _ o .done .nil = m at hk
      refine ⟨fun p => ?_, by rw [hk.head]; rfl⟩
      cases p
      · exact hk.east
      · exact hk.west
    · exact ⟨fun p => by cases p <;> rfl, rfl⟩

theorem Node.direct_head (n : Node) (p : PortId) (c : Cycle) : (n.direct p c).head = n.head := by cases p <;> rfl

/-- R1, R17: what goes out of the origin port stays there. -/
theorem Node.port_sendBare_west (n : Node) (c : Cycle) : (n.sendBare c).port .west = n.port .west := by
  unfold Node.sendBare
  split <;> rfl

/-- R1: the outer-schedule cycle goes out of the origin port. -/
theorem Node.originateOuter_sends {n : Node} (hc : PortState.carries (n.port n.head.origin).state = true) :
    (∃ c k, (n.originateOuter.port n.head.origin).sent = some c ∧ c.content = some k ∧
      k.voice = n.call.writeSlots n.set.voiceCap) ∧ n.originateOuter.head.origin = n.head.origin := by
  have hw := Node.WinStep.originateWindow n .outer (62 - n.set.voiceCap)
  unfold Node.originateOuter
  dsimp only
  generalize n.originateWindow .outer (62 - n.set.voiceCap) = w at hw ⊢
  obtain ⟨hports, horigin⟩ := w.1.releaseWritten_rest
  have hcarries (p : PortId) (hp : n.head.origin = p) : PortState.carries (w.1.releaseWritten.port p).state = true := by
    rw [hports, hw.port, ← hp]
    exact hc
  generalize w.1.releaseWritten = m at hports horigin hcarries ⊢
  cases ho : n.head.origin with
  | west =>
    rw [if_pos (decide_eq_true rfl)]
    refine ⟨⟨_, _, (congrArg Port.sent (Node.port_sendBare_west ..)).trans
      (m.sent_direct .west _ (hcarries .west ho)), rfl, rfl⟩, ?_⟩
    rw [(Node.SendStep.sendBare _ _).head, Node.direct_head, horigin, hw.head, ho]
  | east =>
    rw [if_neg (by simp)]
    refine ⟨⟨_, _, m.sent_direct .east _ (hcarries .east ho), rfl, rfl⟩, ?_⟩
    rw [Node.direct_head, horigin, hw.head, ho]

/-- R1, R17: the inner-schedule cycle goes out of WEST with origin EAST, so it leaves what went out of the origin port. -/
theorem Node.originateInner_port (n : Node) : n.originateInner.port n.head.origin = n.port n.head.origin := by
  unfold Node.originateInner
  split
  · next h =>
    have ho : n.head.origin = .east := by
      simp only [Node.originates, Bool.and_eq_true, decide_eq_true_eq] at h
      exact h.2
    have hw := Node.WinStep.originateWindow n .inner 62
    rw [ho]
    exact hw.port .east
  · rfl

/-- R1, R20: a cycle period at a head-end that originates. -/
theorem Node.originate_sends {n : Node} (hs : n.head.started = true)
    (hc : PortState.carries (n.port n.head.origin).state = true) :
    ∃ c k, (n.originate.port n.head.origin).sent = some c ∧ c.content = some k ∧
      k.voice = n.call.writeSlots n.set.voiceCap := by
  unfold Node.originate
  rw [Node.passPeriod, Node.setTime_eq]
  dsimp only
  rw [if_pos (by exact hs)]
  generalize hp : Node.onHead _ _ = p
  have horigin : p.head.origin = n.head.origin := by rw [← hp]; rfl
  have hvoice : p.call.writeSlots p.set.voiceCap = n.call.writeSlots n.set.voiceCap := by rw [← hp]; rfl
  have hstate (q : PortId) : (p.port q).state = (n.port q).state := by
    rw [← hp]
    cases q
    · exact Port.turnedIf_state ..
    · exact Port.turnedIf_state ..
  obtain ⟨⟨c, k, hsent, hcontent, hk⟩, hafter⟩ := Node.originateOuter_sends (n := p) (by
    rw [hstate, horigin]
    exact hc)
  have hinner := p.originateOuter.originateInner_port
  rw [hafter] at hinner
  rw [horigin] at hinner hsent
  exact ⟨c, k, by rw [hinner]; exact hsent, hcontent, hk.trans hvoice⟩

/-- Settles O33: an entry's events one by one, the plan's slots by their holders, and the cycle at the origin port. -/
theorem headEndCallsGoOn : Obligations.HeadEndCallsGoOn := by
  refine ⟨fun call e s hphase hhead he hp hw => ?_, fun c cap k h1 hk => ⟨c.length_writeSlots cap, fun hfree => ?_,
    fun before e after ht hb hslot => ?_⟩, fun s hphase hhead hstarted hc => ?_⟩
  · have hnum := (Call.of_entry he).2
    have hmessage {p : Payload} {f : Node → Node} {i : Instr}
        (hact : exec i s = s.act (Node.onMessage true (some e.station) p f)) :
        exec i s = .next (s.settled (f (s.node.handOver (isMessage (some e.station) p)))) :=
      hact.trans (State.act_onMessage hphase hhead _ _)
    have hhanded (is : Message → Bool) : (s.node.handOver is).call = s.node.call := rfl
    refine ⟨fun hs hd => ⟨_, State.act_onRole hphase hhead, (s.settled_call _).1.trans ?_⟩,
      fun hs => ⟨_, hmessage rfl, (s.settled_call _).1.trans ?_⟩,
      fun hs => ⟨_, hmessage rfl, (s.settled_call _).1.trans ?_⟩,
      ⟨_, hmessage rfl, (s.settled_call _).1.trans ?_, (s.settled_call _).2.trans ?_⟩,
      ⟨_, hmessage rfl, (s.settled_call _).1.trans ?_⟩,
      fun k hk => ⟨_, hmessage rfl, (s.settled_call _).1.trans ?_⟩,
      fun hs => ⟨⟨_, hmessage rfl, (s.settled_call _).1.trans ?_⟩,
        fun hd => ⟨_, State.act_onRole hphase hhead, (s.settled_call _).1.trans ?_⟩⟩,
      fun hs => ⟨_, hmessage rfl, (s.settled_call _).1.trans ?_⟩⟩
    · rw [Node.ringExpires_due he hs hd, Node.startDrain_eq, ← hnum]
      exact congrArg (List.map _) (Node.offerCall_table ..)
    · exact Node.takeAnsweredHead_ringing hp hs hnum
    · rw [Node.takeAnsweredHead_other (n := s.node.handOver _) hp hs, hhanded]
    · rw [← hnum]
      exact (Node.takeClearHead_own (n := s.node.handOver _) hp hw (.inr rfl)).1
    · rw [← hnum]
      exact (Node.takeClearHead_own (n := s.node.handOver _) hp hw (.inr rfl)).2
    · rw [← hnum]
      exact (Node.takeClearHead_own (n := s.node.handOver _) hp hw (.inl rfl)).1
    · exact Node.takeClearHead_other (n := s.node.handOver _) hp (by rw [hnum]; exact hk)
    · rw [← hnum]
      exact Node.takeClearedHead_clearing hp hs hw
    · rw [Node.drainExpires_due he hs hd, ← hnum]
      exact (Node.removeCall_table e _ false hw).1
    · rw [Node.takeClearedHead_other (n := s.node.handOver _) hp hs, hhanded]
  · rw [c.nth_writeSlots h1 hk, Call.writeSlot, Call.holder_none.2 hfree]
    rfl
  · have hholder := Call.holder_first ht hb hslot
    rw [c.nth_writeSlots h1 hk, Call.writeSlot, hholder]
    refine ⟨?_, ?_, ?_, ?_⟩
    · cases hs : e.state <;> (simp only [hs]; rfl)
    · rintro (hs | hs) <;> simp only [hs] <;> rfl
    · intro hs
      simp only [hs]
      rfl
    · intro p hs hp
      simp only [hs, hp]
      rfl
  · obtain ⟨c, k, hsent, hcontent, hvoice⟩ := Node.originate_sends hstarted hc
    refine ⟨_, c, k, State.act_onRole hphase hhead, ?_, hcontent, hvoice⟩
    rw [State.settled_node, Node.settle_port]
    exact hsent

end Sys2Proof.Machine

/-! SUPPORT. Phone records at a wayside (R51–R54), with O26 and O27. -/

namespace Sys2Proof.Machine

/-! ## One phone's record changed -/

/-- What a change of one phone leaves: but for the services, CALL and ZONE, the node; the other phones' records. -/
structure Node.PhoneStep (p : Nat) (n m : Node) : Prop where
  rest : m = { n with svc := m.svc, call := m.call, zone := m.zone }
  svc : Svc.Keeps n.svc m.svc
  others : ∀ q, q ≠ p → m.phone q = n.phone q

namespace Node.PhoneStep

variable {p : Nat}

theorem refl (n : Node) : Node.PhoneStep p n n := ⟨rfl, .refl _, fun _ _ => rfl⟩

theorem trans {a b c : Node} (h : Node.PhoneStep p a b) (k : Node.PhoneStep p b c) : Node.PhoneStep p a c := by
  refine ⟨?_, h.svc.trans k.svc, fun q hq => (k.others q hq).trans (h.others q hq)⟩
  rw [k.rest, h.rest]

theorem onPhone (n : Node) (f : Phone → Phone) : Node.PhoneStep p n (n.onPhone p f) :=
  ⟨rfl, .refl _, fun _ hq => nth_change_other _ _ hq⟩

theorem post (n : Node) (c : NoticeCode) (b : Subject) (d : List Value) : Node.PhoneStep p n (n.post c b d) :=
  ⟨rfl, Svc.keeps_post .., fun _ _ => rfl⟩

theorem offerCall (n : Node) (m : Message) : Node.PhoneStep p n (n.offerCall m) := by
  refine ⟨?_, (n.offered m).svc, fun q _ => congrArg (fun l => nth l q) (n.offerCall_phones m)⟩
  rw [(n.offered m).rest]

theorem addCause (n : Node) (z : Nat) (c : Cause) : Node.PhoneStep p n (n.onZone (addCause z c)) :=
  ⟨rfl, keeps_addCause z c (n.svc, n.zone), fun _ _ => rfl⟩

theorem movePhone (n : Node) (new : PhoneState) (f : Phone → Phone) : Node.PhoneStep p n (n.movePhone p new f) := by
  unfold Node.movePhone
  split
  · exact refl n
  · dsimp only
    split
    · exact onPhone ..
    · exact (onPhone ..).trans (post ..)

section
variable {n m : Node} (h : Node.PhoneStep p n m)
include h

theorem toll : m.toll = n.toll := by rw [h.rest]
theorem rules : m.rules = n.rules := by rw [h.rest]
theorem ring : m.ring = n.ring := by rw [h.rest]
theorem set : m.set = n.set := h.svc.settings
theorem me : m.me = n.me := congrArg Settings.station h.set
theorem portZone : m.portZone p = n.portZone p := by rw [Node.portZone, Node.portZone, h.set]

end

end Node.PhoneStep

theorem Node.phone_onPhone {n : Node} {p : Nat} {r : Phone} (h : n.phone p = some r) (f : Phone → Phone) :
    (n.onPhone p f).phone p = some (f r) := by
  refine (nth_change_same f n.call.phones p).trans ?_
  rw [show nth n.call.phones p = some r from h]
  rfl

@[simp] theorem Node.phone_post (n : Node) (c : NoticeCode) (b : Subject) (d : List Value) (p : Nat) :
    (n.post c b d).phone p = n.phone p := rfl

@[simp] theorem Node.phone_offerCall (n : Node) (m : Message) (p : Nat) : (n.offerCall m).phone p = n.phone p :=
  congrArg (fun l => nth l p) (n.offerCall_phones m)

/-! ## A record moves (R52) -/

/-- R52: what a record hears once it has moved on from a state. -/
def Phone.movedFrom (old new : PhoneState) (r : Phone) : Phone :=
  { r with state := new, hears := if PhoneState.talks old && PhoneState.talks new then r.hears else .silence }

section
variable {n : Node} {p : Nat} {r : Phone} (h : n.phone p = some r) (new : PhoneState) (f : Phone → Phone)
include h

theorem Node.movePhone_eq :
    n.movePhone p new f = if r.state = new then n.onPhone p fun q => (f q).movedFrom r.state new
      else (n.onPhone p fun q => (f q).movedFrom r.state new).post .phoneState (.voicePort p)
        [.phone r.state, .phone new] := by
  simp only [Node.movePhone, h]
  rfl

theorem Node.phone_movePhone : (n.movePhone p new f).phone p = some ((f r).movedFrom r.state new) := by
  rw [Node.movePhone_eq h]
  split
  · exact Node.phone_onPhone h _
  · exact Node.phone_onPhone h _

/-- R52: a record that changes its state, and does not go from one talking state to another. -/
theorem Node.movePhone_changes (hs : r.state ≠ new) (ht : (PhoneState.talks r.state && PhoneState.talks new) = false) :
    n.movePhone p new f = (n.onPhone p fun q => { f q with state := new, hears := .silence }).post .phoneState
      (.voicePort p) [.phone r.state, .phone new] := by
  rw [Node.movePhone_eq h, if_neg hs]
  unfold Phone.movedFrom
  rw [ht]
  rfl

end

theorem PhoneState.not_talks_and (a : PhoneState) {b : PhoneState} (h : PhoneState.talks b = false) :
    (PhoneState.talks a && PhoneState.talks b) = false := by
  rw [h, Bool.and_false]

/-! ## Entering REQUESTING (R53) -/

/-- R53: the repeat timer that a record in REQUESTING starts with. -/
def Node.requestTimer (n : Node) : Option Nat := if n.ring.attach = .orphan then none else some (n.svc.now + 4000)

/-- R53: a record that asks for a call at a time. -/
def Phone.asking (t : NodeTime) (r : Phone) : Phone :=
  { r with state := .requesting, requested := some t, call := none, slot := none, heldOff := false, hears := .silence }

/-- R53: a record that asks for a call, with its zone's cause. -/
def Node.asking (n : Node) (p : Nat) (old : PhoneState) : Node :=
  (n.onPhone p (Phone.asking n.svc.time)).post .phoneState (.voicePort p) [.phone old, .phone .requesting]

/-- R53: the cause PHONE in the port's zone. -/
def Node.phoneCause (n : Node) (p : Nat) : Node :=
  if n.portZone p = 0 then n else n.onZone (addCause (n.portZone p) .phone)

theorem Node.phoneStep_phoneCause (n : Node) (p : Nat) : Node.PhoneStep p n (n.phoneCause p) := by
  unfold Node.phoneCause
  split
  · exact .refl n
  · exact .addCause ..

theorem Node.phone_phoneCause (n : Node) (p q : Nat) : (n.phoneCause p).phone q = n.phone q := by
  unfold Node.phoneCause
  split <;> rfl

/-- R53: the request that follows, or what takes its place in ORPHAN. -/
def Node.requested (n : Node) (p : Nat) (t : NodeTime) : Node :=
  if n.ring.attach = .orphan then (n.onPhone p fun r => { r with timer := none }).post .callStranded (.voicePort p) []
  else (n.offerCall (n.toHead (.callRequest p t))).onPhone p fun r => { r with timer := some (n.svc.now + 4000) }

theorem Node.startRepeat_offerCall (n : Node) (m : Message) (p : Nat) :
    (n.offerCall m).startRepeat p = (n.offerCall m).onPhone p fun r => { r with timer := some (n.svc.now + 4000) } := by
  unfold Node.startRepeat
  rw [Node.offerCall_now]
  rfl

/-- R53: what follows once the record asks and its zone has the cause. -/
def Node.asks (n : Node) (p : Nat) : Node :=
  match n.phone p with
  | none => n
  | some r =>
    if n.ring.attach = .orphan then (n.onPhone p fun r => { r with timer := none }).post .callStranded (.voicePort p) []
    else (n.offerRequest p r).startRepeat p

theorem Node.asks_eq {n : Node} {p : Nat} {r : Phone} {t : NodeTime} (h : n.phone p = some r)
    (ht : r.requested = some t) : n.asks p = n.requested p t := by
  unfold Node.asks Node.requested Node.offerRequest
  simp only [h, ht, Option.getD_some, Node.startRepeat_offerCall]

theorem Node.enterRequesting_eq {n : Node} {p : Nat} {r : Phone} (h : n.phone p = some r) (hs : r.state ≠ .requesting) :
    n.enterRequesting p = ((n.asking p r.state).phoneCause p).requested p n.svc.time := by
  have hexp : n.enterRequesting p = ((n.movePhone p .requesting fun r =>
      { r with requested := some n.svc.time, call := none, slot := none, heldOff := false }).phoneCause p).asks p := rfl
  have hphone : ((n.asking p r.state).phoneCause p).phone p = some (r.asking n.svc.time) := by
    rw [Node.phone_phoneCause]
    exact Node.phone_onPhone h _
  rw [hexp, Node.movePhone_changes h _ _ hs (PhoneState.not_talks_and _ rfl)]
  exact Node.asks_eq hphone rfl

theorem Node.phoneStep_requested (n : Node) (p : Nat) (t : NodeTime) : Node.PhoneStep p n (n.requested p t) := by
  unfold Node.requested
  split
  · exact (Node.PhoneStep.onPhone ..).trans (.post ..)
  · exact (Node.PhoneStep.offerCall ..).trans (.onPhone ..)

theorem Node.phone_requested {n : Node} {p : Nat} {r : Phone} (h : n.phone p = some r) (t : NodeTime) :
    (n.requested p t).phone p = some { r with timer := n.requestTimer } := by
  unfold Node.requested Node.requestTimer
  split
  · exact Node.phone_onPhone h _
  · exact Node.phone_onPhone ((Node.phone_offerCall ..).trans h) _

theorem Node.requestTimer_of_step {p : Nat} {n m : Node} (h : Node.PhoneStep p n m) : m.requestTimer = n.requestTimer := by
  rw [Node.requestTimer, Node.requestTimer, h.ring, h.svc.now]

theorem Node.phoneStep_asked (n : Node) (p : Nat) (old : PhoneState) :
    Node.PhoneStep p n ((n.asking p old).phoneCause p) :=
  ((Node.PhoneStep.onPhone n _).trans (.post ..)).trans (Node.phoneStep_phoneCause ..)

section
variable {n : Node} {p : Nat} {r : Phone} (h : n.phone p = some r) (hs : r.state ≠ .requesting)
include h hs

theorem Node.phoneStep_enterRequesting : Node.PhoneStep p n (n.enterRequesting p) := by
  rw [Node.enterRequesting_eq h hs]
  exact (n.phoneStep_asked p r.state).trans (Node.phoneStep_requested ..)

theorem Node.phone_enterRequesting :
    (n.enterRequesting p).phone p = some { r.asking n.svc.time with timer := n.requestTimer } := by
  rw [Node.enterRequesting_eq h hs, ← Node.requestTimer_of_step (n.phoneStep_asked p r.state)]
  refine Node.phone_requested ?_ _
  rw [Node.phone_phoneCause]
  exact Node.phone_onPhone h _

/-- R53: the port's zone holds the cause PHONE. -/
theorem Node.zone_enterRequesting {zr : ZoneRec} (hz : nth n.zone.zones (n.portZone p) = some zr) :
    ∃ zr', nth (n.enterRequesting p).zone.zones (n.portZone p) = some zr' ∧ .phone ∈ zr'.causes := by
  have hne : n.portZone p ≠ 0 := fun h0 => by rw [h0] at hz; simp at hz
  have hport : (n.asking p r.state).portZone p = n.portZone p :=
    ((Node.PhoneStep.onPhone n _).trans (.post ..)).portZone
  have hasked : nth ((n.asking p r.state).phoneCause p).zone.zones (n.portZone p) =
      some (zr.withCause .phone (n.asking p r.state).svc.time) := by
    rw [Node.phoneCause, hport, if_neg hne, Node.onZone_zone, addCause_zones, nth_change_same]
    show Option.map _ (nth n.zone.zones (n.portZone p)) = _
    rw [hz]
    rfl
  have hrequested (m : Node) (t : NodeTime) : (m.requested p t).zone = m.zone := by
    unfold Node.requested
    split
    · rfl
    · exact Node.offerCall_zone ..
  rw [Node.enterRequesting_eq h hs, hrequested]
  exact ⟨_, hasked, (zr.mem_withCause ..).2 (.inl rfl)⟩

end

/-! ## Entering IDLE and CLEARING (R52) -/

/-- R52: a record at rest. -/
def Phone.idled (r : Phone) : Phone :=
  { r with state := .idle, call := none, slot := none, timer := none, labelRun := 0, hears := .silence }

/-- R52: a record put to rest, told where its state changes. -/
def Node.idled (n : Node) (p : Nat) (old : PhoneState) : Node :=
  if old = .idle then n.onPhone p Phone.idled
  else (n.onPhone p Phone.idled).post .phoneState (.voicePort p) [.phone old, .phone .idle]

theorem Node.phone_idled {n : Node} {p : Nat} {r : Phone} (h : n.phone p = some r) (old : PhoneState) :
    (n.idled p old).phone p = some r.idled := by
  unfold Node.idled
  split
  · exact Node.phone_onPhone h _
  · exact Node.phone_onPhone h _

theorem Node.phoneStep_idled (n : Node) (p : Nat) (old : PhoneState) : Node.PhoneStep p n (n.idled p old) := by
  unfold Node.idled
  split
  · exact .onPhone ..
  · exact (Node.PhoneStep.onPhone ..).trans (.post ..)

section
variable {n : Node} {p : Nat} {r : Phone} (h : n.phone p = some r)
include h

theorem Node.enterIdle_eq :
    n.enterIdle p = if (r.heldOff || r.offHook) = true then (n.idled p r.state).enterRequesting p
      else n.idled p r.state := by
  have hmove : (n.movePhone p .idle fun r => { r with call := none, slot := none, timer := none, labelRun := 0 }) =
      n.idled p r.state := by
    have hmoved : (fun q : Phone => Phone.movedFrom r.state .idle
        { q with call := none, slot := none, timer := none, labelRun := 0 }) = Phone.idled := by
      unfold Phone.movedFrom Phone.idled
      rw [PhoneState.not_talks_and r.state (b := .idle) rfl]
      rfl
    rw [Node.movePhone_eq h, hmoved]
    rfl
  have hphone := Node.phone_idled h r.state
  unfold Node.enterIdle
  rw [hmove]
  generalize n.idled p r.state = m at hphone ⊢
  simp only [hphone]
  rfl

theorem Node.enterIdle_rests (hoff : r.heldOff = false) (hhook : r.offHook = false) :
    n.enterIdle p = n.idled p r.state := by
  rw [Node.enterIdle_eq h, if_neg (by simp [hoff, hhook])]

theorem Node.enterIdle_goesOn (hoff : r.heldOff = true ∨ r.offHook = true) :
    n.enterIdle p = (n.idled p r.state).enterRequesting p := by
  rw [Node.enterIdle_eq h, if_pos (by simpa using hoff)]

theorem Node.phoneStep_enterIdle : Node.PhoneStep p n (n.enterIdle p) := by
  rw [Node.enterIdle_eq h]
  split
  · exact (Node.phoneStep_idled ..).trans
      (Node.phoneStep_enterRequesting (Node.phone_idled h _) (by simp [Phone.idled]))
  · exact Node.phoneStep_idled ..

theorem Node.phone_enterIdle_rests (hoff : r.heldOff = false) (hhook : r.offHook = false) :
    (n.enterIdle p).phone p = some r.idled := by
  rw [Node.enterIdle_rests h hoff hhook, Node.phone_idled h]

theorem Node.phone_enterIdle_goesOn (hoff : r.heldOff = true ∨ r.offHook = true) :
    (n.enterIdle p).phone p = some { r.idled.asking n.svc.time with timer := n.requestTimer } := by
  have hstep := n.phoneStep_idled p r.state
  rw [Node.enterIdle_goesOn h hoff,
    Node.phone_enterRequesting (Node.phone_idled h _) (by simp [Phone.idled]), Node.requestTimer_of_step hstep,
    hstep.svc.time]

/-- R52: a record that clears its call at a time. -/
theorem Node.phone_enterClearing : (n.enterClearing p).phone p =
    some { r with state := .clearing, count := 0, slot := none, hears := .silence, timer := some (n.svc.now + 4000) } := by
  have hphone : (n.offerCall (n.toHead (.callClear p r.call))).phone p = some r := (Node.phone_offerCall ..).trans h
  have hnow : (n.offerCall (n.toHead (.callClear p r.call))).svc.now = n.svc.now := Node.offerCall_now ..
  simp only [Node.enterClearing, h]
  generalize n.offerCall (n.toHead (.callClear p r.call)) = m at hphone hnow ⊢
  have hmoved := Node.phone_movePhone hphone .clearing fun r => { r with count := 0, slot := none }
  have hstep := Node.PhoneStep.movePhone (p := p) m .clearing fun r => { r with count := 0, slot := none }
  refine (Node.phone_onPhone hmoved _).trans ?_
  unfold Phone.movedFrom
  rw [hstep.svc.now, hnow, PhoneState.not_talks_and r.state (b := .clearing) rfl]
  rfl

theorem Node.phoneStep_enterClearing : Node.PhoneStep p n (n.enterClearing p) := by
  simp only [Node.enterClearing, h]
  exact ((Node.PhoneStep.offerCall ..).trans (.movePhone ..)).trans (.onPhone ..)

end

/-! ## The repeat timer (R54) -/

/-- R59: what a withdrawal leaves. -/
theorem Node.withdrawCall_rest (n : Node) (is : Message → Bool) (p : Nat) :
    (n.withdrawCall is).svc.now = n.svc.now ∧ (n.withdrawCall is).me = n.me ∧
      (n.withdrawCall is).phone p = n.phone p := by
  have h := Svc.Steady.withdrawEmergency n.svc is
  exact ⟨h.now, congrArg Settings.station h.settings, rfl⟩

theorem Node.toHead_me {n m : Node} (h : m.me = n.me) (x : Payload) : m.toHead x = n.toHead x := by
  rw [Node.toHead, Node.toHead, h]

section
variable {n : Node} {p : Nat} {r : Phone} (h : n.phone p = some r) (hd : due n.svc.now r.timer = true)
include h hd

/-- R54: a request is offered again. -/
theorem Node.repeatExpires_asks {t : NodeTime} (ht : r.requested = some t) (hs : r.state = .requesting ∨ r.state = .queued) :
    n.repeatExpires p = ((n.withdrawCall (isRequestOf p)).offerCall (n.toHead (.callRequest p t))).onPhone p
      fun r => { r with timer := some (n.svc.now + 4000) } := by
  obtain ⟨hnow, hme, -⟩ := n.withdrawCall_rest (isRequestOf p) p
  have hboth : n.repeatExpires p = ((n.withdrawCall (isRequestOf p)).offerRequest p r).startRepeat p := by
    rcases hs with hs | hs <;> simp only [Node.repeatExpires, h, hd, hs, if_true]
  rw [hboth, Node.offerRequest, ht, Option.getD_some, Node.startRepeat_offerCall, hnow, Node.toHead_me hme]

/-- R54: a CALL-CLEAR is offered again. -/
theorem Node.repeatExpires_clears (hs : r.state = .clearing) (hc : r.count < 3) :
    n.repeatExpires p = (((n.onPhone p fun r => { r with count := r.count + 1 }).withdrawCall
      (isClearOf p r.call)).offerCall (n.toHead (.callClear p r.call))).onPhone p
      fun r => { r with timer := some (n.svc.now + 4000) } := by
  obtain ⟨hnow, hme, -⟩ :=
    (n.onPhone p fun r => { r with count := r.count + 1 }).withdrawCall_rest (isClearOf p r.call) p
  simp only [Node.repeatExpires, h, hd, hs, hc, if_true, Node.startRepeat_offerCall, hnow]
  rw [Node.toHead_me hme]
  rfl

/-- R54: after the third repeat the record is at rest. -/
theorem Node.repeatExpires_ends (hs : r.state = .clearing) (hc : 3 ≤ r.count) :
    n.repeatExpires p = n.enterIdle p := by
  simp only [Node.repeatExpires, h, hd, hs, if_neg (Nat.not_lt.2 hc), if_true]

end

/-- R52, R53: a record put to rest that asks again at once. -/
def Node.restAsks (n : Node) (p : Nat) (old : PhoneState) : Node :=
  let asking := ((n.idled p old).onPhone p (Phone.asking n.svc.time)).post .phoneState (.voicePort p)
    [.phone .idle, .phone .requesting]
  if n.portZone p = 0 then asking else asking.onZone (addCause (n.portZone p) .phone)

theorem Node.restAsks_eq (n : Node) (p : Nat) (old : PhoneState) :
    ((n.idled p old).asking p .idle).phoneCause p = n.restAsks p old := by
  have hstep := n.phoneStep_idled p old
  have hport : ((n.idled p old).asking p .idle).portZone p = n.portZone p :=
    (hstep.trans ((Node.PhoneStep.onPhone ..).trans (.post ..))).portZone
  rw [Node.phoneCause, hport, Node.asking, hstep.svc.time]
  rfl

theorem Node.phoneStep_restAsks (n : Node) (p : Nat) (old : PhoneState) : Node.PhoneStep p n (n.restAsks p old) := by
  have hasked := (n.idled p old).phoneStep_asked p .idle
  rw [Node.restAsks_eq] at hasked
  exact (n.phoneStep_idled p old).trans hasked

section
variable {n : Node} {p : Nat} {r : Phone} (h : n.phone p = some r) (hoff : r.heldOff = true ∨ r.offHook = true)
include h hoff

theorem Node.enterIdle_asks : n.enterIdle p = (n.restAsks p r.state).requested p n.svc.time := by
  rw [Node.enterIdle_goesOn h hoff, Node.enterRequesting_eq (Node.phone_idled h _) (by simp [Phone.idled]),
    (n.phoneStep_idled p r.state).svc.time]
  exact congrArg (fun m => Node.requested m p n.svc.time) (Node.restAsks_eq ..)

theorem Node.enterIdle_strands (ho : n.ring.attach = .orphan) :
    n.enterIdle p = ((n.restAsks p r.state).onPhone p fun r => { r with timer := none }).post .callStranded
      (.voicePort p) [] := by
  rw [Node.enterIdle_asks h hoff, Node.requested, (n.phoneStep_restAsks p r.state).ring, if_pos ho]

theorem Node.enterIdle_offers (ho : n.ring.attach ≠ .orphan) :
    n.enterIdle p = ((n.restAsks p r.state).offerCall (n.toHead (.callRequest p n.svc.time))).onPhone p
      fun r => { r with timer := some (n.svc.now + 4000) } := by
  have hstep := n.phoneStep_restAsks p r.state
  rw [Node.enterIdle_asks h hoff, Node.requested, hstep.ring, if_neg ho, hstep.svc.now, Node.toHead_me hstep.me]

end

/-- Settles O27: where a record at rest goes, and the repeat timer by the record's state. -/
theorem repeatTimerExpires : Obligations.RepeatTimerExpires := by
  refine ⟨fun n p r h => ⟨Node.enterIdle_rests h, Node.enterIdle_strands h, Node.enterIdle_offers h⟩,
    fun p r s hphase hhead h hd => ?_⟩
  have hrun : exec (.repeatTimerExpiry p) s = .next (s.settled (s.node.repeatExpires p)) :=
    State.act_onRole hphase hhead
  refine ⟨fun t ht hs => ?_, fun hs hc => ?_, fun hs hc => ?_, fun hs hc hoff hhook => ?_⟩
  · rw [hrun, Node.repeatExpires_asks h hd ht hs]
  · rw [hrun, Node.repeatExpires_clears h hd hs hc]
  · rw [hrun, Node.repeatExpires_ends h hd hs hc]
  · rw [hrun, Node.repeatExpires_ends h hd hs (by omega), Node.enterIdle_rests h hoff hhook, hs]
    rfl

/-! ## The hook (R51–R53) -/

/-- R51: what an operation leaves of a debouncer. -/
def Phone.SameHook (r q : Phone) : Prop := q.timing = r.timing ∧ q.offHook = r.offHook

theorem Phone.sameHook_movedFrom {r q : Phone} (h : r.SameHook q) (old new : PhoneState) :
    r.SameHook (q.movedFrom old new) := h

section
variable {n : Node} {p : Nat} {q : Phone} (h : n.phone p = some q)
include h

theorem Node.phone_answerRing (call slot : Nat) : (n.answerRing p call slot).phone p =
    some (({ q with call := some call, slot := some slot, timer := none } : Phone).movedFrom q.state .connected) :=
  Node.phone_movePhone ((Node.phone_offerCall ..).trans h) _ _

theorem Node.phone_enterIdle_hook : ∃ q', (n.enterIdle p).phone p = some q' ∧ q.SameHook q' := by
  by_cases hoff : q.heldOff = true ∨ q.offHook = true
  · exact ⟨_, Node.phone_enterIdle_goesOn h hoff, rfl, rfl⟩
  · rw [not_or, Bool.not_eq_true, Bool.not_eq_true] at hoff
    exact ⟨_, Node.phone_enterIdle_rests h hoff.1 hoff.2, rfl, rfl⟩

/-- R52: a lifted handset. -/
theorem Node.lifted_spec (r : Phone) (hq : q.state = r.state) :
    Node.PhoneStep p n (n.lifted p r) ∧ ∃ q', (n.lifted p r).phone p = some q' ∧ q.SameHook q' := by
  unfold Node.lifted
  cases hs : r.state with
  | idle =>
    have hne : q.state ≠ .requesting := by rw [hq, hs]; simp
    exact ⟨Node.phoneStep_enterRequesting h hne, _, Node.phone_enterRequesting h hne, rfl, rfl⟩
  | ringing =>
    dsimp only
    split
    · exact ⟨(Node.PhoneStep.offerCall ..).trans (.movePhone ..), _, Node.phone_answerRing h _ _, rfl, rfl⟩
    · exact ⟨.refl n, q, h, rfl, rfl⟩
  | clearing => exact ⟨.onPhone .., _, Node.phone_onPhone h _, rfl, rfl⟩
  | requesting => exact ⟨.refl n, q, h, rfl, rfl⟩
  | queued => exact ⟨.refl n, q, h, rfl, rfl⟩
  | alerting => exact ⟨.refl n, q, h, rfl, rfl⟩
  | connected => exact ⟨.refl n, q, h, rfl, rfl⟩
  | hung => exact ⟨.refl n, q, h, rfl, rfl⟩

/-- R52: a handset hung up. -/
theorem Node.hungUp_spec (r : Phone) :
    Node.PhoneStep p n (n.hungUp p r) ∧ ∃ q', (n.hungUp p r).phone p = some q' ∧ q.SameHook q' := by
  have hclears : Node.PhoneStep p n (n.enterClearing p) ∧ ∃ q', (n.enterClearing p).phone p = some q' ∧ q.SameHook q' :=
    ⟨Node.phoneStep_enterClearing h, _, Node.phone_enterClearing h, rfl, rfl⟩
  unfold Node.hungUp
  cases r.state with
  | requesting =>
    have h' := (Node.phone_offerCall n (n.toHead (.callClear p none)) p).trans h
    exact ⟨(Node.PhoneStep.offerCall ..).trans (Node.phoneStep_enterIdle h'), Node.phone_enterIdle_hook h'⟩
  | hung => exact ⟨Node.phoneStep_enterIdle h, Node.phone_enterIdle_hook h⟩
  | queued => exact hclears
  | alerting => exact hclears
  | connected => exact hclears
  | clearing => exact ⟨.onPhone .., _, Node.phone_onPhone h _, rfl, rfl⟩
  | idle => exact ⟨.refl n, q, h, rfl, rfl⟩
  | ringing => exact ⟨.refl n, q, h, rfl, rfl⟩

/-- R52: a hung-up record in REQUESTING or HUNG is at rest, and goes on where it was held off the hook. -/
theorem Node.hungUp_idles {r : Phone} (hs : r.state = .requesting ∨ r.state = .hung) (hhook : q.offHook = false) :
    (q.heldOff = false → (n.hungUp p r).phone p = some q.idled) ∧
    (q.heldOff = true → (n.hungUp p r).phone p =
      some { q.idled.asking n.svc.time with timer := n.requestTimer }) := by
  rcases hs with hs | hs
  · have h' := (Node.phone_offerCall n (n.toHead (.callClear p none)) p).trans h
    have hstep : Node.PhoneStep p n (n.offerCall (n.toHead (.callClear p none))) := .offerCall ..
    rw [Node.hungUp, hs]
    refine ⟨fun hoff => Node.phone_enterIdle_rests h' hoff hhook, fun hoff => ?_⟩
    exact (Node.phone_enterIdle_goesOn h' (.inl hoff)).trans (by rw [Node.requestTimer_of_step hstep, hstep.svc.time])
  · rw [Node.hungUp, hs]
    exact ⟨fun hoff => Node.phone_enterIdle_rests h hoff hhook, fun hoff => Node.phone_enterIdle_goesOn h (.inl hoff)⟩

theorem Node.hungUp_clears {r : Phone} (hs : r.state = .queued ∨ r.state = .alerting ∨ r.state = .connected) :
    (n.hungUp p r).phone p =
      some { q with state := .clearing, count := 0, slot := none, hears := .silence, timer := some (n.svc.now + 4000) } := by
  rcases hs with hs | hs | hs <;> (rw [Node.hungUp, hs]; exact Node.phone_enterClearing h)

end

/-- R51: a record whose debounce time has passed. -/
def Phone.debounced (r : Phone) : Phone := { r with offHook := !r.offHook, timing := none }

theorem Node.hookSettled_due {n : Node} {p : Nat} {r : Phone} (h : n.phone p = some r)
    (hd : due n.svc.now r.timing = true) : n.hookSettled p = if r.offHook then
      (n.onPhone p Phone.debounced).hungUp p r else (n.onPhone p Phone.debounced).lifted p r := by
  simp only [Node.hookSettled, h, hd, if_true]
  rfl

/-- R51, R52: what the debounced change leaves. -/
theorem Node.hookSettled_spec {n : Node} {p : Nat} {r : Phone} (h : n.phone p = some r)
    (hd : due n.svc.now r.timing = true) :
    Node.PhoneStep p n (n.hookSettled p) ∧ ∃ q, (n.hookSettled p).phone p = some q ∧ r.debounced.SameHook q := by
  have h' := Node.phone_onPhone h Phone.debounced
  have hstep : Node.PhoneStep p n (n.onPhone p Phone.debounced) := .onPhone ..
  rw [Node.hookSettled_due h hd]
  split
  · obtain ⟨hrest, hphone⟩ := Node.hungUp_spec h' r
    exact ⟨hstep.trans hrest, hphone⟩
  · obtain ⟨hrest, hphone⟩ := Node.lifted_spec h' r rfl
    exact ⟨hstep.trans hrest, hphone⟩

/-- R52: the debounced state that goes off the hook. -/
theorem Node.onPhone_debounced {n : Node} {p : Nat} {r : Phone} (h : n.phone p = some r) (hr : r.offHook = false) :
    n.onPhone p Phone.debounced = n.onPhone p fun r => { r with offHook := true, timing := none } := by
  refine congrArg (fun l => { n with call := { n.call with phones := l } }) (change_congr h ?_)
  rw [Phone.debounced, hr]
  rfl

theorem exec_hookContactChange {s : State} (hp : s.node.phase = .started) (hw : s.node.isHead = false) (p : Nat)
    (level : Bool) :
    exec (.hookContactChange p level) s = .next (s.settled ((s.node.setHook p level).timeHook p level)) := by
  have hrole : (s.node.setHook p level).phase = .started ∧ (s.node.setHook p level).isHead = false := ⟨hp, hw⟩
  show execHookContactChange p level s = _
  rw [execHookContactChange, State.act, Node.onRole, if_pos hrole, State.settled]

/-- R52: the debounced off-hook of a RINGING record answers its call. -/
theorem Node.hookSettled_answers {n : Node} {p c k : Nat} {r : Phone} (h : n.phone p = some r) (hs : r.state = .ringing)
    (hhook : r.offHook = false) (hc : r.call = some c) (hk : r.slot = some k) (hd : due n.svc.now r.timing = true) :
    let m := n.onPhone p fun r => { r with offHook := true, timing := none }
    n.hookSettled p = ((m.offerCall (m.toHead (.callAnswered p c))).onPhone p fun r =>
      { r with state := .connected, timer := none, call := some c, slot := some k, hears := .silence }).post
      .phoneState (.voicePort p) [.phone .ringing, .phone .connected] := by
  intro m
  have hm : n.onPhone p Phone.debounced = m := Node.onPhone_debounced h hhook
  have hphone : m.phone p = some r.debounced := by rw [← hm]; exact Node.phone_onPhone h _
  have hoffered := (Node.phone_offerCall m (m.toHead (.callAnswered p c)) p).trans hphone
  have hstate : r.debounced.state = .ringing := hs
  rw [Node.hookSettled_due h hd, hhook, if_neg Bool.false_ne_true, hm]
  simp only [Node.lifted, hs, hc, hk]
  rw [Node.answerRing, Node.movePhone_changes hoffered _ _ (by rw [hstate]; simp) (by rw [hstate]; rfl), hstate]

section
variable {n : Node} {p : Nat} {r q : Phone} (h : n.phone p = some r) (hd : due n.svc.now r.timing = true)
  (hq : (n.hookSettled p).phone p = some q)
include h hd hq

/-- R52, R53: an IDLE record lifted. -/
theorem Node.hookSettled_lifts (hhook : r.offHook = false) (hs : r.state = .idle) :
    (q.state = .requesting ∧ q.requested = some n.svc.time ∧ q.call = none ∧ q.slot = none ∧ q.heldOff = false ∧
      q.timer = n.requestTimer) ∧
    ∀ z zr, n.portZone p = z → nth n.zone.zones z = some zr →
      ∃ zr', nth (n.hookSettled p).zone.zones z = some zr' ∧ .phone ∈ zr'.causes := by
  have h' := Node.phone_onPhone h Phone.debounced
  have hne : r.debounced.state ≠ .requesting := by rw [show r.debounced.state = r.state from rfl, hs]; simp
  have hrun : n.hookSettled p = (n.onPhone p Phone.debounced).enterRequesting p := by
    rw [Node.hookSettled_due h hd, hhook, if_neg Bool.false_ne_true]
    simp only [Node.lifted, hs]
  rw [hrun] at hq ⊢
  rw [Node.phone_enterRequesting h' hne] at hq
  cases hq
  refine ⟨⟨rfl, rfl, rfl, rfl, rfl, rfl⟩, ?_⟩
  rintro z zr rfl hzr
  exact Node.zone_enterRequesting h' hne hzr

/-- R52: in CLEARING the debounced change is held alone. -/
theorem Node.hookSettled_holds (hs : r.state = .clearing) :
    q = { r with offHook := !r.offHook, timing := none, heldOff := !r.offHook } := by
  have h' := Node.phone_onPhone h Phone.debounced
  rw [Node.hookSettled_due h hd] at hq
  cases hhook : r.offHook with
  | true =>
    rw [hhook, if_pos rfl] at hq
    simp only [Node.hungUp, hs, Node.phone_onPhone h'] at hq
    cases hq
    simp [Phone.debounced, hhook]
  | false =>
    rw [hhook, if_neg Bool.false_ne_true] at hq
    simp only [Node.lifted, hs, Node.phone_onPhone h'] at hq
    cases hq
    simp [Phone.debounced, hhook]

section
variable (hhook : r.offHook = true)
include hhook

theorem Node.hookSettled_hangsUp : ((n.onPhone p Phone.debounced).hungUp p r).phone p = some q := by
  rw [Node.hookSettled_due h hd, hhook, if_pos rfl] at hq
  exact hq

/-- R52: a REQUESTING or HUNG record hung up. -/
theorem Node.hookSettled_idles (hs : r.state = .requesting ∨ r.state = .hung) :
    (r.heldOff = true → q.state = .requesting ∧ q.requested = some n.svc.time ∧ q.call = none ∧ q.slot = none ∧
      q.heldOff = false ∧ q.labelRun = 0 ∧ q.timer = n.requestTimer) ∧
    (r.heldOff = false → q.state = .idle ∧ q.call = none ∧ q.slot = none ∧ q.timer = none ∧ q.labelRun = 0) := by
  have h' := Node.phone_onPhone h Phone.debounced
  obtain ⟨hrests, hgoes⟩ := Node.hungUp_idles (r := r) h' hs (by simp [Phone.debounced, hhook])
  have hphone := Node.hookSettled_hangsUp h hd hq hhook
  refine ⟨fun hoff => ?_, fun hoff => ?_⟩
  · rw [hgoes hoff] at hphone
    cases hphone
    exact ⟨rfl, rfl, rfl, rfl, rfl, rfl, rfl⟩
  · rw [hrests hoff] at hphone
    cases hphone
    exact ⟨rfl, rfl, rfl, rfl, rfl⟩

/-- R52: a QUEUED, ALERTING or CONNECTED record hung up. -/
theorem Node.hookSettled_clears (hs : r.state = .queued ∨ r.state = .alerting ∨ r.state = .connected) :
    q.state = .clearing ∧ q.call = r.call ∧ q.slot = none ∧ q.count = 0 ∧ q.timer = some (n.svc.now + 4000) := by
  have hphone := Node.hookSettled_hangsUp h hd hq hhook
  rw [Node.hungUp_clears (Node.phone_onPhone h Phone.debounced) hs] at hphone
  cases hphone
  exact ⟨rfl, rfl, rfl, rfl, rfl⟩

end

end

/-- Settles O26: the level by its timing, the debounced change by the record's state. -/
theorem hookActsOnTheRecord : Obligations.HookActsOnTheRecord := by
  refine ⟨fun p level r s hphase hhead h => ⟨exec_hookContactChange hphase hhead p level,
    fun c k hs hhook hc hk hd => ?_⟩, fun p r s hphase hhead h hd => ?_⟩
  · have hrun : exec (.hookDebounceExpiry p) s = .next (s.settled (s.node.hookSettled p)) :=
      State.act_onRole hphase hhead
    rw [hrun, Node.hookSettled_answers h hs hhook hc hk hd]
  · obtain ⟨hstep, q, hq, htiming, hoff⟩ := Node.hookSettled_spec h hd
    have hk := Node.keeps_settle (s.node.hookSettled p)
    have hphone (k : Nat) : (s.node.hookSettled p).settle.phone k = (s.node.hookSettled p).phone k :=
      congrArg (fun l => nth l k) hk.phones
    refine ⟨s.settled (s.node.hookSettled p), q, State.act_onRole hphase hhead, ?_⟩
    rw [State.settled_node]
    refine ⟨(hphone p).trans hq, htiming, hoff, fun k hk' => (hphone k).trans (hstep.others k hk'),
      hk.toll.trans hstep.toll, hk.rules.trans hstep.rules, fun hhook hs => ?_, Node.hookSettled_holds h hd hq,
      fun hhook hs => (Node.hookSettled_idles h hd hq hhook hs).1,
      fun hhook hs => (Node.hookSettled_idles h hd hq hhook hs).2,
      fun hhook hs => Node.hookSettled_clears h hd hq hhook hs⟩
    obtain ⟨⟨h1, h2, h3, h4, h5, h6⟩, hzone⟩ := Node.hookSettled_lifts h hd hq hhook hs
    rw [hk.zones]
    exact ⟨h1, h2, h3, h4, h5, h6, hzone⟩

end Sys2Proof.Machine

/-! SUPPORT. Call messages at a wayside (R55–R58) and the labels of voice slots (R50, R56), with O28 and O29. -/

namespace Sys2Proof.Machine

/-- R52: a record moved to a state in which it hears nothing yet. -/
def Node.movedTo (n : Node) (p : Nat) (old new : PhoneState) (f : Phone → Phone) : Node :=
  (n.onPhone p fun r => { f r with state := new, hears := .silence }).post .phoneState (.voicePort p)
    [.phone old, .phone new]

/-! ## What each message does to a record (R55) -/

/-- R55: a message of the record's own call is ignored, one of another is a stray. -/
def Node.ownOrStray (n : Node) (p call : Nat) (r : Phone) : Node :=
  if decide (r.call = some call) then n else n.stray p call

theorem Node.ignoreOwn_eq (n : Node) (p call : Nat) (r : Phone) : n.ignoreOwn p call r = n.ownOrStray p call r := by
  simp only [Node.ignoreOwn, Node.ownOrStray, decide_eq_true_eq]

section
variable {n : Node} {p : Nat} {r : Phone} (h : n.phone p = some r)
include h

theorem Node.movePhone_movedTo {new : PhoneState} (f : Phone → Phone) (hs : r.state ≠ new)
    (ht : (PhoneState.talks r.state && PhoneState.talks new) = false) :
    n.movePhone p new f = n.movedTo p r.state new f := Node.movePhone_changes h new f hs ht

theorem Node.takeQueued_eq (call : Nat) : n.takeQueued p call = match r.state with
    | .requesting => n.movedTo p r.state .queued fun r => { r with call := some call }
    | .queued => n.onPhone p fun r => { r with call := some call }
    | .idle => n.stray p call
    | .hung => n.stray p call
    | _ => n.ownOrStray p call r := by
  simp only [Node.takeQueued, h, Node.ignoreOwn_eq]
  cases hs : r.state
  case requesting =>
    dsimp only
    rw [Node.movePhone_movedTo h _ (by rw [hs]; simp) (PhoneState.not_talks_and _ rfl), hs]
  all_goals rfl

theorem Node.takeAssign_eq (call slot : Nat) : n.takeAssign p call slot = match r.state with
    | .idle => n.stray p call
    | .hung => n.stray p call
    | .requesting =>
      n.movedTo p r.state .alerting fun r => { r with call := some call, slot := some slot, timer := none }
    | .queued =>
      n.movedTo p r.state .alerting fun r => { r with call := some call, slot := some slot, timer := none }
    | _ => n.ownOrStray p call r := by
  simp only [Node.takeAssign, h, Node.ignoreOwn_eq]
  cases hs : r.state
  case requesting =>
    dsimp only
    rw [Node.movePhone_movedTo h _ (by rw [hs]; simp) (by rw [hs]; rfl), hs]
  case queued =>
    dsimp only
    rw [Node.movePhone_movedTo h _ (by rw [hs]; simp) (by rw [hs]; rfl), hs]
  all_goals rfl

theorem Node.answerRing_eq (call slot : Nat) (hs : r.state = .requesting) :
    n.answerRing p call slot = (n.offerCall (n.toHead (.callAnswered p call))).movedTo p r.state .connected
      fun r => { r with call := some call, slot := some slot, timer := none } :=
  Node.movePhone_movedTo ((Node.phone_offerCall ..).trans h) _ (by rw [hs]; simp) (by rw [hs]; rfl)

theorem Node.takeRing_eq (call slot : Nat) : n.takeRing p call slot = match r.state with
    | .requesting => (n.offerCall (n.toHead (.callAnswered p call))).movedTo p r.state .connected
        fun r => { r with call := some call, slot := some slot, timer := none }
    | .idle => n.movedTo p r.state .ringing fun r => { r with call := some call, slot := some slot }
    | .queued => n.stray p call
    | .hung => n.stray p call
    | _ => n.ownOrStray p call r := by
  simp only [Node.takeRing, h, Node.ignoreOwn_eq]
  cases hs : r.state
  case requesting =>
    dsimp only
    rw [Node.answerRing_eq h _ _ hs, hs]
  case idle =>
    dsimp only
    rw [Node.movePhone_movedTo h _ (by rw [hs]; simp) (PhoneState.not_talks_and _ rfl), hs]
  all_goals rfl

/-- R55: the record that its own CALL-ANSWERED connects hears on. -/
theorem Node.movePhone_connects (hs : r.state = .alerting) :
    n.movePhone p .connected (fun r => { r with timer := none }) =
      (n.onPhone p fun r => { r with state := .connected, timer := none }).post .phoneState (.voicePort p)
        [.phone r.state, .phone .connected] := by
  rw [Node.movePhone_eq h, if_neg (by rw [hs]; simp)]
  unfold Phone.movedFrom
  rw [hs]
  rfl

theorem Node.takeAnswered_eq (call : Nat) : n.takeAnswered p call = match r.state with
    | .alerting =>
      if decide (r.call = some call) then (n.onPhone p fun r => { r with state := .connected, timer := none }).post
        .phoneState (.voicePort p) [.phone r.state, .phone .connected]
      else n.stray p call
    | .connected => n.ownOrStray p call r
    | .ringing => n.ownOrStray p call r
    | .clearing => n.ownOrStray p call r
    | _ => n.stray p call := by
  simp only [Node.takeAnswered, h, Node.ignoreOwn_eq]
  cases hs : r.state
  case alerting =>
    simp only [decide_eq_true_eq]
    rw [Node.movePhone_connects h hs, hs]
  all_goals rfl

end

/-- R57: what the handset of a port hears, by its record's state. -/
theorem Node.handset_spec {n : Node} {p : Nat} {r : Phone} (h : n.phone p = some r) :
    (r.state = .requesting ∨ r.state = .queued → n.handset p = .waitingTone) ∧
    (r.state = .hung → n.handset p = .clearedTone) ∧
    (r.state = .idle ∨ r.state = .ringing ∨ r.state = .clearing → n.handset p = .silence) ∧
    (r.state = .alerting ∨ r.state = .connected → n.handset p =
      if n.ring.attach ≠ .orphan ∧ n.svc.now ≤ n.win.outer.lastSeen + 1 then r.hears else .silence) := by
  have hquiet (ht : PhoneState.talks r.state = false) : n.handset p = r.handset := by
    simp only [Node.handset, h, ht, Bool.false_and, Bool.false_eq_true, if_false]
  have htalks (ht : PhoneState.talks r.state = true) : n.handset p =
      if n.ring.attach ≠ .orphan ∧ n.svc.now ≤ n.win.outer.lastSeen + 1 then r.handset else .silence := by
    simp only [Node.handset, h, ht, Bool.true_and]
    by_cases hpass : n.ring.attach ≠ .orphan ∧ n.svc.now ≤ n.win.outer.lastSeen + 1
    · rw [if_pos hpass, decide_eq_true hpass]
      rfl
    · rw [if_neg hpass, decide_eq_false hpass]
      rfl
  refine ⟨?_, fun hs => ?_, ?_, ?_⟩
  · rintro (hs | hs) <;> (rw [hquiet (by rw [hs]; rfl), Phone.handset, hs])
  · rw [hquiet (by rw [hs]; rfl), Phone.handset, hs]
  · rintro (hs | hs | hs) <;> (rw [hquiet (by rw [hs]; rfl), Phone.handset, hs])
  · rintro (hs | hs) <;> (rw [htalks (by rw [hs]; rfl), Phone.handset, hs])

/-- Settles O28: what a port shows and hears, and each message by what it does to the record. -/
theorem callMessagesAtWayside : Obligations.CallMessagesAtWayside := by
  refine ⟨fun n p r h => ⟨by cases hs : r.state <;> simp only [Phone.lamp, hs], by simp [Phone.ringer],
    by simp [Phone.writes], Node.handset_spec h⟩, fun p call x r s hphase hhead h => ?_⟩
  intro got stray moved queued assign ring answered own
  have hphone (m : Payload) : (got m).phone p = some r := h
  have hmessage {i : Instr} {m : Payload} {f : Node → Node} (hact : exec i s = s.act (Node.onMessage false none m f)) :
      exec i s = .next (s.settled (f (got m))) := hact.trans (State.act_onMessage hphase hhead none m)
  refine ⟨?_, ?_, hmessage (i := .callBusy p) (f := fun n => n.takeBusy p) (m := .callBusy p) rfl, ?_, ?_⟩
  · rw [hmessage (i := .callQueued p call x) (f := fun n => n.takeQueued p call) (m := queued) rfl,
      Node.takeQueued_eq (hphone queued)]
    rfl
  · rw [hmessage (i := .callAssign p call x) (f := fun n => n.takeAssign p call x) (m := assign) rfl,
      Node.takeAssign_eq (hphone assign)]
    rfl
  · rw [hmessage (i := .callRingAtWayside p call x) (f := fun n => n.takeRing p call x) (m := ring) rfl,
      Node.takeRing_eq (hphone ring)]
    rfl
  · rw [hmessage (i := .callAnsweredAtWayside p call) (f := fun n => n.takeAnswered p call) (m := answered) rfl,
      Node.takeAnswered_eq (hphone answered)]
    rfl

end Sys2Proof.Machine

/-! SUPPORT. How calls clear at a wayside (R56, R58) and the labels of voice slots (R50, R56), with O29. -/

namespace Sys2Proof.Machine

/-! ## CALL-CLEAR and CALL-CLEARED (R58) -/

section
variable {n : Node} {p : Nat} {r : Phone} (h : n.phone p = some r) (call : Nat)
include h

/-- R58: a record whose call is cleared hangs. -/
theorem Node.movePhone_hangs (hs : r.state ≠ .hung) :
    n.movePhone p .hung (fun r => { r with timer := none }) = n.movedTo p r.state .hung fun r => { r with timer := none } :=
  Node.movePhone_movedTo h _ hs (PhoneState.not_talks_and _ rfl)

theorem Node.phone_offerCleared : (n.offerCleared p call).phone p = some r := (Node.phone_offerCall ..).trans h

theorem Node.takeClear_requesting (hs : r.state = .requesting) :
    n.takeClear p call = (n.offerCleared p call).movedTo p r.state .hung fun r => { r with timer := none } := by
  simp only [Node.takeClear, h, hs, if_true]
  rw [Node.movePhone_hangs (Node.phone_offerCleared h call) (by rw [hs]; simp), hs]

theorem Node.takeClear_other (hs : r.state ≠ .requesting) (hc : r.call ≠ some call) :
    n.takeClear p call = n.offerCleared p call := by
  simp only [Node.takeClear, h, hs, hc, if_false]

theorem Node.takeClear_idle (hs : r.state = .idle ∨ r.state = .hung) : n.takeClear p call = n.offerCleared p call := by
  rcases hs with hs | hs <;> simp [Node.takeClear, h, hs]

theorem Node.takeClear_rests (hs : r.state = .ringing ∨ r.state = .clearing) (hc : r.call = some call) :
    n.takeClear p call = (n.offerCleared p call).enterIdle p := by
  rcases hs with hs | hs <;> simp [Node.takeClear, h, hs, hc]

section
variable (hs : r.state = .queued ∨ r.state = .alerting ∨ r.state = .connected) (hc : r.call = some call)
include hs hc

theorem Node.takeClear_call : n.takeClear p call =
    if (r.offHook && r.timing.isSome) = true then (n.offerCleared p call).enterIdle p
    else (n.offerCleared p call).movedTo p r.state .hung fun r => { r with timer := none } := by
  have hhangs := Node.movePhone_hangs (Node.phone_offerCleared h call) (by rcases hs with hs | hs | hs <;> simp [hs])
  rw [← hhangs]
  rcases hs with hs | hs | hs <;> simp [Node.takeClear, h, hs, hc]

theorem Node.takeClear_hangs (hhook : r.offHook = false ∨ r.timing = none) :
    n.takeClear p call = (n.offerCleared p call).movedTo p r.state .hung fun r => { r with timer := none } := by
  rw [Node.takeClear_call h call hs hc, if_neg (by rcases hhook with hhook | hhook <;> simp [hhook])]

theorem Node.takeClear_hookRests (hhook : r.offHook = true) (ht : r.timing ≠ none) :
    n.takeClear p call = (n.offerCleared p call).enterIdle p := by
  rw [Node.takeClear_call h call hs hc, if_pos (by simp [hhook, Option.isSome_iff_ne_none, ht])]

end

theorem Node.takeCleared_own (hs : r.state = .clearing) (hc : r.call = some call) :
    n.takeCleared p call = n.enterIdle p := by
  simp only [Node.takeCleared, h, hs, hc, and_self, if_true]

theorem Node.takeCleared_other (hs : r.state ≠ .clearing ∨ r.call ≠ some call) : n.takeCleared p call = n := by
  have hno : ¬(r.state = .clearing ∧ r.call = some call) := fun hb => hs.elim (· hb.1) (· hb.2)
  simp only [Node.takeCleared, h, if_neg hno]

/-- R56: a label run of 8. -/
theorem Node.labelLimit_reached (hc : r.call = some call) (hrun : r.labelRun = 8)
    (hs : PhoneState.readsLabel r.state = true) :
    n.labelLimit p = (n.takeClear p call).post .callLost (.voicePort p) [.nat call] := by
  have hboth : r.labelRun = Config.alignRun ∧ PhoneState.readsLabel r.state = true := ⟨hrun, hs⟩
  simp only [Node.labelLimit, h, hc, if_pos hboth]

/-- R52: a record in a call put to rest, its handset on the hook. -/
theorem Node.enterIdle_quiet (hs : r.state ≠ .idle) (hhook : r.offHook = false) (hoff : r.heldOff = false) :
    n.enterIdle p = n.movedTo p r.state .idle fun r => { r with call := none, slot := none, timer := none, labelRun := 0 } := by
  rw [Node.enterIdle_rests h hoff hhook, Node.idled, if_neg hs]
  rfl

end

/-! ## The labels of voice slots (R50, R56) -/

section
variable {n : Node} {p k cap : Nat} {r : Phone} {v : List VoiceSlot} (h : n.phone p = some r) (hk : r.slot = some k)
  (hrun : r.labelRun ≠ 8) (hs : r.state = .alerting ∨ r.state = .connected ∨ r.state = .ringing)
include h hk hrun hs

theorem Node.labelCheck_reads : Node.labelCheck cap (n, v) p =
    match (if k ≤ cap then nth v k else none) with
    | none => (n.onPhone p fun r => { r with labelRun := r.labelRun + 1, hears := .silence }, v)
    | some u =>
      let agrees := decide (r.call = some u.label)
      let m := n.onPhone p fun q =>
        { q with labelRun := if agrees then 0 else q.labelRun + 1
                 hears := if PhoneState.talks q.state then u.down else q.hears }
      let m := if agrees && u.connected && decide (r.state = .alerting) then
          m.movePhone p .connected fun r => { r with timer := none }
        else m
      let writes := PhoneState.talks r.state && decide ((if agrees then 0 else r.labelRun + 1) < Config.alignRun)
      (m, if writes then put v k { u with up := .phone m.me p } else v) := by
  have hreads : PhoneState.readsLabel r.state = true := by rcases hs with hs | hs | hs <;> (rw [hs]; rfl)
  have hnot : ¬ r.labelRun = Config.alignRun := hrun
  simp only [Node.labelCheck, h, hk, hreads, if_neg hnot] <;> rfl

theorem Node.labelCheck_absent (hno : cap < k ∨ nth v k = none) : Node.labelCheck cap (n, v) p =
    (n.onPhone p fun r => { r with labelRun := r.labelRun + 1, hears := .silence }, v) := by
  have hnone : (if k ≤ cap then nth v k else none) = none := by
    rcases hno with hno | hno
    · exact if_neg (Nat.not_le.2 hno)
    · rw [hno, ite_self]
  rw [Node.labelCheck_reads h hk hrun hs, hnone]

end

/-- A change of a record is what it does to the record that stands there. -/
theorem Node.onPhone_congr {n : Node} {p : Nat} {r : Phone} (h : n.phone p = some r) {f g : Phone → Phone}
    (e : f r = g r) : n.onPhone p f = n.onPhone p g :=
  congrArg (fun l => { n with call := { n.call with phones := l } }) (change_congr h e)

theorem Node.onPhone_onPhone (n : Node) (p : Nat) (f g : Phone → Phone) :
    (n.onPhone p f).onPhone p g = n.onPhone p (g ∘ f) :=
  congrArg (fun l => { n with call := { n.call with phones := l } }) (change_change g f n.call.phones p)

section
variable {n : Node} {p k cap : Nat} {r : Phone} {v : List VoiceSlot} {u : VoiceSlot} (h : n.phone p = some r)
  (hk : r.slot = some k) (hrun : r.labelRun ≠ 8) (hcap : k ≤ cap) (hu : nth v k = some u)
include h hk hrun hcap hu

/-- R56: the label agrees and the connected mark takes the record to CONNECTED. -/
theorem Node.labelCheck_connects (hs : r.state = .alerting) (hc : r.call = some u.label) (hm : u.connected = true) :
    Node.labelCheck cap (n, v) p =
      ((n.onPhone p fun r => { r with state := .connected, labelRun := 0, timer := none, hears := u.down }).post
        .phoneState (.voicePort p) [.phone .alerting, .phone .connected], put v k { u with up := .phone n.me p }) := by
  rw [Node.labelCheck_reads h hk hrun (.inl hs), if_pos hcap, hu]
  simp only [hc, decide_true, hm, hs, Bool.and_self, if_true]
  have hphone := Node.phone_onPhone h fun q =>
    { q with labelRun := 0, hears := if PhoneState.talks q.state = true then u.down else q.hears }
  generalize hmid : (n.onPhone p fun q =>
    { q with labelRun := 0, hears := if PhoneState.talks q.state = true then u.down else q.hears }) = m at hphone ⊢
  have hmoved := Node.movePhone_connects hphone hs
  have hme : (m.movePhone p .connected fun r => { r with timer := none }).me = n.me := by
    rw [← hmid]
    exact ((Node.PhoneStep.onPhone (p := p) n _).trans (.movePhone ..)).me
  rw [hme, hmoved, ← hmid, Node.onPhone_onPhone, show Phone.state _ = PhoneState.alerting from hs]
  rw [Node.onPhone_congr h (g := fun r =>
    { r with state := .connected, labelRun := 0, timer := none, hears := u.down }) ?_]
  · rfl
  · simp only [Function.comp_apply, hs, PhoneState.talks, if_true]

/-- R56: what a slot whose label is read does to the record and to the slots, where it does not connect. -/
theorem Node.labelCheck_stays (hs : r.state = .alerting ∨ r.state = .connected ∨ r.state = .ringing)
    (hno : r.call = some u.label → r.state = .alerting → u.connected = false) {run : Nat} {hears : Audio}
    {writes : Bool} (hrun' : run = if r.call = some u.label then 0 else r.labelRun + 1)
    (hhears : hears = if r.state = .ringing then r.hears else u.down)
    (hwrites : writes = (decide (r.state ≠ .ringing) && decide (run < 8))) :
    Node.labelCheck cap (n, v) p = (n.onPhone p fun r => { r with labelRun := run, hears := hears },
      if writes then put v k { u with up := .phone n.me p } else v) := by
  have htalks : PhoneState.talks r.state = decide (r.state ≠ .ringing) := by
    rcases hs with hs | hs | hs <;> (rw [hs]; rfl)
  have hmark : (decide (r.call = some u.label) && u.connected && decide (r.state = .alerting)) = false := by
    by_cases hc : r.call = some u.label
    · by_cases ha : r.state = .alerting
      · rw [hno hc ha]; simp
      · simp [ha]
    · simp [hc]
  rw [Node.labelCheck_reads h hk hrun hs, if_pos hcap, hu]
  simp only [hmark, Bool.false_eq_true, if_false, decide_eq_true_eq, ← hrun', htalks]
  have hsame : (n.onPhone p fun q => { q with
        labelRun := if r.call = some u.label then 0 else q.labelRun + 1
        hears := if PhoneState.talks q.state = true then u.down else q.hears }) =
      n.onPhone p fun r => { r with labelRun := run, hears := hears } := by
    refine Node.onPhone_congr h ?_
    rw [hrun', hhears, htalks]
    by_cases hr : r.state = .ringing <;> simp [hr]
  rw [hsame, hwrites]
  rfl

end

/-- Settles O29: the two messages and the label run by the record's state, the passage by the slot and its label. -/
theorem callsClearAtWayside : Obligations.CallsClearAtWayside := by
  refine ⟨fun p call r s hphase hhead h => ?_, fun p call r s hphase hhead h hc hrun hs hhook => ?_,
    fun p call r s hphase hhead h hc hrun hs => ?_, fun p call r s hphase hhead h hc hrun hs hhook hoff => ?_,
    fun n p k cap r v h hk hrun hs => ⟨Node.labelCheck_absent h hk hrun hs, fun u hcap hu =>
      ⟨fun hc ha hm => Node.labelCheck_connects h hk hrun hcap hu ha hc hm, fun hc hst => ?_, fun hc hr => ?_,
       fun hc hr => ?_, fun hc hr => ?_⟩⟩⟩
  · intro got gotC cleared hang idle hung
    have hgot : got.phone p = some r := h
    have hgotC : gotC.phone p = some r := h
    have hcleared : cleared.phone p = some r := Node.phone_offerCleared hgot call
    have hclear {m : Node} (hm : got.takeClear p call = m) :
        exec (.callClearAtWayside p call) s = .next (s.settled m) := by
      rw [← hm]
      exact State.act_onMessage (f := fun n => n.takeClear p call) hphase hhead none (.callClear p (some call))
    have hclearC {m : Node} (hm : gotC.takeCleared p call = m) :
        exec (.callClearedAtWayside p call) s = .next (s.settled m) := by
      rw [← hm]
      exact State.act_onMessage (f := fun n => n.takeCleared p call) hphase hhead none (.callCleared p call)
    have hrests (hs : r.state = .ringing ∨ r.state = .clearing) : r.state ≠ .idle := by
      rcases hs with hs | hs <;> simp [hs]
    exact ⟨fun hs => hclear (Node.takeClear_requesting hgot call hs),
      fun hs hc => hclear (Node.takeClear_other hgot call hs hc),
      fun hs hc hhook => hclear (Node.takeClear_hangs hgot call hs hc hhook),
      fun hs hc hhook ht => hclear (Node.takeClear_hookRests hgot call hs hc hhook ht),
      fun hs hc => hclear (Node.takeClear_rests hgot call hs hc),
      fun hs hc => hclearC (Node.takeCleared_own hgotC call hs hc),
      fun hs hc hhook hoff => hclear ((Node.takeClear_rests hgot call hs hc).trans
        (Node.enterIdle_quiet hcleared (hrests hs) hhook hoff)),
      fun hs => hclear (Node.takeClear_idle hgot call hs),
      fun hs hc hhook hoff => hclearC ((Node.takeCleared_own hgotC call hs hc).trans
        (Node.enterIdle_quiet hgotC (hrests (.inr hs)) hhook hoff)),
      fun hs => hclearC (Node.takeCleared_other hgotC call hs)⟩
  · have hreads : PhoneState.readsLabel r.state = true := by rcases hs with hs | hs <;> (rw [hs]; rfl)
    refine (State.act_onRole hphase hhead).trans ?_
    rw [Node.labelLimit_reached h call hc hrun hreads, Node.takeClear_hangs h call (.inr hs) hc hhook]
    rfl
  · have hreads : PhoneState.readsLabel r.state = true := by rcases hs with hs | ⟨hs | hs, -⟩ <;> (rw [hs]; rfl)
    refine (State.act_onRole hphase hhead).trans ?_
    rw [Node.labelLimit_reached h call hc hrun hreads]
    rcases hs with hs | ⟨hs, hhook, ht⟩
    · rw [Node.takeClear_rests h call (.inl hs) hc]
      rfl
    · rw [Node.takeClear_hookRests h call (.inr hs) hc hhook ht]
      rfl
  · refine (State.act_onRole hphase hhead).trans ?_
    rw [Node.labelLimit_reached h call hc hrun (by rw [hs]; rfl), Node.takeClear_rests h call (.inl hs) hc,
      Node.enterIdle_quiet (Node.phone_offerCleared h call) (by rw [hs]; simp) hhook hoff, hs]
    rfl
  · refine (Node.labelCheck_stays h hk hrun hcap hu hs (fun _ ha => ?_) (if_pos hc).symm rfl rfl).trans ?_
    · exact hst.elim (fun hcon => by rw [ha] at hcon; cases hcon) (·.2)
    · rcases hst with hst | ⟨hst, -⟩ <;> simp [hst]
  · refine (Node.labelCheck_stays h hk hrun hcap hu hs (fun _ ha => by rw [ha] at hr; cases hr) (if_pos hc).symm rfl
      rfl).trans ?_
    rw [if_pos hr, Node.onPhone_congr h (g := fun r => { r with labelRun := 0 }) rfl]
    simp [hr]
  · refine (Node.labelCheck_stays h hk hrun hcap hu hs (fun hc' => absurd hc' hc) (if_neg hc).symm rfl rfl).trans ?_
    rw [if_neg hr, Node.onPhone_congr h (g := fun r => { r with labelRun := r.labelRun + 1, hears := u.down }) rfl]
    simp [hr]
  · refine (Node.labelCheck_stays h hk hrun hcap hu hs (fun hc' => absurd hc' hc) (if_neg hc).symm rfl rfl).trans ?_
    rw [if_pos hr, Node.onPhone_congr h (g := fun r => { r with labelRun := r.labelRun + 1 }) rfl]
    simp [hr]

end Sys2Proof.Machine

/-! SUPPORT. Replies on a tributary line (R101, R102, R104, R107), with O39. -/

namespace Sys2Proof.Machine

theorem Node.device_changed {n : Node} {d : Nat} {v : Device} (h : n.device d = some v) (f : Device → Device) :
    (n.onDevice d f).device d = some (f v) := by
  rw [Node.device_onDevice, h]
  rfl

/-- R107: what an answer makes of the record of a device in a state. -/
def Node.creditAnswer (n : Node) (d : Nat) (st : DevState) : Node :=
  if st = .silent then (n.onDevice d fun v => { v with miss := 0, state := .present }).post .deviceState (.device d)
    [.dev .silent, .dev .present, .devCause .answered]
  else if st = .restarting ∨ st = .joining ∨ st = .absent then n
  else n.onDevice d fun v => { v with miss := 0 }

theorem DevState.missExempt_iff (st : DevState) :
    DevState.missExempt st = true ↔ st = .restarting ∨ st = .joining ∨ st = .absent := by
  cases st <;> simp [DevState.missExempt]

theorem Node.missAnswered_eq {n : Node} {d : Nat} {v : Device} (h : n.device d = some v) :
    n.missAnswered d = n.creditAnswer d v.state := by
  unfold Node.creditAnswer
  by_cases hs : v.state = .silent
  · have hexempt : DevState.missExempt v.state = false := by rw [hs]; rfl
    simp only [Node.missAnswered, h, hexempt, Bool.false_eq_true, if_false, if_pos hs]
    have hmove (m : Node) : m.moveDevice d .silent .present .answered id = (m.onDevice d fun v =>
        { v with state := .present, attachWaiting := v.attachWaiting && true }).post .deviceState (.device d)
        [.dev .silent, .dev .present, .devCause .answered] := rfl
    rw [hmove, Node.onDevice_onDevice]
    simp only [Function.comp_def, Bool.and_true]
  · rw [if_neg hs]
    by_cases hx : v.state = .restarting ∨ v.state = .joining ∨ v.state = .absent
    · simp only [Node.missAnswered, h, (DevState.missExempt_iff _).2 hx, if_true, if_pos hx]
    · have hexempt : DevState.missExempt v.state = false := by
        rw [Bool.eq_false_iff]
        exact fun hb => hx ((DevState.missExempt_iff _).1 hb)
      simp only [Node.missAnswered, h, hexempt, Bool.false_eq_true, if_false, if_neg hs, if_neg hx]

/-- R102: the node with the status of an answered exchange kept. -/
def Node.statusKept (n : Node) (d : Nat) (st : DeviceStatus) : Node :=
  n.onDevice d fun v => { v with exchange := none, status := some (st, n.svc.time) }

/-- R101, R102, R107: a STATUS exchange of a weather station ends ANSWERED. -/
theorem Node.answered_status {n : Node} {d : Nat} {v : Device} {e : Exchange} (h : n.device d = some v)
    (hk : e.kind = .status) (hw : n.set.kindOf d = .weather) (st : DeviceStatus) :
    n.answered d v e (.status st) = ((n.statusKept d st).creditAnswer d v.state).endPoll d e .done := by
  have hkept : (n.freeLine d).handReply d v e (.status st) = n.statusKept d st := by
    have hkind : ¬ n.set.kindOf d = .sign := by rw [hw]; simp
    refine (if_neg hkind).trans ?_
    exact Node.onDevice_onDevice ..
  have hdevice : (n.statusKept d st).device d = some { v with exchange := none, status := some (st, n.svc.time) } :=
    Node.device_changed h _
  unfold Node.answered
  rw [hkept]
  simp only [hk, reduceCtorEq, if_false]
  rw [Node.missAnswered_eq hdevice]

theorem Node.creditAnswer_cmd (n : Node) (d : Nat) (st : DevState) : (n.creditAnswer d st).cmd = n.cmd := by
  unfold Node.creditAnswer
  split
  · rfl
  · split <;> rfl

/-! ## A reply on a line (R101) -/

section
variable {n : Node} {l d : Nat} {v : Device} (hl : n.set.deviceOn l = some d) (h : n.device d = some v)
include hl h

theorem Node.lineReply_whole {k : Nat} {c : ReplyContent} (hc : ReplyContent.overlong c = false) :
    n.lineReply l (.whole k c) = match v.exchange with
      | some e => if e.number = k ∧ e.kind = c.kind then n.answered d v e c
          else n.onLine l fun k => { k with stray := bump 65535 k.stray }
      | none => n.onLine l fun k => { k with stray := bump 65535 k.stray } := by
  simp only [Node.lineReply, hc, hl, h, Bool.false_eq_true, if_false, Option.bind_some, Option.map_some]
  rfl

theorem Node.lineReply_stray {k : Nat} {c : ReplyContent} (hc : c.kind ≠ .tollOffer)
    (hno : ∀ e, v.exchange = some e → e.number ≠ k ∨ e.kind ≠ c.kind) :
    n.lineReply l (.whole k c) = n.onLine l fun k => { k with stray := bump 65535 k.stray } := by
  have hshort : ReplyContent.overlong c = false := by
    cases c with
    | records r => exact absurd rfl hc
    | _ => rfl
  rw [Node.lineReply_whole hl h hshort]
  cases he : v.exchange with
  | none => rfl
  | some e => exact if_neg fun hb => (hno e he).elim (· hb.1) (· hb.2)

theorem Node.lineReply_status {e : Exchange} (he : v.exchange = some e) (hk : e.kind = .status)
    (hw : n.set.kindOf d = .weather) (st : DeviceStatus) :
    n.lineReply l (.whole e.number (.status st)) =
      ((n.statusKept d st).creditAnswer d v.state).endPoll d e .done := by
  rw [Node.lineReply_whole hl h rfl, he]
  exact (if_pos ⟨rfl, hk⟩).trans (Node.answered_status h hk hw st)

end

theorem Node.endPoll_other (n : Node) (d : Nat) {e : Exchange} (st : Status) (h : ∀ o, e.asker ≠ .command o) :
    n.endPoll d e st = n := by
  unfold Node.endPoll
  split
  · next o ho => exact absurd ho (h o)
  · rfl

theorem Node.endPoll_command {n : Node} {d : Nat} {e : Exchange} {o : Origin} {p : InProgress} (st : Status)
    (h : e.asker = .command o) (hp : n.cmd.channel o = some p) :
    n.endPoll d e st = (n.onCmd fun k => k.setChannel o none).replyTo o (.command p.cmd) st
      (if st = .wrongState then .nil else n.deviceReport d) := by
  simp only [Node.endPoll, h]
  exact Node.endCommand_channel hp ..

/-- Settles O39: a reply that fails its check, a stray one, a status that answers, and a poll that a command asked for. -/
theorem repliesOnLines : Obligations.RepliesOnLines := by
  intro l d v s hphase hhead hl h n
  have hrun {r : LineReply} {m : Node} (hm : n.lineReply l r = m) :
      exec (.exchangeReply l r) s = .next (s.settled m) := by
    rw [← hm]
    exact State.act_onRole hphase hhead
  refine ⟨hrun rfl, fun k c hc hno => hrun (Node.lineReply_stray hl h hc hno), fun e st he hk hw => ?_,
    fun m e c o p ha htaken => (Node.answered_command ha).trans (Node.endCommand_channel htaken ..)⟩
  · intro run kept back m
    have hm : (n.statusKept d st).creditAnswer d v.state = m := by
      unfold Node.creditAnswer Node.statusKept
      by_cases hs : v.state = .silent
      · simp only [m, if_pos hs, Node.onDevice_onDevice]
        rfl
      · by_cases hx : v.state = .restarting ∨ v.state = .joining ∨ v.state = .absent
        · simp only [m, if_neg hs, if_pos hx]
          rfl
        · simp only [m, if_neg hs, if_neg hx, Node.onDevice_onDevice]
          rfl
    have hcmd : m.cmd = n.cmd := by rw [← hm]; exact Node.creditAnswer_cmd ..
    have hreply := Node.lineReply_status hl h he hk hw st
    rw [hm] at hreply
    clear_value m
    refine ⟨fun ha => hrun (hreply.trans (Node.endPoll_other _ _ _ ha)), fun o p ha hp => ?_⟩
    exact hrun (hreply.trans (Node.endPoll_command .done ha (by rw [hcmd]; exact hp)))

end Sys2Proof.Machine

/-! SUPPORT. The reply timer of a tributary line (R101, R105, R107) and how exchanges end (R83, R104), with O40. -/

namespace Sys2Proof.Machine

theorem DevState.closesSegment_iff (st : DevState) : DevState.closesSegment st = true ↔
    st = .failed ∨ st = .absent ∨ st = .unused ∨ st = .wrongKind := by
  cases st <;> simp [DevState.closesSegment]

theorem DevState.polled_iff (st : DevState) : DevState.polled st = true ↔ st = .present ∨ st = .silent := by
  cases st <;> simp [DevState.polled]

/-! ## What an unanswered exchange makes of its device (R105, R107) -/

/-- R105: an IDENTIFY is given up. -/
theorem Node.identifyUnanswered_joining {n : Node} {d : Nat} {v : Device} (h : n.device d = some v)
    (hs : v.state = .joining) :
    n.identifyUnanswered d =
      let back := v.joinOrigin.getD .joining
      let m := n.onDevice d fun v => { v with state := back, joinOrigin := none, joinDue := n.dueLater d }
      if back = .absent ∨ back = .failed ∨ back = .unused ∨ back = .wrongKind then
        m.onSvc fun w => w.closeOpen d .device else m := by
  have hclose : (back : DevState) → (DevState.closesSegment back = true ↔
      back = .absent ∨ back = .failed ∨ back = .unused ∨ back = .wrongKind) := fun back => by
    cases back <;> simp [DevState.closesSegment]
  simp only [Node.identifyUnanswered, h, hs, reduceCtorEq, if_false, hclose]

section
variable {n : Node} {d : Nat} {v : Device} (h : n.device d = some v)
include h

theorem Node.missUnanswered_exempt (hs : v.state = .restarting ∨ v.state = .joining ∨ v.state = .absent) :
    n.missUnanswered d = n := by
  simp only [Node.missUnanswered, h, (DevState.missExempt_iff _).2 hs, if_true]

theorem Node.missUnanswered_counts (hs : v.state = .present ∨ v.state = .silent) :
    n.missUnanswered d =
      let m := min 10 (v.miss + 1)
      let k := n.onDevice d fun v => { v with miss := m }
      if m = 10 then k.moveDevice d v.state .failed .misses fun v => { v with joinDue := n.dueLater d }
      else if v.state = .present ∧ 3 ≤ m then k.moveDevice d .present .silent .misses id
      else k := by
  have hexempt : DevState.missExempt v.state = false := by rcases hs with hs | hs <;> (rw [hs]; rfl)
  simp only [Node.missUnanswered, h, hexempt, Bool.false_eq_true, if_false]
  rfl

/-- R107: a miss that changes no state. -/
theorem Node.missUnanswered_stays (hs : v.state = .present ∧ v.miss < 2 ∨ v.state = .silent ∧ v.miss < 9) :
    n.missUnanswered d = n.onDevice d fun v => { v with miss := v.miss + 1 } := by
  have hboth : v.state = .present ∨ v.state = .silent := hs.imp And.left And.left
  have hmin : min 10 (v.miss + 1) = v.miss + 1 := by omega
  have hno : ¬(v.state = .present ∧ 3 ≤ v.miss + 1) := by
    rintro ⟨hp, hm⟩
    rcases hs with hs | hs
    · omega
    · rw [hp] at hs; simp at hs
  rw [Node.missUnanswered_counts h hboth]
  dsimp only
  rw [hmin, if_neg (by omega), if_neg hno]
  exact Node.onDevice_congr h rfl

/-- R107: the third miss makes a PRESENT device SILENT. -/
theorem Node.missUnanswered_silent (hs : v.state = .present) (h2 : 2 ≤ v.miss) (h9 : v.miss < 9) :
    n.missUnanswered d = (n.onDevice d fun v => { v with miss := v.miss + 1, state := .silent }).post .deviceState
      (.device d) [.dev .present, .dev .silent, .devCause .misses] := by
  have hmin : min 10 (v.miss + 1) = v.miss + 1 := by omega
  have hmove (m : Node) : m.moveDevice d .present .silent .misses id = (m.onDevice d fun v =>
      { v with state := .silent, attachWaiting := v.attachWaiting && true }).post .deviceState (.device d)
      [.dev .present, .dev .silent, .devCause .misses] := rfl
  rw [Node.missUnanswered_counts h (.inl hs)]
  dsimp only
  rw [hmin, if_neg (by omega), if_pos ⟨hs, by omega⟩, hmove, Node.onDevice_onDevice]
  rw [Node.onDevice_congr h (g := fun v => { v with miss := v.miss + 1, state := .silent })
    (by simp only [Function.comp_apply, Bool.and_true])]

/-- R107: the tenth miss makes a device FAILED. -/
theorem Node.missUnanswered_failed (hs : v.state = .present ∨ v.state = .silent) (h9 : 9 ≤ v.miss)
    (hc : v.commands = []) :
    n.missUnanswered d = ((n.onDevice d fun v =>
      { v with miss := 10, state := .failed, joinDue := n.dueLater d, attachWaiting := false }).post .deviceState
      (.device d) [.dev v.state, .dev .failed, .devCause .misses]).onSvc fun w => w.closeOpen d .device := by
  have hmin : min 10 (v.miss + 1) = 10 := by omega
  rw [Node.missUnanswered_counts h hs]
  dsimp only
  rw [hmin, if_pos rfl, Node.moveDevice_leaves _ _ _ _ _ _ rfl]
  dsimp only
  rw [if_pos (show DevState.closesSegment .failed = true from rfl), Node.onDevice_onDevice]
  refine Node.emptyCommands_nil (v := { v with
    miss := 10, state := .failed, joinDue := n.dueLater d, attachWaiting := false }) ?_ hc
  exact Node.device_changed h _

end

/-! ## The reply timer (R101) -/

/-- R101: the line's count of an exchange that ends UNANSWERED, and its page load's end. -/
def Node.missed (n : Node) (l d : Nat) (e : Exchange) : Node :=
  let m := n.onLine l fun k => { k with unanswered := bump 65535 k.unanswered }
  if e.kind = .pageLoad then m.onZone (loadEnds d .unanswered) else m

theorem Node.missed_rest (n : Node) (l d : Nat) (e : Exchange) :
    (n.missed l d e).device d = n.device d ∧ (n.missed l d e).cmd = n.cmd ∧ (n.missed l d e).dueLater d = n.dueLater d := by
  unfold Node.missed
  dsimp only
  split
  · have hk := keeps_loadEnds d .unanswered (n.svc, n.zone)
    refine ⟨rfl, rfl, ?_⟩
    have hset : ((n.onLine l fun k => { k with unanswered := bump 65535 k.unanswered }).onZone
        (loadEnds d .unanswered)).set = n.set := hk.settings
    have hnow : ((n.onLine l fun k => { k with unanswered := bump 65535 k.unanswered }).onZone
        (loadEnds d .unanswered)).svc.now = n.svc.now := hk.now
    rw [Node.dueLater, Node.dueLater, hset, hnow]
  · exact ⟨rfl, rfl, rfl⟩

section
variable {n : Node} {l d : Nat} {v : Device} {e : Exchange} (hl : n.set.deviceOn l = some d)
  (h : n.device d = some v) (he : v.exchange = some e)
include hl h he

theorem Node.replyTimeout_early (hd : n.svc.now < e.deadline) : n.replyTimeout l = n := by
  simp only [Node.replyTimeout, hl, h, he, if_pos hd]

theorem Node.replyTimeout_repeats (hd : e.deadline ≤ n.svc.now) (ha : e.attempt ≤ e.retries) :
    n.replyTimeout l = (n.onDevice d fun v => { v with
        exchange := some { e with attempt := e.attempt + 1, deadline := n.svc.now + e.timeout * 4 } }).onLine l
      fun k => { k with repeats := bump 65535 k.repeats } := by
  simp only [Node.replyTimeout, hl, h, he, if_neg (Nat.not_lt.2 hd), if_pos ha]
  rfl

section
variable (hd : e.deadline ≤ n.svc.now) (ha : e.retries < e.attempt)
include hd ha

theorem Node.replyTimeout_ends : n.replyTimeout l =
    (n.onLine l fun k => { k with unanswered := bump 65535 k.unanswered }).unanswered d e := by
  simp only [Node.replyTimeout, hl, h, he, if_neg (Nat.not_lt.2 hd), if_neg (Nat.not_le.2 ha)]
  rfl

/-- R105: an IDENTIFY that a join asked for ends UNANSWERED. -/
theorem Node.replyTimeout_identify (hj : e.asker = .join) (hk : e.kind = .identify) (hs : v.state = .joining) :
    n.replyTimeout l =
      let back := v.joinOrigin.getD .joining
      let m := (n.missed l d e).onDevice d fun v =>
        { v with exchange := none, state := back, joinOrigin := none, joinDue := n.dueLater d }
      if back = .absent ∨ back = .failed ∨ back = .unused ∨ back = .wrongKind then
        m.onSvc fun w => w.closeOpen d .device else m := by
  have hfree : (n.missed l d e) = n.onLine l fun k => { k with unanswered := bump 65535 k.unanswered } := by
    simp only [Node.missed, hk, reduceCtorEq, if_false]
  rw [Node.replyTimeout_ends hl h he hd ha, Node.unanswered, hk, ← hfree]
  dsimp only
  obtain ⟨hdevice, -, hlater⟩ := n.missed_rest l d e
  have hlater' : ((n.missed l d e).onDevice d fun v => { v with exchange := none }).dueLater d = n.dueLater d := hlater
  rw [Node.endPoll_other _ _ _ (by simp [hj]), Node.freeLine,
    Node.identifyUnanswered_joining (Node.device_changed (hdevice.trans h) _) hs, hlater']
  dsimp only
  rw [Node.onDevice_onDevice]
  rfl

/-- R101, R107: any other exchange that ends UNANSWERED. -/
theorem Node.replyTimeout_other (hk : e.kind ≠ .identify) :
    n.replyTimeout l = (((n.missed l d e).freeLine d).missUnanswered d).endPoll d e .timeout := by
  rw [Node.replyTimeout_ends hl h he hd ha, Node.unanswered, Node.missed]
  cases hkind : e.kind with
  | identify => exact absurd hkind hk
  | pageLoad => rfl
  | status => rfl
  | sample => rfl
  | tollOffer => rfl

end

end

/-- R104: how the party that asked is told of an exchange that ends UNANSWERED. -/
theorem exec_replyTimeout_ends {s : State} {l d : Nat} {e : Exchange} (hphase : s.node.phase = .started)
    (hhead : s.node.isHead = false) {m : Node} (hm : s.node.replyTimeout l = m.endPoll d e .timeout)
    (hcmd : m.cmd = s.node.cmd) :
    ((∀ o, e.asker ≠ .command o) → exec (.replyTimeout l) s = .next (s.settled m)) ∧
    (∀ o p, e.asker = .command o → s.node.cmd.channel o = some p → exec (.replyTimeout l) s = .next (s.replied
      (m.onCmd fun k => k.setChannel o none) o p.cmd .timeout (m.deviceReport d))) := by
  have hrun : exec (.replyTimeout l) s = .next (s.settled (s.node.replyTimeout l)) := State.act_onRole hphase hhead
  refine ⟨fun ha => ?_, fun o p ha hp => ?_⟩
  · rw [hrun, hm, Node.endPoll_other _ _ _ ha]
  · rw [hrun, hm, Node.endPoll_command .timeout ha (by rw [hcmd]; exact hp)]
    rfl

/-- R101, R107: a timer that ends an exchange other than IDENTIFY, by what the miss makes of the device. -/
theorem exec_replyTimeout_missed {s : State} {l d : Nat} {v : Device} {e : Exchange} (hphase : s.node.phase = .started)
    (hhead : s.node.isHead = false) (hl : s.node.set.deviceOn l = some d) (h : s.node.device d = some v)
    (he : v.exchange = some e) (hd : e.deadline ≤ s.node.svc.now) (ha : e.retries < e.attempt)
    (hk : e.kind ≠ .identify) {m : Node} (hm : ((s.node.missed l d e).freeLine d).missUnanswered d = m)
    (hcmd : m.cmd = (s.node.missed l d e).cmd) :
    ((∀ o, e.asker ≠ .command o) → exec (.replyTimeout l) s = .next (s.settled m)) ∧
    (∀ o p, e.asker = .command o → s.node.cmd.channel o = some p → exec (.replyTimeout l) s = .next (s.replied
      (m.onCmd fun k => k.setChannel o none) o p.cmd .timeout (m.deviceReport d))) := by
  refine exec_replyTimeout_ends hphase hhead ?_ (hcmd.trans (s.node.missed_rest l d e).2.1)
  rw [Node.replyTimeout_other hl h he hd ha hk, hm]

/-! ## How a page load ends (R82, R83) -/

/-- R83: the load attempts after a load's end. -/
def Sign.attemptsAfter (g : Sign) (o : LoadOutcome) (l : Load) : Nat :=
  if g.wanted.map Prod.fst = some l.id then
    match o with
    | .confirmed => 0
    | .abandoned => g.attempts
    | .refused => min 3 (g.attempts + 1)
    | .unanswered => min 3 (g.attempts + 1)
  else g.attempts

/-- R82: the shown page after a load's end. -/
def Sign.shownAfter (g : Sign) (o : LoadOutcome) (l : Load) : Option Nat :=
  match o with
  | .confirmed => some l.id
  | .abandoned => none
  | .refused => g.shown
  | .unanswered => g.shown

/-- R82, R83: a sign record after its load's end. -/
def Sign.loaded (g : Sign) (o : LoadOutcome) (l : Load) : Sign :=
  let fault := g.fault || decide (g.attemptsAfter o l = 3)
  { g with load := none, deferred := 0, shown := g.shownAfter o l, attempts := g.attemptsAfter o l, fault := fault,
           state := if fault then .fault else g.state }

theorem loadEnds_sign {d : Nat} {o : LoadOutcome} {g : Sign} {l : Load} {x : ZoneSt} (hg : x.2.sign d = some g)
    (hl : g.load = some l) :
    (loadEnds d o x).2.sign d = some (g.loaded o l) ∧ ∀ k, k ≠ d → (loadEnds d o x).2.sign k = x.2.sign k := by
  have hsign : (loadEnds d o x).2 = x.2.changeSign d fun q =>
      { q with load := none, deferred := 0, shown := (g.loaded o l).shown, attempts := (g.loaded o l).attempts,
               fault := (g.loaded o l).fault, state := if (g.loaded o l).fault then .fault else q.state } := by
    simp only [loadEnds, hg, hl]
    unfold Sign.loaded Sign.attemptsAfter Sign.shownAfter
    cases o <;> by_cases hw : g.wanted.map Prod.fst = some l.id <;> simp [hw]
  rw [hsign]
  refine ⟨?_, fun k hk => Zone.sign_changeSign_other _ _ hk⟩
  rw [Zone.sign_changeSign_same, hg]
  rfl

/-- Settles O40: the timer by the attempt and the device's state, the other ends of an exchange, and the load's end. -/
theorem replyTimerExpires : Obligations.ReplyTimerExpires := by
  refine ⟨fun l d v e s hphase hhead hl h he => ?_, fun n d v e h => ?_, fun l s hphase hhead hl => ?_,
    fun d o g l x hg hload => ?_⟩
  · have hrun {m : Node} (hm : s.node.replyTimeout l = m) : exec (.replyTimeout l) s = .next (s.settled m) := by
      rw [← hm]
      exact State.act_onRole hphase hhead
    obtain ⟨hdevice, -, hlater⟩ := s.node.missed_rest l d e
    have hfree : ((s.node.missed l d e).freeLine d).device d = some { v with exchange := none } :=
      Node.device_changed (hdevice.trans h) _
    refine ⟨fun hd => hrun (Node.replyTimeout_early hl h he hd), fun hd ha => hrun (Node.replyTimeout_repeats hl h he hd ha),
      fun hd ha hj hk hs => hrun (Node.replyTimeout_identify hl h he hd ha hj hk hs), fun hd ha hk => ⟨fun hs => ?_,
      fun hs h2 h9 => ?_, fun hs h9 hc => ?_, fun hs => ?_⟩⟩
    · refine exec_replyTimeout_missed hphase hhead hl h he hd ha hk ?_ rfl
      rw [Node.missUnanswered_stays hfree hs, Node.freeLine, Node.onDevice_onDevice]
      exact Node.onDevice_congr (hdevice.trans h) rfl
    · refine exec_replyTimeout_missed hphase hhead hl h he hd ha hk ?_ rfl
      rw [Node.missUnanswered_silent hfree hs h2 h9, Node.freeLine, Node.onDevice_onDevice, ← hs]
      exact congrArg (fun m : Node => m.post .deviceState (.device d) [.dev v.state, .dev .silent, .devCause .misses])
        (Node.onDevice_congr (hdevice.trans h) rfl)
    · refine exec_replyTimeout_missed hphase hhead hl h he hd ha hk ?_ rfl
      have hlater' : ((s.node.missed l d e).freeLine d).dueLater d = s.node.dueLater d := hlater
      rw [Node.missUnanswered_failed hfree hs h9 hc, hlater', Node.freeLine, Node.onDevice_onDevice]
      rfl
    · refine exec_replyTimeout_missed hphase hhead hl h he hd ha hk ?_ rfl
      rw [Node.missUnanswered_exempt hfree hs]
      rfl
  · intro free answered
    have hfree : n.freeLine d = free := rfl
    refine ⟨fun hk ha => ?_, fun hk o p ha hp => ?_, fun w rest o p hw ho hp => ?_, fun hc => Node.emptyCommands_nil h hc,
      fun old new c f hpres hsil => ?_, fun o p ha hp => (Node.unanswered_command ha).trans (Node.endCommand_channel hp ..)⟩
    · rw [Node.abandon, if_neg hk]
      exact Node.endPoll_other _ _ _ ha
    · rw [Node.abandon, if_neg hk]
      exact Node.endPoll_command .wrongState ha hp
    · rw [Node.emptyCommands_cons h hw, ho]
      exact congrArg (fun m => Node.emptyCommands m d) (Node.endCommand_channel (by exact hp) ..)
    · have hpolled : DevState.polled new = false := by
        rw [Bool.eq_false_iff]
        exact fun hb => ((DevState.polled_iff new).1 hb).elim hpres hsil
      rw [Node.moveDevice_leaves _ _ _ _ _ _ hpolled]
      simp only [DevState.closesSegment_iff]
  · refine (State.act_onRole hphase hhead).trans ?_
    simp only [Node.replyTimeout, hl]
  · obtain ⟨hsign, hothers⟩ := loadEnds_sign (o := o) hg hload
    refine ⟨_, hsign, rfl, rfl, rfl, rfl, rfl, hothers, ?_, ?_, ?_, fun hw => ⟨?_, ?_⟩, ?_⟩
    · rintro rfl
      rfl
    · rintro rfl
      rfl
    · rintro (rfl | rfl) <;> rfl
    · rintro rfl
      simp [Sign.loaded, Sign.attemptsAfter, hw]
    · intro ho
      have hatt : g.attemptsAfter o l = min 3 (g.attempts + 1) := by
        rcases ho with rfl | rfl <;> simp [Sign.attemptsAfter, hw]
      refine ⟨hatt, fun h2 => ?_⟩
      have h3 : g.attemptsAfter o l = 3 := by rw [hatt]; omega
      simp [Sign.loaded, h3]
    · rintro (rfl | hw)
      · simp [Sign.loaded, Sign.attemptsAfter]
      · simp [Sign.loaded, Sign.attemptsAfter, hw]

end Sys2Proof.Machine

/-! SUPPORT. What a free tributary line begins (R103–R110, R121), with O41. -/

namespace Sys2Proof.Machine

/-! ## No entry due -/

theorem Node.skipEntry_notDue {n : Node} (h : ∀ e r, nth n.trib.roster e = some r → r.since = none) (d : Nat)
    (v : Device) (e : Nat) : Node.skipEntry d v n e = n := by
  unfold Node.skipEntry
  split
  · next heq => exact absurd (h e _ heq) (by simp)
  · rfl

theorem Node.skipRoster_notDue {n : Node} (h : ∀ e r, nth n.trib.roster e = some r → r.since = none) (d : Nat)
    (v : Device) : n.skipRoster d v = n := by
  rw [Node.skipRoster_eq]
  exact List.foldl_fixed' (Node.skipEntry_notDue h d v) _

/-! ## The poll chosen (R109) -/

/-- R109: an entry 1 to 16 of a device, due since a moment. -/
def Node.pollAt (n : Node) (d e : Nat) (x : RosterSpec) (t : Nat) : Prop := e ∈ places 16 ∧ n.dueFor d e x t

/-- R109: the entry that is polled. -/
theorem Node.duePoll_some_iff (n : Node) (d e : Nat) (x : RosterSpec) :
    n.duePoll d = some (e, x) ↔ ∃ t, n.pollAt d e x t ∧ ∀ f y b, n.pollAt d f y b → t < b ∨ (t = b ∧ e ≤ f) := by
  obtain ⟨best, hbest, hpoll⟩ := n.duePoll_best d
  rw [hpoll]
  cases best with
  | none =>
    refine ⟨fun h => by simp at h, ?_⟩
    rintro ⟨t, ⟨he, hdue⟩, -⟩
    exact absurd hdue (hbest e he x t)
  | some b =>
    obtain ⟨e', x', t'⟩ := b
    obtain ⟨he', hdue', hmin'⟩ := hbest
    constructor
    · intro h
      simp only [Option.map_some, Option.some.injEq, Prod.mk.injEq] at h
      obtain ⟨rfl, rfl⟩ := h
      exact ⟨t', ⟨he', hdue'⟩, fun f y b hf => hmin' f hf.1 y b hf.2⟩
    · rintro ⟨t, ⟨he, hdue⟩, hmin⟩
      have h1 := hmin e' x' t' ⟨he', hdue'⟩
      have h2 := hmin' e he x t hdue
      have hee : e' = e := by omega
      subst hee
      have hx : x' = x := Option.some.inj (hdue'.1.symm.trans hdue.1)
      rw [hx]
      rfl

theorem Node.duePoll_none_iff (n : Node) (d : Nat) : n.duePoll d = none ↔ ∀ e x t, ¬n.pollAt d e x t := by
  obtain ⟨best, hbest, hpoll⟩ := n.duePoll_best d
  rw [hpoll]
  cases best with
  | none => exact ⟨fun _ e x t h => hbest e h.1 x t h.2, fun _ => rfl⟩
  | some b =>
    obtain ⟨e', x', t'⟩ := b
    exact ⟨fun h => by simp at h, fun h => absurd ⟨hbest.1, hbest.2.1⟩ (h e' x' t')⟩

theorem Node.duePoll_notDue {n : Node} (h : ∀ e r, nth n.trib.roster e = some r → r.since = none) (d : Nat) :
    n.duePoll d = none := by
  refine (n.duePoll_none_iff d).2 ?_
  rintro e x t ⟨-, -, -, hsince⟩
  unfold Node.rosterSince at hsince
  obtain ⟨r, hr, ht⟩ := Option.bind_eq_some_iff.1 hsince
  rw [h e r hr] at ht
  cases ht

/-! ## The next exchange (R103) -/

section
variable {n : Node} {d l : Nat} {v : Device} {k : Line}

/-- R101: an exchange that begins on a line, whose number advances. -/
def Node.begun (n : Node) (l d : Nat) (k : Line) (kind : ExchKind) (asker : Asker) (request : Request) : Node :=
  (n.onLine l fun k => { k with number := (k.number + 1) % 256 }).onDevice d fun v => { v with
    exchange := some
      { kind := kind, number := (k.number + 1) % 256, attempt := 1, asker := asker, request := request,
        timeout := n.set.exchangeTimeout, retries := n.set.exchangeRetries,
        deadline := n.svc.now + n.set.exchangeTimeout * 4 } }

variable (hs : n.trib.started = true) (h : n.device d = some v) (he : v.exchange = none)
  (hl : n.set.lineOf d = some l) (hk : nth n.trib.lines l = some k)
include hs h he hl hk

/-- R103: what a free line does once the entries that may not be polled are skipped. -/
theorem Node.lookForWork_chooses : n.lookForWork d =
    match (n.skipRoster d v).standingLoad d v with
    | some (p, src) =>
      { (n.skipRoster d v).begun l d k .pageLoad .zone (.page p) with
        zone := n.zone.changeSign d fun g => { g with load := some { id := p.id, src := src } } }
    | none => (n.skipRoster d v).otherWork d l v := by
  have hline : nth (n.skipRoster d v).trib.lines l = some k := by rw [Node.lines_skipRoster]; exact hk
  rw [Node.lookForWork_free hs h he (by rw [Node.set_skipRoster]; exact hl), Node.zone_skipRoster]
  cases (n.skipRoster d v).standingLoad d v with
  | none => rfl
  | some x => exact congrArg (fun m : Node => ({ m with zone := _ } : Node)) (Node.beginExchange_eq hline ..)

theorem Node.lookForWork_loads {g : Sign} {p : Page} {src : PageSrc} (hp : v.state = .present)
    (hw : wantsLoad n.zone d = true) (hg : n.zone.sign d = some g) (hpage : wantedPage n.set g d = some (p, src)) :
    n.lookForWork d = { (n.skipRoster d v).begun l d k .pageLoad .zone (.page p) with
      zone := n.zone.changeSign d fun g => { g with load := some { id := p.id, src := src } } } := by
  have hload : (n.skipRoster d v).standingLoad d v = some (p, src) := by
    rw [Node.standingLoad, Node.zone_skipRoster, Node.set_skipRoster, if_pos ⟨hp, hw⟩, hg]
    exact hpage
  rw [Node.lookForWork_chooses hs h he hl hk, hload]

theorem Node.lookForWork_other (hno : v.state ≠ .present ∨ wantsLoad n.zone d = false) :
    n.lookForWork d = (n.skipRoster d v).otherWork d l v := by
  have hload : (n.skipRoster d v).standingLoad d v = none := by
    rw [Node.standingLoad, Node.zone_skipRoster, if_neg]
    rintro ⟨hp, hw⟩
    exact hno.elim (· hp) fun hf => Bool.false_ne_true (hf.symm.trans hw)
  rw [Node.lookForWork_chooses hs h he hl hk, hload]

end

section
variable {n : Node} {d l : Nat} {v : Device} {k : Line} (hk : nth n.trib.lines l = some k)
include hk

/-- R103 item 2: the oldest command exchange. -/
theorem Node.otherWork_command {w : Waiting} {rest : List Waiting} (hc : v.commands = w :: rest) :
    n.otherWork d l v = (n.begun l d k (PollKind.exchange w.poll) (.command w.origin)
      (n.pollRequest d v w.poll)).onDevice d fun v => { v with commands := rest } := by
  rw [Node.otherWork, hc]
  exact congrArg (fun m : Node => m.onDevice d fun v => { v with commands := rest }) (Node.beginExchange_eq hk ..)

/-- R103 item 3: the poll that is due. -/
theorem Node.otherWork_poll {e : Nat} {x : RosterSpec} (hc : v.commands = []) (hs : v.state = .present ∨ v.state = .silent)
    (hp : n.duePoll d = some (e, x)) : n.otherWork d l v =
      (n.begun l d k (PollKind.exchange x.kind) (.roster e) (n.pollRequest d v x.kind)).onRoster e fun _ =>
        { nextDue := some (n.svc.now + x.period * 400), since := none } := by
  rw [Node.otherWork, hc]
  dsimp only
  rw [if_pos ((DevState.polled_iff _).2 hs), hp]
  exact congrArg (fun m : Node => m.onRoster e fun _ => { nextDue := some (n.svc.now + x.period * 400), since := none })
    (Node.beginExchange_eq hk ..)

/-- R103, R105: a join. -/
theorem Node.otherWork_join (hc : v.commands = []) (hs : v.state = .absent ∨ v.state = .failed)
    (hd : due n.svc.now v.joinDue = true) : n.otherWork d l v =
      (n.begun l d k .identify .join .plain).onDevice d fun v =>
        { v with state := .joining, joinOrigin := some v.state, joinDue := none } := by
  have hpolled : ¬ DevState.polled v.state = true := fun hb => by
    rcases (DevState.polled_iff _).1 hb with hp | hp <;> rcases hs with hs | hs <;> (rw [hp] at hs; cases hs)
  rw [Node.otherWork, hc]
  dsimp only
  rw [if_neg hpolled]
  dsimp only
  rw [if_pos ⟨hs, hd⟩]
  exact congrArg (fun m : Node => m.onDevice d fun v =>
    { v with state := .joining, joinOrigin := some v.state, joinDue := none }) (Node.beginExchange_eq hk ..)

/-- R106, R107: with nothing ahead of it, a waiting attach STATUS is begun in PRESENT. -/
theorem Node.otherWork_attach (hc : v.commands = []) (hs : v.state = .present) (hp : n.duePoll d = none)
    (ha : v.attachWaiting = true) : n.otherWork d l v =
      (n.begun l d k .status .attach .plain).onDevice d fun v => { v with attachWaiting := false } := by
  rw [Node.otherWork, hc]
  dsimp only
  rw [if_pos ((DevState.polled_iff _).2 (.inl hs)), hp]
  dsimp only
  rw [if_neg (by simp [hs]), if_pos ⟨ha, hs⟩]
  exact congrArg (fun m : Node => m.onDevice d fun v => { v with attachWaiting := false }) (Node.beginExchange_eq hk ..)

end

/-- R103: with no command, no poll due, no join and no attach STATUS to begin, nothing begins. -/
theorem Node.otherWork_none {n : Node} {d l : Nat} {v : Device} (hc : v.commands = [])
    (hp : v.state = .present ∨ v.state = .silent → n.duePoll d = none) (hj : v.state ≠ .absent ∧ v.state ≠ .failed)
    (ha : v.attachWaiting = true → v.state ≠ .present) : n.otherWork d l v = n := by
  have hpoll : (if DevState.polled v.state then n.duePoll d else none) = none := by
    split
    · next hpol => exact hp ((DevState.polled_iff _).1 hpol)
    · rfl
  rw [Node.otherWork, hc]
  dsimp only
  rw [hpoll]
  dsimp only
  rw [if_neg (by simp [hj]), if_neg fun hb => ha hb.1 hb.2]

/-! ## DEVICE-STATUS with a poll (R121) -/

section
variable (n : Node) (o : Origin) {d : Nat}

theorem Node.devicePoll_bad {q : Option PollKind} (h : q = none ∨ d < 1 ∨ 8 < d) :
    n.devicePoll o d q = (n, some (.badArgument, .nil)) := by
  cases q with
  | none => rfl
  | some k => exact if_pos ((h.resolve_left (by simp)).elim .inl fun h8 => .inr (.inl h8))

variable {k : PollKind} (h1 : 1 ≤ d) (h8 : d ≤ 8)

theorem Node.devicePoll_unsuited (hk : PollKind.suits k (n.set.kindOf d) = false) :
    n.devicePoll o d (some k) = (n, some (.badArgument, .nil)) := if_pos (.inr (.inr hk))

include h1 h8

theorem Node.devicePoll_suited {v : Device} (hk : PollKind.suits k (n.set.kindOf d) = true) (h : n.device d = some v) :
    n.devicePoll o d (some k) = if DevState.polled v.state then
        (n.onDevice d fun v => { v with commands := v.commands ++ [{ origin := o, poll := k }] }, none)
      else (n, some (.wrongState, .nil)) := by
  have hgood : ¬(d < 1 ∨ 8 < d ∨ PollKind.suits k (n.set.kindOf d) = false) := by
    rw [hk]
    simp
    omega
  simp only [Node.devicePoll, if_neg hgood, h]

end

/-- R121: a poll that is refused. -/
theorem exec_deviceStatusPoll_refused {s : State} {o : Origin} {d : Nat} {q : Option PollKind}
    (h : Takes s o (.deviceStatusPoll d q)) {st : Status}
    (hp : ∀ f, (s.node.onCmd f).devicePoll o d q = (s.node.onCmd f, some (st, .nil))) :
    exec (.deviceStatusPoll o d q) s = .next (s.replied s.node o (.deviceStatusPoll d q) st .nil) :=
  State.command_replied h s.node st .nil h.free (hp _)

/-- R105: with nothing else to do, a device whose join is due begins it. -/
theorem Node.lookForWork_joins {n : Node} {d l : Nat} {v : Device} {k : Line} (hs : n.trib.started = true)
    (h : n.device d = some v) (he : v.exchange = none) (hc : v.commands = []) (hl : n.set.lineOf d = some l)
    (hk : nth n.trib.lines l = some k) (hst : v.state = .absent ∨ v.state = .failed)
    (hd : due n.svc.now v.joinDue = true) (hnone : ∀ e r, nth n.trib.roster e = some r → r.since = none) :
    n.lookForWork d = (n.onLine l fun k => { k with number := (k.number + 1) % 256 }).onDevice d fun v =>
      { v with
        state := .joining, joinOrigin := some v.state, joinDue := none
        exchange := some
          { kind := .identify, number := (k.number + 1) % 256, attempt := 1, asker := .join, request := .plain,
            timeout := n.set.exchangeTimeout, retries := n.set.exchangeRetries,
            deadline := n.svc.now + n.set.exchangeTimeout * 4 } } := by
  rw [Node.lookForWork_other hs h he hl hk (.inl (by rcases hst with hst | hst <;> simp [hst])),
    Node.skipRoster_notDue hnone d v, Node.otherWork_join hk hc hst hd, Node.begun, Node.onDevice_onDevice]
  exact Node.onDevice_congr h rfl

/-- R106, R107: with nothing ahead of it, a waiting attach STATUS. -/
theorem Node.lookForWork_attach {n : Node} {d l : Nat} {v : Device} {k : Line} (hs : n.trib.started = true)
    (h : n.device d = some v) (he : v.exchange = none) (hc : v.commands = []) (hl : n.set.lineOf d = some l)
    (hk : nth n.trib.lines l = some k) (hnone : ∀ e r, nth n.trib.roster e = some r → r.since = none)
    (ha : v.attachWaiting = true) :
    (v.state = .silent → n.lookForWork d = n) ∧
    (v.state = .present → wantsLoad n.zone d = false → n.lookForWork d =
      (n.onLine l fun k => { k with number := (k.number + 1) % 256 }).onDevice d fun v =>
        { v with
          attachWaiting := false
          exchange := some
            { kind := .status, number := (k.number + 1) % 256, attempt := 1, asker := .attach, request := .plain,
              timeout := n.set.exchangeTimeout, retries := n.set.exchangeRetries,
              deadline := n.svc.now + n.set.exchangeTimeout * 4 } }) := by
  have hskip := Node.skipRoster_notDue hnone d v
  have hpoll := Node.duePoll_notDue hnone d
  refine ⟨fun hst => ?_, fun hst hw => ?_⟩
  · rw [Node.lookForWork_other hs h he hl hk (.inl (by simp [hst])), hskip,
      Node.otherWork_none hc (fun _ => hpoll) (by simp [hst]) fun _ => by simp [hst]]
  · rw [Node.lookForWork_other hs h he hl hk (.inr hw), hskip, Node.otherWork_attach hk hc hst hpoll ha, Node.begun,
      Node.onDevice_onDevice]
    rfl

/-- Settles O41: the choice of a free line case by case, the poll command, and the roster's choice and skips. -/
theorem deviceExchangesBegin : Obligations.DeviceExchangesBegin := by
  refine ⟨fun d l v k s hphase hhead hs h he hc hl hk hst hd hnone => ?_, fun o d q s ht => ⟨fun hbad => ?_,
      fun k v hq h1 h8 h => ?_⟩, fun n d l v k hs h he hc hl hk hnone ha => ?_,
    fun n d l v k hs h he hl hk => ?_, fun n d v => ?_⟩
  · refine (State.act_onRole hphase hhead).trans ?_
    rw [Node.lookForWork_joins hs h he hc hl hk hst hd hnone]
  · exact exec_deviceStatusPoll_refused ht fun f => Node.devicePoll_bad _ o hbad
  · subst hq
    refine ⟨fun hk => exec_deviceStatusPoll_refused ht fun f => Node.devicePoll_unsuited (s.node.onCmd f) o hk,
      fun hk => ⟨fun hpres hsil => exec_deviceStatusPoll_refused ht fun f => ?_, fun hst => State.command_stays ht _ ?_⟩⟩
    · have hpolled : ¬ DevState.polled v.state = true := fun hb => ((DevState.polled_iff _).1 hb).elim hpres hsil
      exact (Node.devicePoll_suited (s.node.onCmd f) o h1 h8 hk h).trans (if_neg hpolled)
    · exact (Node.devicePoll_suited (s.node.onCmd _) o h1 h8 hk h).trans (if_pos ((DevState.polled_iff _).2 hst))
  · exact Node.lookForWork_attach hs h he hc hl hk hnone ha
  · intro run m begun poll
    have hm : m = n.skipRoster d v := rfl
    have hset : m.set = n.set := n.set_skipRoster d v
    have hsvc : m.svc = n.svc := n.svc_skipRoster d v
    have htoll : m.toll = n.toll := n.toll_skipRoster d v
    have hlines : m.trib.lines = n.trib.lines := by rw [hm, Node.lines_skipRoster]
    have hline : nth m.trib.lines l = some k := by rw [hlines]; exact hk
    have hbegun (kind : ExchKind) (asker : Asker) (request : Request) :
        m.begun l d k kind asker request = begun kind asker request := by
      rw [Node.begun, hset, hsvc]
    have hpolls (q : PollKind) (asker : Asker) :
        m.begun l d k (PollKind.exchange q) asker (m.pollRequest d v q) = poll q asker := by
      rw [hbegun]
      cases q with
      | status => rfl
      | sample => rfl
      | tollOffer => rw [Node.pollRequest, htoll]; rfl
    have hother (hno : v.state ≠ .present ∨ wantsLoad n.zone d = false) : run = m.otherWork d l v :=
      Node.lookForWork_other hs h he hl hk hno
    refine ⟨fun g p src hp hw hg hpage => ?_, fun hno => ⟨fun w rest hc => ?_, fun e x hc hst hp => ?_,
      fun hc hst hp ha => ?_, fun hc hst => ?_⟩⟩
    · rw [← hbegun]
      exact Node.lookForWork_loads hs h he hl hk hp hw hg hpage
    · rw [hother hno, Node.otherWork_command hline hc, hpolls]
    · rw [hother hno, Node.otherWork_poll hline hc hst hp, hpolls, hsvc]
    · rw [hother hno, Node.otherWork_none hc (fun _ => hp) (by rcases hst with hst | hst <;> simp [hst]) (by simp [ha])]
    · rw [hother hno, Node.otherWork_none hc (by rcases hst with hst | hst | hst <;> simp [hst])
        (by rcases hst with hst | hst | hst <;> simp [hst]) (by rcases hst with hst | hst | hst <;> simp [hst])]
  · intro since dueAt skips
    have hpollAt (e : Nat) (x : RosterSpec) (t : Nat) : n.pollAt d e x t ↔ dueAt e x t := by
      unfold Node.pollAt Node.dueFor
      rw [mem_places, and_assoc]
      exact Iff.rfl
    have hskips (e : Nat) (x : RosterSpec) (t : Nat) (hx : dueAt e x t) : n.skipsEntry d v x ↔ skips x := by
      obtain ⟨-, -, -, hdev, -⟩ := hx
      unfold Node.skipsEntry
      have hpolled : DevState.polled v.state = false ↔ v.state ≠ .present ∧ v.state ≠ .silent := by
        rw [← not_or, ← DevState.polled_iff, Bool.not_eq_true]
      rw [hpolled, Option.isNone_iff_eq_none]
      exact ⟨And.right, fun hb => ⟨hdev, hb⟩⟩
    refine ⟨fun e x => ?_, ?_, ?_⟩
    · rw [n.duePoll_some_iff d e x]
      simp only [hpollAt]
    · rw [n.duePoll_none_iff d]
      simp only [hpollAt]
    · obtain ⟨l, hl, hlen, hskipped, hkept⟩ := Node.skipEntries_roster d v (places 16) n (nodup_places 16)
      refine ⟨l, (n.skipRoster_eq d v).trans hl, hlen, fun e x t hx hsk => ?_, fun e hno => hkept e fun he x t h1 h2 h3 => ?_⟩
      · obtain ⟨he, hentry, -, hsince⟩ := (hpollAt e x t).2 hx
        exact hskipped e x t he hentry hsince ((hskips e x t hx).2 hsk)
      · have hx : dueAt e x t := (hpollAt e x t).1 ⟨he, h1, h3.1, h2⟩
        exact hno x t hx ((hskips e x t hx).1 h3)

end Sys2Proof.Machine


/-! SUPPORT. The roster's entries (R108, R111): due, written by ROSTER-SET, replaced by a new POLL-ROSTER. -/

namespace Sys2Proof.Machine

/-! ## One entry (R108, R111) -/

theorem Node.rosterDue_due {n : Node} {e : Nat} {spec : RosterSpec} {r : RosterRec} (hs : n.set.rosterEntry e = some spec)
    (hr : nth n.trib.roster e = some r) (hd : due n.svc.now r.nextDue = true) (hsince : r.since = none) :
    n.rosterDue e = n.onRoster e fun r => { r with since := some n.svc.now } := by
  rw [Node.rosterDue, hs, hr]
  exact if_pos ⟨hd, hsince⟩

/-- Writing an entry leaves the command channels alone, and they it. -/
theorem Node.onCmd_writeRoster (n : Node) (f : Cmd → Cmd) (e : Nat) (r : Option RosterSpec) :
    (n.onCmd f).writeRoster e r = (n.writeRoster e r).onCmd f := rfl

theorem Node.writeRoster_cmd (n : Node) (e : Nat) (r : Option RosterSpec) : (n.writeRoster e r).cmd = n.cmd := rfl

theorem Node.rosterSet_badEntry {n : Node} {e : Nat} (arg : RosterArg) (h : e < 1 ∨ 16 < e) :
    n.rosterSet e arg = (n, .badArgument, .nil) := if_pos h

theorem Node.rosterSet_empty {n : Node} {e : Nat} (h : ¬(e < 1 ∨ 16 < e)) :
    n.rosterSet e .empty = (n.writeRoster e none, .done, .nil) := if_neg h

theorem Node.rosterSet_noKind {n : Node} {e : Nat} (d p : Nat) (h : ¬(e < 1 ∨ 16 < e)) :
    n.rosterSet e (.entry d none p) = (n, .badArgument, .nil) := if_neg h

theorem Node.rosterSet_entry {n : Node} {e : Nat} (d : Nat) (k : PollKind) (p : Nat) (h : ¬(e < 1 ∨ 16 < e)) :
    n.rosterSet e (.entry d (some k) p) =
      if n.set.rosterOk { device := d, kind := k, period := p } then
        (n.writeRoster e (some { device := d, kind := k, period := p }), .done, .nil)
      else (n, .badArgument, .nil) := if_neg h

/-- R111: ROSTER-SET answers at once, whatever it answers. -/
theorem exec_rosterSet {s : State} {o : Origin} {e : Nat} {arg : RosterArg} (h : Takes s o (.rosterSet e arg))
    {m : Node} {st : Status} {v : Value} (hcmd : m.cmd = s.node.cmd)
    (hact : ∀ f, (s.node.onCmd f).rosterSet e arg = (m.onCmd f, st, v)) :
    exec (.rosterSet o e arg) s = .next (s.replied m o (.rosterSet e arg) st v) :=
  State.command_acting h (act := fun n => n.rosterSet e arg) (fun _ => rfl) hcmd hact

/-! ## A new POLL-ROSTER (R111) -/

/-- The node with another roster and other times of its entries. -/
def Node.withRoster (n : Node) (l : List (Option RosterSpec)) (times : List RosterRec) : Node :=
  (n.onSettings fun w => { w with roster := l }).onTrib fun x => { x with roster := times }

/-- R111: whether a new roster changes an entry. -/
def Node.changesEntry (n : Node) (l : List (Option RosterSpec)) (e : Nat) : Bool := decide (nth n.set.roster e ≠ nth l e)

/-- R111: whether an entry of a new roster is EMPTY or may be written. -/
def Node.entryOk (n : Node) (l : List (Option RosterSpec)) (e : Nat) : Bool :=
  match (nth l e).getD none with
  | none => true
  | some r => n.set.rosterOk r

theorem Node.entryOk_iff (n : Node) (l : List (Option RosterSpec)) (e : Nat) :
    n.entryOk l e = true ↔ ∀ r, nth l e = some (some r) → n.set.rosterOk r = true := by
  unfold Node.entryOk
  cases h : nth l e with
  | none => simp
  | some x => cases x <;> simp

theorem Settings.rosterOk_iff (w : Settings) (r : RosterSpec) :
    w.rosterOk r = true ↔ (1 ≤ r.device ∧ r.device ≤ 8 ∧ 1 ≤ r.period ∧ r.period ≤ 36000) ∧
      PollKind.suits r.kind (w.kindOf r.device) = true := by
  rw [Settings.rosterOk, rosterInRange, Bool.and_eq_true, decide_eq_true_iff]

/-- R111: a new roster whose changed entries may all be written. -/
theorem Node.takeRoster_ok {n : Node} {l : List (Option RosterSpec)}
    (h : ∀ e ∈ places 16, n.changesEntry l e = true → n.entryOk l e = true) :
    n.takeRoster l = (n.withRoster l (changeAll (n.changesEntry l)
      (fun e _ => freshRoster n.svc.now ((nth l e).getD none)) (places 16) n.trib.roster), .done) := by
  have hall : ((places 16).filter (n.changesEntry l)).all (n.entryOk l) = true :=
    List.all_eq_true.2 fun e he => h e (List.mem_filter.1 he).1 (List.mem_filter.1 he).2
  refine (if_pos hall).trans (congrArg (·, Status.done) ?_)
  rw [List.foldl_filter]
  refine foldl_table (n.withRoster l) (fun q e => ?_) (places 16) n.trib.roster
  show (if n.changesEntry l e = true then _ else _) = _
  split <;> rfl

/-- R111: a new roster with a changed entry that may not be written. -/
theorem Node.takeRoster_bad {n : Node} {l : List (Option RosterSpec)} {e : Nat} (he : e ∈ places 16)
    (hc : n.changesEntry l e = true) (hbad : ¬n.entryOk l e = true) : n.takeRoster l = (n, .badArgument) := by
  have hall : ¬((places 16).filter (n.changesEntry l)).all (n.entryOk l) = true := fun hok =>
    hbad (List.all_eq_true.1 hok e (List.mem_filter.2 ⟨he, hc⟩))
  exact if_neg hall

theorem roster_inRange (l : List (Option RosterSpec)) :
    Candidate.inRange 44 (.roster l) = true ↔
      ∀ r, some r ∈ l → 1 ≤ r.device ∧ r.device ≤ 8 ∧ 1 ≤ r.period ∧ r.period ≤ 36000 := by
  simp only [Candidate.inRange, List.all_eq_true]
  constructor
  · intro h r hr
    exact of_decide_eq_true (h (some r) hr)
  · intro h x hx
    cases x with
    | none => rfl
    | some r => exact decide_eq_true (h r hx)

/-- R108: the times of an entry written now. -/
theorem freshRoster_eq (now : Nat) (x : Option RosterSpec) :
    freshRoster now x = { nextDue := x.map fun r => now + r.period * 400, since := none } := by
  cases x <;> rfl

/-- Settles O42: ROSTER-DUE, then ROSTER-SET by its argument, then a new value of the item, place by place. -/
theorem rosterIsKept : Obligations.RosterIsKept := by
  refine ⟨fun e s => ⟨fun spec r h hw hs hr hd hsince => ?_, fun o arg h => ⟨fun hbad => ?_, fun h1 h16 he => ?_,
    fun d p h1 h16 he => ?_, fun d k p h1 h16 he => ?_⟩⟩, fun n l => ⟨roster_inRange l, ?_, fun hsuits => ?_⟩⟩
  · have hrun : exec (.rosterDue e) s = .next (s.settled (s.node.rosterDue e)) := State.act_onRole h hw
    rw [hrun, Node.rosterDue_due hs hr hd hsince]
  · exact exec_rosterSet h rfl fun f => Node.rosterSet_badEntry arg hbad
  · subst he
    exact exec_rosterSet h rfl fun f => Node.rosterSet_empty (by omega)
  · subst he
    exact exec_rosterSet h rfl fun f => Node.rosterSet_noKind d p (by omega)
  · subst he
    dsimp only
    have hok : s.node.set.rosterOk { device := d, kind := k, period := p } =
        (decide (1 ≤ d ∧ d ≤ 8 ∧ 1 ≤ p ∧ p ≤ 36000) && PollKind.suits k (s.node.set.kindOf d)) := rfl
    rw [← hok]
    have hact (f : Cmd → Cmd) := Node.rosterSet_entry (n := s.node.onCmd f) d k p (show ¬(e < 1 ∨ 16 < e) by omega)
    have hset (f : Cmd → Cmd) : (s.node.onCmd f).set = s.node.set := rfl
    by_cases hw : s.node.set.rosterOk { device := d, kind := k, period := p } = true
    · rw [if_pos hw]
      exact exec_rosterSet h rfl fun f => (hact f).trans (if_pos (by rw [hset, hw]))
    · rw [if_neg hw]
      exact exec_rosterSet h rfl fun f => (hact f).trans (if_neg (by rw [hset]; exact hw))
  · rintro ⟨e, ⟨h1, h16, hne⟩, hbad⟩
    refine Node.takeRoster_bad (mem_places.2 ⟨h1, h16⟩) (decide_eq_true hne) fun hok => hbad fun r hr => ?_
    exact (n.set.rosterOk_iff r).1 ((n.entryOk_iff l e).1 hok r hr)
  · refine ⟨_, Node.takeRoster_ok fun e he hc => (n.entryOk_iff l e).2 fun r hr => (n.set.rosterOk_iff r).2
      (hsuits e ⟨(mem_places.1 he).1, (mem_places.1 he).2, of_decide_eq_true hc⟩ r hr), fun e he => ?_,
      fun e old he hold => ?_⟩
    · rw [nth_changeAll _ _ _ _ _ (nodup_places 16), if_neg]
      rintro ⟨hmem, hc⟩
      exact he ⟨(mem_places.1 hmem).1, (mem_places.1 hmem).2, of_decide_eq_true hc⟩
    · obtain ⟨h1, h16, hne⟩ := he
      rw [nth_changeAll _ _ _ _ _ (nodup_places 16), if_pos ⟨mem_places.2 ⟨h1, h16⟩, decide_eq_true hne⟩, hold,
        ← freshRoster_eq]
      rfl

end Sys2Proof.Machine


/-! SUPPORT. A line reset, a new REMAP or DEVICE-KIND, and what a detached device leaves (R99, R112, R113, R135, R159). -/

namespace Sys2Proof.Machine

/-! ## LINE-RESET (R113) -/

/-- R99: the device on a line has that line, and a kind. -/
theorem Settings.deviceOn_spec {w : Settings} {l d : Nat} (h : w.deviceOn l = some d) :
    w.lineOf d = some l ∧ w.kindOf d ≠ .unused := by
  have hd := List.find?_some h
  simpa using hd

/-- R112: with nothing in flight and nothing waiting, a detaching and the command channels do not touch one another. -/
theorem Node.onCmd_detach {n : Node} {d : Nat} {v : Device} (f : Cmd → Cmd) (k : DeviceKind) (c : DevCause)
    (h : n.device d = some v) (he : v.exchange = none) (hc : v.commands = []) :
    (n.onCmd f).detach d k c = (n.detach d k c).onCmd f := by
  rw [Node.detach_idle k c h he hc, Node.detach_idle (n := n.onCmd f) k c h he hc, ← Node.onCmd_detachElsewhere]
  rfl

theorem Node.cmd_detach {n : Node} {d : Nat} {v : Device} (k : DeviceKind) (c : DevCause)
    (h : n.device d = some v) (he : v.exchange = none) (hc : v.commands = []) : (n.detach d k c).cmd = n.cmd := by
  have hcmd := congrArg Node.cmd (Node.onCmd_detach (fun _ => n.cmd) k c h he hc)
  exact hcmd

theorem Node.lineReset_badLine {n : Node} {l : Nat} (h : l < 1 ∨ 8 < l) : n.lineReset l = (n, .badArgument, .nil) := if_pos h

theorem Node.lineReset_free {n : Node} {l : Nat} (h : ¬(l < 1 ∨ 8 < l)) (hl : n.set.deviceOn l = none) :
    n.lineReset l = (n, .done, .absent) := by
  rw [Node.lineReset, if_neg h, hl]

theorem Node.lineReset_device {n : Node} {l d : Nat} (h : ¬(l < 1 ∨ 8 < l)) (hl : n.set.deviceOn l = some d) :
    n.lineReset l = (n.detach d (n.set.kindOf d) .lineReset, .done, .list [.nat d,
      Value.opt (fun v : Device => .dev v.state) ((n.detach d (n.set.kindOf d) .lineReset).device d)]) := by
  rw [Node.lineReset, if_neg h, hl]

/-- R113: LINE-RESET answers at once, whatever it answers. -/
theorem exec_lineReset {s : State} {o : Origin} {l : Nat} (h : Takes s o (.lineReset l))
    {m : Node} {st : Status} {v : Value} (hcmd : m.cmd = s.node.cmd)
    (hact : ∀ f, (s.node.onCmd f).lineReset l = (m.onCmd f, st, v)) :
    exec (.lineReset o l) s = .next (s.replied m o (.lineReset l) st v) :=
  State.command_acting h (act := fun n => n.lineReset l) (fun _ => rfl) hcmd hact

/-- R113: a line whose device has nothing in flight and nothing waiting. -/
theorem exec_lineReset_device {s : State} {o : Origin} {l d : Nat} {v : Device} (h : Takes s o (.lineReset l))
    (hl : ¬(l < 1 ∨ 8 < l)) (hon : s.node.set.deviceOn l = some d) (hd : s.node.device d = some v)
    (he : v.exchange = none) (hc : v.commands = []) :
    exec (.lineReset o l) s = .next (s.replied (s.node.detach d (s.node.set.kindOf d) .lineReset) o (.lineReset l) .done
      (.list [.nat d, .dev .absent])) := by
  have hkind := (Settings.deviceOn_spec hon).2
  have hspec := (Node.detach_spec (s.node.set.kindOf d) .lineReset hd).2
  refine exec_lineReset h (Node.cmd_detach _ _ hd he hc) fun f => ?_
  have hset : (s.node.onCmd f).set = s.node.set := rfl
  have hdev (m : Node) : (m.onCmd f).device d = m.device d := rfl
  rw [Node.lineReset_device hl (hset.symm ▸ hon), hset, Node.onCmd_detach f _ _ hd he hc, hdev, hspec, Device.detached]
  simp only [if_neg hkind]
  rfl

/-! ## A new REMAP or DEVICE-KIND (R99) -/

theorem remapOk_iff (l : List (Option Nat)) :
    remapOk l = true ↔ (∀ k ∈ l.filterMap id, 1 ≤ k ∧ k ≤ 8) ∧ (l.filterMap id).Nodup := by
  rw [remapOk, Bool.and_eq_true, distinct_eq_true, List.all_eq_true]
  simp only [decide_eq_true_iff]

theorem Node.takeRemap_ok (n : Node) {l : List (Option Nat)} (h : remapOk l = true) :
    n.takeRemap l = ((n.onSettings fun w => { w with remap := l }).detachChanged n.set, .done) := if_pos h

theorem Node.takeRemap_bad (n : Node) {l : List (Option Nat)} (h : ¬remapOk l = true) :
    n.takeRemap l = (n, .badArgument) := if_neg h

/-- R112: what a write's detachings leave and what they do to each device. -/
theorem Node.detachChanged_spec (n : Node) (old : Settings) :
    Node.DetachesAll (places 8) n (n.detachChanged old) ∧
      (∀ d v, 1 ≤ d → d ≤ 8 → n.device d = some v →
        (¬n.moved old d → (n.detachChanged old).device d = some v) ∧
        (n.moved old d → (n.detachChanged old).device d = some (v.detached n.set n.svc.now d (old.kindOf d)))) := by
  obtain ⟨hkept, hmoved, hunmoved⟩ := Node.foldl_detachOne old (places 8) n (nodup_places 8)
  exact ⟨hkept, fun d v h1 h8 hd => ⟨fun h => (hunmoved d h).trans hd,
    fun h => hmoved d v (mem_places.2 ⟨h1, h8⟩) h hd⟩⟩

/-! ## Unbinding and the rules (R134, R135, R159) -/

theorem Device.answers_iff (v : Device) : v.answers = true ↔ v.state = .present ∨ v.state = .silent := by
  simp [Device.answers]

/-- R134: whether an UNATTACHED device is tried again. -/
def TriesAgain (devices : List Device) (x : TollSt) (k : Nat) (r : Bool) (v : Device) : Prop :=
  nth devices k = some v ∧ (v.state = .present ∨ v.state = .silent) ∧
    ∃ u, nth x.2.attachments k = some (some (.unattached u r))

theorem retryUnattached_noneTries {devices : List Device} {x : TollSt} (h : ∀ k r v, ¬TriesAgain devices x k r v) :
    retryUnattached devices x = x :=
  retryUnattached_none fun k u r v ha hv =>
    Bool.eq_false_iff.2 fun hs => h k r v ⟨hv, (Device.answers_iff v).1 hs, u, ha⟩

theorem retryUnattached_oneTries {devices : List Device} {x : TollSt} {k : Nat} {r : Bool} {v : Device} {i : Identity}
    (h1 : 1 ≤ k) (h8 : k ≤ 8) (h : TriesAgain devices x k r v) (hone : ∀ j q w, TriesAgain devices x j q w → j = k)
    (hi : v.identity = some i) : retryUnattached devices x = attachGantry devices k i r x := by
  obtain ⟨hv, hs, u, ha⟩ := h
  exact retryUnattached_one h1 h8 ha hv ((Device.answers_iff v).2 hs) hi fun j u r v ha hv hs =>
    hone j r v ⟨hv, (Device.answers_iff v).1 hs, u, ha⟩

/-- R159: the rules of a device that ceases to be a weather station. -/
theorem clearRulesOf_spec (d : Nat) (x : RuleSt) :
    let hit (k : Nat) : Prop := 1 ≤ k ∧ k ≤ 8 ∧ ∃ spec rec, clearsRule d x k spec rec
    (clearRulesOf d x).1.settings = x.1.settings ∧
    (∀ k, ¬hit k → nth (clearRulesOf d x).2 k = nth x.2 k) ∧
    (∀ k, hit k → nth (clearRulesOf d x).2 k = some { state := .clear, last := none, since := x.1.time }) ∧
    ((∀ k rec, hit k → nth x.2 k = some rec → isTripped rec.state = false) → (clearRulesOf d x).1 = x.1) ∧
    (∀ k spec rec, hit k → (∀ j, hit j → j = k) → nth x.1.settings.rules k = some (some spec) → nth x.2 k = some rec →
      isTripped rec.state = true →
      (clearRulesOf d x).1 = x.1.post .ruleClear (.rule k) [.nat spec.zone, .absent, .ruleClear .device]) := by
  intro hit
  have hfold := foldl_clearRuleOf d (places 8) x (nodup_places 8)
  have hquiet := foldl_clearRuleOf_quiet d (places 8) x (nodup_places 8)
  rw [← clearRulesOf_eq] at hfold hquiet
  obtain ⟨hkept, hmiss, hhit⟩ := hfold
  refine ⟨hkept.settings, fun k hk => hmiss k ?_, ?_, fun hq => ?_, ?_⟩
  · by_cases hm : k ∈ places 8
    · exact .inr fun spec rec hc => hk ⟨(mem_places.1 hm).1, (mem_places.1 hm).2, spec, rec, hc⟩
    · exact .inl hm
  · rintro k ⟨h1, h8, spec, rec, hc⟩
    exact hhit k spec rec (mem_places.2 ⟨h1, h8⟩) hc
  · refine hquiet fun k spec rec hm hc => ?_
    exact hq k rec ⟨(mem_places.1 hm).1, (mem_places.1 hm).2, spec, rec, hc⟩ hc.2.1
  · rintro k spec rec ⟨h1, h8, spec', rec', hc⟩ hone hs hr ht
    have hc' : clearsRule d x k spec rec := by
      obtain ⟨hs', hr', hdev, hstate⟩ := hc
      cases hs.symm.trans hs'
      cases hr.symm.trans hr'
      exact ⟨hs, hr, hdev, hstate⟩
    exact clearRulesOf_one h1 h8 hc' (fun j h1 h8 hj spec rec hcj => hj (hone j ⟨h1, h8, spec, rec, hcj⟩)) ht

/-! ## The statement -/

theorem lineReset_parts {o : Origin} {l : Nat} {s : State} (h : Takes s o (.lineReset l)) :
    let n := s.node
    let run := exec (.lineReset o l) s
    (l < 1 ∨ 8 < l → run = .next (s.replied n o (.lineReset l) .badArgument .nil)) ∧
    (1 ≤ l → l ≤ 8 → n.set.deviceOn l = none →
      run = .next (s.replied n o (.lineReset l) .done .absent)) ∧
    (∀ d v, 1 ≤ l → l ≤ 8 → n.set.deviceOn l = some d → n.device d = some v →
      v.exchange = none → v.commands = [] →
      ∃ m v', run = .next (s.replied m o (.lineReset l) .done (.list [.nat d, .dev .absent])) ∧
        m.device d = some v' ∧ v'.state = .absent ∧ v'.joinDue = some n.svc.now ∧ v'.miss = 0 ∧
        v'.identity = v.identity ∧ v'.restartEnd = none ∧ m.trib.lines = n.trib.lines ∧
        (∀ k, k ≠ d → m.device k = n.device k)) := by
  refine ⟨fun hbad => exec_lineReset h rfl fun f => Node.lineReset_badLine hbad,
    fun h1 h8 hon => exec_lineReset h rfl fun f => Node.lineReset_free (by omega) hon,
    fun d v h1 h8 hon hd he hc => ?_⟩
  obtain ⟨hline, hkind⟩ := Settings.deviceOn_spec hon
  obtain ⟨hkept, hspec⟩ := Node.detach_spec (s.node.set.kindOf d) .lineReset hd
  refine ⟨_, _, exec_lineReset_device h (by omega) hon hd he hc, hspec, if_neg hkind, ?_, rfl, if_pos rfl, rfl,
    hkept.lines, hkept.others⟩
  simp only [Device.detached, if_neg hkind, hline, Option.map_some]

theorem detachChanged_parts (n : Node) (old : Settings) :
    let m := n.detachChanged old
    m.set = n.set ∧ m.trib.lines = n.trib.lines ∧ m.trib.roster = n.trib.roster ∧ m.toll.log = n.toll.log ∧
    (∀ d v, 1 ≤ d → d ≤ 8 → n.device d = some v →
      (old.lineOf d = n.set.lineOf d → old.kindOf d = n.set.kindOf d → m.device d = some v) ∧
      (old.lineOf d ≠ n.set.lineOf d ∨ old.kindOf d ≠ n.set.kindOf d →
        m.device d = some (v.detached n.set n.svc.now d (old.kindOf d)))) ∧
    (∀ d, (∀ k, k ≠ d → old.lineOf k = n.set.lineOf k ∧ old.kindOf k = n.set.kindOf k) → 1 ≤ d → d ≤ 8 →
      (old.lineOf d ≠ n.set.lineOf d → m = n.detach d (old.kindOf d) .remap) ∧
      (old.lineOf d = n.set.lineOf d → old.kindOf d ≠ n.set.kindOf d → m = n.detach d (old.kindOf d) .kind)) := by
  obtain ⟨hkept, hdevices⟩ := n.detachChanged_spec old
  refine ⟨hkept.set, hkept.lines, hkept.roster, hkept.log, fun d v h1 h8 hd => ⟨fun hl hk => ?_, fun hmoved => ?_⟩,
    fun d hothers h1 h8 => ?_⟩
  · exact (hdevices d v h1 h8 hd).1 fun hmoved => hmoved.elim (fun h => h hl) fun h => h hk
  · exact (hdevices d v h1 h8 hd).2 hmoved
  · have hone : n.detachChanged old = n.detachOne old d := Node.detachChanged_one h1 h8 fun k hk hmoved =>
      hmoved.elim (fun h => h (hothers k hk).1) fun h => h (hothers k hk).2
    exact ⟨fun hl => hone.trans (if_pos hl), fun hl hk => hone.trans ((if_neg (not_not.2 hl)).trans (if_pos hk))⟩

/-- Settles O43: LINE-RESET; a new REMAP or DEVICE-KIND; one detaching at TRIB; then what it does at ZONE, TOLL and WX. -/
theorem lineResetDetaches : Obligations.LineResetDetaches := by
  refine ⟨fun o l s h => lineReset_parts h, fun n l ks => ?_, fun n old => detachChanged_parts n old,
    fun n d v kind cause hd => ?_, fun n d old new => ?_, fun devices d x => ?_, clearRulesOf_spec⟩
  · exact ⟨remapOk_iff l, fun hbad => n.takeRemap_bad fun hok => hbad ((remapOk_iff l).1 hok),
      fun hok => n.takeRemap_ok ((remapOk_iff l).2 hok), rfl, rfl⟩
  · exact ⟨fun e he => Node.detach_exchange kind cause hd he, fun he _ => Node.detach_commands kind cause hd he,
      fun he hc => Node.detach_idle kind cause hd he hc⟩
  · have htrib := n.detaches_detachElsewhere d old new
    obtain ⟨hlog, hattachment, hgantries⟩ := n.detachElsewhere_toll d old new
    exact ⟨htrib.2, htrib.1.set, hlog, hattachment, hgantries, n.detachElsewhere_dry d old new,
      fun ho hn => ho ▸ n.detachElsewhere_weather d hn⟩
  · refine ⟨unbindDevice_unbound, fun e he hn => ?_, retryUnattached_noneTries, fun k r v i h1 h8 htries hone hi => ?_⟩
    · exact unbindDevice_bound he hn
    · exact retryUnattached_oneTries h1 h8 htries hone hi

end Sys2Proof.Machine


/-! SUPPORT. A RESTART-PULSE whose target holds a waiting command of the same channel (R104, R116, R118): it refutes O44. -/

namespace Sys2Proof.Machine

/-- R185: a reply on the link is still on its way when the step ends. -/
theorem State.replying_replied (s : State) (n : Node) (tag : Nat) (c : Command) (st : Status) (v : Value) :
    (s.replied n (.link tag) c st v).node.replying
      { tag := tag, station := 0, cmd := .command c, status := st, result := v,
        restart := isRestart (.command c) && decide (st = .done) } := by
  rw [State.replied, State.settled_node]
  exact (Node.keeps_settle _).replying _ (.inl (List.mem_append_right _ (List.mem_singleton.2 rfl)))

/-- A command that waits on channel L. -/
def waitingOnL : Waiting := { origin := .link 2, poll := .status }

/-- A wayside that has started: device 1, PRESENT with that command waiting, is the target of restart output 1. -/
def pulseOverWaiting : State where
  pending := []
  store := []
  node :=
    let n : Node := { Node.fullReset Pins.rest 0 with
      phase := .started
      trib := { Trib.reset with
        started := true
        devices := put Trib.reset.devices 1 { Device.reset with state := .present, commands := [waitingOnL] } } }
    n.onSettings fun w => { w with outputs := put w.outputs 1 { OutputSpec.default with target := some 1 } }

theorem takes_pulseOverWaiting : Takes pulseOverWaiting (.link 1) (.restartPulse 1) where
  reaches := ⟨rfl, fun h => nomatch h⟩
  free := rfl
  role r hr := by cases hr; rfl
  channel := rfl
  notHeld h := nomatch h
  inHold h := nomatch h

/-- Emptying the target's list answers WRONG-STATE on the pulse's own channel, and no DONE follows. -/
theorem pulseOverWaiting_answer : ∃ t, exec (.restartPulse (.link 1) 1) pulseOverWaiting = .next t ∧
    t.node.link.sending = none ∧ t.node.link.replies.map Reply.status = [.wrongState] :=
  ⟨_, rfl, by decide +kernel, by decide +kernel⟩

/-- Refutes O44: a target in PRESENT whose list holds a command of the channel that RESTART-PULSE came by. The list is
emptied, which ends the channel's command in progress with WRONG-STATE, so that RESTART-PULSE is not answered DONE. -/
theorem not_restartOutputsAndTheirTargets : ¬ Obligations.RestartOutputsAndTheirTargets := by
  intro h
  obtain ⟨houtput, -⟩ := h
  obtain ⟨-, -, hpulse⟩ := houtput 1 { OutputSpec.default with target := some 1 } { state := .armed, hold := none, pulse := none } pulseOverWaiting rfl rfl
  obtain ⟨m, hm, -⟩ := (hpulse (.link 1) takes_pulseOverWaiting (by decide) (by decide)).2 (by decide)
  obtain ⟨t, ht, hsending, hreplies⟩ := pulseOverWaiting_answer
  obtain rfl : t = pulseOverWaiting.replied m (.link 1) (.restartPulse 1) .done .nil :=
    Host.Outcome.next.inj (ht.symm.trans hm)
  rcases pulseOverWaiting.replying_replied m 1 (.restartPulse 1) .done .nil with hwaits | hsends
  · have hstatus := hreplies ▸ List.mem_map_of_mem (f := Reply.status) hwaits
    exact absurd hstatus (by decide)
  · exact nomatch hsending.symm.trans hsends

end Sys2Proof.Machine


/-! SUPPORT. What the reads that are always DONE tell, with O46. -/

namespace Sys2Proof.Machine

/-- R186: a read that is told at once, as it stands with its command in progress. -/
theorem State.command_tells {s : State} {o : Origin} {c : Command} (h : Takes s o c) {report : Node → Value} {v : Value}
    (hperform : ∀ n : Node, n.perform s.store o c = told n (report n))
    (hv : report (s.node.onCmd fun k => k.setChannel o (some { origin := o, cmd := c })) = v) :
    s.command o c = .next (s.replied s.node o c .done v) :=
  State.command_replied h s.node .done v h.free (by rw [hperform, told, hv])

theorem Value.list_ite (p : Prop) [Decidable p] (a b : List Value) :
    (if p then .list a else .list b : Value) = .list (if p then a else b) := by
  split <;> rfl

/-- R46: what WINDOW-STATUS tells does not depend on the commands in progress. -/
theorem Node.windowStatus_inProgress (n : Node) (o : Origin) (c : InProgress) :
    (n.onCmd fun k => k.setChannel o (some c)).windowStatus = n.windowStatus := by
  cases o <;> rfl

/-- R189: IDENTIFY is told while its own channel has it in progress. -/
theorem Node.identify_inProgress (n : Node) (o : Origin) (c : InProgress) :
    (n.onCmd fun k => k.setChannel o (some c)).identify = .list
      [.role n.set.role, .nat n.me, .nat Config.partRevision, .time n.svc.time, .hold n.cmd.held,
       timeLeft n.svc.now n.cmd.lapse, .flag n.set.noticePush, .flag n.set.attentionPulse, .nat n.svc.note.queue.length,
       .nat (n.svc.note.queue.filter (·.toHost)).length, .nat (n.svc.note.queue.filter (·.toCentre)).length,
       .flag n.svc.note.overflow, .nat n.svc.note.lost, .nat n.link.valid, .nat n.link.badLength, .nat n.link.badCrc,
       .nat n.link.wrongKind, .nat n.link.noticeNo, .nat n.link.dataNo,
       .flag (n.cmd.chanL.isSome || !Origin.isCentre o), .flag (n.cmd.chanC.isSome || Origin.isCentre o)] := by
  cases o with
  | link t =>
    rw [show (!Origin.isCentre (.link t)) = true from rfl, show Origin.isCentre (.link t) = false from rfl, Bool.or_true,
      Bool.or_false]
    rfl
  | centre f =>
    rw [show (!Origin.isCentre (.centre f)) = false from rfl, show Origin.isCentre (.centre f) = true from rfl,
      Bool.or_true, Bool.or_false]
    rfl

/-- Settles O46: each read tells its record, which none but IDENTIFY's depends on the command in progress. -/
theorem readsTellAndChangeNothing : Obligations.ReadsTellAndChangeNothing := by
  intro o s
  dsimp only
  refine ⟨fun h => ?_, fun h => ?_, fun h => ?_, fun h => ?_, fun h => ?_, fun h => ?_, fun h => ?_, fun h => ?_,
    fun h => ?_, fun h => ?_, fun h => ?_, fun h => ?_⟩
  · exact State.command_tells h (report := Node.timeRead) (fun _ => rfl) rfl
  · exact State.command_tells h (report := fun n => n.svc.pool.report) (fun _ => rfl) rfl
  · exact State.command_tells h (report := Node.identify) (fun _ => rfl) (s.node.identify_inProgress o _)
  · exact State.command_tells h (report := Node.ringStatus) (fun _ => rfl) (Value.list_ite ..)
  · exact State.command_tells h (report := Node.windowStatus) (fun _ => rfl) (s.node.windowStatus_inProgress o _)
  · exact State.command_tells h (report := Node.phoneStatus) (fun _ => rfl) rfl
  · exact State.command_tells h (report := Node.zoneStatus) (fun _ => rfl) rfl
  · exact State.command_tells h (report := Node.rosterRead) (fun _ => rfl) rfl
  · exact State.command_tells h (report := Node.inputStatus) (fun _ => rfl) rfl
  · exact State.command_tells h (report := Node.deviceList) (fun _ => rfl) rfl
  · exact State.command_tells h (report := Node.ruleStatus) (fun _ => rfl) rfl
  · exact State.command_tells h (report := Node.collectStatus) (fun _ => rfl) (Value.list_ite ..)

end Sys2Proof.Machine


/-! SUPPORT. What the reads with an argument tell (R12, R26, R73, R89, R121, R146, R161, R191, R193), with O47. -/

namespace Sys2Proof.Machine

section
variable {s : State} {o : Origin} {c : Command} {read : Node → Node × Status × Value} {st : Status} {v : Value}

/-- R186: a read that is answered at once and changes nothing. -/
theorem State.command_reads (hperform : ∀ n : Node, n.perform s.store o c = atOnce (read n)) (h : Takes s o c)
    (hread : ∀ f, read (s.node.onCmd f) = (s.node.onCmd f, st, v)) :
    s.command o c = .next (s.replied s.node o c st v) :=
  State.command_acting h hperform rfl hread

/-- A read with one range for its argument. -/
theorem State.command_ranged {a low high : Nat} (hperform : ∀ n : Node, n.perform s.store o c = atOnce (read n))
    (hread : ∀ f, read (s.node.onCmd f) =
      if a < low ∨ high < a then (s.node.onCmd f, .badArgument, .nil) else (s.node.onCmd f, .done, v)) :
    (a < low ∨ high < a → Takes s o c → s.command o c = .next (s.replied s.node o c .badArgument .nil)) ∧
      (low ≤ a → a ≤ high → Takes s o c → s.command o c = .next (s.replied s.node o c .done v)) := by
  refine ⟨fun hbad h => State.command_reads hperform h fun f => (hread f).trans (if_pos hbad),
    fun hlow hhigh h => State.command_reads hperform h fun f => (hread f).trans (if_neg ?_)⟩
  omega

end

/-! ## PORT-STATUS, DEVICE-STATUS, SIGN-STATUS -/

theorem Node.portStatus_none (n : Node) {a : Nat} (h : portOf a = none) : n.portStatus a = (n, .badArgument, .nil) := by
  rw [Node.portStatus, h]

theorem Node.portStatus_some (n : Node) {a : Nat} {p : PortId} (h : portOf a = some p) :
    n.portStatus a = (n, .done, .list
      [.portState (n.port p).state, .nat (n.port p).good, .nat (n.port p).missing, .nat (n.port p).errNow,
       .nat (n.port p).errLast, Value.opt (fun x : Nat × Role => .list [.nat x.1, .role x.2]) (n.port p).neighbour,
       .flag (n.port p).conflict]) := by
  rw [Node.portStatus, h]

theorem Node.deviceReport_some {n : Node} {a : Nat} {v : Device} (h : n.device a = some v) :
    n.deviceReport a = .list
      [Value.opt .nat (n.set.lineOf a), .devKind (n.set.kindOf a), .dev v.state, Value.opt .dev v.joinOrigin,
       Value.opt Identity.report v.identity, .nat v.miss, Value.opt statusReport v.status,
       Value.opt .nat v.joinDue, Value.opt .nat v.restartEnd, Value.opt .dev v.restartOrigin,
       Value.opt Exchange.report v.exchange,
       match n.set.lineOf a with
       | none => .absent
       | some l =>
         match nth n.trib.lines l with
         | none => .absent
         | some k => .list [.nat k.number, .nat k.corrupt, .nat k.stray, .nat k.repeats, .nat k.unanswered],
       n.rosterOf a] := by
  rw [Node.deviceReport, h] <;> rfl

theorem Node.signCommand_bad (n : Node) {d : Nat} (h : d < 1 ∨ 8 < d) (act : Sign → Node × Status × Value) :
    n.signCommand d act = (n, .badArgument, .nil) := if_pos h

theorem Node.signCommand_none {n : Node} {d : Nat} (h : ¬(d < 1 ∨ 8 < d)) (hs : n.zone.sign d = none)
    (act : Sign → Node × Status × Value) : n.signCommand d act = (n, .notFound, .nil) := by
  rw [Node.signCommand, if_neg h, hs]

theorem Node.signCommand_some {n : Node} {d : Nat} {g : Sign} (h : ¬(d < 1 ∨ 8 < d)) (hs : n.zone.sign d = some g)
    (act : Sign → Node × Status × Value) : n.signCommand d act = act g := by
  rw [Node.signCommand, if_neg h, hs]

/-! ## SETTING-READ (R191) -/

/-- R191: the records read of a list, from the starting key on. -/
def Node.recordsFrom (n : Node) (item : Nat) (key : Option SettingKey) : List SettingValue :=
  ((n.itemRecords item).filter fun x => key.all fun k => keyRank k ≤ keyRank x.1).map Prod.snd

/-- R191: what is read of a list. -/
def Node.listRead (n : Node) (item : Nat) (key : Option SettingKey) : Value :=
  .list
    [.list (((n.recordsFrom item key).take (recordsThatFit item (n.recordsFrom item key))).map .setting),
     .nat ((n.recordsFrom item key).length - recordsThatFit item (n.recordsFrom item key))]

section
variable (n : Node) (m : Memory) {a : Nat} (key : Option SettingKey)

theorem Node.settingRead_noItem (h : isItem a = false) : n.settingRead m a key = (n, .badArgument, .nil) := if_pos h

theorem isItem_of_number (h : (numberRange a).isSome = true) : isItem a = true := by
  rw [isItem, h, Bool.true_or]

theorem Node.settingRead_number (h : (numberRange a).isSome = true) :
    n.settingRead m a key = (n, .done, .list (.setting (.number (n.set.number a)) ::
      if nextStart a then [.nat (storedValue m a)] else [])) := by
  rw [Node.settingRead, if_neg (by simp [isItem_of_number h]), if_pos h]

theorem Node.settingRead_actions : n.settingRead m 31 key =
    (n, .done, .list [.setting (.actions n.set.releaseActions)]) := rfl

theorem Node.settingRead_beacons : n.settingRead m 32 key =
    (n, .done, .list [.setting (.beacons n.set.pulseBeacons)]) := rfl

/-- R191: a list-valued item. -/
theorem Node.settingRead_list (hi : isItem a = true) (hn : (numberRange a).isSome = false) (h31 : a ≠ 31)
    (h32 : a ≠ 32) :
    n.settingRead m a key = (n, .done, n.listRead a key) := by
  have hfrom : n.recordsFrom a key =
      ((n.itemRecords a).filter fun x => decide ((key.map keyRank).getD 0 ≤ keyRank x.1)).map Prod.snd := by
    cases key <;> simp [Node.recordsFrom]
  rw [Node.settingRead, if_neg (by simp [hi]), if_neg (by simp [hn]), if_neg h31, if_neg h32, Node.listRead, hfrom]

/-- R191: SETTING-READ of an item is DONE. -/
theorem Node.settingRead_done (hi : isItem a = true) :
    ∃ v, ∀ f, (n.onCmd f).settingRead m a key = (n.onCmd f, .done, v) := by
  by_cases hn : (numberRange a).isSome = true
  · exact ⟨.list (.setting (.number (n.set.number a)) :: if nextStart a then [.nat (storedValue m a)] else []),
      fun f => (n.onCmd f).settingRead_number m key hn⟩
  · by_cases h31 : a = 31
    · exact h31 ▸ ⟨.list [.setting (.actions n.set.releaseActions)], fun f => (n.onCmd f).settingRead_actions m key⟩
    · by_cases h32 : a = 32
      · exact h32 ▸ ⟨.list [.setting (.beacons n.set.pulseBeacons)], fun f => (n.onCmd f).settingRead_beacons m key⟩
      · exact ⟨n.listRead a key, fun f => (n.onCmd f).settingRead_list m key hi (Bool.eq_false_iff.2 hn) h31 h32⟩

end

/-! ## STORE-READ (R193) -/

theorem readBytes_eq (m : Memory) (off count : Nat) :
    readBytes m off count = (List.range count).map fun k => (readByte m (off + k)).getD 255#8 := by
  induction count generalizing off with
  | zero => rfl
  | succ count ih =>
    rw [readBytes, ih, List.range_succ_eq_map, List.map_cons, List.map_map]
    refine congrArg₂ _ rfl (List.map_congr_left fun k _ => ?_)
    rw [Function.comp_apply, Nat.succ_eq_add_one, Nat.add_right_comm, Nat.add_assoc]

theorem Node.storeRead_bad (n : Node) (m : Memory) {off : Nat} (h : 4096 ≤ off) :
    n.storeRead m off = (n, .badArgument, .nil) := if_pos h

theorem Node.storeRead_done (n : Node) (m : Memory) {off : Nat} (h : off < 4096) :
    n.storeRead m off = (n, .done, .list
      [.bytes ((List.range (min 224 (4096 - off))).map fun k => (readByte m (off + k)).getD 255#8),
       .nat (storeEnd m), .nat (4096 - storeEnd m), .nat n.applied, .nat n.skipped]) := by
  rw [← readBytes_eq]
  exact if_neg (Nat.not_le.2 h)

/-! ## The statement -/

/-- Settles O47: each read by its argument. -/
theorem readsWithAnArgument : Obligations.ReadsWithAnArgument := by
  intro o a s
  dsimp only
  have hdevice : ∀ h1 : 1 ≤ a, a ≤ 8 → ¬(a < 1 ∨ 8 < a) := by omega
  refine ⟨fun h t => ?_, fun p h t => ?_, ?_, ?_, fun h t => ?_, fun v h1 h8 hv t => ?_, ?_, ?_, fun h t => ?_,
    fun h1 h8 hg t => ?_, fun g h1 h8 hg t => ?_, fun key h t => ?_, fun key h hs t => ?_, fun key h hs t => ?_,
    fun key h t => ?_, fun key h t => ?_, fun key hi hn h31 h32 => ?_, fun key hi => ?_, fun h t => ?_, fun h t => ?_⟩
  · exact State.command_reads (read := fun n => n.portStatus a) (fun _ => rfl) t fun f => Node.portStatus_none _ h
  · exact State.command_reads (read := fun n => n.portStatus a) (fun _ => rfl) t fun f => Node.portStatus_some _ h
  · exact State.command_ranged (read := fun n => n.stationMapRead a) (fun _ => rfl) fun f => rfl
  · exact State.command_ranged (read := fun n => n.callList a) (fun _ => rfl) fun f => rfl
  · exact State.command_reads (read := fun n => n.deviceStatus a) (fun _ => rfl) t fun f => if_pos h
  · refine State.command_reads (read := fun n => n.deviceStatus a) (fun _ => rfl) t fun f => ?_
    rw [Node.deviceStatus, if_neg (hdevice h1 h8), Node.deviceReport_some (n := s.node.onCmd f) hv]
    rfl
  · exact State.command_ranged (read := fun n => n.tollStatus a) (fun _ => rfl) fun f => rfl
  · exact State.command_ranged (read := fun n => n.wxStatus a) (fun _ => rfl) fun f => rfl
  · exact State.command_reads (read := fun n => n.signStatus a) (fun _ => rfl) t fun f => Node.signCommand_bad _ h _
  · exact State.command_reads (read := fun n => n.signStatus a) (fun _ => rfl) t fun f =>
      Node.signCommand_none (n := s.node.onCmd f) (hdevice h1 h8) hg _
  · exact State.command_reads (read := fun n => n.signStatus a) (fun _ => rfl) t fun f =>
      Node.signCommand_some (n := s.node.onCmd f) (hdevice h1 h8) hg _
  · exact State.command_reads (read := fun n => n.settingRead s.store a key) (fun _ => rfl) t fun f =>
      Node.settingRead_noItem _ _ key h
  · exact State.command_reads (read := fun n => n.settingRead s.store a key) (fun _ => rfl) t fun f =>
      (Node.settingRead_number _ _ key h).trans (by rw [hs]; rfl)
  · exact State.command_reads (read := fun n => n.settingRead s.store a key) (fun _ => rfl) t fun f =>
      (Node.settingRead_number _ _ key h).trans (by rw [hs]; rfl)
  · exact State.command_reads (read := fun n => n.settingRead s.store a key) (fun _ => rfl) t fun f =>
      h ▸ Node.settingRead_actions _ _ key
  · exact State.command_reads (read := fun n => n.settingRead s.store a key) (fun _ => rfl) t fun f =>
      h ▸ Node.settingRead_beacons _ _ key
  · obtain ⟨hlength, hfits, hmost⟩ := recordsThatFit_spec a (s.node.recordsFrom a key)
    exact ⟨_, hlength, hfits, hmost, fun t => State.command_reads (read := fun n => n.settingRead s.store a key)
      (fun _ => rfl) t fun f => Node.settingRead_list _ _ key hi hn h31 h32⟩
  · obtain ⟨v, hv⟩ := s.node.settingRead_done s.store key hi
    exact ⟨v, fun t => State.command_reads (read := fun n => n.settingRead s.store a key) (fun _ => rfl) t hv⟩
  · exact State.command_reads (read := fun n => n.storeRead s.store a) (fun _ => rfl) t fun f => Node.storeRead_bad _ _ h
  · exact State.command_reads (read := fun n => n.storeRead s.store a) (fun _ => rfl) t fun f => Node.storeRead_done _ _ h

end Sys2Proof.Machine


/-! SUPPORT. COLLECT, COLLECT-CONFIRM and COLLECT-DROP (R164, R165, R172, R173), with O52. -/

namespace Sys2Proof.Machine

theorem Node.cmd_offerColl (n : Node) (m : Message) : (n.offerColl m).cmd = n.cmd := by
  unfold Node.offerColl
  dsimp only
  split
  · split <;> rfl
  · rfl

/-! ## COLLECT (R164) -/

/-- R164: the arguments that COLLECT refuses. -/
def collectBad (st max : Nat) : Bool := decide (st < 1 ∨ 999 < st ∨ max < 1 ∨ 64 < max)

/-- R164: whether the station map has the station present. -/
def Node.mapPresent (n : Node) (st : Nat) : Bool := decide ((n.head.entry st).map MapEntry.presence = some .present)

/-- R162, R164: the node with a new batch entry. -/
def Node.asked (n : Node) (st : Nat) (k : CollKind) (max : Nat) : Node :=
  { n with coll := { n.coll with
    batches := n.coll.batches ++ [
      { station := st, kind := k, state := .asked, number := n.coll.nextBatch, max := max, n := none, received := 0,
        endSeen := false, cause := none, placed := false, timer := some (n.svc.now + n.set.collectTimeout * 4),
        acks := if k = .toll then .toll [] else .weather [] }]
    last := n.coll.nextBatch
    counts := { n.coll.counts with begun := bump 65535 n.coll.counts.begun } } }

section
variable {n : Node} {st max : Nat}

theorem Node.collect_noKind : n.collect st none max = (n, .badArgument, .nil) := rfl

theorem Node.collect_bad (k : CollKind) (h : collectBad st max = true) :
    n.collect st (some k) max = (n, .badArgument, .nil) := if_pos (of_decide_eq_true h)

variable {k : CollKind} (hargs : collectBad st max = false)
include hargs

theorem Node.collect_open (ho : n.head.state = .opened) : n.collect st (some k) max = (n, .wrongState, .nil) := by
  unfold Node.collect
  dsimp only
  rw [if_neg (of_decide_eq_false hargs), if_pos ho]

variable (ho : n.head.state ≠ .opened)
include ho

theorem Node.collect_busy (hb : n.collectBusy st k = true) : n.collect st (some k) max = (n, .busy, .nil) := by
  unfold Node.collect
  dsimp only
  rw [if_neg (of_decide_eq_false hargs), if_neg ho, if_pos hb]

variable (hb : n.collectBusy st k = false)
include hb

theorem Node.collect_unknown (hp : n.mapPresent st = false) : n.collect st (some k) max = (n, .notFound, .nil) := by
  unfold Node.collect
  dsimp only
  rw [if_neg (of_decide_eq_false hargs), if_neg ho, if_neg (by rw [hb]; decide)]
  unfold Node.mapPresent at hp
  cases he : n.head.entry st with
  | none => rfl
  | some e =>
    have hne : e.presence ≠ .present := by simpa [he] using hp
    simp [hne]

theorem Node.collect_asks (hp : n.mapPresent st = true) :
    n.collect st (some k) max = ((n.asked st k max).offerColl
      { source := n.me, dest := st, length := 1, payload := .collectAsk n.coll.nextBatch k max }, .done,
      .nat n.coll.nextBatch) := by
  unfold Node.collect
  dsimp only
  rw [if_neg (of_decide_eq_false hargs), if_neg ho, if_neg (by rw [hb]; decide)]
  unfold Node.mapPresent at hp
  cases he : n.head.entry st with
  | none => simp [he] at hp
  | some e =>
    have heq : e.presence = .present := by simpa [he] using hp
    simp only [heq, decide_true, if_true]
    cases k <;> rfl

end

/-- R164: COLLECT answers at once, whatever it answers. -/
theorem exec_collect {s : State} {o : Origin} {st max : Nat} {kind : Option CollKind} (h : Takes s o (.collect st kind max))
    {m : Node} {status : Status} {v : Value} (hcmd : m.cmd = s.node.cmd)
    (hact : ∀ f, (s.node.onCmd f).collect st kind max = (m.onCmd f, status, v)) :
    exec (.collect o st kind max) s = .next (s.replied m o (.collect st kind max) status v) :=
  State.command_acting h (act := fun n => n.collect st kind max) (fun _ => rfl) hcmd hact

/-- R162: the next batch number is in no use and counts on. -/
theorem Coll.nextBatch_spec (c : Coll) :
    let after (k : Nat) : Nat := if k < 255 then k + 1 else 1
    1 ≤ c.nextBatch ∧ c.nextBatch ≤ 255 ∧
    (∃ k ≤ 4, c.nextBatch = Nat.repeat after (k + 1) c.last ∧
      ∀ j, j < k → ∃ e ∈ c.batches, e.number = Nat.repeat after (j + 1) c.last) ∧
    (c.batches.length ≤ 4 → ∀ e ∈ c.batches, e.number ≠ c.nextBatch) := by
  have hrange : 1 ≤ c.nextBatch ∧ c.nextBatch ≤ 255 := nextNumber_range _ _ _ (by decide)
  obtain ⟨k, hk, hnext, hused⟩ := nextNumber_counts_on 255 (c.batches.map (·.number)) 4 c.last
  refine ⟨hrange.1, hrange.2, ⟨k, hk, hnext, fun j hj => List.mem_map.1 (hused j hj)⟩, fun hfew e he heq => ?_⟩
  refine nextNumber_fresh (max := 255) (used := c.batches.map (·.number)) (fuel := 4) c.last (by decide)
    (by simpa using hfew) ?_
  exact List.mem_map.2 ⟨e, he, heq⟩

/-! ## COLLECT-CONFIRM and COLLECT-DROP (R172, R173) -/

/-- The node with a batch freed and counted. -/
def Node.freed (n : Node) (batch : Nat) (f : CollCounts → CollCounts) : Node :=
  { n with coll := { n.coll with
    batches := n.coll.batches.filter fun e => e.number ≠ batch, counts := f n.coll.counts } }

/-- R172, R173: the batch numbers that are refused. -/
def batchBad (batch : Nat) : Bool := decide (batch < 1 ∨ 255 < batch)

/-- R172, R173: the batch that a command names. -/
def Coll.named (c : Coll) (batch : Nat) : Option BatchEntry := c.batches.find? fun e => e.number = batch

section
variable {n : Node} {batch : Nat}

theorem Node.heldBatch_bad (h : batchBad batch = true) : n.heldBatch batch = .error .badArgument :=
  if_pos (of_decide_eq_true h)

theorem Node.heldBatch_none (h : batchBad batch = false) (hf : n.coll.named batch = none) :
    n.heldBatch batch = .error .notFound := by
  unfold Coll.named at hf
  rw [Node.heldBatch, if_neg (of_decide_eq_false h), hf]

theorem Node.heldBatch_other {e : BatchEntry} (h : batchBad batch = false) (hf : n.coll.named batch = some e)
    (hs : e.state ≠ .held) : n.heldBatch batch = .error .wrongState := by
  unfold Coll.named at hf
  rw [Node.heldBatch, if_neg (of_decide_eq_false h), hf]
  exact if_neg hs

theorem Node.heldBatch_held {e : BatchEntry} (h : batchBad batch = false) (hf : n.coll.named batch = some e)
    (hs : e.state = .held) : n.heldBatch batch = .ok e := by
  unfold Coll.named at hf
  rw [Node.heldBatch, if_neg (of_decide_eq_false h), hf]
  exact if_pos hs

theorem Node.collectConfirm_refused {st : Status} (h : n.heldBatch batch = .error st) :
    n.collectConfirm batch = (n, st, .nil) := by
  rw [Node.collectConfirm, h]

theorem Node.collectDrop_refused {st : Status} (h : n.heldBatch batch = .error st) :
    n.collectDrop batch = (n, st, .nil) := by
  rw [Node.collectDrop, h]

theorem Node.collectDrop_held {e : BatchEntry} (h : n.heldBatch batch = .ok e) :
    n.collectDrop batch = (n.freed batch fun k => { k with dropped := bump 65535 k.dropped }, .done, .nil) := by
  rw [Node.collectDrop, h]
  rfl

variable {e : BatchEntry} (h : n.heldBatch batch = .ok e)
include h

theorem Node.collectConfirm_busy (hr : 0 < e.received) (hfull : 8 ≤ n.coll.heldH.length) :
    n.collectConfirm batch = (n, .busy, .nil) := by
  rw [Node.collectConfirm, h]
  exact if_pos ⟨hr, hfull⟩

theorem Node.collectConfirm_empty (hr : e.received = 0) :
    n.collectConfirm batch = (n.freed batch fun k => { k with confirmed := bump 65535 k.confirmed }, .done, .nil) := by
  rw [Node.collectConfirm, h]
  simp only [hr, Nat.lt_irrefl, false_and, if_false]
  rfl

theorem Node.collectConfirm_acks (hr : 0 < e.received) (hroom : n.coll.heldH.length < 8) :
    n.collectConfirm batch = ((n.offerColl
      { source := n.me, dest := e.station, length := messageSlots (.collectAck batch e.acks),
        payload := .collectAck batch e.acks }).freed batch fun k => { k with confirmed := bump 65535 k.confirmed },
      .done, .nil) := by
  rw [Node.collectConfirm, h]
  refine (if_neg fun hbusy => Nat.not_le.2 hroom hbusy.2).trans ?_
  simp only [hr, if_true]
  rfl

end

theorem exec_collectConfirm {s : State} {o : Origin} {batch : Nat} (h : Takes s o (.collectConfirm batch))
    {m : Node} {st : Status} {v : Value} (hcmd : m.cmd = s.node.cmd)
    (hact : ∀ f, (s.node.onCmd f).collectConfirm batch = (m.onCmd f, st, v)) :
    exec (.collectConfirm o batch) s = .next (s.replied m o (.collectConfirm batch) st v) :=
  State.command_acting h (act := fun n => n.collectConfirm batch) (fun _ => rfl) hcmd hact

theorem exec_collectDrop {s : State} {o : Origin} {batch : Nat} (h : Takes s o (.collectDrop batch))
    {m : Node} {st : Status} {v : Value} (hcmd : m.cmd = s.node.cmd)
    (hact : ∀ f, (s.node.onCmd f).collectDrop batch = (m.onCmd f, st, v)) :
    exec (.collectDrop o batch) s = .next (s.replied m o (.collectDrop batch) st v) :=
  State.command_acting h (act := fun n => n.collectDrop batch) (fun _ => rfl) hcmd hact

/-! ## The statement -/

/-- Settles O52: COLLECT by its checks in their order, then the two commands on a named batch. -/
theorem collectCommands : Obligations.CollectCommands := by
  intro o st max batch kind s
  refine ⟨fun h => ⟨fun hbad => ?_, ?_⟩, fun h => ⟨fun hbad => ?_, fun hok hnone => ?_, fun e hok hsome =>
    ⟨fun hs => ?_, fun hs hr hfull => ?_, fun hs hr => ?_, fun hs hr hroom => ?_⟩⟩, fun h => ⟨fun hbad => ?_,
    fun hok hnone => ?_, fun e hok hsome => ⟨fun hs => ?_, fun hs => ?_⟩⟩⟩
  · cases kind with
    | none => exact exec_collect h rfl fun f => rfl
    | some k => exact exec_collect h rfl fun f => Node.collect_bad k (hbad.resolve_left fun he => nomatch he)
  · rintro k rfl hargs
    refine ⟨fun ho => exec_collect h rfl fun f => Node.collect_open (n := s.node.onCmd f) hargs ho, fun ho =>
      ⟨fun hb => ?busy, fun hb hp => ?unknown, fun hb hp => ?asks⟩⟩
    case busy => exact exec_collect h rfl fun f => Node.collect_busy (n := s.node.onCmd f) hargs ho hb
    case unknown => exact exec_collect h rfl fun f => Node.collect_unknown (n := s.node.onCmd f) hargs ho hb hp
    case asks =>
      obtain ⟨hlow, hhigh, hcounts, hfresh⟩ := s.node.coll.nextBatch_spec
      refine ⟨_, hlow, hhigh, hcounts, hfresh, exec_collect h (Node.cmd_offerColl ..) fun f => ?_⟩
      refine (Node.collect_asks (n := s.node.onCmd f) hargs ho hb hp).trans ?_
      exact congrArg (fun m : Node => (m, Status.done, Value.nat s.node.coll.nextBatch))
        (Node.onCmd_offerColl (s.node.asked st k max) f _)
  · exact exec_collectConfirm h rfl fun f => Node.collectConfirm_refused (Node.heldBatch_bad hbad)
  · exact exec_collectConfirm h rfl fun f =>
      Node.collectConfirm_refused (Node.heldBatch_none (n := s.node.onCmd f) hok hnone)
  · exact exec_collectConfirm h rfl fun f =>
      Node.collectConfirm_refused (Node.heldBatch_other (n := s.node.onCmd f) hok hsome hs)
  · exact exec_collectConfirm h rfl fun f =>
      Node.collectConfirm_busy (n := s.node.onCmd f) (Node.heldBatch_held hok hsome hs) hr hfull
  · exact exec_collectConfirm h rfl fun f =>
      Node.collectConfirm_empty (n := s.node.onCmd f) (Node.heldBatch_held hok hsome hs) hr
  · refine exec_collectConfirm h (Node.cmd_offerColl ..) fun f => ?_
    refine (Node.collectConfirm_acks (n := s.node.onCmd f) (Node.heldBatch_held hok hsome hs) hr hroom).trans ?_
    rw [Node.onCmd_offerColl]
    rfl
  · exact exec_collectDrop h rfl fun f => Node.collectDrop_refused (Node.heldBatch_bad hbad)
  · exact exec_collectDrop h rfl fun f =>
      Node.collectDrop_refused (Node.heldBatch_none (n := s.node.onCmd f) hok hnone)
  · exact exec_collectDrop h rfl fun f =>
      Node.collectDrop_refused (Node.heldBatch_other (n := s.node.onCmd f) hok hsome hs)
  · exact exec_collectDrop h rfl fun f =>
      Node.collectDrop_held (n := s.node.onCmd f) (Node.heldBatch_held hok hsome hs)

end Sys2Proof.Machine


/-! SUPPORT. A wayside's batch of a kind (R166, R167): its placeholder is looked at, an item of it is sent, a new ask. -/

namespace Sys2Proof.Machine

/-! ## The batch record -/

@[simp] theorem Coll.record_setRecord (c : Coll) (k : CollKind) (b : Option WBatch) : (c.setRecord k b).record k = b := by
  cases k <;> rfl

theorem Coll.record_setRecord_other (c : Coll) {j k : CollKind} (h : j ≠ k) (b : Option WBatch) :
    (c.setRecord k b).record j = c.record j := by
  cases j <;> cases k <;> first | rfl | exact absurd rfl h

theorem Coll.setRecord_self {c : Coll} {k : CollKind} {b : Option WBatch} (h : c.record k = b) : c.setRecord k b = c := by
  subst h
  cases k <;> rfl

@[simp] theorem Coll.record_countKind (c : Coll) (j k : CollKind) (f : KindCounts → KindCounts) :
    (c.countKind k f).record j = c.record j := by
  cases j <;> cases k <;> rfl

theorem Node.onColl_congr (n : Node) {f g : Coll → Coll} (h : f n.coll = g n.coll) : n.onColl f = n.onColl g := by
  rw [Node.onColl, Node.onColl, h]

theorem Coll.record_unbind (c : Coll) (l : Loop) (k : CollKind) :
    (c.unbind l).record k =
      (c.record k).map fun b => if b.bound = some l then { b with bound := none } else b := by
  cases k <;> rfl

/-! ## The placeholder is looked at (R32, R167) -/

/-- R167: the node with a batch bound to the loop that looks at it, unless it is bound already. -/
def Node.bound (n : Node) (k : CollKind) (b : WBatch) (l : Loop) : Node :=
  n.onColl fun c => c.setRecord k (some { b with bound := some (b.bound.getD l) })

/-- R167: the payload that an item goes with. -/
def Node.itemPayload (n : Node) (k : CollKind) (b : WBatch) (i : ItemId) (mark : ItemMark) : Payload :=
  .batchItem b.number k b.items.length b.next (if mark = .removed then .void i else (n.itemContents i).getD (.void i))

section
variable {n : Node} {k : CollKind} {b : WBatch} (h : n.coll.record k = some b)
include h

theorem Node.bindLoop_eq (l : Loop) : n.bindLoop k l = n.bound k b l := by
  refine Node.onColl_congr n ?_
  rw [h]
  obtain ⟨number, items, next, _ | x⟩ := b
  · rfl
  · exact (Coll.setRecord_self h).symm

omit h in
theorem Node.boundTo_bound (l : Loop) : (n.bound k b l).coll.boundTo k l = decide (b.bound.getD l = l) := by
  unfold Coll.boundTo Node.bound Node.onColl
  rw [Coll.record_setRecord]
  simp

theorem Node.nextItem_none (hi : nth b.items b.next = none) : n.nextItem k = none := by
  rw [Node.nextItem, h]
  dsimp only
  rw [hi]

theorem Node.nextItem_some {i : ItemId} {mark : ItemMark} (hi : nth b.items b.next = some (i, mark)) :
    n.nextItem k = some { source := n.me, dest := Config.headEndNumber, length := messageSlots (n.itemPayload k b i mark),
                          payload := n.itemPayload k b i mark } := by
  rw [Node.nextItem, h]
  dsimp only
  rw [hi]
  rfl

theorem Node.nextItem_isNone : (n.nextItem k).isNone = (nth b.items b.next).isNone := by
  cases hi : nth b.items b.next with
  | none => rw [Node.nextItem_none h hi]; rfl
  | some x => rw [Node.nextItem_some (i := x.1) (mark := x.2) h hi]; rfl

variable (l : Loop) (hold : Holding) (id j : Nat) (rest : List NEntry)

/-- R167: a batch bound to the other loop can begin no message. -/
theorem Node.chooseNormal_otherLoop (hb : b.bound.getD l ≠ l) :
    Node.chooseNormal l hold (.batch id k j false :: rest) n = (n.bound k b l, none) := by
  rw [Node.chooseNormal, if_neg (by decide)]
  dsimp only
  rw [Node.bindLoop_eq h, Node.boundTo_bound, if_neg (by simpa using hb)]

/-- R32: a placeholder with no item left leaves the queue, and the next entry is looked at. -/
theorem Node.chooseNormal_noItem (hb : b.bound.getD l = l) (hi : nth b.items b.next = none) :
    Node.chooseNormal l hold (.batch id k j false :: rest) n =
      Node.chooseNormal l hold rest ((n.bound k b l).onSvc fun s => s.dropEntry (NEntry.isPlace id)) := by
  have hrecord : (n.bound k b l).coll.record k = some { b with bound := some (b.bound.getD l) } :=
    Coll.record_setRecord ..
  rw [Node.chooseNormal, if_neg (by decide)]
  dsimp only
  rw [Node.bindLoop_eq h, Node.boundTo_bound, if_pos (decide_eq_true hb), Node.nextItem_none hrecord hi]

/-- R167: the item at the next index begins if the burst quota allows. -/
theorem Node.chooseNormal_item {i : ItemId} {mark : ItemMark} (hb : b.bound.getD l = l)
    (hi : nth b.items b.next = some (i, mark)) :
    let p := n.itemPayload k b i mark
    let msg : Message :=
      { source := n.me, dest := Config.headEndNumber, length := messageSlots p, payload := p }
    Node.chooseNormal l hold (.batch id k j false :: rest) n = (n.bound k b l,
      if hold.started = false ∨ hold.quota + messageSlots p ≤ hold.burst then
        some { src := .item id k, slots := slotsOf msg } else none) := by
  have hrecord : (n.bound k b l).coll.record k = some { b with bound := some (b.bound.getD l) } :=
    Coll.record_setRecord ..
  have hpayload : (n.bound k b l).itemPayload k { b with bound := some (b.bound.getD l) } i mark =
      n.itemPayload k b i mark := by
    cases i <;> rfl
  have hfits (len : Nat) : hold.fits len = true ↔ hold.started = false ∨ hold.quota + len ≤ hold.burst := by
    simp [Holding.fits]
  intro p msg
  rw [Node.chooseNormal, if_neg (by decide)]
  dsimp only
  rw [Node.bindLoop_eq h, Node.boundTo_bound, if_pos (decide_eq_true hb), Node.nextItem_some hrecord hi, hpayload]
  by_cases hf : hold.fits (messageSlots p) = true
  · rw [if_pos ((hfits _).1 hf)]
    exact if_pos hf
  · rw [if_neg (mt (hfits _).2 hf)]
    exact if_neg hf

end

/-! ## An item is sent (R167) -/

theorem nth_isNone_succ {α : Type} (l : List α) (k : Nat) : (nth l (k + 1)).isNone = true ↔ l.length ≤ k := by
  induction l generalizing k with
  | nil => simp
  | cons a l ih =>
    cases k with
    | zero => simp
    | succ k => rw [nth_cons, ih, List.length_cons, Nat.succ_le_succ_iff]

/-- R167: a batch with the item at its next index sent. -/
def WBatch.sent (b : WBatch) : WBatch :=
  { b with items := change (fun x => (x.1, .sent)) b.items b.next, next := b.next + 1 }

/-- R167: an item of a batch is sent and counted. -/
def Coll.sendItem (c : Coll) (k : CollKind) (b : WBatch) (void : Bool) : Coll :=
  (c.setRecord k (some b.sent)).countKind k fun a =>
    { a with sent := bump 65535 a.sent, voids := if void then bump 65535 a.voids else a.voids }

/-- R32, R167: the node once an item of a batch is sent. -/
def Node.sentItem (n : Node) (id : Nat) (k : CollKind) (b : WBatch) (void : Bool) : Node :=
  let m := n.onColl fun c => c.sendItem k b void
  if b.items.length ≤ b.next then m.onSvc fun s => s.dropEntry (NEntry.isPlace id) else m

theorem Node.itemSent_eq {n : Node} {k : CollKind} {b : WBatch} (h : n.coll.record k = some b) (id : Nat) (void : Bool) :
    n.itemSent id k void = n.sentItem id k b void := by
  have hrecord : (n.onColl fun c => c.sendItem k b void).coll.record k = some b.sent :=
    (Coll.record_countKind ..).trans (Coll.record_setRecord ..)
  have hleft : (nth b.sent.items b.sent.next).isNone = true ↔ b.items.length ≤ b.next := by
    rw [WBatch.sent, nth_isNone_succ, length_change]
  refine (congrArg (fun m : Node => if (m.nextItem k).isNone then m.onSvc fun s => s.dropEntry (NEntry.isPlace id)
    else m) (n.onColl_congr (g := fun c => c.sendItem k b void) ?_)).trans ?_
  · rw [h] <;> rfl
  · rw [Node.sentItem, Node.nextItem_isNone hrecord]
    simp only [hleft]

/-- R167: the first slot of an item is placed. -/
theorem Node.firstPlaced_item {n : Node} {l : Loop} {k : CollKind} {b : WBatch} (h : n.coll.record k = some b) (id : Nat)
    {s : Slot} (rest : List Slot) {number total index : Nat} {i : Item} :
    s.body = .message (.batchItem number k total index i) → n.firstPlaced l { src := .item id k, slots := s :: rest } = match i with
      | .void _ => n.sentItem id k b true
      | _ => n.sentItem id k b false := by
  obtain ⟨source, dest, length, seq, body⟩ := s
  rintro rfl
  cases i with
  | void x => exact Node.itemSent_eq h id true
  | toll r t => exact Node.itemSent_eq h id false
  | segment g => exact Node.itemSent_eq h id false

end Sys2Proof.Machine


/-! SUPPORT. A COLLECT-ASK at a wayside (R142, R154, R166): the batch forgotten, the loans, the offers; with O53. -/

namespace Sys2Proof.Machine

/-! ## The batch before it is forgotten (R32, R166 step 1) -/

/-- R166: of a kind's forgotten batch no held entry and no unplaced head or end stays, and every other message does. -/
structure Node.Forgets (k : CollKind) (n m : Node) : Prop where
  held : m.coll.heldW = n.coll.heldW.filter fun e => e.kind ≠ k
  gone : ∀ e ∈ m.svc.queues.normal, e.unplaced (isBatchEdge k) = false
  stays : ∀ q, NEntry.msg q ∈ n.svc.queues.normal → NEntry.unplaced (isBatchEdge k) (.msg q) = false →
    NEntry.msg q ∈ m.svc.queues.normal

theorem Svc.markLeaving_normal (s : Svc) (id : Nat) {e : NEntry} (h : e ∈ (s.markLeaving id).queues.normal) :
    e ∈ s.queues.normal ∨ ∀ p, e.unplaced p = false := by
  obtain ⟨x, hx, rfl⟩ := List.mem_map.1 h
  cases x with
  | msg m => exact .inl hx
  | batch j k b l =>
    refine .inr fun p => ?_
    dsimp only
    split <;> rfl

theorem Svc.dropEntry_normal (s : Svc) (p : NEntry → Bool) {e : NEntry} (h : e ∈ (s.dropEntry p).queues.normal) :
    e ∈ s.queues.normal := by
  unfold Svc.dropEntry at h
  split at h
  · exact mem_of_mem_dropFirst h
  · exact h

theorem Svc.msg_mem_markLeaving {s : Svc} (id : Nat) {q : QMsg} (h : NEntry.msg q ∈ s.queues.normal) :
    NEntry.msg q ∈ (s.markLeaving id).queues.normal :=
  List.mem_map.2 ⟨.msg q, h, rfl⟩

theorem Svc.msg_mem_dropPlace {s : Svc} (id : Nat) {q : QMsg} (h : NEntry.msg q ∈ s.queues.normal) :
    NEntry.msg q ∈ (s.dropEntry (NEntry.isPlace id)).queues.normal := by
  unfold Svc.dropEntry
  split
  · exact mem_dropFirst h rfl
  · exact h

/-- R32: withdrawing a placeholder moves no message, and of the services only the normal queue. -/
theorem Node.withdrawPlaceholder_spec (n : Node) (k : CollKind) :
    let m := n.withdrawPlaceholder k
    m = { n with svc := m.svc } ∧ m.svc.wx = n.svc.wx ∧ m.svc.settings = n.svc.settings ∧ m.svc.now = n.svc.now ∧
      (∀ e ∈ m.svc.queues.normal, e ∈ n.svc.queues.normal ∨ ∀ p, e.unplaced p = false) ∧
      (∀ q, NEntry.msg q ∈ n.svc.queues.normal → NEntry.msg q ∈ m.svc.queues.normal) := by
  unfold Node.withdrawPlaceholder
  split
  · exact ⟨rfl, rfl, rfl, rfl, fun e he => .inl he, fun q hq => hq⟩
  next id _ =>
    split
    · exact ⟨rfl, rfl, rfl, rfl, fun e he => n.svc.markLeaving_normal id he, fun q hq => Svc.msg_mem_markLeaving id hq⟩
    · have hkept : (n.svc.dropEntry (NEntry.isPlace id)).wx = n.svc.wx ∧
          (n.svc.dropEntry (NEntry.isPlace id)).settings = n.svc.settings ∧
          (n.svc.dropEntry (NEntry.isPlace id)).now = n.svc.now := by
        unfold Svc.dropEntry
        split <;> exact ⟨rfl, rfl, rfl⟩
      exact ⟨rfl, hkept.1, hkept.2.1, hkept.2.2, fun e he => .inl (n.svc.dropEntry_normal _ he),
        fun q hq => Svc.msg_mem_dropPlace id hq⟩

theorem Node.forgetBatch_none {n : Node} {k : CollKind} (h : n.coll.record k = none) : n.forgetBatch k = n := by
  rw [Node.forgetBatch, h]

/-- R166 step 1: what forgetting a batch leaves. -/
structure Node.ForgetStep (k : CollKind) (n m : Node) : Prop where
  rest : m = { n with svc := m.svc, coll := m.coll }
  wx : m.svc.wx = n.svc.wx
  settings : m.svc.settings = n.svc.settings
  others : ∀ j, j ≠ k → m.coll.record j = n.coll.record j
  counts : m.coll.counts = n.coll.counts

theorem Coll.setRecord_heldW (c : Coll) (k : CollKind) (b : Option WBatch) : (c.setRecord k b).heldW = c.heldW := by
  cases k <;> rfl

theorem Coll.setRecord_counts (c : Coll) (k : CollKind) (b : Option WBatch) : (c.setRecord k b).counts = c.counts := by
  cases k <;> rfl

theorem Node.forgetBatch_some {n : Node} {k : CollKind} {b : WBatch} (h : n.coll.record k = some b) :
    Node.ForgetStep k n (n.forgetBatch k) ∧ Node.Forgets k n (n.forgetBatch k) := by
  have hm : n.forgetBatch k = (((n.onColl fun c => { c with heldW := c.heldW.filter fun e => e.kind ≠ k }).onSvc fun s =>
      s.withdrawNormal (isBatchEdge k)).withdrawPlaceholder k).onColl fun c => c.setRecord k none := by
    rw [Node.forgetBatch, h]
  obtain ⟨hnormal, -, -, hset, hwx, -⟩ := n.svc.withdrawNormal_spec (isBatchEdge k)
  rw [hm]
  generalize hx : (n.onColl fun c => { c with heldW := c.heldW.filter fun e => e.kind ≠ k }).onSvc (fun s =>
      s.withdrawNormal (isBatchEdge k)) = x
  have hxsvc : x.svc = n.svc.withdrawNormal (isBatchEdge k) := by rw [← hx]; rfl
  have hxcoll : x.coll = { n.coll with heldW := n.coll.heldW.filter fun e => e.kind ≠ k } := by rw [← hx]; rfl
  have hxrest : x = { n with svc := x.svc, coll := x.coll } := by rw [← hx]; rfl
  obtain ⟨hrest, hywx, hyset, -, hsub, hmsg⟩ := x.withdrawPlaceholder_spec k
  generalize x.withdrawPlaceholder k = y at hrest hywx hyset hsub hmsg
  have hycoll : y.coll = x.coll := by rw [hrest]
  refine ⟨⟨?_, hywx.trans (by rw [hxsvc, hwx]), hyset.trans (by rw [hxsvc, hset]), fun j hj => ?_, ?_⟩, ⟨?_, fun e he => ?_,
    fun q hq hstays => ?_⟩⟩
  · rw [hrest, hxrest]
    rfl
  · refine (Coll.record_setRecord_other _ hj _).trans ?_
    rw [hycoll, hxcoll]
    cases j <;> rfl
  · refine (Coll.setRecord_counts ..).trans ?_
    rw [hycoll, hxcoll]
  · refine (Coll.setRecord_heldW ..).trans ?_
    rw [hycoll, hxcoll]
  · rcases hsub e he with hold | hno
    · rw [hxsvc, hnormal] at hold
      simpa using (List.mem_filter.1 hold).2
    · exact hno _
  · refine hmsg q ?_
    rw [hxsvc, hnormal]
    exact List.mem_filter.2 ⟨hq, by rw [hstays]; rfl⟩

theorem Node.ForgetStep.refl (k : CollKind) (n : Node) : Node.ForgetStep k n n := ⟨rfl, rfl, rfl, fun _ _ => rfl, rfl⟩

theorem Node.forgetBatch_step (n : Node) (k : CollKind) : Node.ForgetStep k n (n.forgetBatch k) := by
  cases h : n.coll.record k with
  | none => rw [Node.forgetBatch_none h]; exact .refl k n
  | some b => exact (Node.forgetBatch_some h).1

/-! ## The loans (R142, R154) -/

/-- R142: with every record UNLOANED the oldest are LOANED. -/
theorem selectRecords_unloaned (batch : Nat) : ∀ (max : Nat) (l : List LogRecord), (∀ r ∈ l, r.loan = none) →
    selectRecords batch max l = (l.take max).map (fun r => { r with loan := some batch }) ++ l.drop max
  | 0, l, _ => by rw [selectRecords, List.take_zero, List.map_nil, List.drop_zero, List.nil_append]
  | _ + 1, [], _ => rfl
  | max + 1, r :: l, h => by
    rw [selectRecords, if_pos (by rw [h r List.mem_cons_self]; rfl),
      selectRecords_unloaned batch max l fun x hx => h x (List.mem_cons_of_mem _ hx), List.take_succ_cons, List.map_cons,
      List.drop_succ_cons, List.cons_append]

theorem recordsLoanedTo_append (batch : Nat) (a b : List LogRecord) :
    recordsLoanedTo batch (a ++ b) = recordsLoanedTo batch a ++ recordsLoanedTo batch b := by
  rw [recordsLoanedTo, List.filter_append, List.map_append]
  rfl

/-- R142, R166: what a new batch of records is made of. -/
theorem Toll.cancel_select (t : Toll) (batch max : Nat) :
    let l := selectRecords batch max t.cancel.log
    l = (t.log.take max).map (fun r => { r with loan := some batch }) ++
        (t.log.drop max).map (fun r => { r with loan := none }) ∧
      recordsLoanedTo batch l = (t.log.take max).map fun r => (r.record.gantry, r.record.seq) := by
  have hl : selectRecords batch max t.cancel.log =
      (t.log.take max).map (fun r => { r with loan := some batch }) ++
        (t.log.drop max).map (fun r => { r with loan := none }) := by
    have hlog : t.cancel.log = t.log.map fun r => { r with loan := none } := rfl
    rw [hlog, selectRecords_unloaned batch max _ fun r hr => ?_, ← List.map_take, ← List.map_drop, List.map_map]
    · rfl
    · obtain ⟨x, -, rfl⟩ := List.mem_map.1 hr
      rfl
  intro l
  refine ⟨hl, ?_⟩
  have hloaned (a : List LogRecord) : recordsLoanedTo batch (a.map fun r => { r with loan := some batch }) =
      a.map fun r => (r.record.gantry, r.record.seq) := by
    rw [recordsLoanedTo, List.filter_eq_self.2, List.map_map]
    · rfl
    · intro r hr
      obtain ⟨x, -, rfl⟩ := List.mem_map.1 hr
      exact decide_eq_true rfl
  have hfree (a : List LogRecord) : recordsLoanedTo batch (a.map fun r => { r with loan := none }) = [] := by
    rw [recordsLoanedTo, List.filter_eq_nil_iff.2, List.map_nil]
    intro r hr
    obtain ⟨x, -, rfl⟩ := List.mem_map.1 hr
    simp
  rw [show l = _ from hl, recordsLoanedTo_append, hloaned, hfree, List.append_nil]

/-- R154: one segment of a store whose loans are cancelled. -/
def cancelledSegment (g : Segment) : Segment := if g.state = .loaned then { g with state := .closed, batch := none } else g

/-- R154: a segment LOANED to a batch. -/
def loanedSegment (batch : Nat) (g : Segment) : Segment := { g with state := .loaned, batch := some batch }

/-- R154: a segment that is not OPEN, and not LOANED on. -/
def closedSegment (g : Segment) : Segment :=
  { g with state := .closed, batch := if g.state = .loaned then none else g.batch }

theorem cancelledSegment_opened {g : Segment} (h : g.state = .opened) : cancelledSegment g = g :=
  if_neg (by rw [h]; decide)

theorem cancelledSegment_other {g : Segment} (h : g.state ≠ .opened) : cancelledSegment g = closedSegment g := by
  obtain ⟨number, device, state, batch, first, gap, cause, samples⟩ := g
  cases state with
  | opened => exact absurd rfl h
  | closed => rfl
  | loaned => rfl

/-- R154: what selecting segments for a batch makes of a store. -/
structure SelectsSegments (batch max : Nat) (l m : List Segment) : Prop where
  numbers : m.map (·.number) = l.map (·.number)
  opened : m.filter (fun g => g.state = .opened) = l.filter (fun g => g.state = .opened)
  others : m.filter (fun g => g.state ≠ .opened) =
    ((l.filter fun g => g.state ≠ .opened).take max).map (loanedSegment batch) ++
      ((l.filter fun g => g.state ≠ .opened).drop max).map closedSegment
  loaned : loanedTo batch m = ((l.filter fun g => g.state ≠ .opened).take max).map (·.number)

section
variable {batch max : Nat} {g : Segment} {l m : List Segment}

theorem loanedTo_cons (batch : Nat) (g : Segment) (m : List Segment) :
    loanedTo batch (g :: m) =
      if g.state = .loaned ∧ g.batch = some batch then g.number :: loanedTo batch m else loanedTo batch m := by
  unfold loanedTo
  rw [List.filter_cons]
  simp only [Bool.and_eq_true, decide_eq_true_eq]
  split <;> rfl

theorem filter_opened_cons (g : Segment) (l : List Segment) : (g :: l).filter (fun g => g.state = .opened) =
    if g.state = .opened then g :: l.filter (fun g => g.state = .opened) else l.filter (fun g => g.state = .opened) := by
  simp only [List.filter_cons, decide_eq_true_eq]

theorem filter_others_cons (g : Segment) (l : List Segment) : (g :: l).filter (fun g => g.state ≠ .opened) =
    if g.state = .opened then l.filter (fun g => g.state ≠ .opened) else g :: l.filter (fun g => g.state ≠ .opened) := by
  simp only [List.filter_cons, decide_eq_true_eq, ne_eq, ite_not]

/-- An OPEN segment stays. -/
theorem SelectsSegments.cons_opened (hg : g.state = .opened) (h : SelectsSegments batch max l m) :
    SelectsSegments batch max (g :: l) (g :: m) := by
  refine ⟨by rw [List.map_cons, h.numbers, List.map_cons], ?_, ?_, ?_⟩
  · rw [filter_opened_cons, if_pos hg, filter_opened_cons, if_pos hg, h.opened]
  · rw [filter_others_cons, if_pos hg, filter_others_cons, if_pos hg, h.others]
  · rw [loanedTo_cons, if_neg (by simp [hg]), filter_others_cons, if_pos hg, h.loaned]

/-- The oldest segment that is not OPEN is LOANED. -/
theorem SelectsSegments.cons_loaned (hg : g.state ≠ .opened) (h : SelectsSegments batch max l m) :
    SelectsSegments batch (max + 1) (g :: l) (loanedSegment batch g :: m) := by
  have hloaned : (loanedSegment batch g).state ≠ .opened := fun hc => nomatch hc
  refine ⟨by rw [List.map_cons, h.numbers, List.map_cons]; rfl, ?_, ?_, ?_⟩
  · rw [filter_opened_cons, if_neg hloaned, filter_opened_cons, if_neg hg, h.opened]
  · rw [filter_others_cons, if_neg hloaned, filter_others_cons, if_neg hg, h.others]
    rfl
  · rw [loanedTo_cons, if_pos ⟨rfl, rfl⟩, filter_others_cons, if_neg hg, h.loaned]
    rfl

/-- With as many LOANED as asked for, a segment that is not OPEN is CLOSED. -/
theorem SelectsSegments.cons_closed (hg : g.state ≠ .opened) (h : SelectsSegments batch 0 l m) :
    SelectsSegments batch 0 (g :: l) (closedSegment g :: m) := by
  have hclosed : (closedSegment g).state ≠ .opened := fun hc => nomatch hc
  refine ⟨by rw [List.map_cons, h.numbers, List.map_cons]; rfl, ?_, ?_, ?_⟩
  · rw [filter_opened_cons, if_neg hclosed, filter_opened_cons, if_neg hg, h.opened]
  · rw [filter_others_cons, if_neg hclosed, filter_others_cons, if_neg hg, h.others]
    rfl
  · rw [loanedTo_cons, if_neg (fun hc => nomatch hc.1), h.loaned]
    rfl

end

/-- R154: a selection from a store whose loans are cancelled. -/
theorem selectSegments_cancelled (batch : Nat) : ∀ (max : Nat) (l : List Segment),
    SelectsSegments batch max l (selectSegments batch max (l.map cancelledSegment))
  | max, [] => by cases max <;> exact ⟨rfl, rfl, rfl, rfl⟩
  | 0, g :: l => by
    have ih := selectSegments_cancelled batch 0 l
    have hzero (l : List Segment) : selectSegments batch 0 l = l := by rw [selectSegments]
    rw [hzero] at ih ⊢
    rw [List.map_cons]
    by_cases hg : g.state = .opened
    · rw [cancelledSegment_opened hg]
      exact ih.cons_opened hg
    · rw [cancelledSegment_other hg]
      exact ih.cons_closed hg
  | max + 1, g :: l => by
    rw [List.map_cons, selectSegments]
    by_cases hg : g.state = .opened
    · rw [cancelledSegment_opened hg, if_neg (by rw [hg]; decide)]
      exact (selectSegments_cancelled batch (max + 1) l).cons_opened hg
    · rw [cancelledSegment_other hg, if_pos (show (closedSegment g).state = .closed from rfl)]
      exact (selectSegments_cancelled batch max l).cons_loaned hg

/-! ## The offers (R166 step 5) -/

/-- R166: an offer acts on the services and the held entries alone. -/
theorem Node.offerEntry_rest (n : Node) (e : HeldEntry) :
    ∃ v h, n.offerEntry e = { n with svc := v, coll := { n.coll with heldW := h } } := by
  have htry : (n.tryEntry e).1 = { n with svc := (n.tryEntry e).1.svc } := by cases e <;> rfl
  unfold Node.offerEntry
  dsimp only
  split
  · generalize n.tryEntry e = r at htry
    rw [htry]
    split <;> exact ⟨_, _, rfl⟩
  · exact ⟨_, _, rfl⟩

/-! ## COLLECT-ASK (R166) -/

/-- R166: the wayside's new batch of a kind. -/
def WBatch.fresh (batch : Nat) (items : List ItemId) : WBatch :=
  { number := batch, items := items.map fun i => (i, .unsent), next := 1, bound := none }

/-- R166: the node with a new batch of a kind, counted. -/
def Node.batched (n : Node) (k : CollKind) (b : WBatch) : Node :=
  n.onColl fun c => (c.setRecord k (some b)).countKind k fun a => { a with asks := bump 65535 a.asks }

/-- R166: a COLLECT-ASK before its offers: the batch forgotten, the loans cancelled, the oldest items selected. -/
def Node.selected (n : Node) (k : CollKind) (batch max : Nat) : Node × List ItemId :=
  ((n.forgetBatch k).cancelLoans k).selectItems k batch max

/-- R166: the three offers of a batch of a length. -/
def Node.offersBatch (n : Node) (me batch : Nat) (k : CollKind) (j : Nat) : Node :=
  let msg (p : Payload) : Message := { source := me, dest := Config.headEndNumber, length := 1, payload := p }
  ((n.offerEntry (.msg k (msg (.batchHead batch k j)))).offerEntry (.batch k batch)).offerEntry
    (.msg k (msg (.batchEnd batch k j)))

theorem Node.takeAsk_eq (n : Node) (batch : Nat) (k : CollKind) (max : Nat) :
    n.takeAsk batch k max =
      ((n.selected k batch max).1.batched k (.fresh batch (n.selected k batch max).2)).offersBatch
        (n.selected k batch max).1.me batch k (n.selected k batch max).2.length := rfl

/-- R166: the three offers act on the services and the held entries alone. -/
theorem Node.offersBatch_rest (n : Node) (me batch : Nat) (k : CollKind) (j : Nat) :
    ∃ v h, n.offersBatch me batch k j = { n with svc := v, coll := { n.coll with heldW := h } } := by
  obtain ⟨v₁, h₁, hhead⟩ := n.offerEntry_rest (.msg k
    { source := me, dest := Config.headEndNumber, length := 1, payload := .batchHead batch k j })
  obtain ⟨v₂, h₂, hplace⟩ := Node.offerEntry_rest { n with svc := v₁, coll := { n.coll with heldW := h₁ } } (.batch k batch)
  obtain ⟨v₃, h₃, hend⟩ := Node.offerEntry_rest { n with svc := v₂, coll := { n.coll with heldW := h₂ } } (.msg k
    { source := me, dest := Config.headEndNumber, length := 1, payload := .batchEnd batch k j })
  refine ⟨v₃, h₃, ?_⟩
  unfold Node.offersBatch
  dsimp only
  rw [hhead, hplace]
  exact hend

/-- R142, R166: the oldest records are selected, and nothing else of TOLL moves. -/
theorem Node.selected_toll (n : Node) (batch max : Nat) :
    n.selected .toll batch max =
      ({ n.forgetBatch .toll with toll := { n.toll with
          log := (n.toll.log.take max).map (fun r => { r with loan := some batch }) ++
            (n.toll.log.drop max).map (fun r => { r with loan := none }) } },
       (n.toll.log.take max).map fun r => .toll r.record.gantry r.record.seq) := by
  obtain ⟨hlog, hloaned⟩ := n.toll.cancel_select batch max
  have htoll : (n.forgetBatch .toll).toll = n.toll := by rw [(n.forgetBatch_step .toll).rest]
  unfold Node.selected Node.cancelLoans Node.selectItems
  dsimp only
  rw [htoll, hloaned, hlog, List.map_map]
  rfl

/-- R154, R166: the oldest segments that are not OPEN are selected, and nothing else of WX moves. -/
theorem Node.selected_weather (n : Node) (batch max : Nat) :
    let l := n.svc.wx.segments
    ∃ m, SelectsSegments batch max l m ∧ n.selected .weather batch max =
      ((n.forgetBatch .weather).onSvc fun s => { s with wx := { n.svc.wx with segments := m } },
       ((l.filter fun g => g.state ≠ .opened).take max).map fun g => .segment g.number) := by
  intro l
  have hselects := selectSegments_cancelled batch max l
  refine ⟨_, hselects, ?_⟩
  have hwx : (n.forgetBatch .weather).svc.wx = n.svc.wx := (n.forgetBatch_step .weather).wx
  have hcancel : n.svc.wx.cancel.segments = l.map cancelledSegment := rfl
  unfold Node.selected Node.cancelLoans Node.selectItems Node.onSvc
  dsimp only
  rw [hwx, hcancel, hselects.loaned, List.map_map]
  rfl

theorem exec_collectAsk {s : State} (h : s.node.phase = .started) (hw : s.node.isHead = false) (batch : Nat) (k : CollKind)
    (max : Nat) :
    exec (.collectAsk batch k max) s = .next (s.settled
      ((s.node.handOver (isMessage none (.collectAsk batch k max))).takeAsk batch k max)) :=
  State.act_onMessage (f := fun n => n.takeAsk batch k max) h hw none (.collectAsk batch k max)

end Sys2Proof.Machine


/-! SUPPORT. What a COLLECT-ASK leaves at a wayside (R142, R154, R166), with O53. -/

namespace Sys2Proof.Machine

/-- R166: what the step that takes an ask keeps of a batch forgotten before, if there was one. -/
theorem Node.forgetBatch_kept (n : Node) (k : CollKind) :
    (n.coll.record k = none → (n.forgetBatch k).svc.queues = n.svc.queues ∧ (n.forgetBatch k).svc.pool = n.svc.pool ∧
      (n.forgetBatch k).coll.heldW = n.coll.heldW) ∧
    (n.coll.record k ≠ none → Node.Forgets k n (n.forgetBatch k)) := by
  refine ⟨fun h => ?_, fun h => ?_⟩
  · rw [Node.forgetBatch_none h]
    exact ⟨rfl, rfl, rfl⟩
  · obtain ⟨b, hb⟩ := Option.ne_none_iff_exists'.1 h
    exact (Node.forgetBatch_some hb).2

/-- R166: the items of a new batch, all unsent. -/
theorem WBatch.fresh_map {α : Type} (batch : Nat) (f : α → ItemId) (l : List α) :
    WBatch.fresh batch (l.map f) =
      { number := batch, next := 1, bound := none, items := l.map fun a => (f a, .unsent) } := by
  rw [WBatch.fresh, List.map_map]
  rfl

/-! ## The node in which a batch is made -/

/-- R142, R166: the log with its oldest records LOANED. -/
def Toll.loanedLog (t : Toll) (batch max : Nat) : List LogRecord :=
  (t.log.take max).map (fun r => { r with loan := some batch }) ++ (t.log.drop max).map (fun r => { r with loan := none })

/-- R154: the segments that may be LOANED. -/
def Wx.others (w : Wx) : List Segment := w.segments.filter fun g => g.state ≠ .opened

/-- R142, R166: the node with a batch of TOLL records, from the one in which the batch before is forgotten. -/
def Node.tollAsked (n f : Node) (batch max : Nat) : Node :=
  Node.batched { f with toll := { n.toll with log := n.toll.loanedLog batch max } } .toll
    { number := batch, next := 1, bound := none,
      items := (n.toll.log.take max).map fun r => (.toll r.record.gantry r.record.seq, .unsent) }

/-- R154, R166: the node with a batch of segments, from the one in which the batch before is forgotten. -/
def Node.weatherAsked (n f : Node) (l : List Segment) (batch max : Nat) : Node :=
  Node.batched (f.onSvc fun s => { s with wx := { n.svc.wx with segments := l } }) .weather
    { number := batch, next := 1, bound := none,
      items := (n.svc.wx.others.take max).map fun g => (.segment g.number, .unsent) }

section
variable {s : State} (h : s.node.phase = .started) (hw : s.node.isHead = false) (batch max : Nat)
include h hw

/-- R142, R166: a COLLECT-ASK for TOLL. -/
theorem exec_collectAsk_toll :
    let n := s.node.handOver (isMessage none (.collectAsk batch .toll max))
    exec (.collectAsk batch .toll max) s = .next (s.settled
      ((n.tollAsked (n.forgetBatch .toll) batch max).offersBatch s.node.me batch .toll (n.toll.log.take max).length)) := by
  intro n
  have hme : (n.forgetBatch .toll).me = s.node.me := congrArg Settings.station (n.forgetBatch_step .toll).settings
  rw [exec_collectAsk h hw, Node.takeAsk_eq, Node.selected_toll, List.length_map, WBatch.fresh_map, ← hme]
  rfl

/-- R154, R166: a COLLECT-ASK for WEATHER. -/
theorem exec_collectAsk_weather :
    let n := s.node.handOver (isMessage none (.collectAsk batch .weather max))
    ∃ l, SelectsSegments batch max n.svc.wx.segments l ∧ exec (.collectAsk batch .weather max) s = .next (s.settled
      ((n.weatherAsked (n.forgetBatch .weather) l batch max).offersBatch s.node.me batch .weather
        (n.svc.wx.others.take max).length)) := by
  intro n
  have hme : (n.forgetBatch .weather).me = s.node.me :=
    congrArg Settings.station (n.forgetBatch_step .weather).settings
  obtain ⟨l, hl, hselected⟩ := n.selected_weather batch max
  refine ⟨l, hl, ?_⟩
  rw [exec_collectAsk h hw, Node.takeAsk_eq, hselected, List.length_map, WBatch.fresh_map, ← hme]
  rfl

end

/-- R166: what of TOLL and COLL the three offers and the end of the step leave. -/
theorem State.settled_offersBatch (s : State) (m : Node) (me batch : Nat) (k : CollKind) (j : Nat) :
    let t := s.settled (m.offersBatch me batch k j)
    t.node.toll = m.toll ∧ t.node.coll.toll = m.coll.toll ∧ t.node.coll.weather = m.coll.weather ∧
      t.node.coll.counts = m.coll.counts ∧ t.node.call.phones = m.call.phones := by
  obtain ⟨v, held, hrest⟩ := m.offersBatch_rest me batch k j
  have hk := Node.keeps_settle (m.offersBatch me batch k j)
  intro t
  have ht : t.node = (m.offersBatch me batch k j).settle := State.settled_node ..
  rw [ht, hk.toll, hk.collToll, hk.collWeather, hk.counts, hk.phones, hrest]
  exact ⟨rfl, rfl, rfl, rfl, rfl⟩

/-- What the end of a step that takes an ask keeps of the batch before. -/
def Node.KeepsBatch (k : CollKind) (n m : Node) : Prop :=
  (n.coll.record k = none → m.svc.queues = n.svc.queues ∧ m.svc.pool = n.svc.pool ∧ m.coll.heldW = n.coll.heldW) ∧
  (n.coll.record k ≠ none → m.coll.heldW = n.coll.heldW.filter (fun e => e.kind ≠ k) ∧
    (∀ e ∈ m.svc.queues.normal, e.unplaced (isBatchEdge k) = false) ∧
    (∀ q, NEntry.msg q ∈ n.svc.queues.normal → NEntry.unplaced (isBatchEdge k) (.msg q) = false →
      NEntry.msg q ∈ m.svc.queues.normal))

theorem Node.keepsBatch_forgetBatch (n : Node) (k : CollKind) : Node.KeepsBatch k n (n.forgetBatch k) := by
  obtain ⟨hnone, hsome⟩ := n.forgetBatch_kept k
  exact ⟨hnone, fun h => ⟨(hsome h).held, (hsome h).gone, (hsome h).stays⟩⟩

section
variable {n f : Node} {s : State} {run : Host.Outcome State Fault Refusal} {me batch max : Nat}

/-- R142, R166: everything that a TOLL ask does, from the node in which the batch before is forgotten. -/
theorem tollAsked_leaves (h : Node.ForgetStep .toll n f) (hkeeps : Node.KeepsBatch .toll n f) (hrun : run = .next
      (s.settled ((n.tollAsked f batch max).offersBatch me batch .toll (n.toll.log.take max).length))) :
    ∃ m : Node, let t := s.settled (m.offersBatch me batch .toll (n.toll.log.take max).length)
      run = .next t ∧ Node.KeepsBatch .toll n m ∧ m.svc.wx = n.svc.wx ∧
      t.node.toll.log = n.toll.loanedLog batch max ∧
      t.node.coll.toll = some
        { number := batch, next := 1, bound := none,
          items := (n.toll.log.take max).map fun r => (.toll r.record.gantry r.record.seq, .unsent) } ∧
      t.node.coll.weather = n.coll.weather ∧
      t.node.coll.counts.toll.asks = bump 65535 n.coll.counts.toll.asks ∧
      t.node.toll.gantries = n.toll.gantries ∧ t.node.call.phones = n.call.phones := by
  refine ⟨n.tollAsked f batch max, ?_⟩
  have hleft := s.settled_offersBatch (n.tollAsked f batch max) me batch .toll (n.toll.log.take max).length
  dsimp only at hleft ⊢
  generalize s.settled _ = t at hrun hleft ⊢
  obtain ⟨htoll, hbatch, hweather, hcounts, hphones⟩ := hleft
  have hcall : f.call = n.call := by rw [h.rest]
  refine ⟨hrun, hkeeps, h.wx, ?_, hbatch, hweather.trans (h.others .weather (by decide)), ?_, ?_, ?_⟩
  · rw [htoll]
    rfl
  · rw [hcounts, ← h.counts]
    rfl
  · rw [htoll]
    rfl
  · rw [hphones, ← hcall]
    rfl

/-- R154, R166: everything that a WEATHER ask does, from the node in which the batch before is forgotten. -/
theorem weatherAsked_leaves (h : Node.ForgetStep .weather n f) (hkeeps : Node.KeepsBatch .weather n f)
    {l : List Segment} (hl : SelectsSegments batch max n.svc.wx.segments l) (hrun : run = .next (s.settled
      ((n.weatherAsked f l batch max).offersBatch me batch .weather (n.svc.wx.others.take max).length))) :
    ∃ m : Node, let t := s.settled (m.offersBatch me batch .weather (n.svc.wx.others.take max).length)
      run = .next t ∧ Node.KeepsBatch .weather n m ∧ SelectsSegments batch max n.svc.wx.segments m.svc.wx.segments ∧
      m.svc.wx = { n.svc.wx with segments := m.svc.wx.segments } ∧
      t.node.coll.weather = some
        { number := batch, next := 1, bound := none,
          items := (n.svc.wx.others.take max).map fun g => (.segment g.number, .unsent) } ∧
      t.node.coll.toll = n.coll.toll ∧ t.node.toll = n.toll ∧
      t.node.coll.counts.weather.asks = bump 65535 n.coll.counts.weather.asks := by
  refine ⟨n.weatherAsked f l batch max, ?_⟩
  have hleft := s.settled_offersBatch (n.weatherAsked f l batch max) me batch .weather (n.svc.wx.others.take max).length
  dsimp only at hleft ⊢
  generalize s.settled _ = t at hrun hleft ⊢
  obtain ⟨htoll, hbatch, hweather, hcounts, -⟩ := hleft
  have hkept : f.toll = n.toll := by rw [h.rest]
  refine ⟨hrun, hkeeps, hl, rfl, hweather, hbatch.trans (h.others .toll (by decide)), ?_, ?_⟩
  · rw [htoll, ← hkept]
    rfl
  · rw [hcounts, ← h.counts]
    rfl

end

/-- Settles O53: the placeholder, an item sent, then the ask for each kind. -/
theorem askLoansTheOldest : Obligations.AskLoansTheOldest := by
  refine ⟨fun n l hold id j k rest => ⟨rfl, fun b hb => ⟨Node.chooseNormal_otherLoop hb l hold id j rest,
    Node.chooseNormal_noItem hb l hold id j rest, fun i mark hl hi => Node.chooseNormal_item hb l hold id j rest hl hi⟩⟩,
    fun n l id k b hb => ⟨fun x rest number total index i => Node.firstPlaced_item hb id rest, rfl, ?_⟩,
    fun batch max s h hw => ⟨?toll, ?weather⟩⟩
  · rw [Coll.record_unbind, hb]
    dsimp only [Option.map_some]
    split <;> rfl
  case toll =>
    have hask := tollAsked_leaves (Node.forgetBatch_step _ .toll) (Node.keepsBatch_forgetBatch _ .toll)
      (exec_collectAsk_toll h hw batch max)
    dsimp only [Node.handOver, Node.offersBatch, Toll.loanedLog] at hask
    obtain ⟨m, hask⟩ := hask
    refine ⟨m, ?_⟩
    dsimp only
    generalize s.settled _ = t at hask ⊢
    exact hask
  case weather =>
    obtain ⟨l, hl, hrun⟩ := exec_collectAsk_weather h hw batch max
    have hask := weatherAsked_leaves (Node.forgetBatch_step _ .weather) (Node.keepsBatch_forgetBatch _ .weather) hl hrun
    dsimp only [Node.handOver, Node.offersBatch, Wx.others] at hask
    obtain ⟨m, hask⟩ := hask
    refine ⟨m, ?_⟩
    dsimp only
    generalize s.settled _ = t at hask ⊢
    obtain ⟨hnext, hkeeps, hselects, hleft⟩ := hask
    exact ⟨ hnext, hkeeps, hselects.numbers, hselects.opened, hselects.others, hleft⟩

end Sys2Proof.Machine


/-! SUPPORT. A COLLECT-ACK at a wayside (R143, R155, R174), with O54. -/

namespace Sys2Proof.Machine

/-! ## Lists acknowledged one by one -/

/-- A fold that also gathers what each step hands over. -/
def gatherAll {σ α β : Type} (f : σ → α → σ × List β) (l : List α) (x : σ) (acc : List β) : σ × List β :=
  l.foldl (fun y a => ((f y.1 a).1, y.2 ++ (f y.1 a).2)) (x, acc)

theorem gatherAll_acc {σ α β : Type} (f : σ → α → σ × List β) (l : List α) (x : σ) (acc : List β) :
    gatherAll f l x acc = ((gatherAll f l x []).1, acc ++ (gatherAll f l x []).2) := by
  induction l generalizing x acc with
  | nil => simp [gatherAll]
  | cons a l ih =>
    have hcons (acc : List β) : gatherAll f (a :: l) x acc = gatherAll f l (f x a).1 (acc ++ (f x a).2) := rfl
    rw [hcons, hcons, ih (f x a).1 (acc ++ (f x a).2), ih (f x a).1 ([] ++ (f x a).2), List.nil_append,
      List.append_assoc]

theorem gatherAll_cons {σ α β : Type} (f : σ → α → σ × List β) (a : α) (l : List α) (x : σ) :
    gatherAll f (a :: l) x [] = ((gatherAll f l (f x a).1 []).1, (f x a).2 ++ (gatherAll f l (f x a).1 []).2) :=
  gatherAll_acc f l (f x a).1 ([] ++ (f x a).2)

theorem ackPairs_cons (devices : List Device) (p : Nat × Nat) (ps : List (Nat × Nat)) (x : TollSt) :
    ackPairs devices (p :: ps) x = ((ackPairs devices ps (ackPair devices x p).1).1,
      (ackPair devices x p).2 ++ (ackPairs devices ps (ackPair devices x p).1).2) :=
  gatherAll_cons (ackPair devices) p ps x

theorem Svc.ackSegments_cons (s : Svc) (k : Nat) (ks : List Nat) :
    s.ackSegments (k :: ks) =
      (((s.ackSegment k).1.ackSegments ks).1, (s.ackSegment k).2 ++ ((s.ackSegment k).1.ackSegments ks).2) :=
  gatherAll_cons Svc.ackSegment k ks s

/-! ## One pair (R143) -/

/-- What an attachment, and what leads to one, leaves of the log and the acknowledgements. -/
structure TollSt.KeepsAcks (x y : TollSt) : Prop where
  log : y.2.log = x.2.log
  acknowledged : y.2.counts.acknowledged = x.2.counts.acknowledged
  unmatched : y.2.counts.unmatched = x.2.counts.unmatched

namespace TollSt.KeepsAcks

theorem refl (x : TollSt) : TollSt.KeepsAcks x x := ⟨rfl, rfl, rfl⟩

theorem trans {x y z : TollSt} (h : TollSt.KeepsAcks x y) (k : TollSt.KeepsAcks y z) : TollSt.KeepsAcks x z :=
  ⟨k.log.trans h.log, k.acknowledged.trans h.acknowledged, k.unmatched.trans h.unmatched⟩

theorem attachGantry (devices : List Device) (d : Nat) (i : Identity) (r : Bool) (x : TollSt) :
    TollSt.KeepsAcks x (attachGantry devices d i r x) := by
  unfold Machine.attachGantry
  dsimp only
  split
  · split <;> exact ⟨rfl, rfl, rfl⟩
  · split_ifs <;> exact ⟨rfl, rfl, rfl⟩

theorem retryOne (devices : List Device) (x : TollSt) (d : Nat) : TollSt.KeepsAcks x (retryOne devices x d) := by
  unfold Machine.retryOne
  split
  · split
    · split
      · exact attachGantry ..
      · exact refl x
    · exact refl x
  · exact refl x

theorem retryUnattached (devices : List Device) (x : TollSt) : TollSt.KeepsAcks x (retryUnattached devices x) := by
  rw [retryUnattached_eq]
  induction places 8 generalizing x with
  | nil => exact refl x
  | cons d l ih => exact (retryOne devices x d).trans (ih _)

theorem dropIdleEntry (devices : List Device) (g : Nat) (x : TollSt) :
    TollSt.KeepsAcks x (dropIdleEntry devices g x) := by
  unfold Machine.dropIdleEntry
  split
  · exact refl x
  · split
    · exact TollSt.KeepsAcks.trans (y := (x.1, { x.2 with gantries := dropFirst (fun e => e.number = g) x.2.gantries }))
        ⟨rfl, rfl, rfl⟩ (retryUnattached devices _)
    · exact refl x

end TollSt.KeepsAcks

theorem Toll.entry_changeEntry (t : Toll) (g k : Nat) {f : Gantry → Gantry} (hf : ∀ e, (f e).number = e.number) :
    (t.changeEntry g f).entry k = if k = g then (t.entry g).map f else t.entry k := by
  have hnumber (e : Gantry) : (if e.number = g then f e else e).number = e.number := by
    split
    · exact hf e
    · rfl
  unfold Toll.entry Toll.changeEntry
  rw [List.find?_map]
  have hkey : ((fun e : Gantry => decide (e.number = k)) ∘ fun e => if e.number = g then f e else e) =
      fun e => decide (e.number = k) := by
    funext e
    rw [Function.comp_apply, hnumber]
  rw [hkey]
  cases he : t.gantries.find? fun e => decide (e.number = k) with
  | none =>
    split
    · next hk => subst hk; rw [he]; rfl
    · rfl
  | some e =>
    have hek : e.number = k := by simpa using List.find?_some he
    split
    · next hk => subst hk; rw [he]; exact congrArg some (if_pos hek)
    · next hk => exact congrArg some (if_neg (hek.trans_ne hk))

/-- R143: a gantry's entry once records up to a sequence are acknowledged. -/
def Gantry.acked (q : Nat) (e : Gantry) : Gantry := { e with c := max e.c (min q e.a) }

/-- R143: whether a record is one that a pair names. -/
def namedBy (g q : Nat) (r : LogRecord) : Bool := r.record.gantry = g && decide (r.record.seq ≤ q)

/-- R143: the records that a pair removes. -/
def Toll.gone (t : Toll) (g q : Nat) : List LogRecord := t.log.filter (namedBy g q)

/-- R143: TOLL without the records that a pair names. -/
def Toll.acked (t : Toll) (g q : Nat) : Toll :=
  (({ t with log := t.log.filter fun r => !namedBy g q r } : Toll).changeEntry g (Gantry.acked q)).count fun n =>
    { n with acknowledged := bumpBy 4294967295 (t.gone g q).length n.acknowledged }

/-- R143: the services and TOLL once a pair's records are removed and the mark is looked at. -/
def ackedPair (x : TollSt) (g q : Nat) : TollSt :=
  let y : TollSt := (x.1.freeBuffers .toll (x.2.gone g q).length, x.2.acked g q)
  if (x.2.gone g q).isEmpty then y else lowerHigh y

theorem ackedPair_eq (x : TollSt) (g q : Nat) :
    ∃ h, ackedPair x g q = (x.1.freeBuffers .toll (x.2.gone g q).length, { x.2.acked g q with high := h }) := by
  unfold ackedPair lowerHigh
  dsimp only
  split
  · exact ⟨(x.2.acked g q).high, rfl⟩
  · split
    · exact ⟨false, rfl⟩
    · exact ⟨(x.2.acked g q).high, rfl⟩

theorem ackPair_none {devices : List Device} {x : TollSt} {g : Nat} (q : Nat) (h : x.2.entry g = none) :
    ackPair devices x (g, q) = ((x.1, { x.2 with counts :=
      { x.2.counts with unmatched := bump 4294967295 x.2.counts.unmatched } }), []) := by
  simp only [ackPair, h]
  rfl

section
variable {devices : List Device} {x : TollSt} {g q : Nat} {e : Gantry} (h : x.2.entry g = some e)
include h

theorem ackPair_some :
    ackPair devices x (g, q) =
      (if (x.2.gone g q).isEmpty && e.device.isSome then ackedPair x g q else dropIdleEntry devices g (ackedPair x g q),
        ((x.2.gone g q).filter fun r => r.loan.isSome).map fun r => (r.record.gantry, r.record.seq)) := by
  simp only [ackPair, h]
  rfl

theorem Toll.entry_acked (k : Nat) :
    (x.2.acked g q).entry k = if k = g then some (e.acked q) else x.2.entry k := by
  refine (Toll.entry_changeEntry { x.2 with log := x.2.log.filter fun r => !namedBy g q r } g k (f := Gantry.acked q)
    fun _ => rfl).trans ?_
  have hentry : ({ x.2 with log := x.2.log.filter fun r => !namedBy g q r } : Toll).entry = x.2.entry := rfl
  rw [hentry, h]
  rfl

theorem keepsAcks_ackPair :
    TollSt.KeepsAcks (x.1, x.2.acked g q) (ackPair devices x (g, q)).1 := by
  obtain ⟨high, hacked⟩ := ackedPair_eq x g q
  have hkept : TollSt.KeepsAcks (x.1, x.2.acked g q) (ackedPair x g q) := by rw [hacked]; exact ⟨rfl, rfl, rfl⟩
  rw [ackPair_some h]
  dsimp only
  split
  · exact hkept
  · exact hkept.trans (.dropIdleEntry ..)

/-- R143: the entry of a gantry with a device or with a record left stays. -/
theorem ackPair_stays (hstays : e.device.isSome = true ∨ ∃ r ∈ x.2.log, r.record.gantry = g ∧ q < r.record.seq) :
    (ackPair devices x (g, q)).1 = ackedPair x g q := by
  obtain ⟨high, hacked⟩ := ackedPair_eq x g q
  have hidle : dropIdleEntry devices g (ackedPair x g q) = ackedPair x g q := by
    have hentry : (ackedPair x g q).2.entry g = some (e.acked q) := by
      rw [hacked]
      exact (Toll.entry_acked h g).trans (if_pos rfl)
    unfold dropIdleEntry
    rw [hentry]
    refine if_neg fun hc => ?_
    rcases hstays with hdevice | ⟨r, hr, hg, hq⟩
    · have hnone : e.device.isNone = true := hc.1
      rw [Option.isNone_iff_eq_none] at hnone
      rw [hnone] at hdevice
      exact nomatch hdevice
    · have hmem : r ∈ (ackedPair x g q).2.recordsOf g := by
        rw [hacked]
        refine List.mem_filter.2 ⟨List.mem_filter.2 ⟨hr, ?_⟩, decide_eq_true hg⟩
        simp [namedBy, hq]
      have hempty := List.isEmpty_iff.1 hc.2
      rw [hempty] at hmem
      exact nomatch hmem
  rw [ackPair_some h]
  dsimp only
  split
  · rfl
  · exact hidle

/-- R143: the entry of a gantry with neither is gone, with no gantry to attach in its place. -/
theorem ackPair_gone (hdevice : e.device = none)
    (hall : ∀ r ∈ x.2.log, r.record.gantry = g → r.record.seq ≤ q)
    (hattached : ∀ d r b, nth x.2.attachments d ≠ some (some (.unattached r b))) :
    (ackPair devices x (g, q)).1 = ((ackedPair x g q).1,
      { (ackedPair x g q).2 with gantries := dropFirst (fun e => e.number = g) (ackedPair x g q).2.gantries }) := by
  obtain ⟨high, hacked⟩ := ackedPair_eq x g q
  have hentry : (ackedPair x g q).2.entry g = some (e.acked q) := by
    rw [hacked]
    exact (Toll.entry_acked h g).trans (if_pos rfl)
  have hrecords : (ackedPair x g q).2.recordsOf g = [] := by
    rw [hacked]
    refine List.filter_eq_nil_iff.2 fun r hr hg => ?_
    obtain ⟨hlog, hnamed⟩ := List.mem_filter.1 hr
    have hg' : r.record.gantry = g := of_decide_eq_true hg
    simp [namedBy, hg', hall r hlog hg'] at hnamed
  rw [ackPair_some h, hdevice]
  refine (if_neg (by simp)).trans ?_
  unfold dropIdleEntry
  rw [hentry]
  refine (if_pos ⟨by rw [Gantry.acked, hdevice]; rfl, by rw [hrecords]; rfl⟩).trans ?_
  refine retryUnattached_none fun k u r v ha => ?_
  rw [hacked] at ha
  exact absurd ha (hattached k u r)

end

/-- An entry taken out by its number, the numbers all different. -/
theorem find_dropFirst {l : List Gantry} (hn : (l.map Gantry.number).Nodup) (g k : Nat) :
    (dropFirst (fun e => e.number = g) l).find? (fun e => e.number = k) =
      if k = g then none else l.find? fun e => e.number = k := by
  rw [dropFirst_eq_filter Gantry.number g l hn, List.find?_filter]
  split
  · next hk =>
    refine List.find?_eq_none.2 fun e _ he => ?_
    simp [hk] at he
  · next hk =>
    refine congrArg (List.find? · l) (funext fun e => ?_)
    by_cases he : e.number = k
    · simp [he, hk]
    · simp [he]

end Sys2Proof.Machine


/-! SUPPORT. What a COLLECT-ACK leaves at a wayside (R143, R155, R174), with O54. -/

namespace Sys2Proof.Machine

/-! ## The marks in the batch record (R174) -/

/-- R174: a batch with the items in a set marked REMOVED. -/
def WBatch.marked (gone : ItemId → Bool) (b : WBatch) : WBatch :=
  { b with items := b.items.map fun x => if gone x.1 then (x.1, .removed) else x }

theorem Coll.markRemoved_toll (c : Coll) (ids : List ItemId) :
    c.markRemoved .toll ids = { c with toll := c.toll.map (WBatch.marked ids.contains) } := by
  unfold Coll.markRemoved Coll.record
  dsimp only
  cases h : c.toll with
  | none => exact congrArg (fun t => ({ c with toll := t } : Coll)) h
  | some b => rfl

theorem Coll.markRemoved_weather (c : Coll) (ids : List ItemId) :
    c.markRemoved .weather ids = { c with weather := c.weather.map (WBatch.marked ids.contains) } := by
  unfold Coll.markRemoved Coll.record
  dsimp only
  cases h : c.weather with
  | none => exact congrArg (fun t => ({ c with weather := t } : Coll)) h
  | some b => rfl

theorem WBatch.marked_none (b : WBatch) : b.marked (fun _ => false) = b := by
  simp [WBatch.marked]

/-! ## COLLECT-ACK (R174) -/

/-- R143, R174: a wayside with its pairs of records acknowledged. -/
def Node.tollAcked (n : Node) (ps : List (Nat × Nat)) : Node :=
  let y := ackPairs n.trib.devices ps (n.svc, n.toll)
  { n with
    svc := y.1.1, toll := y.1.2
    coll := { n.coll with toll := n.coll.toll.map (WBatch.marked fun x => y.2.any fun p => decide (x = .toll p.1 p.2)) } }

theorem exec_collectAck_toll {s : State} (h : s.node.phase = .started) (hw : s.node.isHead = false) (batch : Nat)
    (ps : List (Nat × Nat)) :
    exec (.collectAck batch (.toll ps)) s = .next (s.settled
      ((s.node.handOver (isMessage none (.collectAck batch (.toll ps)))).tollAcked ps)) := by
  have hids (l : List (Nat × Nat)) : (l.map fun p : Nat × Nat => ItemId.toll p.1 p.2).contains =
      fun x => l.any fun p => decide (x = .toll p.1 p.2) := by
    funext x
    induction l with
    | nil => rfl
    | cons p l ih => rw [List.map_cons, List.contains_cons, ih, List.any_cons]; rfl
  refine (State.act_onMessage (f := fun n => n.takeAck (.toll ps)) h hw none (.collectAck batch (.toll ps))).trans ?_
  unfold Node.takeAck Node.tollAcked Node.onColl
  dsimp only
  rw [Coll.markRemoved_toll, hids]

/-- R155, R174: a wayside with its segments acknowledged. -/
def Node.weatherAcked (n : Node) (ks : List Nat) : Node :=
  let y := n.svc.ackSegments ks
  { n with
    svc := y.1
    coll := { n.coll with weather := n.coll.weather.map (WBatch.marked (y.2.map ItemId.segment).contains) } }

theorem exec_collectAck_weather {s : State} (h : s.node.phase = .started) (hw : s.node.isHead = false) (batch : Nat)
    (ks : List Nat) :
    exec (.collectAck batch (.weather ks)) s = .next (s.settled
      ((s.node.handOver (isMessage none (.collectAck batch (.weather ks)))).weatherAcked ks)) := by
  refine (State.act_onMessage (f := fun n => n.takeAck (.weather ks)) h hw none (.collectAck batch (.weather ks))).trans ?_
  unfold Node.takeAck Node.weatherAcked Node.onColl
  dsimp only
  rw [Coll.markRemoved_weather]

/-! ## One pair (R143) -/

/-- R143: what a pair whose gantry has an entry does. -/
theorem ackPair_leaves (devices : List Device) (g q : Nat) (x : TollSt) {e : Gantry} (h : x.2.entry g = some e) :
    let run := ackPair devices x (g, q)
    run.2 = ((x.2.gone g q).filter fun r => r.loan.isSome).map (fun r => (r.record.gantry, r.record.seq)) ∧
    run.1.2.log = x.2.log.filter (fun r => !namedBy g q r) ∧
    run.1.2.counts.acknowledged = bumpBy 4294967295 (x.2.gone g q).length x.2.counts.acknowledged ∧
    run.1.2.counts.unmatched = x.2.counts.unmatched ∧
    (e.device.isSome = true ∨ (∃ r ∈ x.2.log, r.record.gantry = g ∧ q < r.record.seq) →
      run.1.1 = x.1.freeBuffers .toll (x.2.gone g q).length ∧ run.1.2.entry g = some (e.acked q) ∧
      (∀ k, k ≠ g → run.1.2.entry k = x.2.entry k)) ∧
    (e.device = none → (∀ r ∈ x.2.log, r.record.gantry = g → r.record.seq ≤ q) →
      (x.2.gantries.map Gantry.number).Nodup → (∀ d r b, nth x.2.attachments d ≠ some (some (.unattached r b))) →
      run.1.1 = x.1.freeBuffers .toll (x.2.gone g q).length ∧ run.1.2.entry g = none ∧
      (∀ k, k ≠ g → run.1.2.entry k = x.2.entry k)) := by
  have hacks := keepsAcks_ackPair (devices := devices) (q := q) h
  obtain ⟨high, hacked⟩ := ackedPair_eq x g q
  refine ⟨by rw [ackPair_some h], hacks.log, hacks.acknowledged, hacks.unmatched, fun hstays => ?_,
    fun hdevice hall hn hattached => ?_⟩
  · rw [ackPair_stays h hstays, hacked]
    exact ⟨rfl, (Toll.entry_acked h g).trans (if_pos rfl), fun k hk => (Toll.entry_acked h k).trans (if_neg hk)⟩
  · rw [ackPair_gone h hdevice hall hattached, hacked]
    have hnumbers : ((x.2.acked g q).gantries.map Gantry.number).Nodup := by
      have hmap : (x.2.acked g q).gantries.map Gantry.number = x.2.gantries.map Gantry.number := by
        refine (List.map_map ..).trans (List.map_congr_left fun e _ => ?_)
        rw [Function.comp_apply]
        split <;> rfl
      rw [hmap]
      exact hn
    exact ⟨rfl, (find_dropFirst hnumbers g g).trans (if_pos rfl), fun k hk =>
      ((find_dropFirst hnumbers g k).trans (if_neg hk)).trans ((Toll.entry_acked h k).trans (if_neg hk))⟩

/-- R174: the items that a pair hands over. -/
theorem handedOver_any (l : List LogRecord) (g q : Nat) (x : ItemId) :
    ((((l.filter (namedBy g q)).filter fun r => r.loan.isSome).map fun r => (r.record.gantry, r.record.seq)).any
      fun p => decide (x = .toll p.1 p.2)) =
    l.any fun r => r.record.gantry = g && decide (r.record.seq ≤ q) && r.loan.isSome &&
      decide (x = .toll r.record.gantry r.record.seq) := by
  rw [List.any_map, List.any_filter, List.any_filter]
  refine congrArg (List.any l) (funext fun r => ?_)
  rw [Function.comp_apply, ← Bool.and_assoc]
  rfl

/-- R143, R174: a COLLECT-ACK with one pair, once its step is over. -/
theorem tollAcked_one (n : Node) (g q : Nat) :
    let m := n.tollAcked [(g, q)]
    m.rules = n.rules ∧ m.call.phones = n.call.phones ∧
    (n.toll.entry g = none → m.toll.log = n.toll.log ∧ m.coll.toll = n.coll.toll ∧
      m.toll.counts.unmatched = bump 4294967295 n.toll.counts.unmatched) ∧
    (∀ e, n.toll.entry g = some e →
      (e.device.isSome = true ∨ ∃ r ∈ n.toll.log, r.record.gantry = g ∧ q < r.record.seq) →
      m.toll.entry g = some (e.acked q)) ∧
    (n.toll.entry g ≠ none →
      m.toll.log = n.toll.log.filter (fun r => !namedBy g q r) ∧
      m.toll.counts.acknowledged = bumpBy 4294967295 (n.toll.gone g q).length n.toll.counts.acknowledged ∧
      m.coll.toll = n.coll.toll.map (WBatch.marked fun x => n.toll.log.any fun r => r.record.gantry = g &&
        decide (r.record.seq ≤ q) && r.loan.isSome && decide (x = .toll r.record.gantry r.record.seq))) := by
  have hpairs : ackPairs n.trib.devices [(g, q)] (n.svc, n.toll) = ackPair n.trib.devices (n.svc, n.toll) (g, q) := by
    refine (ackPairs_cons n.trib.devices (g, q) [] (n.svc, n.toll)).trans ?_
    exact congrArg (Prod.mk _) (List.append_nil _)
  unfold Node.tollAcked
  dsimp only
  rw [hpairs]
  refine ⟨rfl, rfl, fun hnone => ?_, fun e he hstays => ?_, fun hsome => ?_⟩
  · rw [ackPair_none (x := (n.svc, n.toll)) q hnone]
    refine ⟨rfl, ?_, rfl⟩
    have hid : (WBatch.marked fun x => ([] : List (Nat × Nat)).any fun p => decide (x = .toll p.1 p.2)) = id :=
      funext fun b => b.marked_none
    rw [hid, Option.map_id_fun]
    rfl
  · exact ((ackPair_leaves n.trib.devices g q (n.svc, n.toll) he).2.2.2.2.1 hstays).2.1
  · obtain ⟨e, he⟩ := Option.ne_none_iff_exists'.1 hsome
    obtain ⟨hhanded, hlog, hacknowledged, -⟩ := ackPair_leaves n.trib.devices g q (n.svc, n.toll) he
    refine ⟨hlog, hacknowledged, ?_⟩
    rw [hhanded]
    exact congrArg (fun f => n.coll.toll.map (WBatch.marked f)) (funext (handedOver_any n.toll.log g q))

/-- Settles O54: the step of each list, the lists one by one, then one pair and one segment. -/
theorem ackRemovesWhatItNames : Obligations.AckRemovesWhatItNames := by
  refine ⟨fun batch ps s h hw => exec_collectAck_toll h hw batch ps,
    fun devices p ps x => ⟨rfl, ackPairs_cons devices p ps x⟩,
    fun devices g q x => ⟨ackPair_none q, fun e he => ackPair_leaves devices g q x he⟩,
    fun batch g q s h hw => ⟨_, exec_collectAck_toll h hw batch [(g, q)], ?_⟩,
    fun batch ks s h hw => exec_collectAck_weather h hw batch ks,
    fun s k ks => ⟨rfl, s.ackSegments_cons k ks⟩, fun k s => ⟨fun hnone => ?_, fun x hx => ?_⟩⟩
  · have hone := tollAcked_one (s.node.handOver (isMessage none (.collectAck batch (.toll [(g, q)])))) g q
    generalize Node.tollAcked _ _ = m at hone ⊢
    have hk := Node.keeps_settle m
    rw [State.settled_node, hk.rules, hk.phones, hk.toll, hk.collToll]
    exact hone
  · rw [Svc.ackSegment, hnone]
    rfl
  · rw [Svc.ackSegment, hx]
    rfl

end Sys2Proof.Machine


/-! SUPPORT. The batch messages at the head-end (R169–R171), with O55. -/

namespace Sys2Proof.Machine

/-! ## Batch entries changed by their number -/

/-- The batch entries with the one of a number replaced. -/
def withBatch (l : List BatchEntry) (x : BatchEntry) : List BatchEntry :=
  l.map fun y => if y.number = x.number then x else y

/-- The entries with this number changed alike are replaced alike. -/
theorem changeBatch_withBatch (l : List BatchEntry) (x : BatchEntry) {f : BatchEntry → BatchEntry}
    (hf : (f x).number = x.number) :
    (withBatch l x).map (fun y => if y.number = x.number then f y else y) = withBatch l (f x) := by
  unfold withBatch
  rw [List.map_map]
  refine List.map_congr_left fun y _ => ?_
  rw [Function.comp_apply, hf]
  by_cases hy : y.number = x.number
  · rw [if_pos hy, if_pos rfl, if_pos hy]
  · rw [if_neg hy, if_neg hy, if_neg hy]

/-- The running entry found by its number, once it is replaced. -/
theorem find_withBatch {l : List BatchEntry} {x e : BatchEntry} (he : e ∈ l) (hn : e.number = x.number) :
    (withBatch l x).find? (fun y => y.number = x.number && y.state ≠ .held) =
      if x.state = .held then none else some x := by
  have hkey {y : BatchEntry} (hy : y ∈ withBatch l x) (hyn : y.number = x.number) : y = x := by
    obtain ⟨z, -, rfl⟩ := List.mem_map.1 hy
    by_cases hz : z.number = x.number
    · exact if_pos hz
    · rw [if_neg hz] at hyn
      exact absurd hyn hz
  split
  · next hs =>
    refine List.find?_eq_none.2 fun y hy hp => ?_
    obtain ⟨hyn, hstate⟩ := Bool.and_eq_true_iff.1 hp
    rw [hkey hy (of_decide_eq_true hyn)] at hstate
    exact of_decide_eq_true hstate hs
  · next hs =>
    have hx : x ∈ withBatch l x := List.mem_map.2 ⟨e, he, if_pos hn⟩
    cases hf : (withBatch l x).find? fun y => y.number = x.number && y.state ≠ .held with
    | none => exact absurd (List.find?_eq_none.1 hf x hx) (by simp [hs])
    | some y =>
      have hp := List.find?_some hf
      obtain ⟨hyn, -⟩ := Bool.and_eq_true_iff.1 hp
      rw [hkey (List.mem_of_find?_eq_some hf) (of_decide_eq_true hyn)]

/-! ## What a batch message leaves -/

/-- What a batch message makes of the batch entries and the delivery queue; ring and calls stay. -/
structure Node.Gathers (n : Node) (batches : List BatchEntry) (more : List DataFrame) (m : Node) : Prop where
  batches : m.coll.batches = batches
  delivery : m.coll.delivery = n.coll.delivery ++ more
  head : m.head = n.head
  table : m.call.table = n.call.table

/-- R171: a batch that has ended. -/
def BatchEntry.ended (x : BatchEntry) (c : BatchCause) : BatchEntry :=
  { x with state := .held, cause := some c, timer := none }

/-- R171: the result of a batch. -/
def BatchEntry.result (x : BatchEntry) (c : BatchCause) : DataFrame :=
  .result x.station x.number x.kind x.n x.received (x.n.map fun k => k - x.received) c

/-- R171: a batch ends, its entry HELD, its result delivered. -/
theorem Node.gathers_endBatch (n : Node) (e : BatchEntry) (c : BatchCause) :
    n.Gathers (n.coll.batches.map fun y => if y.number = e.number then y.ended c else y) [e.result c]
      (n.endBatch e c) := by
  have hremove (n : Node) : (n.removeAsk e.number).coll.batches = n.coll.batches ∧
      (n.removeAsk e.number).coll.delivery = n.coll.delivery ∧ (n.removeAsk e.number).head = n.head ∧
      (n.removeAsk e.number).call = n.call := ⟨rfl, rfl, rfl, rfl⟩
  unfold Node.endBatch
  dsimp only
  by_cases hp : e.placed = true
  · simp only [hp, if_true]
    exact ⟨rfl, rfl, rfl, rfl⟩
  · simp only [hp]
    exact ⟨rfl, rfl, rfl, rfl⟩

/-- R171: an entry replaced before its batch ends. -/
theorem Node.gathers_endBatch_with {n m : Node} {l : List BatchEntry} {x : BatchEntry} {more : List DataFrame}
    (h : n.Gathers (withBatch l x) more m) (c : BatchCause) :
    n.Gathers (withBatch l (x.ended c)) (more ++ [x.result c]) (m.endBatch x c) := by
  obtain ⟨hbatches, hdelivery, hhead, htable⟩ := m.gathers_endBatch x c
  refine ⟨?_, ?_, hhead.trans h.head, htable.trans h.table⟩
  · rw [hbatches, h.batches]
    exact changeBatch_withBatch l x (f := fun y => y.ended c) rfl
  · rw [hdelivery, h.delivery, List.append_assoc]

/-- R169: the entry of a number, looked at after a message. -/
theorem Node.gathers_checkComplete {n m : Node} {x e : BatchEntry} {more : List DataFrame}
    (h : n.Gathers (withBatch n.coll.batches x) more m) (he : e ∈ n.coll.batches) (hn : e.number = x.number) :
    (x.state = .held ∨ ¬(x.endSeen = true ∧ x.n = some x.received) →
      n.Gathers (withBatch n.coll.batches x) more (m.checkComplete x.number)) ∧
    (x.state ≠ .held → x.endSeen = true → x.n = some x.received →
      n.Gathers (withBatch n.coll.batches (x.ended .complete)) (more ++ [x.result .complete])
        (m.checkComplete x.number)) := by
  have hfind := find_withBatch he hn
  rw [← h.batches] at hfind
  unfold Node.checkComplete
  rw [hfind]
  refine ⟨fun hc => ?_, fun hs h1 h2 => ?_⟩
  · by_cases hs : x.state = .held
    · rw [if_pos hs]
      exact h
    · rw [if_neg hs]
      dsimp only
      rw [if_neg (hc.resolve_left hs)]
      exact h
  · rw [if_neg hs]
    dsimp only
    rw [if_pos ⟨h1, h2⟩]
    exact Node.gathers_endBatch_with h .complete

/-- R169: an entry that a message belongs to, its timer started again and the number of its items learned. -/
def BatchEntry.heard (e : BatchEntry) (deadline count : Nat) : BatchEntry :=
  { e with timer := some deadline, n := some (e.n.getD count) }

theorem Coll.entryOf_spec {c : Coll} {src batch : Nat} {k : CollKind} {e : BatchEntry}
    (h : c.entryOf src batch k = some e) : e ∈ c.batches ∧ e.number = batch ∧ e.state ≠ .held := by
  have hp := List.find?_some h
  simp only [Bool.and_eq_true, decide_eq_true_eq] at hp
  exact ⟨List.mem_of_find?_eq_some h, hp.1.1.2, hp.2⟩

section
variable {n : Node} {src batch count : Nat} {k : CollKind} {e : BatchEntry} {act : BatchEntry → Node → Node}

/-- R169: a message that belongs to no entry is late. -/
theorem Node.takeBatchMessage_late (h : n.coll.entryOf src batch k = none) :
    n.takeBatchMessage src batch k count act =
      n.onColl fun c => c.count fun a => { a with late := bump 65535 a.late } := by
  rw [Node.takeBatchMessage, h]; rfl

theorem Node.takeBatchMessage_entry (h : n.coll.entryOf src batch k = some e) :
    n.takeBatchMessage src batch k count act =
      (act (e.heard n.batchDeadline count)
        (n.onColl fun c => c.changeBatch batch fun _ => e.heard n.batchDeadline count)).checkComplete batch := by
  rw [Node.takeBatchMessage, h]; rfl

/-- The entries once the entry is heard of. -/
theorem Node.gathers_heard (h : n.coll.entryOf src batch k = some e) (d : Nat) :
    n.Gathers (withBatch n.coll.batches (e.heard d count)) []
      (n.onColl fun c => c.changeBatch batch fun _ => e.heard d count) := by
  obtain ⟨-, rfl, -⟩ := Coll.entryOf_spec h
  exact ⟨rfl, (List.append_nil _).symm, rfl, rfl⟩

/-- R169: what a message does whose own act leaves its entry running as `x`. -/
theorem Node.gathers_takeBatchMessage (h : n.coll.entryOf src batch k = some e) {x : BatchEntry} {more : List DataFrame}
    (hx : x.number = batch)
    (hact : n.Gathers (withBatch n.coll.batches x) more (act (e.heard n.batchDeadline count)
      (n.onColl fun c => c.changeBatch batch fun _ => e.heard n.batchDeadline count))) :
    (x.state = .held ∨ ¬(x.endSeen = true ∧ x.n = some x.received) →
      n.Gathers (withBatch n.coll.batches x) more (n.takeBatchMessage src batch k count act)) ∧
    (x.state ≠ .held → x.endSeen = true → x.n = some x.received →
      n.Gathers (withBatch n.coll.batches (x.ended .complete)) (more ++ [x.result .complete])
        (n.takeBatchMessage src batch k count act)) := by
  obtain ⟨hmem, hnumber, -⟩ := Coll.entryOf_spec h
  rw [Node.takeBatchMessage_entry h]
  subst hx
  exact Node.gathers_checkComplete hact hmem hnumber

end

/-! ## Items and ends (R169) -/

/-- R169: an entry with one more item received. -/
def BatchEntry.got (e : BatchEntry) (i : Item) : BatchEntry :=
  { e with received := e.received + 1, state := .receiving, acks := addAck e.acks i }

section
variable {n m : Node} {l : List BatchEntry} {x : BatchEntry} (h : n.Gathers (withBatch l x) [] m) {index count : Nat}
  {i : Item}
include h

theorem Node.gathers_takeItem_next (hi : index = x.received + 1) :
    n.Gathers (withBatch l (x.got i)) (itemFrames x.station x.number x.kind (x.n.getD count) index i)
      (Node.takeItem index count i x m) := by
  unfold Node.takeItem
  rw [if_pos hi]
  refine ⟨?_, ?_, h.head, h.table⟩
  · refine Eq.trans ?_ (changeBatch_withBatch l x (f := fun y => y.got i) rfl)
    rw [← h.batches]
    rfl
  · refine Eq.trans ?_ (congrArg (· ++ _) (h.delivery.trans (List.append_nil _)))
    rfl

theorem Node.gathers_takeItem_old (hi : index ≤ x.received) :
    n.Gathers (withBatch l x) [] (Node.takeItem index count i x m) := by
  unfold Node.takeItem
  rw [if_neg (by omega), if_pos hi]
  exact ⟨h.batches, h.delivery, h.head, h.table⟩

theorem Node.gathers_takeItem_gap (hi : x.received + 1 < index) :
    n.Gathers (withBatch l (x.ended .gap)) [x.result .gap] (Node.takeItem index count i x m) := by
  unfold Node.takeItem
  rw [if_neg (by omega), if_neg (by omega)]
  exact Node.gathers_endBatch_with h .gap

theorem Node.gathers_takeEnd : n.Gathers (withBatch l { x with endSeen := true }) [] (Node.takeEnd x m) := by
  refine ⟨?_, h.delivery, h.head, h.table⟩
  refine Eq.trans ?_ (changeBatch_withBatch l x (f := fun y => { y with endSeen := true }) rfl)
  rw [← h.batches]
  rfl

end

/-! ## The steps -/

section
variable {s : State} (h : s.node.phase = .started) (hh : s.node.isHead = true) (src batch count index : Nat)
  (k : CollKind) (i : Item)
include h hh

theorem exec_batchHead : exec (.batchHead src batch k count) s = .next (s.settled
    ((s.node.handOver (isMessage (some src) (.batchHead batch k count))).takeBatchMessage src batch k count
      fun _ x => x)) :=
  State.act_onMessage (f := fun n => n.takeBatchMessage src batch k count fun _ x => x) h hh (some src)
    (.batchHead batch k count)

theorem exec_batchItem : exec (.batchItem src batch k count index i) s = .next (s.settled
    ((s.node.handOver (isMessage (some src) (.batchItem batch k count index i))).takeBatchMessage src batch k count
      (Node.takeItem index count i))) :=
  State.act_onMessage (f := fun n => n.takeBatchMessage src batch k count (Node.takeItem index count i)) h hh (some src)
    (.batchItem batch k count index i)

theorem exec_batchEnd : exec (.batchEnd src batch k count) s = .next (s.settled
    ((s.node.handOver (isMessage (some src) (.batchEnd batch k count))).takeBatchMessage src batch k count
      Node.takeEnd)) :=
  State.act_onMessage (f := fun n => n.takeBatchMessage src batch k count Node.takeEnd) h hh (some src)
    (.batchEnd batch k count)

end

/-- The end of a step keeps what a batch message has gathered. -/
theorem State.gathers_settled {n m : Node} {l : List BatchEntry} {more : List DataFrame} (h : n.Gathers l more m)
    (s : State) : n.Gathers l more (s.settled m).node := by
  have hk := Node.keeps_settle m
  rw [State.settled_node]
  exact ⟨hk.batches.trans h.batches, hk.delivery.trans h.delivery, hk.head.trans h.head, hk.table.trans h.table⟩

/-- A run that gathers: its step goes on, with these entries and this added to the delivery queue. -/
theorem exists_gathered {n m : Node} {l : List BatchEntry} {more : List DataFrame} {s : State}
    {run : Host.Outcome State Fault Refusal} (hrun : run = .next (s.settled m)) (h : n.Gathers l more m) :
    ∃ t, run = .next t ∧ t.node.coll.batches = l ∧ t.node.coll.delivery = n.coll.delivery ++ more ∧
      t.node.head = n.head ∧ t.node.call.table = n.call.table :=
  have hs := State.gathers_settled h s
  ⟨s.settled m, hrun, hs.batches, hs.delivery, hs.head, hs.table⟩

section
variable {n : Node} {s : State} {run : Host.Outcome State Fault Refusal} {src batch count : Nat} {k : CollKind}
  {e x : BatchEntry} {more : List DataFrame} {act : BatchEntry → Node → Node}
  (hrun : run = .next (s.settled (n.takeBatchMessage src batch k count act)))
  (h : n.coll.entryOf src batch k = some e) (hx : x.number = batch)
  (hact : n.Gathers (withBatch n.coll.batches x) more (act (e.heard n.batchDeadline count)
    (n.onColl fun c => c.changeBatch batch fun _ => e.heard n.batchDeadline count)))
include hrun h hx hact

/-- R169: a message that leaves its entry running, or has ended its batch itself. -/
theorem exists_running (hopen : x.state = .held ∨ ¬(x.endSeen = true ∧ x.n = some x.received)) :
    ∃ t, run = .next t ∧ t.node.coll.batches = withBatch n.coll.batches x ∧
      t.node.coll.delivery = n.coll.delivery ++ more ∧ t.node.head = n.head ∧ t.node.call.table = n.call.table :=
  exists_gathered hrun ((Node.gathers_takeBatchMessage h hx hact).1 hopen)

/-- R169: a message with which the batch is complete. -/
theorem exists_complete (hstate : x.state ≠ .held) (hseen : x.endSeen = true) (hall : x.n = some x.received) :
    ∃ t, run = .next t ∧ t.node.coll.batches = withBatch n.coll.batches (x.ended .complete) ∧
      t.node.coll.delivery = n.coll.delivery ++ (more ++ [x.result .complete]) ∧ t.node.head = n.head ∧
      t.node.call.table = n.call.table :=
  exists_gathered hrun ((Node.gathers_takeBatchMessage h hx hact).2 hstate hseen hall)

end

/-- R169: a late message's step. -/
theorem exists_late {n : Node} {s : State} {run : Host.Outcome State Fault Refusal}
    (hrun : run = .next (s.settled (n.onColl fun c => c.count fun a => { a with late := bump 65535 a.late }))) :
    ∃ t, run = .next t ∧ t.node.coll.batches = n.coll.batches ∧ t.node.coll.delivery = n.coll.delivery ∧
      t.node.coll.counts = { n.coll.counts with late := bump 65535 n.coll.counts.late } := by
  have hk := Node.keeps_settle (n.onColl fun c => c.count fun a => { a with late := bump 65535 a.late })
  refine ⟨_, hrun, ?_, ?_, ?_⟩
  · rw [State.settled_node, hk.batches]; rfl
  · rw [State.settled_node, hk.delivery]; rfl
  · rw [State.settled_node, hk.counts]; rfl

/-- R170: a due timer ends the batch. -/
theorem Node.gathers_batchExpires {n : Node} {batch : Nat} {e : BatchEntry}
    (he : n.coll.batches.find? (fun e => e.number = batch) = some e) (hdue : due n.svc.now e.timer = true) :
    n.Gathers (n.coll.batches.map fun y => if y.number = batch then y.ended .timeout else y) [e.result .timeout]
      (n.batchExpires batch) := by
  have hfound := List.find?_some he
  have hnumber : e.number = batch := of_decide_eq_true hfound
  have hends : n.batchExpires batch = n.endBatch e .timeout := by
    rw [Node.batchExpires, he]
    exact if_pos hdue
  rw [hends, ← hnumber]
  exact n.gathers_endBatch e .timeout

/-- Settles O55: what each batch message makes of the entry it belongs to. -/
theorem batchMessagesGather : Obligations.BatchMessagesGather := by
  unfold Obligations.BatchMessagesGather
  intro src batch count index k i s h hh
  dsimp only
  have hHead := exec_batchHead h hh src batch count k
  have hItem := exec_batchItem h hh src batch count index k i
  have hEnd := exec_batchEnd h hh src batch count k
  refine ⟨fun hnone => ⟨?_, ?_, ?_⟩, fun e he => ?_, fun e he hdue => ?_⟩
  · rw [Node.takeBatchMessage_late (n := s.node.handOver _) hnone] at hHead
    exact exists_late (n := s.node.handOver _) hHead
  · rw [Node.takeBatchMessage_late (n := s.node.handOver _) hnone] at hItem
    exact exists_late (n := s.node.handOver _) hItem
  · rw [Node.takeBatchMessage_late (n := s.node.handOver _) hnone] at hEnd
    exact exists_late (n := s.node.handOver _) hEnd
  · obtain ⟨-, rfl, hrunning⟩ := Coll.entryOf_spec he
    have running {y : BatchEntry} (hopen : y.endSeen = false) :
        y.state = .held ∨ ¬(y.endSeen = true ∧ y.n = some y.received) :=
      .inr fun hc => absurd (hopen.symm.trans hc.1) (by decide)
    refine ⟨fun hopen => ⟨?_, fun hi => ?_, fun hi => ?_, fun hi => ?_⟩, fun hall => ?_, fun hall => ?_,
      fun hseen hi hm => ?_⟩
    · exact exists_running (n := s.node.handOver _) (x := e.heard s.node.batchDeadline count) hHead he rfl
        (Node.gathers_heard (n := s.node.handOver _) he _) (running hopen)
    · exact exists_running (n := s.node.handOver _) (x := (e.heard s.node.batchDeadline count).got i) hItem he rfl
        (Node.gathers_takeItem_next (Node.gathers_heard (n := s.node.handOver _) he _) hi) (running hopen)
    · exact exists_running (n := s.node.handOver _) (x := e.heard s.node.batchDeadline count) hItem he rfl
        (Node.gathers_takeItem_old (Node.gathers_heard (n := s.node.handOver _) he _) hi) (running hopen)
    · exact exists_running (n := s.node.handOver _) (x := (e.heard s.node.batchDeadline count).ended .gap) hItem he rfl
        (Node.gathers_takeItem_gap (Node.gathers_heard (n := s.node.handOver _) he _) hi) (.inl rfl)
    · exact exists_complete (n := s.node.handOver _) (x := { e.heard s.node.batchDeadline count with endSeen := true }) hEnd
        he rfl (Node.gathers_takeEnd (Node.gathers_heard (n := s.node.handOver _) he _))
        hrunning rfl (congrArg some hall.symm)
    · exact exists_running (n := s.node.handOver _) (x := { e.heard s.node.batchDeadline count with endSeen := true }) hEnd
        he rfl (Node.gathers_takeEnd (Node.gathers_heard (n := s.node.handOver _) he _))
        (.inr fun hc => hall (Option.some.inj hc.2).symm)
    · exact exists_complete (n := s.node.handOver _) (x := (e.heard s.node.batchDeadline count).got i) hItem he rfl
        (Node.gathers_takeItem_next (Node.gathers_heard (n := s.node.handOver _) he _) hi) (fun hc => nomatch hc) hseen
        (congrArg some (hm.symm.trans hi))
  · have hfound := List.find?_some he
    have hnumber : e.number = batch := of_decide_eq_true hfound
    obtain ⟨t, hrun, hbatches, hdelivery, -, htable⟩ := exists_gathered (s := s) (n := s.node)
      (State.act_onRole (f := fun n => n.batchExpires batch) h hh) (Node.gathers_batchExpires he hdue)
    refine ⟨t, hrun, hbatches, hdelivery.trans ?_, htable⟩
    rw [BatchEntry.result, hnumber]

end Sys2Proof.Machine


/-! SUPPORT. The notice queue (R176–R183): what its operations give in full, with O56. -/

namespace Sys2Proof.Machine

/-! ## The attention line and the queue -/

/-- R183: the attention line follows the queue unless a pause runs. -/
theorem Note.setAttention_eq (n : Note) :
    n.setAttention = { n with attention := n.pauseUntil.isNone && n.queue.any (·.toHost) } := by
  unfold Note.setAttention
  split
  · next h => rw [h]; rfl
  · next h => rw [h]; rfl

theorem Note.append_place {n : Note} (h : n.queue.length < 256) (e : Notice) :
    n.append e = { n with
      queue := n.queue ++ [e], attention := n.pauseUntil.isNone && (n.queue ++ [e]).any (·.toHost) } := by
  exact (if_pos h).trans (Note.setAttention_eq _)

theorem Note.append_full {n : Note} (h : 256 ≤ n.queue.length) (e : Notice) :
    n.append e = { n with overflow := true, lost := bump 65535 n.lost } :=
  if_neg (Nat.not_lt.2 h)

/-! ## A NOTICE-FWD at the head-end (R181) -/

/-- R181: the entry that one of a NOTICE-FWD becomes. -/
def forwardedNotice (src : Nat) (e : Notice) : Notice :=
  { e with source := src, received := true, toHost := true, toCentre := false }

/-- R181: entries that find no place. -/
theorem Note.foldl_receive_full (src : Nat) (l : List Notice) {n : Note} (h : 256 ≤ n.queue.length) :
    l.foldl (fun t e => t.receive src e) n =
      { n with overflow := n.overflow || decide (0 < l.length), lost := Nat.repeat (bump 65535) l.length n.lost } := by
  induction l generalizing n with
  | nil => simp [Nat.repeat]
  | cons e l ih =>
    have hfull : n.receive src e = { n with overflow := true, lost := bump 65535 n.lost } := Note.append_full h _
    rw [List.foldl_cons, hfull, ih (n := { n with overflow := true, lost := bump 65535 n.lost }) h]
    have hrepeat (k x : Nat) : Nat.repeat (bump 65535) k (bump 65535 x) = Nat.repeat (bump 65535) (k + 1) x := by
      induction k with
      | zero => rfl
      | succ k ihk => exact congrArg (bump 65535) ihk
    simp [hrepeat]

/-- R181: the entries join the queue as far as it takes them. -/
theorem Note.foldl_receive (src : Nat) (l : List Notice) (n : Note) :
    l.foldl (fun t e => t.receive src e) n = { n with
      queue := n.queue ++ (l.take (256 - n.queue.length)).map (forwardedNotice src)
      attention := if (l.take (256 - n.queue.length)).map (forwardedNotice src) = [] then n.attention
        else n.pauseUntil.isNone
      overflow := n.overflow || decide (256 - n.queue.length < l.length)
      lost := Nat.repeat (bump 65535) (l.length - (256 - n.queue.length)) n.lost } := by
  induction l generalizing n with
  | nil => simp [Nat.repeat]
  | cons e l ih =>
    by_cases h : n.queue.length < 256
    · have hplace : n.receive src e = { n with
          queue := n.queue ++ [forwardedNotice src e], attention := n.pauseUntil.isNone } := by
        rw [Note.receive, Note.append_place h]
        simp [forwardedNotice]
      obtain ⟨k, hk⟩ : ∃ k, 256 - n.queue.length = k + 1 := ⟨255 - n.queue.length, by omega⟩
      have hk' : 256 - (n.queue.length + 1) = k := by omega
      rw [List.foldl_cons, hplace, ih]
      simp [hk, hk']
    · rw [Note.foldl_receive_full src _ (Nat.not_lt.1 h)]
      have hroom : 256 - n.queue.length = 0 := by omega
      simp [hroom]

/-! ## Entries read by the host (R178, R179) -/

/-- R179: the entries told to the host are those that wait for it no more. -/
theorem filter_toHost_serveHost (k : Nat) (l : List Notice) :
    (serveHost k l).filter (·.toHost) = (l.filter (·.toHost)).drop k := by
  induction l generalizing k with
  | nil => cases k <;> rfl
  | cons e l ih =>
    cases k with
    | zero => rfl
    | succ k =>
      unfold serveHost
      cases hh : e.toHost <;> cases hc : e.toCentre <;> simp [hh, ih]

/-- R179: what waits for the centre still does. -/
theorem filter_toCentre_serveHost (k : Nat) (l : List Notice) :
    ((serveHost k l).filter (·.toCentre)).map (fun e => { e with toHost := false }) =
      (l.filter (·.toCentre)).map fun e => { e with toHost := false } := by
  induction l generalizing k with
  | nil => cases k <;> rfl
  | cons e l ih =>
    cases k with
    | zero => rfl
    | succ k =>
      unfold serveHost
      cases hh : e.toHost <;> cases hc : e.toCentre <;> simp [hc, ih]

theorem any_toHost_eq (l : List Notice) (k : Nat) :
    (serveHost k l).any (·.toHost) = decide (k < (l.filter (·.toHost)).length) := by
  have h := filter_toHost_serveHost k l
  rw [Bool.eq_iff_iff, List.any_eq_true, decide_eq_true_iff]
  have hlen : (serveHost k l).filter (·.toHost) ≠ [] ↔ k < (l.filter (·.toHost)).length := by
    rw [h, ne_eq, List.drop_eq_nil_iff, Nat.not_le]
  rw [← hlen, ne_eq, List.filter_eq_nil_iff]
  simp

/-- R179, R183: what a read from channel L makes of the notices. -/
theorem Svc.readFromL_spec (s : Svc) (count : Nat) :
    let host := s.note.queue.filter (·.toHost)
    ∃ t, s.readFromL count = { s with note := t } ∧ t.queue = serveHost count s.note.queue ∧
      t.lost = s.note.lost ∧ t.overflow = s.note.overflow ∧
      t.pauseUntil = (if s.settings.attentionPulse && decide (count < host.length) then some (s.now + 200)
        else s.note.pauseUntil) ∧
      t.attention = (t.pauseUntil.isNone && decide (count < host.length)) := by
  refine ⟨_, rfl, ?_⟩
  rw [Note.setAttention_eq]
  dsimp only
  split
  · exact ⟨rfl, rfl, rfl, rfl, congrArg _ (any_toHost_eq ..)⟩
  · exact ⟨rfl, rfl, rfl, rfl, congrArg _ (any_toHost_eq ..)⟩

/-! ## The commands (R179, R182, R177) -/

/-- R179: what a read tells. -/
def Note.readValue (n : Note) (count : Nat) : Value :=
  .cons (.list (((n.queue.filter (·.toHost)).take count).map noticeReport))
    (.list [.nat ((n.queue.filter (·.toHost)).length - count), .flag n.overflow, .nat n.lost])

theorem Note.readValue_eq (n : Note) (count : Nat) :
    Value.cons (.list ((n.readReply count).1.map noticeReport)) (n.readReply count).2 = n.readValue count := by
  unfold Note.readReply Note.readValue
  have h : (n.queue.filter (·.toHost)).length - min count (n.queue.filter (·.toHost)).length =
      (n.queue.filter (·.toHost)).length - count := by omega
  dsimp only
  rw [h]

section
variable (n : Node) (count : Nat)

theorem Node.noticeRead_bad (o : Origin) (h : count < 1 ∨ 8 < count) :
    n.noticeRead o count = (n, .badArgument, .nil) := if_pos h

theorem Node.noticeRead_centre (f : Nat) (h : ¬(count < 1 ∨ 8 < count)) :
    n.noticeRead (.centre f) count = (n, .done, n.svc.note.readValue count) := by
  rw [← Note.readValue_eq]
  exact if_neg h

theorem Node.noticeRead_link (tag : Nat) (h : ¬(count < 1 ∨ 8 < count)) :
    n.noticeRead (.link tag) count =
      (n.onSvc fun s => s.readFromL count, .done, n.svc.note.readValue count) := by
  rw [← Note.readValue_eq]
  exact if_neg h

end

/-! ## Posting and the centre's delivery (R176, R180) -/

theorem Svc.post_notKept {s : Svc} {c : NoticeCode} {b : Subject} {d : List Value}
    (h : s.note.keep = false ∨ noticeWaits (s.entryFor c b d) = false) : s.post c b d = s := by
  rw [Svc.post_eq, if_pos h]

theorem Svc.post_kept {s : Svc} {c : NoticeCode} {b : Subject} {d : List Value} (hk : s.note.keep = true)
    (hw : noticeWaits (s.entryFor c b d) = true) : s.post c b d =
      if (s.entryFor c b d).toCentre && decide (s.note.queue.length < Config.noticePlaces) then
        Svc.lookCentre 2 { s with note := s.note.append (s.entryFor c b d) }
      else { s with note := s.note.append (s.entryFor c b d) } := by
  rw [Svc.post_eq, if_neg (by simp [hk, hw])]

/-- R180: the message that carries notices to the centre. -/
def Svc.noticeMessage (s : Svc) (es : List Notice) : Message :=
  { source := s.settings.station, dest := Config.headEndNumber, length := messageSlots (.noticeFwd es),
    payload := .noticeFwd es }

theorem Svc.noticeMessage_eq (s : Svc) (es : List Notice) :
    s.noticeMessage es =
      { source := s.settings.station, dest := Config.headEndNumber
        length := slotsFor (1 + (es.map fun e => 12 + 4 * e.details.length).sum), payload := .noticeFwd es } := by
  rw [Svc.noticeMessage, messageSlots, noticeFwd_length]

/-- R180: the notices offered next. -/
def Svc.nextNotices (s : Svc) : List Notice := (s.note.queue.filter (·.toCentre)).take 4

section
variable {s : Svc} (fuel : Nat)

theorem Svc.lookCentre_idle (h : s.settings.role = .headEnd ∨ s.nextNotices = [] ∨
    2 ≤ (s.queues.normal.filter NEntry.isNoticeFwd).length) : Svc.lookCentre fuel s = s := by
  cases fuel with
  | zero => rfl
  | succ fuel => exact if_pos h

theorem Svc.lookCentre_offers (h : ¬(s.settings.role = .headEnd ∨ s.nextNotices = [] ∨
    2 ≤ (s.queues.normal.filter NEntry.isNoticeFwd).length)) :
    Svc.lookCentre (fuel + 1) s =
      let r := s.offerNormal (s.noticeMessage s.nextNotices)
      if r.2 then Svc.lookCentre fuel { r.1 with note := Note.setAttention { r.1.note with
          queue := serveCentre s.nextNotices.length r.1.note.queue } }
      else r.1 := by
  refine (if_neg h).trans ?_
  change (match s.offerNormal (s.noticeMessage s.nextNotices) with
    | (t, true) => _
    | (t, false) => _) = _
  rcases s.offerNormal (s.noticeMessage s.nextNotices) with ⟨t, b⟩
  cases b <;> rfl

end

/-! ## The sender (R178) -/

section
variable {n : Node} (hrun : n.link.running = true) (hfree : n.link.sending = none) (hdue : n.restartDue = false)
include hrun hfree hdue

theorem Node.sendNext_free : n.sendNext = match n.link.replies with
    | [] => n.sendOther
    | r :: rest =>
      if n.link.gaps.contains r.tag then n
      else n.onLink fun k => { k with replies := rest, sending := some (.reply r) } :=
  if_neg (by simp [hrun, hfree, hdue])

theorem Node.sendNext_other (hreply : n.link.replies = []) : n.sendNext = n.sendOther := by
  rw [Node.sendNext_free hrun hfree hdue, hreply]

end

theorem Node.sendOther_none {n : Node} (hn : n.offeredNotice = none) (hd : n.coll.delivery = []) : n.sendOther = n := by
  unfold Node.sendOther
  rw [hn, hd]

theorem Node.sendOther_notice {n : Node} {e : Notice} (hn : n.offeredNotice = some e) (hd : n.coll.delivery = []) :
    n.sendOther = n.takeNotice e := by
  unfold Node.sendOther
  rw [hn, hd]

/-- R178: what taking a notice for the host does to the notices. -/
theorem Node.takeNotice_svc (n : Node) (e : Notice) : (n.takeNotice e).svc = { n.svc with
    note := ({ n.svc.note with queue := serveHost 1 n.svc.note.queue } : Note).setAttention } := rfl

/-! ## The statement -/

/-- R181: the step of a NOTICE-FWD. -/
theorem exec_noticeFwd {s : State} (h : s.node.phase = .started) (hh : s.node.isHead = true) (src : Nat)
    (l : List Notice) : exec (.noticeFwd src l) s = .next (s.settled
      ((s.node.handOver (isMessage (some src) (.noticeFwd l))).takeNotices src l)) :=
  State.act_onMessage (f := fun n => n.takeNotices src l) h hh (some src) (.noticeFwd l)

theorem Node.takeNotices_eq (n : Node) (src : Nat) (l : List Notice) :
    n.takeNotices src l = n.onSvc fun s => { s with note := l.foldl (fun t e => t.receive src e) s.note } := rfl

section
variable {s : State} {o : Origin} {count : Nat} (h : Takes s o (.noticeRead count))
include h

/-- R179: a count out of range. -/
theorem exec_noticeRead_bad (hbad : count < 1 ∨ 8 < count) :
    exec (.noticeRead o count) s = .next (s.replied s.node o (.noticeRead count) .badArgument .nil) :=
  State.command_acting h (act := fun n => n.noticeRead o count) (fun _ => rfl) rfl
    fun f => Node.noticeRead_bad (s.node.onCmd f) count o hbad

/-- R179: a read from channel C takes nothing away. -/
theorem exec_noticeRead_centre (hin : ¬(count < 1 ∨ 8 < count)) {f : Nat} (ho : o = .centre f) :
    exec (.noticeRead o count) s =
      .next (s.replied s.node o (.noticeRead count) .done (s.node.svc.note.readValue count)) := by
  subst ho
  exact State.command_acting h (act := fun n => n.noticeRead (.centre f) count) (fun _ => rfl) rfl
    fun g => Node.noticeRead_centre (s.node.onCmd g) count f hin

/-- R179: a read from channel L. -/
theorem exec_noticeRead_link (hin : ¬(count < 1 ∨ 8 < count)) {tag : Nat} (ho : o = .link tag) :
    exec (.noticeRead o count) s = .next (s.replied (s.node.onSvc fun v => v.readFromL count) o (.noticeRead count)
      .done (s.node.svc.note.readValue count)) := by
  subst ho
  exact State.command_acting h (act := fun n => n.noticeRead (.link tag) count) (fun _ => rfl) rfl
    fun g => Node.noticeRead_link (s.node.onCmd g) count tag hin

end

/-- R177: NOTICE-ROUTE-SET of an unknown code. -/
theorem exec_noticeRouteSet_bad {s : State} {o : Origin} {a b : Bool} (h : Takes s o (.noticeRouteSet none a b)) :
    exec (.noticeRouteSet o none a b) s = .next (s.replied s.node o (.noticeRouteSet none a b) .badArgument .nil) :=
  State.command_acting h (act := fun n => n.noticeRouteSet none a b) (fun _ => rfl) rfl fun _ => rfl

/-- R177: NOTICE-ROUTE-SET of a code. -/
theorem exec_noticeRouteSet_done {s : State} {o : Origin} {k : NoticeCode} {a b : Bool}
    (h : Takes s o (.noticeRouteSet (some k) a b)) : exec (.noticeRouteSet o (some k) a b) s = .next (s.replied
      (s.node.onSettings fun v => { v with routes := putRoute v.routes { code := k, host := a, centre := b } })
      o (.noticeRouteSet (some k) a b) .done .nil) :=
  State.command_acting h (act := fun n => n.noticeRouteSet (some k) a b) (fun _ => rfl) rfl fun _ => rfl

/-- R182: NOTICE-CLEAR. -/
theorem exec_noticeClear {s : State} {o : Origin} (h : Takes s o .noticeClear) :
    exec (.noticeClear o) s = .next (s.replied
      (s.node.onSvc fun v => { v with note := { v.note with overflow := false, lost := 0 } }) o .noticeClear .done
      (.nat s.node.svc.note.lost)) :=
  State.command_acting h (act := Node.noticeClear) (fun _ => rfl) rfl fun _ => rfl

/-- R183: the end of the attention pause. -/
theorem Node.pauseEnds_eq (n : Node) : n.pauseEnds =
    if due n.svc.now n.svc.note.pauseUntil then { n with svc := { n.svc with note := { n.svc.note with
      pauseUntil := none, attention := n.svc.note.queue.any (·.toHost) } } } else n := by
  unfold Node.pauseEnds
  rw [Node.onSvc, Note.setAttention_eq]
  rfl

/-- R178: the sender offers a notice. -/
theorem Node.offeredNotice_some {n : Node} (hp : n.set.noticePush = true) :
    n.offeredNotice = n.svc.note.queue.find? (·.toHost) := if_pos hp

theorem Node.offeredNotice_none {n : Node} (h : n.set.noticePush = false ∨ n.svc.note.queue.find? (·.toHost) = none) :
    n.offeredNotice = none := by
  unfold Node.offeredNotice
  split
  · next hp => exact h.resolve_left (by simp [hp])
  · rfl

/-- Settles O56: one operation of the notice queue after the other. -/
theorem noticesAreKeptAndRead : Obligations.NoticesAreKeptAndRead := by
  unfold Obligations.NoticesAreKeptAndRead
  refine ⟨fun src l s h hh => ?_,
    fun o count s h => ⟨exec_noticeRead_bad h, fun hlow hhigh => ⟨fun f ho => ?_, fun tag ho => ?_⟩⟩,
    fun o s h => exec_noticeClear h, fun o c a b s h => ⟨?_, ?_⟩, fun s h => ?_, fun s c b d => ⟨?_, ?_, ?_, ?_⟩,
    fun s fuel => ⟨?_, ?_, ?_⟩, fun t k src e ht => ⟨ht.served rfl, ht.centred rfl, ht.receive src e⟩,
    fun n hrun hfree hdue hreply hdelivery => ⟨fun hnone => ?_, fun e hpush hnext => ⟨?_, ?_, ?_, ?_, ?_⟩⟩⟩
  · dsimp only
    rw [exec_noticeFwd h hh, Node.takeNotices_eq, Node.onSvc, Note.foldl_receive]
    rfl
  · exact exec_noticeRead_centre h (by omega) ho
  · obtain ⟨t, ht, hqueue, hlost, hoverflow, hpause, hattention⟩ := s.node.svc.readFromL_spec count
    have hsvc : (s.node.onSvc fun v => v.readFromL count).svc.note = t := congrArg Svc.note ht
    refine ⟨_, exec_noticeRead_link h (by omega) ho, ?_⟩
    dsimp only [Node.attentionLine]
    rw [hsvc, hqueue]
    exact ⟨filter_toHost_serveHost .., filter_toCentre_serveHost .., hlost, hoverflow, hpause, hattention, rfl, rfl, rfl,
      rfl, rfl⟩
  · rintro rfl
    exact exec_noticeRouteSet_bad h
  · rintro k rfl
    exact exec_noticeRouteSet_done h
  · refine (State.act_onEvent h).trans ?_
    rw [Node.pauseEnds_eq]
  · exact Svc.post_notKept
  · intro hk hw hfull
    refine (Svc.post_kept hk hw).trans ?_
    have hno : decide (s.note.queue.length < Config.noticePlaces) = false := decide_eq_false (Nat.not_lt.2 hfull)
    rw [if_neg (by simp [hno]), Note.append_full hfull]
  · intro hk hw hplace
    have hpost := Svc.post_kept (c := c) (b := b) (d := d) hk hw
    rw [Note.append_place hplace] at hpost
    refine ⟨fun hc => hpost.trans (if_neg ?_), fun hc => hpost.trans (if_pos ?_)⟩
    · have hc : (s.entryFor c b d).toCentre = false := hc
      simp [hc]
    · have hc : (s.entryFor c b d).toCentre = true := hc
      simp [hc, Config.noticePlaces, hplace]
  · exact ((Svc.Upholds.refl s).post c b d).notes
  · exact fun h => Svc.lookCentre_idle fuel (of_decide_eq_true h)
  · intro hidle hrefused
    rw [← Svc.noticeMessage_eq] at hrefused ⊢
    refine (Svc.lookCentre_offers fuel (of_decide_eq_false hidle)).trans (if_neg ?_)
    exact Bool.eq_false_iff.1 hrefused
  · intro hidle htaken
    dsimp only
    rw [← Svc.noticeMessage_eq] at htaken ⊢
    refine (Svc.lookCentre_offers fuel (of_decide_eq_false hidle)).trans ((if_pos htaken).trans ?_)
    rw [Note.setAttention_eq]
    rfl
  · rw [Node.sendNext_other hrun hfree hdue hreply, Node.sendOther_none (Node.offeredNotice_none hnone) hdelivery]
  all_goals
    rw [Node.sendNext_other hrun hfree hdue hreply,
      Node.sendOther_notice ((Node.offeredNotice_some hpush).trans hnext) hdelivery]
  · rfl
  · rw [Node.takeNotice_svc, Note.setAttention_queue, filter_toHost_serveHost]
  · rw [Node.takeNotice_svc, Note.setAttention_queue, filter_toCentre_serveHost]
  · rfl
  · rfl

end Sys2Proof.Machine


/-! SUPPORT. The host link (R184–R186): what the receiver makes of its bytes and the sender of its queues, with O57. -/

namespace Sys2Proof.Machine

/-! ## A frame in its layout -/

theorem bigEndian_one (v : Nat) : bigEndian 1 v = [BitVec.ofNat 8 v] := by
  simp [bigEndian]

theorem bigEndian_two (v : Nat) : bigEndian 2 v = [BitVec.ofNat 8 (v / 256), BitVec.ofNat 8 v] := by
  simp [bigEndian]

theorem be16_bytes {v : Nat} (h : v < 65536) : be16 (BitVec.ofNat 8 (v / 256)) (BitVec.ofNat 8 v) = v := by
  simp only [be16, BitVec.toNat_ofNat]
  omega

theorem toNat_byte {v : Nat} (h : v < 256) : (BitVec.ofNat 8 v).toNat = v := by
  rw [BitVec.toNat_ofNat]
  exact Nat.mod_eq_of_lt h

/-- R184: what the receiver makes of a start marker, a length within the limit and the rest of a whole frame. -/
theorem receive_whole {len kind tag hi lo code : Byte} {tail : List Byte} (hl : len.toNat ≤ 240)
    (ht : len.toNat + 2 ≤ tail.length) :
    receive (Config.startMarker :: len :: kind :: tag :: hi :: lo :: code :: tail) = .frame
      { kind := kind.toNat, tag := tag.toNat, station := be16 hi lo, code := code, body := tail.take len.toNat
        good := decide ((tail.drop len.toNat).take 2 =
          bigEndian 2 (crc16 (len :: kind :: tag :: hi :: lo :: code :: tail.take len.toNat)).toNat) }
      (tail.drop (len.toNat + 2)) := by
  have hlimit : ¬Config.bodyMax < len.toNat := Nat.not_lt.2 hl
  simp only [receive, ne_eq, not_true_eq_false, if_false]
  rw [if_neg hlimit, if_neg (Nat.not_lt.2 ht)]

/-- The bytes over which a frame's CRC-16 is taken. -/
def frameInner (kind tag station : Nat) (code : Byte) (body : List Byte) : List Byte :=
  BitVec.ofNat 8 body.length :: BitVec.ofNat 8 kind :: BitVec.ofNat 8 tag :: BitVec.ofNat 8 (station / 256) ::
    BitVec.ofNat 8 station :: code :: body

theorem frameBytes_eq (kind tag station : Nat) (code : Byte) (body rest : List Byte) :
    frameBytes kind tag station code body ++ rest =
      Config.startMarker :: BitVec.ofNat 8 body.length :: BitVec.ofNat 8 kind :: BitVec.ofNat 8 tag ::
        BitVec.ofNat 8 (station / 256) :: BitVec.ofNat 8 station :: code ::
        (body ++ (bigEndian 2 (crc16 (frameInner kind tag station code body)).toNat ++ rest)) := by
  unfold frameBytes
  simp only [bigEndian_one, bigEndian_two station, List.cons_append, List.nil_append, List.append_assoc, frameInner]

/-- R184: a frame in its layout is received whole. -/
theorem receive_frameBytes {kind tag station : Nat} (code : Byte) {body : List Byte} (rest : List Byte) (hk : kind < 256)
    (ht : tag < 256) (hs : station < 65536) (hb : body.length ≤ 240) :
    receive (frameBytes kind tag station code body ++ rest) = .frame
      { kind := kind, tag := tag, station := station, code := code, body := body, good := true } rest := by
  have hlen : (BitVec.ofNat 8 body.length).toNat = body.length := toNat_byte (by omega)
  have hgood : decide (bigEndian 2 (crc16 (frameInner kind tag station code body)).toNat =
      bigEndian 2 (crc16 (frameInner kind tag station code body)).toNat) = true := decide_eq_true rfl
  rw [frameBytes_eq, receive_whole (by omega) (by simp [hlen]), hlen, toNat_byte hk, toNat_byte ht, be16_bytes hs,
    List.take_left, List.drop_left, List.take_left' (bigEndian_length 2 _), ← frameInner, hgood, ← List.drop_drop,
    List.drop_left, List.drop_left' (bigEndian_length 2 _)]

/-! ## The receiver (R184) -/

/-- The node while the receiver goes through the bytes it has gathered. -/
def Node.hunting (n : Node) : Node := n.onLink fun k => { k with gather := [] }

section
variable {n m : Node} {mem : Memory} {bytes rest : List Byte} {f : RawFrame}

theorem Node.receiveFrame_nil (n : Node) (mem : Memory) : n.receiveFrame mem [] = n := if_pos rfl

/-- R184: the receiver goes on with what is left behind a pass. -/
theorem Node.receiveBytes_goesOn {k : Nat} (hgather : m.link.gather = []) (hk : rest.length < k) :
    Node.receiveBytes mem k rest m = m.receiveFrame mem rest := by
  have hhunting : m.onLink (fun k => { k with gather := [] }) = m := by
    rw [Node.onLink, ← hgather]
  unfold Node.receiveFrame
  split
  · next h =>
    subst h
    cases k with
    | zero => rfl
    | succ k => rfl
  · dsimp only
    rw [hhunting, hgather, List.nil_append]
    exact Node.receiveBytes_bound mem _ _ _ _ hk (Nat.lt_succ_self _)

theorem Node.receiveFrame_pass (hb : bytes ≠ []) : n.receiveFrame mem bytes =
    match receive (n.link.gather ++ bytes) with
    | .nothing => n.hunting
    | .hunting rest => Node.receiveBytes mem (n.link.gather ++ bytes).length rest n.hunting
    | .gathering => n.hunting.onLink fun k => { k with gather := n.link.gather ++ bytes, gatherAt := n.svc.now }
    | .wrongLength rest => Node.receiveBytes mem (n.link.gather ++ bytes).length rest n.hunting.countBadLength
    | .frame f rest => Node.receiveBytes mem (n.link.gather ++ bytes).length rest (n.hunting.takeFrame mem f) :=
  if_neg hb

theorem Node.receiveFrame_hunting (hb : bytes ≠ []) (hr : receive (n.link.gather ++ bytes) = .hunting rest) :
    n.receiveFrame mem bytes = n.hunting.receiveFrame mem rest := by
  rw [Node.receiveFrame_pass hb, hr]
  exact Node.receiveBytes_goesOn rfl ((receive_shorter _).1 _ hr)

theorem Node.receiveFrame_gathering (hb : bytes ≠ []) (hr : receive (n.link.gather ++ bytes) = .gathering) :
    n.receiveFrame mem bytes =
      n.onLink fun k => { k with gather := n.link.gather ++ bytes, gatherAt := n.svc.now } := by
  rw [Node.receiveFrame_pass hb, hr]
  rfl

theorem Node.receiveFrame_wrongLength (hb : bytes ≠ []) (hr : receive (n.link.gather ++ bytes) = .wrongLength rest) :
    n.receiveFrame mem bytes = n.discardFrame.receiveFrame mem rest := by
  rw [Node.receiveFrame_pass hb, hr]
  exact Node.receiveBytes_goesOn rfl ((receive_shorter _).2.1 _ hr)

/-- R184: a frame whose taking leaves nothing gathered. -/
theorem Node.receiveFrame_frame (hb : bytes ≠ []) (hr : receive (n.link.gather ++ bytes) = .frame f rest)
    (hm : n.hunting.takeFrame mem f = m) (hgather : m.link.gather = []) :
    n.receiveFrame mem bytes = m.receiveFrame mem rest := by
  rw [Node.receiveFrame_pass hb, hr]
  dsimp only
  rw [hm]
  exact Node.receiveBytes_goesOn hgather ((receive_shorter _).2.2 _ _ hr)

/-- R184: the last frame of some bytes. -/
theorem Node.receiveFrame_last (hb : bytes ≠ []) (hr : receive (n.link.gather ++ bytes) = .frame f []) :
    n.receiveFrame mem bytes = n.hunting.takeFrame mem f := by
  rw [Node.receiveFrame_pass hb, hr]
  dsimp only
  cases (n.link.gather ++ bytes).length with
  | zero => rfl
  | succ k => rfl

end

/-! ## Whole frames (R184, R187) -/

/-- R184, R187: one more valid frame, with a running hold lapse started again. -/
def Node.heardFrame (n : Node) : Node :=
  { n with
    link := { n.link with valid := bump 65535 n.link.valid, gather := [] }
    cmd := { n.cmd with lapse := if n.cmd.held then some (n.svc.now + n.set.holdLapse * 4000) else n.cmd.lapse } }

theorem Node.restartLapse_eq (n : Node) : n.restartLapse = { n with cmd := { n.cmd with
    lapse := if n.cmd.held then some (n.svc.now + n.set.holdLapse * 4000) else n.cmd.lapse } } := by
  unfold Node.restartLapse
  split
  · rfl
  · rfl

/-- R184, R185: a COMMAND frame, its reply gap begun. -/
def Node.heardCommand (n : Node) (tag : Nat) : Node :=
  if 0 < n.set.replyGap then
    { n.heardFrame with link := { n.heardFrame.link with gaps := n.heardFrame.link.gaps ++ [tag] } }
  else n.heardFrame

theorem Node.heardCommand_cmd (n : Node) (tag : Nat) : (n.heardCommand tag).cmd = n.heardFrame.cmd := by
  unfold Node.heardCommand
  split
  · rfl
  · rfl

theorem Node.heardCommand_phase (n : Node) (tag : Nat) : (n.heardCommand tag).phase = n.phase := by
  unfold Node.heardCommand
  split
  · rfl
  · rfl

section
variable (n : Node) (mem : Memory) {f : RawFrame} (hgood : f.good = true)

theorem Node.takeFrame_badCrc (hbad : f.good = false) : n.hunting.takeFrame mem f =
    { n with link := { n.link with badCrc := bump 65535 n.link.badCrc, gather := [] } } :=
  if_neg (by simp [hbad])

include hgood

theorem Node.takeFrame_wrongKind (hk : f.kind ≠ 1) : n.hunting.takeFrame mem f =
    { n.heardFrame with link := { n.heardFrame.link with wrongKind := bump 65535 n.heardFrame.link.wrongKind } } := by
  unfold Node.takeFrame Node.validFrame
  rw [if_pos hgood, Node.restartLapse_eq]
  exact if_pos hk

theorem Node.takeFrame_command (hk : f.kind = 1) : n.hunting.takeFrame mem f =
    if f.station ≠ 0 then (n.heardCommand f.tag).forward f.tag f.station (Config.parseCommand f.code f.body)
    else (n.heardCommand f.tag).takeCommand mem (.link f.tag) (Config.parseCommand f.code f.body) := by
  unfold Node.takeFrame Node.validFrame
  rw [if_pos hgood, Node.restartLapse_eq]
  exact if_neg (not_not.2 hk)

end

/-! ## The statement -/

section
variable {s : State} (h : s.node.phase = .started)
include h

theorem exec_hostFrameReceived (bytes : List Byte) :
    exec (.hostFrameReceived bytes) s = .next (s.settled (s.node.receiveFrame s.store bytes)) :=
  State.act_onEvent h

/-- The receiver goes on with these bytes. -/
theorem exec_hostFrameReceived_goesOn {bytes rest : List Byte} {m : Node} (hm : m.phase = s.node.phase)
    (hr : s.node.receiveFrame s.store bytes = m.receiveFrame s.store rest) :
    exec (.hostFrameReceived bytes) s = exec (.hostFrameReceived rest) { s with node := m } := by
  rw [exec_hostFrameReceived h, hr, exec_hostFrameReceived (s := { s with node := m }) (hm.trans h)]
  rfl

end

/-- R186: a COMMAND frame that ends the bytes, for this station. -/
theorem exec_hostFrameReceived_command {s : State} (h : s.node.phase = .started) {bytes : List Byte} {f : RawFrame}
    (hb : bytes ≠ []) (hr : receive (s.node.link.gather ++ bytes) = .frame f []) (hgood : f.good = true)
    (hk : f.kind = 1) : exec (.hostFrameReceived bytes) s = .next (s.settled
      (if f.station ≠ 0 then
        (s.node.heardCommand f.tag).forward f.tag f.station (Config.parseCommand f.code f.body)
      else (s.node.heardCommand f.tag).takeCommand s.store (.link f.tag) (Config.parseCommand f.code f.body))) := by
  rw [exec_hostFrameReceived h, Node.receiveFrame_last hb hr, Node.takeFrame_command _ _ hgood hk]

theorem Node.takeCommand_channelBusy {n : Node} {mem : Memory} {o : Origin} {p : Parsed}
    (h : n.cmd.channel o ≠ none) : n.takeCommand mem o p = n.replyTo o p .busy .nil := by
  have hpre : n.preCheck o p = some .busy := if_pos (Option.isSome_iff_ne_none.2 h)
  simp only [Node.takeCommand, hpre]

theorem Node.takeCommand_channelUnknown {n : Node} {mem : Memory} {o : Origin} (h : n.cmd.channel o = none) :
    n.takeCommand mem o .unknown = n.replyTo o .unknown .unknownCommand .nil := by
  have hpre : n.preCheck o .unknown = some .unknownCommand := if_neg (by simp [h])
  rw [Node.takeCommand, hpre]

/-! ## The sender (R185) -/

theorem Node.sendNext_idle {n : Node} (h : n.link.running = false ∨ n.link.sending ≠ none ∨ n.restartDue = true) :
    n.sendNext = n := by
  refine if_pos ?_
  rwa [Option.isSome_iff_ne_none]

theorem Node.sendNext_reply {n : Node} (hrun : n.link.running = true) (hfree : n.link.sending = none)
    (hdue : n.restartDue = false) {r : Reply} {rest : List Reply} (hr : n.link.replies = r :: rest) :
    n.sendNext = if r.tag ∈ n.link.gaps then n
      else { n with link := { n.link with replies := rest, sending := some (.reply r) } } := by
  rw [Node.sendNext_free hrun hfree hdue, hr]
  simp only [List.contains_iff_mem]
  rfl

section
variable {n : Node} {e : Notice} {f : DataFrame} {rest : List DataFrame}

theorem Node.sendOther_data (hn : n.offeredNotice = none) (hd : n.coll.delivery = f :: rest) :
    n.sendOther = n.takeDataFrame f := by
  unfold Node.sendOther
  rw [hn, hd]

/-- R185: a notice and a DATA frame take turns. -/
theorem Node.sendOther_both (hn : n.offeredNotice = some e) (hd : n.coll.delivery = f :: rest) :
    n.sendOther = if n.link.noticeTurn then n.takeNotice e else n.takeDataFrame f := by
  unfold Node.sendOther
  rw [hn, hd]

end

/-- Settles O57: the receiver pass by pass, and the sender's choice. -/
theorem hostFramesComeAndGo : Obligations.HostFramesComeAndGo := by
  unfold Obligations.HostFramesComeAndGo
  refine ⟨fun kind tag station code body rest hk ht hs hb => receive_frameBytes code rest hk ht hs hb, fun bytes s h => ?_,
    fun s h => ?_, fun n => ?_⟩
  · refine ⟨?_, fun hb => ⟨fun rest hr => ?_, fun hr => ?_, fun rest hr => ?_, fun f rest hr hgood => ?_,
      fun f rest hr hgood hk => ?_, fun f hr hgood hk => ⟨fun i c hst hp hi => ?_, fun p hst hp hchan => ?_,
      fun hst hp hchan => ?_, fun p hst hp => ?_⟩⟩, ?_, State.act_onEvent h⟩
    · rintro rfl
      exact exec_hostFrameReceived h []
    · exact exec_hostFrameReceived_goesOn h rfl (Node.receiveFrame_hunting hb hr)
    · exact (exec_hostFrameReceived h bytes).trans (by rw [Node.receiveFrame_gathering hb hr]; rfl)
    · exact exec_hostFrameReceived_goesOn h rfl (Node.receiveFrame_wrongLength hb hr)
    · exact exec_hostFrameReceived_goesOn h rfl
        (Node.receiveFrame_frame hb hr (Node.takeFrame_badCrc s.node s.store hgood) rfl)
    · exact exec_hostFrameReceived_goesOn h rfl
        (Node.receiveFrame_frame hb hr (Node.takeFrame_wrongKind s.node s.store hgood hk) rfl)
    · refine (exec_hostFrameReceived_command h hb hr hgood hk).trans ?_
      have hreach : Reaches { s with node := s.node.heardCommand f.tag } (.link f.tag) :=
        ⟨(Node.heardCommand_phase ..).trans h, fun hc => nomatch hc⟩
      refine Eq.trans ?_ (exec_of_rowCommand hi _).symm
      rw [if_neg (not_not.2 hst), hp]
      exact (State.command_reaches hreach).symm
    · refine (exec_hostFrameReceived_command h hb hr hgood hk).trans ?_
      have hbusy : (s.node.heardCommand f.tag).cmd.channel (.link f.tag) ≠ none := by
        rw [Node.heardCommand_cmd]
        exact hchan
      rw [if_neg (not_not.2 hst), hp, Node.takeCommand_channelBusy hbusy]
      rfl
    · refine (exec_hostFrameReceived_command h hb hr hgood hk).trans ?_
      have hfree : (s.node.heardCommand f.tag).cmd.channel (.link f.tag) = none := by
        rw [Node.heardCommand_cmd]
        exact hchan
      rw [if_neg (not_not.2 hst), hp, Node.takeCommand_channelUnknown hfree]
      rfl
    · refine (exec_hostFrameReceived_command h hb hr hgood hk).trans ?_
      rw [if_pos hst, hp]
      exact (exec_forward (s := { s with node := s.node.heardCommand f.tag })
        ((Node.heardCommand_phase ..).trans h) f.tag f.station p).symm
    · exact State.act_onEvent h
  · have hsent : exec .frameSent s = .next (s.settled s.node.frameSent) := State.act_onEvent h
    refine ⟨fun hn => ?_, fun k st e f hn => ?_, fun k f hn => ?_, fun r hn => ?_, State.act_onEvent h⟩
    · rw [hsent, Node.frameSent, hn]
    · rw [hsent, Node.frameSent, hn]
      rfl
    · rw [hsent, Node.frameSent, hn]
      rfl
    · rw [hsent, Node.frameSent, hn]
      rfl
  · refine ⟨Node.sendNext_idle, fun hrun hfree hdue => ⟨fun r rest hr => Node.sendNext_reply hrun hfree hdue hr,
      fun hreply => ?_⟩⟩
    have hother := Node.sendNext_other hrun hfree hdue hreply
    dsimp only
    rw [hother]
    refine ⟨fun hn hd => Node.sendOther_none hn hd, fun f rest hn hd => Node.sendOther_data hn hd, fun e hn hd => ?_,
      fun e f rest hn hd => ?_⟩
    · rw [Node.sendOther_notice hn hd]
      exact ⟨rfl, rfl⟩
    · rw [Node.sendOther_both hn hd, Link.noticeTurn]
      refine ⟨fun hlast => ?_, fun hlast => ?_, fun hlast => ?_⟩
      · rw [hlast]
        rfl
      · rw [hlast]
        exact ⟨rfl, rfl⟩
      · rw [hlast]
        cases Config.noticeFirst
        · exact .inl rfl
        · exact .inr ⟨rfl, rfl⟩

end Sys2Proof.Machine


/-! SUPPORT. What a device's reply brings into the toll log and the weather store (R136–R140, R147–R150), with O51. -/

namespace Sys2Proof.Machine

/-! ## One record of a gantry (R137, R138) -/

/-- R132: the accepted-through of a gantry's entry. -/
def Toll.through (t : Toll) (g : Nat) : Option Nat := (t.entry g).map Gantry.a

/-- A change of an entry that leaves its number and its accepted-through. -/
theorem Toll.through_changeEntry (t : Toll) (g : Nat) {f : Gantry → Gantry} (hn : ∀ e, (f e).number = e.number)
    (ha : ∀ e, (f e).a = e.a) : (t.changeEntry g f).through g = t.through g := by
  unfold Toll.through
  rw [Toll.entry_changeEntry t g g hn, if_pos rfl]
  cases t.entry g with
  | none => rfl
  | some e => exact congrArg some (ha e)

section
variable {d g : Nat} {r : TollRecord} {ge : Gantry} {x : TollSt}

theorem takeRecord_stopped (d g : Nat) (r : TollRecord) (x : TollSt) : takeRecord d g (x, true) r =
    ((x.1, { x.2 with counts := { x.2.counts with deferred := bump 4294967295 x.2.counts.deferred } }), true) := rfl

variable (he : x.2.entry g = some ge)
include he

theorem takeRecord_going : takeRecord d g (x, false) r =
    if r.seq ≤ ge.a then ((x.1, x.2.count fun n => { n with duplicate := bump Config.longMax n.duplicate }), false)
    else if malformedRecord g r then (stopMalformed d g r.seq x, true)
    else if r.seq = ge.a + 1 then
      match x.1.requestBuffers .toll 1 with
      | (s, none) => (acceptRecord g r (s, x.2), false)
      | (s, some reason) => (holdRecord d g r.seq reason (s, x.2), true)
    else (stopGap d g ge.a r.seq x, true) := by
  simp only [takeRecord, Bool.false_eq_true, if_false, he] <;> rfl

theorem takeRecord_duplicate (h : r.seq ≤ ge.a) : takeRecord d g (x, false) r =
    ((x.1, { x.2 with counts := { x.2.counts with duplicate := bump 4294967295 x.2.counts.duplicate } }), false) := by
  rw [takeRecord_going he, if_pos h]
  rfl

theorem takeRecord_malformed (h : ge.a < r.seq) (hm : malformedRecord g r = true) :
    takeRecord d g (x, false) r = (stopMalformed d g r.seq x, true) := by
  rw [takeRecord_going he, if_neg (Nat.not_le.2 h), if_pos hm]

theorem takeRecord_gap (h : ge.a + 1 < r.seq) (hm : malformedRecord g r = false) :
    takeRecord d g (x, false) r = (stopGap d g ge.a r.seq x, true) := by
  rw [takeRecord_going he, if_neg (by omega), if_neg (by simp [hm]), if_neg (by omega)]

theorem takeRecord_granted (h : r.seq = ge.a + 1) (hm : malformedRecord g r = false)
    (hr : (x.1.requestBuffers .toll 1).2 = none) :
    takeRecord d g (x, false) r = (acceptRecord g r ((x.1.requestBuffers .toll 1).1, x.2), false) := by
  rw [takeRecord_going he, if_neg (by omega), if_neg (by simp [hm]), if_pos h]
  rcases hq : x.1.requestBuffers .toll 1 with ⟨s, reason⟩
  rw [hq] at hr
  subst hr
  rfl

theorem takeRecord_held (h : r.seq = ge.a + 1) (hm : malformedRecord g r = false)
    (hr : (x.1.requestBuffers .toll 1).2 ≠ none) : ∃ reason, takeRecord d g (x, false) r =
      (holdRecord d g r.seq reason ((x.1.requestBuffers .toll 1).1, x.2), true) := by
  rw [takeRecord_going he, if_neg (by omega), if_neg (by simp [hm]), if_pos h]
  rcases hq : x.1.requestBuffers .toll 1 with ⟨s, reason⟩
  rw [hq] at hr
  cases reason with
  | none => exact absurd rfl hr
  | some reason => exact ⟨reason, rfl⟩

/-- R137: a malformed record is counted, and changes neither the log nor the accepted-through. -/
theorem stopMalformed_spec (q : Nat) : (stopMalformed d g q x).2.log = x.2.log ∧
    (stopMalformed d g q x).2.through g = some ge.a ∧
    (stopMalformed d g q x).2.counts.malformed = bump 4294967295 x.2.counts.malformed := by
  have ha : x.2.through g = some ge.a := by rw [Toll.through, he]; rfl
  unfold stopMalformed
  dsimp only
  split
  · exact ⟨rfl, ha, rfl⟩
  · split
    · exact ⟨rfl, ha, rfl⟩
    · exact ⟨rfl, (Toll.through_changeEntry (x.2.count _) g (f := fun e => { e with lastBad := some q }) (fun _ => rfl)
        fun _ => rfl).trans ha, rfl⟩

/-- R140: so with a record beyond the next. -/
theorem stopGap_spec (a q : Nat) : (stopGap d g a q x).2.log = x.2.log ∧
    (stopGap d g a q x).2.through g = some ge.a ∧
    (stopGap d g a q x).2.counts.gap = bump 4294967295 x.2.counts.gap := by
  have ha : x.2.through g = some ge.a := by rw [Toll.through, he]; rfl
  unfold stopGap
  dsimp only
  split
  · exact ⟨rfl, ha, rfl⟩
  · split
    · exact ⟨rfl, ha, rfl⟩
    · exact ⟨rfl, (Toll.through_changeEntry (x.2.count _) g (f := fun e => { e with lastGap := some a }) (fun _ => rfl)
        fun _ => rfl).trans ha, rfl⟩

/-- R139: a record held sets the held mark. -/
theorem holdRecord_spec (q : Nat) (reason : PoolReason) : (holdRecord d g q reason x).2.log = x.2.log ∧
    (holdRecord d g q reason x).2.through g = some ge.a ∧ (holdRecord d g q reason x).2.heldMark = true := by
  have ha : x.2.through g = some ge.a := by rw [Toll.through, he]; rfl
  unfold holdRecord
  extract_lets t
  split
  · next h => exact ⟨rfl, ha, h⟩
  · exact ⟨rfl, ha, rfl⟩

/-- R138: a record accepted. -/
theorem acceptRecord_spec (r : TollRecord) :
    (acceptRecord g r x).2.log = x.2.log ++ [{ record := r, receipt := x.1.time, loan := none }] ∧
    (acceptRecord g r x).2.through g = some (ge.a + 1) ∧
    (acceptRecord g r x).2.counts.accepted = bump 4294967295 x.2.counts.accepted ∧
    (acceptRecord g r x).2.heldMark = false := by
  have ha : (x.2.changeEntry g fun e => { e with a := e.a + 1 }).through g = some (ge.a + 1) := by
    rw [Toll.through, Toll.entry_changeEntry x.2 g g (f := fun e => { e with a := e.a + 1 }) (fun _ => rfl), if_pos rfl,
      he]
    rfl
  unfold acceptRecord raiseHigh
  dsimp only
  split
  · exact ⟨rfl, ha, rfl, rfl⟩
  · exact ⟨rfl, ha, rfl, rfl⟩

/-- R137, R139, R140: a record that stops acceptance. -/
theorem takeRecord_stops (h : ge.a < r.seq)
    (hs : malformedRecord g r = true ∨ r.seq ≠ ge.a + 1 ∨ (x.1.requestBuffers .toll 1).2 ≠ none) :
    (takeRecord d g (x, false) r).2 = true ∧ (takeRecord d g (x, false) r).1.2.log = x.2.log ∧
      (takeRecord d g (x, false) r).1.2.through g = some ge.a := by
  by_cases hm : malformedRecord g r = true
  · obtain ⟨hlog, ha, -⟩ := stopMalformed_spec (d := d) he r.seq
    rw [takeRecord_malformed he h hm]
    exact ⟨rfl, hlog, ha⟩
  · have hm : malformedRecord g r = false := Bool.eq_false_iff.2 hm
    by_cases hseq : r.seq = ge.a + 1
    · have hr : (x.1.requestBuffers .toll 1).2 ≠ none := by simpa [hm, hseq] using hs
      obtain ⟨reason, hheld⟩ := takeRecord_held (d := d) he hseq hm hr
      obtain ⟨hlog, ha, -⟩ := holdRecord_spec (d := d) (x := ((x.1.requestBuffers .toll 1).1, x.2)) he r.seq reason
      rw [hheld]
      exact ⟨rfl, hlog, ha⟩
    · obtain ⟨hlog, ha, -⟩ := stopGap_spec (d := d) he ge.a r.seq
      rw [takeRecord_gap he (by omega) hm]
      exact ⟨rfl, hlog, ha⟩

end

/-- R136: the C of the request changes the reported-through alone. -/
theorem reportThrough_spec (g c : Nat) (t : Toll) : (reportThrough g c t).log = t.log ∧
    (reportThrough g c t).through g = t.through g ∧ (reportThrough g c t).counts = t.counts ∧
    (reportThrough g c t).heldMark = t.heldMark := by
  have hf (e : Gantry) : ∀ k, { e with reported := k }.number = e.number ∧ { e with reported := k }.a = e.a :=
    fun _ => ⟨rfl, rfl⟩
  refine ⟨rfl, Toll.through_changeEntry t g (fun e => ?_) fun e => ?_, rfl, rfl⟩
  · split <;> rfl
  · split <;> rfl

/-! ## The reply of a toll offer (R136) -/

theorem takeOffer_attached {d g c : Nat} {l : List TollRecord} {x : TollSt}
    (h : nth x.2.attachments d = some (some (.attached g))) : takeOffer d c l x =
      ((l.foldl (takeRecord d g) (x, false)).1.1, reportThrough g c (l.foldl (takeRecord d g) (x, false)).1.2) := by
  simp only [takeOffer, h, Option.getD_some]

theorem Node.keeps_missAnswered (n : Node) (d : Nat) : Node.Keeps n (n.missAnswered d) := by
  unfold Node.missAnswered
  split
  · exact .refl n
  · split
    · exact .refl n
    · dsimp only
      split
      · exact (n.keeps_onDevice ..).trans (Node.keeps_moveDevice ..)
      · exact n.keeps_onDevice ..

theorem Node.keeps_endPoll (n : Node) (d : Nat) (e : Exchange) (st : Status) : Node.Keeps n (n.endPoll d e st) := by
  unfold Node.endPoll
  split
  · exact Node.keeps_endCommand ..
  · exact .refl n

/-- R101, R102, R107: what an ANSWERED exchange leaves as the reply's taker made it. -/
theorem Node.keeps_answered (n : Node) (d : Nat) (v : Device) (e : Exchange) (c : ReplyContent) :
    Node.Keeps ((n.freeLine d).handReply d v e c) (n.answered d v e c) := by
  unfold Node.answered
  dsimp only
  split
  · exact Node.keeps_endPoll ..
  · exact (Node.keeps_missAnswered ..).trans (Node.keeps_endPoll ..)

section
variable {s : State} {l d : Nat} {v : Device} {e : Exchange} (hphase : s.node.phase = .started)
  (hway : s.node.isHead = false) (hl : s.node.set.deviceOn l = some d) (hv : s.node.device d = some v)
  (he : v.exchange = some e)
include hphase hway hl hv he

/-- R101: the reply that answers the exchange in flight. -/
theorem exec_exchangeReply_answered {c : ReplyContent} (hc : ReplyContent.overlong c = false) (hk : e.kind = c.kind) :
    exec (.exchangeReply l (.whole e.number c)) s = .next (s.settled (s.node.answered d v e c)) := by
  have hreply : s.node.lineReply l (.whole e.number c) = s.node.answered d v e c := by
    rw [Node.lineReply_whole hl hv hc, he]
    exact if_pos ⟨rfl, hk⟩
  rw [← hreply]
  exact State.act_onRole hphase hway

/-- R136: the records of a toll offer's reply, taken one by one. -/
theorem exec_exchangeReply_records {g a c : Nat} {rs : List TollRecord} (hk : e.kind = .tollOffer)
    (hreq : e.request = .toll a c) (hg : nth s.node.toll.attachments d = some (some (.attached g)))
    (hlen : rs.length ≤ 4) : ∃ t, exec (.exchangeReply l (.whole e.number (.records rs))) s = .next t ∧
      t.node.call.phones = s.node.call.phones ∧ t.node.toll =
        reportThrough g c (rs.foldl (takeRecord d g) ((s.node.svc, s.node.toll), false)).1.2 := by
  have hshort : ReplyContent.overlong (.records rs) = false := decide_eq_false (Nat.not_lt.2 hlen)
  have hsettled := Node.keeps_settle (s.node.answered d v e (.records rs))
  have hanswered := Node.keeps_answered s.node d v e (.records rs)
  refine ⟨_, exec_exchangeReply_answered hphase hway hl hv he hshort hk, ?_, ?_⟩
  · rw [State.settled_node, hsettled.phones, hanswered.phones]
    simp only [Node.handReply, hreq]
    rfl
  · rw [State.settled_node, hsettled.toll, hanswered.toll]
    simp only [Node.handReply, hreq]
    exact congrArg Prod.snd (takeOffer_attached (c := c) (l := rs) (x := (s.node.svc, s.node.toll)) hg)

end

/-! ## Samples (R147, R149, R150) -/

/-- R123, R124: a WEATHER buffer that is granted is granted without an eviction. -/
theorem Svc.requestBuffers_weather {s : Svc} (h : (s.requestBuffers .weather 1).2 = none) :
    s.requestBuffers .weather 1 = ({ s with pool := s.pool.grant .weather 1 }, none) := by
  cases hd : s.pool.decide .weather 1 with
  | none => exact Svc.requestBuffers_granted hd
  | some r =>
    rw [Svc.requestBuffers_refused hd (.inr (.inl rfl))] at h
    cases h

/-- R149 step 3: nothing is evicted for a buffer that is granted at once. -/
theorem Svc.weatherBuffer_granted {s : Svc} (h : (s.requestBuffers .weather 1).2 = none) (fuel : Nat) :
    Svc.weatherBuffer fuel s = ({ s with pool := s.pool.grant .weather 1 }, none) := by
  have hgrant := Svc.requestBuffers_weather h
  cases fuel with
  | zero => exact hgrant
  | succ fuel => simp only [Svc.weatherBuffer, hgrant]

/-- R149 step 1: the store once a segment that the sample would make too long is closed. -/
def Svc.sizeClosed (s : Svc) (r : Sample) : Svc :=
  match s.wx.openOf r.device with
  | some g => if Config.segmentBytes < segmentBytes (g.samples ++ [r]) then s.closeSegment g .size else s
  | none => s

/-- R149 steps 2 to 4: a sample that is not too long for its segment. -/
def Svc.storeFitting (s : Svc) (r : Sample) : Svc :=
  let room : Svc × Bool :=
    if (s.wx.openOf r.device).isNone ∧ Config.segmentPlaces ≤ s.wx.segments.length then
      match s.evictOldest false with
      | none => (s, false)
      | some (t, _) => (t, true)
    else (s, true)
  if room.2 then
    match Svc.weatherBuffer room.1.wx.segments.length room.1 with
    | (t, none) => t.fileSample r
    | (t, some reason) => t.loseSample r.device (.pool reason)
  else room.1.loseSample r.device .table

theorem Svc.storeSample_eq (s : Svc) (r : Sample) : s.storeSample r = (s.sizeClosed r).storeFitting r := rfl

section
variable {s : Svc} {r : Sample}

theorem Svc.sizeClosed_none (ho : s.wx.openOf r.device = none) : s.sizeClosed r = s := by
  rw [Svc.sizeClosed, ho]

theorem Svc.sizeClosed_some {g : Segment} (ho : s.wx.openOf r.device = some g) : s.sizeClosed r =
    if 360 < segmentBytes (g.samples ++ [r]) then s.closeSegment g .size else s := by
  rw [Svc.sizeClosed, ho]
  rfl

/-- R149, R150: a sample with a place in the store and a buffer granted is filed. -/
theorem Svc.storeFitting_files (hplace : s.wx.openOf r.device = none → s.wx.segments.length < 48)
    (h : (s.requestBuffers .weather 1).2 = none) :
    s.storeFitting r = Svc.fileSample { s with pool := s.pool.grant .weather 1 } r := by
  have hroom : ¬((s.wx.openOf r.device).isNone ∧ Config.segmentPlaces ≤ s.wx.segments.length) :=
    fun hc => Nat.not_le.2 (hplace (Option.isNone_iff_eq_none.1 hc.1)) hc.2
  unfold Svc.storeFitting
  simp only [if_neg hroom, if_true, Svc.weatherBuffer_granted h]

end

/-- R149 step 4: a sample filed into an OPEN segment. -/
theorem Svc.fileSample_open {s : Svc} {g : Segment} {r : Sample} (ho : s.wx.openOf r.device = some g) :
    s.fileSample r =
      let t : Svc := { s with wx := { s.wx with
        segments := s.wx.segments.map fun x => if x.number = g.number then { g with samples := g.samples ++ [r] } else x
        lossMark := false
        counts := { s.wx.counts with stored := bump 4294967295 s.wx.counts.stored } } }
      if s.settings.segmentLength ≤ g.samples.length + 1 then
        t.closeSegment { g with samples := g.samples ++ [r] } .full else t := by
  have hlen : (g.samples ++ [r]).length = g.samples.length + 1 := by simp
  unfold Svc.fileSample
  rw [← hlen]
  simp only [ho, Option.isSome_some, if_true]
  rfl

/-- R148: the number that the next segment takes. -/
def Svc.nextSegment (s : Svc) : Nat := nextNumber 65535 (s.wx.segments.map (·.number)) 48 s.wx.lastNumber

theorem Svc.nextSegment_range (s : Svc) : 1 ≤ s.nextSegment ∧ s.nextSegment ≤ 65535 :=
  nextNumber_range _ _ _ (by decide)

theorem Svc.nextSegment_fresh {s : Svc} (h : s.wx.segments.length < 48) :
    ∀ g ∈ s.wx.segments, g.number ≠ s.nextSegment := by
  intro g hg hn
  refine nextNumber_fresh s.wx.lastNumber (max := 65535) (used := s.wx.segments.map (·.number)) (fuel := 48) (by decide)
    (by rw [List.length_map]; omega) ?_
  exact List.mem_map.2 ⟨g, hg, hn⟩

/-- R149 step 4: a new segment with its first sample. -/
def Svc.newSegment (s : Svc) (r : Sample) : Segment :=
  { number := s.nextSegment, device := r.device, state := .opened, batch := none, first := r.time
    gap := (nth s.wx.gaps r.device).getD 0, cause := none, samples := [] }

theorem Svc.openSegment_eq (s : Svc) (r : Sample) : s.openSegment r.device r.time = { s with wx := { s.wx with
    segments := s.wx.segments ++ [s.newSegment r], lastNumber := s.nextSegment
    gaps := put s.wx.gaps r.device 0 } } := rfl

/-- R149 step 4: a sample with no OPEN segment of its device begins one. -/
theorem Svc.fileSample_new {s : Svc} {r : Sample} (ho : s.wx.openOf r.device = none) :
    s.fileSample r = (s.openSegment r.device r.time).fileSample r ∧
      (s.openSegment r.device r.time).wx.openOf r.device = some (s.newSegment r) := by
  have hopen : (s.openSegment r.device r.time).wx.openOf r.device = some (s.newSegment r) := by
    have hlast : List.find? (fun g : Segment => g.device = r.device && g.state = .opened) [s.newSegment r] =
        some (s.newSegment r) := by
      simp [Svc.newSegment]
    rw [Svc.openSegment_eq, Wx.openOf, List.find?_append]
    rw [Wx.openOf] at ho
    rw [ho, hlast]
    rfl
  refine ⟨?_, hopen⟩
  unfold Svc.fileSample
  simp only [ho, hopen, Option.isSome_none, Option.isSome_some, Bool.false_eq_true, if_false, if_true]

theorem map_change_last {l : List Segment} {g : Segment} (h : ∀ x ∈ l, x.number ≠ g.number) (f : Segment) :
    (l ++ [g]).map (fun x => if x.number = g.number then f else x) = l ++ [f] := by
  rw [List.map_append, List.map_singleton, if_pos rfl]
  congr 1
  exact (List.map_congr_left fun x hx => if_neg (h x hx)).trans (List.map_id l)

/-! ## The rules' view of a sample (R147, R157) -/

theorem sampleOk_iff (l : List Quantity) : sampleOk l = true ↔
    1 ≤ l.length ∧ l.length ≤ 12 ∧ (l.map Quantity.code).Nodup ∧ ∀ q ∈ l, inQuantityRange q.code q.value = true := by
  simp only [sampleOk, Bool.and_eq_true, decide_eq_true_iff, List.all_eq_true, distinct_eq_true]
  tauto

theorem Node.takeSample_trib (n : Node) (d : Nat) (l : List Quantity) : (n.takeSample d l).trib = n.trib := by
  unfold Node.takeSample
  split
  · rfl
  · rfl

/-- R102, R107: the reply of a SAMPLE exchange ends it. -/
theorem Node.answered_sample {n : Node} {d : Nat} {v : Device} {e : Exchange} (h : n.device d = some v)
    (hk : e.kind = .sample) (ha : ∀ o, e.asker ≠ .command o) {c : ReplyContent} {m : Node}
    (hm : (n.freeLine d).handReply d v e c = m) (htrib : m.trib = (n.freeLine d).trib) :
    n.answered d v e c = m.creditAnswer d v.state := by
  have hdevice : m.device d = some { v with exchange := none } := by
    have hfree : (n.freeLine d).device d = some { v with exchange := none } := Node.device_changed h _
    rw [← hfree, Node.device, Node.device, htrib]
  unfold Node.answered
  rw [hm]
  simp only [hk, reduceCtorEq, if_false]
  rw [Node.missAnswered_eq hdevice]
  exact Node.endPoll_other _ _ _ ha

theorem Node.creditAnswer_present (n : Node) (d : Nat) :
    n.creditAnswer d .present = n.onDevice d fun v => { v with miss := 0 } := rfl

theorem Node.creditAnswer_restarting (n : Node) (d : Nat) : n.creditAnswer d .restarting = n := rfl

section
variable {s : State} {l d : Nat} {v : Device} {e : Exchange} (hphase : s.node.phase = .started)
  (hway : s.node.isHead = false) (hl : s.node.set.deviceOn l = some d) (hv : s.node.device d = some v)
  (he : v.exchange = some e) (hk : e.kind = .sample) (ha : ∀ o, e.asker ≠ .command o)
include hphase hway hl hv he hk ha

theorem exec_exchangeReply_sample (qs : List Quantity) :
    exec (.exchangeReply l (.whole e.number (.sample qs))) s = .next (s.settled
      (((s.node.freeLine d).takeSample d qs).creditAnswer d v.state)) := by
  have hanswer : s.node.answered d v e (.sample qs) = ((s.node.freeLine d).takeSample d qs).creditAnswer d v.state :=
    Node.answered_sample hv hk ha rfl (Node.takeSample_trib ..)
  rw [← hanswer]
  exact exec_exchangeReply_answered (c := .sample qs) hphase hway hl hv he rfl hk

theorem exec_exchangeReply_noSample :
    exec (.exchangeReply l (.whole e.number .noSample)) s = .next (s.settled
      ((s.node.freeLine d).creditAnswer d v.state)) := by
  have hanswer : s.node.answered d v e .noSample = (s.node.freeLine d).creditAnswer d v.state :=
    Node.answered_sample hv hk ha rfl rfl
  rw [← hanswer]
  exact exec_exchangeReply_answered (c := .noSample) hphase hway hl hv he rfl hk

end

/-! ## The statement -/

section
variable {s : Svc} {g : Segment} {r : Sample} (ho : s.wx.openOf r.device = some g)
  (h : (s.requestBuffers .weather 1).2 = none) (hfit : segmentBytes (g.samples ++ [r]) ≤ 360)
include ho h hfit

/-- R149, R150: a sample that fits its OPEN segment. -/
theorem Svc.storeSample_open : s.storeSample r =
    let longer : Segment := { g with samples := g.samples ++ [r] }
    let t : Svc := { (s.requestBuffers .weather 1).1 with wx := { s.wx with
      segments := s.wx.segments.map fun x => if x.number = g.number then longer else x
      lossMark := false
      counts := { s.wx.counts with stored := bump 4294967295 s.wx.counts.stored } } }
    if s.settings.segmentLength ≤ g.samples.length + 1 then t.closeSegment longer .full else t := by
  have hplace : s.wx.openOf r.device = none → s.wx.segments.length < 48 := fun hn => by rw [ho] at hn; cases hn
  rw [Svc.storeSample_eq, Svc.sizeClosed_some ho, if_neg (Nat.not_lt.2 hfit), Svc.storeFitting_files hplace h,
    Svc.fileSample_open (s := { s with pool := s.pool.grant .weather 1 }) ho, Svc.requestBuffers_weather h]

end

/-- R149: a sample whose device has no OPEN segment, with a place for one. -/
theorem Svc.storeSample_new {s : Svc} {r : Sample} (ho : s.wx.openOf r.device = none)
    (hplace : s.wx.segments.length < 48) (h : (s.requestBuffers .weather 1).2 = none)
    (hlen : 1 < s.settings.segmentLength) : s.storeSample r =
      { (s.requestBuffers .weather 1).1 with wx := { s.wx with
        segments := s.wx.segments ++ [{ s.newSegment r with samples := [r] }]
        lastNumber := s.nextSegment
        gaps := put s.wx.gaps r.device 0
        lossMark := false
        counts := { s.wx.counts with stored := bump 4294967295 s.wx.counts.stored } } } := by
  obtain ⟨hfile, hopen⟩ := Svc.fileSample_new (s := { s with pool := s.pool.grant .weather 1 }) ho
  rw [Svc.storeSample_eq, Svc.sizeClosed_none ho, Svc.storeFitting_files (fun _ => hplace) h, hfile,
    Svc.fileSample_open hopen, Svc.requestBuffers_weather h]
  have hshort : ¬s.settings.segmentLength ≤ 0 + 1 := by omega
  refine (if_neg hshort).trans ?_
  have hmap := map_change_last (l := s.wx.segments) (g := s.newSegment r) (Svc.nextSegment_fresh hplace)
    { s.newSegment r with samples := [r] }
  exact congrArg (fun l => { s with
    pool := s.pool.grant .weather 1
    wx := { s.wx with
      segments := l, lastNumber := s.nextSegment, gaps := put s.wx.gaps r.device 0, lossMark := false
      counts := { s.wx.counts with stored := bump 4294967295 s.wx.counts.stored } } }) hmap

/-- R147: what a sample of a device brings. -/
theorem Node.takeSample_bad {n : Node} {d : Nat} {qs : List Quantity} (h : ¬sampleOk qs = true) :
    n.takeSample d qs = n.onSvc fun s =>
      (s.countWx fun k => { k with malformed := bump Config.longMax k.malformed }).loseSample d .malformed :=
  if_neg h

/-- R147, R157: a well-formed sample is stored, and then seen by the rules, however they are evaluated. -/
theorem Node.takeSample_ok {n : Node} {d : Nat} {qs : List Quantity} (h : sampleOk qs = true) {F : RuleSt → RuleSt}
    (hF : evaluateRules { device := d, time := n.svc.time, quantities := qs } = F) {kept : Svc}
    (hkept : n.svc.storeSample { device := d, time := n.svc.time, quantities := qs } = kept) :
    n.takeSample d qs = Node.onZone { n with svc := (F (kept, n.rules)).1, rules := (F (kept, n.rules)).2 }
      (handWeather kept.settings.rules n.rules (F (kept, n.rules)).1.settings.rules (F (kept, n.rules)).2) := by
  subst hkept
  rw [Node.takeSample, if_pos h]
  dsimp only
  rw [Node.onRules_eq, hF]
  rfl

/-- R136 to R140: what a reply of one record comes to, by the record against its gantry's entry. -/
theorem reportThrough_takeRecord {d g c : Nat} {r : TollRecord} {ge : Gantry} {x : TollSt} (hge : x.2.entry g = some ge)
    {t : Toll} (ht : t = reportThrough g c (takeRecord d g (x, false) r).1.2) :
    (r.seq ≤ ge.a → t.log = x.2.log ∧ t.through g = some ge.a ∧
      t.counts.duplicate = bump 4294967295 x.2.counts.duplicate) ∧
    (ge.a < r.seq → malformedRecord g r = true → t.log = x.2.log ∧ t.through g = some ge.a ∧
      t.counts.malformed = bump 4294967295 x.2.counts.malformed) ∧
    (ge.a + 1 < r.seq → malformedRecord g r = false → t.log = x.2.log ∧ t.through g = some ge.a ∧
      t.counts.gap = bump 4294967295 x.2.counts.gap) ∧
    (r.seq = ge.a + 1 → malformedRecord g r = false → (x.1.requestBuffers .toll 1).2 = none →
      t.log = x.2.log ++ [{ record := r, receipt := x.1.time, loan := none }] ∧
      t.through g = some (ge.a + 1) ∧ t.counts.accepted = bump 4294967295 x.2.counts.accepted ∧
      t.heldMark = false) ∧
    (r.seq = ge.a + 1 → malformedRecord g r = false → ¬(x.1.requestBuffers .toll 1).2 = none →
      t.log = x.2.log ∧ t.through g = some ge.a ∧ t.heldMark = true) := by
  subst ht
  obtain ⟨hlog, hthrough, hcounts, hmark⟩ := reportThrough_spec g c (takeRecord d g (x, false) r).1.2
  rw [hlog, hthrough, hcounts, hmark]
  refine ⟨fun hseq => ?_, fun hseq hm => ?_, fun hseq hm => ?_, fun hseq hm hr => ?_, fun hseq hm hr => ?_⟩
  · rw [takeRecord_duplicate hge hseq]
    exact ⟨rfl, congrArg (Option.map Gantry.a) hge, rfl⟩
  · rw [takeRecord_malformed hge hseq hm]
    exact stopMalformed_spec hge r.seq
  · rw [takeRecord_gap hge hseq hm]
    exact stopGap_spec hge ge.a r.seq
  · rw [takeRecord_granted hge hseq hm hr, ← (Svc.keeps_requestBuffers x.1 .toll 1).time]
    exact acceptRecord_spec (x := ((x.1.requestBuffers .toll 1).1, x.2)) hge r
  · obtain ⟨reason, hheld⟩ := takeRecord_held (d := d) hge hseq hm hr
    rw [hheld]
    exact holdRecord_spec (x := ((x.1.requestBuffers .toll 1).1, x.2)) hge r.seq reason

/-- Settles O51: record by record, sample by sample, and the exchanges that bring them. -/
theorem recordsAndSamplesAreTaken : Obligations.RecordsAndSamplesAreTaken := by
  unfold Obligations.RecordsAndSamplesAreTaken
  refine ⟨fun l d g a c v e ge r s hphase hway hl hv he hk hreq hg hge => ?_,
    fun s g r ho hfit h hlen => (Svc.storeSample_open ho h hfit).trans (if_neg (by omega)),
    fun l d g a c v e rs s hphase hway hl hv he hk hreq hg hlen => ?_, fun d g r ge x hge => ?_,
    fun s r ho hplace h hlen => ?_, fun s g r ho => ⟨fun hfit h hlen => ?_, fun hlong hclosed => ?_⟩,
    fun l d v e s hphase hway hl hv he hk ha => ⟨fun hst => ⟨fun qs => ?_, ?_⟩, fun hst qs => ?_⟩,
    fun n d qs => ⟨fun h => ?_, fun h => ?_⟩, fun s g c => rfl⟩
  · obtain ⟨t, hrun, hphones, htoll⟩ := exec_exchangeReply_records (rs := [r]) hphase hway hl hv he hk hreq hg
      (show 1 ≤ 4 by decide)
    exact ⟨t, hrun, hphones, reportThrough_takeRecord (x := (s.node.svc, s.node.toll)) hge htoll⟩
  · obtain ⟨t, hrun, -, htoll⟩ := exec_exchangeReply_records (rs := rs) hphase hway hl hv he hk hreq hg hlen
    exact ⟨t, hrun, htoll⟩
  · refine ⟨takeRecord_stopped .., fun hseq => takeRecord_duplicate hge hseq, fun hseq hm hr => ?_, fun hseq hs =>
      takeRecord_stops hge hseq hs⟩
    obtain ⟨hlog, ha, -, -⟩ := acceptRecord_spec (x := ((x.1.requestBuffers .toll 1).1, x.2)) hge r
    dsimp only
    rw [takeRecord_granted hge hseq hm hr]
    exact ⟨rfl, hlog, ha⟩
  · obtain ⟨hlow, hhigh⟩ := s.nextSegment_range
    exact ⟨s.nextSegment, hlow, hhigh, Svc.nextSegment_fresh hplace, Svc.storeSample_new ho hplace h hlen⟩
  · exact (Svc.storeSample_open ho h hfit).trans (if_pos hlen)
  · rw [Svc.storeSample_eq, Svc.sizeClosed_some ho, if_pos hlong, Svc.storeSample_eq, Svc.sizeClosed_none hclosed]
  · exact (exec_exchangeReply_sample hphase hway hl hv he hk ha qs).trans
      (by rw [hst, Node.creditAnswer_present]; rfl)
  · exact (exec_exchangeReply_noSample hphase hway hl hv he hk ha).trans
      (by rw [hst, Node.creditAnswer_present]; rfl)
  · exact (exec_exchangeReply_sample hphase hway hl hv he hk ha qs).trans
      (by rw [hst, Node.creditAnswer_restarting]; rfl)
  · exact Node.takeSample_ok ((sampleOk_iff qs).2 h) (F := fun x => [1, 2, 3, 4, 5, 6, 7, 8].foldl (evaluateRule _) x)
      rfl rfl
  · rw [Node.takeSample_bad fun hok => h ((sampleOk_iff qs).1 hok)]
    rfl

end Sys2Proof.Machine


/-! SUPPORT. Surveys at the wayside and at the head-end, and the reassembly of messages (R20–R24, R30), with O21. -/

namespace Sys2Proof.Machine

/-! ## The end of a survey (R24) -/

/-- R24: what becomes of the map entry of a station missing from a survey. -/
def Survey.lost (sv : Survey) (m : MapEntry) : MapEntry :=
  { m with presence := .unreachable, position := if sv.kind = .closed then none else m.position }

theorem Survey.lost_lost (sv : Survey) (m : MapEntry) : sv.lost (sv.lost m) = sv.lost m := by
  unfold Survey.lost
  cases sv.kind <;> rfl

/-- R24: the stations missing from the survey are lost, and no other entry of the map changes. -/
theorem Node.entry_loseStations (sv : Survey) (l : List MapEntry) (n : Node) :
    let m := l.foldl (Node.loseStation sv) n
    m.head.map.length = n.head.map.length ∧ m.head.survey = n.head.survey ∧ Node.SameStation n m ∧
      ∀ k, m.head.entry k = if (∃ e ∈ l, e.station = k) ∧ (∀ y ∈ sv.entries, y.station ≠ k) then
        (n.head.entry k).map sv.lost else n.head.entry k := by
  induction l generalizing n with
  | nil => exact ⟨rfl, rfl, ⟨rfl, rfl⟩, fun k => by simp⟩
  | cons e l ih =>
    obtain ⟨hentry, hlength, hsurvey, hsame⟩ := n.entry_loseStation sv e
    obtain ⟨ihlength, ihsurvey, ihsame, ihentry⟩ := ih (Node.loseStation sv n e)
    refine ⟨ihlength.trans hlength, ihsurvey.trans hsurvey, hsame.trans ihsame, fun k => ?_⟩
    have hentry : (Node.loseStation sv n e).head.entry k =
        if e.station = k ∧ (∀ y ∈ sv.entries, y.station ≠ k) then (n.head.entry k).map sv.lost else n.head.entry k :=
      hentry k
    rw [List.foldl_cons, ihentry k, hentry]
    by_cases hmissing : ∀ y ∈ sv.entries, y.station ≠ k
    · have htwice : ((n.head.entry k).map sv.lost).map sv.lost = (n.head.entry k).map sv.lost := by
        rw [Option.map_map]
        exact congrArg (Option.map · _) (funext sv.lost_lost)
      simp only [eq_true hmissing, and_true, List.mem_cons, exists_eq_or_imp]
      by_cases he : e.station = k
      · simp only [he, if_true, true_or, htwice, ite_self]
      · simp only [he, if_false, false_or]
    · simp only [eq_false hmissing, and_false, if_false]

/-- R24: the map once the entries `pre` of a survey have been taken, `n` being the node before them. -/
structure Node.Surveyed (sv : Survey) (n : Node) (pre : List SurveyEntry) (m : Node) : Prop where
  room : m.head.map.length ≤ n.head.map.length + pre.length
  survey : m.head.survey = n.head.survey
  same : Node.SameStation n m
  others : ∀ k, (∀ x ∈ pre, x.station ≠ k) → m.head.entry k = n.head.entry k
  once : ∀ before e after, pre = before ++ e :: after → ¬sv.Repeats n e →
    m.head.entry e.station = some (sv.found n (before.length + 1) e)
  twice : ∀ e ∈ pre, sv.Repeats n e → ∃ d, m.head.entry e.station = some d ∧ d.presence = .duplicate ∧
    ((n.head.entry e.station).map MapEntry.presence ≠ some .duplicate → d.position = none)

theorem Survey.repeats_congr {sv : Survey} {n m : Node} (h : m.me = n.me) (e : SurveyEntry) :
    sv.Repeats m e ↔ sv.Repeats n e := by
  rw [Survey.Repeats, Survey.Repeats, h]

theorem Survey.found_congr {sv : Survey} {n m : Node} {e : SurveyEntry} (ht : m.svc.time = n.svc.time)
    (he : m.head.entry e.station = n.head.entry e.station) (i : Nat) : sv.found m i e = sv.found n i e := by
  rw [Survey.found, Survey.found, ht, he]

/-- R24: two entries of one station are repeated. -/
theorem Survey.repeats_of_mem {sv : Survey} {n : Node} {e x : SurveyEntry} {pre rest : List SurveyEntry}
    (hall : sv.entries = pre ++ e :: rest) (hx : x ∈ pre) (hs : x.station = e.station) : sv.Repeats n e := by
  refine .inl ?_
  have hpre : 0 < (pre.filter fun y => y.station = e.station).length :=
    List.length_pos_of_mem (List.mem_filter.2 ⟨hx, decide_eq_true hs⟩)
  rw [hall, List.filter_append, List.filter_cons_of_pos (by simp), List.length_append, List.length_cons]
  omega

/-- R24: the first place of a station among the entries. -/
theorem idxOf_station {pre rest : List SurveyEntry} {e : SurveyEntry} (h : ∀ x ∈ pre, x.station ≠ e.station) :
    ((pre ++ e :: rest).map SurveyEntry.station).idxOf e.station = pre.length := by
  have hnot : e.station ∉ pre.map SurveyEntry.station := by
    rw [List.mem_map]
    rintro ⟨x, hx, hs⟩
    exact h x hx hs
  rw [List.map_append, List.idxOf_append_of_notMem hnot, List.map_cons, List.idxOf_cons_self, List.length_map,
    Nat.add_zero]

/-- R24: one more entry of the survey. -/
theorem Node.Surveyed.step {sv : Survey} {n m : Node} {pre rest : List SurveyEntry} {e : SurveyEntry}
    (h : Node.Surveyed sv n pre m) (hall : sv.entries = pre ++ e :: rest)
    (hroom : n.head.map.length + sv.entries.length ≤ 48) :
    Node.Surveyed sv n (pre ++ [e]) (Node.surveyEntry sv m (pre.length + 1, e)) := by
  have hlen : pre.length + 1 ≤ sv.entries.length := by
    rw [hall, List.length_append, List.length_cons]
    omega
  have hplace : m.head.map.length < 48 := by
    have := h.room
    omega
  obtain ⟨hothers, hlength, hsurvey, hsame, honce, htwice⟩ := m.entry_surveyEntry sv (pre.length + 1) e hplace
  have hrep : sv.Repeats m e ↔ sv.Repeats n e := Survey.repeats_congr h.same.me e
  rw [hrep] at honce htwice
  -- What becomes of the entry's own station when it is repeated.
  have hdup (hr : sv.Repeats n e) : ∃ d, (Node.surveyEntry sv m (pre.length + 1, e)).head.entry e.station = some d ∧
      d.presence = .duplicate ∧
      ((n.head.entry e.station).map MapEntry.presence ≠ some .duplicate → d.position = none) := by
    obtain ⟨hkept, hmade⟩ := htwice hr
    by_cases hseen : ∃ x ∈ pre, x.station = e.station
    · obtain ⟨x, hx, hs⟩ := hseen
      have hxr : sv.Repeats n x := by
        rw [Survey.Repeats, hs]
        exact hr
      obtain ⟨d, hd, hpresence, hposition⟩ := h.twice x hx hxr
      rw [hs] at hd hposition
      obtain ⟨d', hd', hpresence', hsamepos⟩ := hkept d hd hpresence
      exact ⟨d', hd', hpresence', fun hn => hsamepos.trans (hposition hn)⟩
    · have hnot : ∀ x ∈ pre, x.station ≠ e.station := fun x hx hs => hseen ⟨x, hx, hs⟩
      have hold := h.others e.station hnot
      by_cases hn : (n.head.entry e.station).map MapEntry.presence = some .duplicate
      · obtain ⟨o, ho, hpresence⟩ := Option.map_eq_some_iff.1 hn
        obtain ⟨d, hd, hpresence', -⟩ := hkept o (hold.trans ho) hpresence
        exact ⟨d, hd, hpresence', fun hno => absurd hn hno⟩
      · have hfirst : (sv.entries.map SurveyEntry.station).idxOf e.station + 1 = pre.length + 1 := by
          rw [hall, idxOf_station hnot]
        obtain ⟨d, hd, hpresence, hposition⟩ := hmade hfirst (by rw [hold]; exact hn)
        exact ⟨d, hd, hpresence, fun _ => hposition⟩
  refine ⟨?_, hsurvey.trans h.survey, h.same.trans hsame, fun k hk => ?_, fun before x after hsplit hx => ?_,
    fun x hx hr => ?_⟩
  · have := h.room
    rw [List.length_append, List.length_singleton]
    omega
  · rw [List.forall_mem_append] at hk
    have hke : k ≠ e.station := fun hke => hk.2 e (List.mem_singleton_self e) hke.symm
    exact (hothers k hke).trans (h.others k hk.1)
  · -- An entry that appears once: the new one, or one before it.
    rcases List.append_eq_append_iff.1 hsplit with ⟨l, rfl, hl⟩ | ⟨l, hl, hafter⟩
    · cases l with
      | nil =>
        obtain rfl : e = x := (List.cons.inj hl).1
        rw [List.append_nil]
        have hnot : ∀ y ∈ pre, y.station ≠ e.station := fun y hy hs => hx (Survey.repeats_of_mem hall hy hs)
        rw [honce hx, Survey.found_congr h.same.time (h.others e.station hnot)]
      | cons y l => simp at hl
    · cases l with
      | nil =>
        obtain rfl : e = x := (List.cons.inj hafter).1.symm
        rw [List.append_nil] at hl
        subst hl
        have hnot : ∀ y ∈ pre, y.station ≠ e.station := fun y hy hs => hx (Survey.repeats_of_mem hall hy hs)
        rw [honce hx, Survey.found_congr h.same.time (h.others e.station hnot)]
      | cons y l =>
        obtain ⟨rfl, -⟩ := List.cons.inj hafter
        have hmem : x ∈ pre := by rw [hl]; simp
        have hne : x.station ≠ e.station := fun hs => hx (by
          have hr := Survey.repeats_of_mem (n := n) hall hmem hs
          rw [Survey.Repeats, hs]
          exact hr)
        rw [hothers x.station hne]
        exact h.once before x l hl hx
  · by_cases hs : x.station = e.station
    · rw [hs]
      refine hdup ?_
      rw [Survey.Repeats, ← hs]
      exact hr
    · have hmem : x ∈ pre := by
        rcases List.mem_append.1 hx with hx | hx
        · exact hx
        · exact absurd (congrArg SurveyEntry.station (List.mem_singleton.1 hx)) hs
      rw [hothers x.station hs]
      exact h.twice x hmem hr

/-- R24: all entries of the survey. -/
theorem Node.Surveyed.fold {sv : Survey} {n m : Node} {pre l : List SurveyEntry} (h : Node.Surveyed sv n pre m)
    (hall : sv.entries = pre ++ l) (hroom : n.head.map.length + sv.entries.length ≤ 48) :
    Node.Surveyed sv n sv.entries ((numbered (pre.length + 1) l).foldl (Node.surveyEntry sv) m) := by
  induction l generalizing pre m with
  | nil => rwa [hall, List.append_nil]
  | cons e l ih =>
    have hstep := ih (h.step hall hroom) (by rw [hall, List.append_assoc]; rfl)
    rwa [List.length_append] at hstep

theorem Node.Surveyed.none (sv : Survey) (n : Node) : Node.Surveyed sv n [] n where
  room := Nat.le_refl _
  survey := rfl
  same := ⟨rfl, rfl⟩
  others := fun _ _ => rfl
  once := fun before e after h => by simp at h
  twice := fun e he => nomatch he

/-- R24: the node once the stations of a survey are lost and its entries taken. -/
def Node.mapTaken (sv : Survey) (n : Node) : Node :=
  let n := n.onHead fun h => { h with survey := none }
  (numbered 1 sv.entries).foldl (Node.surveyEntry sv) (n.head.map.foldl (Node.loseStation sv) n)

/-- R24: of the map the end of a survey changes nothing after the entries; it tells how many are PRESENT. -/
theorem Node.endSurvey_mapTaken (n : Node) (sv : Survey) : ∃ m : Node, m.head = (n.mapTaken sv).head ∧
    n.endSurvey sv = m.post .surveyDone .none [.nat sv.number, .surveyKind sv.kind,
      .nat (m.head.map.filter fun e => e.presence = .present).length] := by
  by_cases ho : sv.overflow = true
  · refine ⟨(n.mapTaken sv).post .stationExcess .none [], rfl, ?_⟩
    unfold Node.endSurvey
    dsimp only
    rw [if_pos ho]
    rfl
  · refine ⟨n.mapTaken sv, rfl, ?_⟩
    unfold Node.endSurvey
    dsimp only
    rw [if_neg ho]
    rfl

theorem Node.head_endSurvey (n : Node) (sv : Survey) : (n.endSurvey sv).head = (n.mapTaken sv).head := by
  obtain ⟨m, hm, hend⟩ := n.endSurvey_mapTaken sv
  rw [hend, ← hm]
  rfl

theorem Node.surveyEntry_survey (sv : Survey) (n : Node) (x : Nat × SurveyEntry) :
    (Node.surveyEntry sv n x).head.survey = n.head.survey := by
  have hplace (e : MapEntry) (c : NoticeCode) : (n.placeEntry e c).head.survey = n.head.survey := by
    unfold Node.placeEntry
    split
    · rfl
    · split
      · rfl
      · split <;> rfl
  unfold Node.surveyEntry
  dsimp only
  split
  · split
    · exact hplace ..
    · rfl
  · split
    · rfl
    · exact hplace ..

/-- R24: the survey in progress is over. -/
theorem Node.mapTaken_survey (n : Node) (sv : Survey) : (n.mapTaken sv).head.survey = none := by
  have hentries (l : List (Nat × SurveyEntry)) (m : Node) :
      (l.foldl (Node.surveyEntry sv) m).head.survey = m.head.survey := by
    induction l generalizing m with
    | nil => rfl
    | cons x l ih => exact (ih _).trans (Node.surveyEntry_survey sv m x)
  unfold Node.mapTaken
  dsimp only
  rw [hentries, (Node.entry_loseStations sv _ _).2.1]
  rfl

/-- R24: the map that a survey with room in it leaves. -/
theorem Node.mapTaken_spec {n : Node} {sv : Survey} (hroom : n.head.map.length + sv.entries.length ≤ 48) :
    (∀ before e after, sv.entries = before ++ e :: after → ¬sv.Repeats n e →
      (n.mapTaken sv).head.entry e.station = some (sv.found n (before.length + 1) e)) ∧
    (∀ e ∈ sv.entries, sv.Repeats n e → ∃ d, (n.mapTaken sv).head.entry e.station = some d ∧
      d.presence = .duplicate ∧
      ((n.head.entry e.station).map MapEntry.presence ≠ some .duplicate → d.position = none)) ∧
    (∀ k m, n.head.entry k = some m → (∀ x ∈ sv.entries, x.station ≠ k) →
      (n.mapTaken sv).head.entry k = some (sv.lost m)) := by
  obtain ⟨hlength, -, hsame, hentry⟩ := Node.entry_loseStations sv n.head.map
    (n.onHead fun h => { h with survey := none })
  let lost := n.head.map.foldl (Node.loseStation sv) (n.onHead fun h => { h with survey := none })
  have htaken : Node.Surveyed sv lost sv.entries (n.mapTaken sv) := by
    refine Node.Surveyed.fold (pre := []) (Node.Surveyed.none sv lost) rfl ?_
    rw [hlength]
    exact hroom
  have hkept (k : Nat) (hk : ∃ y ∈ sv.entries, y.station = k) : lost.head.entry k = n.head.entry k := by
    obtain ⟨y, hy, hs⟩ := hk
    exact (hentry k).trans (if_neg fun hc => hc.2 y hy hs)
  have hrep (e : SurveyEntry) : sv.Repeats lost e ↔ sv.Repeats n e := Survey.repeats_congr hsame.me e
  refine ⟨fun before e after hsplit he => ?_, fun e he hr => ?_, fun k m hm hk => ?_⟩
  · have hmem : e ∈ sv.entries := by rw [hsplit]; simp
    rw [htaken.once before e after hsplit fun hr => he ((hrep e).1 hr),
      Survey.found_congr (n := n) hsame.time (hkept _ ⟨e, hmem, rfl⟩)]
  · have htwice := htaken.twice e he ((hrep e).2 hr)
    rwa [hkept _ ⟨e, he, rfl⟩] at htwice
  · have hmem : m ∈ n.head.map := List.mem_of_find?_eq_some hm
    have hstation : m.station = k := by
      have hp := List.find?_some hm
      exact of_decide_eq_true hp
    refine (htaken.others k hk).trans ((hentry k).trans ((if_pos ⟨⟨m, hmem, hstation⟩, hk⟩).trans ?_))
    exact congrArg (Option.map sv.lost) hm

/-- R24: a station whose number stands once among the entries is not repeated. -/
theorem Survey.not_repeats {sv : Survey} {n : Node} {e : SurveyEntry} {before after : List SurveyEntry}
    (hsplit : sv.entries = before ++ e :: after) (hother : ∀ x ∈ before ++ after, x.station ≠ e.station)
    (hme : e.station ≠ n.me) : ¬sv.Repeats n e := by
  rw [List.forall_mem_append] at hother
  have hno {l : List SurveyEntry} (h : ∀ x ∈ l, x.station ≠ e.station) :
      l.filter (fun y => y.station = e.station) = [] :=
    List.filter_eq_nil_iff.2 fun x hx => by simpa using h x hx
  rintro (hmany | hown)
  · rw [hsplit, List.filter_append, List.filter_cons_of_pos (by simp), hno hother.1, hno hother.2] at hmany
    exact absurd hmany (by simp)
  · exact hme hown

/-! ## A wayside's answer (R23) -/

/-- R23: no slot of the survey has an empty place. -/
def NoRoom (k : Nat) (l : List (Option Slot)) : Prop := ∀ s, some s ∈ l → ∀ room es marked,
  s.body = .survey k room es marked → room ≤ es.length

theorem writeEntry_noRoom {k : Nat} (e : SurveyEntry) {before : List (Option Slot)} (h : NoRoom k before)
    (l : List (Option Slot)) : writeEntry k e (before ++ l) = (before ++ (writeEntry k e l).1, (writeEntry k e l).2) := by
  induction before with
  | nil => rfl
  | cons s before ih =>
    have ih := ih fun x hx => h x (List.mem_cons_of_mem _ hx)
    have hpass {x : Option Slot} (hx : writeEntry k e (x :: (before ++ l)) =
        (x :: (writeEntry k e (before ++ l)).1, (writeEntry k e (before ++ l)).2)) :
        writeEntry k e (x :: before ++ l) = (x :: before ++ (writeEntry k e l).1, (writeEntry k e l).2) := by
      rw [List.cons_append, hx, ih, List.cons_append]
    cases s with
    | none => exact hpass rfl
    | some s =>
      obtain ⟨source, dest, length, seq, body⟩ := s
      cases body with
      | message p => exact hpass rfl
      | survey j room es marked =>
        refine hpass (if_neg ?_)
        rintro ⟨rfl, hroom⟩
        have := h _ List.mem_cons_self room es marked rfl
        omega

theorem writeEntry_room {k : Nat} (e : SurveyEntry) {s : Slot} {room : Nat} {es : List SurveyEntry} {marked : Bool}
    (hs : s.body = .survey k room es marked) (h : es.length < room) (after : List (Option Slot)) :
    writeEntry k e (some s :: after) = (some { s with body := .survey k room (es ++ [e]) marked } :: after, true) := by
  obtain ⟨source, dest, length, seq, body⟩ := s
  subst hs
  exact if_pos ⟨rfl, h⟩

theorem writeEntry_full {k : Nat} (e : SurveyEntry) {l : List (Option Slot)} (h : NoRoom k l) :
    writeEntry k e l = (l, false) := by
  have hall := writeEntry_noRoom e h []
  rw [List.append_nil] at hall
  exact hall.trans (by rw [writeEntry, List.append_nil])

/-- R23: this node's entry in a survey. -/
def Node.surveyAnswer (n : Node) (fold : Nat) : SurveyEntry :=
  { station := n.me, attach := n.ring.attach, foldSeen := fold }

section
variable {n : Node} {fold k : Nat} {data : List (Option Slot)}

theorem Node.answerSurvey_told (h : n.ring.lastSurvey = some k) :
    Node.answerSurvey fold (n, data) k = (n, data) := if_pos h

theorem Node.answerSurvey_new (h : n.ring.lastSurvey ≠ some k) : Node.answerSurvey fold (n, data) k =
    if (writeEntry k (n.surveyAnswer fold) data).2 then
      ({ n with ring := { n.ring with lastSurvey := some k } }, (writeEntry k (n.surveyAnswer fold) data).1)
    else if data.any (isLastOf k) then
      ({ n with ring := { n.ring with lastSurvey := some k } }, data.map (markOverflow k))
    else (n, data) := if_neg h

end

/-! ## Reassembly (R30) -/

/-- R30: whether a partial message belongs to a slot's source and loop. -/
def Partial.ofSlot (s : Slot) (l : Loop) (q : Partial) : Bool := q.source = s.source && q.loop = l

/-- R30: the partial message that a slot leaves. -/
def partialOf (s : Slot) (l : Loop) (shares : List Payload) : Partial :=
  { source := s.source, loop := l, dest := s.dest, length := s.length, next := s.seq + 1, shares := shares }

section
variable {w : Win} {r : Role} {l : Loop} {s : Slot} {share : Payload}

theorem Win.takeSlot_first (h : s.seq = 1) : w.takeSlot r l s share =
    if s.length ≤ s.seq then (w.discardPartials (Partial.ofSlot s l)).complete r
      { source := s.source, dest := s.dest, length := s.length, payload := share }
    else { w.discardPartials (Partial.ofSlot s l) with
      partials := (w.discardPartials (Partial.ofSlot s l)).partials ++ [partialOf s l [share]] } := by
  unfold Win.takeSlot
  simp only [if_pos h]
  rfl

theorem Win.takeSlot_next (h : s.seq ≠ 1) {q : Partial} (hq : w.partials.find? (Partial.ofSlot s l) = some q)
    (hnext : q.next = s.seq) : w.takeSlot r l s share =
    if s.length ≤ s.seq then
      Win.complete { w with partials := w.partials.filter fun q => !Partial.ofSlot s l q } r
        { source := s.source, dest := s.dest, length := s.length, payload := joinShares (q.shares ++ [share]) }
    else { w with
      partials := (w.partials.filter fun q => !Partial.ofSlot s l q) ++ [partialOf s l (q.shares ++ [share])] } := by
  have hq : w.partials.find? (fun q => q.source = s.source && q.loop = l) = some q := hq
  unfold Win.takeSlot
  simp only [if_neg h, hq, if_pos hnext]
  rfl

theorem Win.takeSlot_stray (h : s.seq ≠ 1)
    (hno : (w.partials.find? (Partial.ofSlot s l)).map Partial.next ≠ some s.seq) :
    w.takeSlot r l s share = w.discardPartials (Partial.ofSlot s l) := by
  have hno : (w.partials.find? (fun q => q.source = s.source && q.loop = l)).map Partial.next ≠ some s.seq := hno
  unfold Win.takeSlot
  cases hq : w.partials.find? fun q => q.source = s.source && q.loop = l with
  | none =>
    simp only [if_neg h, hq]
    rfl
  | some q =>
    rw [hq] at hno
    have hnext : ¬q.next = s.seq := fun hn => hno (congrArg some hn)
    simp only [if_neg h, hq, if_neg hnext]
    rfl

end

/-- R30: slots that carry one share make a message of it. -/
theorem joinShares_same {share : Payload} {shares : List Payload} (h : ∀ x ∈ shares, x = share) :
    joinShares (shares ++ [share]) = share := by
  cases shares with
  | nil => rfl
  | cons p l =>
    obtain ⟨rfl, hl⟩ := List.forall_mem_cons.1 h
    refine if_pos (List.all_eq_true.2 fun x hx => decide_eq_true ?_)
    rcases List.mem_append.1 hx with hx | hx
    · exact hl x hx
    · exact List.mem_singleton.1 hx

/-! ## The commands (R20, R22) -/

theorem Node.timeSet_ok (n : Node) {x : Nat} (h : x < 4294967296) :
    n.timeSet x = (n.setTime { seconds := x, cycle := 0, sync := true }, .done, .nil) :=
  if_neg (Nat.not_le.2 h)

theorem Node.timeSet_bad (n : Node) {x : Nat} (h : ¬x < 4294967296) : n.timeSet x = (n, .badArgument, .nil) :=
  if_pos (Nat.not_lt.1 h)

theorem Port.turnedIf_ne (r : Port) (x y : Nat) : r.turnedIf (decide (x ≠ y)) =
    if x = y then r else { r with errLast := r.errNow, errNow := 0 } := by
  by_cases h : x = y
  · simp [Port.turnedIf, h]
  · simp [Port.turnedIf, h, turnWindow]

section
variable {s : State} {o : Origin} {x : Nat} (h : Takes s o (.timeSet x))
include h

theorem exec_timeSet_done (hx : x < 4294967296) : exec (.timeSet o x) s =
    .next (s.replied (s.node.setTime { seconds := x, cycle := 0, sync := true }) o (.timeSet x) .done .nil) := by
  refine State.command_acting h (act := fun n => n.timeSet x) (fun _ => rfl) ?_ fun f => ?_
  · rw [Node.setTime_eq]
  · refine ((s.node.onCmd f).timeSet_ok hx).trans ?_
    rw [Node.setTime_eq, Node.setTime_eq]
    rfl

theorem exec_timeSet_bad (hx : ¬x < 4294967296) :
    exec (.timeSet o x) s = .next (s.replied s.node o (.timeSet x) .badArgument .nil) :=
  State.command_acting h (act := fun n => n.timeSet x) (fun _ => rfl) rfl fun f => (s.node.onCmd f).timeSet_bad hx

end

theorem exec_surveyStart {s : State} {o : Origin} (h : Takes s o .surveyStart) :
    exec (.surveyStart o) s = .next (s.replied s.node.startSurvey o .surveyStart .done .nil) :=
  State.command_acting h (act := Node.surveyCommand) (fun _ => rfl) rfl fun _ => rfl

/-- R24: a survey slot of the survey in progress. -/
theorem Node.gatherSurvey_mine {n : Node} {s : Slot} {sv : Survey} {room : Nat} {es : List SurveyEntry} {mark : Bool}
    (hsv : n.head.survey = some sv) (hs : s.body = .survey sv.number room es mark) :
    let more : Survey := { sv with entries := sv.entries ++ es, overflow := sv.overflow || mark }
    n.gatherSurvey s =
      if s.length ≤ s.seq then n.endSurvey more else n.onHead fun h => { h with survey := some more } := by
  unfold Node.gatherSurvey
  simp only [hs, hsv, if_true]

/-- Settles O21: the two commands, the wayside's answer, the survey's slots and end, and the reassembly of messages. -/
theorem timeSetAndSurveyStart : Obligations.TimeSetAndSurveyStart := by
  unfold Obligations.TimeSetAndSurveyStart
  refine ⟨fun o x s h => ?_, fun o s h => exec_surveyStart h, fun n fold k data => ?_,
    fun n s sv room es mark hsv hs => ?_, fun n sv => ?_, fun n l data => takeSlots_data .., fun w r l s share => ?_⟩
  · dsimp only
    by_cases hx : x < 4294967296
    · rw [exec_timeSet_done h hx, if_pos hx, Node.setTime_eq, Port.turnedIf_ne, Port.turnedIf_ne]
    · rw [exec_timeSet_bad h hx, if_neg hx]
  · refine ⟨Node.answerSurvey_told, fun hnew => ⟨fun before after s room es marked hdata hno hs hroom => ?_,
      fun hno hlast => ?_, fun hno hlast => ?_⟩⟩
    · dsimp only
      rw [Node.answerSurvey_new hnew, hdata, writeEntry_noRoom _ hno, writeEntry_room _ hs hroom]
      rfl
    · dsimp only
      rw [Node.answerSurvey_new hnew, writeEntry_full _ hno, if_neg Bool.false_ne_true, if_pos hlast]
    · rw [Node.answerSurvey_new hnew, writeEntry_full _ hno, if_neg Bool.false_ne_true, if_neg (by simp [hlast])]
  · refine ⟨fun hlast => ?_, fun hmore => ?_⟩
    · exact (Node.gatherSurvey_mine hsv hs).trans (if_pos hlast)
    · exact (Node.gatherSurvey_mine hsv hs).trans (if_neg (Nat.not_le.2 hmore))
  · obtain ⟨m, hm, hend⟩ := n.endSurvey_mapTaken sv
    dsimp only
    rw [Node.head_endSurvey]
    refine ⟨Node.mapTaken_survey n sv, ⟨m, by rw [hend, hm]⟩, fun hroom => ?_⟩
    obtain ⟨honce, htwice, hlost⟩ := Node.mapTaken_spec hroom
    exact ⟨fun before e after hsplit hother hme => honce before e after hsplit (Survey.not_repeats hsplit hother hme),
      htwice, hlost⟩
  · refine ⟨fun h1 hlen => ?_, fun h1 hlen => ?_, fun q h1 hq hnext hlen => ?_, fun q h1 hq hnext hlen => ?_,
      fun h1 hno => ?_⟩
    · refine (Win.takeSlot_first h1).trans (if_neg ?_)
      omega
    · refine (Win.takeSlot_first h1).trans ((if_pos ?_).trans ?_)
      · omega
      · rw [hlen]
        rfl
    · exact (Win.takeSlot_next h1 hq hnext).trans (if_neg (Nat.not_le.2 hlen))
    · exact ⟨joinShares (q.shares ++ [share]), joinShares_same,
        (Win.takeSlot_next h1 hq hnext).trans (if_pos hlen)⟩
    · exact Win.takeSlot_stray h1 hno

end Sys2Proof.Machine


/-! SUPPORT. What SETTING-WRITE makes of the items whose records have no fixed places (R190): the candidate of each
operation, and the items that change their setting alone. -/

namespace Sys2Proof.Machine

/-! ## Pulse pattern (item 33) -/

section
variable (w : Settings) (b : List ClassBounds)

theorem candidate_pattern_add (l : List (Nat × Nat)) :
    candidate w b 33 .add (.pattern l) = some (.pattern [l.getLast?.getD w.pulsePattern]) := by
  have hlast : (if l = [] then [w.pulsePattern] else l.drop (l.length - 1)) = [l.getLast?.getD w.pulsePattern] := by
    by_cases h : l = []
    · rw [if_pos h, h]
      rfl
    · rw [if_neg h, List.drop_length_sub_one h, List.getLast?_eq_getLast_of_ne_nil h, Option.getD_some]
  exact congrArg (fun x => some (Candidate.pattern x)) hlast

theorem candidate_pattern_remove (ks : List SettingKey) :
    candidate w b 33 .remove (.keys ks) = some (.pattern (if ks = [] then [w.pulsePattern] else [])) := by
  refine Eq.trans (b := if ks = [] then some (.pattern [w.pulsePattern]) else some (.pattern [])) rfl ?_
  split <;> rfl

/-! ## Bindings (item 34) -/

theorem candidate_bindings_add (l : List Binding) : ∃ r, candidate w b 34 .add (.bindings l) = some (.bindings r) ∧
    ∀ x, x ∈ r ↔ (l.filter fun y => bindingKey y = bindingKey x).getLast? = some x ∨
      (x ∈ w.bindings ∧ ∀ y ∈ l, bindingKey y ≠ bindingKey x) :=
  ⟨_, rfl, fun x => mem_foldl_putBinding w.bindings l x⟩

theorem candidate_bindings_remove (ks : List SettingKey) : candidate w b 34 .remove (.keys ks) =
    some (.bindings (w.bindings.filter fun x => decide (bindingKey x ∉ ks))) := by
  have hfilter : (w.bindings.filter fun x => !ks.contains (bindingKey x)) =
      w.bindings.filter fun x => decide (bindingKey x ∉ ks) :=
    List.filter_congr fun x _ => by simp
  exact congrArg (fun x => some (Candidate.bindings x)) hfilter

/-! ## Pool classes (item 50) -/

theorem candidate_classes_add (l : List ClassBounds) : candidate w b 50 .add (.classes l) =
    some (.classes (b.map fun x => lastFor ClassBounds.cls l x.cls x)) :=
  congrArg (fun x => some (Candidate.classes x)) (foldl_putClass b l)

theorem classKeys_cls (cs : List PoolClass) : classKeys (cs.map .cls) = some cs := by
  induction cs with
  | nil => rfl
  | cons c cs ih => rw [List.map_cons, classKeys, ih, Option.map_some]

theorem classKeys_other {ks : List SettingKey} (h : ∃ k ∈ ks, ∀ c, k ≠ .cls c) : classKeys ks = none := by
  induction ks with
  | nil => obtain ⟨k, hk, -⟩ := h; cases hk
  | cons a ks ih =>
    obtain ⟨k, hk, hother⟩ := h
    cases a with
    | cls c =>
      rcases List.mem_cons.1 hk with rfl | hk
      · exact absurd rfl (hother c)
      · rw [classKeys, ih ⟨k, hk, hother⟩, Option.map_none]
    | _ => rfl

/-- R127: the default bounds of the classes named, as they are put in. -/
theorem lastFor_defaultBounds (cs : List PoolClass) (x : ClassBounds) :
    lastFor ClassBounds.cls (defaultBounds.filter fun y => cs.contains y.cls) x.cls x =
      if x.cls ∈ cs then (boundsFor defaultBounds x.cls).getD x else x := by
  have hunique (c : PoolClass) : (defaultBounds.filter fun y => y.cls = c).getLast? = boundsFor defaultBounds c := by
    cases c <;> rfl
  unfold lastFor
  rw [List.filter_filter]
  by_cases h : x.cls ∈ cs
  · have hall : (defaultBounds.filter fun y => decide (y.cls = x.cls) && cs.contains y.cls) =
        defaultBounds.filter fun y => y.cls = x.cls := by
      refine List.filter_congr fun y _ => ?_
      by_cases hy : y.cls = x.cls
      · simp [hy, h]
      · simp [hy]
    rw [hall, hunique, if_pos h]
  · have hnone : (defaultBounds.filter fun y => decide (y.cls = x.cls) && cs.contains y.cls) = [] := by
      refine List.filter_eq_nil_iff.2 fun y _ => ?_
      by_cases hy : y.cls = x.cls
      · simp [hy, h]
      · simp [hy]
    rw [hnone, if_neg h]
    rfl

theorem candidate_classes_remove (cs : List PoolClass) : candidate w b 50 .remove (.keys (cs.map .cls)) =
    some (.classes (b.map fun x => if x.cls ∈ cs then (boundsFor defaultBounds x.cls).getD x else x)) := by
  have hput : (defaultBounds.filter fun y => cs.contains y.cls).foldl putClass b =
      b.map fun x => if x.cls ∈ cs then (boundsFor defaultBounds x.cls).getD x else x := by
    rw [foldl_putClass]
    exact List.map_congr_left fun x _ => lastFor_defaultBounds cs x
  refine Eq.trans (b := (classKeys (cs.map .cls)).map fun cs =>
    .classes ((defaultBounds.filter fun y => cs.contains y.cls).foldl putClass b)) rfl ?_
  rw [classKeys_cls, Option.map_some, hput]

theorem candidate_classes_other {ks : List SettingKey} (h : ∃ k ∈ ks, ∀ c, k ≠ .cls c) :
    candidate w b 50 .remove (.keys ks) = none := by
  refine Eq.trans (b := (classKeys ks).map fun cs =>
    .classes ((defaultBounds.filter fun y => cs.contains y.cls).foldl putClass b)) rfl ?_
  rw [classKeys_other h, Option.map_none]

/-! ## Notice routes (item 90) -/

theorem codeKeys_code (cs : List NoticeCode) : codeKeys (cs.map .code) = some cs := by
  induction cs with
  | nil => rfl
  | cons c cs ih => rw [List.map_cons, codeKeys, ih, Option.map_some]

theorem codeKeys_other {ks : List SettingKey} (h : ∃ k ∈ ks, ∀ c, k ≠ .code c) : codeKeys ks = none := by
  induction ks with
  | nil => obtain ⟨k, hk, -⟩ := h; cases hk
  | cons a ks ih =>
    obtain ⟨k, hk, hother⟩ := h
    cases a with
    | code c =>
      rcases List.mem_cons.1 hk with rfl | hk
      · exact absurd rfl (hother c)
      · rw [codeKeys, ih ⟨k, hk, hother⟩, Option.map_none]
    | _ => rfl

theorem candidate_routes_set (l : List Route) : candidate w b 90 .set (.routes l) =
    if (l.map Route.code).Nodup then
      some (.routes (Settings.default.routes.map fun x => lastFor Route.code l x.code x)) else none := by
  refine Eq.trans (b := if distinct (l.map Route.code) then
    some (.routes (l.foldl putRoute Settings.default.routes)) else none) rfl ?_
  rw [foldl_putRoute]
  by_cases h : (l.map Route.code).Nodup
  · rw [if_pos ((distinct_eq_true _).2 h), if_pos h]
  · rw [if_neg fun hd => h ((distinct_eq_true _).1 hd), if_neg h]

theorem candidate_routes_add (l : List Route) : candidate w b 90 .add (.routes l) =
    some (.routes (w.routes.map fun x => lastFor Route.code l x.code x)) :=
  congrArg (fun x => some (Candidate.routes x)) (foldl_putRoute w.routes l)

/-- R176: the default route of a code among those named. -/
theorem lastFor_defaultRoute (cs : List NoticeCode) (x : Route) :
    lastFor Route.code (cs.map defaultRoute) x.code x = if x.code ∈ cs then defaultRoute x.code else x := by
  unfold lastFor
  have hmap : (cs.map defaultRoute).filter (fun y => y.code = x.code) =
      (cs.filter fun c => c = x.code).map fun _ => defaultRoute x.code := by
    rw [List.filter_map]
    refine List.map_congr_left fun c hc => ?_
    have hc := (List.mem_filter.1 hc).2
    rw [show c = x.code from of_decide_eq_true hc]
  rw [hmap, List.getLast?_map]
  by_cases h : x.code ∈ cs
  · have hne : (cs.filter fun c => c = x.code) ≠ [] :=
      List.ne_nil_of_mem (List.mem_filter.2 ⟨h, decide_eq_true rfl⟩)
    rw [List.getLast?_eq_getLast_of_ne_nil hne, if_pos h]
    rfl
  · have hnil : (cs.filter fun c => c = x.code) = [] := by
      refine List.filter_eq_nil_iff.2 fun c hc he => h ?_
      rw [← show c = x.code from of_decide_eq_true he]
      exact hc
    rw [hnil, if_neg h]
    rfl

theorem candidate_routes_remove (cs : List NoticeCode) : candidate w b 90 .remove (.keys (cs.map .code)) =
    some (.routes (w.routes.map fun x => if x.code ∈ cs then defaultRoute x.code else x)) := by
  refine Eq.trans (b := (codeKeys (cs.map .code)).map fun cs =>
    .routes ((cs.map defaultRoute).foldl putRoute w.routes)) rfl ?_
  rw [codeKeys_code, Option.map_some, foldl_putRoute]
  exact congrArg (fun x => some (Candidate.routes x)) (List.map_congr_left fun x _ => lastFor_defaultRoute cs x)

theorem candidate_routes_other {ks : List SettingKey} (h : ∃ k ∈ ks, ∀ c, k ≠ .code c) :
    candidate w b 90 .remove (.keys ks) = none := by
  refine Eq.trans (b := (codeKeys ks).map fun cs => .routes ((cs.map defaultRoute).foldl putRoute w.routes)) rfl ?_
  rw [codeKeys_other h, Option.map_none]

end

/-! ## Ranges of the items that change their setting alone -/

theorem zones_inRange (l : List Nat) : Candidate.inRange 21 (.zones l) = true ↔ ∀ z ∈ l, z ≤ 8 := by
  simp [Candidate.inRange]

theorem pattern_inRange (l : List (Nat × Nat)) : Candidate.inRange 33 (.pattern l) = true ↔
    ∃ x y, l = [(x, y)] ∧ 1 ≤ x ∧ x ≤ 255 ∧ 1 ≤ y ∧ y ≤ 255 := by
  have hrange : Candidate.inRange 33 (.pattern l) =
      (decide (l.length = 1) && l.all fun p => decide (1 ≤ p.1 ∧ p.1 ≤ 255 ∧ 1 ≤ p.2 ∧ p.2 ≤ 255)) := rfl
  rw [hrange, Bool.and_eq_true, decide_eq_true_iff, List.length_eq_one_iff]
  constructor
  · rintro ⟨⟨⟨x, y⟩, rfl⟩, h⟩
    exact ⟨x, y, rfl, by simpa using h⟩
  · rintro ⟨x, y, rfl, h⟩
    exact ⟨⟨(x, y), rfl⟩, by simpa using h⟩

/-! ## Sets (items 31 and 32) -/

/-- R190: what an operation on a set leaves. -/
theorem mem_setOp {α : Type} [DecidableEq α] (work given : List α) (op : SettingOp) (x : α) :
    x ∈ setOp work given op ↔ match op with
      | .set => x ∈ given
      | .add => x ∈ work ∨ x ∈ given
      | .remove => x ∈ work ∧ x ∉ given := by
  cases op with
  | set => exact List.mem_dedup
  | add =>
    have hmem : x ∈ setOp work given .add ↔ x ∈ work ∨ (x ∈ given ∧ x ∉ work) := by
      simp [setOp]
    rw [hmem]
    by_cases hw : x ∈ work <;> simp [hw]
  | remove => simp [setOp]

end Sys2Proof.Machine


/-! SUPPORT. What becomes of the OPEN segments when others are closed (R150): a notice may have CLOSED segments evicted,
never an OPEN one. -/

namespace Sys2Proof.Machine

/-- R148: an OPEN segment with this number and these samples. -/
def HasOpen (l : List Segment) (k : Nat) (rs : List Sample) : Prop :=
  ∃ g ∈ l, g.number = k ∧ g.state = .opened ∧ g.samples = rs

/-- The OPEN segments as they were, but for their gap counts. -/
def Svc.SameOpen (s t : Svc) : Prop := ∀ k rs, HasOpen t.wx.segments k rs ↔ HasOpen s.wx.segments k rs

theorem Svc.SameOpen.trans {a b c : Svc} (h : Svc.SameOpen a b) (g : Svc.SameOpen b c) : Svc.SameOpen a c :=
  fun k rs => (g k rs).trans (h k rs)

theorem Svc.SameOpen.of_segments {s t : Svc} (h : t.wx.segments = s.wx.segments) : Svc.SameOpen s t :=
  fun k rs => by rw [h]

theorem hasOpen_append (l m : List Segment) (k : Nat) (rs : List Sample) :
    HasOpen (l ++ m) k rs ↔ HasOpen l k rs ∨ HasOpen m k rs := by
  simp [HasOpen, or_and_right, exists_or]

theorem hasOpen_cons (g : Segment) (l : List Segment) (k : Nat) (rs : List Sample) :
    HasOpen (g :: l) k rs ↔ (g.number = k ∧ g.state = .opened ∧ g.samples = rs) ∨ HasOpen l k rs := by
  simp [HasOpen]

/-! ## Evictions (R152) -/

/-- R152: the segment evicted is CLOSED. -/
theorem hasOpen_splitClosed {l before after : List Segment} {e : Segment} (h : splitClosed l = some (before, e, after))
    (k : Nat) (rs : List Sample) : HasOpen l k rs ↔ HasOpen (before ++ after) k rs := by
  induction l generalizing before with
  | nil => cases h
  | cons g l ih =>
    by_cases hg : g.state = .closed
    · simp only [splitClosed, if_pos hg, Option.some.injEq, Prod.mk.injEq] at h
      obtain ⟨rfl, rfl, rfl⟩ := h
      rw [hasOpen_cons, hg, List.nil_append]
      simp
    · simp only [splitClosed, if_neg hg] at h
      cases hsplit : splitClosed l with
      | none =>
        rw [hsplit] at h
        cases h
      | some parts =>
        obtain ⟨b, x, a⟩ := parts
        rw [hsplit] at h
        cases h
        rw [hasOpen_cons, List.cons_append, hasOpen_cons, ih hsplit]

/-- R152: the gap count taken over changes no OPEN segment's number or samples. -/
theorem hasOpen_carryGap {d lost : Nat} {l l' : List Segment} (h : carryGap d lost l = some l') (k : Nat)
    (rs : List Sample) : HasOpen l' k rs ↔ HasOpen l k rs := by
  induction l generalizing l' with
  | nil => cases h
  | cons g l ih =>
    by_cases hg : g.device = d
    · simp only [carryGap, if_pos hg, Option.some.injEq] at h
      subst h
      rw [hasOpen_cons, hasOpen_cons]
    · simp only [carryGap, if_neg hg] at h
      cases hrest : carryGap d lost l with
      | none =>
        rw [hrest] at h
        cases h
      | some rest =>
        rw [hrest] at h
        cases h
        rw [hasOpen_cons, hasOpen_cons, ih hrest]

theorem Svc.sameOpen_evictOldest {s t : Svc} {b : Bool} {j : Nat} (h : s.evictOldest b = some (t, j)) :
    Svc.SameOpen s t := by
  cases hsplit : splitClosed s.wx.segments with
  | none =>
    rw [s.evictOldest_none hsplit b] at h
    cases h
  | some parts =>
    obtain ⟨before, e, after⟩ := parts
    obtain ⟨w, hevict, hpending, hcarried⟩ := s.evictOldest_spec hsplit b
    rw [hevict] at h
    cases h
    intro k rs
    rw [Svc.freeBuffers_wx, hasOpen_splitClosed hsplit]
    cases hcarry : carryGap e.device (e.samples.length + e.gap) after with
    | none => rw [(hpending hcarry).1]
    | some after' => rw [(hcarried _ hcarry).1, hasOpen_append, hasOpen_append, hasOpen_carryGap hcarry]

/-! ## Notices (R176, R180) -/

theorem Svc.sameOpen_requestBuffers (s : Svc) (c : PoolClass) (n : Nat) : Svc.SameOpen s (s.requestBuffers c n).1 := by
  refine Svc.requestBuffers_induction c n (P := fun s x => Svc.SameOpen s x.1) (fun s _ => .of_segments rfl)
    (fun s r => .of_segments ?_) (fun s u j y hevict h => (Svc.sameOpen_evictOldest hevict).trans h) s
  unfold Svc.refuseBuffers
  rfl

theorem Svc.sameOpen_offerNormal (s : Svc) (m : Message) : Svc.SameOpen s (s.offerNormal m).1 := by
  have h := s.sameOpen_requestBuffers .transit (transitBuffers m.length)
  unfold Svc.offerNormal
  split
  · revert h
    rcases s.requestBuffers .transit (transitBuffers m.length) with ⟨t, _ | r⟩
    · exact fun h => h
    · exact fun h => h
  · exact .of_segments rfl

theorem Svc.sameOpen_lookCentre (fuel : Nat) (s : Svc) : Svc.SameOpen s (Svc.lookCentre fuel s) := by
  induction fuel generalizing s with
  | zero => exact .of_segments rfl
  | succ fuel ih =>
    by_cases hidle : s.settings.role = .headEnd ∨ s.nextNotices = [] ∨
        2 ≤ (s.queues.normal.filter NEntry.isNoticeFwd).length
    · rw [Svc.lookCentre_idle _ hidle]
      exact .of_segments rfl
    · rw [Svc.lookCentre_offers fuel hidle]
      dsimp only
      have hoffer := s.sameOpen_offerNormal (s.noticeMessage s.nextNotices)
      split
      · exact hoffer.trans (ih _)
      · exact hoffer

theorem Svc.sameOpen_post (s : Svc) (c : NoticeCode) (b : Subject) (d : List Value) : Svc.SameOpen s (s.post c b d) := by
  rw [Svc.post_eq]
  split
  · exact .of_segments rfl
  · split
    · exact Svc.sameOpen_lookCentre 2 _
    · exact .of_segments rfl

/-! ## Segments closed by their numbers (R150) -/

theorem hasOpen_closed (l : List Segment) (n k : Nat) (rs : List Sample) (c : CloseCause) :
    HasOpen (l.map fun g => if g.number = n then { g with state := .closed, cause := some c } else g) k rs ↔
      k ≠ n ∧ HasOpen l k rs := by
  induction l with
  | nil => simp [HasOpen]
  | cons g l ih =>
    rw [List.map_cons, hasOpen_cons, hasOpen_cons, ih]
    by_cases hg : g.number = n
    · rw [if_pos hg]
      constructor
      · rintro (⟨-, hc, -⟩ | ⟨hk, h⟩)
        · cases hc
        · exact ⟨hk, .inr h⟩
      · rintro ⟨hk, ⟨hn, -⟩ | h⟩
        · exact absurd (hn.symm.trans hg) hk
        · exact .inr ⟨hk, h⟩
    · rw [if_neg hg]
      constructor
      · rintro (h | ⟨hk, h⟩)
        · exact ⟨fun hk => hg (h.1.trans hk), .inl h⟩
        · exact ⟨hk, .inr h⟩
      · rintro ⟨hk, h | h⟩
        · exact .inl h
        · exact .inr ⟨hk, h⟩

/-- R150: closing the segments with a number. -/
theorem Svc.hasOpen_closeNumbered (s : Svc) (n : Nat) (c : CloseCause) (k : Nat) (rs : List Sample) :
    HasOpen (s.closeNumbered n c).wx.segments k rs ↔ k ≠ n ∧ HasOpen s.wx.segments k rs := by
  unfold Svc.closeNumbered
  cases hf : s.wx.segments.find? fun g => g.number = n with
  | none =>
    refine ⟨fun h => ⟨?_, h⟩, fun h => h.2⟩
    obtain ⟨g, hg, hk, -⟩ := h
    rintro rfl
    exact List.find?_eq_none.1 hf g hg (decide_eq_true hk)
  | some g =>
    have hnumber : g.number = n := by
      have hp := List.find?_some hf
      exact of_decide_eq_true hp
    subst hnumber
    exact (Svc.sameOpen_post _ _ _ _ k rs).trans (hasOpen_closed ..)

theorem Svc.hasOpen_closeAll (c : CloseCause) (l : List Nat) (s : Svc) (k : Nat) (rs : List Sample) :
    HasOpen (l.foldl (fun t n => t.closeNumbered n c) s).wx.segments k rs ↔ k ∉ l ∧ HasOpen s.wx.segments k rs := by
  induction l generalizing s with
  | nil => simp
  | cons n l ih =>
    rw [List.foldl_cons, ih, Svc.hasOpen_closeNumbered, List.mem_cons, not_or]
    tauto

theorem Svc.settings_closeAll (c : CloseCause) (l : List Nat) (s : Svc) :
    (l.foldl (fun t n => t.closeNumbered n c) s).settings = s.settings := by
  induction l generalizing s with
  | nil => rfl
  | cons n l ih =>
    rw [List.foldl_cons, ih]
    unfold Svc.closeNumbered
    split
    · rfl
    · exact (Svc.keeps_post ..).settings

/-! ## A new segment length (R150) -/

/-- R150: the numbers of the OPEN segments that have reached a length. -/
def Svc.reached (s : Svc) (n : Nat) : List Nat :=
  (s.wx.segments.filter fun g => g.state = .opened && decide (n ≤ g.samples.length)).map (·.number)

theorem Svc.takeSegmentLength_eq (s : Svc) (n : Nat) : s.takeSegmentLength n =
    (s.reached n).foldl (fun t k => t.closeNumbered k .length)
      { s with settings := { s.settings with segmentLength := n } } := rfl

/-- R150: an OPEN segment that has reached the length is closed, and one that has not goes on unless another of its number
has. -/
theorem Svc.takeSegmentLength_spec (s : Svc) (n : Nat) :
    (s.takeSegmentLength n).settings = { s.settings with segmentLength := n } ∧
    (∀ h ∈ (s.takeSegmentLength n).wx.segments, h.state = .opened → h.samples.length < n) ∧
    (∀ g ∈ s.wx.segments, g.state = .opened → g.samples.length < n →
      (∀ h ∈ s.wx.segments, h.number = g.number → h = g) →
      ∃ h ∈ (s.takeSegmentLength n).wx.segments, h.number = g.number ∧ h.state = .opened ∧ h.samples = g.samples) ∧
    ((∀ g ∈ s.wx.segments, g.state = .opened → g.samples.length < n) →
      s.takeSegmentLength n = { s with settings := { s.settings with segmentLength := n } }) := by
  rw [Svc.takeSegmentLength_eq]
  have hopen (k : Nat) (rs : List Sample) := Svc.hasOpen_closeAll .length (s.reached n)
    { s with settings := { s.settings with segmentLength := n } } k rs
  have hreached {k : Nat} : k ∈ s.reached n ↔
      ∃ g ∈ s.wx.segments, (g.state = .opened ∧ n ≤ g.samples.length) ∧ g.number = k := by
    simp [Svc.reached, and_assoc]
  refine ⟨Svc.settings_closeAll .., fun h hh hs => ?_, fun g hg hs hlen hunique => ?_, fun hall => ?_⟩
  · obtain ⟨hnot, g, hg, hk, hstate, hsamples⟩ := (hopen h.number h.samples).1 ⟨h, hh, rfl, hs, rfl⟩
    refine Nat.not_le.1 fun hlen => hnot (hreached.2 ⟨g, hg, ⟨hstate, ?_⟩, hk⟩)
    rw [hsamples]
    exact hlen
  · refine (hopen g.number g.samples).2 ⟨fun hmem => ?_, g, hg, rfl, hs, rfl⟩
    obtain ⟨h, hh, ⟨-, hlong⟩, hk⟩ := hreached.1 hmem
    rw [hunique h hh hk] at hlong
    omega
  · have hnone : s.reached n = [] := by
      refine List.eq_nil_iff_forall_not_mem.2 fun k hk => ?_
      obtain ⟨g, hg, ⟨hs, hlong⟩, -⟩ := hreached.1 hk
      have := hall g hg hs
      omega
    rw [hnone]
    rfl

end Sys2Proof.Machine


/-! SUPPORT. How SETTING-WRITE and RESTART are answered (R190, R195), and what the numbers that act besides do (R15, R17,
R71, R145, R150, R163), with the statement about both. -/

namespace Sys2Proof.Machine

/-! ## Which writes reach an item's block -/

/-- R190: an item that this node's SETTING-WRITE may change by this operation. -/
structure Node.WritesItem (n : Node) (item : Nat) (op : SettingOp) : Prop where
  isItem : isItem item = true
  numberSet : (numberRange item).isSome = true → op = .set
  ownRole : otherRole n.set.role item = false
  notNextStart : nextStart item = false

section
variable {n : Node} {item : Nat} {op : SettingOp} (v : SettingValue)

theorem Node.settingWrite_bad (h : isItem item = false ∨ (numberRange item).isSome = true ∧ op ≠ .set) :
    n.settingWrite item op v = (n, .badArgument, .nil) := if_pos h

theorem Node.settingWrite_looksOn (hitem : isItem item = true) (hset : (numberRange item).isSome = true → op = .set) :
    n.settingWrite item op v =
      if otherRole n.set.role item then (n, .wrongRole, .nil)
      else if nextStart item then (n, .wrongState, .nil)
      else ((n.writeItem item op v).1, (n.writeItem item op v).2, .nil) := by
  refine if_neg ?_
  rintro (h | ⟨hnumber, h⟩)
  · rw [hitem] at h
    cases h
  · exact h (hset hnumber)

theorem Node.settingWrite_writes (h : n.WritesItem item op) :
    n.settingWrite item op v = ((n.writeItem item op v).1, (n.writeItem item op v).2, .nil) := by
  rw [Node.settingWrite_looksOn v h.isItem h.numberSet, h.ownRole, h.notNextStart]
  rfl

variable {v}

theorem Node.writeItem_bad (h : ∀ x, candidate n.set n.svc.pool.bounds item op v = some x → x.inRange item = false) :
    n.writeItem item op v = (n, .badArgument) := by
  unfold Node.writeItem
  cases hc : candidate n.set n.svc.pool.bounds item op v with
  | none => rfl
  | some x => exact if_neg (by rw [h x hc]; exact Bool.false_ne_true)

theorem Node.writeItem_takes {x : Candidate} (hc : candidate n.set n.svc.pool.bounds item op v = some x)
    (hr : x.inRange item = true) : n.writeItem item op v = n.takeValue item x := by
  unfold Node.writeItem
  rw [hc]
  exact if_pos hr

end

/-! ## How a write is answered (R190) -/

section
variable {s : State} {o : Origin} {item : Nat} {op : SettingOp} {v : SettingValue}
  (h : Takes s o (.settingWrite op item v))
include h

/-- R190: a write that its node answers as one and the same, whatever stands on the command channels. -/
theorem State.settingWrite_answered {m : Node} {st : Status} (hcmd : m.cmd = s.node.cmd)
    (hact : ∀ f, (s.node.onCmd f).settingWrite item op v = (m.onCmd f, st, .nil)) :
    s.command o (.settingWrite op item v) = .next (s.replied m o (.settingWrite op item v) st .nil) :=
  State.command_acting h (act := fun n => n.settingWrite item op v) (fun _ => rfl) hcmd hact

variable (hw : s.node.WritesItem item op)
include hw

/-- R190: a write whose candidate is missing or out of range. -/
theorem State.settingWrite_bad
    (hbad : ∀ x, candidate s.node.set s.node.svc.pool.bounds item op v = some x → x.inRange item = false) :
    s.command o (.settingWrite op item v) = .next (s.replied s.node o (.settingWrite op item v) .badArgument .nil) :=
  State.settingWrite_answered h rfl fun f =>
    (Node.settingWrite_writes (n := s.node.onCmd f) v ⟨hw.isItem, hw.numberSet, hw.ownRole, hw.notNextStart⟩).trans
      (by rw [Node.writeItem_bad (n := s.node.onCmd f) hbad])

section
variable {x : Candidate} (hc : candidate s.node.set s.node.svc.pool.bounds item op v = some x)
  (hr : x.inRange item = true)
include hc hr

omit h in
theorem Node.settingWrite_onCmd (f : Cmd → Cmd) : (s.node.onCmd f).settingWrite item op v =
    (((s.node.onCmd f).takeValue item x).1, ((s.node.onCmd f).takeValue item x).2, .nil) :=
  (Node.settingWrite_writes (n := s.node.onCmd f) v ⟨hw.isItem, hw.numberSet, hw.ownRole, hw.notNextStart⟩).trans
    (by rw [Node.writeItem_takes (n := s.node.onCmd f) hc hr])

/-- R190: a write whose candidate the item's block takes, its command in progress. -/
theorem State.settingWrite_takes :
    let t := (s.node.onCmd fun k => k.setChannel o (some { origin := o, cmd := .settingWrite op item v })).takeValue item x
    s.command o (.settingWrite op item v) = .next (s.settled (t.1.endCommand o t.2 .nil)) := by
  have hperform (n : Node) : n.perform s.store o (.settingWrite op item v) = atOnce (n.settingWrite item op v) := rfl
  rw [State.command_takes h, Node.execute, hperform, Node.settingWrite_onCmd hw hc hr]
  rfl

/-- R190: a write that the item's block takes without looking at the command channels. -/
theorem State.settingWrite_took {m : Node} {st : Status} (hcmd : m.cmd = s.node.cmd)
    (htake : ∀ f, (s.node.onCmd f).takeValue item x = (m.onCmd f, st)) :
    s.command o (.settingWrite op item v) = .next (s.replied m o (.settingWrite op item v) st .nil) :=
  State.settingWrite_answered h hcmd fun f => by rw [Node.settingWrite_onCmd hw hc hr, htake]

/-- R190: so does every list, but one that takes a busy device off its line. -/
theorem State.settingWrite_list (hlist : numberRange item = none)
    (hfree : item ≠ 40 ∧ item ≠ 41 ∨ ∀ d w, s.node.device d = some w → w.exchange = none ∧ w.commands = []) :
    s.command o (.settingWrite op item v) = .next (s.replied (s.node.takeValue item x).1 o (.settingWrite op item v)
      (s.node.takeValue item x).2 .nil) := by
  obtain ⟨hx, hkept⟩ := candidate_isList hlist hc
  have hd := hfree.imp_left fun hi => hkept hi.1 hi.2
  exact State.settingWrite_took h hw hc hr (Node.cmd_takeValue item hx hd) fun f => Node.onCmd_takeValue f item hx hd

end
end

/-! ## Numbers (R190) -/

theorem candidate_number {w : Settings} {b : List ClassBounds} {item : Nat} (x : Nat)
    (h : (numberRange item).isSome = true) : candidate w b item .set (.number x) = some (.number x) := if_pos h

section
variable {s : State} {o : Origin} {item : Nat} {op : SettingOp} {x low high : Nat}
  (h : Takes s o (.settingWrite op item (.number x))) (hw : s.node.WritesItem item op)
  (hrange : numberRange item = some (low, high))
include h hw hrange

theorem State.settingWrite_outOfRange (hout : x < low ∨ high < x) :
    s.command o (.settingWrite op item (.number x)) =
      .next (s.replied s.node o (.settingWrite op item (.number x)) .badArgument .nil) := by
  have hsome : (numberRange item).isSome = true := Option.isSome_of_eq_some hrange
  obtain rfl := hw.numberSet hsome
  refine State.settingWrite_bad h hw fun c hc => ?_
  rw [candidate_number x hsome] at hc
  cases hc
  refine Bool.eq_false_iff.2 fun hin => ?_
  obtain ⟨low', high', hrange', h1, h2⟩ := Candidate.number_inRange.1 hin
  rw [hrange] at hrange'
  cases hrange'
  omega

/-- R190: a number in its range is taken as its item takes it. -/
theorem State.settingWrite_number (hlow : low ≤ x) (hhigh : x ≤ high) {m : Node} {st : Status}
    (hcmd : m.cmd = s.node.cmd) (htake : ∀ f, (s.node.onCmd f).takeNumber item x = (m.onCmd f, st)) :
    s.command o (.settingWrite op item (.number x)) =
      .next (s.replied m o (.settingWrite op item (.number x)) st .nil) := by
  have hsome : (numberRange item).isSome = true := Option.isSome_of_eq_some hrange
  obtain rfl := hw.numberSet hsome
  exact State.settingWrite_took h hw (candidate_number x hsome)
    (Candidate.number_inRange.2 ⟨low, high, hrange, hlow, hhigh⟩) hcmd htake

end

/-- R190: a number that does not act besides. -/
theorem Node.takeNumber_plain (n : Node) {item : Nat} (x : Nat) (h : item ∉ [11, 13, 60, 70, 80]) :
    n.takeNumber item x = (n.onSettings fun w => w.withNumber item x, .done) := by
  unfold Node.takeNumber
  split
  case h_6 => rfl
  all_goals exact absurd (by decide) h

/-! ## The wait to restore (R15, R17) -/

/-- R15, R17: whether the restoring timer of this node's role runs. -/
def Node.restoring (n : Node) : Bool := if n.isHead then n.head.restoring else n.ring.restoring

section
variable {n : Node}

theorem Node.takeWaitToRestore_plain {x : Nat} (h : x ≠ 0 ∨ n.restoring = false) :
    n.takeWaitToRestore x = n.onSettings fun w => w.withNumber 11 x := by
  by_cases hx : x = 0
  · have hr := h.resolve_left (not_not.2 hx)
    refine (if_pos hx).trans ?_
    unfold Node.restoring at hr
    by_cases hh : n.isHead = true
    · rw [if_pos hh] at hr
      exact (if_pos hh).trans (if_neg (by rw [show (n.onSettings _).head = n.head from rfl, hr]; exact Bool.false_ne_true))
    · rw [if_neg hh] at hr
      exact (if_neg hh).trans (if_neg (by rw [show (n.onSettings _).ring = n.ring from rfl, hr]; exact Bool.false_ne_true))
  · exact if_neg hx

theorem Node.takeWaitToRestore_head (hh : n.isHead = true) (hr : n.head.restoring = true) :
    n.takeWaitToRestore 0 = (n.onSettings fun w => w.withNumber 11 0).originEast := by
  refine Eq.trans (b := if (n.onSettings fun w => w.withNumber 11 0).isHead then
    (if n.head.restoring then (n.onSettings fun w => w.withNumber 11 0).originEast else _) else _) rfl ?_
  exact (if_pos hh).trans (if_pos hr)

theorem Node.takeWaitToRestore_wayside (hh : n.isHead = false) (hr : n.ring.restoring = true) :
    n.takeWaitToRestore 0 = (n.onSettings fun w => w.withNumber 11 0).openOut := by
  refine Eq.trans (b := if (n.onSettings fun w => w.withNumber 11 0).isHead then _
    else if n.ring.restoring then (n.onSettings fun w => w.withNumber 11 0).openOut else _) rfl ?_
  exact (if_neg (ne_true_of_eq_false hh)).trans (if_pos hr)

theorem Node.onCmd_originEast (n : Node) (f : Cmd → Cmd) : (n.onCmd f).originEast = n.originEast.onCmd f :=
  Node.onCmd_ite_node f rfl rfl

theorem Node.onCmd_openOut (n : Node) (f : Cmd → Cmd) : (n.onCmd f).openOut = n.openOut.onCmd f :=
  Node.onCmd_setAttach n.stopRestoring f .through

/-- R15, R17: a wait-to-restore of 0 makes the running timer expire at once. -/
theorem Node.takeWaitToRestore_expires (hr : n.restoring = true) :
    ∃ m : Node, (∀ f, (n.onCmd f).takeWaitToRestore 0 = m.onCmd f) ∧ m.cmd = n.cmd ∧
      m.set = n.set.withNumber 11 0 ∧
      (n.isHead = true → m.head.origin = .east ∧ m.head.restoring = false ∧ m.head.timer = none) ∧
      (n.isHead = false → m.ring.attach = .through ∧ m.ring.restoring = false ∧ m.ring.timer = none) := by
  unfold Node.restoring at hr
  by_cases hh : n.isHead = true
  · rw [if_pos hh] at hr
    have hstep := (n.onSettings fun w => w.withNumber 11 0).originEast_step
    refine ⟨_, fun f => (Node.takeWaitToRestore_head (n := n.onCmd f) hh hr).trans
      (Node.onCmd_originEast (n.onSettings fun w => w.withNumber 11 0) f), (congrArg Node.cmd hstep.rest).trans rfl,
      hstep.svc.settings, fun _ => ?_, fun hno => absurd (hno.symm.trans hh) Bool.false_ne_true⟩
    rw [hstep.head]
    exact ⟨rfl, rfl, rfl⟩
  · have hh := Bool.eq_false_iff.2 hh
    rw [hh] at hr
    have ha := (n.onSettings fun w => w.withNumber 11 0).stopRestoring.attached_setAttach (new := .through) (by decide)
    refine ⟨_, fun f => (Node.takeWaitToRestore_wayside (n := n.onCmd f) hh hr).trans
      (Node.onCmd_openOut (n.onSettings fun w => w.withNumber 11 0) f), (congrArg Node.cmd ha.step.rest).trans rfl,
      ha.step.set, fun hno => absurd (hh.symm.trans hno) Bool.false_ne_true, fun _ => ?_⟩
    rw [Node.openOut, ha.ring]
    exact ⟨rfl, rfl, rfl⟩

end

/-! ## The voice cap (R71) -/

/-- R71: the slots held above a cap, said of the calls. -/
theorem Node.holdsAbove_eq (n : Node) (cap : Nat) :
    n.holdsAbove cap = n.call.table.any fun e => e.slot.any fun k => cap < k && k ≤ 24 := by
  refine Bool.eq_iff_iff.2 ?_
  simp only [Node.holdsAbove, List.any_eq_true, Bool.and_eq_true, decide_eq_true_eq, Option.any_eq_true, mem_places,
    Call.holder, List.find?_isSome]
  constructor
  · rintro ⟨k, ⟨-, hk⟩, hcap, e, he, hslot⟩
    exact ⟨e, he, k, hslot, hcap, hk⟩
  · rintro ⟨e, he, k, hslot, hcap, hk⟩
    exact ⟨k, ⟨by omega, hk⟩, hcap, e, he, hslot⟩

/-! ## The toll high mark (R145) -/

theorem raiseHigh_spec (x : TollSt) : (raiseHigh x).1.settings = x.1.settings ∧ (raiseHigh x).2.log = x.2.log ∧
    (raiseHigh x).2.high = if x.1.settings.tollHigh < x.2.log.length then true else x.2.high := by
  unfold raiseHigh
  by_cases hlog : x.1.settings.tollHigh < x.2.log.length
  · rw [if_pos hlog]
    cases hhigh : x.2.high with
    | false =>
      rw [if_pos ⟨rfl, hlog⟩]
      exact ⟨(Svc.keeps_post ..).settings, rfl, rfl⟩
    | true =>
      rw [if_neg fun h => Bool.noConfusion h.1]
      exact ⟨rfl, rfl, hhigh⟩
  · rw [if_neg fun h => hlog h.2, if_neg hlog]
    exact ⟨rfl, rfl, rfl⟩

theorem lowerHigh_spec (x : TollSt) : (lowerHigh x).1 = x.1 ∧ (lowerHigh x).2.log = x.2.log ∧
    (lowerHigh x).2.high = if x.2.log.length ≤ x.1.settings.tollHigh - 32 then false else x.2.high := by
  unfold lowerHigh
  split <;> exact ⟨rfl, rfl, rfl⟩

/-- R145: a new high mark is compared with the log at once. -/
theorem takeTollHigh_spec (x : Nat) (y : TollSt) :
    (takeTollHigh x y).1.settings = y.1.settings.withNumber 60 x ∧ (takeTollHigh x y).2.log = y.2.log ∧
    (takeTollHigh x y).2.high = if x < y.2.log.length then true
      else if y.2.log.length ≤ x - 32 then false else y.2.high := by
  have hraise := raiseHigh_spec ({ y.1 with settings := { y.1.settings with tollHigh := x } }, y.2)
  obtain ⟨hset, hlog, hhigh⟩ := hraise
  have hlower := lowerHigh_spec (raiseHigh ({ y.1 with settings := { y.1.settings with tollHigh := x } }, y.2))
  obtain ⟨hsvc', hlog', hhigh'⟩ := hlower
  have hmark : (raiseHigh ({ y.1 with settings := { y.1.settings with tollHigh := x } }, y.2)).1.settings.tollHigh = x :=
    congrArg Settings.tollHigh hset
  refine ⟨(congrArg Svc.settings hsvc').trans hset, hlog'.trans hlog, hhigh'.trans ?_⟩
  rw [hlog, hmark, hhigh]
  dsimp only
  by_cases habove : x < y.2.log.length
  · rw [if_pos habove, if_neg (by omega), if_pos habove]
  · rw [if_neg habove, if_neg habove]

/-! ## The batch limit (R163) -/

theorem Node.takeBatchLimit_below {n : Node} {x : Nat} (h : x < n.coll.batches.length) :
    n.takeBatchLimit x = (n, .wrongState) := if_pos h

theorem Node.takeBatchLimit_fits {n : Node} {x : Nat} (h : n.coll.batches.length ≤ x) :
    n.takeBatchLimit x = (n.onSettings fun w => w.withNumber 80 x, .done) := if_neg (Nat.not_lt.2 h)

/-! ## RESTART (R195) -/

theorem Node.restartCommand_eq (n : Node) :
    n.restartCommand = (n, if n.link.running then .done else .wrongState, .nil) := by
  unfold Node.restartCommand
  split <;> rfl

/-! ## The numbers that act besides, as they are written -/

section
variable {s : State} {o : Origin} {op : SettingOp} {x low high : Nat}

/-- R15, R17: item 11. -/
theorem State.settingWrite_waitToRestore (h : Takes s o (.settingWrite op 11 (.number x)))
    (hw : s.node.WritesItem 11 op) (hrange : numberRange 11 = some (low, high)) (hlow : low ≤ x) (hhigh : x ≤ high) :
    (x ≠ 0 ∨ s.node.restoring = false → s.command o (.settingWrite op 11 (.number x)) = .next (s.replied
      (s.node.onSettings fun w => w.withNumber 11 x) o (.settingWrite op 11 (.number x)) .done .nil)) ∧
    (x = 0 → s.node.restoring = true → ∃ m, s.command o (.settingWrite op 11 (.number x)) =
        .next (s.replied m o (.settingWrite op 11 (.number x)) .done .nil) ∧
      m.set = s.node.set.withNumber 11 x ∧
      (s.node.isHead = true → m.head.origin = .east ∧ m.head.restoring = false ∧ m.head.timer = none) ∧
      (s.node.isHead = false → m.ring.attach = .through ∧ m.ring.restoring = false ∧ m.ring.timer = none)) := by
  refine ⟨fun hstays => ?_, ?_⟩
  · exact State.settingWrite_number h hw hrange hlow hhigh rfl fun f =>
      congrArg (·, Status.done) (Node.takeWaitToRestore_plain (n := s.node.onCmd f) hstays)
  · rintro rfl hrestoring
    obtain ⟨m, htake, hcmd, hrest⟩ := Node.takeWaitToRestore_expires (n := s.node) hrestoring
    exact ⟨m, State.settingWrite_number h hw hrange hlow hhigh hcmd fun f => congrArg (·, Status.done) (htake f), hrest⟩

/-- R71: item 13. -/
theorem State.settingWrite_voiceCap (h : Takes s o (.settingWrite op 13 (.number x)))
    (hw : s.node.WritesItem 13 op) (hrange : numberRange 13 = some (low, high)) (hlow : low ≤ x) (hhigh : x ≤ high) :
    ((s.node.call.table.any fun e => e.slot.any fun k => x < k && k ≤ 24) = true →
      s.command o (.settingWrite op 13 (.number x)) =
        .next (s.replied s.node o (.settingWrite op 13 (.number x)) .wrongState .nil)) ∧
    ((s.node.call.table.any fun e => e.slot.any fun k => x < k && k ≤ 24) = false → s.node.call.waiting = [] →
      s.command o (.settingWrite op 13 (.number x)) = .next (s.replied
        (s.node.onSettings fun w => w.withNumber 13 x) o (.settingWrite op 13 (.number x)) .done .nil)) := by
  rw [← Node.holdsAbove_eq]
  have hcap : ¬(x < 4 ∨ 24 < x) := by
    cases hrange
    omega
  refine ⟨fun hheld => ?_, fun hheld hwaiting => ?_⟩
  · refine State.settingWrite_number h hw hrange hlow hhigh rfl fun f => ?_
    have hset := Node.voiceCapSet_held (s.node.onCmd f) hcap hheld
    exact congrArg (fun r => (r.1, r.2.1)) hset
  · refine State.settingWrite_number h hw hrange hlow hhigh (by rfl) fun f => ?_
    have hset := Node.voiceCapSet_quiet (s.node.onCmd f) hcap hheld hwaiting
    exact congrArg (fun r => (r.1, r.2.1)) hset

/-- R145: item 60. -/
theorem State.settingWrite_tollHigh (h : Takes s o (.settingWrite op 60 (.number x)))
    (hw : s.node.WritesItem 60 op) (hrange : numberRange 60 = some (low, high)) (hlow : low ≤ x) (hhigh : x ≤ high) :
    ∃ m, s.command o (.settingWrite op 60 (.number x)) =
        .next (s.replied m o (.settingWrite op 60 (.number x)) .done .nil) ∧
      m.set = s.node.set.withNumber 60 x ∧ m.toll.log = s.node.toll.log ∧
      m.toll.high = (if x < s.node.toll.log.length then true
        else if s.node.toll.log.length ≤ x - 32 then false else s.node.toll.high) :=
  ⟨s.node.onToll (takeTollHigh x), State.settingWrite_number h hw hrange hlow hhigh rfl fun _ => rfl,
    takeTollHigh_spec x (s.node.svc, s.node.toll)⟩

/-- R150: item 70. -/
theorem State.settingWrite_segmentLength (h : Takes s o (.settingWrite op 70 (.number x)))
    (hw : s.node.WritesItem 70 op) (hrange : numberRange 70 = some (low, high)) (hlow : low ≤ x) (hhigh : x ≤ high) :
    ∃ m, s.command o (.settingWrite op 70 (.number x)) =
        .next (s.replied m o (.settingWrite op 70 (.number x)) .done .nil) ∧
      m.set = s.node.set.withNumber 70 x ∧
      (∀ g ∈ m.svc.wx.segments, g.state = .opened → g.samples.length < x) ∧
      (∀ g ∈ s.node.svc.wx.segments, g.state = .opened → g.samples.length < x →
        (∀ k ∈ s.node.svc.wx.segments, k.number = g.number → k = g) →
        ∃ k ∈ m.svc.wx.segments, k.number = g.number ∧ k.state = .opened ∧ k.samples = g.samples) ∧
      ((∀ g ∈ s.node.svc.wx.segments, g.state = .opened → g.samples.length < x) →
        m = s.node.onSettings fun w => w.withNumber 70 x) := by
  obtain ⟨hset, hopen, hstay, hnone⟩ := s.node.svc.takeSegmentLength_spec x
  exact ⟨s.node.onSvc fun t => t.takeSegmentLength x, State.settingWrite_number h hw hrange hlow hhigh rfl fun _ => rfl,
    hset, hopen, hstay, fun hall => congrArg (fun t => { s.node with svc := t }) (hnone hall)⟩

/-- R163: item 80. -/
theorem State.settingWrite_batchLimit (h : Takes s o (.settingWrite op 80 (.number x)))
    (hw : s.node.WritesItem 80 op) (hrange : numberRange 80 = some (low, high)) (hlow : low ≤ x) (hhigh : x ≤ high) :
    (x < s.node.coll.batches.length → s.command o (.settingWrite op 80 (.number x)) =
      .next (s.replied s.node o (.settingWrite op 80 (.number x)) .wrongState .nil)) ∧
    (s.node.coll.batches.length ≤ x → s.command o (.settingWrite op 80 (.number x)) = .next (s.replied
      (s.node.onSettings fun w => w.withNumber 80 x) o (.settingWrite op 80 (.number x)) .done .nil)) :=
  ⟨fun hbelow => State.settingWrite_number h hw hrange hlow hhigh rfl fun f =>
      Node.takeBatchLimit_below (n := s.node.onCmd f) hbelow,
    fun hfits => State.settingWrite_number h hw hrange hlow hhigh rfl fun f =>
      Node.takeBatchLimit_fits (n := s.node.onCmd f) hfits⟩

end

/-! ## Sets, as they are written -/

section
variable {s : State} {o : Origin} {op : SettingOp}

theorem State.settingWrite_beacons {l : List Nat} (h : Takes s o (.settingWrite op 32 (.beacons l)))
    (hw : s.node.WritesItem 32 op) (hgiven : ∀ b ∈ l, 1 ≤ b ∧ b ≤ 4)
    (hthere : ∀ b ∈ s.node.set.pulseBeacons, 1 ≤ b ∧ b ≤ 4) :
    s.command o (.settingWrite op 32 (.beacons l)) = .next (s.replied
      (s.node.onSettings fun w => { w with pulseBeacons := setOp s.node.set.pulseBeacons l op }) o
      (.settingWrite op 32 (.beacons l)) .done .nil) := by
  refine State.settingWrite_list h hw (x := .beacons (setOp s.node.set.pulseBeacons l op)) rfl ?_ rfl (.inl (by decide))
  refine List.all_eq_true.2 fun x hx => decide_eq_true ?_
  have hx := (mem_setOp _ _ op x).1 hx
  cases op with
  | set => exact hgiven x hx
  | add => exact hx.elim (hthere x) (hgiven x)
  | remove => exact hthere x hx.1

theorem State.settingWrite_actions {l : List ReleaseAction} (h : Takes s o (.settingWrite op 31 (.actions l)))
    (hw : s.node.WritesItem 31 op) :
    s.command o (.settingWrite op 31 (.actions l)) = .next (s.replied
      (s.node.onSettings fun w => { w with releaseActions := setOp s.node.set.releaseActions l op }) o
      (.settingWrite op 31 (.actions l)) .done .nil) :=
  State.settingWrite_list h hw (x := .actions (setOp s.node.set.releaseActions l op)) rfl rfl rfl (.inl (by decide))

end

/-! ## Settled -/

section
variable {s : State} {o : Origin} {item : Nat} {op : SettingOp} {v : SettingValue}
  (h : Takes s o (.settingWrite op item v))
include h

/-- R190: a write refused before its candidate is formed. -/
theorem State.settingWrite_early :
    (isItem item = false ∨ (numberRange item).isSome = true ∧ op ≠ .set → s.command o (.settingWrite op item v) =
      .next (s.replied s.node o (.settingWrite op item v) .badArgument .nil)) ∧
    (isItem item = true → ((numberRange item).isSome = true → op = .set) →
      (otherRole s.node.set.role item = true → s.command o (.settingWrite op item v) =
        .next (s.replied s.node o (.settingWrite op item v) .wrongRole .nil)) ∧
      (otherRole s.node.set.role item = false → nextStart item = true → s.command o (.settingWrite op item v) =
        .next (s.replied s.node o (.settingWrite op item v) .wrongState .nil))) := by
  refine ⟨fun hbad => State.settingWrite_answered h rfl fun f => Node.settingWrite_bad v hbad,
    fun hitem hset => ⟨fun hrole => ?_, fun hrole hnext => ?_⟩⟩
  · refine State.settingWrite_answered h rfl fun f => ?_
    exact (Node.settingWrite_looksOn (n := s.node.onCmd f) v hitem hset).trans (if_pos hrole)
  · refine State.settingWrite_answered h rfl fun f => ?_
    exact (Node.settingWrite_looksOn (n := s.node.onCmd f) v hitem hset).trans
      ((if_neg (ne_true_of_eq_false hrole)).trans (if_pos hnext))

/-- R190: a write refused for its candidate. -/
theorem State.settingWrite_candidate (hw : s.node.WritesItem item op)
    (hc : SettingValue.fits item op v = false ∨ candidate s.node.set s.node.svc.pool.bounds item op v = none ∨
      ∃ x, candidate s.node.set s.node.svc.pool.bounds item op v = some x ∧ x.inRange item = false) :
    s.command o (.settingWrite op item v) =
      .next (s.replied s.node o (.settingWrite op item v) .badArgument .nil) := by
  refine State.settingWrite_bad h hw fun y hy => ?_
  rcases hc with hfit | hnone | ⟨x, hx, hr⟩
  · rw [candidate_unfit hfit] at hy
    cases hy
  · rw [hnone] at hy
    cases hy
  · rw [hx] at hy
    cases hy
    exact hr

end

/-- Settles O59: `Node.settingWrite` case by case, the candidates item by item, and what each number does besides. -/
theorem settingWritesAndRestart : Obligations.SettingWritesAndRestart := by
  refine ⟨fun o item v s => ?_, fun w b => ?_, fun n => ?_⟩
  · intro n writes
    have key (op : SettingOp) (i : Instr) (hi : exec i s = s.command o (.settingWrite op item v)) : writes op i := by
      intro h run answer
      have hrun : run = s.command o (.settingWrite op item v) := hi
      rw [hrun]
      obtain ⟨hbad, hlooks⟩ := State.settingWrite_early h
      refine ⟨hbad, fun hitem hset => ?_⟩
      obtain ⟨hother, hnext⟩ := hlooks hitem hset
      refine ⟨hother, hnext, fun hrole hnext => ?_⟩
      have hw : s.node.WritesItem item op := ⟨hitem, hset, hrole, hnext⟩
      clear hbad hlooks hother
      refine ⟨fun hfit => State.settingWrite_candidate h hw (.inl hfit),
        ⟨fun hnone => State.settingWrite_candidate h hw (.inr (.inl hnone)),
          fun x hc hr => State.settingWrite_candidate h hw (.inr (.inr ⟨x, hc, hr⟩)),
          fun x hc hr => ⟨State.settingWrite_takes h hw hc hr, State.settingWrite_list h hw hc hr⟩⟩, ?_, ?_, ?_, ?_, ?_⟩
      · rintro x low high rfl hrange hout
        exact State.settingWrite_outOfRange h hw hrange hout
      · rintro x low high rfl hrange hlow hhigh hplain
        exact State.settingWrite_number h hw hrange hlow hhigh rfl fun f => Node.takeNumber_plain _ x hplain
      · rintro l rfl rfl hgiven hthere
        exact ⟨_, State.settingWrite_beacons h hw hgiven hthere, fun x => mem_setOp _ _ op x⟩
      · rintro l rfl rfl
        exact ⟨_, State.settingWrite_actions h hw, fun x => mem_setOp _ _ op x⟩
      · rintro x low high rfl hrange hlow hhigh
        refine ⟨?_, ?_, ?_, ?_, ?_, ?_, ?_, ?_⟩ <;> rintro rfl
        · exact (State.settingWrite_waitToRestore h hw hrange hlow hhigh).1
        · exact (State.settingWrite_waitToRestore h hw hrange hlow hhigh).2
        · exact (State.settingWrite_voiceCap h hw hrange hlow hhigh).1
        · exact (State.settingWrite_voiceCap h hw hrange hlow hhigh).2
        · exact State.settingWrite_tollHigh h hw hrange hlow hhigh
        · exact State.settingWrite_segmentLength h hw hrange hlow hhigh
        · exact (State.settingWrite_batchLimit h hw hrange hlow hhigh).1
        · exact (State.settingWrite_batchLimit h hw hrange hlow hhigh).2
    refine ⟨key .set _ rfl, key .add _ rfl, key .remove _ rfl, fun h => ?_⟩
    exact State.command_acting h (act := Node.restartCommand) (fun _ => rfl) rfl fun f =>
      Node.restartCommand_eq (s.node.onCmd f)
  · refine ⟨fixedPlaces_portZones w b, fixedPlaces_remap w b, fixedPlaces_kinds w b, fixedPlaces_roster w b,
      fixedPlaces_outputs w b, fixedPlaces_inputs w b, fixedPlaces_rules w b, candidate_kinds_unknown w b,
      fun l => ⟨rfl, candidate_pattern_add w b l⟩, candidate_pattern_remove w b,
      fun l => ⟨rfl, candidate_bindings_add w b l⟩, candidate_bindings_remove w b,
      fun l => ⟨rfl, candidate_classes_add w b l⟩, candidate_classes_remove w b, fun _ => candidate_classes_other w b,
      fun l => ⟨fun htwice => ?_, fun honce => ?_, candidate_routes_add w b l⟩, candidate_routes_remove w b,
      fun _ => candidate_routes_other w b⟩
    · exact (candidate_routes_set w b l).trans (if_neg htwice)
    · exact (candidate_routes_set w b l).trans (if_pos honce)
  · exact ⟨fun l => ⟨rfl, zones_inRange l⟩, fun p => rfl, pattern_inRange, fun l => ⟨rfl, rfl⟩⟩

end Sys2Proof.Machine


/-! SUPPORT. STORE-APPEND and the writing of its record (R192), and the records at a start (R194). -/

namespace Sys2Proof.Machine

/-! ## A refused value leaves everything but what POOL did (R192) -/

/-- R192: a value that is refused leaves the node as it was but for its services. -/
def Node.RefusedBare (n : Node) (r : Node × Status) : Prop := r.2 ≠ .done → r.1 = { n with svc := r.1.svc }

section
variable {n : Node}

theorem Node.RefusedBare.same (st : Status) : n.RefusedBare (n, st) := fun _ => rfl

theorem Node.RefusedBare.taken (m : Node) : n.RefusedBare (m, .done) := fun h => absurd rfl h

theorem Node.RefusedBare.ite {c : Prop} [Decidable c] {x y : Node × Status} (hx : n.RefusedBare x)
    (hy : n.RefusedBare y) : n.RefusedBare (if c then x else y) := by
  split
  · exact hx
  · exact hy

theorem Node.refusedBare_takeNumber (item v : Nat) : n.RefusedBare (n.takeNumber item v) := by
  unfold Node.takeNumber
  split
  case h_2 =>
    show n.RefusedBare ((n.voiceCapSet v).1, (n.voiceCapSet v).2.1)
    unfold Node.voiceCapSet
    split
    · exact .same _
    · split
      · exact .same _
      · exact .taken _
  case h_5 => exact .ite (.same _) (.taken _)
  all_goals exact .taken _

theorem Node.refusedBare_takeBindings (l : List Binding) :
    n.RefusedBare ({ n with svc := (takeBindings l (n.svc, n.zone)).1.1, zone := (takeBindings l (n.svc, n.zone)).1.2 },
      (takeBindings l (n.svc, n.zone)).2) := by
  unfold takeBindings
  dsimp only
  split
  · exact .same _
  · split
    · exact fun _ => rfl
    · exact .taken _

theorem Node.refusedBare_takeValue (item : Nat) (x : Candidate) : n.RefusedBare (n.takeValue item x) := by
  cases x with
  | number v => exact Node.refusedBare_takeNumber item v
  | bindings l => exact Node.refusedBare_takeBindings l
  | remap l => exact .ite (.taken _) (.same _)
  | roster l => exact .ite (.taken _) (.same _)
  | outputs l => exact .ite (.taken _) (.same _)
  | inputs l => exact .ite (.taken _) (.same _)
  | classes l =>
    show n.RefusedBare (match checkBounds n.svc.pool l with
      | .done => (n.onSvc fun s => s.takeBounds l, .done)
      | st => (n, st))
    split
    · exact .taken _
    · exact .same _
  | _ => exact .taken _

theorem Node.refusedBare_writeItem (item : Nat) (op : SettingOp) (v : SettingValue) :
    n.RefusedBare (n.writeItem item op v) := by
  unfold Node.writeItem
  split
  · exact .same _
  · exact .ite (Node.refusedBare_takeValue item _) (.same _)

theorem Node.refusedBare_takeStored (r : List Byte) : n.RefusedBare (n.takeStored r) := by
  unfold Node.takeStored
  split
  · exact .same _
  · split
    · exact .same _
    · split
      · exact .same _
      · unfold Node.applyRecord
        split
        · exact .same _
        · split
          · split <;> exact .same _
          · exact Node.refusedBare_writeItem _ _ _

end

/-! ## STORE-APPEND (R192) -/

section
variable {n : Node} {m : Memory} {r : List Byte}

theorem Node.storeAppend_bad (h : recordOk r = false) : n.storeAppend m r = (n, some (.badArgument, .nil)) := if_pos h

theorem Node.storeAppend_full (h : recordOk r = true) (hfull : 4096 < storeEnd m + r.length) :
    n.storeAppend m r = (n, some (.storeFull, .nil)) :=
  (if_neg (by rw [h]; exact Bool.noConfusion)).trans (if_pos hfull)

variable (h : recordOk r = true) (hfits : storeEnd m + r.length ≤ 4096)
include h hfits

theorem Node.storeAppend_fits : n.storeAppend m r = match n.takeStored r with
    | (n', .done) => ({ n' with writing := some r }, none)
    | (n', st) => (n', some (st, .nil)) :=
  (if_neg (by rw [h]; exact Bool.noConfusion)).trans (if_neg (Nat.not_lt.2 hfits))

theorem Node.storeAppend_taken (hd : (n.takeStored r).2 = .done) :
    n.storeAppend m r = ({ (n.takeStored r).1 with writing := some r }, none) := by
  rw [Node.storeAppend_fits h hfits]
  generalize n.takeStored r = x at hd
  obtain ⟨n', st⟩ := x
  subst hd
  rfl

theorem Node.storeAppend_refused (hd : (n.takeStored r).2 ≠ .done) :
    n.storeAppend m r = ((n.takeStored r).1, some ((n.takeStored r).2, .nil)) := by
  rw [Node.storeAppend_fits h hfits]
  generalize n.takeStored r = x at hd
  obtain ⟨n', st⟩ := x
  cases st with
  | done => exact absurd rfl hd
  | _ => rfl

end

/-- R192: what a STORE-APPEND that is taken does. -/
theorem exec_storeAppend {s : State} {o : Origin} {r : List Byte} (ht : Takes s o (.storeAppend r)) :
    let n := s.node
    let run := exec (.storeAppend o r) s
    let refused (st : Status) : Host.Outcome State Fault Refusal := .next (s.replied n o (.storeAppend r) st .nil)
    (recordOk r = false → run = refused .badArgument) ∧
    (recordOk r = true → 4096 < storeEnd s.store + r.length → run = refused .storeFull) ∧
    (recordOk r = true → storeEnd s.store + r.length ≤ 4096 →
      let x := (n.onCmd fun k => k.setChannel o (some { origin := o, cmd := .storeAppend r })).takeStored r
      (x.2 = .done → run = .next (s.settled { x.1 with writing := some r })) ∧
      (x.2 ≠ .done → run = .next (s.replied { n with svc := x.1.svc } o (.storeAppend r) x.2 .nil))) := by
  have hrun : exec (.storeAppend o r) s = s.command o (.storeAppend r) := rfl
  have hperform (n : Node) : n.perform s.store o (.storeAppend r) = n.storeAppend s.store r := rfl
  dsimp only
  rw [hrun]
  refine ⟨fun h => State.command_replied ht s.node .badArgument .nil ht.free (Node.storeAppend_bad h),
    fun h hfull => State.command_replied ht s.node .storeFull .nil ht.free (Node.storeAppend_full h hfull),
    fun h hfits => ⟨fun hd => ?_, fun hd => ?_⟩⟩
  · rw [State.command_takes ht, Node.execute, hperform, Node.storeAppend_taken h hfits hd]
  · have hbare := Node.refusedBare_takeStored
      (n := s.node.onCmd fun k => k.setChannel o (some { origin := o, cmd := .storeAppend r })) r hd
    refine State.command_replied ht _ _ _ ht.free ?_
    rw [hperform, Node.storeAppend_refused h hfits hd]
    exact congrArg (·, _) hbare

/-! ## The writing ends (R192) -/

theorem State.writeDone_writing {s : State} {r : List Byte} (h : s.node.writing = some r) :
    s.writeDone = { s with store := s.written r, node := (s.node.writeDone (s.written r)).settle } := by
  unfold State.writeDone
  rw [h]

/-- R192: the end of a writing but for the record: no setting and no time changes. -/
theorem Node.keeps_writeDone (n : Node) (m : Memory) : Node.Keeps { n with writing := none } (n.writeDone m) := by
  unfold Node.writeDone
  dsimp only
  split
  · exact Node.keeps_endCommand ..
  · exact .refl _

theorem Node.writeDone_link {n : Node} {m : Memory} {tag : Nat} {r : List Byte}
    (h : n.cmd.chanL = some { origin := .link tag, cmd := .storeAppend r }) :
    n.writeDone m = (Node.onCmd { n with writing := none } fun k => k.setChannel (.link tag) none).pushReply
      { tag := tag, station := 0, cmd := .command (.storeAppend r), status := .done, restart := false,
        result := .list [.nat (storeEnd m), .nat (4096 - storeEnd m)] } := by
  unfold Node.writeDone
  simp only [h]
  exact Node.endCommand_channel (n := { n with writing := none }) (o := .link tag) h ..

/-- R192: the command that the link gave is replied DONE with the new end and what is left. -/
theorem Node.writeDone_replies {n : Node} {m : Memory} {tag : Nat} {r : List Byte}
    (h : n.cmd.chanL = some { origin := .link tag, cmd := .storeAppend r }) :
    (n.writeDone m).settle.cmd.chanL = none ∧ (n.writeDone m).settle.replying
      { tag := tag, station := 0, cmd := .command (.storeAppend r), status := .done, restart := false,
        result := .list [.nat (storeEnd m), .nat (4096 - storeEnd m)] } := by
  have hlink := Node.writeDone_link (m := m) h
  have hsettle := Node.keeps_settle (n.writeDone m)
  generalize (n.writeDone m).settle = t at hsettle ⊢
  rw [hlink] at hsettle
  exact ⟨hsettle.chanL rfl, hsettle.replying _ (.inl (List.mem_append_right _ (List.mem_singleton_self _)))⟩

/-- R192: what the end of a writing leaves. -/
theorem exec_storeWriteDone {r : List Byte} {s : State} (hw : s.node.writing = some r) (hok : StoreOk s)
    (hfits : storeEnd s.store + r.length ≤ 4096) (hblank : ∀ a, storeEnd s.store ≤ a → readByte s.store a = none) :
    ∃ t, exec .storeWriteDone s = .next t ∧ t.node.writing = none ∧ StoreOk t ∧
      (∀ k, k < r.length → readByte t.store (storeEnd s.store + k) = r[k]?) ∧
      (∀ a, a < storeEnd s.store ∨ storeEnd s.store + r.length ≤ a → readByte t.store a = readByte s.store a) ∧
      t.node.set = s.node.set ∧ t.node.svc.time = s.node.svc.time ∧
      (∀ tag, s.node.cmd.chanL = some { origin := .link tag, cmd := .storeAppend r } →
        t.node.cmd.chanL = none ∧ t.node.replying
          { tag := tag, station := 0, cmd := .command (.storeAppend r), status := .done, restart := false,
            result := .list [.nat (storeEnd t.store), .nat (4096 - storeEnd t.store)] }) := by
  have hread := readByte_writeBytes (l := r) hok hfits hblank
  have hkept := (Node.keeps_writeDone s.node (s.written r)).trans (Node.keeps_settle _)
  have hreplies (tag : Nat) := Node.writeDone_replies (n := s.node) (m := s.written r) (tag := tag) (r := r)
  refine ⟨_, congrArg Host.Outcome.next (State.writeDone_writing hw), ?_⟩
  dsimp only
  generalize (s.node.writeDone (s.written r)).settle = t at hkept hreplies ⊢
  refine ⟨hkept.writing, wf_writeBytes hok, fun k hk => ?_, fun a ha => (hread a).trans (if_neg (by omega)),
    hkept.svc.settings, hkept.svc.time, fun tag => hreplies tag⟩
  refine (hread _).trans ((if_pos (by omega)).trans ?_)
  rw [Nat.add_sub_cancel_left]

/-! ## Records at a start and of either role (R192, R194) -/

theorem Node.startRecord_unsound {m : Memory} {x : Nat × Nat} (n : Node) (h : soundRecord m x = none) :
    Node.startRecord m n x = { n with skipped := n.skipped + 1 } := by
  unfold Node.startRecord
  rw [h]

/-- R194 step 4: one sound record. -/
theorem Node.startRecord_spec {m : Memory} {x : Nat × Nat} {r : List Byte} (n : Node) (h : soundRecord m x = some r) :
    let t := n.takeStored r
    let known := (recordFields r).any fun x => decide (1 ≤ x.2.1 ∧ x.2.1 ≤ 3)
    (t.2 = .done → known = true → Node.startRecord m n x = { t.1 with applied := t.1.applied + 1 }) ∧
    (t.2 ≠ .done ∨ known = false → Node.startRecord m n x = { n with skipped := n.skipped + 1 }) := by
  dsimp only
  rw [← knownOperation_eq, Node.startRecord_sound n h]
  refine ⟨fun hd hk => if_pos ⟨hk, hd⟩, fun hbad => if_neg ?_⟩
  rintro ⟨hk, hd⟩
  rcases hbad with hbad | hbad
  · exact hbad hd
  · rw [hk] at hbad
    cases hbad

/-- R192: a record by its item. -/
theorem Node.takeStored_spec (n : Node) {r value : List Byte} {item opByte : Nat}
    (h : recordFields r = some (item, opByte, value)) :
    let t := n.takeStored r
    let given (v : Nat) : Prop := Config.parseSetting item .set value = .number v ∧
      ∃ low high, numberRange item = some (low, high) ∧ low ≤ v ∧ v ≤ high
    (nextStart item = true → t.1 = n ∧ (t.2 = .done ∨ t.2 = .badArgument) ∧ (t.2 = .done ↔ ∃ v, given v)) ∧
    (∀ k v, recordValue k r = some v ↔ item = k ∧ given v) ∧
    (nextStart item = false →
      (recordOp opByte = none → t = (n, .badArgument)) ∧
      (∀ op, recordOp opByte = some op →
        let w := n.settingWrite item op (Config.parseSetting item op value)
        (otherRole n.set.role item = false → t = (w.1, w.2.1)) ∧ (otherRole n.set.role item = true → t.1 = n))) := by
  intro t given
  have hgiven (v : Nat) : nextStartValue item value = some v ↔ given v := nextStartValue_eq_some
  refine ⟨fun hi => ?_, fun k v => (recordValue_eq_some h).trans (and_congr_right' (hgiven v)), fun hi =>
    ⟨fun ho => Node.takeStored_unknown h hi ho, fun op ho => ?_⟩⟩
  · have ht : t = (n, if (nextStartValue item value).isSome then .done else .badArgument) :=
      Node.takeStored_nextStart h hi
    rw [ht]
    simp only [← hgiven, ← Option.isSome_iff_exists]
    cases (nextStartValue item value).isSome <;> simp
  · have ht : t = n.applyRecord item op (Config.parseSetting item op value) := Node.takeStored_known h hi ho
    rw [ht]
    exact ⟨fun hr => Node.applyRecord_settingWrite op _ hi hr, fun hr => Node.applyRecord_otherRole op _ hr⟩

/-! ## The pool's classes (R127) -/

theorem Node.takeClasses_spec (n : Node) (l : List ClassBounds) :
    let t := n.takeValue 50 (.classes l)
    t.2 = checkBounds n.svc.pool l ∧ (t.2 ≠ .done → t.1 = n) ∧
    (t.2 = .done → t.1 = { n with svc := n.svc.takeBounds l }) := by
  have ht : n.takeValue 50 (.classes l) = match checkBounds n.svc.pool l with
    | .done => (n.onSvc fun s => s.takeBounds l, .done)
    | st => (n, st) := rfl
  dsimp only
  rw [ht]
  generalize checkBounds n.svc.pool l = st
  cases st with
  | done => exact ⟨rfl, fun h => absurd rfl h, fun _ => rfl⟩
  | _ => exact ⟨rfl, fun _ => rfl, fun h => nomatch h⟩

/-! ## Lines and kinds (R99) -/

theorem Node.takeRemap_spec (n : Node) (l : List (Option Nat)) :
    let lines := l.filterMap id
    let ok := (∀ k ∈ lines, 1 ≤ k ∧ k ≤ 8) ∧ lines.Nodup
    let t := n.takeValue 40 (.remap l)
    (¬ok → t = (n, .badArgument)) ∧ (ok → t.2 = .done ∧ t.1.set = { n.set with remap := l }) := by
  dsimp only
  rw [← remapOk_iff]
  have ht : n.takeValue 40 (.remap l) = n.takeRemap l := rfl
  rw [ht]
  refine ⟨fun h => n.takeRemap_bad h, fun h => ?_⟩
  rw [n.takeRemap_ok h]
  exact ⟨rfl, ((n.onSettings fun w => { w with remap := l }).detachChanged_spec n.set).1.set⟩

theorem Node.takeKinds_spec (n : Node) (l : List DeviceKind) :
    (n.takeValue 41 (.kinds l)).2 = .done ∧ (n.takeValue 41 (.kinds l)).1.set = { n.set with kinds := l } :=
  ⟨rfl, ((n.onSettings fun w => { w with kinds := l }).detachChanged_spec n.set).1.set⟩

end Sys2Proof.Machine


/-! SUPPORT. What the items of threshold rules (R159) and zone bindings (R78, R85) do when they are taken, with the statement
on stored records (R192, R194). -/

namespace Sys2Proof.Machine

/-! ## Threshold rules (R159) -/

theorem rules_inRange (l : List (Option RuleSpec)) :
    Candidate.inRange 71 (.rules l) = true ↔ ∀ r, some r ∈ l → 1 ≤ r.device ∧ r.device ≤ 8 ∧ r.hysteresis ≤ 1000 ∧
      1 ≤ r.hold ∧ r.hold ≤ 8 ∧ r.zone ≤ 8 ∧ inQuantityRange r.quantity r.level = true := by
  have hrule (r : RuleSpec) : ruleOk r = true ↔ 1 ≤ r.device ∧ r.device ≤ 8 ∧ r.hysteresis ≤ 1000 ∧
      1 ≤ r.hold ∧ r.hold ≤ 8 ∧ r.zone ≤ 8 ∧ inQuantityRange r.quantity r.level = true := by
    unfold ruleOk
    rw [Bool.and_eq_true, decide_eq_true_iff]
    tauto
  simp only [Candidate.inRange, List.all_eq_true]
  constructor
  · exact fun h r hr => (hrule r).1 (h (some r) hr)
  · intro h x hx
    cases x with
    | none => rfl
    | some r => exact (hrule r).2 (h r hx)

/-- R158: the zones are told of a change of the rules, which touches no setting. -/
theorem Node.onRules_spec (n : Node) (f : RuleSt → RuleSt) :
    n.onRules f = Node.onZone { n with svc := (f (n.svc, n.rules)).1, rules := (f (n.svc, n.rules)).2 }
      (handWeather n.set.rules n.rules (f (n.svc, n.rules)).1.settings.rules (f (n.svc, n.rules)).2) ∧
    (n.onRules f).rules = (f (n.svc, n.rules)).2 ∧ (n.onRules f).set = (f (n.svc, n.rules)).1.settings := by
  refine ⟨n.onRules_eq f, rfl, ?_⟩
  rw [Node.onRules_eq]
  exact (keeps_handWeather n.set.rules n.rules (f (n.svc, n.rules)).1.settings.rules (f (n.svc, n.rules)).2
    ((f (n.svc, n.rules)).1, n.zone)).settings

/-- R159: the rules and the services as a write of new rules leaves them, before R158 is applied. -/
structure RulesTaken (l : List (Option RuleSpec)) (x y : RuleSt) : Prop where
  same : ∀ k, ¬(1 ≤ k ∧ k ≤ 8 ∧ nth x.1.settings.rules k ≠ nth l k) →
    nth y.2 k = nth x.2 k ∧ nth y.1.settings.rules k = nth x.1.settings.rules k
  new : ∀ k, 1 ≤ k ∧ k ≤ 8 ∧ nth x.1.settings.rules k ≠ nth l k →
    nth y.2 k = (nth x.2 k).map (fun _ => { state := .clear, last := none, since := x.1.time }) ∧
    nth y.1.settings.rules k = (nth x.1.settings.rules k).map fun _ => (nth l k).getD none
  quiet : (∀ k spec, ¬((1 ≤ k ∧ k ≤ 8 ∧ nth x.1.settings.rules k ≠ nth l k) ∧ tripsRule x k spec)) →
    y.1 = x.1.withSettings y.1.settings
  one : ∀ k spec, (1 ≤ k ∧ k ≤ 8 ∧ nth x.1.settings.rules k ≠ nth l k) ∧ tripsRule x k spec →
    (∀ j sp, (1 ≤ j ∧ j ≤ 8 ∧ nth x.1.settings.rules j ≠ nth l j) ∧ tripsRule x j sp → j = k) →
    y.1 = (x.1.post .ruleClear (.rule k) [.nat spec.zone, .absent, .ruleClear .changed]).withSettings y.1.settings

theorem rulesTaken (l : List (Option RuleSpec)) (x : RuleSt) : RulesTaken l x ((places 8).foldl (takeRule l) x) := by
  have hall := foldl_takeRule l (places 8) x (nodup_places 8)
  have hquiet := foldl_takeRule_quiet l (places 8) x (nodup_places 8)
  have hone (k : Nat) (spec : RuleSpec) := foldl_takeRule_one (l := l) (x := x) (k := k) (spec := spec)
  dsimp only at hall hquiet hone
  generalize (places 8).foldl (takeRule l) x = y at hall hquiet hone ⊢
  obtain ⟨-, hsame, hnew⟩ := hall
  refine ⟨fun k h => hsame k ?_, fun k h => hnew k (mem_places.2 ⟨h.1, h.2.1⟩) h.2.2, fun h => ?_, fun k spec h hu => ?_⟩
  · by_cases hk : k ∈ places 8
    · exact .inr (not_not.1 fun hne => h ⟨(mem_places.1 hk).1, (mem_places.1 hk).2, hne⟩)
    · exact .inl hk
  · exact (hquiet fun k spec hk hc ht => h k spec ⟨⟨(mem_places.1 hk).1, (mem_places.1 hk).2, hc⟩, ht⟩).1
  · exact hone k spec h.1.1 h.1.2.1 h.1.2.2 h.2 fun j sp h1 h8 hne hc ht => hne (hu j sp ⟨⟨h1, h8, hc⟩, ht⟩)

/-- R159: what a new THRESHOLD-RULES does. -/
theorem Node.takeRules_answer (n : Node) (l : List (Option RuleSpec)) :
    let t := n.takeValue 71 (.rules l)
    let changed (k : Nat) : Prop := 1 ≤ k ∧ k ≤ 8 ∧ nth n.set.rules k ≠ nth l k
    t.2 = .done ∧
    (∀ k, ¬changed k → nth t.1.rules k = nth n.rules k ∧ nth t.1.set.rules k = nth n.set.rules k) ∧
    (∀ k, changed k → nth t.1.rules k = (nth n.rules k).map (fun _ =>
        { state := .clear, last := none, since := n.svc.time }) ∧
      nth t.1.set.rules k = (nth n.set.rules k).map fun _ => (nth l k).getD none) ∧
    (∃ x : Svc, t.1 = Node.onZone { n with svc := x, rules := t.1.rules }
        (handWeather n.set.rules n.rules t.1.set.rules t.1.rules) ∧
      let tripped (k : Nat) (spec : RuleSpec) : Prop := changed k ∧ nth n.set.rules k = some (some spec) ∧
        ∃ rec, nth n.rules k = some rec ∧ isTripped rec.state = true
      ((∀ k spec, ¬tripped k spec) → x = { n.svc with settings := t.1.set }) ∧
      (∀ k spec, tripped k spec → (∀ j sp, tripped j sp → j = k) → x =
        { n.svc.post .ruleClear (.rule k) [.nat spec.zone, .absent, .ruleClear .changed] with
          settings := t.1.set })) := by
  have ht : n.takeValue 71 (.rules l) = (n.onRules fun x => (places 8).foldl (takeRule l) x, .done) := n.takeRules_eq l
  have hspec := n.onRules_spec fun x => (places 8).foldl (takeRule l) x
  have htaken := rulesTaken l (n.svc, n.rules)
  dsimp only at hspec ⊢
  rw [ht]
  generalize (places 8).foldl (takeRule l) (n.svc, n.rules) = y at hspec htaken
  generalize (n.onRules fun x => (places 8).foldl (takeRule l) x) = m at hspec ⊢
  obtain ⟨hzone, hrules, hset⟩ := hspec
  dsimp only
  rw [hset, hrules]
  exact ⟨rfl, htaken.same, htaken.new, y.1, hzone, htaken.quiet, htaken.one⟩

/-! ## Pages given up (R85) -/

section
variable {d : Nat} {src : PageSrc} {x : ZoneSt}

theorem giveUpPage_eq (d : Nat) (src : PageSrc) (x : ZoneSt) : giveUpPage d src x =
    match (x.2.sign d).bind Sign.load with
    | some l =>
      if l.src = src then
        (x.1, x.2.changeSign d fun g => { g with load := some { l with src := .gone }, deferred := g.deferred + 1 })
      else (x.1.freeBuffers .sign 1, x.2)
    | none => (x.1.freeBuffers .sign 1, x.2) := by
  unfold giveUpPage
  rcases x.2.sign d with _ | ⟨normal, staged, wanted, held, attempts, _ | l, rest⟩ <;> rfl

theorem giveUpPage_loading {g : Sign} {l : Load} (hg : x.2.sign d = some g) (hl : g.load = some l)
    (hs : l.src = src) : giveUpPage d src x =
      (x.1, x.2.changeSign d fun g => { g with load := some { l with src := .gone }, deferred := g.deferred + 1 }) := by
  have hb : (x.2.sign d).bind Sign.load = some l := by rw [hg, Option.bind_some, hl]
  rw [giveUpPage_eq, hb]
  exact if_pos hs

theorem giveUpPage_free (h : ∀ g l, x.2.sign d = some g → g.load = some l → l.src ≠ src) :
    giveUpPage d src x = (x.1.freeBuffers .sign 1, x.2) := by
  rw [giveUpPage_eq]
  cases hb : (x.2.sign d).bind Sign.load with
  | none => rfl
  | some l =>
    obtain ⟨g, hg, hl⟩ := Option.bind_eq_some_iff.1 hb
    exact if_neg (h g l hg hl)

end

end Sys2Proof.Machine


/-! SUPPORT. What a new value of the zone bindings does (R78, R85), with the statement on stored records (R192, R194). -/

namespace Sys2Proof.Machine

/-! ## Whether a value is taken (R78) -/

/-- R78: a value of ZONE-BINDINGS that is refused for what it holds. -/
def BindingsBad (l : List Binding) : Prop :=
  32 < l.length ∨ (∃ b ∈ l, bindingOk b = false) ∨ ¬(l.map bindingKey).Nodup

theorem bindingsBad_iff (l : List Binding) : BindingsBad l ↔
    Config.bindingPlaces < l.length ∨ l.all bindingOk = false ∨ distinct (l.map bindingKey) = false := by
  have hall : l.all bindingOk = false ↔ ∃ b ∈ l, bindingOk b = false := List.all_eq_false.trans (by simp)
  have hdistinct : distinct (l.map bindingKey) = false ↔ ¬(l.map bindingKey).Nodup := by
    rw [← distinct_eq_true, Bool.not_eq_true]
  rw [hall, hdistinct]
  rfl

theorem bindings_inRange (l : List Binding) : Candidate.inRange 34 (.bindings l) = true ↔ ¬BindingsBad l := by
  rw [bindingsBad_iff]
  simp only [Candidate.inRange, Bool.and_eq_true, decide_eq_true_iff, not_or, Bool.not_eq_false, Nat.not_lt, and_assoc]

/-- R78: the bindings of signs that are new. -/
def askedFor (old new : List Binding) : List Binding := new.filter fun b => (bindingSign b).isSome && !old.contains b

/-- R78: the bindings of signs that are gone. -/
def lostFrom (old new : List Binding) : List Binding := old.filter fun b => (bindingSign b).isSome && !new.contains b

/-- R85: a sign binding that is gone gives up its page. -/
def giveUpBinding (z : ZoneSt) (b : Binding) : ZoneSt :=
  match bindingSign b with
  | some (k, d) => giveUpPage d (.binding k) z
  | none => z

/-- Whether a binding is of this sign. -/
def ofSign (d : Nat) : Binding → Bool
  | .sign _ e _ => e = d
  | .beacon _ _ _ _ => false

/-- Whether a binding is of this beacon. -/
def ofBeacon (k : Nat) : Binding → Bool
  | .sign _ _ _ => false
  | .beacon _ e _ _ => e = k

/-- The working settings with other bindings. -/
def withBindings (l : List Binding) (x : ZoneSt) : ZoneSt :=
  (x.1.withSettings { x.1.settings with bindings := l }, x.2)

/-- R78: every sign and every beacon that the bindings name works out again. -/
def workOutNamed (all : List Binding) (x : ZoneSt) : ZoneSt :=
  ((places 4).filter fun k => all.any (ofBeacon k)).foldl (fun y b => workOutBeacon b y)
    (((places 8).filter fun d => all.any (ofSign d)).foldl (fun y d => workOutSign d y) x)

section
variable {l : List Binding} {x : ZoneSt}

theorem takeBindings_bad (h : BindingsBad l) : takeBindings l x = (x, .badArgument) := if_pos ((bindingsBad_iff l).1 h)

variable (h : ¬BindingsBad l)
include h

theorem takeBindings_noRoom
    (hfew : (askSigns (askedFor x.1.settings.bindings l).length x.1).2 < (askedFor x.1.settings.bindings l).length) :
    takeBindings l x = (((askSigns (askedFor x.1.settings.bindings l).length x.1).1.freeBuffers .sign
      (askSigns (askedFor x.1.settings.bindings l).length x.1).2, x.2), .noRoom) :=
  (if_neg fun hb => h ((bindingsBad_iff l).2 hb)).trans (if_pos hfew)

/-- R78: a value that is taken. -/
theorem takeBindings_taken
    (hroom : (askedFor x.1.settings.bindings l).length ≤ (askSigns (askedFor x.1.settings.bindings l).length x.1).2) :
    takeBindings l x =
      (workOutNamed (x.1.settings.bindings ++ l) (withBindings l ((lostFrom x.1.settings.bindings l).foldl giveUpBinding
        ((askSigns (askedFor x.1.settings.bindings l).length x.1).1, x.2))), .done) :=
  (if_neg fun hb => h ((bindingsBad_iff l).2 hb)).trans (if_neg (Nat.not_lt.2 hroom))

end

/-! ## What a taken value leaves (R78, R80, R85, R95) -/

theorem Svc.keeps_askSigns (n : Nat) (s : Svc) : Svc.Keeps s (askSigns n s).1 := by
  induction n generalizing s with
  | zero => exact .refl s
  | succ n ih =>
    have hask := s.keeps_requestBuffers .sign 1
    unfold askSigns
    generalize s.requestBuffers .sign 1 = x at hask ⊢
    obtain ⟨t, _ | r⟩ := x
    · exact hask.trans (ih t)
    · exact hask

/-- R85: the pages given up leave the zones, the beacons, and the signs that no binding names. -/
theorem foldl_giveUpBinding (l : List Binding) (x : ZoneSt) :
    Svc.Keeps x.1 (l.foldl giveUpBinding x).1 ∧ (l.foldl giveUpBinding x).2.zones = x.2.zones ∧
    (l.foldl giveUpBinding x).2.beacons = x.2.beacons ∧
    ∀ d, (¬∃ z p, Binding.sign z d p ∈ l) → (l.foldl giveUpBinding x).2.sign d = x.2.sign d := by
  induction l generalizing x with
  | nil => exact ⟨.refl _, rfl, rfl, fun _ _ => rfl⟩
  | cons b l ih =>
    obtain ⟨hsvc, hzones, hbeacons, hsigns⟩ := ih (giveUpBinding x b)
    have hone : Svc.Keeps x.1 (giveUpBinding x b).1 ∧ (giveUpBinding x b).2.zones = x.2.zones ∧
        (giveUpBinding x b).2.beacons = x.2.beacons ∧
        ∀ d, (¬∃ z p, Binding.sign z d p = b) → (giveUpBinding x b).2.sign d = x.2.sign d := by
      cases b with
      | sign z d p =>
        obtain ⟨h1, h2, h3, h4⟩ := giveUpPage_spec d (.binding z) x
        exact ⟨h1, h2, h3, fun k hk => h4 k fun hkd => hk ⟨z, p, by rw [hkd]⟩⟩
      | beacon z b on off => exact ⟨.refl _, rfl, rfl, fun _ _ => rfl⟩
    obtain ⟨hsvc', hzones', hbeacons', hsigns'⟩ := hone
    refine ⟨hsvc'.trans hsvc, hzones.trans hzones', hbeacons.trans hbeacons', fun d hd => ?_⟩
    refine (hsigns d ?_).trans (hsigns' d ?_)
    · exact fun ⟨z, p, hm⟩ => hd ⟨z, p, List.mem_cons_of_mem _ hm⟩
    · exact fun ⟨z, p, he⟩ => hd ⟨z, p, he ▸ List.mem_cons_self⟩

theorem any_ofSign (all : List Binding) (d : Nat) : all.any (ofSign d) = true ↔ ∃ z p, .sign z d p ∈ all := by
  rw [List.any_eq_true]
  constructor
  · rintro ⟨b, hb, hd⟩
    cases b with
    | sign z e p =>
      obtain rfl : e = d := of_decide_eq_true hd
      exact ⟨z, p, hb⟩
    | beacon z e on off => cases hd
  · rintro ⟨z, p, hb⟩
    exact ⟨_, hb, decide_eq_true rfl⟩

theorem any_ofBeacon (all : List Binding) (k : Nat) :
    all.any (ofBeacon k) = true ↔ ∃ z on off, .beacon z k on off ∈ all := by
  rw [List.any_eq_true]
  constructor
  · rintro ⟨b, hb, hk⟩
    cases b with
    | sign z e p => cases hk
    | beacon z e on off =>
      obtain rfl : e = k := of_decide_eq_true hk
      exact ⟨z, on, off, hb⟩
  · rintro ⟨z, on, off, hb⟩
    exact ⟨_, hb, decide_eq_true rfl⟩

/-- R95: working out looks at the zones and the beacon's own record. -/
theorem Beacon.workedOut_zones {w : Settings} {z y : Zone} (h : y.zones = z.zones) (now b : Nat) (r : Beacon) :
    r.workedOut w y now b = r.workedOut w z now b := by
  have hactive : y.active = z.active := by
    funext k
    unfold Zone.active
    rw [h]
  have hzone : beaconZone w y b = beaconZone w z b := by
    unfold beaconZone
    rw [hactive]
  unfold Beacon.workedOut
  rw [hzone]

/-- R78, R80, R95: what the workings-out leave, by what the bindings name. -/
structure WorkedOutNamed (all : List Binding) (x y : ZoneSt) : Prop where
  svc : Svc.Keeps x.1 y.1
  pool : y.1.pool.cls .sign = x.1.pool.cls .sign
  quiet : (∀ d g, x.2.sign d = some g → (workedOut x.1.settings x.2 d g).state = g.state) → y.1 = x.1
  zones : y.2.zones = x.2.zones
  signOther : ∀ d, (¬∃ z p, .sign z d p ∈ all) → y.2.sign d = x.2.sign d
  signNamed : ∀ d, (∃ z p, .sign z d p ∈ all) → 1 ≤ d → d ≤ 8 →
    y.2.sign d = (x.2.sign d).map (workedOut x.1.settings x.2 d)
  beaconOther : ∀ b, (¬∃ z on off, .beacon z b on off ∈ all) → nth y.2.beacons b = nth x.2.beacons b
  beaconNamed : ∀ b, (∃ z on off, .beacon z b on off ∈ all) → 1 ≤ b → b ≤ 4 → nth y.2.beacons b =
    (nth x.2.beacons b).map fun r => if r.mode = .single then r else r.workedOut x.1.settings x.2 x.1.now b

theorem workedOutNamed (all : List Binding) (x : ZoneSt) : WorkedOutNamed all x (workOutNamed all x) := by
  have hmem8 (d : Nat) : (d ∈ (places 8).filter fun d => all.any (ofSign d)) ↔
      (1 ≤ d ∧ d ≤ 8) ∧ ∃ z p, .sign z d p ∈ all := by
    rw [List.mem_filter, mem_places, any_ofSign]
  have hmem4 (b : Nat) : (b ∈ (places 4).filter fun k => all.any (ofBeacon k)) ↔
      (1 ≤ b ∧ b ≤ 4) ∧ ∃ z on off, .beacon z b on off ∈ all := by
    rw [List.mem_filter, mem_places, any_ofBeacon]
  unfold workOutNamed
  have hnodup8 : ((places 8).filter fun d => all.any (ofSign d)).Nodup := (nodup_places 8).filter _
  have hnodup4 : ((places 4).filter fun k => all.any (ofBeacon k)).Nodup := (nodup_places 4).filter _
  generalize (places 8).filter (fun d => all.any (ofSign d)) = signs at hmem8 hnodup8 ⊢
  generalize (places 4).filter (fun k => all.any (ofBeacon k)) = beacons at hmem4 hnodup4 ⊢
  obtain ⟨hsvc, hpool, hzones, hbeacons, hsigns, hquiet⟩ := foldl_workOutSign signs x hnodup8
  obtain ⟨hsvc', hzones', hsigns', hbeacons'⟩ :=
    foldl_workOutBeacon beacons (signs.foldl (fun y d => workOutSign d y) x) hnodup4
  generalize signs.foldl (fun y d => workOutSign d y) x = u at hsvc hpool hzones hbeacons hsigns hquiet hsvc' hzones' hsigns' hbeacons' ⊢
  generalize beacons.foldl (fun y b => workOutBeacon b y) u = v at hsvc' hzones' hsigns' hbeacons' ⊢
  have hsame (d : Nat) : v.2.sign d = u.2.sign d := congrArg (fun s => (nth s d).getD none) hsigns'
  refine ⟨by rw [hsvc']; exact hsvc, by rw [hsvc']; exact hpool, fun h => hsvc'.trans (hquiet fun d g _ => h d g),
    hzones'.trans hzones, fun d hd => ?_, fun d hd h1 h8 => ?_, fun b hb => ?_, fun b hb h1 h4 => ?_⟩
  · rw [hsame, hsigns, if_neg fun h => hd ((hmem8 d).1 h).2]
  · rw [hsame, hsigns, if_pos ((hmem8 d).2 ⟨⟨h1, h8⟩, hd⟩)]
  · rw [hbeacons', hbeacons, if_neg fun h => hb ((hmem4 b).1 h).2]
  · rw [hbeacons', hbeacons, if_pos ((hmem4 b).2 ⟨⟨h1, h4⟩, hb⟩), hsvc.settings, hsvc.now]
    simp only [Beacon.workedOut_zones hzones]

/-- R78, R85: what a value of the bindings that is taken leaves. -/
theorem Node.takeBindings_spec {n : Node} {l : List Binding} (hgood : ¬BindingsBad l)
    (hroom : (askedFor n.set.bindings l).length ≤ (askSigns (askedFor n.set.bindings l).length n.svc).2) :
    let t := n.takeValue 34 (.bindings l)
    let old := n.set.bindings
    let y := (lostFrom old l).foldl giveUpBinding ((askSigns (askedFor old l).length n.svc).1, n.zone)
    t.2 = .done ∧ t.1.set = { n.set with bindings := l } ∧ t.1.svc.pool.cls .sign = y.1.pool.cls .sign ∧
    ((∀ d g, y.2.sign d = some g → (workedOut t.1.set n.zone d g).state = g.state) →
      t.1.svc = { y.1 with settings := t.1.set }) ∧
    t.1.zone.zones = n.zone.zones ∧
    (∀ d, let named := ∃ z p, .sign z d p ∈ old ++ l
      (¬named → t.1.zone.sign d = n.zone.sign d) ∧
      (∀ g, named → 1 ≤ d → d ≤ 8 → y.2.sign d = some g →
        t.1.zone.sign d = some (workedOut t.1.set n.zone d g))) ∧
    (∀ b r, nth n.zone.beacons b = some r →
      let named := ∃ z on off, .beacon z b on off ∈ old ++ l
      (¬named → nth t.1.zone.beacons b = some r) ∧
      (named → 1 ≤ b → b ≤ 4 → nth t.1.zone.beacons b = some
        (if r.mode = .single then r else r.workedOut t.1.set n.zone n.svc.now b))) := by
  intro t old y
  have ht : t = ({ n with svc := (workOutNamed (old ++ l) (withBindings l y)).1
                          zone := (workOutNamed (old ++ l) (withBindings l y)).2 }, .done) := by
    have htaken := takeBindings_taken (x := (n.svc, n.zone)) hgood hroom
    exact congrArg (fun r : ZoneSt × Status => ({ n with svc := r.1.1, zone := r.1.2 }, r.2)) htaken
  have hout := workedOutNamed (old ++ l) (withBindings l y)
  have hgiven : Svc.Keeps n.svc y.1 ∧ y.2.zones = n.zone.zones ∧ y.2.beacons = n.zone.beacons ∧
      ∀ d, (¬∃ z p, Binding.sign z d p ∈ lostFrom old l) → y.2.sign d = n.zone.sign d := by
    obtain ⟨hsvc, hrest⟩ := foldl_giveUpBinding (lostFrom old l) ((askSigns (askedFor old l).length n.svc).1, n.zone)
    exact ⟨(Svc.keeps_askSigns _ n.svc).trans hsvc, hrest⟩
  rw [ht]
  clear ht t
  generalize y = y at hout hgiven ⊢
  generalize workOutNamed (old ++ l) (withBindings l y) = u at hout ⊢
  obtain ⟨hkeeps, hzones, hbeacons, hsigns⟩ := hgiven
  have hset : u.1.settings = { n.set with bindings := l } := by
    have hy : y.1.settings = n.set := hkeeps.settings
    rw [hout.svc.settings, ← hy]
    rfl
  have hafter : (withBindings l y).1.settings = u.1.settings := hout.svc.settings.symm
  have hwork (d : Nat) (g : Sign) : workedOut (withBindings l y).1.settings (withBindings l y).2 d g =
      workedOut u.1.settings n.zone d g := by
    rw [hafter]
    exact workedOut_zones hzones d g
  refine ⟨rfl, hset, hout.pool, fun hq => ?_, hout.zones.trans hzones, fun d => ⟨fun hd => ?_, fun g hd h1 h8 hg => ?_⟩,
    fun b r hr => ⟨fun hb => ?_, fun hb h1 h4 => ?_⟩⟩
  · have hsame := hout.quiet fun d g hg => by
      rw [hwork]
      exact hq d g hg
    refine hsame.trans ?_
    show y.1.withSettings (withBindings l y).1.settings = _
    rw [hafter]
    rfl
  · refine (hout.signOther d hd).trans (hsigns d ?_)
    exact fun ⟨z, p, hm⟩ => hd ⟨z, p, List.mem_append_left _ (List.mem_filter.1 hm).1⟩
  · refine (hout.signNamed d hd h1 h8).trans ?_
    rw [show (withBindings l y).2.sign d = some g from hg, Option.map_some, hwork]
    rfl
  · refine (hout.beaconOther b hb).trans ?_
    rw [show (withBindings l y).2.beacons = n.zone.beacons from hbeacons]
    exact hr
  · refine (hout.beaconNamed b hb h1 h4).trans ?_
    rw [show (withBindings l y).2.beacons = n.zone.beacons from hbeacons, hr, Option.map_some, hafter,
      show (withBindings l y).1.now = n.svc.now from hkeeps.now,
      Beacon.workedOut_zones (show (withBindings l y).2.zones = n.zone.zones from hzones)]
    rfl

/-- R190: a write that no earlier check refuses, by its candidate. -/
theorem Node.settingWrite_spec {n : Node} {item : Nat} {op : SettingOp} (v : SettingValue) (h : n.WritesItem item op) :
    let c := candidate n.set n.svc.pool.bounds item op v
    let run := n.settingWrite item op v
    (c = none → run = (n, .badArgument, .nil)) ∧
    (∀ x, c = some x → x.inRange item = false → run = (n, .badArgument, .nil)) ∧
    (∀ x, c = some x → x.inRange item = true →
      run = ((n.takeValue item x).1, (n.takeValue item x).2, .nil)) := by
  intro c run
  have hrun : run = ((n.writeItem item op v).1, (n.writeItem item op v).2, .nil) := Node.settingWrite_writes v h
  rw [hrun]
  refine ⟨fun hc => ?_, fun x hc hr => ?_, fun x hc hr => ?_⟩
  · rw [Node.writeItem_bad fun x hx => absurd (hc.symm.trans hx) (by simp)]
  · rw [Node.writeItem_bad fun y hy => Option.some.inj (hc.symm.trans hy) ▸ hr]
  · rw [Node.writeItem_takes hc hr]

/-- Settles O60: the command, the end of the writing, the records by their items, and each list item as it is taken. -/
theorem storedRecordsAreWritten : Obligations.StoredRecordsAreWritten := by
  refine ⟨fun o r s h => exec_storeAppend h, fun r s hw hok hfits hblank => exec_storeWriteDone hw hok hfits hblank,
    fun mem n x => ⟨n.startRecord_unsound, fun r h => n.startRecord_spec h⟩,
    fun n r value item opByte h => n.takeStored_spec h, storedValue_eq, Node.takeRemap_spec, Node.takeKinds_spec,
    fun n l => ⟨fun hbad => ?_, fun hgood hfew => ?_, bindings_inRange l, fun hgood hroom =>
      Node.takeBindings_spec hgood hroom⟩,
    fun d src x => ⟨fun g k hg hk hs => giveUpPage_loading hg hk hs, giveUpPage_free⟩,
    fun n item op v h1 h2 h3 h4 => Node.settingWrite_spec v ⟨h1, h2, h3, h4⟩, Node.takeClasses_spec,
    fun n l => ⟨rules_inRange l, n.takeRules_answer l⟩⟩
  · have hrefused : takeBindings l (n.svc, n.zone) = ((n.svc, n.zone), .badArgument) := takeBindings_bad hbad
    exact congrArg (fun r : ZoneSt × Status => ({ n with svc := r.1.1, zone := r.1.2 }, r.2)) hrefused
  · have hrefused := takeBindings_noRoom (x := (n.svc, n.zone)) hgood hfew
    exact congrArg (fun r : ZoneSt × Status => ({ n with svc := r.1.1, zone := r.1.2 }, r.2)) hrefused

end Sys2Proof.Machine


/-! SUPPORT. A cycle period and a cycle's passage at a wayside (R3, R4, R13, R15, R21): node time, the direction a cycle takes,
and what WIN, CALL and ZONE do with it. -/

namespace Sys2Proof.Machine

/-! ## A cycle period (R4, R21) -/

theorem Node.turnedIf_idle (b : Bool) (r : Port) : r.idle.turnedIf b =
    if b then { r with sent := none, errLast := r.errNow, errNow := 0 } else { r with sent := none } := by
  cases b <;> rfl

theorem Node.setTime_turns {n : Node} {t : NodeTime} {b : Bool} (h : t.seconds ≠ n.svc.time.seconds ↔ b = true) :
    n.setTime t = { n with
      svc := { n.svc with time := t }, east := n.east.turnedIf b, west := n.west.turnedIf b } := by
  have hb : decide (t.seconds ≠ n.svc.time.seconds) = b := by
    rw [Bool.eq_iff_iff, decide_eq_true_iff]
    exact h
  rw [Node.setTime_eq, hb]

theorem advanceTime_eq (t : NodeTime) : advanceTime t = if decide (¬t.cycle < 3999) then
    { t with cycle := 0, seconds := (t.seconds + 1) % 4294967296 } else { t with cycle := t.cycle + 1 } := by
  by_cases h : t.cycle < 3999
  · rw [if_neg (by simp [h])]
    exact if_pos h
  · rw [if_pos (by simp [h])]
    exact if_neg h

/-- R21: node time advances, and the error windows turn over with the second. -/
theorem Node.passPeriod_eq (n : Node) :
    let last := decide (¬n.svc.time.cycle < 3999)
    let turn (r : Port) : Port :=
      if last then { r with sent := none, errLast := r.errNow, errNow := 0 } else { r with sent := none }
    n.passPeriod = { n with
      svc := { n.svc with
        now := n.svc.now + 1
        time := if last then { n.svc.time with cycle := 0, seconds := (n.svc.time.seconds + 1) % 4294967296 }
          else { n.svc.time with cycle := n.svc.time.cycle + 1 } }
      east := turn n.east, west := turn n.west } := by
  dsimp only
  have hturned : (advanceTime n.svc.time).seconds ≠ n.svc.time.seconds ↔
      decide (¬n.svc.time.cycle < 3999) = true := by
    rw [advanceTime_eq]
    by_cases h : n.svc.time.cycle < 3999
    · simp [h]
    · simp [h]
      omega
  rw [← advanceTime_eq, ← Node.turnedIf_idle, ← Node.turnedIf_idle]
  exact Node.setTime_turns hturned

theorem exec_cycleTimerTick {s : State} (h : s.node.phase = .started) (hw : s.node.isHead = false) :
    exec .cycleTimerTick s = .next { s with node := s.node.passPeriod } := by
  have hrun : exec .cycleTimerTick s = .next { s with node := s.node.tick } := rfl
  rw [hrun, Node.tick, if_pos ⟨h, hw⟩]

/-! ## A cycle arrives (R13, R15) -/

theorem Node.arrives_idle {n : Node} {p : PortId} (c : Cycle) (good : Bool) (errors : Nat)
    (hc : PortState.carries (n.port p).state = false) : n.arrives p c good errors = n.classify p good errors := by
  unfold Node.arrives
  rw [if_neg (ne_true_of_eq_false hc)]

/-- R21: the node as the marker of an arriving cycle leaves it. -/
def Node.marked (n : Node) (m : Marker) (good : Bool) : Node := if good then n.adoptTime m else n

theorem Node.arrives_carries {n : Node} {p : PortId} (c : Cycle) (good : Bool) (errors : Nat)
    (hc : PortState.carries (n.port p).state = true) :
    n.arrives p c good errors = ((n.marked c.marker good).directArrival p c).classify p good errors := by
  unfold Node.arrives
  rw [if_pos hc]
  rfl

theorem Node.marked_ring (n : Node) (m : Marker) (good : Bool) : (n.marked m good).ring.attach = n.ring.attach ∧
    (n.marked m good).ring.restoring = n.ring.restoring := by
  cases good
  · exact ⟨rfl, rfl⟩
  · have h := (n.adoptTime_spec m).1
    exact ⟨(congrArg Ring.attach h :), (congrArg Ring.restoring h :)⟩

theorem Node.marked_port (n : Node) (m : Marker) (good : Bool) (p : PortId) :
    ((n.marked m good).port p).state = (n.port p).state := by
  cases good
  · rfl
  · exact ((n.adoptTime_spec m).2.2.2.2 p).1

section
variable {n : Node} {p : PortId} (c : Cycle)

theorem Node.directArrival_relays (ha : n.ring.attach = .through ∨ n.ring.attach = .orphan)
    (hs : (n.port p).state = .align ∨ (n.port p).state = .run) :
    n.directArrival p c = (n.passCycle c).1.direct (otherPort p) (n.passCycle c).2 := by
  have hrelay : n.relay p c = (n.passCycle c).1.direct (otherPort p) (n.passCycle c).2 := if_pos hs
  unfold Node.directArrival
  rcases ha with ha | ha <;> rw [ha] <;> exact hrelay

theorem Node.directArrival_recover (ha : n.ring.attach = .through ∨ n.ring.attach = .orphan)
    (hs : (n.port p).state = .recover) : n.directArrival p c = n := by
  have hrelay : n.relay p c = n := if_neg (by rw [hs]; decide)
  unfold Node.directArrival
  rcases ha with ha | ha <;> rw [ha] <;> exact hrelay

theorem Node.directArrival_turns (ha : n.ring.attach = foldTo (otherPort p)) :
    n.directArrival p c = ((n.passCycle c).1.direct p (Cycle.turned (n.passCycle c).2)).direct (otherPort p)
      (Cycle.bare (Cycle.turned (n.passCycle c).2)) := by
  unfold Node.directArrival
  rw [ha]
  cases p <;> rfl

theorem Node.directArrival_failed (ha : n.ring.attach = foldTo p) :
    n.directArrival p c = if n.ring.restoring = true ∧ c.content ≠ none then n.openOut else n := by
  have hearly : n.earlyEnd c = if n.ring.restoring = true ∧ c.content ≠ none then n.openOut else n := by
    unfold Node.earlyEnd
    refine if_congr ?_ rfl rfl
    rw [Bool.and_eq_true, Option.isSome_iff_ne_none]
  unfold Node.directArrival
  rw [ha]
  cases p <;> exact hearly

end

/-- R13, R15: what a wayside does with an arriving cycle, by its attachment and its port. -/
theorem exec_cycleArrivesWayside {s : State} (h : s.node.phase = .started) (hw : s.node.isHead = false) (p : PortId)
    (c : Cycle) (good : Bool) (errors : Nat) :
    let st := (s.node.port p).state
    let n := s.node.marked c.marker good
    let x := n.passCycle c
    let run := exec (.cycleArrivesWayside p c good errors) s
    let ends (m : Node) : Host.Outcome State Fault Refusal := .next (s.settled (m.classify p good errors))
    (PortState.carries st = false → run = ends s.node) ∧
    (s.node.ring.attach = .through ∨ s.node.ring.attach = .orphan →
      (st = .align ∨ st = .run → run = ends (x.1.direct (otherPort p) x.2)) ∧ (st = .recover → run = ends n)) ∧
    (PortState.carries st = true → s.node.ring.attach = foldTo (otherPort p) →
      run = ends ((x.1.direct p (Cycle.turned x.2)).direct (otherPort p) (Cycle.bare (Cycle.turned x.2)))) ∧
    (PortState.carries st = true → s.node.ring.attach = foldTo p →
      run = ends (if s.node.ring.restoring = true ∧ c.content ≠ none then n.openOut else n)) := by
  have hrun : exec (.cycleArrivesWayside p c good errors) s = .next (s.settled (s.node.arrives p c good errors)) :=
    State.act_onRole (f := fun n => n.arrives p c good errors) h hw
  obtain ⟨hattach, hrestoring⟩ := s.node.marked_ring c.marker good
  have hport := s.node.marked_port c.marker good p
  have carries (hc : PortState.carries (s.node.port p).state = true) {m : Node}
      (hm : (s.node.marked c.marker good).directArrival p c = m) :
      exec (.cycleArrivesWayside p c good errors) s = .next (s.settled (m.classify p good errors)) := by
    rw [hrun, Node.arrives_carries c good errors hc, hm]
  dsimp only
  rw [← hattach, ← hrestoring]
  refine ⟨fun hc => ?_, fun ha => ⟨fun hs => ?_, fun hs => ?_⟩, fun hc ha => ?_, fun hc ha => ?_⟩
  · rw [hrun, Node.arrives_idle c good errors hc]
  · refine carries ?_ (Node.directArrival_relays c ha (by rw [hport]; exact hs))
    rcases hs with hs | hs <;> rw [hs] <;> rfl
  · exact carries (by rw [hs]; rfl) (Node.directArrival_recover c ha (by rw [hport]; exact hs))
  · exact carries hc (Node.directArrival_turns c ha)
  · exact carries hc (Node.directArrival_failed c ha)

/-- R14, R21: a good marker. -/
theorem Node.adoptTime_eq (n : Node) (m : Marker) :
    let turn (r : Port) : Port :=
      if m.time.seconds = n.svc.time.seconds then r else { r with errLast := r.errNow, errNow := 0 }
    n.adoptTime m = { n with
      svc := { n.svc with time := { seconds := m.time.seconds, cycle := m.time.cycle, sync := true } }
      east := turn n.east, west := turn n.west, ring := { n.ring with lastGood := n.svc.now } } := by
  dsimp only
  unfold Node.adoptTime
  rw [Node.setTime_eq]
  by_cases h : m.time.seconds = n.svc.time.seconds
  · simp [h, Port.turnedIf]
  · simp [h, Port.turnedIf, turnWindow]

/-! ## A full cycle passes (R3) -/

/-- R23: answering surveys changes the last survey answered alone. -/
theorem Node.answerSurveys_ring (n : Node) (fold : Nat) (data : List (Option Slot)) :
    ∃ k, (n.answerSurveys fold data).1 = { n with ring := { n.ring with lastSurvey := k } } := by
  have hone (x : Node × List (Option Slot)) (j : Nat) (k : Option Nat)
      (hx : x.1 = { n with ring := { n.ring with lastSurvey := k } }) :
      ∃ k', (Node.answerSurvey fold x j).1 = { n with ring := { n.ring with lastSurvey := k' } } := by
    unfold Node.answerSurvey
    split
    · exact ⟨k, hx⟩
    · dsimp only
      split
      · exact ⟨some j, by rw [hx]⟩
      · split
        · exact ⟨some j, by rw [hx]⟩
        · exact ⟨k, hx⟩
  unfold Node.answerSurveys
  have hfold (l : List Nat) (x : Node × List (Option Slot)) (k : Option Nat)
      (hx : x.1 = { n with ring := { n.ring with lastSurvey := k } }) :
      ∃ k', (l.foldl (Node.answerSurvey fold) x).1 = { n with ring := { n.ring with lastSurvey := k' } } := by
    induction l generalizing x k with
    | nil => exact ⟨k, hx⟩
    | cons j l ih =>
      obtain ⟨k', hk⟩ := hone x j k hx
      exact ih _ k' hk
  exact hfold _ (n, data) n.ring.lastSurvey rfl

/-- R3: WIN's part leaves the attachment and the phones. -/
theorem Node.winPassage_spec (n : Node) (c : Cycle) (k : Content) :
    (n.winPassage c k).1.ring.attach = n.ring.attach ∧ (n.winPassage c k).1.call = n.call ∧
      (n.winPassage c k).2.voice = k.voice := by
  have hdata := Node.WinStep.takeData n c.loop k.data
  obtain ⟨j, hsurvey⟩ := (n.takeData c.loop k.data).1.answerSurveys_ring c.marker.foldCount
    (n.takeData c.loop k.data).2
  have hmgmt := Node.WinStep.mgmtPassage ((n.takeData c.loop k.data).1.answerSurveys c.marker.foldCount
    (n.takeData c.loop k.data).2).1 c.loop k.mgmt
  have hplace := Node.WinStep.placeData (((n.takeData c.loop k.data).1.answerSurveys c.marker.foldCount
    (n.takeData c.loop k.data).2).1.mgmtPassage c.loop k.mgmt).1 c.loop
    ((n.takeData c.loop k.data).1.answerSurveys c.marker.foldCount (n.takeData c.loop k.data).2).2
  have hlast := hmgmt.trans hplace
  refine ⟨?_, ?_, rfl⟩
  · refine (congrArg Ring.attach hlast.ring).trans ?_
    rw [hsurvey]
    exact (congrArg Ring.attach hdata.ring :)
  · refine hlast.call.trans ?_
    rw [hsurvey]
    exact hdata.call

theorem Node.passage_later {n : Node} {c : Cycle} (k : Content) (h : n.firstPassage c = false) :
    n.passage c k = ((n.takeData c.loop k.data).1.onLoop c.loop fun w => { w with present := true },
      { k with data := (n.takeData c.loop k.data).2 }) := if_neg (ne_true_of_eq_false h)

theorem Node.passage_first {n : Node} {c : Cycle} (k : Content) (h : n.firstPassage c = true) : n.passage c k =
    match c.loop with
    | .inner => Node.winPassage { n with ring := n.ring.remember c } c k
    | .outer =>
      let x := Node.winPassage { n with ring := n.ring.remember c } c k
      let v : Node × List VoiceSlot :=
        if x.1.ring.attach = .orphan then (x.1, x.2.voice)
        else x.1.voicePassage c.marker.voiceCap x.2.voice
      let n := match c.marker.releaseTag with
        | some t => v.1.receiveTag t
        | none => v.1
      (n, { x.2 with voice := v.2 }) := if_pos h

/-- R3: the first passage of an inner cycle. -/
theorem Node.passage_inner {n : Node} {c : Cycle} (k : Content) (h : n.firstPassage c = true) (hl : c.loop = .inner) :
    n.passage c k = Node.winPassage { n with ring := { n.ring with lastInner := some c.marker.number } } c k := by
  have hring : n.ring.remember c = { n.ring with lastInner := some c.marker.number } := by
    unfold Ring.remember
    rw [hl]
  rw [Node.passage_first k h, hring, hl]

/-- R3, R56, R91: the first passage of an outer cycle. -/
theorem Node.passage_outer {n : Node} {c : Cycle} (k : Content) (h : n.firstPassage c = true) (hl : c.loop = .outer) :
    let cap := c.marker.voiceCap
    let w := Node.winPassage { n with ring :=
      { n.ring with lastOuter := some c.marker.number, lastCap := some cap } } c k
    let v := if n.ring.attach = .orphan then (w.1, w.2.voice)
      else [1, 2, 3, 4, 5, 6, 7, 8].foldl (Node.labelCheck cap) (w.1, w.2.voice)
    (w.1.ring.attach = n.ring.attach ∧ w.1.call = n.call ∧ w.2.voice = k.voice) ∧
    (c.marker.releaseTag = none → n.passage c k = (v.1, { w.2 with voice := v.2 })) ∧
    (∀ x, c.marker.releaseTag = some x → n.passage c k = (v.1.receiveTag x, { w.2 with voice := v.2 })) := by
  have hring : n.ring.remember c =
      { n.ring with lastOuter := some c.marker.number, lastCap := some c.marker.voiceCap } := by
    unfold Ring.remember
    rw [hl]
  have hspec := Node.winPassage_spec
    { n with ring := { n.ring with lastOuter := some c.marker.number, lastCap := some c.marker.voiceCap } } c k
  have hpass := Node.passage_first k h
  rw [hring, hl] at hpass
  dsimp only at hpass hspec ⊢
  generalize Node.winPassage
    { n with ring := { n.ring with lastOuter := some c.marker.number, lastCap := some c.marker.voiceCap } } c k = w
    at hpass hspec ⊢
  rw [hspec.1] at hpass
  refine ⟨hspec, fun ht => ?_, fun x ht => ?_⟩
  · rw [hpass, ht] <;> rfl
  · rw [hpass, ht] <;> rfl

end Sys2Proof.Machine


/-! SUPPORT. WIN's part of a passage (R34 to R36, R38, R40, R41): the token and clear-way fields, the choice of a message and
its placing, and the slot seen by a holder, with the statement on a wayside's cycles. -/

namespace Sys2Proof.Machine

/-! ## The token and clear-way fields (R34, R38) -/

section
variable (n : Node) (l : Loop) (m : Mgmt)

/-- R38: the clear-way field as a wayside without the token leaves it. -/
def Node.clearWayPassed : Option Nat :=
  if n.requesting l then (if m.clearWay = none then some n.me else m.clearWay)
  else if m.clearWay = some n.me then none else m.clearWay

theorem Node.writeClearWay_eq : n.writeClearWay l m = { m with clearWay := n.clearWayPassed l m } := by
  unfold Node.writeClearWay Node.clearWayPassed
  by_cases hr : n.requesting l = true
  · rw [if_pos hr, if_pos hr]
    obtain ⟨token, clearWay, lap⟩ := m
    cases clearWay <;> rfl
  · rw [if_neg hr, if_neg hr]
    split <;> rfl

/-- R34, R38: a slot that goes on with its token. -/
def Node.passed : Node × Mgmt := (n, { m with clearWay := n.clearWayPassed l m })

/-- R34, R41: a slot whose token is taken as directed. -/
def Node.tookDirected : Node × Mgmt := (n.takeDirected l, { m with token := .empty, clearWay := none })

theorem Node.passToken_eq : n.passToken l m = match m.token with
    | .empty => n.passed l m
    | .directed x => if x = n.me then n.tookDirected l m else n.passed l m
    | .free =>
      match m.clearWay with
      | some y => if y = n.me then n.tookDirected l m else (n, { m with token := .directed y })
      | none =>
        if (n.win.loop l).lapLock.isNone then
          if n.hasWork l then (n.takeNormal l m.lap, { m with token := .empty }) else n.passed l m
        else if n.requesting l then n.tookDirected l m
        else n.passed l m := by
  unfold Node.passToken Node.passed
  rw [Node.writeClearWay_eq] <;> rfl

/-- R34, R38: the token field, by what it carries. -/
theorem Node.passToken_spec :
    (m.token = .empty → n.passToken l m = n.passed l m) ∧
    (∀ x, m.token = .directed x → n.passToken l m = if x = n.me then n.tookDirected l m else n.passed l m) ∧
    (m.token = .free →
      (∀ y, m.clearWay = some y → n.passToken l m =
        if y = n.me then n.tookDirected l m else (n, { m with token := .directed y })) ∧
      (m.clearWay = none → (n.win.loop l).lapLock = none → n.passToken l m = if n.hasWork l then
        (n.takeNormal l m.lap, { m with token := .empty }) else n.passed l m) ∧
      (m.clearWay = none → (n.win.loop l).lapLock ≠ none → n.passToken l m =
        if n.requesting l then n.tookDirected l m else n.passed l m)) := by
  rw [Node.passToken_eq]
  refine ⟨fun h => by rw [h], fun x h => by rw [h], fun h => ⟨fun y hc => by rw [h, hc], fun hc hl => ?_,
    fun hc hl => ?_⟩⟩
  · rw [h, hc]
    exact if_pos (Option.isNone_iff_eq_none.2 hl)
  · rw [h, hc]
    exact if_neg fun hn => hl (Option.isNone_iff_eq_none.1 hn)

/-- R34: what has become of a loop without a holding: none still, a normal one, or a directed one with its lock. -/
def TakenOrNot (v : LoopSt) : Prop :=
  v.holding = none ∨ ∃ h, v.holding = some h ∧ (h.directed = true → v.cwLock = true)

theorem Node.takenOrNot_passToken (h : (n.win.loop l).holding = none) :
    TakenOrNot ((n.passToken l m).1.win.loop l) := by
  have hpass : TakenOrNot ((n.passed l m).1.win.loop l) := .inl h
  have hdirected : TakenOrNot ((n.tookDirected l m).1.win.loop l) := by
    refine .inr ⟨n.newHolding true, ?_, fun _ => ?_⟩
    · exact congrArg LoopSt.holding (n.loop_onLoop l _)
    · exact congrArg LoopSt.cwLock (n.loop_onLoop l _)
  have hnormal : TakenOrNot ((n.takeNormal l m.lap).win.loop l) := by
    refine .inr ⟨n.newHolding false, ?_, fun hd => Bool.noConfusion hd⟩
    exact congrArg LoopSt.holding (n.loop_onLoop l _)
  rw [Node.passToken_eq]
  split
  · exact hpass
  · split
    · exact hdirected
    · exact hpass
  · split
    · split
      · exact hdirected
      · exact .inl h
    · split
      · split
        · exact hnormal
        · exact hpass
      · split
        · exact hdirected
        · exact hpass

/-- R41: FREE or DIRECTED ends the clear-way lock, unless the token is taken as directed. -/
theorem Node.passLock_eq (h : (n.win.loop l).holding = none) :
    n.passLock l m = ((n.passToken l m).1.onLoop l fun v => { v with
      cwLock := decide (v.holding.map Holding.directed = some true) || (v.cwLock && decide (m.token = .empty)) },
      (n.passToken l m).2) := by
  have htaken := n.takenOrNot_passToken l m h
  unfold Node.passLock
  generalize n.passToken l m = x at htaken ⊢
  have hlock (b : Bool) : (if decide (m.token ≠ .empty) then false else b) = (b && decide (m.token = .empty)) := by
    by_cases ht : m.token = .empty <;> simp [ht]
  rcases htaken with hnone | ⟨g, hsome, hdir⟩
  · simp only [hnone]
    refine congrArg (·, x.2) (Node.onLoop_congr _ _ ?_)
    rw [hnone, hlock]
    simp
  · simp only [hsome]
    refine congrArg (·, x.2) (Node.onLoop_congr _ _ ?_)
    rw [hsome]
    cases hd : g.directed with
    | true => simp [hd, hdir hd]
    | false => simp [hd, Bool.and_comm]

/-- R34: the loop as a passage's management slot leaves it before its token is looked at. -/
def Node.seen : Node := n.onLoop l fun v => { v with
  present := true, lastSeen := n.svc.now, lastLap := some m.lap
  lapLock := if v.lapLock = some m.lap then some m.lap else none }

theorem Node.mgmtPassage_eq : n.mgmtPassage l m = match (n.win.loop l).holding with
    | some h => (n.seen l m).holderPassage l h m
    | none => (n.seen l m).passLock l m := by
  have hseen : (n.onLoop l fun s => { s with present := true, lastSeen := n.svc.now, lastLap := some m.lap,
                                             lapLock := s.lapLock.filter (· = m.lap) }) = n.seen l m := by
    refine Node.onLoop_congr _ _ ?_
    have hlap : (n.win.loop l).lapLock.filter (· = m.lap) =
        if (n.win.loop l).lapLock = some m.lap then some m.lap else none := by
      cases hl : (n.win.loop l).lapLock with
      | none => rfl
      | some k => by_cases hk : k = m.lap <;> simp [hk, Option.filter]
    rw [hlap]
  have hholding : ((n.seen l m).win.loop l).holding = (n.win.loop l).holding := by
    unfold Node.seen
    rw [Node.loop_onLoop]
  unfold Node.mgmtPassage
  dsimp only
  rw [hseen, hholding] <;> rfl

end

/-! ## The choice of a message (R35) -/

section
variable (n : Node) (l : Loop) (h : Holding)

theorem Holding.fits_eq (k : Nat) : h.fits k = decide (h.started = false ∨ h.quota + k ≤ h.burst) := by
  unfold Holding.fits
  cases h.started <;> simp

theorem Node.choose_handOver (ho : h.handOver ≠ none) : n.choose l h = (n, none) :=
  if_pos (Option.isSome_iff_ne_none.2 ho)

variable {h} (ho : h.handOver = none)
include ho

theorem Node.choose_urgent {m : QMsg} (hm : (n.svc.queues.emergency.find? fun m => m.begun.isNone) = some m) :
    n.choose l h = (n, some { src := .emergency m.id, slots := slotsOf m.msg }) := by
  unfold Node.choose
  rw [ho, hm]
  rfl

theorem Node.choose_quiet (hm : (n.svc.queues.emergency.find? fun m => m.begun.isNone) = none) : n.choose l h =
    if h.directed then (n, none)
    else match n.win.survey, l with
      | some k, .outer =>
        if h.fits 8 then (n, some { src := .survey, slots := surveySlots n.me k }) else (n, none)
      | _, _ => Node.chooseNormal l h n.svc.queues.normal n := by
  unfold Node.choose
  rw [ho, hm] <;> rfl

variable (hm : (n.svc.queues.emergency.find? fun m => m.begun.isNone) = none) (hd : h.directed = false)
include hm hd

theorem Node.choose_survey {k : Nat} (hk : n.win.survey = some k) (hl : l = .outer) : n.choose l h =
    (n, if h.fits 8 then some { src := .survey, slots := surveySlots n.me k } else none) := by
  subst hl
  rw [n.choose_quiet _ ho hm, hd, hk]
  refine (if_neg Bool.false_ne_true).trans ?_
  refine Eq.trans (b := if h.fits 8 then (n, some { src := .survey, slots := surveySlots n.me k }) else (n, none)) rfl ?_
  split <;> rfl

theorem Node.choose_normal (hk : n.win.survey = none ∨ l = .inner) :
    n.choose l h = Node.chooseNormal l h n.svc.queues.normal n := by
  rw [n.choose_quiet _ ho hm, hd]
  refine (if_neg Bool.false_ne_true).trans ?_
  rcases hk with hk | hk
  · rw [hk]
  · subst hk
    cases n.win.survey <;> rfl

end

theorem Node.chooseNormal_begun (l : Loop) (h : Holding) {m : QMsg} (rest : List NEntry) (n : Node)
    (hb : m.begun ≠ none) : Node.chooseNormal l h (.msg m :: rest) n = Node.chooseNormal l h rest n := by
  rw [Node.chooseNormal, if_pos (Option.isSome_iff_ne_none.2 hb)]

theorem Node.chooseNormal_next (l : Loop) (h : Holding) {m : QMsg} (rest : List NEntry) (n : Node)
    (hb : m.begun = none) : Node.chooseNormal l h (.msg m :: rest) n =
      (n, if h.fits m.msg.length then some { src := .normal m.id, slots := slotsOf m.msg } else none) := by
  rw [Node.chooseNormal, if_neg (by simp [hb])]
  split <;> rfl

/-! ## Placing (R35) -/

section
variable {n : Node} {l : Loop} {room : Nat} {rest : List (Option Slot)} {h : Holding}

theorem Node.place_full (n : Node) (l : Loop) (data : List (Option Slot)) : Node.place l 0 data n = (n, data) := by
  cases data <;> (unfold Node.place; rfl)

variable (hh : (n.win.loop l).holding = some h)
include hh

theorem Node.place_begun {b : Begun} (hb : h.begun = some b) : Node.place l (room + 1) (none :: rest) n =
    ((Node.place l room rest (n.placeNext l h b).1).1,
      (n.placeNext l h b).2 :: (Node.place l room rest (n.placeNext l h b).1).2) := by
  rw [Node.place, hh]
  simp only [hb]

theorem Node.place_none (hb : h.begun = none) {m : Node} (hc : n.choose l h = (m, none)) :
    Node.place l (room + 1) (none :: rest) n = (m, none :: rest) := by
  rw [Node.place, hh]
  simp only [hb, hc]

theorem Node.place_chosen (hb : h.begun = none) {m : Node} {b : Begun} (hc : n.choose l h = (m, some b)) :
    Node.place l (room + 1) (none :: rest) n =
      ((Node.place l room rest ((m.firstPlaced l b).placeNext l { h with started := true } b).1).1,
        ((m.firstPlaced l b).placeNext l { h with started := true } b).2 ::
          (Node.place l room rest ((m.firstPlaced l b).placeNext l { h with started := true } b).1).2) := by
  rw [Node.place, hh]
  simp only [hb, hc]

end

theorem Node.placeNext_goes (n : Node) (l : Loop) (h : Holding) {b : Begun} {s x : Slot} {y : List Slot}
    (hb : b.slots = s :: x :: y) : n.placeNext l h b =
      (n.onLoop l fun w => { w with
        holding := some { h with begun := some { b with slots := x :: y }, quota := h.quota + 1 } }, some s) := by
  unfold Node.placeNext
  rw [hb] <;> rfl

theorem Node.placeNext_last (n : Node) (l : Loop) (h : Holding) {b : Begun} {s : Slot} (hb : b.slots = [s]) :
    n.placeNext l h b =
      ((n.onLoop l fun w => { w with holding := some { h with begun := none, quota := h.quota + 1 } }).messageOver b.src,
        some s) := by
  unfold Node.placeNext
  rw [hb] <;> rfl

/-! ## The slot seen by a holder (R36, R40) -/

section
variable (n : Node) (l : Loop) (h : Holding) {m : Mgmt}

/-- R36, R40: the clear-way field as a holder leaves it. -/
def Node.ownCleared (m : Mgmt) : Option Nat := if m.clearWay = some n.me then none else m.clearWay

/-- R40: the holding with the station that clear-way names. -/
def Node.named (m : Mgmt) : Holding :=
  { h with handOver := h.handOver.orElse fun _ => m.clearWay.filter (· ≠ n.me) }

theorem Node.ownCleared_eq (m : Mgmt) : (if m.clearWay = some n.me then { m with clearWay := none } else m) =
    { m with clearWay := n.ownCleared m } := by
  unfold Node.ownCleared
  split <;> rfl

theorem Node.holderPassage_other (ht : m.token ≠ .empty) : n.holderPassage l h m = (n.discardToken l, m) := if_pos ht

section
variable {h} (ht : m.token = .empty)
include ht

theorem Node.holderPassage_begun {b : Begun} (hb : h.begun = some b) : n.holderPassage l h m =
    (n.setHolding l (some (n.named h m)), { m with clearWay := n.ownCleared m }) := by
  obtain ⟨directed, quota, burst, started, begun, handOver⟩ := h
  subst hb
  unfold Node.holderPassage
  rw [if_neg (not_not.2 ht), ← Node.ownCleared_eq] <;> rfl

theorem Node.holderPassage_handsOver {y : Nat} (hb : h.begun = none) (hy : (n.named h m).handOver = some y) :
    n.holderPassage l h m = (n.setHolding l none, { m with token := .directed y, clearWay := n.ownCleared m }) := by
  obtain ⟨directed, quota, burst, started, begun, handOver⟩ := h
  subst hb
  dsimp only [Node.named] at hy
  unfold Node.holderPassage
  rw [if_neg (not_not.2 ht)]
  simp only [hy, Node.ownCleared_eq]
  exact congrArg (·, _) (Node.onLoop_onLoop n l _ _)

theorem Node.holderPassage_free (hb : h.begun = none) (hy : (n.named h m).handOver = none)
    (hc : (n.setHolding l (some (n.named h m))).choose l (n.named h m) = (n.setHolding l (some (n.named h m)), none)) :
    n.holderPassage l h m = (n.setHolding l none, { m with token := .free, clearWay := n.ownCleared m }) := by
  obtain ⟨directed, quota, burst, started, begun, handOver⟩ := h
  subst hb
  dsimp only [Node.named] at hy hc
  unfold Node.holderPassage
  rw [if_neg (not_not.2 ht)]
  simp only [hy, Node.ownCleared_eq] at hc ⊢
  simp only [hc]
  exact congrArg (·, _) (Node.onLoop_onLoop n l _ _)

end
end

end Sys2Proof.Machine


/-! SUPPORT. The statement on a wayside's cycle periods and cycles (R3, R4, R13, R15, R21, R34 to R41). -/

namespace Sys2Proof.Machine

theorem Node.winPassage_eq (n : Node) (c : Cycle) (k : Content) :
    let a := n.takeData c.loop k.data
    let b := a.1.answerSurveys c.marker.foldCount a.2
    let m := b.1.mgmtPassage c.loop k.mgmt
    let d := m.1.placeData c.loop b.2
    n.winPassage c k = (d.1, { k with mgmt := m.2, data := d.2 }) := rfl

theorem Node.firstPassage_eq (n : Node) (c : Cycle) : n.firstPassage c =
    match (match c.loop with | .outer => n.ring.lastOuter | .inner => n.ring.lastInner) with
    | none => true
    | some last => decide (4000 ≤ (last + 65536 - c.marker.number) % 65536) := by
  unfold Node.firstPassage Ring.lastNumber
  cases c.loop <;> rfl

/-- R36: a holder's token is discarded and counted. -/
theorem Node.discardToken_spec (n : Node) (l : Loop) :
    ((n.discardToken l).win.loop l).holding = none ∧ (n.discardToken l).win.duplicate = bump 65535 n.win.duplicate := by
  have hwin : (n.discardToken l).win = { (n.endHolding l).win with
      duplicate := bump 65535 (n.endHolding l).win.duplicate } := rfl
  rw [hwin, Node.endHolding_win]
  cases l <;> exact ⟨rfl, rfl⟩

section
variable {n : Node} {l : Loop} {m : Mgmt} {h : Holding}

/-- R40: a holder with nothing under way hands its token over. -/
theorem Node.holderPassage_names (ht : m.token = .empty) (hb : h.begun = none) {y : Nat}
    (hy : h.handOver = some y ∨ (h.handOver = none ∧ m.clearWay = some y ∧ y ≠ n.me)) : n.holderPassage l h m =
      (n.onLoop l fun w => { w with holding := none }, { m with token := .directed y, clearWay := n.ownCleared m }) := by
  refine Node.holderPassage_handsOver n l ht hb ?_
  unfold Node.named
  rcases hy with hy | ⟨ho, hc, hne⟩
  · rw [hy]
    rfl
  · rw [ho, hc]
    simp [hne]

/-- R36: a holder with nothing left to send releases its token. -/
theorem Node.holderPassage_releases (ht : m.token = .empty) (hb : h.begun = none) (ho : h.handOver = none)
    (hc : m.clearWay = none ∨ m.clearWay = some n.me) (he : n.svc.queues.emergency = [])
    (hq : n.svc.queues.normal = []) (hs : n.win.survey = none) : n.holderPassage l h m =
      (n.onLoop l fun w => { w with holding := none }, { m with token := .free, clearWay := none }) := by
  have hnamed : (n.named h m).handOver = none := by
    unfold Node.named
    rw [ho]
    rcases hc with hc | hc <;> rw [hc] <;> simp
  have hown : n.ownCleared m = none := by
    unfold Node.ownCleared
    rcases hc with hc | hc <;> rw [hc] <;> simp
  have hurgent : ((n.setHolding l (some (n.named h m))).svc.queues.emergency.find? fun m => m.begun.isNone) = none :=
    congrArg (List.find? fun m => m.begun.isNone) he
  have hsurvey : (n.setHolding l (some (n.named h m))).win.survey = none := by
    cases l <;> exact hs
  have hnormal : (n.setHolding l (some (n.named h m))).svc.queues.normal = [] := hq
  have hchoose : (n.setHolding l (some (n.named h m))).choose l (n.named h m) =
      (n.setHolding l (some (n.named h m)), none) := by
    by_cases hd : (n.named h m).directed = true
    · rw [Node.choose_quiet _ l hnamed hurgent, if_pos hd]
    · rw [Node.choose_normal _ l hnamed hurgent (Bool.eq_false_iff.2 hd) (.inl hsurvey), hnormal]
      rfl
  rw [Node.holderPassage_free n l ht hb hnamed hchoose, hown]
  rfl

end

/-- R34, R41: the management slot of a passage. -/
theorem Node.managementSlot (n : Node) (l : Loop) (m : Mgmt) :
    ((n.win.loop l).holding = none → n.mgmtPassage l m = (n.seen l m).passLock l m) ∧
    (∀ h, (n.win.loop l).holding = some h → n.mgmtPassage l m = (n.seen l m).holderPassage l h m) := by
  rw [Node.mgmtPassage_eq]
  exact ⟨fun h => by rw [h], fun h hh => by rw [hh]⟩

/-- R35: which message a holder begins. -/
theorem Node.choose_spec (n : Node) (l : Loop) (h : Holding) :
    let urgent := n.svc.queues.emergency.find? fun m => m.begun.isNone
    let run := n.choose l h
    (h.handOver ≠ none → run = (n, none)) ∧
    (h.handOver = none → ∀ m, urgent = some m → run = (n, some { src := .emergency m.id, slots := slotsOf m.msg })) ∧
    (h.handOver = none → urgent = none → h.directed = true → run = (n, none)) ∧
    (h.handOver = none → urgent = none → h.directed = false →
      (∀ k, n.win.survey = some k → l = .outer →
        run = (n, if h.fits 8 then some { src := .survey, slots := surveySlots n.me k } else none)) ∧
      (n.win.survey = none ∨ l = .inner → run = Node.chooseNormal l h n.svc.queues.normal n)) := by
  refine ⟨n.choose_handOver l h, fun ho m => n.choose_urgent l ho, fun ho hu hd => ?_, fun ho hu hd =>
    ⟨fun k hk hl => n.choose_survey l ho hu hd hk hl, n.choose_normal l ho hu hd⟩⟩
  exact (n.choose_quiet l ho hu).trans (if_pos hd)

/-- R35: how a holder places. -/
theorem Node.place_spec_slots (n : Node) (l : Loop) (room : Nat) (rest : List (Option Slot)) (h : Holding)
    (hh : (n.win.loop l).holding = some h) :
    let holds (g : Holding) (m : Node) : Node := m.onLoop l fun w => { w with holding := some g }
    let run := Node.place l (room + 1) (none :: rest) n
    let next (m : Node) (s : Slot) : Node × List (Option Slot) :=
      ((Node.place l room rest m).1, some s :: (Node.place l room rest m).2)
    (∀ b s x y, h.begun = some b → b.slots = s :: x :: y →
      run = next (holds { h with begun := some { b with slots := x :: y }, quota := h.quota + 1 } n) s) ∧
    (∀ b s, h.begun = some b → b.slots = [s] →
      run = next ((holds { h with begun := none, quota := h.quota + 1 } n).messageOver b.src) s) ∧
    (h.begun = none → ∀ m, n.choose l h = (m, none) → run = (m, none :: rest)) ∧
    (h.begun = none → ∀ m b s x y, n.choose l h = (m, some b) →
      b.slots = s :: x :: y → run = next (holds { h with
        started := true, begun := some { b with slots := x :: y }, quota := h.quota + 1 } (m.firstPlaced l b)) s) ∧
    (h.begun = none → ∀ m b s, n.choose l h = (m, some b) → b.slots = [s] →
      run = next ((holds { h with started := true, quota := h.quota + 1 } (m.firstPlaced l b)).messageOver b.src) s) := by
  dsimp only
  refine ⟨fun b s x y hb hs => ?_, fun b s hb hs => ?_, fun hb m hc => Node.place_none hh hb hc,
    fun hb m b s x y hc hs => ?_, fun hb m b s hc hs => ?_⟩
  · rw [Node.place_begun hh hb, Node.placeNext_goes n l h hs]
  · rw [Node.place_begun hh hb, Node.placeNext_last n l h hs]
  · rw [Node.place_chosen hh hb hc, Node.placeNext_goes _ l _ hs]
  · rw [Node.place_chosen hh hb hc, Node.placeNext_last _ l _ hs, ← hb]

/-- Settles O16: the period and the arrival by the attachment, and WIN's part case by case. -/
theorem waysideTimeAdvances : Obligations.WaysideTimeAdvances := by
  refine ⟨fun s h hw _ => ?_, fun p c good errors s h hw => ?_,
    fun n m p c => ⟨n.adoptTime_eq m, rfl, rfl⟩, Node.firstPassage_eq,
    fun n c k => ⟨n.winPassage_eq c k, fun hf => Node.passage_later k hf, fun hf hl => Node.passage_inner k hf hl,
      fun hf hl => Node.passage_outer k hf hl⟩, fun n l m => ?_, fun n l data => ?_, fun n l h => ?_,
    fun n l room rest h => ?_, fun n l m h => ?_⟩
  · exact (exec_cycleTimerTick h hw).trans (congrArg (fun n => Host.Outcome.next { s with node := n })
      s.node.passPeriod_eq)
  · intro st q n x back run ends
    obtain ⟨hidle, hrelay, hturn, hfailed⟩ := exec_cycleArrivesWayside h hw p c good errors
    exact ⟨hidle, hrelay, hturn, hfailed⟩
  · obtain ⟨hempty, hdirected, hfree⟩ := n.passToken_spec l m
    exact ⟨hempty, hdirected, hfree, n.passLock_eq l m, n.managementSlot l m⟩
  · obtain ⟨hlength, hkept, hroom⟩ := Node.place_spec l 4 data n
    exact ⟨hlength, hkept, hroom, Node.place_of_none l 4 data n⟩
  · intro urgent fits run
    have hfits (k : Nat) : fits k = h.fits k := (h.fits_eq k).symm
    obtain ⟨hhand, hurgent, hdirected, hnormal⟩ := n.choose_spec l h
    simp only [hfits]
    exact ⟨hhand, hurgent, hdirected, hnormal, rfl, fun m rest =>
      ⟨Node.chooseNormal_begun l h rest n, Node.chooseNormal_next l h rest n⟩⟩
  · have hslots := n.place_spec_slots l room rest h
    refine ⟨fun data => rfl, fun s => by rw [Node.place], n.place_full l rest, by cases room <;> rfl, ?_⟩
    exact ⟨fun hh => (hslots hh).1, fun hh => (hslots hh).2.1, fun hh => (hslots hh).2.2.1,
      fun hh => (hslots hh).2.2.2.1, fun hh => (hslots hh).2.2.2.2⟩
  · refine ⟨fun ht hh => ?_, fun ht hb y hy => Node.holderPassage_names ht hb hy, fun ht b hb => ?_,
      fun ht hb ho hc he hq hs => Node.holderPassage_releases ht hb ho hc he hq hs⟩
    · rw [Node.holderPassage_other n l h ht]
      exact ⟨rfl, n.discardToken_spec l⟩
    · exact ⟨n.named h m, hb, Node.holderPassage_begun n l ht hb⟩

end Sys2Proof.Machine


/-! SUPPORT. A cycle period at the head-end (R1, R17, R20, R90): what is originated, and out of which ports. -/

namespace Sys2Proof.Machine

/-! ## Parts of an originated cycle -/

theorem Node.length_originateWindow (n : Node) (l : Loop) (slots : Nat) :
    (n.originateWindow l slots).2.2.length = slots := by
  have hplace := (Node.place_spec l Config.slotsPerCycle (List.replicate slots none)
    (n.originateMgmt l n.head.number).1).1
  exact hplace.trans List.length_replicate

/-- R90: what the end of a tag's writing leaves. -/
structure Node.TagWritten (n m : Node) : Prop where
  head : m.head = { n.head with tag := none }
  time : m.svc.time = n.svc.time
  set : m.set = n.set
  port : ∀ p, m.port p = n.port p

theorem Node.tagWritten (n : Node) : Node.TagWritten n n.releaseWritten := by
  have hport := n.releaseWritten_rest.1
  suffices h : n.releaseWritten.head = { n.head with tag := none } ∧ Svc.Keeps n.svc n.releaseWritten.svc from
    ⟨h.1, h.2.time, h.2.settings, hport⟩
  unfold Node.releaseWritten
  split
  · next ht =>
    refine ⟨?_, .refl _⟩
    rw [← ht]
  · dsimp only
    split
    · next o _ _ =>
      have hk := Node.keeps_endCommand (n.onHead fun h => { h with tag := none }) o .done .nil
      exact ⟨hk.head, hk.svc⟩
    · exact ⟨rfl, .refl _⟩

theorem Node.svc_direct (n : Node) (p : PortId) (c : Cycle) : (n.direct p c).svc = n.svc := by cases p <;> rfl

theorem Node.svc_sendBare (n : Node) (c : Cycle) : (n.sendBare c).svc = n.svc := by
  unfold Node.sendBare
  split
  · exact Node.svc_direct ..
  · rfl

theorem Node.east_direct_west (n : Node) (c : Cycle) : (n.direct .west c).east = n.east := rfl

theorem Node.state_direct (n : Node) (p q : PortId) (c : Cycle) : ((n.direct p c).port q).state = (n.port q).state :=
  (Node.PortsStep.direct n p c).kept q

theorem Node.state_sendBare (n : Node) (c : Cycle) (q : PortId) : ((n.sendBare c).port q).state = (n.port q).state := by
  unfold Node.sendBare
  split
  · exact Node.state_direct ..
  · rfl

theorem Node.sent_sendBare {n : Node} (c : Cycle) (h : PortState.carries n.east.state = true) :
    (n.sendBare c).east.sent = some { c with content := none } := by
  unfold Node.sendBare
  rw [if_pos h]
  exact n.sent_direct .east _ h

/-! ## The outer-schedule cycle (R1, R17) -/

/-- R1: the marker of an outer-schedule cycle. -/
def Node.outerMarker (n : Node) : Marker :=
  { number := n.head.number, time := n.svc.time, voiceCap := n.set.voiceCap,
    foldCount := if n.head.origin = .east then 0 else 1, releaseTag := n.head.tag }

/-- R1, R17, R90: what the origination of the outer-schedule cycle leaves. -/
structure Node.OuterSent (n m : Node) (c : Cycle) (k : Content) : Prop where
  head : m.head = { n.head with tag := none }
  time : m.svc.time = n.svc.time
  state : ∀ p, (m.port p).state = (n.port p).state
  content : c.content = some k
  marker : c.marker = n.outerMarker
  voice : k.voice.length = n.set.voiceCap
  data : k.data.length = 62 - n.set.voiceCap
  sent : (m.port n.head.origin).sent = some c
  bare : n.head.origin = .west → PortState.carries n.east.state = true → m.east.sent = some { c with content := none }

theorem Node.outerSent {n : Node} (hc : PortState.carries (n.port n.head.origin).state = true) :
    ∃ c k, Node.OuterSent n n.originateOuter c k := by
  have hw := Node.WinStep.originateWindow n .outer (62 - n.set.voiceCap)
  have hlength := n.length_originateWindow .outer (62 - n.set.voiceCap)
  have hvoice := n.call.length_writeSlots n.set.voiceCap
  unfold Node.originateOuter
  dsimp only
  generalize n.originateWindow .outer (62 - n.set.voiceCap) = w at hw hlength ⊢
  have ht := w.1.tagWritten
  generalize w.1.releaseWritten = m at ht ⊢
  have hhead : m.head = { n.head with tag := none } := by rw [ht.head, hw.head]
  have htime : m.svc.time = n.svc.time := ht.time.trans hw.svc.time
  have hport (p : PortId) : m.port p = n.port p := (ht.port p).trans (hw.port p)
  cases ho : n.head.origin with
  | west =>
    have hcarries : PortState.carries (m.port .west).state = true := by rw [hport, ← ho]; exact hc
    rw [if_pos (decide_eq_true rfl)]
    refine ⟨_, _, ⟨(Node.SendStep.sendBare _ _).head.trans ((Node.direct_head ..).trans hhead),
      (congrArg Svc.time (Node.svc_sendBare ..)).trans ((congrArg Svc.time (Node.svc_direct ..)).trans htime),
      fun p => ?_, rfl, ?_, hvoice, hlength, ?_, fun _ he => Node.sent_sendBare _ ?_⟩⟩
    · rw [Node.state_sendBare, Node.state_direct, hport]
    · rw [Node.outerMarker, ho]
      rfl
    · rw [ho, Node.port_sendBare_west, m.sent_direct .west _ hcarries]
    · have heast : m.east = n.east := hport .east
      rw [Node.east_direct_west, heast]
      exact he
  | east =>
    have hcarries : PortState.carries (m.port .east).state = true := by rw [hport, ← ho]; exact hc
    have hsent (c : Cycle) : ((m.direct .east c).port n.head.origin).sent = some c := by
      rw [ho]
      exact m.sent_direct .east c hcarries
    rw [if_neg (by simp)]
    refine ⟨_, _, ⟨(Node.direct_head ..).trans hhead, (congrArg Svc.time (Node.svc_direct ..)).trans htime,
      fun p => ?_, rfl, ?_, hvoice, hlength, hsent _, fun hwest => absurd (ho.symm.trans hwest) (by decide)⟩⟩
    · rw [Node.state_direct, hport]
    · rw [Node.outerMarker, ho]
      rfl

/-! ## The inner-schedule cycle (R1, R17) -/

theorem Node.originateInner_idle {n : Node} (h : n.originates .inner = false) : n.originateInner = n :=
  if_neg (ne_true_of_eq_false h)

theorem Node.originates_inner (n : Node) : n.originates .inner = true ↔
    n.head.started = true ∧ n.head.state = .closed ∧ n.head.origin = .east := by
  simp only [Node.originates, Bool.and_eq_true, decide_eq_true_eq, and_assoc]

/-- R1, R17: in CLOSED with origin EAST an inner-schedule cycle goes out of WEST. -/
theorem Node.originateInner_sent {n : Node} (h : n.originates .inner = true)
    (hc : PortState.carries n.west.state = true) :
    ∃ c k, n.originateInner.west.sent = some c ∧ c.content = some k ∧ k.voice = [] ∧ k.data.length = 62 ∧
      c.marker = { number := n.head.number, time := n.svc.time, voiceCap := 0, foldCount := 0, releaseTag := none } := by
  have hw := Node.WinStep.originateWindow n .inner 62
  have hlength := n.length_originateWindow .inner 62
  unfold Node.originateInner
  rw [if_pos h]
  dsimp only
  generalize n.originateWindow .inner 62 = w at hw hlength ⊢
  have hcarries : PortState.carries (w.1.port .west).state = true := by
    rw [hw.port]
    exact hc
  exact ⟨_, _, w.1.sent_direct .west _ hcarries, rfl, rfl, hlength, rfl⟩

theorem Node.originateInner_rest (n : Node) :
    n.originateInner.head = n.head ∧ n.originateInner.svc.time = n.svc.time ∧
      n.originateInner.east = n.east ∧ (n.head.origin = .west → n.originateInner = n) := by
  refine ⟨(Node.SendStep.originateInner n).head, ?_, ?_, fun ho => ?_⟩
  · unfold Node.originateInner
    split
    · exact (congrArg Svc.time (Node.svc_direct ..)).trans (Node.WinStep.originateWindow n .inner 62).svc.time
    · rfl
  · unfold Node.originateInner
    split
    · exact (Node.WinStep.originateWindow n .inner 62).east
    · rfl
  · refine Node.originateInner_idle (Bool.eq_false_iff.2 fun h => ?_)
    exact absurd (ho.symm.trans ((Node.originates_inner n).1 h).2.2) (by decide)

/-! ## A cycle period (R1, R20) -/

/-- R1, R20: the node when a period's cycle is originated. -/
def Node.nextPeriod (n : Node) : Node := n.passPeriod.onHead fun h => { h with number := (h.number + 1) % 65536 }

theorem Node.originate_eq {n : Node} (h : n.head.started = true) :
    n.originate = n.nextPeriod.originateOuter.originateInner := by
  refine Eq.trans (b := if n.nextPeriod.head.started then n.nextPeriod.originateOuter.originateInner
    else n.nextPeriod) rfl (if_pos ?_)
  have hpass : n.passPeriod.head = n.head := by
    rw [n.passPeriod_eq]
  show n.passPeriod.head.started = true
  rw [hpass]
  exact h

theorem Node.nextPeriod_spec (n : Node) :
    n.nextPeriod.head = { n.head with number := (n.head.number + 1) % 65536 } ∧
    n.nextPeriod.svc.time = advanceTime n.svc.time ∧ n.nextPeriod.set = n.set ∧
    ∀ p, (n.nextPeriod.port p).state = (n.port p).state := by
  unfold Node.nextPeriod
  rw [n.passPeriod_eq]
  refine ⟨rfl, (advanceTime_eq _).symm, rfl, fun p => ?_⟩
  have hidle (b : Bool) (r : Port) :
      (if b then { r with sent := none, errLast := r.errNow, errNow := 0 } else { r with sent := none }).state =
        r.state := by
    cases b <;> rfl
  cases p
  · exact hidle ..
  · exact hidle ..

/-- R1, R17, R20, R90: what goes out in a cycle period. -/
theorem exec_originateCycle {s : State} (hp : s.node.phase = .started) (hh : s.node.isHead = true)
    (hs : s.node.head.started = true) (hc : PortState.carries (s.node.port s.node.head.origin).state = true)
    (hcap : s.node.set.voiceCap ≤ 24) :
    ∃ t c k, exec .originateCycle s = .next t ∧
      t.node.head.number = (s.node.head.number + 1) % 65536 ∧
      t.node.svc.time.seconds = (advanceTime s.node.svc.time).seconds ∧
      t.node.svc.time.cycle = (advanceTime s.node.svc.time).cycle ∧
      c.content = some k ∧
      c.marker = { number := t.node.head.number, time := t.node.svc.time, voiceCap := s.node.set.voiceCap,
                   foldCount := if s.node.head.origin = .east then 0 else 1, releaseTag := s.node.head.tag } ∧
      k.voice.length = s.node.set.voiceCap ∧ k.voice.length + k.data.length = 62 ∧ t.node.head.tag = none ∧
      (s.node.head.origin = .east → t.node.east.sent = some c ∧
        (s.node.head.state = .closed → PortState.carries s.node.west.state = true →
          ∃ ci ki, t.node.west.sent = some ci ∧ ci.content = some ki ∧ ki.voice = [] ∧ ki.data.length = 62 ∧
            ci.marker = { number := t.node.head.number, time := t.node.svc.time, voiceCap := 0, foldCount := 0,
                          releaseTag := none })) ∧
      (s.node.head.origin = .west → t.node.west.sent = some c ∧
        (PortState.carries s.node.east.state = true → t.node.east.sent = some { c with content := none })) := by
  obtain ⟨hhead, htime, hset, hstate⟩ := s.node.nextPeriod_spec
  have hrun : exec .originateCycle s = .next (s.settled s.node.originate) := State.act_onRole hp hh
  have hkeeps := Node.keeps_settle s.node.originate
  rw [Node.originate_eq hs] at hrun hkeeps
  generalize s.node.nextPeriod = n at hhead htime hset hstate hrun hkeeps
  have horigin : n.head.origin = s.node.head.origin := by rw [hhead]
  obtain ⟨c, k, hout⟩ := Node.outerSent (n := n) (by rw [hstate, horigin]; exact hc)
  obtain ⟨hihead, hitime, hieast, hiwest⟩ := n.originateOuter.originateInner_rest
  have hinner := Node.originateInner_sent (n := n.originateOuter)
  generalize n.originateOuter = m at hout hihead hitime hieast hiwest hinner hrun hkeeps
  have hmorigin : m.head.origin = s.node.head.origin := by rw [hout.head, hhead]
  refine ⟨_, c, k, hrun, ?_⟩
  rw [State.settled_node, hkeeps.head, hkeeps.svc.time, hkeeps.east, hkeeps.west, hihead, hitime, hieast]
  have hnumber : m.head.number = (s.node.head.number + 1) % 65536 := by rw [hout.head, hhead]
  have hmtime : m.svc.time = advanceTime s.node.svc.time := hout.time.trans htime
  have hmarker := hout.marker
  rw [Node.outerMarker, ← hout.time, hset, horigin] at hmarker
  refine ⟨hnumber, by rw [hmtime], by rw [hmtime], hout.content, ?_, hset ▸ hout.voice, ?_, by rw [hout.head],
    fun ho => ⟨?_, fun hclosed hw => ?_⟩, fun ho => ⟨?_, fun he => ?_⟩⟩
  · rw [hmarker, hout.head, hhead]
  · rw [hout.voice, hout.data, hset]
    omega
  · have hsent := hout.sent
    rw [horigin, ho] at hsent
    exact hsent
  · refine hinner ((Node.originates_inner m).2 ⟨?_, ?_, hmorigin.trans ho⟩) ?_
    · rw [hout.head, hhead]
      exact hs
    · rw [hout.head, hhead]
      exact hclosed
    · have hwest := (hout.state .west).trans (hstate .west)
      exact (congrArg PortState.carries hwest).trans hw
  · have hsent := hout.sent
    rw [horigin, ho] at hsent
    rw [hiwest (hmorigin.trans ho)]
    exact hsent
  · exact hout.bare (horigin.trans ho) ((congrArg PortState.carries (hstate .east)).trans he)

end Sys2Proof.Machine


/-! SUPPORT. The token at the head-end (R33, R39, R42) and a full cycle that returns at EAST (R18, R19), with the statement on
what the head-end originates. -/

namespace Sys2Proof.Machine

/-! ## The token field of an originated slot (R33) -/

section
variable {n : Node} {l : Loop}

/-- R33: the node once the accepted token is taken up. -/
def Node.uncarried (n : Node) (l : Loop) : Node := n.onLoop l fun w => { w with carried := none }

theorem Node.tokenField_opening (h : (n.win.loop l).opening = true) :
    n.tokenField l = (n.onLoop l fun w => { w with opening := false, carried := none }, .free) := if_pos h

theorem Node.tokenField_carries (h : (n.win.loop l).opening = false) (hh : (n.win.loop l).holding = none) :
    n.tokenField l = match (n.win.loop l).carried with
      | none => (n.uncarried l, .empty)
      | some t => (n.uncarried l).carryToken l t := by
  unfold Node.tokenField
  dsimp only
  rw [if_neg (ne_true_of_eq_false h), hh] <;> rfl

theorem Node.loop_uncarried (n : Node) (l : Loop) :
    (n.uncarried l).win.loop l = { n.win.loop l with carried := none } := n.loop_onLoop l _

theorem Node.carryToken_directed {x : Nat} (hx : x ≠ n.me) : n.carryToken l (.directed x) = (n, .directed x) :=
  if_neg hx

theorem Node.carryToken_mine {x : Nat} (hx : x = n.me) : n.carryToken l (.directed x) = (n.headTakes l true, .empty) :=
  if_pos hx

theorem Node.carryToken_named {x : Nat} (hc : (n.win.loop l).clearWay = some x) (hx : x ≠ n.me) :
    n.carryToken l .free = (n, .directed x) := by
  have hfilter : ((n.win.loop l).clearWay).filter (· ≠ n.me) = some x := by
    rw [hc]
    simp [hx]
  unfold Node.carryToken
  rw [hfilter]

theorem Node.carryToken_free (hc : (n.win.loop l).clearWay = none ∨ (n.win.loop l).clearWay = some n.me) :
    n.carryToken l .free = if n.hasWork l then (n.headTakes l false, .empty) else (n, .free) := by
  have hfilter : ((n.win.loop l).clearWay).filter (· ≠ n.me) = none := by
    rcases hc with hc | hc <;> rw [hc] <;> simp
  unfold Node.carryToken
  rw [hfilter]

/-- R33, R38: a token that the head-end takes as directed. -/
theorem Node.headTakes_directed (n : Node) (l : Loop) : ((n.headTakes l true).win.loop l).timer = none ∧
    ((n.headTakes l true).win.loop l).cwLock = true ∧
    ((n.headTakes l true).win.loop l).holding.map Holding.directed = some true := by
  unfold Node.headTakes
  rw [if_pos rfl, Node.loop_onLoop, Node.takeDirected, Node.loop_onLoop]
  exact ⟨rfl, rfl, rfl⟩

/-- R33, R34: a FREE token that the head-end takes. -/
theorem Node.headTakes_normal (hc : (n.win.loop l).clearWay = none ∨ (n.win.loop l).clearWay = some n.me) :
    ((n.headTakes l false).win.loop l).timer = none ∧
    ((n.headTakes l false).win.loop l).lapLock = some (n.win.loop l).lap ∧
    ((n.headTakes l false).win.loop l).clearWay = none ∧
    ((n.headTakes l false).win.loop l).holding.map Holding.directed = some false := by
  have hme : (n.takeNormal l (n.win.loop l).lap).me = n.me := rfl
  unfold Node.headTakes
  rw [if_neg Bool.false_ne_true]
  dsimp only
  rw [Node.loop_onLoop, hme, Node.takeNormal, Node.loop_onLoop]
  refine ⟨rfl, rfl, ?_, rfl⟩
  show Option.filter _ (n.win.loop l).clearWay = none
  rcases hc with hc | hc <;> rw [hc] <;> simp

end

/-- R33: the token field of an originated slot, by what the loop carries. -/
theorem Node.tokenField_spec (n : Node) (l : Loop) :
    let w := n.win.loop l
    let run := n.tokenField l
    (w.opening = true → run = (n.onLoop l fun w => { w with opening := false, carried := none }, .free)) ∧
    (w.opening = false → w.holding = none →
      (w.carried = none ∨ w.carried = some .empty → run = (n.onLoop l fun w => { w with carried := none }, .empty)) ∧
      (∀ x, w.carried = some (.directed x) → x ≠ n.me →
        run = (n.onLoop l fun w => { w with carried := none }, .directed x)) ∧
      (∀ x, w.carried = some .free → w.clearWay = some x → x ≠ n.me →
        run = (n.onLoop l fun w => { w with carried := none }, .directed x)) ∧
      (∀ x, w.carried = some (.directed x) → x = n.me → run.2 = .empty ∧ (run.1.win.loop l).timer = none ∧
        (run.1.win.loop l).cwLock = true ∧
        ((run.1.win.loop l).holding).map Holding.directed = some true) ∧
      (w.carried = some .free → (w.clearWay = none ∨ w.clearWay = some n.me) →
        (n.hasWork l = false → run = (n.onLoop l fun w => { w with carried := none }, .free)) ∧
        (n.hasWork l = true → run.2 = .empty ∧ (run.1.win.loop l).timer = none ∧
          (run.1.win.loop l).lapLock = some w.lap ∧ (run.1.win.loop l).clearWay = none ∧
          ((run.1.win.loop l).holding).map Holding.directed = some false))) := by
  dsimp only
  have hme : (n.uncarried l).me = n.me := rfl
  have hloop := n.loop_uncarried l
  refine ⟨Node.tokenField_opening, fun ho hh => ?_⟩
  rw [Node.tokenField_carries ho hh]
  refine ⟨fun hc => ?_, fun x hc hx => ?_, fun x hc hw hx => ?_, fun x hc hx => ?_, fun hc hw => ?_⟩
  · rcases hc with hc | hc <;> rw [hc] <;> rfl
  · rw [hc]
    exact Node.carryToken_directed (n := n.uncarried l) hx
  · rw [hc]
    exact Node.carryToken_named (n := n.uncarried l) (by rw [hloop]; exact hw) hx
  · rw [hc]
    dsimp only
    rw [Node.carryToken_mine (n := n.uncarried l) hx]
    exact ⟨rfl, Node.headTakes_directed ..⟩
  · have hwork : (n.uncarried l).hasWork l = n.hasWork l := by
      unfold Node.hasWork Node.uncarried Node.onLoop Win.onLoop
      cases l <;> rfl
    have hclear : ((n.uncarried l).win.loop l).clearWay = none ∨
        ((n.uncarried l).win.loop l).clearWay = some (n.uncarried l).me := by
      rw [hloop]
      exact hw
    rw [hc]
    dsimp only
    rw [Node.carryToken_free hclear, hwork]
    refine ⟨fun h => if_neg (ne_true_of_eq_false h), fun h => ?_⟩
    have htakes := Node.headTakes_normal hclear
    rw [if_pos h]
    rw [hloop] at htakes
    exact ⟨rfl, htakes⟩

/-- R33, R39, R42: the management slot that the head-end originates. -/
theorem Node.originateMgmt_spec (n : Node) (l : Loop) (k : Nat) :
    let m := n.originateMgmt l k
    (m.1.win.loop l).record = newRecord m.2.token ∧
    m.2.lap = (m.1.win.loop l).lap ∧ m.2.clearWay = (m.1.win.loop l).clearWay := by
  unfold Node.originateMgmt
  dsimp only
  rw [Node.loop_onLoop]
  exact ⟨rfl, rfl, rfl⟩

/-! ## A token in a stripped slot (R33, R42) -/

section
variable {n : Node} {l : Loop} {m : Mgmt}

theorem Node.acceptToken_empty (h : m.token = .empty) : n.acceptToken l m = n := if_pos h

theorem Node.acceptToken_duplicate (h : m.token ≠ .empty)
    (hd : m.lap ≠ (n.win.loop l).lap ∨ (n.win.loop l).holding ≠ none) :
    n.acceptToken l m = { n with win := { n.win with duplicate := bump 65535 n.win.duplicate } } := by
  refine (if_neg h).trans (if_neg ?_)
  rintro ⟨hlap, hholding⟩
  exact hd.elim (fun hne => hne hlap) fun hne => hne hholding

variable (h : m.token ≠ .empty) (hlap : m.lap = (n.win.loop l).lap) (hh : (n.win.loop l).holding = none)
include h hlap hh

theorem Node.acceptToken_taken (hu : ∀ x, m.token = .directed x → (n.win.loop l).record ≠ some x) :
    n.acceptToken l m =
      (n.onLoop l fun w => { w with lap := (w.lap + 1) % 256, carried := some m.token }).restartLoss l := by
  refine (if_neg h).trans ((if_pos ⟨hlap, hh⟩).trans ?_)
  cases ht : m.token with
  | directed x =>
    cases hr : (n.win.loop l).record with
    | none => rfl
    | some y =>
      have hne : x ≠ y := fun he => hu x ht (hr.trans (congrArg some he.symm))
      simp only [if_neg hne]
  | _ => rfl

theorem Node.acceptToken_untaken {x : Nat} (ht : m.token = .directed x) (hr : (n.win.loop l).record = some x) :
    n.acceptToken l m = ((n.onLoop l fun w => { w with
        lap := (w.lap + 1) % 256, carried := some .free
        clearWay := if w.clearWay = some x then none else w.clearWay
        cwFirst := if w.clearWay = some x then none else w.cwFirst }).post .clearWayUntaken .none
      [.loop l, .nat x]).restartLoss l := by
  have hclear (w : LoopSt) : w.clearWay.filter (· ≠ x) = if w.clearWay = some x then none else w.clearWay := by
    cases hw : w.clearWay with
    | none => rfl
    | some y => by_cases hy : y = x <;> simp [hy]
  refine (if_neg h).trans ((if_pos ⟨hlap, hh⟩).trans ?_)
  simp only [ht, hr, if_true, hclear]

end

/-! ## The clear-way value learned at a strip (R39) -/

theorem Node.learnClearWay_spec (n : Node) (l : Loop) (k : Nat) (m : Mgmt) :
    let w := n.win.loop l
    let learned := (n.learnClearWay l k m).win.loop l
    (∀ x, w.clearWay = none → m.clearWay = some x → x ≠ n.me →
      learned = { w with clearWay := some x, cwFirst := none }) ∧
    (∀ x f, w.clearWay = some x → x ≠ n.me → m.clearWay = none → w.cwFirst = some f → notBefore k f = true →
      learned = { w with clearWay := none, cwFirst := none }) ∧
    (∀ x y, w.clearWay = some x → m.clearWay = some y → learned = w) ∧
    (∀ x, w.clearWay = some x → m.clearWay = none →
      (x = n.me ∨ w.cwFirst = none ∨ w.cwFirst.map (notBefore k) = some false) → learned = w) := by
  dsimp only
  unfold Node.learnClearWay
  rw [Node.loop_onLoop]
  generalize n.win.loop l = w
  refine ⟨fun x hw hm hx => ?_, fun x f hw hx hm hf hk => ?_, fun x y hw hm => ?_, fun x hw hm hkeep => ?_⟩
  · simp only [hw, hm, if_neg hx]
  · simp only [hw, hm, hf, if_pos (And.intro hx hk)]
  · simp only [hw, hm]
  · simp only [hw, hm]
    cases hf : w.cwFirst with
    | none => rfl
    | some f =>
      refine if_neg ?_
      rintro ⟨hx, hk⟩
      rw [hf] at hkeep
      rcases hkeep with hme | hnone | hlate
      · exact hx hme
      · cases hnone
      · rw [Option.map_some, hk] at hlate
        cases hlate

/-! ## A full cycle returns at EAST with origin EAST (R17, R18, R19) -/

/-- What counting at the head-end's EAST port leaves, its origin being EAST. -/
structure Node.EastStep (n m : Node) : Prop where
  head : m.head = n.head
  west : m.west = n.west
  call : m.call = n.call

theorem Node.eastStep_changePort {n : Node} (hh : n.isHead = true) (ho : n.head.origin = .east) (c : PortCause) :
    Node.EastStep n (n.changePort .east .run c) := by
  unfold Node.changePort
  extract_lets old m1 m2 wasRun isRun
  have h2 : Node.EastStep n m2 ∧ m2.isHead = true := by
    unfold m2
    split
    · exact ⟨⟨rfl, rfl, rfl⟩, hh⟩
    · exact ⟨⟨rfl, rfl, rfl⟩, (Node.WinStep.post m1 _ _ _).isHead.trans hh⟩
  have hrun : m2.headPort .east isRun = m2 := by
    rw [Node.headPort_east (by rw [h2.1.head]; exact ho)]
    exact if_pos (decide_eq_true rfl)
  split
  · exact h2.1
  · rw [if_pos h2.2, hrun]
    exact h2.1

/-- R4, R8: a good marker without coding errors at the head-end's EAST port. -/
theorem Node.eastStep_classify {n : Node} (hh : n.isHead = true) (ho : n.head.origin = .east) :
    Node.EastStep n (n.classify .east true 0) := by
  have hmissing (h : (n.port .east).state = .run) : ((n.port .east).counted true 0).missing = 0 := by
    unfold Port.counted
    rw [if_pos ((PortState.classifies_iff _).2 (.inr (.inl h)))]
    rfl
  rw [Node.classify_eq]
  unfold Node.judged
  dsimp only
  split
  · have hstep := Node.eastStep_changePort (n := n.onPort .east fun _ => (n.port .east).counted true 0) hh ho .markersGood
    exact ⟨hstep.head, hstep.west, hstep.call⟩
  · rw [if_neg, if_neg]
    · exact ⟨rfl, rfl, rfl⟩
    · rintro ⟨-, hpos, -⟩
      omega
    · rintro ⟨hrun, hmiss⟩
      rw [hmissing hrun] at hmiss
      omega

theorem Node.strip_call {n : Node} (ho : n.head.origin = .east) (c : Cycle) (k : Content) :
    (n.strip .east c k).call = n.call := by
  unfold Node.strip
  extract_lets x m m'
  have hdata : Node.WinStep n x.1 := .stripData n c.loop k.data
  have hsurvey : Node.SurveyStep x.1 m := .foldl .gatherSurvey x.2 x.1
  have hmgmt : Node.WinStep m m' := .stripMgmt ..
  have hcall : m'.call = n.call := by rw [hmgmt.call, hsurvey.rest, hdata.call]
  have horigin : m'.head.origin = .east := by rw [hmgmt.head, hsurvey.rest, hdata.head, ho]
  split
  · exact hcall
  · exact hcall
  · next hother => exact absurd horigin (hother rfl)

theorem Node.foldedReturn_rest (n : Node) :
    (∀ p, n.foldedReturn.port p = n.port p) ∧ n.foldedReturn.call = n.call := by
  unfold Node.foldedReturn
  extract_lets m
  split
  · exact ⟨fun p => by cases p <;> rfl, rfl⟩
  · have hset := m.ringSet_setRing .wrapped
    exact ⟨fun p => (hset.port p).trans (by cases p <;> rfl), hset.call⟩

/-- R18: a folded cycle is relayed with the slots for this node emptied. -/
theorem Node.relayReturn_spec {n : Node} (hc : PortState.carries n.west.state = true) (c : Cycle) (k : Content) :
    (n.relayReturn c k).head = n.head ∧ (n.relayReturn c k).call = n.call ∧ (n.relayReturn c k).isHead = n.isHead ∧
    (n.relayReturn c k).west.sent = some { c with content := some { k with
      data := k.data.map fun x => x.filter fun (v : Slot) => v.dest ≠ n.me } } := by
  have hdata : (n.takeData c.loop k.data).2 = k.data.map fun x => x.filter fun (v : Slot) => v.dest ≠ n.me :=
    takeSlots_data ..
  refine ⟨rfl, rfl, rfl, ?_⟩
  rw [← hdata]
  exact (n.takeData c.loop k.data).1.sent_direct .west _ hc

theorem Node.fullReturn_east {n : Node} (ho : n.head.origin = .east) (c : Cycle) (k : Content) :
    n.fullReturn .east c k =
      let m := n.onHead fun h => { h with lastReturn := n.svc.now }
      if c.marker.foldCount = 0 then m.strip .east c k
      else if PortState.carries n.west.state then (m.relayReturn c k).foldedReturn
      else (m.strip .east c k).foldedReturn := by
  have horigin : (n.onHead fun h => { h with lastReturn := n.svc.now }).head.origin = .east := ho
  unfold Node.fullReturn
  dsimp only
  rw [horigin] <;> rfl

theorem Node.returns_east {n : Node} (hc : PortState.carries n.east.state = true) {c : Cycle} {k : Content}
    (hk : c.content = some k) (good : Bool) (errors : Nat) :
    n.returns .east c good errors = (n.fullReturn .east c k).classify .east good errors := by
  unfold Node.returns
  rw [if_pos (show PortState.carries (n.port .east).state = true from hc), hk]

/-- R18, R19: what a full return at EAST leaves of the ring, the calls and the WEST port. -/
structure Node.EastReturned (n : Node) (c : Cycle) (k : Content) (m : Node) : Prop where
  isHead : m.isHead = n.isHead
  lastReturn : m.head.lastReturn = n.svc.now
  origin : m.head.origin = .east
  call : m.call = n.call
  unfolded : c.marker.foldCount = 0 → m.head.state = n.head.state ∧ m.head.closing = n.head.closing
  folded : c.marker.foldCount ≠ 0 → m.head.state = .wrapped ∧ m.head.closing = 0
  relayed : c.marker.foldCount ≠ 0 → PortState.carries n.west.state = true → m.west.sent = some
    { c with content := some { k with data := k.data.map fun x => x.filter fun (v : Slot) => v.dest ≠ n.me } }

theorem Node.eastReturned {n : Node} (ho : n.head.origin = .east) (c : Cycle) (k : Content) :
    Node.EastReturned n c k (n.fullReturn .east c k) := by
  rw [Node.fullReturn_east ho]
  dsimp only
  have hstrip := (n.onHead fun h => { h with lastReturn := n.svc.now }).stripped_strip .east c k
  have hcall : ((n.onHead fun h => { h with lastReturn := n.svc.now }).strip .east c k).call = n.call :=
    Node.strip_call (n := n.onHead fun h => { h with lastReturn := n.svc.now }) ho c k
  by_cases hfold : c.marker.foldCount = 0
  · rw [if_pos hfold]
    generalize (n.onHead fun h => { h with lastReturn := n.svc.now }).strip .east c k = m at hstrip hcall ⊢
    refine ⟨hstrip.isHead, ?_, ?_, hcall, fun _ => ?_, fun h => absurd hfold h, fun h => absurd hfold h⟩
    · rw [hstrip.head]
      rfl
    · rw [hstrip.head]
      exact ho
    · rw [hstrip.head]
      exact ⟨rfl, rfl⟩
  · rw [if_neg hfold]
    by_cases hw : PortState.carries n.west.state = true
    · rw [if_pos hw]
      obtain ⟨hhead, hrcall, hishead, hsent⟩ :=
        Node.relayReturn_spec (n := n.onHead fun h => { h with lastReturn := n.svc.now }) hw c k
      generalize (n.onHead fun h => { h with lastReturn := n.svc.now }).relayReturn c k = m
        at hhead hrcall hishead hsent ⊢
      obtain ⟨j, sv, hwrapped⟩ := m.foldedReturn_head
      obtain ⟨hport, hfcall⟩ := m.foldedReturn_rest
      refine ⟨m.foldedReturn_isHead.trans hishead, ?_, ?_, hfcall.trans hrcall, fun h => absurd h hfold, fun _ => ?_,
        fun _ _ => (congrArg Port.sent (hport .west)).trans hsent⟩
      · rw [hwrapped, hhead]
        rfl
      · rw [hwrapped, hhead]
        exact ho
      · rw [hwrapped]
        exact ⟨rfl, rfl⟩
    · rw [if_neg hw]
      generalize (n.onHead fun h => { h with lastReturn := n.svc.now }).strip .east c k = m at hstrip hcall ⊢
      obtain ⟨j, sv, hwrapped⟩ := m.foldedReturn_head
      refine ⟨m.foldedReturn_isHead.trans hstrip.isHead, ?_, ?_, m.foldedReturn_rest.2.trans hcall,
        fun h => absurd h hfold, fun _ => ?_, fun _ h => absurd h hw⟩
      · rw [hwrapped, hstrip.head]
        rfl
      · rw [hwrapped, hstrip.head]
        exact ho
      · rw [hwrapped]
        exact ⟨rfl, rfl⟩

/-- R18, R19: a full cycle with a good marker that arrives at the head-end's EAST, its origin being EAST. -/
theorem exec_cycleReturns_east {c : Cycle} {k : Content} {s : State} (hp : s.node.phase = .started)
    (hh : s.node.isHead = true) (hc : PortState.carries s.node.east.state = true) (hk : c.content = some k)
    (ho : s.node.head.origin = .east) :
    ∃ t, exec (.cycleReturns .east c true 0) s = .next t ∧ t.node.head.lastReturn = s.node.svc.now ∧
      t.node.head.origin = .east ∧ t.node.call.consoles = s.node.call.consoles ∧
      t.node.call.table = s.node.call.table ∧
      (c.marker.foldCount = 0 → t.node.head.state = s.node.head.state ∧
        t.node.head.closing = s.node.head.closing) ∧
      (c.marker.foldCount ≠ 0 → t.node.head.state = .wrapped ∧ t.node.head.closing = 0 ∧
        (PortState.carries s.node.west.state = true → t.node.west.sent = some
          { c with content := some { k with data := k.data.map fun x => x.filter fun (v : Slot) =>
              v.dest ≠ s.node.me } })) := by
  have hrun : exec (.cycleReturns .east c true 0) s = .next (s.settled (s.node.returns .east c true 0)) :=
    State.act_onRole hp hh
  have hk' := Node.keeps_settle (s.node.returns .east c true 0)
  rw [Node.returns_east hc hk] at hrun hk'
  have hret := Node.eastReturned ho c k
  generalize s.node.fullReturn .east c k = m at hret hrun hk'
  have heast := Node.eastStep_classify (hret.isHead.trans hh) hret.origin
  generalize m.classify .east true 0 = u at heast hrun hk'
  refine ⟨_, hrun, ?_⟩
  rw [State.settled_node, hk'.head, hk'.consoles, hk'.table, hk'.west, heast.head, heast.west, heast.call, hret.call]
  exact ⟨hret.lastReturn, hret.origin, rfl, rfl, hret.unfolded, fun hf =>
    ⟨(hret.folded hf).1, (hret.folded hf).2, hret.relayed hf⟩⟩

/-- Settles O17: the period's cycles, the token field and the stripped slot case by case, and the return at EAST. -/
theorem headEndOriginates : Obligations.HeadEndOriginates := by
  refine ⟨fun s hp hh hs hc hcap => exec_originateCycle hp hh hs hc hcap, fun n l k => ?_, fun n l k m =>
    ⟨Node.acceptToken_empty, fun h hd => Node.acceptToken_duplicate h hd,
      fun h hlap hh hu => Node.acceptToken_taken h hlap hh hu, fun x ht hlap hh hr => ?_,
      n.learnClearWay_spec l k m⟩,
    fun c k s hp hh hc hk ho => exec_cycleReturns_east hp hh hc hk ho⟩
  · obtain ⟨hopening, hcarries⟩ := n.tokenField_spec l
    exact ⟨hopening, hcarries, n.originateMgmt_spec l k⟩
  · exact Node.acceptToken_untaken (by rw [ht]; exact TokenField.noConfusion) hlap hh ht hr

end Sys2Proof.Machine
